-- ==== Sys2Proof/Word.lean ====
section
/-! DEFINITION. The word types of the SZ9 and their plainest operations (R1 to R3, R43). -/

namespace Sys2Proof

/-- One byte of memory (R3). -/
abbrev Byte := BitVec 8

/-- A register lane value (R41). -/
abbrev Word := BitVec 32

/-- A 64-bit lane value: a register pair (R41). -/
abbrev Word64 := BitVec 64

/-- A lane mask: bit l stands for lane l (R11). -/
abbrev Mask := BitVec 32

/-- The lane numbers of a group, ascending (R8). -/
abbrev lanes32 : List Nat := List.range 32

/-- A table of entries by number; a number that is not listed has the caller's default. -/
abbrev Tbl (α : Type) := List (Nat × α)

/-- The bits of `x` from `lo` upward, `n` of them. -/
abbrev bitsOf (x lo n : Nat) : Nat := x / 2 ^ lo % 2 ^ n

end Sys2Proof
end

