-- ==== Sys2Proof/Syntax.lean ====
section
/-! DEFINITION. The syntax of the SZ9: the codes of the instruction fields, the data that events carry, and
`Instr`, one constructor for each row of the opcode table (R190 to R207, and the events of spec/95). -/

namespace Sys2Proof

/-- Conditions of icmp (R195). -/
inductive CmpCond | eq | ne | lt | le | gt | ge
  deriving DecidableEq, Repr

/-- Conditions of fcmp (R195). -/
inductive FCond | eq | ne | lt | le | gt | ge | un | ord
  deriving DecidableEq, Repr

/-- Integer types of icmp (R195) and of the atomics with four types (R203; there in the order n32, s32, n64, s64). -/
inductive IntTy | s32 | n32 | s64 | n64
  deriving DecidableEq, Repr

/-- Float formats of fbin, with the packed ones (R197). -/
inductive FBinFmt | f32 | f16 | bf16 | f16x2 | bf16x2
  deriving DecidableEq, Repr

/-- Float formats of fun and of fcmp (R195, R197). -/
inductive FFmt | f32 | f16 | bf16
  deriving DecidableEq, Repr

/-- The format codes of R48 that may stand in a tag. -/
inductive Fmt
  | b32 | s8 | s16 | s32 | s64 | n8 | n16 | n32 | n64 | f32 | f16 | bf16 | e4m3 | ta8 | ta6
  | f16x2 | bf16x2 | e4m3x4 | ta8x4 | ta6x4 | e8x4 | s8x4 | n8x4
  deriving DecidableEq, Repr

/-- Conditions of br and call (R227). -/
inductive BrCond | always | t | f | any | all | none
  deriving DecidableEq, Repr

/-- Operations of scan and scanx (R199). -/
inductive ScanOp | addN32 | addF32 | minS32 | minN32 | maxS32 | maxN32 | minF32 | maxF32
  deriving DecidableEq, Repr

/-- Access size and type of a load or store (R202). -/
inductive Sz | n8 | s8 | n16 | s16 | n32 | s32 | f32 | n64
  deriving DecidableEq, Repr

/-- Types that lkld and stul accept (R202). -/
inductive LkSz | n32 | s32 | f32
  deriving DecidableEq, Repr

/-- Scopes (R117). -/
inductive Scope | grp | crew | coh | dev | span | sys
  deriving DecidableEq, Repr

/-- Use or order of a global atomic, the uo field (R118). -/
inductive Use | unp | comm | nord | quan | spec | acq | rel | ar
  deriving DecidableEq, Repr

/-- Types of cas (R203). -/
inductive CasTy | n32 | n64
  deriving DecidableEq, Repr

/-- Operations of red (R203). -/
inductive RedOp | add | min | max | and | or | xor | fadd | fmin | fmax
  deriving DecidableEq, Repr

/-- Matrix formats (R279). -/
inductive MxFmt | ta8 | e4m3 | s8 | ta6 | bf16 | f16
  deriving DecidableEq, Repr

/-- Formats of mdrain: the matrix formats and f32 (R292). -/
inductive DrFmt | ta8 | e4m3 | s8 | ta6 | bf16 | f16 | f32
  deriving DecidableEq, Repr

/-- Rounding modes in the coding of c.round (R56). -/
inductive Rnd | rn | rz | ru | rd | rs
  deriving DecidableEq, Repr

/-- The control registers of R56. -/
inductive CReg
  | wid | lane | slice | gang | where_ | time | tokens | charge | allow | txstat | bflag | quantum | batch
  | round | seed
  deriving DecidableEq, Repr

/-! ### Data that an event brings from outside the machine -/

/-- A firmware image (R442). -/
structure Image where
  kind : Nat
  version : Nat
  body : List Byte
  key : List Byte := []    -- the signer's key
  sig : List Byte := []
  deriving DecidableEq, Repr

/-- What the fuses, the board and the boot self-tests hold when the package starts (R60, R381, R395, R406, R423,
R442, R443, R445). -/
structure Boot where
  bankOut : List (Nat × Nat)  -- (core, register-file bank) mapped out (R59)
  present : List Bool         -- memory dies that passed their self-test
  ctxDie : Nat                -- the die that holds the context region
  coordX : Nat
  coordY : Nat
  flux : Nat                  -- PWR_DIE.flux, 0.1 W/cm²
  area : Nat                  -- PWR_DIE.area, mm²
  capacity : Nat              -- CHARGE.capacity, tokens
  mgmt : List (Nat × Nat × Nat) -- management table: (x, y, first-hop port) (R410)
  links : List Nat            -- host links that train (0: IO0, 1: IO1)
  cxl : Bool                  -- IO0's link trains for CXL (R401)
  ports : List Nat            -- fabric ports that train
  images : List Image         -- the images in the store, where the device has stored none since
  romOk : Bool                -- the Uligralvo image in the store verifies (step 1)
  imagesOk : Bool             -- the other images verify (step 2)
  memOk : Bool                -- the memory stacks train (step 3)
  badLinks : List Nat := []   -- host links that fail to train (step 6)
  badPorts : List Nat := []   -- fabric ports that fail to train (step 7)
  deriving DecidableEq, Repr

/-- A host access through CXL.mem (R401, R402). -/
inductive HostAccess
  | read (addr len : Nat)
  | write (addr : Nat) (data : List Byte)
  deriving DecidableEq, Repr

/-- What the sensors read at an interval boundary (R423, R425, R429). -/
structure Measure where
  charge : Nat                 -- usable charge, tokens
  clusterTemp : List Nat       -- °C, by cluster
  dieTemp : List Nat           -- °C, by memory die
  rails : List (Nat × Nat × Nat) -- (mV, 0.1 A, peak 0.1 A) by rail
  deriving DecidableEq, Repr

/-- Which kinds of backfill find work in a cycle, and what a scrub read finds (R427, R433, R441). -/
inductive Scrub
  | none
  | clean (sector : Nat)          -- a sector with no error is read
  | corrected (sector : Nat)      -- a correctable error is found in the sector
  | uncorrectable (sector : Nat)  -- an uncorrectable error is found in the sector
  | testFailed (cluster : Nat)    -- a self-test of a cluster fails
  deriving DecidableEq, Repr

/-- A flit of the fabric (R409). -/
structure Flit where
  dx : Nat
  dy : Nat
  sx : Nat
  sy : Nat
  vc : Nat
  kind : Nat
  rsv : Nat        -- the reserved header fields, 0 in a valid flit
  span : Nat
  seq : Nat
  valid : Nat
  payload : List Byte
  deriving DecidableEq, Repr

/-- A contribution of a peer to a reduction, or a result an owner sends (R417, R418). -/
structure Contribution where
  ident : Nat
  rank : Nat              -- the sender's peer rank
  chunk : Nat
  offset : Nat            -- byte offset in the chunk
  result : Bool           -- true: the owner's final bytes, false: a contribution
  sat : List Bool         -- saturation marks of the elements, for a final result
  agree : Bool            -- the sender's binding and fields equal this device's (R421 error 2)
  poisoned : Bool         -- the data met an uncorrectable error (R421 error 5)
  data : List Byte
  deriving DecidableEq, Repr

/-- A row of an all-to-all (R420). -/
structure Row where
  ident : Nat
  rank : Nat              -- the sender's peer rank
  chunk : Nat             -- the chunk it belongs to
  data : List Byte        -- the whole row, tag first
  deriving DecidableEq, Repr

/-- Statistics of one port over one window (R411). -/
structure PortStats where
  height : Nat
  width : Nat
  lane : Nat
  cerr : Nat
  retries : Nat
  deriving DecidableEq, Repr

/-- How a DMA copy ends (R404, R405): with the last byte (for a copy-in, the bytes the host supplied), or with an
error completion. -/
inductive DmaEnd
  | piece (ix : Nat) (bytes : List Byte) -- one piece of 4 KiB is moved ahead of the end
  | data (bytes : List Byte)
  | failed
  deriving DecidableEq, Repr

/-- The instructions, commands and events of the SZ9, one constructor for each row of the opcode table. Register, mask,
bench, slot and immediate fields are the numbers that the fields hold (R175); enumerated codes are the types above. -/
inductive Instr
  | iadd (d a b m : Nat)  -- R215
  | isub (d a b m : Nat)  -- R215
  | imulLo (d a b m : Nat)  -- R215
  | imulHiS32 (d a b m : Nat)  -- R215
  | imulHiN32 (d a b m : Nat)  -- R215
  | iminS32 (d a b m : Nat)  -- R215
  | iminN32 (d a b m : Nat)  -- R215
  | imaxS32 (d a b m : Nat)  -- R215
  | imaxN32 (d a b m : Nat)  -- R215
  | iabsS32 (d a m : Nat)  -- R215
  | ineg (d a m : Nat)  -- R215
  | idivS32 (d a b m : Nat)  -- R216
  | idivN32 (d a b m : Nat)  -- R216
  | iremS32 (d a b m : Nat)  -- R216
  | iremN32 (d a b m : Nat)  -- R216
  | iaddSatS32 (d a b m : Nat)  -- R215
  | iaddSatN32 (d a b m : Nat)  -- R215
  | isubSatS32 (d a b m : Nat)  -- R215
  | isubSatN32 (d a b m : Nat)  -- R215
  | iadd64 (d a b m : Nat)  -- R215
  | isub64 (d a b m : Nat)  -- R215
  | imulLo64 (d a b m : Nat)  -- R215
  | imulWideS32 (d a b m : Nat)  -- R215
  | imulWideN32 (d a b m : Nat)  -- R215
  | iminS64 (d a b m : Nat)  -- R215
  | iminN64 (d a b m : Nat)  -- R215
  | imaxS64 (d a b m : Nat)  -- R215
  | imaxN64 (d a b m : Nat)  -- R215
  | mov (d m i : Nat)  -- R217
  | iaddImm (d a m i : Nat)  -- R217
  | imulLoImm (d a m i : Nat)  -- R217
  | andImm (d a m i : Nat)  -- R217
  | orImm (d a m i : Nat)  -- R217
  | xorImm (d a m i : Nat)  -- R217
  | shlImm (d a m c : Nat)  -- R220
  | shrNImm (d a m c : Nat)  -- R220
  | shrSImm (d a m c : Nat)  -- R220
  | rotlImm (d a m c : Nat)  -- R220
  | bfeNImm (d a m w p : Nat)  -- R222
  | bfeSImm (d a m w p : Nat)  -- R222
  | bfi (d a m w p : Nat)  -- R223
  | imad (d a b c m : Nat)  -- R218
  | and_ (d a b m : Nat)  -- R219
  | or_ (d a b m : Nat)  -- R219
  | xor_ (d a b m : Nat)  -- R219
  | andn (d a b m : Nat)  -- R219
  | orn (d a b m : Nat)  -- R219
  | not_ (d a m : Nat)  -- R219
  | shl (d a b m : Nat)  -- R220
  | shrN (d a b m : Nat)  -- R220
  | shrS (d a b m : Nat)  -- R220
  | rotl (d a b m : Nat)  -- R220
  | popc (d a m : Nat)  -- R221
  | clz (d a m : Nat)  -- R221
  | ctz (d a m : Nat)  -- R221
  | brev (d a m : Nat)  -- R221
  | bfeN (d a b m : Nat)  -- R222
  | bfeS (d a b m : Nat)  -- R222
  | shl64 (d a b m : Nat)  -- R220
  | shrN64 (d a b m : Nat)  -- R220
  | shrS64 (d a b m : Nat)  -- R220
  | popc64 (d a m : Nat)  -- R221
  | clz64 (d a m : Nat)  -- R221
  | icmp (d a b : Nat) (t : IntTy) (c : CmpCond)  -- R224
  | sel (d a b c m : Nat)  -- R225
  | mand (d a b : Nat)  -- R226
  | mor (d a b : Nat)  -- R226
  | mxor (d a b : Nat)  -- R226
  | mandn (d a b : Nat)  -- R226
  | mnot (d a : Nat)  -- R226
  | mmov (d a : Nat)  -- R226
  | mpop (d a : Nat)  -- R226
  | mfirst (d a : Nat)  -- R226
  | mtov (d a : Nat)  -- R226
  | vtom (d a : Nat)  -- R226
  | br (c : BrCond) (m o : Nat)  -- R228
  | call (c : BrCond) (m o : Nat)  -- R229
  | join  -- R230
  | jmp (a : Nat)  -- R231
  | calli (d a : Nat)  -- R231
  | ret (a : Nat)  -- R231
  | regang (s : Nat)  -- R20
  | fadd (d a b m : Nat) (f : FBinFmt)  -- R238
  | fsub (d a b m : Nat) (f : FBinFmt)  -- R238
  | fmul (d a b m : Nat) (f : FBinFmt)  -- R238
  | fdiv (d a b m : Nat) (f : FBinFmt)  -- R238
  | fmin (d a b m : Nat) (f : FBinFmt)  -- R235
  | fmax (d a b m : Nat) (f : FBinFmt)  -- R235
  | fcopysign (d a b m : Nat) (f : FBinFmt)  -- R235
  | fneg (d a m : Nat) (f : FFmt)  -- R239
  | fabs (d a m : Nat) (f : FFmt)  -- R239
  | fsqrt (d a m : Nat) (f : FFmt)  -- R239
  | frcp (d a m : Nat) (f : FFmt)  -- R239
  | frsq (d a m : Nat) (f : FFmt)  -- R239
  | fexp2 (d a m : Nat) (f : FFmt)  -- R239
  | flog2 (d a m : Nat) (f : FFmt)  -- R239
  | fsin (d a m : Nat) (f : FFmt)  -- R239
  | fcos (d a m : Nat) (f : FFmt)  -- R239
  | ftanh (d a m : Nat) (f : FFmt)  -- R239
  | fsigm (d a m : Nat) (f : FFmt)  -- R239
  | ffloor (d a m : Nat) (f : FFmt)  -- R239
  | fceil (d a m : Nat) (f : FFmt)  -- R239
  | ftrunc (d a m : Nat) (f : FFmt)  -- R239
  | frint (d a m : Nat) (f : FFmt)  -- R239
  | ffmaF32 (d a b c m : Nat)  -- R240
  | ffmaF16x2 (d a b c m : Nat)  -- R240
  | ffmaBf16x2 (d a b c m : Nat)  -- R240
  | fcmp (d a b : Nat) (t : FFmt) (c : FCond)  -- R241
  | cvt (v a : Nat) (s : Fmt) (m : Nat) (t : Bool) (d : Fmt)  -- R243
  | cvtBlk (v a : Nat) (s : Fmt) (m : Nat) (t : Bool) (d : Fmt)  -- R245
  | tag (d a m i : Nat) (f : Fmt)  -- R246
  | ballot (d a : Nat)  -- R248
  | bcast (d a b m : Nat)  -- R249
  | xchg (d a b m : Nat)  -- R250
  | shfl (d a b c m : Nat)  -- R251
  | scan (d a m : Nat) (c : ScanOp)  -- R252
  | scanx (d a m : Nat) (c : ScanOp)  -- R252
  | xir (a m : Nat)  -- R254
  | ldG (d a m : Nat) (z : Sz) (c : Option Scope) (o : Nat)  -- R262
  | stG (d a m : Nat) (z : Sz) (c : Option Scope) (o : Nat)  -- R262
  | ldL (d a m : Nat) (z : Sz) (o : Nat)  -- R264
  | stL (d a m : Nat) (z : Sz) (o : Nat)  -- R264
  | lkld (d a m : Nat) (z : LkSz) (o : Nat)  -- R265
  | stul (d a m : Nat) (z : LkSz) (o : Nat)  -- R265
  | tlook (d a m : Nat)  -- R266
  | tset (a b m : Nat)  -- R266
  | rgnOpen (a d : Nat)  -- R267
  | rgnClose (d : Nat)  -- R268
  | atomAdd (d a b : Nat) (s : Scope) (u : Use) (t : IntTy)  -- R270
  | atomMin (d a b : Nat) (s : Scope) (u : Use) (t : IntTy)  -- R270
  | atomMax (d a b : Nat) (s : Scope) (u : Use) (t : IntTy)  -- R270
  | atomAnd (d a b : Nat) (s : Scope) (u : Use)  -- R270
  | atomOr (d a b : Nat) (s : Scope) (u : Use)  -- R270
  | atomXor (d a b : Nat) (s : Scope) (u : Use)  -- R270
  | atomExch (d a b : Nat) (s : Scope) (u : Use)  -- R270
  | atomCas (d a b : Nat) (s : Scope) (u : Use) (t : CasTy)  -- R270
  | atomFadd (d a b : Nat) (s : Scope) (u : Use)  -- R270
  | atomFmin (d a b : Nat) (s : Scope) (u : Use)  -- R270
  | atomFmax (d a b : Nat) (s : Scope) (u : Use)  -- R270
  | red (o : RedOp) (a b : Nat) (s : Scope) (u : Use) (t : IntTy)  -- R270
  | atomLd (d a : Nat) (s : Scope) (u : Use) (t : IntTy)  -- R270
  | cpy (a : Nat)  -- R274
  | cbat  -- R113
  | fenceAcq (s : Scope)  -- R276
  | fenceRel (s : Scope)  -- R276
  | fenceAr (s : Scope)  -- R276
  | wait (l s t c : Nat)  -- R275
  | waitb (n : Nat)  -- R275
  | txb (o : Nat)  -- R137
  | txo (o : Nat)  -- R148
  | txc  -- R135
  | txr  -- R149
  | txe  -- R148
  | getc (d : Nat) (n : CReg)  -- R303
  | setc (d : Nat) (n : CReg)  -- R304
  | exit  -- R309
  | barCrew  -- R306
  | barCoh  -- R306
  | trap (n : Nat)  -- R310
  | brk  -- R310
  | tret  -- R311
  | ebud (d n : Nat)  -- R312
  | pint (d : Nat)  -- R313
  | mmq (b k s a : Nat) (f : MxFmt)  -- R289
  | mmqByp (b k s c : Nat) (f : MxFmt)  -- R294
  | mgld (b a : Nat)  -- R296
  | mscan (b : Nat) (e n : Bool)  -- R297
  | mdrain (b : Nat) (t : Bool) (a : Nat) (f : DrFmt)  -- R292
  | mdrainState (b a : Nat)  -- R295
  | mdrainByp (b : Nat) (t : Bool) (g : Nat) (f : MxFmt)  -- R294
  | macq (b : Nat) (c : Bool) (i : Nat) (f : Bool)  -- R283
  | mrel (b : Nat)  -- R284
  | hintWide (w : Nat)  -- R182
  | hintMext  -- R183
  | hintRnd (r : Rnd)  -- R184
  | hintBnd (i : Nat)  -- R184
  | hintYield (n : Nat)  -- R186
  | hintKeep (k : Bool) (r : Nat)  -- R58
  | hintEvict (r : Nat)  -- R58
  | bbc (n : Nat)  -- R314
  | hintFuse (w : Nat)  -- R186
  | hintNoahead (f : Bool)  -- R186
  | hintAdv (k p : Nat)  -- R180
  | functionLevelReset  -- R400
  | mboxOpen  -- R444
  | mboxAppend  -- R444
  | mboxVerifyStore  -- R442
  | mboxDiscard  -- R444
  | launch (q : Nat)  -- R368
  | pin (q : Nat)  -- R92
  | unpin (q : Nat)  -- R92
  | copyIn (q : Nat)  -- R366
  | copyOut (q : Nat)  -- R404
  | signal (q : Nat)  -- R364
  | waitCommand (q : Nat)  -- R364
  | bindCollective (q : Nat)  -- R413
  | spanPrologue (q : Nat)  -- R371
  | map (q : Nat)  -- R365
  | cohortAdmit (pick : Nat)  -- R372
  | coreBucketRefill (core : Nat)  -- R162
  | fairnessHold (core : Nat)  -- R164
  | runAhead (core frame : Nat)  -- R344
  | loadComplete (core frame op : Nat)  -- R112
  | storeAccept (core frame op : Nat)  -- R112
  | copyStart (cl op : Nat)  -- R110
  | copyComplete (cl op : Nat)  -- R113
  | quantumFlush (core ix : Nat)  -- R128
  | generationReject (core frame op : Nat)  -- R91
  | wake (core frame : Nat)  -- R151
  | spuriousWake (core frame : Nat)  -- R152
  | pagesReady (core frame : Nat)  -- R94
  | eviction (core : Nat)  -- R39
  | groupRestore (core : Nat)  -- R153
  | benchHandover (core bench : Nat)  -- R283
  | matrixGrant (cl : Nat)  -- R287
  | passRetire (cl : Nat)  -- R288
  | scanRetire (cl : Nat)  -- R297
  | drainComplete (cl op : Nat)  -- R293
  | barrierRelease (crew : Nat) (coh : Bool)  -- R306
  | regangMerge (core frame : Nat)  -- R20
  | watchdogExpiry (core frame : Nat)  -- R40
  | shadowBankSwap (core : Nat)  -- R390
  | spill (core : Nat)  -- R391
  | savedContextReport (core : Nat)  -- R393
  | takeTrap (core frame : Nat)  -- R384
  | parkRecordWrite (core frame : Nat)  -- R375
  | uncorrectableConsumed (core frame : Nat)  -- R379
  | crewRelaunch (pick : Nat)  -- R437
  | groupRetire (core frame : Nat)  -- R35
  | crewRetire (crew : Nat)  -- R35
  | collectiveComplete (ident : Nat)  -- R421
  | winderBoundary (m : Measure)  -- R426
  | backfillDraw (k : Scrub)  -- R427
  | timeSyncSend (port : Nat)  -- R407
  | surveyTick  -- R450
  | sample (core : Nat)  -- R451
  | dmaCopyComplete (op : Nat) (e : DmaEnd)  -- R404
  | shadowBankFill (core : Nat)  -- R391
  | coldReset (b : Boot)  -- R445
  | queueDoorbell (q tail : Nat)  -- R359
  | queueEnable (q lo : Nat)  -- R359
  | queueDisable (q lo : Nat)  -- R359
  | queueBaseWrite (q v : Nat)  -- R359
  | queueParkWrite (q v : Nat)  -- R375
  | parkResume (q r : Nat)  -- R375
  | parkKillCrew (q r : Nat)  -- R375
  | parkKillLaunch (q r : Nat)  -- R375
  | preemptCmd (core : Nat)  -- R391
  | dbgStopSet (q : Nat)  -- R455
  | dbgStopClear (q : Nat)  -- R455
  | memwinRead (off len : Nat)  -- R398
  | memwinWrite (off : Nat) (data : List Byte)  -- R398
  | registerWrite (off size val : Nat)  -- R397
  | hostCxlMemAccess (h : HostAccess)  -- R402
  | doeAttestation (nonce : List Byte)  -- R443
  | collectiveDataReceive (c : Contribution)  -- R418
  | collectiveRefusal (ident rank chunk : Nat)  -- R419
  | alltoallRowReceive (r : Row)  -- R420
  | rowReturn (r : Row)  -- R420
  | intentClaimReceive (sx sy s delta a : Nat)  -- R431
  | timeSyncReceive (port time : Nat)  -- R407
  | prologueExchangeReceive (sx sy span : Nat)  -- R371
  | flitForward (port : Nat) (f : Flit)  -- R410
  | routeFailureReceive (span : Nat)  -- R410
  | portWindow (port : Nat) (w : PortStats)  -- R411
  | portDown (port : Nat)  -- R408
  | hostLinkDown (link : Nat)  -- R405
  | linkTrained (host : Bool) (n : Nat)  -- R411
  | chunkMissingReceive (ident rank chunk : Nat)  -- R416
  deriving DecidableEq, Repr

end Sys2Proof
end

