-- ==== Sys2Proof/WellFormed.lean ====
section
/-! DEFINITION. Which instructions are well formed: the limits that the encoding, R41, R52, R191, R202, R203, R206,
R242, R271 and the entries put on the fields. An ill-formed word raises the illegal-instruction trap (R191). -/

namespace Sys2Proof

/-- A vector register number (R175). -/
def isReg (v : Nat) : Bool := v < 64

/-- The even register of a pair (R41). -/
def isPair (v : Nat) : Bool := v < 64 && v % 2 == 0

/-- A mask that may be a destination: m1 to m7 (R52). -/
def isMaskDst (d : Nat) : Bool := 1 ≤ d && d < 8

/-- A mask register number. -/
def isMask (m : Nat) : Bool := m < 8

/-- An ms field (R175). -/
def isMs (m : Nat) : Bool := m < 4

/-- A 12-bit immediate field (R176). -/
def isImm (i : Nat) : Bool := i < 4096

/-- Whether a format code names a register pair (R48). -/
def Fmt.isWide : Fmt → Bool
  | .s64 | .n64 => true
  | _ => false

/-- A register operand of format `f`: a pair for the 64-bit codes. -/
def isRegOf (f : Fmt) (v : Nat) : Bool := if f.isWide then isPair v else isReg v

/-- The 64-bit integer types (R195, R203). -/
def IntTy.isWide : IntTy → Bool
  | .s64 | .n64 => true
  | _ => false

/-- A register operand of an integer type. -/
def isRegTy (t : IntTy) (v : Nat) : Bool := if t.isWide then isPair v else isReg v

/-- The scalar float codes of R242. -/
def Fmt.isFloat : Fmt → Bool
  | .f32 | .f16 | .bf16 | .e4m3 | .ta8 | .ta6 => true
  | _ => false

/-- The integer codes of R242. -/
def Fmt.isInt : Fmt → Bool
  | .s8 | .s16 | .s32 | .s64 | .n8 | .n16 | .n32 | .n64 => true
  | _ => false

/-- The greatest finite magnitude of a format, cut to an integer bound that keeps the order of R62 and R65: f32 and bf16
stand by their exact values. -/
def Fmt.greatest : Fmt → Nat
  | .f32 => (2 ^ 24 - 1) * 2 ^ 104
  | .bf16 | .bf16x2 => (2 ^ 8 - 1) * 2 ^ 120
  | .f16 | .f16x2 => 65504
  | .e4m3 | .e4m3x4 => 448
  | .ta8 | .ta8x4 => 4096
  | .ta6 | .ta6x4 => 256
  | .s8 => 128 | .s16 => 32768 | .s32 => 2 ^ 31 | .s64 => 2 ^ 63
  | .n8 => 255 | .n16 => 65535 | .n32 => 2 ^ 32 - 1 | .n64 => 2 ^ 64 - 1
  | _ => 0

/-- The kinds of conversion of R242. -/
inductive CvtKind | element | pack | unpack | block
  deriving DecidableEq, Repr

/-- The kind of a legal triple of destination, source and .blk, by the table of R242; none for an illegal triple. -/
def cvtKind (d s : Fmt) (blk : Bool) : Option CvtKind :=
  if blk then
    match d, s with
    | .e4m3, .f32 | .ta8, .f32 | .ta6, .f32 | .s8, .f32 => some .block
    | _, _ => none
  else if d = s then none
  else if (d.isFloat || d.isInt) && (s.isFloat || s.isInt) then some .element
  else
    match d, s with
    | .f16x2, .f32 | .bf16x2, .f32 => some .pack
    | .e4m3x4, .f16x2 | .e4m3x4, .bf16x2 | .ta8x4, .f16x2 | .ta8x4, .bf16x2 | .ta6x4, .f16x2 | .ta6x4, .bf16x2 => some .pack
    | .f32, .f16x2 | .f32, .bf16x2 => some .unpack
    | .f16x2, .e4m3x4 | .f16x2, .ta8x4 | .f16x2, .ta6x4 | .bf16x2, .e4m3x4 | .bf16x2, .ta8x4 | .bf16x2, .ta6x4 => some .unpack
    | _, _ => none

/-- Whether .sat is legal on a legal triple (R242). -/
def cvtSatOk (d s : Fmt) : CvtKind → Bool
  | .element => (d.isInt && s.isInt) || (d.isFloat && s.greatest > d.greatest)
  | .pack => s.greatest > d.greatest
  | .unpack => false
  | .block => d != .s8

/-- Whether a conversion is well formed with its registers (R242). -/
def cvtWf (v a : Nat) (s d : Fmt) (sat blk : Bool) : Bool :=
  match cvtKind d s blk with
  | none => false
  | some k =>
    (!sat || cvtSatOk d s k) &&
    match k with
    | .element => isRegOf d v && isRegOf s a
    | .pack => isReg v && isPair a
    | .unpack => isPair v && isReg a
    | .block => isPair v && isReg a

/-- Uses legal on a returning atomic other than cas and atom.ld (R271). -/
def Use.retOk : Use → Bool
  | .unp | .nord | .acq | .rel | .ar => true
  | _ => false

/-- Uses legal on cas (R271). -/
def Use.casOk : Use → Bool
  | .unp | .nord | .spec | .acq | .rel | .ar => true
  | _ => false

/-- Uses legal on atom.ld (R203, R271). -/
def Use.ldOk : Use → Bool
  | .unp | .nord | .spec | .acq => true
  | _ => false

/-- Uses legal on red, with its operation and scope (R271). -/
def Use.redOk (o : RedOp) (s : Scope) : Use → Bool
  | .unp | .comm | .rel | .ar => true
  | .quan => o == .add && s == .dev
  | _ => false

/-- Types legal on red (R203). -/
def RedOp.typeOk : RedOp → IntTy → Bool
  | .add, _ | .min, _ | .max, _ => true
  | .and, t | .or, t | .xor, t => t == .n32 || t == .s32
  | .fadd, t | .fmin, t | .fmax, t => t == .n32

/-- The control registers that getc writes as a pair (R303). -/
def CReg.isWide : CReg → Bool
  | .wid | .time => true
  | _ => false

/-- The control registers that setc may name (R56). -/
def CReg.writable : CReg → Bool
  | .bflag | .quantum | .round | .seed => true
  | _ => false

/-- The drain segments of a matrix format (R279). -/
def MxFmt.segments : MxFmt → Nat
  | .bf16 | .f16 => 4
  | _ => 2


/-- The static checks of every instruction, command and event. -/
def Instr.wf : Instr → Bool
  | .iadd d a b m => isReg d && isReg a && isReg b && isMs m
  | .isub d a b m => isReg d && isReg a && isReg b && isMs m
  | .imulLo d a b m => isReg d && isReg a && isReg b && isMs m
  | .imulHiS32 d a b m => isReg d && isReg a && isReg b && isMs m
  | .imulHiN32 d a b m => isReg d && isReg a && isReg b && isMs m
  | .iminS32 d a b m => isReg d && isReg a && isReg b && isMs m
  | .iminN32 d a b m => isReg d && isReg a && isReg b && isMs m
  | .imaxS32 d a b m => isReg d && isReg a && isReg b && isMs m
  | .imaxN32 d a b m => isReg d && isReg a && isReg b && isMs m
  | .iabsS32 d a m => isReg d && isReg a && isMs m
  | .ineg d a m => isReg d && isReg a && isMs m
  | .idivS32 d a b m => isReg d && isReg a && isReg b && isMs m
  | .idivN32 d a b m => isReg d && isReg a && isReg b && isMs m
  | .iremS32 d a b m => isReg d && isReg a && isReg b && isMs m
  | .iremN32 d a b m => isReg d && isReg a && isReg b && isMs m
  | .iaddSatS32 d a b m => isReg d && isReg a && isReg b && isMs m
  | .iaddSatN32 d a b m => isReg d && isReg a && isReg b && isMs m
  | .isubSatS32 d a b m => isReg d && isReg a && isReg b && isMs m
  | .isubSatN32 d a b m => isReg d && isReg a && isReg b && isMs m
  | .iadd64 d a b m => isPair d && isPair a && isPair b && isMs m
  | .isub64 d a b m => isPair d && isPair a && isPair b && isMs m
  | .imulLo64 d a b m => isPair d && isPair a && isPair b && isMs m
  | .imulWideS32 d a b m => isPair d && isReg a && isReg b && isMs m
  | .imulWideN32 d a b m => isPair d && isReg a && isReg b && isMs m
  | .iminS64 d a b m => isPair d && isPair a && isPair b && isMs m
  | .iminN64 d a b m => isPair d && isPair a && isPair b && isMs m
  | .imaxS64 d a b m => isPair d && isPair a && isPair b && isMs m
  | .imaxN64 d a b m => isPair d && isPair a && isPair b && isMs m
  | .mov d m i => isReg d && isMs m && isImm i
  | .iaddImm d a m i => isReg d && isReg a && isMs m && isImm i
  | .imulLoImm d a m i => isReg d && isReg a && isMs m && isImm i
  | .andImm d a m i => isReg d && isReg a && isMs m && isImm i
  | .orImm d a m i => isReg d && isReg a && isMs m && isImm i
  | .xorImm d a m i => isReg d && isReg a && isMs m && isImm i
  | .shlImm d a m c => isReg d && isReg a && isMs m && c < 32
  | .shrNImm d a m c => isReg d && isReg a && isMs m && c < 32
  | .shrSImm d a m c => isReg d && isReg a && isMs m && c < 32
  | .rotlImm d a m c => isReg d && isReg a && isMs m && c < 32
  | .bfeNImm d a m w p => isReg d && isReg a && isMs m && 1 ≤ w && w ≤ 32 && p < 32
  | .bfeSImm d a m w p => isReg d && isReg a && isMs m && 1 ≤ w && w ≤ 32 && p < 32
  | .bfi d a m w p => isReg d && isReg a && isMs m && 1 ≤ w && w ≤ 32 && p < 32
  | .imad d a b c m => isReg d && isReg a && isReg b && isReg c && isMs m
  | .and_ d a b m => isReg d && isReg a && isReg b && isMs m
  | .or_ d a b m => isReg d && isReg a && isReg b && isMs m
  | .xor_ d a b m => isReg d && isReg a && isReg b && isMs m
  | .andn d a b m => isReg d && isReg a && isReg b && isMs m
  | .orn d a b m => isReg d && isReg a && isReg b && isMs m
  | .not_ d a m => isReg d && isReg a && isMs m
  | .shl d a b m => isReg d && isReg a && isReg b && isMs m
  | .shrN d a b m => isReg d && isReg a && isReg b && isMs m
  | .shrS d a b m => isReg d && isReg a && isReg b && isMs m
  | .rotl d a b m => isReg d && isReg a && isReg b && isMs m
  | .popc d a m => isReg d && isReg a && isMs m
  | .clz d a m => isReg d && isReg a && isMs m
  | .ctz d a m => isReg d && isReg a && isMs m
  | .brev d a m => isReg d && isReg a && isMs m
  | .bfeN d a b m => isReg d && isReg a && isReg b && isMs m
  | .bfeS d a b m => isReg d && isReg a && isReg b && isMs m
  | .shl64 d a b m => isPair d && isPair a && isReg b && isMs m
  | .shrN64 d a b m => isPair d && isPair a && isReg b && isMs m
  | .shrS64 d a b m => isPair d && isPair a && isReg b && isMs m
  | .popc64 d a m => isReg d && isPair a && isMs m
  | .clz64 d a m => isReg d && isPair a && isMs m
  | .icmp d a b t _ => isMaskDst d && isRegTy t a && isRegTy t b
  | .sel d a b c m => isReg d && isReg a && isReg b && isMask c && isMs m
  | .mand d a b => isMaskDst d && isMask a && isMask b
  | .mor d a b => isMaskDst d && isMask a && isMask b
  | .mxor d a b => isMaskDst d && isMask a && isMask b
  | .mandn d a b => isMaskDst d && isMask a && isMask b
  | .mnot d a => isMaskDst d && isMask a
  | .mmov d a => isMaskDst d && isMask a
  | .mpop d a => isReg d && isMask a
  | .mfirst d a => isReg d && isMask a
  | .mtov d a => isReg d && isMask a
  | .vtom d a => isMaskDst d && isReg a
  | .br c m o => isMask m && o < 2 ^ 19 && (c != .always || m == 0)
  | .call c m o => isMask m && o < 2 ^ 19 && (c != .always || m == 0)
  | .join => true
  | .jmp a => isPair a
  | .calli d a => isPair d && isPair a
  | .ret a => isPair a
  | .regang s => s < 256
  | .fadd d a b m _ => isReg d && isReg a && isReg b && isMs m
  | .fsub d a b m _ => isReg d && isReg a && isReg b && isMs m
  | .fmul d a b m _ => isReg d && isReg a && isReg b && isMs m
  | .fdiv d a b m _ => isReg d && isReg a && isReg b && isMs m
  | .fmin d a b m _ => isReg d && isReg a && isReg b && isMs m
  | .fmax d a b m _ => isReg d && isReg a && isReg b && isMs m
  | .fcopysign d a b m _ => isReg d && isReg a && isReg b && isMs m
  | .fneg d a m _ => isReg d && isReg a && isMs m
  | .fabs d a m _ => isReg d && isReg a && isMs m
  | .fsqrt d a m _ => isReg d && isReg a && isMs m
  | .frcp d a m _ => isReg d && isReg a && isMs m
  | .frsq d a m _ => isReg d && isReg a && isMs m
  | .fexp2 d a m _ => isReg d && isReg a && isMs m
  | .flog2 d a m _ => isReg d && isReg a && isMs m
  | .fsin d a m _ => isReg d && isReg a && isMs m
  | .fcos d a m _ => isReg d && isReg a && isMs m
  | .ftanh d a m _ => isReg d && isReg a && isMs m
  | .fsigm d a m _ => isReg d && isReg a && isMs m
  | .ffloor d a m _ => isReg d && isReg a && isMs m
  | .fceil d a m _ => isReg d && isReg a && isMs m
  | .ftrunc d a m _ => isReg d && isReg a && isMs m
  | .frint d a m _ => isReg d && isReg a && isMs m
  | .ffmaF32 d a b c m => isReg d && isReg a && isReg b && isReg c && isMs m
  | .ffmaF16x2 d a b c m => isReg d && isReg a && isReg b && isReg c && isMs m
  | .ffmaBf16x2 d a b c m => isReg d && isReg a && isReg b && isReg c && isMs m
  | .fcmp d a b _ _ => isMaskDst d && isReg a && isReg b
  | .cvt v a s m t d => cvtWf v a s d t false && isMs m
  | .cvtBlk v a s m t d => cvtWf v a s d t true && isMs m
  | .tag d a m i f => isRegOf f d && isRegOf f a && isMs m && i < 16
  | .ballot d a => isMaskDst d && isReg a
  | .bcast d a b m => isReg d && isReg a && isReg b && isMs m
  | .xchg d a b m => isReg d && isReg a && isReg b && isMs m
  | .shfl d a b c m => isReg d && isReg a && isReg b && isReg c && isMs m
  | .scan d a m _ => isReg d && isReg a && isMs m
  | .scanx d a m _ => isReg d && isReg a && isMs m
  | .xir a m => isReg a && isMs m
  | .ldG d a m z _ o => isRegTy (if z == .n64 then .n64 else .n32) d && isPair a && isMs m && o < 64
  | .stG d a m z _ o => isRegTy (if z == .n64 then .n64 else .n32) d && isPair a && isMs m && o < 64
  | .ldL d a m z o => isRegTy (if z == .n64 then .n64 else .n32) d && isReg a && isMs m && o < 64
  | .stL d a m z o => isRegTy (if z == .n64 then .n64 else .n32) d && isReg a && isMs m && o < 64
  | .lkld d a m _ o => isReg d && isReg a && isMs m && o < 64
  | .stul d a m _ o => isReg d && isReg a && isMs m && o < 64
  | .tlook d a m => isReg d && isPair a && isMs m
  | .tset a b m => isReg a && isPair b && isMs m
  | .rgnOpen a d => isPair a && d < 16
  | .rgnClose d => d < 16
  | .atomAdd d a b _ u t => isRegTy t d && isPair a && isRegTy t b && u.retOk
  | .atomMin d a b _ u t => isRegTy t d && isPair a && isRegTy t b && u.retOk
  | .atomMax d a b _ u t => isRegTy t d && isPair a && isRegTy t b && u.retOk
  | .atomAnd d a b _ u => isReg d && isPair a && isReg b && u.retOk
  | .atomOr d a b _ u => isReg d && isPair a && isReg b && u.retOk
  | .atomXor d a b _ u => isReg d && isPair a && isReg b && u.retOk
  | .atomExch d a b _ u => isReg d && isPair a && isReg b && u.retOk
  | .atomCas d a b _ u t => isPair a && u.casOk && (match t with
      | .n32 => isReg d && isPair b
      | .n64 => isPair d && isPair b && b % 4 == 0)
  | .atomFadd d a b _ u => isReg d && isPair a && isReg b && u.retOk
  | .atomFmin d a b _ u => isReg d && isPair a && isReg b && u.retOk
  | .atomFmax d a b _ u => isReg d && isPair a && isReg b && u.retOk
  | .red o a b s u t => isPair a && isRegTy t b && o.typeOk t && u.redOk o s
  | .atomLd d a _ u t => isRegTy t d && isPair a && u.ldOk
  | .cpy a => isPair a
  | .cbat => true
  | .fenceAcq _ => true
  | .fenceRel _ => true
  | .fenceAr _ => true
  | .wait l s t c => l < 64 && s < 64 && t < 16 && c < 16
  | .waitb n => isImm n
  | .txb o => o < 2 ^ 19
  | .txo o => o < 2 ^ 19
  | .txc => true
  | .txr => true
  | .txe => true
  | .getc d n => if n.isWide then isPair d else isReg d
  | .setc d n => isReg d && n.writable
  | .exit => true
  | .barCrew => true
  | .barCoh => true
  | .trap n => n < 4096
  | .brk => true
  | .tret => true
  | .ebud d n => isReg d && n ≤ 10
  | .pint d => isReg d
  | .mmq b k s a _ => b < 4 && k < 4 && s < 256 && isReg a
  | .mmqByp b k s c _ => b < 4 && k < 4 && s < 256 && c < 4
  | .mgld b a => b < 4 && isReg a
  | .mscan b _ _ => b < 4
  | .mdrain b t a f => b < 4 && isReg a && (!t || (f != .s8 && f != .f32))
  | .mdrainState b a => b < 4 && isReg a
  | .mdrainByp b t g f => b < 4 && g < f.segments && (!t || f != .s8)
  | .macq b _ i f => b < 4 && i < 16 && (!f || b % 2 == 0)
  | .mrel b => b < 4
  | .hintWide w => w < 2 ^ 20
  | .hintMext => true
  | .hintRnd _ => true
  | .hintBnd i => i < 16
  | .hintYield n => n < 1024
  | .hintKeep _ r => isReg r
  | .hintEvict r => isReg r
  | .bbc n => n < 2 ^ 20
  | .hintFuse w => w < 256
  | .hintNoahead _ => true
  | .hintAdv k p => k < 2 && p < 2 ^ 22
  | .coldReset _ => true
  | .functionLevelReset => true
  | .queueDoorbell q _ => q < 128
  | .queueEnable q _ => q < 128
  | .queueDisable q _ => q < 128
  | .queueBaseWrite q _ => q < 128
  | .queueParkWrite q _ => q < 128
  | .parkResume q _ => q < 128
  | .parkKillCrew q _ => q < 128
  | .parkKillLaunch q _ => q < 128
  | .preemptCmd core => core < 512
  | .dbgStopSet q => q < 128
  | .dbgStopClear q => q < 128
  | .mboxOpen => true
  | .mboxAppend => true
  | .mboxVerifyStore => true
  | .mboxDiscard => true
  | .memwinRead _ _ => true
  | .memwinWrite _ _ => true
  | .registerWrite _ _ _ => true
  | .hostCxlMemAccess _ => true
  | .doeAttestation _ => true
  | .launch q => q < 128
  | .pin q => q < 128
  | .unpin q => q < 128
  | .copyIn q => q < 128
  | .copyOut q => q < 128
  | .signal q => q < 128
  | .waitCommand q => q < 128
  | .bindCollective q => q < 128
  | .spanPrologue q => q < 128
  | .map q => q < 128
  | .cohortAdmit _ => true
  | .coreBucketRefill core => core < 512
  | .fairnessHold core => core < 512
  | .runAhead core frame => core < 512 && frame < 32
  | .loadComplete core frame _ => core < 512 && frame < 32
  | .storeAccept core frame _ => core < 512 && frame < 32
  | .copyStart cl _ => cl < 128
  | .copyComplete cl _ => cl < 128
  | .quantumFlush core _ => core < 512
  | .generationReject core frame _ => core < 512 && frame < 32
  | .wake core frame => core < 512 && frame < 32
  | .spuriousWake core frame => core < 512 && frame < 32
  | .pagesReady core frame => core < 512 && frame < 32
  | .eviction core => core < 512
  | .groupRestore core => core < 512
  | .benchHandover core bench => core < 512 && bench < 4
  | .matrixGrant cl => cl < 128
  | .passRetire cl => cl < 128
  | .scanRetire cl => cl < 128
  | .drainComplete cl _ => cl < 128
  | .barrierRelease _ _ => true
  | .regangMerge core frame => core < 512 && frame < 32
  | .watchdogExpiry core frame => core < 512 && frame < 32
  | .shadowBankSwap core => core < 512
  | .spill core => core < 512
  | .savedContextReport core => core < 512
  | .takeTrap core frame => core < 512 && frame < 32
  | .parkRecordWrite core frame => core < 512 && frame < 32
  | .uncorrectableConsumed core frame => core < 512 && frame < 32
  | .crewRelaunch _ => true
  | .groupRetire core frame => core < 512 && frame < 32
  | .crewRetire _ => true
  | .collectiveDataReceive _ => true
  | .collectiveRefusal _ _ _ => true
  | .alltoallRowReceive _ => true
  | .rowReturn _ => true
  | .collectiveComplete _ => true
  | .winderBoundary _ => true
  | .backfillDraw _ => true
  | .intentClaimReceive _ _ _ _ _ => true
  | .timeSyncSend port => port < 32
  | .timeSyncReceive port _ => port < 32
  | .prologueExchangeReceive _ _ _ => true
  | .flitForward port _ => port < 32
  | .routeFailureReceive _ => true
  | .portWindow port _ => port < 32
  | .portDown port => port < 32
  | .surveyTick => true
  | .sample core => core < 512
  | .dmaCopyComplete _ _ => true
  | .hostLinkDown link => link < 2
  | .linkTrained _ _ => true
  | .shadowBankFill core => core < 512
  | .chunkMissingReceive _ _ _ => true

end Sys2Proof
end

