-- ==== Sys2Proof/Decode.lean ====
section
/-! DEFINITION. Decoding of instruction words, total on any bytes, and the encoder beside it (R174, R190 to R207).
Every refusal has a name. The feature mask is not part of decoding: `Instr.features` of Syntax's table is compared with
CAP_FEATURES when the word issues (R210). -/

namespace Sys2Proof

/-- Why a word is no instruction: fewer than four bytes are there, or the word raises the illegal-instruction trap by
R191 (an unassigned opcode or function code, a nonzero reserved field, a code marked illegal). -/
inductive Reject
  | truncated
  | unassigned
  | illegalField
  deriving DecidableEq, Repr

/-- Bits [lo + n − 1 : lo] of a word. -/
def fld (w lo n : Nat) : Nat := w / 2 ^ lo % 2 ^ n

/-- Codes of the icmp conditions (R195). -/
def CmpCond.code : CmpCond → Nat
  | .eq => 0
  | .ne => 1
  | .lt => 2
  | .le => 3
  | .gt => 4
  | .ge => 5

/-- The CmpCond of a code, none where the code is illegal. -/
def CmpCond.ofCode : Nat → Option CmpCond
  | 0 => some .eq
  | 1 => some .ne
  | 2 => some .lt
  | 3 => some .le
  | 4 => some .gt
  | 5 => some .ge
  | _ => none

/-- Codes of the fcmp conditions (R195). -/
def FCond.code : FCond → Nat
  | .eq => 0
  | .ne => 1
  | .lt => 2
  | .le => 3
  | .gt => 4
  | .ge => 5
  | .un => 6
  | .ord => 7

/-- The FCond of a code, none where the code is illegal. -/
def FCond.ofCode : Nat → Option FCond
  | 0 => some .eq
  | 1 => some .ne
  | 2 => some .lt
  | 3 => some .le
  | 4 => some .gt
  | 5 => some .ge
  | 6 => some .un
  | 7 => some .ord
  | _ => none

/-- Type codes of icmp (R195). -/
def IntTy.code : IntTy → Nat
  | .s32 => 0
  | .n32 => 1
  | .s64 => 2
  | .n64 => 3

/-- The IntTy of a code, none where the code is illegal. -/
def IntTy.ofCode : Nat → Option IntTy
  | 0 => some .s32
  | 1 => some .n32
  | 2 => some .s64
  | 3 => some .n64
  | _ => none

/-- Type codes of the atomics (R203). -/
def IntTy.atomCode : IntTy → Nat
  | .n32 => 0
  | .s32 => 1
  | .n64 => 2
  | .s64 => 3

/-- The IntTy of a code, none where the code is illegal. -/
def IntTy.atomOfCode : Nat → Option IntTy
  | 0 => some .n32
  | 1 => some .s32
  | 2 => some .n64
  | 3 => some .s64
  | _ => none

/-- Format codes of fbin (R197). -/
def FBinFmt.code : FBinFmt → Nat
  | .f32 => 0
  | .f16 => 1
  | .bf16 => 2
  | .f16x2 => 3
  | .bf16x2 => 4

/-- The FBinFmt of a code, none where the code is illegal. -/
def FBinFmt.ofCode : Nat → Option FBinFmt
  | 0 => some .f32
  | 1 => some .f16
  | 2 => some .bf16
  | 3 => some .f16x2
  | 4 => some .bf16x2
  | _ => none

/-- Format codes of fun and fcmp (R195, R197). -/
def FFmt.code : FFmt → Nat
  | .f32 => 0
  | .f16 => 1
  | .bf16 => 2

/-- The FFmt of a code, none where the code is illegal. -/
def FFmt.ofCode : Nat → Option FFmt
  | 0 => some .f32
  | 1 => some .f16
  | 2 => some .bf16
  | _ => none

/-- The format codes (R48). -/
def Fmt.code : Fmt → Nat
  | .b32 => 0
  | .s8 => 1
  | .s16 => 2
  | .s32 => 3
  | .s64 => 4
  | .n8 => 5
  | .n16 => 6
  | .n32 => 7
  | .n64 => 8
  | .f32 => 9
  | .f16 => 10
  | .bf16 => 11
  | .e4m3 => 12
  | .ta8 => 13
  | .ta6 => 14
  | .f16x2 => 16
  | .bf16x2 => 17
  | .e4m3x4 => 18
  | .ta8x4 => 19
  | .ta6x4 => 20
  | .e8x4 => 21
  | .s8x4 => 22
  | .n8x4 => 23

/-- The Fmt of a code, none where the code is illegal. -/
def Fmt.ofCode : Nat → Option Fmt
  | 0 => some .b32
  | 1 => some .s8
  | 2 => some .s16
  | 3 => some .s32
  | 4 => some .s64
  | 5 => some .n8
  | 6 => some .n16
  | 7 => some .n32
  | 8 => some .n64
  | 9 => some .f32
  | 10 => some .f16
  | 11 => some .bf16
  | 12 => some .e4m3
  | 13 => some .ta8
  | 14 => some .ta6
  | 16 => some .f16x2
  | 17 => some .bf16x2
  | 18 => some .e4m3x4
  | 19 => some .ta8x4
  | 20 => some .ta6x4
  | 21 => some .e8x4
  | 22 => some .s8x4
  | 23 => some .n8x4
  | _ => none

/-- Codes of the branch conditions (R227). -/
def BrCond.code : BrCond → Nat
  | .always => 0
  | .t => 1
  | .f => 2
  | .any => 3
  | .all => 4
  | .none => 5

/-- The BrCond of a code, none where the code is illegal. -/
def BrCond.ofCode : Nat → Option BrCond
  | 0 => some .always
  | 1 => some .t
  | 2 => some .f
  | 3 => some .any
  | 4 => some .all
  | 5 => some .none
  | _ => Option.none

/-- Codes of the scan operations (R199). -/
def ScanOp.code : ScanOp → Nat
  | .addN32 => 0
  | .addF32 => 1
  | .minS32 => 2
  | .minN32 => 3
  | .maxS32 => 4
  | .maxN32 => 5
  | .minF32 => 6
  | .maxF32 => 7

/-- The ScanOp of a code, none where the code is illegal. -/
def ScanOp.ofCode : Nat → Option ScanOp
  | 0 => some .addN32
  | 1 => some .addF32
  | 2 => some .minS32
  | 3 => some .minN32
  | 4 => some .maxS32
  | 5 => some .maxN32
  | 6 => some .minF32
  | 7 => some .maxF32
  | _ => none

/-- Codes of size and type (R202). -/
def Sz.code : Sz → Nat
  | .n8 => 0
  | .s8 => 1
  | .n16 => 2
  | .s16 => 3
  | .n32 => 4
  | .s32 => 5
  | .f32 => 6
  | .n64 => 7

/-- The Sz of a code, none where the code is illegal. -/
def Sz.ofCode : Nat → Option Sz
  | 0 => some .n8
  | 1 => some .s8
  | 2 => some .n16
  | 3 => some .s16
  | 4 => some .n32
  | 5 => some .s32
  | 6 => some .f32
  | 7 => some .n64
  | _ => none

/-- Codes of size and type of lkld and stul (R202). -/
def LkSz.code : LkSz → Nat
  | .n32 => 4
  | .s32 => 5
  | .f32 => 6

/-- The LkSz of a code, none where the code is illegal. -/
def LkSz.ofCode : Nat → Option LkSz
  | 4 => some .n32
  | 5 => some .s32
  | 6 => some .f32
  | _ => none

/-- Scope codes (R117). -/
def Scope.code : Scope → Nat
  | .grp => 0
  | .crew => 1
  | .coh => 2
  | .dev => 3
  | .span => 4
  | .sys => 5

/-- The Scope of a code, none where the code is illegal. -/
def Scope.ofCode : Nat → Option Scope
  | 0 => some .grp
  | 1 => some .crew
  | 2 => some .coh
  | 3 => some .dev
  | 4 => some .span
  | 5 => some .sys
  | _ => none

/-- Codes of the uo field (R118). -/
def Use.code : Use → Nat
  | .unp => 0
  | .comm => 1
  | .nord => 2
  | .quan => 3
  | .spec => 4
  | .acq => 5
  | .rel => 6
  | .ar => 7

/-- The Use of a code, none where the code is illegal. -/
def Use.ofCode : Nat → Option Use
  | 0 => some .unp
  | 1 => some .comm
  | 2 => some .nord
  | 3 => some .quan
  | 4 => some .spec
  | 5 => some .acq
  | 6 => some .rel
  | 7 => some .ar
  | _ => none

/-- Type codes of cas (R203). -/
def CasTy.code : CasTy → Nat
  | .n32 => 0
  | .n64 => 1

/-- The CasTy of a code, none where the code is illegal. -/
def CasTy.ofCode : Nat → Option CasTy
  | 0 => some .n32
  | 1 => some .n64
  | _ => none

/-- Operation codes of red (R203). -/
def RedOp.code : RedOp → Nat
  | .add => 0
  | .min => 1
  | .max => 2
  | .and => 3
  | .or => 4
  | .xor => 5
  | .fadd => 6
  | .fmin => 7
  | .fmax => 8

/-- The RedOp of a code, none where the code is illegal. -/
def RedOp.ofCode : Nat → Option RedOp
  | 0 => some .add
  | 1 => some .min
  | 2 => some .max
  | 3 => some .and
  | 4 => some .or
  | 5 => some .xor
  | 6 => some .fadd
  | 7 => some .fmin
  | 8 => some .fmax
  | _ => none

/-- Codes of the matrix formats (R279). -/
def MxFmt.code : MxFmt → Nat
  | .ta8 => 0
  | .e4m3 => 1
  | .s8 => 2
  | .ta6 => 3
  | .bf16 => 4
  | .f16 => 5

/-- The MxFmt of a code, none where the code is illegal. -/
def MxFmt.ofCode : Nat → Option MxFmt
  | 0 => some .ta8
  | 1 => some .e4m3
  | 2 => some .s8
  | 3 => some .ta6
  | 4 => some .bf16
  | 5 => some .f16
  | _ => none

/-- Codes of the drain formats (R292). -/
def DrFmt.code : DrFmt → Nat
  | .ta8 => 0
  | .e4m3 => 1
  | .s8 => 2
  | .ta6 => 3
  | .bf16 => 4
  | .f16 => 5
  | .f32 => 6

/-- The DrFmt of a code, none where the code is illegal. -/
def DrFmt.ofCode : Nat → Option DrFmt
  | 0 => some .ta8
  | 1 => some .e4m3
  | 2 => some .s8
  | 3 => some .ta6
  | 4 => some .bf16
  | 5 => some .f16
  | 6 => some .f32
  | _ => none

/-- Codes of the rounding modes (R56). -/
def Rnd.code : Rnd → Nat
  | .rn => 0
  | .rz => 1
  | .ru => 2
  | .rd => 3
  | .rs => 4

/-- The Rnd of a code, none where the code is illegal. -/
def Rnd.ofCode : Nat → Option Rnd
  | 0 => some .rn
  | 1 => some .rz
  | 2 => some .ru
  | 3 => some .rd
  | 4 => some .rs
  | _ => none

/-- Control-register numbers (R56). -/
def CReg.code : CReg → Nat
  | .wid => 0
  | .lane => 1
  | .slice => 2
  | .gang => 3
  | .where_ => 4
  | .time => 8
  | .tokens => 16
  | .charge => 17
  | .allow => 18
  | .txstat => 24
  | .bflag => 25
  | .quantum => 26
  | .batch => 27
  | .round => 32
  | .seed => 33

/-- The CReg of a code, none where the code is illegal. -/
def CReg.ofCode : Nat → Option CReg
  | 0 => some .wid
  | 1 => some .lane
  | 2 => some .slice
  | 3 => some .gang
  | 4 => some .where_
  | 8 => some .time
  | 16 => some .tokens
  | 17 => some .charge
  | 18 => some .allow
  | 24 => some .txstat
  | 25 => some .bflag
  | 26 => some .quantum
  | 27 => some .batch
  | 32 => some .round
  | 33 => some .seed
  | _ => none

/-- A one-bit field as a Bool. -/
def bitOf (x : Nat) : Option Bool := if x = 0 then some false else if x = 1 then some true else none

/-- The cc code of a plain or an ordered access (R202). -/
def accessCode : Option Scope → Nat
  | none => 0
  | some s => s.code + 1

/-- The cc field of ld.g and st.g (R202): 0 plain, 1 to 6 the scope code plus 1. -/
def accessOfCode (x : Nat) : Option (Option Scope) :=
  if x = 0 then some none else (Scope.ofCode (x - 1)).map some


/-- Words of major opcode 0x01. -/
def decOp01 (w : Nat) : Option Instr :=
  if fld w 0 6 = 0 then some (.iadd (fld w 20 6) (fld w 14 6) (fld w 8 6) (fld w 6 2))
  else if fld w 0 6 = 1 then some (.isub (fld w 20 6) (fld w 14 6) (fld w 8 6) (fld w 6 2))
  else if fld w 0 6 = 2 then some (.imulLo (fld w 20 6) (fld w 14 6) (fld w 8 6) (fld w 6 2))
  else if fld w 0 6 = 3 then some (.imulHiS32 (fld w 20 6) (fld w 14 6) (fld w 8 6) (fld w 6 2))
  else if fld w 0 6 = 4 then some (.imulHiN32 (fld w 20 6) (fld w 14 6) (fld w 8 6) (fld w 6 2))
  else if fld w 0 6 = 5 then some (.iminS32 (fld w 20 6) (fld w 14 6) (fld w 8 6) (fld w 6 2))
  else if fld w 0 6 = 6 then some (.iminN32 (fld w 20 6) (fld w 14 6) (fld w 8 6) (fld w 6 2))
  else if fld w 0 6 = 7 then some (.imaxS32 (fld w 20 6) (fld w 14 6) (fld w 8 6) (fld w 6 2))
  else if fld w 0 6 = 8 then some (.imaxN32 (fld w 20 6) (fld w 14 6) (fld w 8 6) (fld w 6 2))
  else if fld w 0 6 = 9 ∧ fld w 8 6 = 0 then some (.iabsS32 (fld w 20 6) (fld w 14 6) (fld w 6 2))
  else if fld w 0 6 = 10 ∧ fld w 8 6 = 0 then some (.ineg (fld w 20 6) (fld w 14 6) (fld w 6 2))
  else if fld w 0 6 = 11 then some (.idivS32 (fld w 20 6) (fld w 14 6) (fld w 8 6) (fld w 6 2))
  else if fld w 0 6 = 12 then some (.idivN32 (fld w 20 6) (fld w 14 6) (fld w 8 6) (fld w 6 2))
  else if fld w 0 6 = 13 then some (.iremS32 (fld w 20 6) (fld w 14 6) (fld w 8 6) (fld w 6 2))
  else if fld w 0 6 = 14 then some (.iremN32 (fld w 20 6) (fld w 14 6) (fld w 8 6) (fld w 6 2))
  else if fld w 0 6 = 16 then some (.iaddSatS32 (fld w 20 6) (fld w 14 6) (fld w 8 6) (fld w 6 2))
  else if fld w 0 6 = 17 then some (.iaddSatN32 (fld w 20 6) (fld w 14 6) (fld w 8 6) (fld w 6 2))
  else if fld w 0 6 = 18 then some (.isubSatS32 (fld w 20 6) (fld w 14 6) (fld w 8 6) (fld w 6 2))
  else if fld w 0 6 = 19 then some (.isubSatN32 (fld w 20 6) (fld w 14 6) (fld w 8 6) (fld w 6 2))
  else if fld w 0 6 = 32 then some (.iadd64 (fld w 20 6) (fld w 14 6) (fld w 8 6) (fld w 6 2))
  else if fld w 0 6 = 33 then some (.isub64 (fld w 20 6) (fld w 14 6) (fld w 8 6) (fld w 6 2))
  else if fld w 0 6 = 34 then some (.imulLo64 (fld w 20 6) (fld w 14 6) (fld w 8 6) (fld w 6 2))
  else if fld w 0 6 = 35 then some (.imulWideS32 (fld w 20 6) (fld w 14 6) (fld w 8 6) (fld w 6 2))
  else if fld w 0 6 = 36 then some (.imulWideN32 (fld w 20 6) (fld w 14 6) (fld w 8 6) (fld w 6 2))
  else if fld w 0 6 = 37 then some (.iminS64 (fld w 20 6) (fld w 14 6) (fld w 8 6) (fld w 6 2))
  else if fld w 0 6 = 38 then some (.iminN64 (fld w 20 6) (fld w 14 6) (fld w 8 6) (fld w 6 2))
  else if fld w 0 6 = 39 then some (.imaxS64 (fld w 20 6) (fld w 14 6) (fld w 8 6) (fld w 6 2))
  else if fld w 0 6 = 40 then some (.imaxN64 (fld w 20 6) (fld w 14 6) (fld w 8 6) (fld w 6 2))
  else none

/-- Words of major opcode 0x02. -/
def decOp02 (w : Nat) : Option Instr :=
  if fld w 0 6 = 0 then some (.and_ (fld w 20 6) (fld w 14 6) (fld w 8 6) (fld w 6 2))
  else if fld w 0 6 = 1 then some (.or_ (fld w 20 6) (fld w 14 6) (fld w 8 6) (fld w 6 2))
  else if fld w 0 6 = 2 then some (.xor_ (fld w 20 6) (fld w 14 6) (fld w 8 6) (fld w 6 2))
  else if fld w 0 6 = 3 then some (.andn (fld w 20 6) (fld w 14 6) (fld w 8 6) (fld w 6 2))
  else if fld w 0 6 = 4 then some (.orn (fld w 20 6) (fld w 14 6) (fld w 8 6) (fld w 6 2))
  else if fld w 0 6 = 5 ∧ fld w 8 6 = 0 then some (.not_ (fld w 20 6) (fld w 14 6) (fld w 6 2))
  else if fld w 0 6 = 8 then some (.shl (fld w 20 6) (fld w 14 6) (fld w 8 6) (fld w 6 2))
  else if fld w 0 6 = 9 then some (.shrN (fld w 20 6) (fld w 14 6) (fld w 8 6) (fld w 6 2))
  else if fld w 0 6 = 10 then some (.shrS (fld w 20 6) (fld w 14 6) (fld w 8 6) (fld w 6 2))
  else if fld w 0 6 = 11 then some (.rotl (fld w 20 6) (fld w 14 6) (fld w 8 6) (fld w 6 2))
  else if fld w 0 6 = 16 ∧ fld w 8 6 = 0 then some (.popc (fld w 20 6) (fld w 14 6) (fld w 6 2))
  else if fld w 0 6 = 17 ∧ fld w 8 6 = 0 then some (.clz (fld w 20 6) (fld w 14 6) (fld w 6 2))
  else if fld w 0 6 = 18 ∧ fld w 8 6 = 0 then some (.ctz (fld w 20 6) (fld w 14 6) (fld w 6 2))
  else if fld w 0 6 = 19 ∧ fld w 8 6 = 0 then some (.brev (fld w 20 6) (fld w 14 6) (fld w 6 2))
  else if fld w 0 6 = 24 then some (.bfeN (fld w 20 6) (fld w 14 6) (fld w 8 6) (fld w 6 2))
  else if fld w 0 6 = 25 then some (.bfeS (fld w 20 6) (fld w 14 6) (fld w 8 6) (fld w 6 2))
  else if fld w 0 6 = 32 then some (.shl64 (fld w 20 6) (fld w 14 6) (fld w 8 6) (fld w 6 2))
  else if fld w 0 6 = 33 then some (.shrN64 (fld w 20 6) (fld w 14 6) (fld w 8 6) (fld w 6 2))
  else if fld w 0 6 = 34 then some (.shrS64 (fld w 20 6) (fld w 14 6) (fld w 8 6) (fld w 6 2))
  else if fld w 0 6 = 40 ∧ fld w 8 6 = 0 then some (.popc64 (fld w 20 6) (fld w 14 6) (fld w 6 2))
  else if fld w 0 6 = 41 ∧ fld w 8 6 = 0 then some (.clz64 (fld w 20 6) (fld w 14 6) (fld w 6 2))
  else none

/-- Words of major opcode 0x03. -/
def decOp03 (w : Nat) : Option Instr :=
  if fld w 6 2 = 0 ∧ fld w 23 3 = 0 then (match IntTy.ofCode (fld w 3 3), CmpCond.ofCode (fld w 0 3) with
      | some t', some c' => some (.icmp (fld w 20 3) (fld w 14 6) (fld w 8 6) t' c')
      | _, _ => none)
  else none

/-- Words of major opcode 0x04. -/
def decOp04 (w : Nat) : Option Instr :=
  if fld w 0 8 = 0 ∧ fld w 11 3 = 0 ∧ fld w 17 3 = 0 ∧ fld w 23 3 = 0 then some (.mand (fld w 20 3) (fld w 14 3) (fld w 8 3))
  else if fld w 0 8 = 1 ∧ fld w 11 3 = 0 ∧ fld w 17 3 = 0 ∧ fld w 23 3 = 0 then some (.mor (fld w 20 3) (fld w 14 3) (fld w 8 3))
  else if fld w 0 8 = 2 ∧ fld w 11 3 = 0 ∧ fld w 17 3 = 0 ∧ fld w 23 3 = 0 then some (.mxor (fld w 20 3) (fld w 14 3) (fld w 8 3))
  else if fld w 0 8 = 3 ∧ fld w 11 3 = 0 ∧ fld w 17 3 = 0 ∧ fld w 23 3 = 0 then some (.mandn (fld w 20 3) (fld w 14 3) (fld w 8 3))
  else if fld w 0 14 = 4 ∧ fld w 17 3 = 0 ∧ fld w 23 3 = 0 then some (.mnot (fld w 20 3) (fld w 14 3))
  else if fld w 0 14 = 5 ∧ fld w 17 3 = 0 ∧ fld w 23 3 = 0 then some (.mmov (fld w 20 3) (fld w 14 3))
  else if fld w 0 14 = 8 ∧ fld w 17 3 = 0 then some (.mpop (fld w 20 6) (fld w 14 3))
  else if fld w 0 14 = 9 ∧ fld w 17 3 = 0 then some (.mfirst (fld w 20 6) (fld w 14 3))
  else if fld w 0 14 = 10 ∧ fld w 17 3 = 0 then some (.mtov (fld w 20 6) (fld w 14 3))
  else if fld w 0 14 = 11 ∧ fld w 23 3 = 0 then some (.vtom (fld w 20 3) (fld w 14 6))
  else none

/-- Words of major opcode 0x05. -/
def decOp05 (w : Nat) : Option Instr :=
  if fld w 5 3 = 0 then some (.sel (fld w 20 6) (fld w 14 6) (fld w 8 6) (fld w 2 3) (fld w 0 2))
  else none

/-- Words of major opcode 0x06. -/
def decOp06 (w : Nat) : Option Instr :=
  some (.imad (fld w 20 6) (fld w 14 6) (fld w 8 6) (fld w 2 6) (fld w 0 2))

/-- Words of major opcode 0x07. -/
def decOp07 (w : Nat) : Option Instr :=
  if fld w 14 6 = 0 then some (.mov (fld w 20 6) (fld w 12 2) (fld w 0 12))
  else none

/-- Words of major opcode 0x08. -/
def decOp08 (w : Nat) : Option Instr :=
  some (.iaddImm (fld w 20 6) (fld w 14 6) (fld w 12 2) (fld w 0 12))

/-- Words of major opcode 0x09. -/
def decOp09 (w : Nat) : Option Instr :=
  some (.imulLoImm (fld w 20 6) (fld w 14 6) (fld w 12 2) (fld w 0 12))

/-- Words of major opcode 0x0A. -/
def decOp0A (w : Nat) : Option Instr :=
  some (.andImm (fld w 20 6) (fld w 14 6) (fld w 12 2) (fld w 0 12))

/-- Words of major opcode 0x0B. -/
def decOp0B (w : Nat) : Option Instr :=
  some (.orImm (fld w 20 6) (fld w 14 6) (fld w 12 2) (fld w 0 12))

/-- Words of major opcode 0x0C. -/
def decOp0C (w : Nat) : Option Instr :=
  some (.xorImm (fld w 20 6) (fld w 14 6) (fld w 12 2) (fld w 0 12))

/-- Words of major opcode 0x0D. -/
def decOp0D (w : Nat) : Option Instr :=
  if fld w 5 7 = 0 then some (.shlImm (fld w 20 6) (fld w 14 6) (fld w 12 2) (fld w 0 5))
  else if fld w 5 7 = 32 then some (.shrNImm (fld w 20 6) (fld w 14 6) (fld w 12 2) (fld w 0 5))
  else if fld w 5 7 = 64 then some (.shrSImm (fld w 20 6) (fld w 14 6) (fld w 12 2) (fld w 0 5))
  else if fld w 5 7 = 96 then some (.rotlImm (fld w 20 6) (fld w 14 6) (fld w 12 2) (fld w 0 5))
  else none

/-- Words of major opcode 0x0E. -/
def decOp0E (w : Nat) : Option Instr :=
  if fld w 11 1 = 0 then some (.bfeNImm (fld w 20 6) (fld w 14 6) (fld w 12 2) (fld w 5 6) (fld w 0 5))
  else if fld w 11 1 = 1 then some (.bfeSImm (fld w 20 6) (fld w 14 6) (fld w 12 2) (fld w 5 6) (fld w 0 5))
  else none

/-- Words of major opcode 0x0F. -/
def decOp0F (w : Nat) : Option Instr :=
  if fld w 11 1 = 0 then some (.bfi (fld w 20 6) (fld w 14 6) (fld w 12 2) (fld w 5 6) (fld w 0 5))
  else none

/-- Words of major opcode 0x10. -/
def decOp10 (w : Nat) : Option Instr :=
  if fld w 3 3 = 0 then (match FBinFmt.ofCode (fld w 0 3) with
      | some f' => some (.fadd (fld w 20 6) (fld w 14 6) (fld w 8 6) (fld w 6 2) f')
      | _ => none)
  else if fld w 3 3 = 1 then (match FBinFmt.ofCode (fld w 0 3) with
      | some f' => some (.fsub (fld w 20 6) (fld w 14 6) (fld w 8 6) (fld w 6 2) f')
      | _ => none)
  else if fld w 3 3 = 2 then (match FBinFmt.ofCode (fld w 0 3) with
      | some f' => some (.fmul (fld w 20 6) (fld w 14 6) (fld w 8 6) (fld w 6 2) f')
      | _ => none)
  else if fld w 3 3 = 3 then (match FBinFmt.ofCode (fld w 0 3) with
      | some f' => some (.fdiv (fld w 20 6) (fld w 14 6) (fld w 8 6) (fld w 6 2) f')
      | _ => none)
  else if fld w 3 3 = 4 then (match FBinFmt.ofCode (fld w 0 3) with
      | some f' => some (.fmin (fld w 20 6) (fld w 14 6) (fld w 8 6) (fld w 6 2) f')
      | _ => none)
  else if fld w 3 3 = 5 then (match FBinFmt.ofCode (fld w 0 3) with
      | some f' => some (.fmax (fld w 20 6) (fld w 14 6) (fld w 8 6) (fld w 6 2) f')
      | _ => none)
  else if fld w 3 3 = 6 then (match FBinFmt.ofCode (fld w 0 3) with
      | some f' => some (.fcopysign (fld w 20 6) (fld w 14 6) (fld w 8 6) (fld w 6 2) f')
      | _ => none)
  else none

/-- Words of major opcode 0x11. -/
def decOp11 (w : Nat) : Option Instr :=
  if fld w 2 4 = 0 ∧ fld w 8 6 = 0 then (match FFmt.ofCode (fld w 0 2) with
      | some f' => some (.fneg (fld w 20 6) (fld w 14 6) (fld w 6 2) f')
      | _ => none)
  else if fld w 2 4 = 1 ∧ fld w 8 6 = 0 then (match FFmt.ofCode (fld w 0 2) with
      | some f' => some (.fabs (fld w 20 6) (fld w 14 6) (fld w 6 2) f')
      | _ => none)
  else if fld w 2 4 = 2 ∧ fld w 8 6 = 0 then (match FFmt.ofCode (fld w 0 2) with
      | some f' => some (.fsqrt (fld w 20 6) (fld w 14 6) (fld w 6 2) f')
      | _ => none)
  else if fld w 2 4 = 3 ∧ fld w 8 6 = 0 then (match FFmt.ofCode (fld w 0 2) with
      | some f' => some (.frcp (fld w 20 6) (fld w 14 6) (fld w 6 2) f')
      | _ => none)
  else if fld w 2 4 = 4 ∧ fld w 8 6 = 0 then (match FFmt.ofCode (fld w 0 2) with
      | some f' => some (.frsq (fld w 20 6) (fld w 14 6) (fld w 6 2) f')
      | _ => none)
  else if fld w 2 4 = 5 ∧ fld w 8 6 = 0 then (match FFmt.ofCode (fld w 0 2) with
      | some f' => some (.fexp2 (fld w 20 6) (fld w 14 6) (fld w 6 2) f')
      | _ => none)
  else if fld w 2 4 = 6 ∧ fld w 8 6 = 0 then (match FFmt.ofCode (fld w 0 2) with
      | some f' => some (.flog2 (fld w 20 6) (fld w 14 6) (fld w 6 2) f')
      | _ => none)
  else if fld w 2 4 = 7 ∧ fld w 8 6 = 0 then (match FFmt.ofCode (fld w 0 2) with
      | some f' => some (.fsin (fld w 20 6) (fld w 14 6) (fld w 6 2) f')
      | _ => none)
  else if fld w 2 4 = 8 ∧ fld w 8 6 = 0 then (match FFmt.ofCode (fld w 0 2) with
      | some f' => some (.fcos (fld w 20 6) (fld w 14 6) (fld w 6 2) f')
      | _ => none)
  else if fld w 2 4 = 9 ∧ fld w 8 6 = 0 then (match FFmt.ofCode (fld w 0 2) with
      | some f' => some (.ftanh (fld w 20 6) (fld w 14 6) (fld w 6 2) f')
      | _ => none)
  else if fld w 2 4 = 10 ∧ fld w 8 6 = 0 then (match FFmt.ofCode (fld w 0 2) with
      | some f' => some (.fsigm (fld w 20 6) (fld w 14 6) (fld w 6 2) f')
      | _ => none)
  else if fld w 2 4 = 11 ∧ fld w 8 6 = 0 then (match FFmt.ofCode (fld w 0 2) with
      | some f' => some (.ffloor (fld w 20 6) (fld w 14 6) (fld w 6 2) f')
      | _ => none)
  else if fld w 2 4 = 12 ∧ fld w 8 6 = 0 then (match FFmt.ofCode (fld w 0 2) with
      | some f' => some (.fceil (fld w 20 6) (fld w 14 6) (fld w 6 2) f')
      | _ => none)
  else if fld w 2 4 = 13 ∧ fld w 8 6 = 0 then (match FFmt.ofCode (fld w 0 2) with
      | some f' => some (.ftrunc (fld w 20 6) (fld w 14 6) (fld w 6 2) f')
      | _ => none)
  else if fld w 2 4 = 14 ∧ fld w 8 6 = 0 then (match FFmt.ofCode (fld w 0 2) with
      | some f' => some (.frint (fld w 20 6) (fld w 14 6) (fld w 6 2) f')
      | _ => none)
  else none

/-- Words of major opcode 0x12. -/
def decOp12 (w : Nat) : Option Instr :=
  if fld w 6 2 = 0 ∧ fld w 23 3 = 0 then (match FFmt.ofCode (fld w 3 3), FCond.ofCode (fld w 0 3) with
      | some t', some c' => some (.fcmp (fld w 20 3) (fld w 14 6) (fld w 8 6) t' c')
      | _, _ => none)
  else none

/-- Words of major opcode 0x13. -/
def decOp13 (w : Nat) : Option Instr :=
  some (.ffmaF32 (fld w 20 6) (fld w 14 6) (fld w 8 6) (fld w 2 6) (fld w 0 2))

/-- Words of major opcode 0x14. -/
def decOp14 (w : Nat) : Option Instr :=
  some (.ffmaF16x2 (fld w 20 6) (fld w 14 6) (fld w 8 6) (fld w 2 6) (fld w 0 2))

/-- Words of major opcode 0x15. -/
def decOp15 (w : Nat) : Option Instr :=
  some (.ffmaBf16x2 (fld w 20 6) (fld w 14 6) (fld w 8 6) (fld w 2 6) (fld w 0 2))

/-- Words of major opcode 0x16. -/
def decOp16 (w : Nat) : Option Instr :=
  if fld w 13 1 = 0 then (match Fmt.ofCode (fld w 8 5), bitOf (fld w 5 1), Fmt.ofCode (fld w 0 5) with
      | some s', some t', some d' => some (.cvt (fld w 20 6) (fld w 14 6) s' (fld w 6 2) t' d')
      | _, _, _ => none)
  else if fld w 13 1 = 1 then (match Fmt.ofCode (fld w 8 5), bitOf (fld w 5 1), Fmt.ofCode (fld w 0 5) with
      | some s', some t', some d' => some (.cvtBlk (fld w 20 6) (fld w 14 6) s' (fld w 6 2) t' d')
      | _, _, _ => none)
  else none

/-- Words of major opcode 0x17. -/
def decOp17 (w : Nat) : Option Instr :=
  if fld w 9 3 = 0 then (match Fmt.ofCode (fld w 0 5) with
      | some f' => some (.tag (fld w 20 6) (fld w 14 6) (fld w 12 2) (fld w 5 4) f')
      | _ => none)
  else none

/-- Words of major opcode 0x18. -/
def decOp18 (w : Nat) : Option Instr :=
  if fld w 0 14 = 0 ∧ fld w 23 3 = 0 then some (.ballot (fld w 20 3) (fld w 14 6))
  else if fld w 0 6 = 1 then some (.bcast (fld w 20 6) (fld w 14 6) (fld w 8 6) (fld w 6 2))
  else if fld w 0 6 = 2 then some (.xchg (fld w 20 6) (fld w 14 6) (fld w 8 6) (fld w 6 2))
  else if fld w 3 3 = 1 ∧ fld w 8 6 = 0 then (match ScanOp.ofCode (fld w 0 3) with
      | some c' => some (.scan (fld w 20 6) (fld w 14 6) (fld w 6 2) c')
      | _ => none)
  else if fld w 3 3 = 2 ∧ fld w 8 6 = 0 then (match ScanOp.ofCode (fld w 0 3) with
      | some c' => some (.scanx (fld w 20 6) (fld w 14 6) (fld w 6 2) c')
      | _ => none)
  else none

/-- Words of major opcode 0x19. -/
def decOp19 (w : Nat) : Option Instr :=
  some (.shfl (fld w 20 6) (fld w 14 6) (fld w 8 6) (fld w 2 6) (fld w 0 2))

/-- Words of major opcode 0x1A. -/
def decOp1A (w : Nat) : Option Instr :=
  if fld w 0 6 = 0 ∧ fld w 8 6 = 0 ∧ fld w 20 6 = 0 then some (.xir (fld w 14 6) (fld w 6 2))
  else none

/-- Words of major opcode 0x20. -/
def decOp20 (w : Nat) : Option Instr :=
  match Sz.ofCode (fld w 9 3), accessOfCode (fld w 6 3) with
      | some z', some c' => some (.ldG (fld w 20 6) (fld w 14 6) (fld w 12 2) z' c' (fld w 0 6))
      | _, _ => none

/-- Words of major opcode 0x21. -/
def decOp21 (w : Nat) : Option Instr :=
  match Sz.ofCode (fld w 9 3), accessOfCode (fld w 6 3) with
      | some z', some c' => some (.stG (fld w 20 6) (fld w 14 6) (fld w 12 2) z' c' (fld w 0 6))
      | _, _ => none

/-- Words of major opcode 0x22. -/
def decOp22 (w : Nat) : Option Instr :=
  if fld w 6 3 = 0 then (match Sz.ofCode (fld w 9 3) with
      | some z' => some (.ldL (fld w 20 6) (fld w 14 6) (fld w 12 2) z' (fld w 0 6))
      | _ => none)
  else none

/-- Words of major opcode 0x23. -/
def decOp23 (w : Nat) : Option Instr :=
  if fld w 6 3 = 0 then (match Sz.ofCode (fld w 9 3) with
      | some z' => some (.stL (fld w 20 6) (fld w 14 6) (fld w 12 2) z' (fld w 0 6))
      | _ => none)
  else none

/-- Words of major opcode 0x24. -/
def decOp24 (w : Nat) : Option Instr :=
  if fld w 6 3 = 0 then (match LkSz.ofCode (fld w 9 3) with
      | some z' => some (.lkld (fld w 20 6) (fld w 14 6) (fld w 12 2) z' (fld w 0 6))
      | _ => none)
  else none

/-- Words of major opcode 0x25. -/
def decOp25 (w : Nat) : Option Instr :=
  if fld w 6 3 = 0 then (match LkSz.ofCode (fld w 9 3) with
      | some z' => some (.stul (fld w 20 6) (fld w 14 6) (fld w 12 2) z' (fld w 0 6))
      | _ => none)
  else none

/-- Words of major opcode 0x26. -/
def decOp26 (w : Nat) : Option Instr :=
  if fld w 0 6 = 0 ∧ fld w 8 6 = 0 then some (.tlook (fld w 20 6) (fld w 14 6) (fld w 6 2))
  else if fld w 0 6 = 1 ∧ fld w 20 6 = 0 then some (.tset (fld w 14 6) (fld w 8 6) (fld w 6 2))
  else none

/-- Words of major opcode 0x27. -/
def decOp27 (w : Nat) : Option Instr :=
  if fld w 0 8 = 0 ∧ fld w 12 2 = 0 ∧ fld w 20 6 = 0 then some (.rgnOpen (fld w 14 6) (fld w 8 4))
  else if fld w 0 8 = 1 ∧ fld w 12 14 = 0 then some (.rgnClose (fld w 8 4))
  else none

/-- Words of major opcode 0x28. -/
def decOp28 (w : Nat) : Option Instr :=
  match Scope.ofCode (fld w 5 3), Use.ofCode (fld w 2 3), IntTy.atomOfCode (fld w 0 2) with
      | some s', some u', some t' => some (.atomAdd (fld w 20 6) (fld w 14 6) (fld w 8 6) s' u' t')
      | _, _, _ => none

/-- Words of major opcode 0x29. -/
def decOp29 (w : Nat) : Option Instr :=
  match Scope.ofCode (fld w 5 3), Use.ofCode (fld w 2 3), IntTy.atomOfCode (fld w 0 2) with
      | some s', some u', some t' => some (.atomMin (fld w 20 6) (fld w 14 6) (fld w 8 6) s' u' t')
      | _, _, _ => none

/-- Words of major opcode 0x2A. -/
def decOp2A (w : Nat) : Option Instr :=
  match Scope.ofCode (fld w 5 3), Use.ofCode (fld w 2 3), IntTy.atomOfCode (fld w 0 2) with
      | some s', some u', some t' => some (.atomMax (fld w 20 6) (fld w 14 6) (fld w 8 6) s' u' t')
      | _, _, _ => none

/-- Words of major opcode 0x2B. -/
def decOp2B (w : Nat) : Option Instr :=
  if fld w 0 2 = 0 then (match Scope.ofCode (fld w 5 3), Use.ofCode (fld w 2 3) with
      | some s', some u' => some (.atomAnd (fld w 20 6) (fld w 14 6) (fld w 8 6) s' u')
      | _, _ => none)
  else if fld w 0 2 = 1 then (match Scope.ofCode (fld w 5 3), Use.ofCode (fld w 2 3) with
      | some s', some u' => some (.atomOr (fld w 20 6) (fld w 14 6) (fld w 8 6) s' u')
      | _, _ => none)
  else if fld w 0 2 = 2 then (match Scope.ofCode (fld w 5 3), Use.ofCode (fld w 2 3) with
      | some s', some u' => some (.atomXor (fld w 20 6) (fld w 14 6) (fld w 8 6) s' u')
      | _, _ => none)
  else if fld w 0 2 = 3 then (match Scope.ofCode (fld w 5 3), Use.ofCode (fld w 2 3) with
      | some s', some u' => some (.atomExch (fld w 20 6) (fld w 14 6) (fld w 8 6) s' u')
      | _, _ => none)
  else none

/-- Words of major opcode 0x2C. -/
def decOp2C (w : Nat) : Option Instr :=
  if fld w 1 1 = 0 then (match Scope.ofCode (fld w 5 3), Use.ofCode (fld w 2 3), CasTy.ofCode (fld w 0 1) with
      | some s', some u', some t' => some (.atomCas (fld w 20 6) (fld w 14 6) (fld w 8 6) s' u' t')
      | _, _, _ => none)
  else none

/-- Words of major opcode 0x2D. -/
def decOp2D (w : Nat) : Option Instr :=
  if fld w 0 2 = 0 then (match Scope.ofCode (fld w 5 3), Use.ofCode (fld w 2 3) with
      | some s', some u' => some (.atomFadd (fld w 20 6) (fld w 14 6) (fld w 8 6) s' u')
      | _, _ => none)
  else if fld w 0 2 = 1 then (match Scope.ofCode (fld w 5 3), Use.ofCode (fld w 2 3) with
      | some s', some u' => some (.atomFmin (fld w 20 6) (fld w 14 6) (fld w 8 6) s' u')
      | _, _ => none)
  else if fld w 0 2 = 2 then (match Scope.ofCode (fld w 5 3), Use.ofCode (fld w 2 3) with
      | some s', some u' => some (.atomFmax (fld w 20 6) (fld w 14 6) (fld w 8 6) s' u')
      | _, _ => none)
  else none

/-- Words of major opcode 0x2E. -/
def decOp2E (w : Nat) : Option Instr :=
  if fld w 24 2 = 0 then (match RedOp.ofCode (fld w 20 4), Scope.ofCode (fld w 5 3), Use.ofCode (fld w 2 3), IntTy.atomOfCode (fld w 0 2) with
      | some o', some s', some u', some t' => some (.red o' (fld w 14 6) (fld w 8 6) s' u' t')
      | _, _, _, _ => none)
  else none

/-- Words of major opcode 0x2F. -/
def decOp2F (w : Nat) : Option Instr :=
  if fld w 8 6 = 0 then (match Scope.ofCode (fld w 5 3), Use.ofCode (fld w 2 3), IntTy.atomOfCode (fld w 0 2) with
      | some s', some u', some t' => some (.atomLd (fld w 20 6) (fld w 14 6) s' u' t')
      | _, _, _ => none)
  else none

/-- Words of major opcode 0x30. -/
def decOp30 (w : Nat) : Option Instr :=
  if fld w 0 14 = 0 ∧ fld w 20 6 = 0 then some (.cpy (fld w 14 6))
  else if fld w 0 26 = 1 then some (.cbat)
  else if fld w 3 23 = 1 then (match Scope.ofCode (fld w 0 3) with
      | some s' => some (.fenceAcq s')
      | _ => none)
  else if fld w 3 23 = 2 then (match Scope.ofCode (fld w 0 3) with
      | some s' => some (.fenceRel s')
      | _ => none)
  else if fld w 3 23 = 3 then (match Scope.ofCode (fld w 0 3) with
      | some s' => some (.fenceAr s')
      | _ => none)
  else none

/-- Words of major opcode 0x31. -/
def decOp31 (w : Nat) : Option Instr :=
  if fld w 8 6 = 0 then some (.wait (fld w 20 6) (fld w 14 6) (fld w 4 4) (fld w 0 4))
  else none

/-- Words of major opcode 0x32. -/
def decOp32 (w : Nat) : Option Instr :=
  if fld w 12 14 = 0 then some (.waitb (fld w 0 12))
  else none

/-- Words of major opcode 0x33. -/
def decOp33 (w : Nat) : Option Instr :=
  if fld w 19 7 = 0 then some (.txb (fld w 0 19))
  else if fld w 19 7 = 8 then some (.txo (fld w 0 19))
  else if fld w 0 26 = 8388608 then some (.txc)
  else if fld w 0 26 = 12582912 then some (.txr)
  else if fld w 0 26 = 16777216 then some (.txe)
  else none

/-- Words of major opcode 0x34. -/
def decOp34 (w : Nat) : Option Instr :=
  match BrCond.ofCode (fld w 22 4) with
      | some c' => some (.br c' (fld w 19 3) (fld w 0 19))
      | _ => none

/-- Words of major opcode 0x35. -/
def decOp35 (w : Nat) : Option Instr :=
  match BrCond.ofCode (fld w 22 4) with
      | some c' => some (.call c' (fld w 19 3) (fld w 0 19))
      | _ => none

/-- Words of major opcode 0x36. -/
def decOp36 (w : Nat) : Option Instr :=
  if fld w 0 26 = 0 then some (.join)
  else if fld w 0 14 = 1 ∧ fld w 20 6 = 0 then some (.jmp (fld w 14 6))
  else if fld w 0 14 = 2 then some (.calli (fld w 20 6) (fld w 14 6))
  else if fld w 0 14 = 3 ∧ fld w 20 6 = 0 then some (.ret (fld w 14 6))
  else none

/-- Words of major opcode 0x37. -/
def decOp37 (w : Nat) : Option Instr :=
  if fld w 8 18 = 0 then some (.regang (fld w 0 8))
  else none

/-- Words of major opcode 0x38. -/
def decOp38 (w : Nat) : Option Instr :=
  if fld w 0 8 = 0 then (match CReg.ofCode (fld w 8 12) with
      | some n' => some (.getc (fld w 20 6) n')
      | _ => none)
  else if fld w 0 8 = 1 then (match CReg.ofCode (fld w 8 12) with
      | some n' => some (.setc (fld w 20 6) n')
      | _ => none)
  else if fld w 0 26 = 8 then some (.exit)
  else if fld w 0 26 = 9 then some (.barCrew)
  else if fld w 0 26 = 10 then some (.barCoh)
  else if fld w 0 8 = 16 ∧ fld w 20 6 = 0 then some (.trap (fld w 8 12))
  else if fld w 0 26 = 17 then some (.brk)
  else if fld w 0 26 = 18 then some (.tret)
  else if fld w 0 8 = 24 ∧ fld w 12 8 = 0 then some (.ebud (fld w 20 6) (fld w 8 4))
  else if fld w 0 20 = 25 then some (.pint (fld w 20 6))
  else none

/-- Words of major opcode 0x39. -/
def decOp39 (w : Nat) : Option Instr :=
  if fld w 3 1 = 0 ∧ fld w 22 4 = 0 then (match MxFmt.ofCode (fld w 0 3) with
      | some f' => some (.mmq (fld w 20 2) (fld w 18 2) (fld w 10 8) (fld w 4 6) f')
      | _ => none)
  else if fld w 3 1 = 1 ∧ fld w 6 4 = 0 ∧ fld w 22 4 = 0 then (match MxFmt.ofCode (fld w 0 3) with
      | some f' => some (.mmqByp (fld w 20 2) (fld w 18 2) (fld w 10 8) (fld w 4 2) f')
      | _ => none)
  else if fld w 0 4 = 6 ∧ fld w 10 10 = 0 ∧ fld w 22 4 = 1 then some (.mgld (fld w 20 2) (fld w 4 6))
  else if fld w 0 18 = 0 ∧ fld w 22 4 = 2 then (match bitOf (fld w 19 1), bitOf (fld w 18 1) with
      | some e', some n' => some (.mscan (fld w 20 2) e' n')
      | _, _ => none)
  else if fld w 0 4 = 7 ∧ fld w 10 10 = 0 ∧ fld w 22 4 = 3 then some (.mdrainState (fld w 20 2) (fld w 4 6))
  else if fld w 3 1 = 0 ∧ fld w 10 8 = 0 ∧ fld w 19 1 = 0 ∧ fld w 22 4 = 3 then (match bitOf (fld w 18 1), DrFmt.ofCode (fld w 0 3) with
      | some t', some f' => some (.mdrain (fld w 20 2) t' (fld w 4 6) f')
      | _, _ => none)
  else if fld w 3 7 = 0 ∧ fld w 12 6 = 0 ∧ fld w 19 1 = 0 ∧ fld w 22 4 = 4 then (match bitOf (fld w 18 1), MxFmt.ofCode (fld w 0 3) with
      | some t', some f' => some (.mdrainByp (fld w 20 2) t' (fld w 10 2) f')
      | _, _ => none)
  else if fld w 1 9 = 0 ∧ fld w 15 5 = 0 ∧ fld w 22 4 = 5 then (match bitOf (fld w 14 1), bitOf (fld w 0 1) with
      | some c', some f' => some (.macq (fld w 20 2) c' (fld w 10 4) f')
      | _, _ => none)
  else if fld w 0 20 = 0 ∧ fld w 22 4 = 6 then some (.mrel (fld w 20 2))
  else none

/-- Words of major opcode 0x3E. -/
def decOp3E (w : Nat) : Option Instr :=
  if fld w 20 6 = 0 then some (.hintWide (fld w 0 20))
  else if fld w 0 26 = 4194305 then some (.hintMext)
  else if fld w 3 23 = 1048576 then (match Rnd.ofCode (fld w 0 3) with
      | some r' => some (.hintRnd r')
      | _ => none)
  else if fld w 4 22 = 786432 then some (.hintBnd (fld w 0 4))
  else if fld w 10 16 = 32768 then some (.hintYield (fld w 0 10))
  else if fld w 7 19 = 294912 then (match bitOf (fld w 6 1) with
      | some k' => some (.hintKeep k' (fld w 0 6))
      | _ => none)
  else if fld w 6 20 = 655360 then some (.hintEvict (fld w 0 6))
  else if fld w 20 6 = 44 then some (.bbc (fld w 0 20))
  else if fld w 8 18 = 196608 then some (.hintFuse (fld w 0 8))
  else if fld w 1 25 = 27262976 then (match bitOf (fld w 0 1) with
      | some f' => some (.hintNoahead f')
      | _ => none)
  else if fld w 23 3 = 7 then some (.hintAdv (fld w 22 1) (fld w 0 22))
  else none

/-- The instruction whose fields a 32-bit word holds, before the checks of `Instr.wf` (R190). -/
def decodeRaw (w : Nat) : Option Instr :=
  match w / 2 ^ 26 with
  | 1 => decOp01 w
  | 2 => decOp02 w
  | 3 => decOp03 w
  | 4 => decOp04 w
  | 5 => decOp05 w
  | 6 => decOp06 w
  | 7 => decOp07 w
  | 8 => decOp08 w
  | 9 => decOp09 w
  | 10 => decOp0A w
  | 11 => decOp0B w
  | 12 => decOp0C w
  | 13 => decOp0D w
  | 14 => decOp0E w
  | 15 => decOp0F w
  | 16 => decOp10 w
  | 17 => decOp11 w
  | 18 => decOp12 w
  | 19 => decOp13 w
  | 20 => decOp14 w
  | 21 => decOp15 w
  | 22 => decOp16 w
  | 23 => decOp17 w
  | 24 => decOp18 w
  | 25 => decOp19 w
  | 26 => decOp1A w
  | 32 => decOp20 w
  | 33 => decOp21 w
  | 34 => decOp22 w
  | 35 => decOp23 w
  | 36 => decOp24 w
  | 37 => decOp25 w
  | 38 => decOp26 w
  | 39 => decOp27 w
  | 40 => decOp28 w
  | 41 => decOp29 w
  | 42 => decOp2A w
  | 43 => decOp2B w
  | 44 => decOp2C w
  | 45 => decOp2D w
  | 46 => decOp2E w
  | 47 => decOp2F w
  | 48 => decOp30 w
  | 49 => decOp31 w
  | 50 => decOp32 w
  | 51 => decOp33 w
  | 52 => decOp34 w
  | 53 => decOp35 w
  | 54 => decOp36 w
  | 55 => decOp37 w
  | 56 => decOp38 w
  | 57 => decOp39 w
  | 62 => decOp3E w
  | _ => none

/-- Decoding of one word: R191 names every word that is no instruction. -/
def decodeWord (w : Nat) : Except Reject Instr :=
  match decodeRaw w with
  | none => .error .unassigned
  | some i => if i.wf then .ok i else .error .illegalField

/-- A word from four bytes, little-endian (R3, R174). -/
def wordOfBytes (b0 b1 b2 b3 : Byte) : Nat :=
  b0.toNat + 256 * b1.toNat + 65536 * b2.toNat + 16777216 * b3.toNat

/-- Decoding of the first word of a byte sequence, with the bytes that follow it. -/
def decode : List Byte → Except Reject (Instr × List Byte)
  | b0 :: b1 :: b2 :: b3 :: rest =>
    match decodeWord (wordOfBytes b0 b1 b2 b3) with
    | .ok i => .ok (i, rest)
    | .error e => .error e
  | _ => .error .truncated

/-- The four bytes of a word, little-endian (R174). -/
def bytesOfWord (w : Nat) : List Byte :=
  [BitVec.ofNat 8 w, BitVec.ofNat 8 (w / 256), BitVec.ofNat 8 (w / 65536), BitVec.ofNat 8 (w / 16777216)]

/-- The word of an instruction (R174, R190 to R207); an event or command has none. -/
def encode : Instr → Option Nat
  | .iadd d a b m => some (67108864 + d * 1048576 + a * 16384 + b * 256 + m * 64)
  | .isub d a b m => some (67108865 + d * 1048576 + a * 16384 + b * 256 + m * 64)
  | .imulLo d a b m => some (67108866 + d * 1048576 + a * 16384 + b * 256 + m * 64)
  | .imulHiS32 d a b m => some (67108867 + d * 1048576 + a * 16384 + b * 256 + m * 64)
  | .imulHiN32 d a b m => some (67108868 + d * 1048576 + a * 16384 + b * 256 + m * 64)
  | .iminS32 d a b m => some (67108869 + d * 1048576 + a * 16384 + b * 256 + m * 64)
  | .iminN32 d a b m => some (67108870 + d * 1048576 + a * 16384 + b * 256 + m * 64)
  | .imaxS32 d a b m => some (67108871 + d * 1048576 + a * 16384 + b * 256 + m * 64)
  | .imaxN32 d a b m => some (67108872 + d * 1048576 + a * 16384 + b * 256 + m * 64)
  | .iabsS32 d a m => some (67108873 + d * 1048576 + a * 16384 + m * 64)
  | .ineg d a m => some (67108874 + d * 1048576 + a * 16384 + m * 64)
  | .idivS32 d a b m => some (67108875 + d * 1048576 + a * 16384 + b * 256 + m * 64)
  | .idivN32 d a b m => some (67108876 + d * 1048576 + a * 16384 + b * 256 + m * 64)
  | .iremS32 d a b m => some (67108877 + d * 1048576 + a * 16384 + b * 256 + m * 64)
  | .iremN32 d a b m => some (67108878 + d * 1048576 + a * 16384 + b * 256 + m * 64)
  | .iaddSatS32 d a b m => some (67108880 + d * 1048576 + a * 16384 + b * 256 + m * 64)
  | .iaddSatN32 d a b m => some (67108881 + d * 1048576 + a * 16384 + b * 256 + m * 64)
  | .isubSatS32 d a b m => some (67108882 + d * 1048576 + a * 16384 + b * 256 + m * 64)
  | .isubSatN32 d a b m => some (67108883 + d * 1048576 + a * 16384 + b * 256 + m * 64)
  | .iadd64 d a b m => some (67108896 + d * 1048576 + a * 16384 + b * 256 + m * 64)
  | .isub64 d a b m => some (67108897 + d * 1048576 + a * 16384 + b * 256 + m * 64)
  | .imulLo64 d a b m => some (67108898 + d * 1048576 + a * 16384 + b * 256 + m * 64)
  | .imulWideS32 d a b m => some (67108899 + d * 1048576 + a * 16384 + b * 256 + m * 64)
  | .imulWideN32 d a b m => some (67108900 + d * 1048576 + a * 16384 + b * 256 + m * 64)
  | .iminS64 d a b m => some (67108901 + d * 1048576 + a * 16384 + b * 256 + m * 64)
  | .iminN64 d a b m => some (67108902 + d * 1048576 + a * 16384 + b * 256 + m * 64)
  | .imaxS64 d a b m => some (67108903 + d * 1048576 + a * 16384 + b * 256 + m * 64)
  | .imaxN64 d a b m => some (67108904 + d * 1048576 + a * 16384 + b * 256 + m * 64)
  | .mov d m i => some (469762048 + d * 1048576 + m * 4096 + i)
  | .iaddImm d a m i => some (536870912 + d * 1048576 + a * 16384 + m * 4096 + i)
  | .imulLoImm d a m i => some (603979776 + d * 1048576 + a * 16384 + m * 4096 + i)
  | .andImm d a m i => some (671088640 + d * 1048576 + a * 16384 + m * 4096 + i)
  | .orImm d a m i => some (738197504 + d * 1048576 + a * 16384 + m * 4096 + i)
  | .xorImm d a m i => some (805306368 + d * 1048576 + a * 16384 + m * 4096 + i)
  | .shlImm d a m c => some (872415232 + d * 1048576 + a * 16384 + m * 4096 + c)
  | .shrNImm d a m c => some (872416256 + d * 1048576 + a * 16384 + m * 4096 + c)
  | .shrSImm d a m c => some (872417280 + d * 1048576 + a * 16384 + m * 4096 + c)
  | .rotlImm d a m c => some (872418304 + d * 1048576 + a * 16384 + m * 4096 + c)
  | .bfeNImm d a m w p => some (939524096 + d * 1048576 + a * 16384 + m * 4096 + w * 32 + p)
  | .bfeSImm d a m w p => some (939526144 + d * 1048576 + a * 16384 + m * 4096 + w * 32 + p)
  | .bfi d a m w p => some (1006632960 + d * 1048576 + a * 16384 + m * 4096 + w * 32 + p)
  | .imad d a b c m => some (402653184 + d * 1048576 + a * 16384 + b * 256 + c * 4 + m)
  | .and_ d a b m => some (134217728 + d * 1048576 + a * 16384 + b * 256 + m * 64)
  | .or_ d a b m => some (134217729 + d * 1048576 + a * 16384 + b * 256 + m * 64)
  | .xor_ d a b m => some (134217730 + d * 1048576 + a * 16384 + b * 256 + m * 64)
  | .andn d a b m => some (134217731 + d * 1048576 + a * 16384 + b * 256 + m * 64)
  | .orn d a b m => some (134217732 + d * 1048576 + a * 16384 + b * 256 + m * 64)
  | .not_ d a m => some (134217733 + d * 1048576 + a * 16384 + m * 64)
  | .shl d a b m => some (134217736 + d * 1048576 + a * 16384 + b * 256 + m * 64)
  | .shrN d a b m => some (134217737 + d * 1048576 + a * 16384 + b * 256 + m * 64)
  | .shrS d a b m => some (134217738 + d * 1048576 + a * 16384 + b * 256 + m * 64)
  | .rotl d a b m => some (134217739 + d * 1048576 + a * 16384 + b * 256 + m * 64)
  | .popc d a m => some (134217744 + d * 1048576 + a * 16384 + m * 64)
  | .clz d a m => some (134217745 + d * 1048576 + a * 16384 + m * 64)
  | .ctz d a m => some (134217746 + d * 1048576 + a * 16384 + m * 64)
  | .brev d a m => some (134217747 + d * 1048576 + a * 16384 + m * 64)
  | .bfeN d a b m => some (134217752 + d * 1048576 + a * 16384 + b * 256 + m * 64)
  | .bfeS d a b m => some (134217753 + d * 1048576 + a * 16384 + b * 256 + m * 64)
  | .shl64 d a b m => some (134217760 + d * 1048576 + a * 16384 + b * 256 + m * 64)
  | .shrN64 d a b m => some (134217761 + d * 1048576 + a * 16384 + b * 256 + m * 64)
  | .shrS64 d a b m => some (134217762 + d * 1048576 + a * 16384 + b * 256 + m * 64)
  | .popc64 d a m => some (134217768 + d * 1048576 + a * 16384 + m * 64)
  | .clz64 d a m => some (134217769 + d * 1048576 + a * 16384 + m * 64)
  | .icmp d a b t c => some (201326592 + d * 1048576 + a * 16384 + b * 256 + (IntTy.code t) * 8 + CmpCond.code c)
  | .sel d a b c m => some (335544320 + d * 1048576 + a * 16384 + b * 256 + c * 4 + m)
  | .mand d a b => some (268435456 + d * 1048576 + a * 16384 + b * 256)
  | .mor d a b => some (268435457 + d * 1048576 + a * 16384 + b * 256)
  | .mxor d a b => some (268435458 + d * 1048576 + a * 16384 + b * 256)
  | .mandn d a b => some (268435459 + d * 1048576 + a * 16384 + b * 256)
  | .mnot d a => some (268435460 + d * 1048576 + a * 16384)
  | .mmov d a => some (268435461 + d * 1048576 + a * 16384)
  | .mpop d a => some (268435464 + d * 1048576 + a * 16384)
  | .mfirst d a => some (268435465 + d * 1048576 + a * 16384)
  | .mtov d a => some (268435466 + d * 1048576 + a * 16384)
  | .vtom d a => some (268435467 + d * 1048576 + a * 16384)
  | .br c m o => some (3489660928 + (BrCond.code c) * 4194304 + m * 524288 + o)
  | .call c m o => some (3556769792 + (BrCond.code c) * 4194304 + m * 524288 + o)
  | .join => some (3623878656)
  | .jmp a => some (3623878657 + a * 16384)
  | .calli d a => some (3623878658 + d * 1048576 + a * 16384)
  | .ret a => some (3623878659 + a * 16384)
  | .regang s => some (3690987520 + s)
  | .fadd d a b m f => some (1073741824 + d * 1048576 + a * 16384 + b * 256 + m * 64 + FBinFmt.code f)
  | .fsub d a b m f => some (1073741832 + d * 1048576 + a * 16384 + b * 256 + m * 64 + FBinFmt.code f)
  | .fmul d a b m f => some (1073741840 + d * 1048576 + a * 16384 + b * 256 + m * 64 + FBinFmt.code f)
  | .fdiv d a b m f => some (1073741848 + d * 1048576 + a * 16384 + b * 256 + m * 64 + FBinFmt.code f)
  | .fmin d a b m f => some (1073741856 + d * 1048576 + a * 16384 + b * 256 + m * 64 + FBinFmt.code f)
  | .fmax d a b m f => some (1073741864 + d * 1048576 + a * 16384 + b * 256 + m * 64 + FBinFmt.code f)
  | .fcopysign d a b m f => some (1073741872 + d * 1048576 + a * 16384 + b * 256 + m * 64 + FBinFmt.code f)
  | .fneg d a m f => some (1140850688 + d * 1048576 + a * 16384 + m * 64 + FFmt.code f)
  | .fabs d a m f => some (1140850692 + d * 1048576 + a * 16384 + m * 64 + FFmt.code f)
  | .fsqrt d a m f => some (1140850696 + d * 1048576 + a * 16384 + m * 64 + FFmt.code f)
  | .frcp d a m f => some (1140850700 + d * 1048576 + a * 16384 + m * 64 + FFmt.code f)
  | .frsq d a m f => some (1140850704 + d * 1048576 + a * 16384 + m * 64 + FFmt.code f)
  | .fexp2 d a m f => some (1140850708 + d * 1048576 + a * 16384 + m * 64 + FFmt.code f)
  | .flog2 d a m f => some (1140850712 + d * 1048576 + a * 16384 + m * 64 + FFmt.code f)
  | .fsin d a m f => some (1140850716 + d * 1048576 + a * 16384 + m * 64 + FFmt.code f)
  | .fcos d a m f => some (1140850720 + d * 1048576 + a * 16384 + m * 64 + FFmt.code f)
  | .ftanh d a m f => some (1140850724 + d * 1048576 + a * 16384 + m * 64 + FFmt.code f)
  | .fsigm d a m f => some (1140850728 + d * 1048576 + a * 16384 + m * 64 + FFmt.code f)
  | .ffloor d a m f => some (1140850732 + d * 1048576 + a * 16384 + m * 64 + FFmt.code f)
  | .fceil d a m f => some (1140850736 + d * 1048576 + a * 16384 + m * 64 + FFmt.code f)
  | .ftrunc d a m f => some (1140850740 + d * 1048576 + a * 16384 + m * 64 + FFmt.code f)
  | .frint d a m f => some (1140850744 + d * 1048576 + a * 16384 + m * 64 + FFmt.code f)
  | .ffmaF32 d a b c m => some (1275068416 + d * 1048576 + a * 16384 + b * 256 + c * 4 + m)
  | .ffmaF16x2 d a b c m => some (1342177280 + d * 1048576 + a * 16384 + b * 256 + c * 4 + m)
  | .ffmaBf16x2 d a b c m => some (1409286144 + d * 1048576 + a * 16384 + b * 256 + c * 4 + m)
  | .fcmp d a b t c => some (1207959552 + d * 1048576 + a * 16384 + b * 256 + (FFmt.code t) * 8 + FCond.code c)
  | .cvt v a s m t d => some (1476395008 + v * 1048576 + a * 16384 + (Fmt.code s) * 256 + m * 64 + (Bool.toNat t) * 32 + Fmt.code d)
  | .cvtBlk v a s m t d => some (1476403200 + v * 1048576 + a * 16384 + (Fmt.code s) * 256 + m * 64 + (Bool.toNat t) * 32 + Fmt.code d)
  | .tag d a m i f => some (1543503872 + d * 1048576 + a * 16384 + m * 4096 + i * 32 + Fmt.code f)
  | .ballot d a => some (1610612736 + d * 1048576 + a * 16384)
  | .bcast d a b m => some (1610612737 + d * 1048576 + a * 16384 + b * 256 + m * 64)
  | .xchg d a b m => some (1610612738 + d * 1048576 + a * 16384 + b * 256 + m * 64)
  | .shfl d a b c m => some (1677721600 + d * 1048576 + a * 16384 + b * 256 + c * 4 + m)
  | .scan d a m c => some (1610612744 + d * 1048576 + a * 16384 + m * 64 + ScanOp.code c)
  | .scanx d a m c => some (1610612752 + d * 1048576 + a * 16384 + m * 64 + ScanOp.code c)
  | .xir a m => some (1744830464 + a * 16384 + m * 64)
  | .ldG d a m z c o => some (2147483648 + d * 1048576 + a * 16384 + m * 4096 + (Sz.code z) * 512 + (accessCode c) * 64 + o)
  | .stG d a m z c o => some (2214592512 + d * 1048576 + a * 16384 + m * 4096 + (Sz.code z) * 512 + (accessCode c) * 64 + o)
  | .ldL d a m z o => some (2281701376 + d * 1048576 + a * 16384 + m * 4096 + (Sz.code z) * 512 + o)
  | .stL d a m z o => some (2348810240 + d * 1048576 + a * 16384 + m * 4096 + (Sz.code z) * 512 + o)
  | .lkld d a m z o => some (2415919104 + d * 1048576 + a * 16384 + m * 4096 + (LkSz.code z) * 512 + o)
  | .stul d a m z o => some (2483027968 + d * 1048576 + a * 16384 + m * 4096 + (LkSz.code z) * 512 + o)
  | .tlook d a m => some (2550136832 + d * 1048576 + a * 16384 + m * 64)
  | .tset a b m => some (2550136833 + a * 16384 + b * 256 + m * 64)
  | .rgnOpen a d => some (2617245696 + a * 16384 + d * 256)
  | .rgnClose d => some (2617245697 + d * 256)
  | .atomAdd d a b s u t => some (2684354560 + d * 1048576 + a * 16384 + b * 256 + (Scope.code s) * 32 + (Use.code u) * 4 + IntTy.atomCode t)
  | .atomMin d a b s u t => some (2751463424 + d * 1048576 + a * 16384 + b * 256 + (Scope.code s) * 32 + (Use.code u) * 4 + IntTy.atomCode t)
  | .atomMax d a b s u t => some (2818572288 + d * 1048576 + a * 16384 + b * 256 + (Scope.code s) * 32 + (Use.code u) * 4 + IntTy.atomCode t)
  | .atomAnd d a b s u => some (2885681152 + d * 1048576 + a * 16384 + b * 256 + (Scope.code s) * 32 + (Use.code u) * 4)
  | .atomOr d a b s u => some (2885681153 + d * 1048576 + a * 16384 + b * 256 + (Scope.code s) * 32 + (Use.code u) * 4)
  | .atomXor d a b s u => some (2885681154 + d * 1048576 + a * 16384 + b * 256 + (Scope.code s) * 32 + (Use.code u) * 4)
  | .atomExch d a b s u => some (2885681155 + d * 1048576 + a * 16384 + b * 256 + (Scope.code s) * 32 + (Use.code u) * 4)
  | .atomCas d a b s u t => some (2952790016 + d * 1048576 + a * 16384 + b * 256 + (Scope.code s) * 32 + (Use.code u) * 4 + CasTy.code t)
  | .atomFadd d a b s u => some (3019898880 + d * 1048576 + a * 16384 + b * 256 + (Scope.code s) * 32 + (Use.code u) * 4)
  | .atomFmin d a b s u => some (3019898881 + d * 1048576 + a * 16384 + b * 256 + (Scope.code s) * 32 + (Use.code u) * 4)
  | .atomFmax d a b s u => some (3019898882 + d * 1048576 + a * 16384 + b * 256 + (Scope.code s) * 32 + (Use.code u) * 4)
  | .red o a b s u t => some (3087007744 + (RedOp.code o) * 1048576 + a * 16384 + b * 256 + (Scope.code s) * 32 + (Use.code u) * 4 + IntTy.atomCode t)
  | .atomLd d a s u t => some (3154116608 + d * 1048576 + a * 16384 + (Scope.code s) * 32 + (Use.code u) * 4 + IntTy.atomCode t)
  | .cpy a => some (3221225472 + a * 16384)
  | .cbat => some (3221225473)
  | .fenceAcq s => some (3221225480 + Scope.code s)
  | .fenceRel s => some (3221225488 + Scope.code s)
  | .fenceAr s => some (3221225496 + Scope.code s)
  | .wait l s t c => some (3288334336 + l * 1048576 + s * 16384 + t * 16 + c)
  | .waitb n => some (3355443200 + n)
  | .txb o => some (3422552064 + o)
  | .txo o => some (3426746368 + o)
  | .txc => some (3430940672)
  | .txr => some (3435134976)
  | .txe => some (3439329280)
  | .getc d n => some (3758096384 + d * 1048576 + (CReg.code n) * 256)
  | .setc d n => some (3758096385 + d * 1048576 + (CReg.code n) * 256)
  | .exit => some (3758096392)
  | .barCrew => some (3758096393)
  | .barCoh => some (3758096394)
  | .trap n => some (3758096400 + n * 256)
  | .brk => some (3758096401)
  | .tret => some (3758096402)
  | .ebud d n => some (3758096408 + d * 1048576 + n * 256)
  | .pint d => some (3758096409 + d * 1048576)
  | .mmq b k s a f => some (3825205248 + b * 1048576 + k * 262144 + s * 1024 + a * 16 + MxFmt.code f)
  | .mmqByp b k s c f => some (3825205256 + b * 1048576 + k * 262144 + s * 1024 + c * 16 + MxFmt.code f)
  | .mgld b a => some (3829399558 + b * 1048576 + a * 16)
  | .mscan b e n => some (3833593856 + b * 1048576 + (Bool.toNat e) * 524288 + (Bool.toNat n) * 262144)
  | .mdrain b t a f => some (3837788160 + b * 1048576 + (Bool.toNat t) * 262144 + a * 16 + DrFmt.code f)
  | .mdrainState b a => some (3837788167 + b * 1048576 + a * 16)
  | .mdrainByp b t g f => some (3841982464 + b * 1048576 + (Bool.toNat t) * 262144 + g * 1024 + MxFmt.code f)
  | .macq b c i f => some (3846176768 + b * 1048576 + (Bool.toNat c) * 16384 + i * 1024 + Bool.toNat f)
  | .mrel b => some (3850371072 + b * 1048576)
  | .hintWide w => some (4160749568 + w)
  | .hintMext => some (4164943873)
  | .hintRnd r => some (4169138176 + Rnd.code r)
  | .hintBnd i => some (4173332480 + i)
  | .hintYield n => some (4194304000 + n)
  | .hintKeep k r => some (4198498304 + (Bool.toNat k) * 64 + r)
  | .hintEvict r => some (4202692608 + r)
  | .bbc n => some (4206886912 + n)
  | .hintFuse w => some (4211081216 + w)
  | .hintNoahead f => some (4215275520 + Bool.toNat f)
  | .hintAdv k p => some (4219469824 + k * 4194304 + p)
  | .coldReset _ => none
  | .functionLevelReset => none
  | .queueDoorbell _ _ => none
  | .queueEnable _ _ => none
  | .queueDisable _ _ => none
  | .queueBaseWrite _ _ => none
  | .queueParkWrite _ _ => none
  | .parkResume _ _ => none
  | .parkKillCrew _ _ => none
  | .parkKillLaunch _ _ => none
  | .preemptCmd _ => none
  | .dbgStopSet _ => none
  | .dbgStopClear _ => none
  | .mboxOpen => none
  | .mboxAppend => none
  | .mboxVerifyStore => none
  | .mboxDiscard => none
  | .memwinRead _ _ => none
  | .memwinWrite _ _ => none
  | .registerWrite _ _ _ => none
  | .hostCxlMemAccess _ => none
  | .doeAttestation _ => none
  | .launch _ => none
  | .pin _ => none
  | .unpin _ => none
  | .copyIn _ => none
  | .copyOut _ => none
  | .signal _ => none
  | .waitCommand _ => none
  | .bindCollective _ => none
  | .spanPrologue _ => none
  | .map _ => none
  | .cohortAdmit _ => none
  | .coreBucketRefill _ => none
  | .fairnessHold _ => none
  | .runAhead _ _ => none
  | .loadComplete _ _ _ => none
  | .storeAccept _ _ _ => none
  | .copyStart _ _ => none
  | .copyComplete _ _ => none
  | .quantumFlush _ _ => none
  | .generationReject _ _ _ => none
  | .wake _ _ => none
  | .spuriousWake _ _ => none
  | .pagesReady _ _ => none
  | .eviction _ => none
  | .groupRestore _ => none
  | .benchHandover _ _ => none
  | .matrixGrant _ => none
  | .passRetire _ => none
  | .scanRetire _ => none
  | .drainComplete _ _ => none
  | .barrierRelease _ _ => none
  | .regangMerge _ _ => none
  | .watchdogExpiry _ _ => none
  | .shadowBankSwap _ => none
  | .spill _ => none
  | .savedContextReport _ => none
  | .takeTrap _ _ => none
  | .parkRecordWrite _ _ => none
  | .uncorrectableConsumed _ _ => none
  | .crewRelaunch _ => none
  | .groupRetire _ _ => none
  | .crewRetire _ => none
  | .collectiveDataReceive _ => none
  | .collectiveRefusal _ _ _ => none
  | .alltoallRowReceive _ => none
  | .rowReturn _ => none
  | .collectiveComplete _ => none
  | .winderBoundary _ => none
  | .backfillDraw _ => none
  | .intentClaimReceive _ _ _ _ _ => none
  | .timeSyncSend _ => none
  | .timeSyncReceive _ _ => none
  | .prologueExchangeReceive _ _ _ => none
  | .flitForward _ _ => none
  | .routeFailureReceive _ => none
  | .portWindow _ _ => none
  | .portDown _ => none
  | .surveyTick => none
  | .sample _ => none
  | .dmaCopyComplete _ _ => none
  | .hostLinkDown _ => none
  | .linkTrained _ _ => none
  | .shadowBankFill _ => none
  | .chunkMissingReceive _ _ _ => none

/-- The instruction that the decoder reads from an instruction whose bits, numbered as the opcode table numbers them,
are `w`: the word is laid out little-endian and decoded. -/
def decodeTableWord (nbits w : Nat) : Option Instr :=
  if nbits ≤ 32 then
    match decode (bytesOfWord w) with
    | .ok (i, _) => some i
    | .error _ => none
  else none

end Sys2Proof
end

