-- ==== Sys2Proof/Config.lean ====
section
/-! DEFINITION. What an implementation fixes (the SZ9's sizes) and the free values: opaque constants for what the spec
leaves open. A free value is applied to its operands or to the counter `State.fresh`; nothing in Lean can evaluate it. -/

namespace Sys2Proof.Config

/-- Cores of the package: 8 compute dies of 16 clusters of 4 cores (R30, R381). -/
abbrev cores : Nat := 512
/-- Clusters of the package. -/
abbrev clusters : Nat := 128
/-- Compute dies of the package. -/
abbrev dies : Nat := 8
/-- Bytes of local store of a core (R96). -/
abbrev localBytes : Nat := 393216
/-- Populated bytes of a memory die (R90). -/
abbrev dieBytes : Nat := 96000000000
/-- Bytes of a frame (R381). -/
abbrev frameBytes : Nat := 655360
/-- FRAME_VA, the frame window of every address space (R386). -/
abbrev frameVa : Nat := 0xFFFFFFFFF00000
/-- Cycles of a winder interval (R422). -/
abbrev interval : Nat := 2048
/-- Grains of a token (R157). -/
abbrev grain : Nat := 16

/-- What a read of the device itself returns at a physical address that no memory die populates (R90 states no result).
FREE VALUE. -/
opaque voidByte : Nat → Byte

/-- Which word a fetch from a rewritten address of the launch's own code object returns: true the word as written,
false the word as it stood at launch. R338 leaves the choice to the device. FREE VALUE. -/
opaque fetchNew : Nat → Bool

/-- The byte a streaming pass reads where a store of the group rewrote a byte of its tile: true the new byte.
R291 allows either. FREE VALUE. -/
opaque streamNew : Nat → Bool

/-- Whether a lookup that R130 lets take an earlier performance takes it from the speculation buffer. FREE VALUE. -/
opaque useSpec : Nat → Bool

/-- The result bit pattern of a transcendental function whose rounding the model's bounded evaluation does not decide
(the spec's value is the exact result rounded once, R239; the operands for which this arises are not known to exist).
First the operation's number, then the operand's bits. FREE VALUE. -/
opaque fun1 : Nat → Nat → Nat

/-- What a clamp writes where no value of the element's format lies on the bound's side (R83 states none): the register's format,
the bound as the descriptor holds it, and whether it is the lower one. FREE VALUE. -/
opaque noEdge : Fmt → Word64 → Bool → Nat

/-- What a survey counter that the model does not keep reads at a tick (R450): the tick, unit × 4,096 plus the word. They
count events below the architecture: cache hits, stalls, directory work. FREE VALUE. -/
opaque surveyFree : Nat → Nat → Nat

/-- The energy, in grains, that one operation of a collective engine or DMA engine draws, and the compute die that it draws
on (R419, R425): the spec states no amount. FREE VALUES. -/
opaque engineGrains : Nat → Nat
opaque engineDie : Nat → Nat

/-- The SHAKE256 digest of R442, 64 bytes of it, as a function of the bytes. The spec names the function and does not
define it. FREE VALUE. -/
opaque shake256 : List Byte → List Byte

/-- Whether an Ed448 signature over a message verifies under a public key (R442): key, message, signature. FREE VALUE. -/
opaque ed448Ok : List Byte → List Byte → List Byte → Bool

/-- The Ed448 signature that the device's identity key makes of a report (R443): nonce, stepping, CAP_FEATURES, CAP_REGROWS,
images, c.time. The spec gives no byte layout of the report. FREE VALUE. -/
opaque identitySign : List Byte → Nat → Nat → Nat → List (Nat × Nat × List Byte) → Nat → List Byte

/-- The certificate of the device identity (R443). FREE VALUE. -/
opaque identityCert : List Byte

/-- The fused root digest, 64 bytes (R442). FREE VALUE. -/
opaque rootDigest : List Byte

/-- What a word of configuration space holds beside the identifiers and the class code (R400): the capabilities stand where the
standard lets the device place them. First the offset. FREE VALUE. -/
opaque configWord : Nat → Nat

/-- The stepping that the revision identifier and the attestation report carry (R400, R443). FREE VALUE. -/
opaque stepping : Nat

end Sys2Proof.Config
end

