-- ==== Sys2Proof/Machine/State.lean ====
section
/-! DEFINITION. The state of the SZ9 as plain data, the reasons a step may stop, and the state at power-on
(`State.reset`). Registers of a unit that is not listed in its table hold the unit's default, which is its reset value. -/

namespace Sys2Proof.Machine

/-- A memory: (address, byte) pairs, addresses strictly rising, no pair with the byte 0, which is what an unlisted
address reads as (DESIGN CHOICE, log entry 1). -/
abbrev Memory := List Host.Cell

/-- Written bytes by address, ascending; a listed byte may be 0 (buffers whose bytes stand for pending writes). -/
abbrev Overlay := List Host.Cell

/-! ### The context of a group -/

/-- Shape tags with the stored values (R43). -/
inductive Shape
  | uniform (u : Word)
  | affine (base stride : Word)
  | general (vals : List Word)
  deriving DecidableEq, Repr

/-- A vector register: shape and values, format code, bound index (R43, R48), and the lanes whose value is poisoned (R433). -/
structure VReg where
  shape : Shape
  fmt : Fmt
  bound : Nat
  poison : Mask
  deriving DecidableEq, Repr

/-- An entry of a divergence stack (R12). -/
inductive StackEntry
  | merge (mask : BitVec 4) (resume : Option Nat)
  | path (pc : Nat) (mask : BitVec 4)
  deriving DecidableEq, Repr

/-- Pending binding hints of a slice (R181). -/
structure Hints where
  wide : Option Nat
  mext : Bool
  rnd : Option Rnd
  bnd : Option Nat
  deriving DecidableEq, Repr

/-- What a slice's gang waits for (R20, R306). -/
inductive GangWait
  | run
  | crewBar
  | cohBar
  | regang (set : Nat)
  deriving DecidableEq, Repr

/-- xir progress (R253, R255): the xir's PC, the lanes still to run, the lanes done, and the captured words by lane. -/
structure Xir where
  pc : Nat
  pend : Mask
  done : Mask
  words : List Word
  deriving DecidableEq, Repr

/-- A slice (R8): its PC, current lanes, divergence stack with the top first, pending hints, the lowest slice of its gang,
whether it has finished, its barrier arrival marks, what its gang waits for and since which cycle (R40). The lowest slice
of a gang holds the gang's progress inside an xir (R255), the quarters of its matrix instruction that have issued (R278) and
the fusion window that the first of them took (R286). -/
structure Slice where
  pc : Nat
  cur : BitVec 4
  stack : List StackEntry
  hints : Hints
  gang : Nat
  fin : Bool
  arrCrew : Bool
  arrCoh : Bool
  wait : GangWait
  since : Nat
  xir : Option Xir
  quarters : Nat
  window : Nat
  deriving DecidableEq, Repr

/-- The context of a group that a save area holds (R355, R356). -/
structure Ctx where
  need : Nat
  live : Mask
  regs : List VReg
  masks : List Mask
  slices : List Slice
  round : Nat
  seed : Word
  bflag : Word
  quantum : Word
  batch : Word
  txstat : Word
  noahead : Bool
  deriving DecidableEq, Repr

/-- States of a group (R33). -/
inductive GState
  | ready | waiting | sleeping | parkedPages | parked | evicted | retiring | retired
  deriving DecidableEq, Repr

/-- What a waiting group waits for (R112, R113, R283); a barrier or regang wait is held by the slices. -/
inductive Wait
  | none
  | counters (ld st cp tl : Nat)
  | batch (n : Word)
  | bench (b : Nat)
  | gangs
  deriving DecidableEq, Repr

/-- Where a group's context stands: a slot of the active or of the shadow bank, or its frame (R21, R391). -/
inductive Place
  | active (slot : Nat)
  | shadow (slot : Nat)
  | frame
  deriving DecidableEq, Repr

/-- A memory instruction that has issued and is not yet performed (R377, R383): its word, operands as captured at issue,
the lanes it is performed for and the lanes its data is written to. -/
structure MemOp where
  id : Nat
  ins : Instr
  word : Nat
  pc : Nat
  lanes : Mask
  wmask : Mask
  hints : Hints
  caps : List (List Word)
  outs : List (List Word)   -- the operands as its performance uses them: a store's data after a clamp (R263)
  gen : Nat                 -- generation carried (R91)
  early : Bool              -- a store that has reached its own core's L1 (R124)
  spec : Option (List Byte) -- a result of the speculation buffer taken at issue (R346)
  xir : Option Xir          -- for a word of an xir: the xir's progress when it issued (R255)
  again : Bool              -- re-injected from the replay part (R388)
  quantum : Word            -- c.quantum when it issued (R304)
  events : Nat              -- bound events that its write-back counts (R57)
  snap : Option Ctx         -- of a load, atomic or stul: the context in which it issued, older loads written back since (R379)
  deriving DecidableEq, Repr

/-- A matrix request as a replay entry holds it (R383). -/
structure ReqTag where
  age : Nat
  window : Nat
  quarter : Nat
  seed : Word                           -- a drain's LFSR state and rounding mode, kept by the device
  rnd : Rnd
  deriving DecidableEq, Repr

/-- A replay entry (R383). -/
structure Replay where
  op : MemOp
  valid : Bool
  withdrawn : Bool
  req : Option ReqTag
  check : Bool                          -- re-injected by a return, through the checks of R388
  deriving DecidableEq, Repr

/-- A layer of a transaction (R148): the alternative's target, lanes and stack depths (none for the base layer) and the
writes made in it, by physical address. -/
structure Layer where
  lelse : Nat
  lanes : Mask
  depths : List Nat
  writes : Overlay
  deriving DecidableEq, Repr

/-- A live attempt (R137, R142, R148); layers with the innermost first, the base layer last. -/
structure Tx where
  lanes : Mask
  depths : List Nat
  lfail : Nat
  pc : Nat
  stamp : Nat
  restarts : Nat                        -- transient aborts since the stamp was drawn (R145)
  reads : List Nat                      -- lines in the order of their first read
  gen : Option (Nat × Nat)              -- generation and virtual address of its first write (R91)
  layers : List Layer
  deriving DecidableEq, Repr

/-- The wake set of a sleeping group (R150, R153): exact lines, the 512-bit signature, the lines with watch counts. -/
structure Wake where
  exact : List Nat
  sig : BitVec 512
  watch : List Nat
  marked : Bool
  deriving DecidableEq, Repr

/-- What a trap record tells (R382). -/
structure TrapInfo where
  cause : Nat
  sub : Nat
  pc : Nat
  lanes : Mask
  fault : Mask
  word : Nat
  addr : Nat
  replayed : Bool
  deriving DecidableEq, Repr

/-- What the device keeps while a group's frame stands in memory (R385, R387, R388): the trapped context and its replay
part, the bytes written to the frame, whether the bench part is in it, the live counters and batches of the trapped
context, and the operation number from which operations belong to the handler. -/
structure Trapped where
  ctx : Ctx
  replay : List Replay
  image : List Byte        -- trap record, fixed part and register part as written
  benches : Bool
  info : TrapInfo
  shown : Option Nat       -- the slice whose progress the frame shows (R278, R355)
  ld : Nat
  st : Nat
  cp : Nat
  tl : Nat
  openOps : List Nat
  batches : List (Word × List Nat)
  since : Nat
  deriving DecidableEq, Repr

/-- A bench (R53): elements that differ from `dflt`, by row × 256 + column. -/
structure Bench where
  dflt : Word
  elems : Tbl Word
  bound : Nat
  affine : Bool
  owner : Option Nat                   -- frame of the owning group
  releasing : Bool                     -- released, with operations not yet retired (R284)
  queue : List (Nat × Bool × Bool × Nat × Nat × Nat) -- frame, aff, clr, bound, priority, age (R283)
  bypass : List (Option (MxFmt × List Byte))         -- tiles of the four quarters (R294)
  frozen : Bool                        -- waits for its spill or restore (R391)
  poison : List Nat
  deriving DecidableEq, Repr

/-- The pair state of b0 with b1, or of b2 with b3 (R53): carries that differ from (1.0, +0), chunk count, flags. -/
structure PairState where
  carry : Tbl (Word × Word)
  count : Nat
  flags : List Nat
  poison : Bool
  deriving DecidableEq, Repr

/-- A group resident on a core, or in its frame (R8, R33, R381). -/
structure Group where
  crew : Nat
  f1 : Nat
  wid : Word64
  ctx : Ctx
  lastGang : Nat
  status : GState
  wait : Wait
  place : Place
  ld : Nat
  st : Nat
  cp : Nat
  tl : Nat
  openOps : List Nat                    -- copies since the last cbat (R113)
  batches : List (Word × List Nat)      -- closed batches with their copies still incomplete
  fuse : Option Nat
  yield : Nat
  tx : Option Tx
  lastStamp : Option (Nat × Nat × Nat)  -- stamp kept by a transient abort, its restarts, the txb's PC (R143)
  wake : Wake
  handler : Option Trapped              -- in handler mode, or parked from a trap: the trapped context (R385, R387)
  inHandler : Bool
  ops : List MemOp                      -- issued and not performed, oldest first
  replay : List Replay                  -- entries to re-inject before the group issues anything else (R388)
  pages : List Nat                      -- staging pages that stopped its probe (R94)
  due : Option TrapInfo                 -- a trap raised at write-back and not yet taken (R378)
  poisoned : Option (TrapInfo × Nat × Option Ctx)
    -- a consumed uncorrectable error not yet acted on, the consumer's number, the context it leaves (R379)
  park : Option Nat                     -- park-ring cause whose record is still to be written (R375)
  tokenWait : Nat
  sinceOffer : Nat
  waitStart : Nat
  cache : List (Nat × Bool)             -- register cache, most recent first, with keep marks (R58)
  specs : List (Nat × List Byte × Nat)  -- speculation buffer entries: address, result, size (R345)
  ahead : Option (Ctx × Nat × Nat × Mask × List Nat)
    -- run-ahead walk: private copy, PC, words walked, active lanes, poisoned registers (R344)
  held : List Nat                       -- the lock bits of an lkld that is held (R105)
  relock : Option Nat                   -- PC of an lkld that trapped at write-back and whose lock bits it holds (R106)
  benchCtx : List (Nat × Bench × PairState) -- benches written to its frame by a swap or eviction (R391)
  deriving DecidableEq, Repr

/-! ### Crews, cohorts and launches -/

/-- A region descriptor (R101). -/
structure Region where
  lslot : Nat
  nslot : Nat
  fill : Bool
  wb : Nat
  gbase : Nat
  deriving DecidableEq, Repr

/-- The instruction that a buffered read-modify-write comes from: its group's frame, its PC and word, its lanes (R434). -/
structure Origin where
  frame : Nat
  pc : Nat
  word : Nat
  lanes : Mask
  deriving DecidableEq, Repr

/-- An entry of a relaunchable crew's store buffer (R435): stored bytes, or a red kept as an operation. -/
inductive BufEntry
  | bytes (w : Overlay)
  | red (addr : Nat) (op : RedOp) (ty : IntTy) (v : Word64) (made : Origin)
  deriving DecidableEq, Repr

/-- A crew (R27, R435 to R437). -/
structure Crew where
  launch : Nat
  f3 : Nat
  rank : Nat
  core : Nat
  frames : List Nat
  base : Nat
  regions : List (Nat × Region)
  phaseCrew : Nat
  phaseCoh : Nat
  relaunchable : Bool
  relaunches : Nat
  buffer : List BufEntry
  bufPoison : List Nat        -- sectors that its buffer holds poisoned (R434)
  bufGen : Option (Nat × Nat) -- generation and virtual address of the oldest entry of its buffer (R91)
  age : Nat
  prio : Nat                  -- effective priority when its cohort was dispatched (R372)
  killed : Bool
  retired : Bool
  fault : Option Nat          -- the cause-20 subcause that killed it (R437)
  deriving DecidableEq, Repr

/-- A cohort resident or waiting for relaunch (R28, R32). -/
structure Cohort where
  launch : Nat
  f3 : Nat
  cluster : Nat
  crews : List (Nat × Nat)    -- (rank, crew); an absent rank has no entry (R97)
  slots : List Nat            -- physical chuck slots, by logical slot
  relaunch : Option (List Nat × Nat) -- ranks to run again and the cluster struck
  done : Bool
  deriving DecidableEq, Repr

/-- A working-set range (R366). -/
structure Range where
  start : Nat
  pages : Nat
  r : Bool
  w : Bool
  a : Bool
  deriving DecidableEq, Repr

/-- Modes of a bound descriptor (R80). -/
inductive BoundMode | flag | clamp | trap
  deriving DecidableEq, Repr

/-- A bound descriptor (R80): format, mode, low and high as bits of the format's register element. -/
structure Bound where
  fmt : Fmt
  mode : BoundMode
  low : Word64
  high : Word64
  deriving DecidableEq, Repr

/-- The collective fields of a launch record (R414). -/
structure CollRec where
  ident : Nat
  kind : Nat
  op : Nat
  fmt : Nat
  cshift : Nat
  nchunk : Nat
  csize : Nat
  src : Nat
  dst : Nat
  recAddr : Nat
  arg0 : Nat
  arg1 : Nat
  deriving DecidableEq, Repr

/-- A launch that passed its checks (R367, R368). -/
structure Launch where
  queue : Nat
  aspace : Nat
  seq : Nat
  priority : Nat              -- the record's priority (R372)
  code : Nat
  codeSize : Nat
  flags : Nat
  n0 : Nat
  n1 : Nat
  n2 : Nat
  n3 : Nat
  n4 : Nat
  n5 : Nat
  widths : List Nat
  regs : Nat
  benches : Nat
  chuck : Nat
  lbytes : Nat
  quantum : Nat
  energy : Nat
  wset : List Range
  bounds : List (Nat × Bound)
  counters : Nat
  nblocks : Nat
  trapOff : Option Nat
  spanX : Nat
  spanY : Nat
  coll : Option CollRec
  snapshot : List Word        -- the code object as it stood at launch (R338)
  next : Nat                  -- next undispatched F3
  retiredCohorts : Nat
  killed : Bool
  complete : Bool
  fired : List Nat            -- chunk indices fired (R416)
  table : Option Nat := none  -- of a span launch: the command number of the prologue whose table it uses (R371, R460)
  deriving DecidableEq, Repr

/-! ### Cores, clusters and compute dies -/

/-- An entry of the quantum buffer (R128); `ty` is the type of the add that it took last, `gen` the generation of the
first (R91). -/
structure QEntry where
  addr : Nat
  crew : Nat
  ty : IntTy
  gen : Nat
  va : Nat
  sum : Word64
  made : Origin                        -- the latest add
  flushing : Bool                      -- on its way to the atomic unit
  threshold : Bool
  deriving DecidableEq, Repr

/-- A bank swap (R390, R391, R393). -/
structure Swap where
  start : Nat                          -- time base of cycle 0
  until_ : Nat                         -- cycle 48
  spilling : List Nat                  -- frames of outgoing groups still to be spilled
  outgoing : List Nat
  reported : Bool
  deriving DecidableEq, Repr

/-- A packet that a core makes in a cycle (R453): port, type, slot and slice, payload, the gang it belongs to, that gang's SYNC as
it would read. -/
structure Pending where
  port : Nat
  ty : Nat
  slot : Nat
  slice : Nat
  payload : List Byte
  key : Nat
  sync : List Byte
  deriving DecidableEq, Repr

/-- A core (R21, R58, R96, R99, R104, R128, R162, R283, R451, R453). -/
structure Core where
  level : Nat
  rebate : Nat
  ports : List Nat                     -- ports that granted an issue this cycle
  tested : List Nat                    -- frames offered issue this cycle
  issued : List (Nat × Nat × Nat × Nat) -- (port, frame, PC, word) of this cycle's issues (R452)
  hold : Option Nat
  refilled : Bool                      -- step 4 of R162 is done for this cycle
  l1 : List (Nat × List Byte)          -- lines of 64 bytes by line address
  qbuf : List QEntry                   -- most recently used first
  locks : List (Nat × Nat)             -- (bank × 64 + bit, frame)
  lmem : Memory
  lpoison : List Nat                   -- poisoned words of the local store
  tpoison : List Nat                   -- slots whose tag is poisoned
  tags : Tbl Word64
  rdirty : List Nat                    -- slots of the local store whose region dirty bit is set
  benches : List Bench
  pairs : List PairState
  bbc : List (Nat × Nat × Nat)         -- block counters cached: launch, counter, count (R456)
  swap : Option Swap
  preempt : Bool                       -- a PREEMPT_CMD waits (R393)
  lfsr : Word
  nextSample : Nat
  traceOff : Nat
  traceLost : Nat
  traceLast : Nat
  traced : List (Nat × Nat × Nat)      -- group (crew × 16 + F1), gang and cycle of its last SYNC
  traceLossy : Bool                    -- packets have been lost: a gang without an entry needs a SYNC
  staging : List Byte                  -- trace packets staged
  missed : List (Nat × Nat)            -- translations that its cache lacks: address space, page (R95)
  walking : List Nat                   -- frames that a translation miss holds in this cycle (R95, R452)
  short : List Nat := []               -- frames that the issue condition refused in this cycle (R163, R452)
  traceBegun : Bool := false           -- a packet has been staged since tracing began (R453)
  tracePend : List Pending := []       -- packets of this cycle, not yet staged (R453)
  deriving DecidableEq, Repr

/-- A chuck slot (R55). -/
structure Chuck where
  valid : Bool
  fmt : Option MxFmt
  filling : Nat                        -- fills in flight
  bytes : Memory
  poison : List Nat
  deriving DecidableEq, Repr

/-- A request of the reservation table (R286), or a granted quarter. -/
structure Req where
  core : Nat
  frame : Nat
  cohort : Nat
  quarter : Nat
  scan : Bool
  gload : Bool                         -- an mgld quarter, never fused (R296)
  isNew : Bool
  clrf : Bool
  bench : Nat
  bypass : Option Nat
  slot : Nat
  k : Nat
  fmt : MxFmt
  base : Option (Nat × Nat)            -- A tile: core and byte position, none for an absent rank
  prio : Nat
  age : Nat
  entry : Nat
  window : Nat
  op : MemOp                           -- what a replay entry needs
  killed : Option Nat                  -- the row at which a killed quarter stopped (R300)
  tile : List Byte                     -- the local tile as it stood at the grant (R291)
  deriving DecidableEq, Repr

/-- A pass or scan chunk that runs (R288, R297). -/
structure Pass where
  reqs : List Req
  scan : Bool
  retire : Nat
  deriving DecidableEq, Repr

/-- A drain in progress (R292 to R295). -/
structure Drain where
  id : Nat
  core : Nat
  frame : Nat
  bench : Nat
  kind : Nat                           -- 0 mdrain, 1 mdrain.state, 2 mdrain.byp
  quarter : Nat
  fmt : DrFmt
  sat : Bool
  seg : Nat
  target : Option (Nat × Nat)          -- core and byte position written
  rnd : Rnd
  op : MemOp                           -- what a replay entry needs
  seed : Word                          -- LFSR state at its first element (R71)
  guards : List Nat                    -- requests whose guards were set before it issued (R291)
  deriving DecidableEq, Repr

/-- An end point of a copy operation: global virtual, local (core and position, none for an absent rank), chuck slot. -/
inductive EndPt
  | global (va : Nat)
  | loc (at_ : Option (Nat × Nat))
  | chuck (cl slot : Nat)
  deriving DecidableEq, Repr

/-- A copy operation (R110, R274): moves as (source offset, destination offset) pairs come from the strides. -/
structure CopyOp where
  id : Nat
  core : Nat
  frame : Nat
  crew : Nat
  src : EndPt
  dst : EndPt
  esize : Nat
  extents : List Nat
  sstride : List Int
  dstride : List Int
  after : List Nat                     -- older loads of the group it waits for (R110)
  started : Bool
  gen : Nat
  pc : Nat
  word : Nat
  lanes : Mask
  guards : List Nat                    -- requests whose guards were set before it issued (R291)
  wbSlots : List Nat                   -- slots of a fill or write-back, whose dirty bits it clears (R103)
  deriving DecidableEq, Repr

/-- A cluster (R55, R110, R286, R425). -/
structure Cluster where
  chuck : Tbl Chuck
  granted : List Nat                   -- physical slots held by cohorts
  table : List Req
  age : Nat
  pass : Option Pass
  drains : List Drain
  copies : List CopyOp
  temp : Nat
  m : Nat
  taken : Nat                          -- grains its cores took this interval
  deriving DecidableEq, Repr

/-- A compute die (R373, R425). -/
structure Die where
  bucket : Nat                         -- grains
  refilled : Nat                       -- grains taken from the package bucket this interval
  forecast : Nat
  latched : Nat                        -- tokens at the start of the interval
  refused : List (Nat × Nat)           -- cohorts that the forecast refused in this interval: launch, F3 (R373)
  deriving DecidableEq, Repr

/-! ### Memory, translation and queues -/

/-- A translation of one page (R89, R365). -/
structure PageMap where
  va : Nat
  size : Nat
  pa : Nat
  r : Bool
  w : Bool
  a : Bool
  scope : Nat
  deriving DecidableEq, Repr

/-- An address space (R87). -/
structure Aspace where
  gen : Nat
  pages : List PageMap
  deriving DecidableEq, Repr

/-- A hardware queue (R359, R361, R362). -/
structure Queue where
  base : Nat
  enable : Bool
  priority : Nat
  aspace : Nat
  watchdog : Nat
  size : Nat
  tail : Nat
  head : Nat
  error : Nat
  down : Bool
  errseq : Nat
  park : Nat
  parkSize : Nat
  phead : Nat
  expect : Option Nat                  -- next sequence number, none before the first command
  busy : List Nat                      -- numbers of the commands started and not complete
  waiting : Option (Nat × Nat × Nat)   -- a wait command: sequence number, object (physical), value
  unanswered : List (Nat × Nat × Nat × List Byte) -- park records: index, core, frame, bytes
  backlog : List (Nat × Nat × List Byte) -- records without a place whose groups are gone: core, frame, bytes (R375)
  pins : List (Nat × Nat × Nat)        -- pinned ranges: aspace, start, pages
  unpins : List (Nat × Nat × List (Nat × Nat)) -- unpins that wait for launches to retire: sequence number, aspace, ranges
  span : Option Nat                    -- number of its latest prologue
  stopped : Bool                       -- DBG_STOPPED (R455)
  stop : Bool                          -- DBG_STOP
  epoch : Nat := 0                     -- how often it has been enabled: tells apart equal sequence numbers (R361)
  deriving DecidableEq, Repr

/-- A DMA copy in progress (R404). -/
structure Dma where
  id : Nat
  queue : Nat
  seq : Nat
  out : Bool
  sys : Nat
  va : Nat
  aspace : Nat
  len : Nat
  link : Nat
  pieces : List (Nat × Nat)            -- physical address and length, as translated at its start (R404)
  moved : List Nat                     -- pieces of 4 KiB moved ahead of its end
  gen : Nat                            -- generation carried (R91)
  deriving DecidableEq, Repr

/-! ### Host registers and the package -/

/-- A survey, sample or park style ring: base, size code, head, tail, lost (R393, R439, R446). -/
structure Ring where
  base : Nat
  size : Nat
  head : Nat
  tail : Nat
  lost : Nat
  deriving DecidableEq, Repr

/-- A fabric port (R411). -/
structure Port where
  trained : Bool
  down : Bool
  alarm : Nat
  lanes : Nat
  retries : Nat
  height : Nat
  width : Nat
  worst : Nat
  cerr : Nat
  prevHeight : Nat
  prevCerr : Nat
  thHeight : Nat
  thWidth : Nat
  thCerr : Nat
  sent : Nat
  received : Nat
  errors : Nat
  window : Nat                         -- number of the window in progress when its statistics were last latched
  latched : Bool := false              -- a window has been latched since it trained
  deriving DecidableEq, Repr

/-- HEAP_INFO of a memory die (R395), with the retired frames (R441) and their error counts. -/
structure Heap where
  first : Nat
  count : Nat
  present : Bool
  ctx : Bool
  retired : List Nat
  corrected : List (Nat × Nat)         -- (frame, time) of corrected errors
  temp : Nat
  double : Bool
  deriving DecidableEq, Repr

/-- The power system (R423 to R431). -/
structure Power where
  cap : Nat
  rate : Nat
  flux : Nat
  area : Nat
  up : Nat
  down : Nat
  most : Nat                           -- WND_CFG.max, W
  grant : Nat
  next : Nat
  scrub : Bool
  test : Bool
  prefetch : Bool
  absorbed : Nat
  charge : Nat
  capacity : Nat
  floor : Nat
  k : Nat
  lead : Nat
  enable : Bool
  soft : Nat
  hard : Nat
  peers : Tbl Nat                      -- INTENT_PEER as written
  rails : List (Nat × Nat × Nat)
  pending : List (Nat × Nat × Nat)     -- register writes of the interval: offset, size, value (R423)
  on : Bool
  bucket : Nat                         -- package bucket, grains
  demand : Nat                         -- T of the last interval, tokens
  drawn : Nat                          -- drawn by the die buckets in the interval, grains
  absorbing : Nat                      -- backfill of the interval, grains
  kinds : List Nat                     -- scrub, test, prefetch, ballast, grains since the last tick
  ivStart : Nat                        -- cycle at which the interval began
  stored : Option Nat                  -- usable charge by the balance of R429, none before it was first measured
  ivPackage : Nat                      -- package bucket at the interval's start, tokens
  ivCore : Nat                         -- interval number
  ivIntent : Nat                       -- ebud selector 10
  decls : List (Nat × Nat × Nat × Option Nat) -- declared interval, tokens, made in interval, declaring group
  steps : List (Nat × Nat × Nat)       -- fixed steps, the latest last: start, size, declared in
  running : Option (Nat × Nat)         -- running step: base grant, size
  claims : List (Nat × Nat × Nat × Nat) -- peers' claims: y, x, start, made in
  refused : Nat := 0                   -- core refills refused in the interval, grains (R425, R426)
  scrubAt : List Nat := []             -- by memory die, the sector that scrub reads next (R427)
  quiet : List (Nat × Nat × Option Nat × Nat) := []
    -- declarations in fixed steps that nothing announced: start, made in interval, declaring group, tokens (R313)
  deriving DecidableEq, Repr

/-- A collective binding (R413). -/
structure Binding where
  ident : Nat
  queue : Nat
  px : Nat
  py : Nat
  pw : Nat
  ph : Nat
  staging : Nat
  ovf : Nat
  ovfrows : Nat
  aspace : Nat
  deriving DecidableEq, Repr

/-- What reaches a collective engine: data of a chunk, a row of an all-to-all, a chunk that a peer's launch has not fired (R416,
R419, R420). -/
inductive Arrival
  | data (c : Contribution)
  | row (r : Row)
  | missing (ident rank chunk : Nat)       -- an announcement of R416
  deriving DecidableEq, Repr

/-- What waits in collective staging (R419): the cycle of its arrival, the launch of the device whose own it is, the thing, its
poisoned 8-byte units (R433). -/
structure Staged where
  cycle : Nat
  own : Option Nat
  item : Arrival
  poison : List Nat
  deriving DecidableEq, Repr

/-- An element that the owner of a chunk reduces (R418): its byte offset among all chunks, the contributions counted, and
the intermediate value, an f32 for the float formats and an exact integer otherwise. -/
structure RedElem where
  pos : Nat
  count : Nat
  fval : Nat
  ival : Int
  deriving DecidableEq, Repr

/-- A collective in progress on the device (R416 to R421). `settled` are the result slots (chunks of `dst`) written whole
or given up, `filled` the bytes written of the others. -/
structure Coll where
  launch : Nat
  ident : Nat
  queue : Nat
  aspace : Nat
  rec_ : CollRec
  fired : List Nat
  missing : List Nat                       -- own chunks announced missing
  got : List (Nat × Nat × Nat)             -- (rank, chunk, offset) of data taken up
  peerFired : List (Nat × Nat)             -- (rank, chunk) that peers have fired or announced missing
  acc : List RedElem
  sending : List (Nat × Arrival × Bool)    -- to a peer and not accepted, or an accepted row: then true (R419, R420)
  filled : Tbl Nat
  settled : List Nat
  bytes : Nat
  saturated : Nat
  landed : Nat
  overflow : Nat
  dropped : Nat
  error : Nat
  failed : Bool                            -- given up as a whole, by a route failure (R410)
  deriving DecidableEq, Repr

/-- The mailbox (R444): MBOX_ARG, state and code, received bytes, the open image and its length, the data window. -/
structure Mbox where
  arg : Nat
  state : Nat
  code : Nat
  image : Option (Nat × List Byte)
  window : Overlay
  deriving DecidableEq, Repr

/-- A span table (R371). -/
structure SpanTable where
  ident : Nat
  x : Nat
  y : Nat
  n4 : Nat
  n5 : Nat
  hops : List Nat
  queue : Nat
  seq : Nat                            -- the prologue's sequence number
  heard : List (Nat × Nat)
  complete : Bool
  deriving DecidableEq, Repr

/-- What the device sends out of the package: responses of register and memory reads, interrupts, flits (R397 to R411). -/
inductive Out
  | value (v : Nat)
  | bytes (b : List Byte) (poisoned : Bool)
  | unsupported
  | msix (link v : Nat)                  -- a vector over a host link (R399)
  | flit (port : Nat) (header payload : List Byte)
  | coll (peer : Nat) (a : Arrival)        -- to a peer of a collective
  | collRefused (ident rank chunk : Nat)  -- a refusal, to the sender (R419)
  | rowBack (r : Row)                     -- a row sent back to its sender (R420)
  | collMissing (peer ident chunk : Nat)  -- to a peer (R416)
  | report (nonce : List Byte) (stepping features regrows : Nat) (images : List (Nat × Nat × List Byte)) (time : Nat)
      (sig cert : List Byte)
  | poisonedData
  | copyOut (link sys : Nat) (b : List Byte) -- to a bus address on a link (R404)
  | config (off v : Nat)                 -- a word of configuration space (R400)
  | configRetry (off : Nat)              -- Configuration Request Retry Status (R445)
  deriving DecidableEq, Repr

/-- Counters of the survey stream between ticks (R450): (unit, word) and count. -/
abbrev Counters := Tbl Nat

/-! ### Moves: what may happen next (the model's own) -/

/-- What the next step does, where the spec leaves the order open (log entry 7). -/
inductive Move
  | issue (core : Nat)
  | event (i : Instr)
  | command (q : Nat)
  | mmioWrite (off size val : Nat)
  | mmioRead (off size : Nat)
  | dropLine (core line : Nat)          -- an L1 line is replaced (R107)
  | dropTranslation (core aspace page : Nat) -- a core's translation cache loses a page (R95)
  | earlyVisible (core frame op : Nat)  -- a store reaches its own core's L1 first (R124)
  | poisonSector (addr : Nat)           -- an uncorrectable error strikes a memory sector (R433)
  | poisonLocal (core pos : Nat)
  | poisonLane (core frame reg lane : Nat)
  | poisonBench (core bench elem : Nat)
  | poisonChuck (cl slot pos : Nat)
  | poisonTag (core slot : Nat)
  | poisonPair (core pair : Nat)
  | poisonBuffer (crew sector : Nat)    -- of a crew's store buffer
  | poisonStaged (ix unit : Nat)        -- of collective staging: an 8-byte unit
  | corrected (sector : Nat)            -- a corrected error is logged (R433)
  | correctedIn (unit sub addr : Nat)   -- the same in a structure of a compute or I/O die: its subcause, its address (R440)
  | spaceError (aspace : Option Nat)    -- an error pinned to no crew (R438)
  | collAccepted (ident peer chunk : Nat) -- a peer accepted what was sent (R419)
  | rowLanded (ident peer chunk : Nat)  -- a row of this device has landed at a peer (R420)
  | configRead (off : Nat)              -- a configuration request for a word (R400, R445)
  | tick
  deriving DecidableEq, Repr

/-- Which group issues, with which slices and lanes; a word of an xir issues with `xir` set (R254). -/
structure Cur where
  core : Nat
  frame : Nat
  slices : List Nat
  active : Mask
  pc : Nat
  word : Nat
  xir : Bool
  deriving DecidableEq, Repr

/-- Why a step stops with a fault. -/
inductive Fault
  /-- Raised by the meaning of an instruction word when no group issues (`State.cur` is none): no step does this. Safe:
  the machine stops where the spec has no execution. -/
  | noIssuer
  deriving DecidableEq, Repr

/-- Why a step is refused. -/
inductive Refusal
  /-- Raised by an arm of exec for an instruction without a meaning. Safe: no next state is claimed. -/
  | notModelled (mnemonic : String)
  deriving DecidableEq, Repr

/-- The state of the package. -/
structure State where
  -- time
  cycle : Nat
  time : Nat
  timeFrac : Nat                        -- 21sts of a tick (R305, R422)
  steer : Nat                           -- time at which the time base was last steered (R407)
  timeDebt : Int                        -- ticks still to be added, or dropped where negative (R407)
  -- memory and translation
  mem : Memory
  poison : List Nat                     -- poisoned 32-byte sectors
  aspaces : Tbl Aspace
  dmas : List Dma
  failedStaging : List (Nat × Nat × Nat) -- (aspace, va, length) of failed copy-ins (R405)
  stamp : Nat                           -- next begin stamp (R137)
  -- groups and what they share
  groups : Tbl Group                    -- by core × 32 + frame
  crews : Tbl Crew
  cohorts : Tbl Cohort
  launches : Tbl Launch
  cores : Tbl Core
  clusters : Tbl Cluster
  dies : Tbl Die
  nextId : Nat
  nextCrew : Nat
  nextCohort : Nat
  nextLaunch : Nat
  rotate : Nat                          -- queue whose turn it is (R372)
  -- host registers
  features : Nat                        -- CAP_FEATURES
  rows : Nat
  coresReduced : Nat
  bankOut : List (Nat × Nat)
  contextBase : Nat
  preempt : Ring
  coordX : Nat
  coordY : Nat
  linkRoute : Nat
  memwinBase : Nat
  heaps : List Heap
  queues : Tbl Queue
  ports : Tbl Port
  msixTable : Tbl (List Nat)            -- MSI-X entries as four words (R399)
  msixPending : List Nat
  power : Power
  errlog : Ring
  mbox : Mbox
  surveyK : Nat
  surveyOn : Bool
  survey : Ring
  surveyLostMark : Bool
  surveyLast : Nat                      -- cycle of the last tick
  counters : Counters
  sampleJ : Nat
  sampleOn : Bool
  sampleSeed : Nat
  sample : Ring
  traceSize : Nat
  traceOn : Bool
  traceBase : Nat
  -- package
  hostLinks : List Nat                  -- trained host links
  cxl : Bool
  spans : List SpanTable
  exchanges : List (Nat × Nat × Nat)    -- prologue exchanges received and not yet used: span identity, x, y (R371)
  mgmt : List (Nat × Nat × Nat)
  flitSeq : List ((Nat × Nat × Nat) × Nat) -- next sequence number by destination and channel (R409)
  bindings : List Binding
  binds : List (Nat × Nat × Binding)    -- binds that wait for the launches of their ident: queue, sequence number (R413)
  colls : List Coll
  staged : List Staged                  -- waiting in staging, in order of arrival (R419)
  refusedColl : List Row                -- rows refused that their senders hold (R419)
  images : List Image                   -- running
  stored : List Image
  minVersion : List Nat                 -- fused minimum by kind
  boot : Option Boot                    -- what the start of the package found (R445)
  bringUp : Nat                         -- last completed step of R445
  recovery : Bool
  fatal : Bool
  -- the model's own
  out : List Out                        -- what left the package, newest first
  host : Overlay                        -- system memory as the moves supplied it
  agenda : List Move
  cur : Option Cur
  fresh : Nat
  deriving DecidableEq, Repr

/-! ### Defaults -/

/-- A register at launch (R42). -/
def VReg.init : VReg := ⟨.uniform 0, .b32, 0, 0⟩

/-- No pending hint (R181). -/
def Hints.none : Hints := ⟨Option.none, false, Option.none, Option.none⟩

/-- An empty wake set (R150). -/
def Wake.none : Wake := ⟨[], 0, [], false⟩

/-- A bench after bring-up (R445): zero, free. -/
def Bench.init : Bench := ⟨0, [], 0, false, none, false, [], [none, none, none, none], false, []⟩

/-- Pair state as .clr leaves it (R283; DESIGN CHOICE for reset, log entry 4). -/
def PairState.init : PairState := ⟨[], 0, [], false⟩

/-- A core after bring-up: an empty bucket (R425), nothing resident (R445). -/
def Core.init : Core :=
  { level := 0, rebate := 0, ports := [], tested := [], issued := [], hold := none, refilled := false, l1 := [], qbuf := [], locks := [],
    lmem := [], lpoison := [], tpoison := [], tags := [], rdirty := [],
    benches := [Bench.init, Bench.init, Bench.init, Bench.init], pairs := [PairState.init, PairState.init], bbc := [],
    swap := none, preempt := false, lfsr := 1, nextSample := 0, traceOff := 64, traceLost := 0, traceLast := 0,
    traced := [], traceLossy := false, staging := [], missed := [], walking := [] }

/-- A chuck slot after bring-up (R445): zero and not valid. -/
def Chuck.init : Chuck := ⟨false, none, 0, [], []⟩

/-- A cluster after bring-up. Temperature 0 and the full allowance m = 16 are DESIGN CHOICE (log entry 5). -/
def Cluster.init : Cluster :=
  { chuck := [], granted := [], table := [], age := 0, pass := none, drains := [], copies := [], temp := 0, m := 16,
    taken := 0 }

/-- A compute die after bring-up: an empty bucket (R425). -/
def Die.init : Die := ⟨0, 0, 0, 0, []⟩

/-- A queue at reset (R359). -/
def Queue.init : Queue :=
  { base := 0, enable := false, priority := 0, aspace := 0, watchdog := 0, size := 0, tail := 0, head := 0, error := 0,
    down := false, errseq := 0, park := 0, parkSize := 0, phead := 0, expect := none, busy := [], waiting := none,
    unanswered := [], backlog := [], pins := [], unpins := [], span := none, stopped := false, stop := false }

/-- A port at reset (R411). -/
def Port.init : Port :=
  { trained := false, down := false, alarm := 0, lanes := 0, retries := 0, height := 0, width := 0, worst := 0,
    cerr := 0, prevHeight := 0, prevCerr := 0, thHeight := 40, thWidth := 200, thCerr := 0x100000, sent := 0,
    received := 0, errors := 0, window := 0 }

/-- The heap of memory die n with the default configuration (R395). -/
def Heap.init (n : Nat) : Heap :=
  { first := if n = 0 then 2686976 else 65536, count := if n = 0 then 20750524 else 23371964, present := true,
    ctx := n == 0, retired := [], corrected := [], temp := 0, double := false }

/-- The power system at reset (R423, R425). Flux and area are latched from the board and the fuses (log entry 2). -/
def Power.init : Power :=
  { cap := 32768, rate := 32, flux := 0, area := 0, up := 400, down := 400, most := 3200, grant := 0, next := 0,
    scrub := true, test := true, prefetch := true, absorbed := 0, charge := 0, capacity := 30000000, floor := 3000000,
    k := 1, lead := 4, enable := false, soft := 95, hard := 105, peers := [], rails := [], pending := [], on := false,
    bucket := 0, demand := 0, drawn := 0, absorbing := 0, kinds := [0, 0, 0, 0], ivStart := 0, stored := none, ivPackage := 0,
    ivCore := 0, ivIntent := 0, decls := [], steps := [], running := none, claims := [] }

/-- A ring register group at reset. -/
def Ring.init : Ring := ⟨0, 0, 0, 0, 0⟩

/-- The mailbox at reset (R444). -/
def Mbox.init : Mbox := ⟨0, 0, 0, none, []⟩

/-- The machine right after cold reset, before the bring-up steps of R445 run: registers at the values the spec states
for reset (the latched ones as log entry 2 says), memory with nothing listed, no group resident. -/
def State.reset : State :=
  { cycle := 0, time := 0, timeFrac := 0, steer := 0, timeDebt := 0,
    mem := [], poison := [], aspaces := [], dmas := [], failedStaging := [], stamp := 0,
    groups := [], crews := [], cohorts := [], launches := [], cores := [], clusters := [], dies := [],
    nextId := 0, nextCrew := 0, nextCohort := 0, nextLaunch := 0, rotate := 0,
    features := 0xFFFF, rows := 1024, coresReduced := 0, bankOut := [], contextBase := 0x10000000,
    preempt := .init, coordX := 0, coordY := 0, linkRoute := 0, memwinBase := 0,
    heaps := (List.range 12).map Heap.init, queues := [], ports := [], msixTable := [], msixPending := [],
    power := .init, errlog := .init, mbox := .init,
    surveyK := 16, surveyOn := false, survey := .init, surveyLostMark := false, surveyLast := 0, counters := [],
    sampleJ := 14, sampleOn := false, sampleSeed := 1, sample := .init,
    traceSize := 16, traceOn := false, traceBase := 0,
    hostLinks := [], cxl := false, spans := [], exchanges := [], mgmt := [], flitSeq := [], bindings := [], binds := [], colls := [], staged := [], refusedColl := [], images := [], stored := [],
    minVersion := [0, 0, 0, 0], boot := none, bringUp := 0, recovery := false, fatal := false,
    out := [], host := [], agenda := [], cur := none, fresh := 0 }

end Sys2Proof.Machine
end

