-- ==== Sys2Proof/Machine/Bytes.lean ====
section
/-! DEFINITION. Tables, byte order, memories and overlays: the plain operations the machine is built from. Byte order is
decided here once (R3). -/

namespace Sys2Proof.Machine

/-! ### Tables by number -/

/-- The entry of a number. -/
def tfind {α : Type} : Tbl α → Nat → Option α
  | [], _ => none
  | (k, v) :: r, n => if k = n then some v else tfind r n

/-- The entry of a number, or the default. -/
def tget {α : Type} (t : Tbl α) (n : Nat) (d : α) : α := (tfind t n).getD d

/-- A table with one entry set. -/
def tset {α : Type} : Tbl α → Nat → α → Tbl α
  | [], n, v => [(n, v)]
  | (k, w) :: r, n, v => if k = n then (n, v) :: r else (k, w) :: tset r n v

/-- A table without an entry. -/
def tdel {α : Type} (t : Tbl α) (n : Nat) : Tbl α := t.filter (fun p => p.1 != n)

/-- A list with entry `n` replaced. -/
def lset {α : Type} : List α → Nat → α → List α
  | [], _, _ => []
  | _ :: r, 0, v => v :: r
  | x :: r, n + 1, v => x :: lset r n v

/-- A list with entry `n` set; an entry that it lacks below `n` is the default. -/
def pset {α : Type} (d : α) : List α → Nat → α → List α
  | [], 0, v => [v]
  | [], n + 1, v => d :: pset d [] n v
  | _ :: r, 0, v => v :: r
  | x :: r, n + 1, v => x :: pset d r n v

/-! ### Byte order (R3) -/

/-- The `n` bytes of a number, least significant first. -/
def leBytes (x : Nat) : Nat → List Byte
  | 0 => []
  | n + 1 => BitVec.ofNat 8 x :: leBytes (x / 256) n

/-- The number of a byte list, least significant first. -/
def ofLe : List Byte → Nat
  | [] => 0
  | b :: r => b.toNat + 256 * ofLe r

/-- `n` zero bytes. -/
def zeros (n : Nat) : List Byte := List.replicate n 0

/-- A byte list cut or padded with zeros to length `n`. -/
def padTo (bs : List Byte) (n : Nat) : List Byte := (bs ++ zeros (n - bs.length)).take n

/-- The number in bytes [off + n − 1 : off] of a byte list. -/
def fieldAt (bs : List Byte) (off n : Nat) : Nat := ofLe ((bs.drop off).take n)

/-! ### Memory in canonical form -/

/-- The cells of bytes written from address `a` up: a zero byte is not listed. -/
def cells (a : Nat) : List Byte → Memory
  | [] => []
  | b :: r => if b = 0 then cells (a + 1) r else (a, b) :: cells (a + 1) r

/-- The byte at an address; an unlisted address reads 0 (log entry 1). -/
def Memory.read : Memory → Nat → Byte
  | [], _ => 0
  | (k, b) :: r, a => if k = a then b else Memory.read r a

/-- A memory with bytes written from address `a` up. -/
def Memory.write (m : Memory) (a : Nat) (bs : List Byte) : Memory :=
  m.filter (fun c => c.1 < a) ++ cells a bs ++ m.filter (fun c => a + bs.length ≤ c.1)

/-- The `n` bytes from address `a` up. -/
def Memory.bytes (m : Memory) (a n : Nat) : List Byte :=
  let part : Memory := m.filter (fun c => a ≤ c.1 && c.1 < a + n)
  (List.range n).map (fun i => part.read (a + i))

/-- The canonical form: addresses strictly rising, no zero byte listed. -/
abbrev Memory.wf (m : Memory) : Prop :=
  List.Pairwise (fun x y => x.1 < y.1) m ∧ ∀ c ∈ m, c.2 ≠ (0 : Byte)

/-! ### Overlays: bytes written and not yet performed -/

/-- The cells of bytes from address `a` up, zeros included. -/
def ocells (a : Nat) : List Byte → Overlay
  | [] => []
  | b :: r => (a, b) :: ocells (a + 1) r

/-- The byte an overlay holds for an address. -/
def Overlay.find : Overlay → Nat → Option Byte
  | [], _ => none
  | (k, b) :: r, a => if k = a then some b else Overlay.find r a

/-- An overlay with bytes written over it. -/
def Overlay.write (o : Overlay) (a : Nat) (bs : List Byte) : Overlay :=
  o.filter (fun c => c.1 < a) ++ ocells a bs ++ o.filter (fun c => a + bs.length ≤ c.1)

/-- The later overlay's bytes over the earlier one's. -/
def Overlay.merge (lower upper : Overlay) : Overlay :=
  upper.foldl (fun o c => Overlay.write o c.1 [c.2]) lower

/-- The byte at an address, from the overlay or from below it. -/
def Overlay.over (o : Overlay) (a : Nat) (below : Byte) : Byte := (Overlay.find o a).getD below

/-- The 64-byte line of an address (R107). -/
abbrev lineOf (a : Nat) : Nat := a / 64

/-- The lines that a byte range touches. -/
def linesOf (a n : Nat) : List Nat :=
  if n = 0 then [] else (List.range ((a + n - 1) / 64 - a / 64 + 1)).map (fun i => a / 64 + i)

/-- Whether the ranges [a, a + n) and [b, b + k) meet. -/
def meets (a n b k : Nat) : Bool := a < b + k && b < a + n

/-- A list without repeats, first occurrences kept. -/
def dedup (l : List Nat) : List Nat := l.foldl (fun acc x => if acc.contains x then acc else acc ++ [x]) []

/-! ### Masks as lane lists -/

/-- Whether lane l is in a mask. -/
def hasLane (m : Mask) (l : Nat) : Bool := m.getLsbD l

/-- The lanes of a mask, ascending. -/
def lanesOf (m : Mask) : List Nat := lanes32.filter (fun l => m.getLsbD l)

/-- The mask of lanes that satisfy a condition. -/
def maskOf (p : Nat → Bool) : Mask :=
  lanes32.foldl (fun acc l => if p l then acc ||| (1#32 <<< l) else acc) 0

/-- The lowest lane of a mask. -/
def lowest (m : Mask) : Option Nat := (lanesOf m).head?

/-- The four lanes of slice i of a mask (R8). -/
def sliceBits (m : Mask) (i : Nat) : BitVec 4 := (m >>> (4 * i)).truncate 4

/-- A slice's lanes as lanes of the group. -/
def sliceMask (b : BitVec 4) (i : Nat) : Mask := (b.zeroExtend 32) <<< (4 * i)

end Sys2Proof.Machine
end

