-- ==== Sys2Proof/Machine/Num.lean ====
section
/-! DEFINITION. Exact numbers and number formats: decoding, rounding and narrowing (R62 to R76), min and max (R235),
exact integer helpers. Every float operation computes exactly and rounds once. -/

namespace Sys2Proof.Machine

/-- A decoded or exact value: NaN (and NaR), an infinity, or a real number of sign `neg` and magnitude `m` × 2^`e`; with
`st` set the magnitude lies strictly between `m` × 2^`e` and (`m` + 1) × 2^`e`. -/
inductive Val
  | nan
  | inf (neg : Bool)
  | real (neg : Bool) (m : Nat) (e : Int) (st : Bool)
  deriving DecidableEq, Repr

/-- An exact value from an integer. -/
def Val.ofInt (x : Int) : Val := .real (x < 0) x.natAbs 0 false

/-- Zero of a sign. -/
def Val.zero (neg : Bool) : Val := .real neg 0 0 false

/-- Whether a value is NaN. -/
def Val.isNan : Val → Bool
  | .nan => true
  | _ => false

/-- Whether a value is a zero. -/
def Val.isZero : Val → Bool
  | .real _ m _ st => m == 0 && !st
  | _ => false

/-- The sign of a value. -/
def Val.neg : Val → Bool
  | .nan => false
  | .inf n => n
  | .real n _ _ _ => n

/-- Signed shift of a magnitude to a lower or equal exponent: `m` × 2^`e` in units of 2^`u`, for `u` ≤ `e`. -/
def scaleTo (m : Nat) (e u : Int) : Nat := m * 2 ^ (e - u).toNat

/-- x[n−1:0] as a signed number (SignExt, R189). -/
def signExt (x n : Nat) : Int := if x % 2 ^ n < 2 ^ (n - 1) then (x % 2 ^ n : Nat) else (x % 2 ^ n : Nat) - (2 ^ n : Nat)

/-- The n-bit two's complement pattern of an integer (R212). -/
def wrapInt (x : Int) (n : Nat) : Nat := (x % (2 ^ n : Nat)).toNat

/-- An integer clamped to a range (R74). -/
def clampInt (x lo hi : Int) : Int := if x < lo then lo else if x > hi then hi else x

/-! ### Decoding (R62 to R66) -/

/-- Decoding of a format with exponent field and fraction field by the rules of R63. -/
def decodeIeee (eb fb x : Nat) : Val :=
  let neg := x / 2 ^ (eb + fb) % 2 == 1
  let ex := x / 2 ^ fb % 2 ^ eb
  let fr := x % 2 ^ fb
  let emin : Int := 2 - (2 : Int) ^ (eb - 1) - fb
  if ex = 2 ^ eb - 1 then (if fr = 0 then .inf neg else .nan)
  else if ex = 0 then .real neg fr emin false
  else .real neg (2 ^ fb + fr) (emin + ex - 1) false

/-- Decoding of e4m3 (R64). -/
def decodeE4m3 (x : Nat) : Val :=
  let neg := x / 128 % 2 == 1
  let ex := x / 8 % 16
  let fr := x % 8
  if x % 128 = 127 then .nan
  else if ex = 0 then .real neg fr (-9) false
  else .real neg (8 + fr) (Int.ofNat ex - 10) false

/-- The run of bits equal to `r` that a field of `n` bits starts with. -/
def runLength (x r : Nat) : Nat → Nat
  | 0 => 0
  | n + 1 => if x / 2 ^ n % 2 = r then runLength x r n + 1 else 0

/-- The magnitude of a nonzero tapered code with `n` magnitude bits (R66), as mantissa and exponent. -/
def taperedMag (n x : Nat) : Nat × Int :=
  let r := x / 2 ^ (n - 1) % 2
  let m := runLength x r n
  let k : Int := if r = 1 then (m : Int) - 1 else -(m : Int)
  let left := n - m - 1                 -- bits after the run and its terminator
  if left = 0 then (1, 2 * k)
  else
    let e := x / 2 ^ (left - 1) % 2
    let fb := left - 1
    (2 ^ fb + x % 2 ^ fb, 2 * k + e - fb)

/-- Decoding of a tapered code with `n` magnitude bits (R66). -/
def decodeTapered (n x : Nat) : Val :=
  let neg := x / 2 ^ n % 2 == 1
  let mag := x % 2 ^ n
  if mag = 0 then (if neg then .nan else .zero false)
  else .real neg (taperedMag n mag).1 (taperedMag n mag).2 false

/-- The value of one element of a float or integer format (R62 to R66); b32 and the packed codes have none. -/
def decodeElem : Fmt → Nat → Val
  | .f32, x => decodeIeee 8 23 (x % 2 ^ 32)
  | .f16, x => decodeIeee 5 10 (x % 2 ^ 16)
  | .bf16, x => decodeIeee 8 7 (x % 2 ^ 16)
  | .e4m3, x => decodeE4m3 (x % 256)
  | .ta8, x => decodeTapered 7 (x % 256)
  | .ta6, x => decodeTapered 5 (x % 64)
  | .s8, x | .s16, x | .s32, x => .ofInt (signExt x 32)
  | .s64, x => .ofInt (signExt x 64)
  | .n8, x | .n16, x | .n32, x => .ofInt (x % 2 ^ 32 : Nat)
  | .n64, x => .ofInt (x % 2 ^ 64 : Nat)
  | _, _ => .nan

/-! ### Rounding (R69 to R72) -/

/-- The canonical NaN of a format (R75), NaR for the tapered ones. -/
def nanCode : Fmt → Nat
  | .f32 => 0x7FC00000 | .f16 => 0x7E00 | .bf16 => 0x7FC0 | .e4m3 => 0x7F | .ta8 => 0x80 | .ta6 => 0x20
  | _ => 0

/-- The code of G (R62). -/
def greatestCode : Fmt → Nat
  | .f32 => 0x7F7FFFFF | .f16 => 0x7BFF | .bf16 => 0x7F7F | .e4m3 => 0x7E | .ta8 => 0x7F | .ta6 => 0x1F
  | _ => 0

/-- Width in bits of an element of a float format, or of s8. -/
def elemBits : Fmt → Nat
  | .f32 => 32 | .f16 => 16 | .bf16 => 16 | .e4m3 => 8 | .ta8 => 8 | .s8 => 8 | .ta6 => 6
  | _ => 32

/-- The sign bit's weight. -/
def signBit (f : Fmt) : Nat := 2 ^ (elemBits f - 1)

/-- A magnitude code with a sign. -/
def withSign (f : Fmt) (neg : Bool) (c : Nat) : Nat := if neg then signBit f + c else c

/-- ±∞ where the format has one (R63). -/
def infCode : Fmt → Nat
  | .f32 => 0x7F800000 | .f16 => 0x7C00 | .bf16 => 0x7F80
  | _ => 0

/-- Whether a format has infinities. -/
def hasInf : Fmt → Bool
  | .f32 | .f16 | .bf16 => true
  | _ => false

/-- Whether a format is tapered. -/
def isTapered : Fmt → Bool
  | .ta8 | .ta6 => true
  | _ => false

/-- What an overflow gives (R72). -/
def overflowCode (f : Fmt) (r : Rnd) (sat neg : Bool) : Nat :=
  let g := withSign f neg (greatestCode f)
  let big := if hasInf f then withSign f neg (infCode f) else nanCode f
  if sat then g
  else
    match r with
    | .rn | .rs => big
    | .rz => g
    | .ru => if neg then g else big
    | .rd => if neg then big else g

/-- Whether rounding goes up from lo, given the position between lo and hi: `lt`, `eq` or `gt` half, and the parity of
lo's code (R70). -/
def roundsUp (r : Rnd) (neg : Bool) (half : Ordering) (odd : Bool) : Bool :=
  match r with
  | .rn | .rs => match half with
    | .lt => false
    | .eq => odd
    | .gt => true
  | .rz => false
  | .ru => !neg
  | .rd => neg

/-- Fraction bits and least exponent of the formats with a uniform grid per exponent: f32, f16, bf16, e4m3. -/
def gridOf : Fmt → Nat × Int
  | .f32 => (23, -149)
  | .f16 => (10, -24)
  | .bf16 => (7, -133)
  | _ => (3, -9)

/-- The magnitude code that rounding chooses on an exponent grid without an upper limit (R70, R71): `d` are the LFSR
bits, used under stochastic mode only, where magnitudes above G round as RNE. -/
def gridCode (f : Fmt) (r : Rnd) (d : Nat) (neg : Bool) (m : Nat) (e : Int) (st : Bool) : Nat :=
  let (fb, emin) := gridOf f
  let top : Int := (m.log2 : Int) + e
  let qe : Int := max (top - fb) emin
  if qe ≤ e then (qe - emin).toNat * 2 ^ fb + scaleTo m e qe + (if st && roundsUp r neg .lt false then 1 else 0)
  else
    let sh := (qe - e).toNat
    let k := m / 2 ^ sh
    let rem := m % 2 ^ sh
    let exact := rem == 0 && !st
    let half : Ordering := if 2 * rem < 2 ^ sh then .lt else if 2 * rem = 2 ^ sh && !st then .eq else .gt
    let base := (qe - emin).toNat * 2 ^ fb + k
    let up :=
      if exact then false
      else if r = .rs && base < greatestCode f then d < 2 ^ 16 * rem / 2 ^ sh
      else roundsUp r neg half (k % 2 == 1)
    base + (if up then 1 else 0)

/-- Magnitude of a tapered code in units of 2^−13. -/
def taperedUnits (n c : Nat) : Nat :=
  if c = 0 then 0
  else
    let (m, e) := taperedMag n c
    scaleTo m e (-13)

/-- The greatest tapered code whose magnitude does not exceed `x` units of 2^−13, searched from code `c` downward. -/
def taperedBelow (n x : Nat) : Nat → Nat
  | 0 => 0
  | c + 1 => if taperedUnits n (c + 1) ≤ x then c + 1 else taperedBelow n x c

/-- Rounding of a magnitude into a tapered format (R70, R71); none when the magnitude exceeds G (R72). -/
def taperedCode (f : Fmt) (r : Rnd) (d : Nat) (neg : Bool) (m : Nat) (e : Int) (st : Bool) : Option Nat :=
  let n := elemBits f - 1
  let g := greatestCode f
  -- the magnitude as num / den, in units of 2^−13
  let num := m * 2 ^ (e + 13).toNat
  let den := 2 ^ (-(e + 13)).toNat
  let x := num / den
  let part := num % den != 0 || st
  let gu := taperedUnits n g
  if x > gu || (x = gu && part) then none
  else
    let c := taperedBelow n x g
    let lo := taperedUnits n c
    if x = lo && !part then some c
    else
      let hi := taperedUnits n (c + 1)
      let up :=
        if r = .rs then d < 2 ^ 16 * (num - lo * den) / ((hi - lo) * den)
        else
          let gap := (hi - lo) / 2
          let half : Ordering := if x - lo < gap then .lt else if x - lo = gap && !part then .eq else .gt
          roundsUp r neg half (c % 2 == 1)
      some (if up then c + 1 else c)

/-- Round(x, f, mode) followed by R72: the element code of an exact value in a float format. -/
def roundTo (f : Fmt) (r : Rnd) (d : Nat) (sat : Bool) : Val → Nat
  | .nan => nanCode f
  | .inf neg =>
    if hasInf f && !sat then withSign f neg (infCode f) else overflowCode f r sat neg
  | .real neg m e st =>
    if isTapered f then
      if m = 0 && !st then 0
      else
        match taperedCode f r d neg m e st with
        | none => overflowCode f r sat neg
        | some 0 => 0
        | some c => withSign f neg c
    else if m = 0 && !st then withSign f neg 0
    else
      let c := gridCode f r d neg m e st
      if c > greatestCode f then overflowCode f r sat neg else withSign f neg c

/-- The mode in force when the instruction is no narrowing conversion (R69). -/
def noStoch : Rnd → Rnd
  | .rs => .rn
  | r => r

/-- One step of the LFSR (R71). -/
def lfsrStep (x : Word) : Word := if x.getLsbD 0 then (x >>> 1) ^^^ 0x80200003#32 else x >>> 1

/-! ### Exact arithmetic -/

/-- Negation. -/
def Val.negate : Val → Val
  | .nan => .nan
  | .inf n => .inf (!n)
  | .real n m e st => .real (!n) m e st

/-- The signed integer of an exact real in units of 2^`u`. -/
def Val.units (neg : Bool) (m : Nat) (e u : Int) : Int :=
  if neg then -((scaleTo m e u : Nat) : Int) else (scaleTo m e u : Nat)

/-- Exact sum; a zero sum of opposite signs takes its sign from the mode (R70). -/
def Val.add (r : Rnd) : Val → Val → Val
  | .nan, _ | _, .nan => .nan
  | .inf a, .inf b => if a = b then .inf a else .nan
  | .inf a, _ => .inf a
  | _, .inf b => .inf b
  | .real n1 m1 e1 _, .real n2 m2 e2 _ =>
    let u := min e1 e2
    let x := Val.units n1 m1 e1 u + Val.units n2 m2 e2 u
    if x = 0 then (if n1 = n2 then .zero n1 else .zero (r == .rd)) else .real (x < 0) x.natAbs u false

/-- Exact product. -/
def Val.mul : Val → Val → Val
  | .nan, _ | _, .nan => .nan
  | .inf a, .inf b => .inf (a != b)
  | .inf a, .real n m _ _ => if m = 0 then .nan else .inf (a != n)
  | .real n m _ _, .inf a => if m = 0 then .nan else .inf (a != n)
  | .real n1 m1 e1 _, .real n2 m2 e2 _ => .real (n1 != n2) (m1 * m2) (e1 + e2) false

/-- Quotient, with the sticky mark where it is not exact (R238). -/
def Val.div : Val → Val → Val
  | .nan, _ | _, .nan => .nan
  | .inf _, .inf _ => .nan
  | .inf a, .real n _ _ _ => .inf (a != n)
  | .real n _ _ _, .inf a => .zero (n != a)
  | .real n1 m1 e1 _, .real n2 m2 e2 _ =>
    if m2 = 0 then (if m1 = 0 then .nan else .inf (n1 != n2))
    else if m1 = 0 then .zero (n1 != n2)
    else .real (n1 != n2) (m1 * 2 ^ 128 / m2) (e1 - e2 - 128) (m1 * 2 ^ 128 % m2 != 0)

/-- Integer square root, one result bit a step from bit `n` − 1 down. -/
def sqrtBits (x : Nat) : Nat → Nat → Nat
  | 0, acc => acc
  | n + 1, acc => sqrtBits x n (if (acc + 2 ^ n) * (acc + 2 ^ n) ≤ x then acc + 2 ^ n else acc)

/-- The integer square root. -/
def isqrt (x : Nat) : Nat := sqrtBits x (x.log2 / 2 + 1) 0

/-- Square root of an exact nonnegative real. -/
def sqrtVal (m : Nat) (e : Int) : Val :=
  let (m, e) := if e % 2 = 0 then (m, e) else (2 * m, e - 1)
  let x := m * 2 ^ 128
  let y := isqrt x
  .real false y (e / 2 - 64) (y * y != x)

/-- Reciprocal square root of an exact positive real. -/
def rsqrtVal (m : Nat) (e : Int) : Val :=
  let (m, e) := if e % 2 = 0 then (m, e) else (2 * m, e - 1)
  let x := 2 ^ (256 + 2 * m.log2)
  let y := isqrt (x / m)
  .real false y (-(e / 2) - 128 - m.log2) (y * y * m != x)

/-- Order of two values that are no NaN: exact, with −0 equal to +0. -/
def Val.cmp : Val → Val → Ordering
  | .inf a, .inf b => if a = b then .eq else if a then .lt else .gt
  | .inf a, _ => if a then .lt else .gt
  | _, .inf b => if b then .gt else .lt
  | .real n1 m1 e1 _, .real n2 m2 e2 _ =>
    let u := min e1 e2
    compare (Val.units n1 m1 e1 u) (Val.units n2 m2 e2 u)
  | _, _ => .eq

/-- fmin and fmax on element codes (R235): NaN loses, −0 lies below +0. -/
def minMaxCode (f : Fmt) (wantMax : Bool) (a b : Nat) : Nat :=
  let x := decodeElem f a
  let y := decodeElem f b
  if x.isNan then (if y.isNan then nanCode f else b)
  else if y.isNan then a
  else
    match x.cmp y with
    | .lt => if wantMax then b else a
    | .gt => if wantMax then a else b
    | .eq => if x.neg = wantMax then b else a

/-- The nearest integers of an exact real by the mode (R74, R239): the integral part, rounded. -/
def roundInt (r : Rnd) (neg : Bool) (m : Nat) (e : Int) : Nat :=
  if 0 ≤ e then m * 2 ^ e.toNat
  else
    let sh := (-e).toNat
    let k := m / 2 ^ sh
    let rem := m % 2 ^ sh
    if rem = 0 then k
    else
      let half : Ordering := if 2 * rem < 2 ^ sh then .lt else if 2 * rem = 2 ^ sh then .eq else .gt
      if roundsUp r neg half (k % 2 == 1) then k + 1 else k

/-- The range of an integer format. -/
def intRange : Fmt → Int × Int
  | .s8 => (-128, 127) | .s16 => (-32768, 32767) | .s32 => (-(2 ^ 31), 2 ^ 31 - 1) | .s64 => (-(2 ^ 63), 2 ^ 63 - 1)
  | .n8 => (0, 255) | .n16 => (0, 65535) | .n32 => (0, 2 ^ 32 - 1) | .n64 => (0, 2 ^ 64 - 1)
  | _ => (0, 0)

/-- Float to integer (R73, R74): rounded by the mode, then clamped; NaN gives 0. -/
def toInt (f : Fmt) (r : Rnd) : Val → Int
  | .nan => 0
  | .inf neg => if neg then (intRange f).1 else (intRange f).2
  | .real neg m e _ =>
    let k : Int := roundInt (noStoch r) neg m e
    clampInt (if neg then -k else k) (intRange f).1 (intRange f).2

/-- The exponent of a magnitude: floor(log2(m × 2^e)), for m > 0. -/
def magLog2 (m : Nat) (e : Int) : Int := (m.log2 : Int) + e

/-- A power of two times a value (R67, R68). -/
def Val.scale (t : Int) : Val → Val
  | .real n m e st => .real n m (e + t) st
  | v => v

end Sys2Proof.Machine
end

