-- ==== Sys2Proof/Machine/Regs.lean ====
section
/-! DEFINITION. Registers of a context: reading lanes, shapes of results, bound checks and write-back (R43 to R52, R80
to R83). -/

namespace Sys2Proof.Machine

/-- What lane l reads (R43). -/
def Shape.lane : Shape → Nat → Word
  | .uniform u, _ => u
  | .affine b st, l => b + BitVec.ofNat 32 l * st
  | .general vs, l => vs.getD l 0

/-- Register v of a context. -/
def Ctx.reg (c : Ctx) (v : Nat) : VReg := c.regs.getD v VReg.init

/-- Lane(v, l) for a single register (R189). -/
def Ctx.lane (c : Ctx) (v l : Nat) : Word := (c.reg v).shape.lane l

/-- Lane(v, l) for a pair (R189). -/
def Ctx.lane64 (c : Ctx) (v l : Nat) : Word64 := c.lane (v + 1) l ++ c.lane v l

/-- Mask register m1 to m7 (R52); m0 is the active mask and is read through `maskReg`. -/
def Ctx.maskAt (c : Ctx) (k : Nat) : Mask := c.masks.getD (k - 1) 0

/-- A context with m1 to m7 written (R52). -/
def Ctx.setMask (c : Ctx) (k : Nat) (x : Mask) : Ctx := { c with masks := pset 0 c.masks (k - 1) x }

/-- A context with a register replaced. -/
def Ctx.setReg (c : Ctx) (v : Nat) (r : VReg) : Ctx := { c with regs := pset .init c.regs v r }

/-- The shape that R44 gives a result before R45. -/
inductive ResK | uni | aff | gen
  deriving DecidableEq, Repr

/-- Whether an effective write mask covers every live lane (R45). -/
def covers (live m : Mask) : Bool := live &&& ~~~m == 0

/-- The shape a result is stored with (R44, R45): a full mask keeps the computed shape, otherwise lanes outside the mask
keep what they read. -/
def resultShape (live m : Mask) (k : ResK) (new old : Nat → Word) : Shape :=
  let merged := Shape.general (lanes32.map (fun l => if hasLane m l then new l else old l))
  if covers live m then
    match k with
    | .uni => .uniform (new 0)
    | .aff => if new 1 - new 0 = 0 then .uniform (new 0) else .affine (new 0) (new 1 - new 0)
    | .gen => merged
  else merged

/-- Write-back of a single register without checks (R44, R45, R47). -/
def Ctx.put (c : Ctx) (v : Nat) (k : ResK) (fmt : Fmt) (bound : Nat) (m : Mask) (new : Nat → Word) : Ctx :=
  let old := c.reg v
  let sh := resultShape c.live m k new old.shape.lane
  let whole := covers c.live m && k != .gen
  c.setReg v ⟨sh, fmt, bound, if whole then 0 else old.poison &&& ~~~m⟩

/-- The low half of a pair value. -/
def lo32 (x : Word64) : Word := x.truncate 32

/-- The high half of a pair value. -/
def hi32 (x : Word64) : Word := (x >>> 32).truncate 32

/-- Write-back of a register or a pair: a pair is uniform in both halves or general in both (R44). -/
def Ctx.putWide (c : Ctx) (wide : Bool) (v : Nat) (k : ResK) (fmt : Fmt) (bound : Nat) (m : Mask)
    (new : Nat → Word64) : Ctx :=
  if wide then (c.put v k fmt bound m (fun l => lo32 (new l))).put (v + 1) k fmt bound m (fun l => hi32 (new l))
  else c.put v k fmt bound m (fun l => lo32 (new l))

/-! ### Bound checks (R80 to R83) -/

/-- Positions and width of the elements of a register of a format, and the element's own format (R48, R80). -/
def elemsOf : Fmt → List Nat × Nat × Fmt
  | .f16x2 => ([0, 16], 16, .f16)
  | .bf16x2 => ([0, 16], 16, .bf16)
  | .e4m3x4 => ([0, 8, 16, 24], 8, .e4m3)
  | .ta8x4 => ([0, 8, 16, 24], 8, .ta8)
  | .ta6x4 => ([0, 8, 16, 24], 8, .ta6)
  | .s8x4 => ([0, 8, 16, 24], 8, .s8)
  | .n8x4 => ([0, 8, 16, 24], 8, .n8)
  | .e8x4 => ([0, 8, 16, 24], 8, .n8)
  | .f16 => ([0], 16, .f16)
  | .bf16 => ([0], 16, .bf16)
  | .e4m3 => ([0], 8, .e4m3)
  | .ta8 => ([0], 8, .ta8)
  | .ta6 => ([0], 8, .ta6)
  | f => ([0], if f.isWide then 64 else 32, f)

/-- The value of an element of `w` bits. -/
def elemVal (f : Fmt) (w x : Nat) : Val :=
  match f with
  | .s8 | .s16 | .s32 | .s64 => .ofInt (signExt x w)
  | f => decodeElem f x

/-- The value of a bound (R80): f32 for a float format, s32 for an s-type, n32 for an n-type. -/
def boundVal (f : Fmt) (x : Word64) : Val :=
  match (elemsOf f).2.2 with
  | .s8 | .s16 | .s32 | .s64 => .ofInt (signExt x.toNat 32)
  | .n8 | .n16 | .n32 | .n64 => .ofInt (x.toNat % 2 ^ 32 : Nat)
  | _ => decodeElem .f32 x.toNat

/-- Whether an element is in bounds (R82). -/
def inBounds (b : Bound) (v : Val) : Bool :=
  if v.isNan then false
  else (boundVal b.fmt b.low).cmp v != .gt && v.cmp (boundVal b.fmt b.high) != .gt

/-- high′ (`up` false) or low′ (`up` true) of a bound, as an element code of `w` bits (R83); where the format has no such value,
the end of its range or its NaN. R83 speaks of the value of a zero and not of its sign: a zero keeps the sign of the bound
(DESIGN CHOICE, log entry 115). -/
def boundEdge (f : Fmt) (w : Nat) (up : Bool) (v : Val) : Nat :=
  match f with
  | .s8 | .s16 | .s32 | .s64 | .n8 | .n16 | .n32 | .n64 =>
    match v with
    | .real neg m _ _ => wrapInt (clampInt (if neg then -(m : Int) else m) (intRange f).1 (intRange f).2) w
    | _ => 0
  | f => roundTo f (if up then .ru else .rd) 0 false v

/-- high′ or low′ as it replaces an element; where no value of the element's format lies on that side of the bound, a free value
(R81 and R83 state none; log entry 114). -/
def clampTo (b : Bound) (f : Fmt) (w : Nat) (up : Bool) : Nat :=
  let raw := if up then b.low else b.high
  let v := boundVal b.fmt raw
  let x := boundEdge f w up v
  let y := elemVal f w x
  if !y.isNan && (if up then v.cmp y else y.cmp v) != .gt then x else Config.noEdge b.fmt raw up % 2 ^ w

/-- A clamped element (R83). -/
def clampElem (b : Bound) (f : Fmt) (w x : Nat) : Nat :=
  let v := elemVal f w x
  if inBounds b v then x
  else if !v.isNan && v.cmp (boundVal b.fmt b.high) == .gt then clampTo b f w false
  else clampTo b f w true

/-- The elements of a result: those of its register, or of both registers of a pair that an unpacking writes (R244). -/
def elemsIn (pair : Bool) (fmt : Fmt) : List Nat × Nat × Fmt :=
  let (ps, w, f) := elemsOf fmt
  (if pair && !fmt.isWide then ps ++ ps.map (fun p => p + 32) else ps, w, f)

/-- The number of elements of a lane value that are out of bounds. -/
def outCount (b : Bound) (fmt : Fmt) (x : Nat) (pair : Bool := false) : Nat :=
  let (ps, w, f) := elemsIn pair fmt
  (ps.filter (fun p => !inBounds b (elemVal f w (x / 2 ^ p % 2 ^ w)))).length

/-- A lane value with every element clamped. -/
def clampLane (b : Bound) (fmt : Fmt) (x : Word64) (pair : Bool := false) : Word64 :=
  let (ps, w, f) := elemsIn pair fmt
  BitVec.ofNat 64 (ps.foldl (fun acc p =>
    let e := x.toNat / 2 ^ p % 2 ^ w
    acc - e * 2 ^ p + clampElem b f w e * 2 ^ p) x.toNat)

/-- c.bflag after `n` more events: it stops at its greatest value (R56, R57). -/
def addEvents (f : Word) (n : Nat) : Word := BitVec.ofNat 32 (min (f.toNat + n) 0xFFFFFFFF)

/-- A checked set of lane values (R51, R83): what is written, the events, the lanes that a trap-mode bound stops. -/
structure Checked where
  val : Nat → Word64
  changed : Bool
  events : Nat
  bad : Mask

/-- The bound descriptor an index names; index 0 is unbounded (R51). -/
def boundOf (bounds : List (Nat × Bound)) (ix : Nat) : Option Bound := if ix = 0 then none else tfind bounds ix

/-- Whether a bound index may stand on a result of a format: index 0, or a present descriptor of that format (R51). -/
def boundOk (bounds : List (Nat × Bound)) (ix : Nat) (fmt : Fmt) : Bool :=
  ix == 0 || (match tfind bounds ix with
    | some b => b.fmt == fmt
    | none => false)

/-- The bound check of the lanes of a mask (R82, R83). -/
def checkLanes (bounds : List (Nat × Bound)) (ix : Nat) (fmt : Fmt) (m : Mask) (val : Nat → Word64)
    (pair : Bool := false) : Checked :=
  match boundOf bounds ix with
  | none => ⟨val, false, 0, 0⟩
  | some b =>
    let ls := lanesOf m
    match b.mode with
    | .trap => ⟨val, false, 0, maskOf (fun l => hasLane m l && outCount b fmt (val l).toNat pair != 0)⟩
    | .flag => ⟨val, false, (ls.map (fun l => outCount b fmt (val l).toNat pair)).sum, 0⟩
    | .clamp =>
      ⟨fun l => clampLane b fmt (val l) pair, ls.any (fun l => clampLane b fmt (val l) pair != val l),
        (ls.map (fun l => outCount b fmt (val l).toNat pair)).sum, 0⟩

/-- Write(vd, vals, fmt, m) with its bound check (R50, R51, R83): the lanes that trap, or the context written. -/
def Ctx.write (c : Ctx) (bounds : List (Nat × Bound)) (wide : Bool) (v : Nat) (k : ResK) (fmt : Fmt) (ix : Nat)
    (m : Mask) (val : Nat → Word64) : Except Mask Ctx :=
  let ck := checkLanes bounds ix fmt m val wide
  if ck.bad != 0 then .error ck.bad
  else
    let k' := if ck.changed && k != .uni then .gen else k
    .ok { c.putWide wide v k' fmt ix m (if ck.changed then ck.val else val) with bflag := addEvents c.bflag ck.events }

/-! ### The register cache (R58) -/

/-- Whether a shape is uniform. -/
def Shape.isUniform : Shape → Bool
  | .uniform _ => true
  | _ => false

/-- Whether a shape is uniform or affine. -/
def Shape.isCompact : Shape → Bool
  | .general _ => false
  | _ => true

/-- The register cache after accesses to some registers (R58), by the shapes they then have: general ones move to the front, others leave it. -/
def touchCache (c : Ctx) (regs : List Nat) (cache : List (Nat × Bool)) : List (Nat × Bool) :=
  let step := fun (q : List (Nat × Bool)) (v : Nat) =>
    let old := q.find? (fun e => e.1 == v)
    let rest := q.filter (fun e => e.1 != v)
    if (c.reg v).shape.isCompact then rest
    else
      let q := (v, (old.map Prod.snd).getD false) :: rest
      if q.length ≤ 6 then q
      else
        match q.reverse.find? (fun e => !e.2) with
        | some e => q.filter (fun y => y.1 != e.1)
        | none => q.take 6
  regs.foldl step cache

/-- The register cache of a group whose context changes as a whole: entries of registers that are uniform or affine go (R58). -/
def keptCache (c : Ctx) (cache : List (Nat × Bool)) : List (Nat × Bool) :=
  cache.filter (fun e => !(c.reg e.1).shape.isCompact)

end Sys2Proof.Machine
end

