-- ==== Sys2Proof/Machine/MemForm.lean ====
section
/-! DEFINITION. Memory instructions as data: what each accesses, its operands as captured at issue, its addresses (R202, R203,
R256 to R271, R383). -/

namespace Sys2Proof.Machine

/-- Operations of the global atomics (R270). -/
inductive AOp | add | min | max | and | or | xor | exch | cas | fadd | fmin | fmax | ld
  deriving DecidableEq, Repr

/-- What a memory instruction is (R202, R203, R256 to R271). -/
structure MemForm where
  load : Bool                 -- writes a destination and counts in ld; otherwise counts in st
  global : Bool
  dst : Nat := 0
  addr : Nat                  -- the address register or pair
  data : List Nat := []       -- data or operand registers, ascending
  size : Nat                  -- bytes accessed by a lane
  off : Int := 0              -- byte offset
  fmt : Fmt := .n32           -- code written by a load
  atom : Option AOp := none
  sgn : Bool := false         -- signed load or atomic
  acq : Option Scope := none
  rel : Option Scope := none
  use : Option Use := none    -- declared use of a relaxed atomic
  scope : Scope := .grp
  lock : Bool := false
  look : Bool := false

/-- Bytes, code and sign of an access type (R202). -/
def Sz_size : Sz → Nat
  | .n8 | .s8 => 1
  | .n16 | .s16 => 2
  | .n32 | .s32 | .f32 => 4
  | .n64 => 8

def Sz_fmt : Sz → Fmt
  | .n8 => .n8 | .s8 => .s8 | .n16 => .n16 | .s16 => .s16 | .n32 => .n32 | .s32 => .s32 | .f32 => .f32 | .n64 => .n64

/-- Code, size and sign of an atomic's type (R269). -/
def IntTy_fmt : IntTy → Fmt
  | .n32 => .n32 | .s32 => .s32 | .n64 => .n64 | .s64 => .s64

def IntTy_size : IntTy → Nat
  | .n32 | .s32 => 4
  | .n64 | .s64 => 8

def IntTy_signed : IntTy → Bool
  | .s32 | .s64 => true
  | _ => false

def LkSz_sz : LkSz → Sz
  | .n32 => .n32 | .s32 => .s32 | .f32 => .f32

/-- The byte offset that an off field gives (R175). -/
def offBytes (o size : Nat) : Int := signExt o 6 * (size : Int)

/-- The registers of a value of a size. -/
def regsOf (v size : Nat) : List Nat := if size = 8 then [v, v + 1] else [v]

/-- Order and use of a uo field with its scope (R118). -/
def orderOf (f : MemForm) (s : Scope) (u : Use) : MemForm :=
  match u with
  | .acq => { f with acq := some s, scope := s }
  | .rel => { f with rel := some s, scope := s }
  | .ar => { f with acq := some s, rel := some s, scope := s }
  | u => { f with use := some u, scope := s }

/-- A plain load or store. -/
def plainForm (load glob : Bool) (d a : Nat) (z : Sz) (o : Nat) : MemForm :=
  { load := load, global := glob, dst := d, addr := a, data := if load then [] else regsOf d (Sz_size z),
    size := Sz_size z, off := offBytes o (Sz_size z), fmt := Sz_fmt z, sgn := z == .s8 || z == .s16 }

/-- A returning atomic. -/
def atomForm (op : AOp) (d a b : Nat) (t : IntTy) (s : Scope) (u : Use) : MemForm :=
  orderOf { load := true, global := true, dst := d, addr := a,
            data := if op = .ld then [] else regsOf b (IntTy_size t),
            size := IntTy_size t, fmt := IntTy_fmt t, atom := some op, sgn := IntTy_signed t } s u

/-- A returning f32 atomic. -/
def fatomForm (op : AOp) (d a b : Nat) (s : Scope) (u : Use) : MemForm :=
  { atomForm op d a b .n32 s u with fmt := .f32 }

/-- The operation of red. -/
def redOp : RedOp → AOp
  | .add => .add | .min => .min | .max => .max | .and => .and | .or => .or | .xor => .xor
  | .fadd => .fadd | .fmin => .fmin | .fmax => .fmax

/-- The form of a memory instruction that goes through the memory queue. -/
def memForm : Instr → Option MemForm
  | .ldG d a _ z c o => some { plainForm true true d a z o with acq := c }
  | .stG d a _ z c o => some { plainForm false true d a z o with rel := c }
  | .ldL d a _ z o => some (plainForm true false d a z o)
  | .stL d a _ z o => some (plainForm false false d a z o)
  | .lkld d a _ z o => some { plainForm true false d a (LkSz_sz z) o with acq := some .crew, lock := true }
  | .stul d a _ z o => some { plainForm false false d a (LkSz_sz z) o with rel := some .crew, lock := true }
  | .tlook d a _ => some { load := true, global := false, dst := d, addr := a, size := 8, fmt := .n32, look := true }
  | .atomAdd d a b s u t => some (atomForm .add d a b t s u)
  | .atomMin d a b s u t => some (atomForm .min d a b t s u)
  | .atomMax d a b s u t => some (atomForm .max d a b t s u)
  | .atomAnd d a b s u => some (atomForm .and d a b .n32 s u)
  | .atomOr d a b s u => some (atomForm .or d a b .n32 s u)
  | .atomXor d a b s u => some (atomForm .xor d a b .n32 s u)
  | .atomExch d a b s u => some (atomForm .exch d a b .n32 s u)
  | .atomCas d a b s u .n32 => some { atomForm .cas d a b .n32 s u with data := [b, b + 1] }
  | .atomCas d a b s u .n64 => some { atomForm .cas d a b .n64 s u with data := [b, b + 1, b + 2, b + 3] }
  | .atomFadd d a b s u => some (fatomForm .fadd d a b s u)
  | .atomFmin d a b s u => some (fatomForm .fmin d a b s u)
  | .atomFmax d a b s u => some (fatomForm .fmax d a b s u)
  | .red o a b s u t => some { atomForm (redOp o) 0 a b t s u with load := false }
  | .atomLd d a s u t => some (atomForm .ld d a 0 t s u)
  | _ => none

/-- The registers of the address operand: a pair for global addresses and tlook, one register for local ones (R256). -/
def MemForm.addrRegs (f : MemForm) : List Nat := if f.global || f.look then [f.addr, f.addr + 1] else [f.addr]

/-- The registers a form writes. -/
def MemForm.dstRegs (f : MemForm) : List Nat := if f.load then (if f.look then [f.dst] else regsOf f.dst f.size) else []

/-- The captured operands in the order of R383. -/
def capture (c : Ctx) (f : MemForm) : List (List Word) :=
  (f.addrRegs ++ f.data).map (fun v => lanes32.map (fun l => c.lane v l))

/-- Captured operand k of lane l. -/
def capAt (caps : List (List Word)) (k l : Nat) : Word := (caps.getD k []).getD l 0

/-- Captured pair from operand k of lane l. -/
def capWide (caps : List (List Word)) (k l : Nat) : Nat := (capAt caps k l).toNat + 2 ^ 32 * (capAt caps (k + 1) l).toNat

/-- The global address of a lane, unbounded (R256). -/
def globalAddr (f : MemForm) (caps : List (List Word)) (l : Nat) : Int := capWide caps 0 l + f.off

/-- The local address of a lane (R256). -/
def localAddr (f : MemForm) (caps : List (List Word)) (l : Nat) : Nat := wrapInt ((capAt caps 0 l).toNat + f.off) 32

/-- The number of address operands. -/
def MemForm.nAddr (f : MemForm) : Nat := f.addrRegs.length

/-- The data value of a lane: the operand, or the compare value of cas. -/
def dataOf (f : MemForm) (caps : List (List Word)) (l : Nat) : Nat :=
  if f.size = 8 then capWide caps f.nAddr l else (capAt caps f.nAddr l).toNat % 2 ^ (8 * f.size)

/-- The new value of a cas. -/
def casNew (f : MemForm) (caps : List (List Word)) (l : Nat) : Nat :=
  if f.size = 8 then capWide caps (f.nAddr + 2) l else (capAt caps (f.nAddr + 1) l).toNat

end Sys2Proof.Machine
end

