-- ==== Sys2Proof/Machine/Units.lean ====
section
/-! DEFINITION. The units of the state by number, memory with what a write sets off, the error log, translation and
the probe, the ends of transactions, teardown and kills. -/

namespace Sys2Proof.Machine

/-! ### Units by number -/

/-- The key of a group: core and frame (R381). -/
abbrev gkey (core frame : Nat) : Nat := core * 32 + frame

/-- The group of a core with a frame index. -/
def State.group (s : State) (core frame : Nat) : Option Group := tfind s.groups (gkey core frame)

/-- A state with a group set. -/
def State.setGroup (s : State) (core frame : Nat) (g : Group) : State :=
  { s with groups := tset s.groups (gkey core frame) g }

/-- A state with a group changed, where it exists. -/
def State.modGroup (s : State) (core frame : Nat) (f : Group → Group) : State :=
  match s.group core frame with
  | some g => s.setGroup core frame (f g)
  | none => s

/-- A state without a group. -/
def State.delGroup (s : State) (core frame : Nat) : State := { s with groups := tdel s.groups (gkey core frame) }

def State.core (s : State) (c : Nat) : Core := tget s.cores c .init
def State.setCore (s : State) (c : Nat) (x : Core) : State := { s with cores := tset s.cores c x }
def State.modCore (s : State) (c : Nat) (f : Core → Core) : State := s.setCore c (f (s.core c))

def State.cluster (s : State) (c : Nat) : Cluster := tget s.clusters c .init
def State.setCluster (s : State) (c : Nat) (x : Cluster) : State := { s with clusters := tset s.clusters c x }
def State.modCluster (s : State) (c : Nat) (f : Cluster → Cluster) : State := s.setCluster c (f (s.cluster c))

def State.die (s : State) (d : Nat) : Die := tget s.dies d .init
def State.modDie (s : State) (d : Nat) (f : Die → Die) : State := { s with dies := tset s.dies d (f (s.die d)) }

def State.queue (s : State) (q : Nat) : Queue := tget s.queues q .init
def State.setQueue (s : State) (q : Nat) (x : Queue) : State := { s with queues := tset s.queues q x }
def State.modQueue (s : State) (q : Nat) (f : Queue → Queue) : State := s.setQueue q (f (s.queue q))

def State.port (s : State) (p : Nat) : Port := tget s.ports p .init
def State.modPort (s : State) (p : Nat) (f : Port → Port) : State := { s with ports := tset s.ports p (f (s.port p)) }

def State.crew (s : State) (c : Nat) : Option Crew := tfind s.crews c
def State.setCrew (s : State) (c : Nat) (x : Crew) : State := { s with crews := tset s.crews c x }
def State.modCrew (s : State) (c : Nat) (f : Crew → Crew) : State :=
  match s.crew c with
  | some x => s.setCrew c (f x)
  | none => s

def State.launch (s : State) (l : Nat) : Option Launch := tfind s.launches l
def State.modLaunch (s : State) (l : Nat) (f : Launch → Launch) : State :=
  match s.launch l with
  | some x => { s with launches := tset s.launches l (f x) }
  | none => s

def State.modCohort (s : State) (c : Nat) (f : Cohort → Cohort) : State :=
  match tfind s.cohorts c with
  | some x => { s with cohorts := tset s.cohorts c (f x) }
  | none => s

/-- The cluster of a core: four cores each (R30). -/
abbrev clusterOf (core : Nat) : Nat := core / 4

/-- The compute die of a core: sixteen clusters each (R30). -/
abbrev dieOf (core : Nat) : Nat := core / 64

/-- The crew of a group. -/
def State.crewOf (s : State) (g : Group) : Option Crew := s.crew g.crew

/-- The launch of a group. -/
def State.launchOf (s : State) (g : Group) : Option Launch := (s.crewOf g).bind (fun c => s.launch c.launch)

/-- The cohort that a crew belongs to, with its number: not done, with the crew at its rank (R28). -/
def State.cohortOf (s : State) (crew : Nat) : Option (Nat × Cohort) :=
  s.cohorts.find? (fun p => p.2.crews.any (fun r => r.2 == crew))

/-- The bound descriptors of a group's launch (R51). -/
def State.boundsOf (s : State) (g : Group) : List (Nat × Bound) :=
  match s.launchOf g with
  | some l => l.bounds
  | none => []

/-- The launch priority of a group: the record's (R283, R286, R367). -/
def State.recordPrio (s : State) (g : Group) : Nat :=
  match s.launchOf g with
  | some l => l.priority
  | none => 0

/-- The effective priority of a group (R374). -/
def State.prioOf (s : State) (g : Group) : Nat :=
  match s.crewOf g with
  | some c => c.prio
  | none => 0

/-- The age of a group: its crew's admission order, then F1 (R374). -/
def State.ageOf (s : State) (g : Group) : Nat :=
  match s.crewOf g with
  | some c => c.age * 16 + g.f1
  | none => 0

/-- The address space of a group. -/
def State.aspaceOf (s : State) (g : Group) : Nat :=
  match s.launchOf g with
  | some l => l.aspace
  | none => 0

/-- An address space by number; one never created has no page (R87). -/
def State.space (s : State) (a : Nat) : Aspace := tget s.aspaces a ⟨0, []⟩

/-- The groups resident or evicted on a core, with their frames. -/
def State.groupsOn (s : State) (core : Nat) : List (Nat × Group) :=
  (s.groups.filter (fun p => p.1 / 32 == core)).map (fun p => (p.1 % 32, p.2))

/-- What left the package. -/
def State.emit (s : State) (o : Out) : State := { s with out := o :: s.out }

/-- A new free value's number. -/
def State.draw (s : State) : Nat × State := (s.fresh, { s with fresh := s.fresh + 1 })

/-- Energy that an engine draws from a die's bucket (R419, R425): the amount is a free value. -/
def State.drawDie (s : State) (d : Nat) : State :=
  let (n, s) := s.draw
  s.modDie d (fun x => { x with bucket := x.bucket - Config.engineGrains n })

/-- A new operation number. -/
def State.newId (s : State) : Nat × State := (s.nextId, { s with nextId := s.nextId + 1 })

/-- A counter of the survey stream (R450): unit × 4,096 plus its word. -/
def State.count (s : State) (unit word n : Nat) : State :=
  { s with counters := tset s.counters (unit * 4096 + word) (tget s.counters (unit * 4096 + word) 0 + n) }

/-- Survey counters of a core, of a cluster, of a compute die's last eight words, of a memory die (R450): units 0 to 7
are the compute dies, 16 to 27 the memory dies, 32 and 33 the I/O dies, 48 the package. -/
def State.countCore (s : State) (core k n : Nat) : State := s.count (core / 64) (core % 64 * 8 + k) n
def State.countCluster (s : State) (cl k n : Nat) : State := s.count (cl / 16) (512 + cl % 16 * 8 + k) n
def State.countDie (s : State) (d k n : Nat) : State := s.count d (640 + k) n
def State.countMem (s : State) (md k n : Nat) : State := s.count (16 + md) k n
def State.countPort (s : State) (port k n : Nat) : State := s.count (32 + port / 16) (port % 16 * 2 + k) n
def State.countDma (s : State) (link k n : Nat) : State := s.count (32 + link) (32 + k) n

/-! ### Physical memory (R90) -/

/-- Whether every byte of a physical range is on a populated memory die. -/
def populated (pa n : Nat) : Bool :=
  pa / 2 ^ 37 < 12 && pa % 2 ^ 37 + n ≤ Config.dieBytes

/-- The signature bits of a line (R150). -/
def wakeBits (line : Nat) : Nat × Nat :=
  let p := line * 64
  (bitsOf p 6 9, (bitsOf p 15 9) ^^^ (bitsOf p 24 9))

/-- Whether a wake set names a line: an exact entry or the signature (R150). -/
def Wake.hits (w : Wake) (line : Nat) : Bool :=
  w.exact.contains line || (let (h1, h2) := wakeBits line; w.sig.getLsbD h1 && w.sig.getLsbD h2)

/-- Whether an attempt has read or written a line (R142). -/
def Tx.touches (t : Tx) (line : Nat) : Bool :=
  t.reads.contains line || t.layers.any (fun l => l.writes.any (fun c => lineOf c.1 == line))

/-- Whether an attempt has written a line. -/
def Tx.wrote (t : Tx) (line : Nat) : Bool := t.layers.any (fun l => l.writes.any (fun c => lineOf c.1 == line))

/-! ### The ends of an attempt (R143 to R145) -/

/-- A divergence stack, top first, cut back to a depth (R143, R148). -/
def cutStack (st : List StackEntry) (depth : Nat) : List StackEntry := st.drop (st.length - depth)

/-- The slices at the end of an attempt or alternative: stacks cut back, control at `pc` with the lanes given (R143). -/
def endSlices (sl : List Slice) (depths : List Nat) (lanes : Mask) (pc : Nat) (clear : Bool) : List Slice :=
  sl.mapIdx (fun i x => if x.fin then x else
    { x with stack := cutStack x.stack (depths.getD i 0), cur := sliceBits lanes i, pc := pc,
             hints := if clear then .none else x.hints, wait := .run, xir := none, quarters := 0 })

/-- c.txstat after an end (R145): cause, persist, depth, restarts, sig and exact, live clear. -/
def txstatWord (cause : Nat) (persist : Bool) (depth restarts : Nat) (sig : Bool) (exact : Nat) : Word :=
  BitVec.ofNat 32 (cause + (if persist then 16 else 0) + 32 * depth + 256 * restarts + (if sig then 2 ^ 17 else 0)
    + 2 ^ 18 * exact)

/-- c.txstat after a transient abort: cause and restarts change, live clears (R145). -/
def txstatAbort (old : Word) (cause restarts : Nat) : Word :=
  let x := old.toNat
  BitVec.ofNat 32 (x - x % 16 + cause - 256 * bitsOf x 8 8 + 256 * restarts - 2 ^ 16 * bitsOf x 16 1)

/-- The end of a live attempt by an abort: writes discarded, control at txb (transient, stamp kept) or at Lfail
(persistent) (R143, R144). What it has in flight no longer has a place in the body to go back to. Pending hints go at a persistent
abort too (DESIGN CHOICE, log entry 128). -/
def Group.abort (g : Group) (cause : Nat) (persist : Bool) : Group :=
  match g.tx with
  | none => g
  | some t =>
    let lanes := t.lanes &&& g.ctx.live
    let pc := if persist then t.lfail else t.pc
    let stat := if persist then
        txstatWord cause true (t.layers.length - 1) t.restarts
          (g.ctx.txstat.getLsbD 17) (bitsOf g.ctx.txstat.toNat 18 7)
      else txstatAbort g.ctx.txstat cause (min (t.restarts + 1) 255)
    { g with tx := none, ops := g.ops.map (fun o => { o with snap := none }), lastStamp := if persist then none else some (t.stamp, min (t.restarts + 1) 255, t.pc), specs := [],
             status := if g.status = .waiting then .ready else g.status,
             wait := if g.status = .waiting then .none else g.wait,
             ctx := { g.ctx with txstat := stat, slices := endSlices g.ctx.slices t.depths lanes pc true } }

/-! ### What a performed write sets off -/

/-- Attempts of other agents' lines end, and sleepers on the lines are marked woken (R134, R151, R153). -/
def State.touchLines (s : State) (lines : List Nat) : State :=
  { s with groups := s.groups.map (fun p =>
      let g := p.2
      let g := match g.tx with
        | some t => if lines.any t.touches then g.abort 2 false else g
        | none => g
      let g := if (g.status = .sleeping || g.status = .evicted) && lines.any g.wake.hits
        then { g with wake := { g.wake with marked := true } } else g
      (p.1, g)) }

/-- Bytes written to a memory; a byte at an address that no memory die populates is lost (R90; log entry 96). -/
def Memory.put (m : Memory) (pa : Nat) (bs : List Byte) : Memory :=
  if populated pa bs.length then m.write pa bs
  else (bs.mapIdx (fun i b => (pa + i, b))).foldl (fun m c => if populated c.1 1 then m.write c.1 [c.2] else m) m

/-- Bytes put into memory: whole sectors lose their poison (R434). -/
def State.putMem (s : State) (pa : Nat) (bs : List Byte) : State :=
  { s with mem := s.mem.put pa bs,
           poison := s.poison.filter (fun x => !(pa ≤ x * 32 && x * 32 + 32 ≤ pa + bs.length)) }

/-- A write performed by an agent: memory, attempts and sleepers (R134, R151). -/
def State.perform (s : State) (pa : Nat) (bs : List Byte) : State :=
  (s.putMem pa bs).touchLines (linesOf pa bs.length)

/-- A byte of memory as an agent that reads the home of the line sees them; what stands at an address that no memory die
populates is a free value (R90; log entry 96). -/
def State.byteAt (s : State) (pa : Nat) : Byte := if populated pa 1 then s.mem.read pa else Config.voidByte pa

/-- The same for a range. -/
def State.readMem (s : State) (pa n : Nat) : List Byte :=
  if populated pa n then s.mem.bytes pa n else (List.range n).map (fun i => s.byteAt (pa + i))

/-- Whether a physical range touches a poisoned sector (R433). -/
def State.poisonedAt (s : State) (pa n : Nat) : Bool := s.poison.any (fun x => meets pa n (x * 32) 32)

/-- A core's L1 lines with bytes written through (R107). -/
def writeL1 (l1 : List (Nat × List Byte)) (pa : Nat) (bs : List Byte) : List (Nat × List Byte) :=
  l1.map (fun p =>
    (p.1, p.2.mapIdx (fun i b =>
      let a := p.1 * 64 + i
      if pa ≤ a && a < pa + bs.length then bs.getD (a - pa) 0 else b)))

/-- A store of a core performed: through its L1 into memory (R107, R124). -/
def State.performFrom (s : State) (core pa : Nat) (bs : List Byte) : State :=
  (s.perform pa bs).modCore core (fun c => { c with l1 := writeL1 c.l1 pa bs })

/-- The lines of a range brought into a core's L1, which holds 2,048: a full one replaces the line it filled first (R107;
which line is DESIGN CHOICE, log entry 97; an agenda may replace any line at any time). -/
def State.fillL1 (s : State) (core pa n : Nat) : State :=
  (linesOf pa n).foldl (fun s ln =>
    s.modCore core (fun c =>
      if c.l1.any (fun p => p.1 == ln) then c
      else { c with l1 := (ln, s.readMem (ln * 64) 64) :: c.l1.take 2047 })) s

/-- The copies of some lines that the L1s hold recalled, and each counted at its memory die (R108, R450). -/
def State.recall (s : State) (lines : List Nat) : State :=
  let held := (s.cores.map (fun p => (p.2.l1.map Prod.fst).filter (fun x => lines.contains x))).flatten
  let s := { s with cores := s.cores.map (fun p => (p.1, { p.2 with l1 := p.2.l1.filter (fun x => !lines.contains x.1) })) }
  held.foldl (fun s x => s.countMem (x * 64 / 2 ^ 37) 3 1) s

/-- Every L1 line that no longer agrees with memory dropped, on every core: what makes a write visible to all agents at one
moment (R124). -/
def State.freshen (s : State) : State :=
  { s with cores := s.cores.map (fun p => (p.1, { p.2 with l1 := p.2.l1.filter (fun x => x.2 == s.readMem (x.1 * 64) 64) })) }

/-- The bytes a core's load finds: its L1 lines, filled where absent (R107). -/
def State.readL1 (s : State) (core pa n : Nat) : List Byte :=
  let l1 := (s.core core).l1
  (List.range n).map (fun i =>
    match l1.find? (fun p => p.1 == lineOf (pa + i)) with
    | some p => p.2.getD ((pa + i) % 64) 0
    | none => (s.readMem (pa + i) 1).headD 0)

/-! ### Interrupts and the error log (R399, R439, R440) -/

/-- The links over which a vector goes: for vectors 0 to 255 the link of its queue, otherwise every trained link (R399). -/
def State.msixLinks (s : State) (v : Nat) : List Nat :=
  if v < 256 then [if s.linkRoute.testBit (v / 2) then 1 else 0] else s.hostLinks

/-- A vector sent. -/
def State.sendMsix (s : State) (v : Nat) : State := { s with out := (s.msixLinks v).map (fun l => .msix l v) ++ s.out }

/-- An MSI-X vector raised: sent, or left pending while its entry is masked (R399; log entry 6). -/
def State.raise (s : State) (v : Nat) : State :=
  if ((tget s.msixTable v [0, 0, 0, 1]).getD 3 1) % 2 = 1 then
    { s with msixPending := if s.msixPending.contains v then s.msixPending else v :: s.msixPending }
  else s.sendMsix v

/-- What an error-log entry names (R440). -/
structure LogEntry where
  kind : Nat
  unit : Nat := 14
  sub : Nat := 0
  aspace : Nat := 0
  addr : Nat := 0
  curGen : Nat := 0
  gen : Nat := 0
  queue : Nat := 0
  seq : Nat := 0
  wid : Nat := 0
  where_ : Nat := 0

/-- The 64 bytes of an error-log entry (R440). -/
def logBytes (e : LogEntry) (time : Nat) : List Byte :=
  leBytes (e.kind + 2 ^ 8 * e.unit + 2 ^ 16 * e.sub + 2 ^ 24 * e.aspace) 8 ++ leBytes e.addr 8
    ++ leBytes (e.curGen + 2 ^ 16 * e.gen + 2 ^ 32 * e.queue) 8 ++ leBytes e.seq 8 ++ leBytes e.wid 8
    ++ leBytes e.where_ 4 ++ leBytes time 8 ++ zeros 12

/-- An entry written to the error log, or dropped and counted while the ring is full (R439). -/
def State.log (s : State) (e : LogEntry) : State :=
  let r := s.errlog
  let n := 2 ^ (r.size + 4)
  if (r.head + 2 ^ 32 - r.tail) % 2 ^ 32 ≥ n then
    { s with errlog := { r with lost := min (r.lost + 1) 0xFFFFFFFF } }
  else
    let s := s.perform (r.base + 64 * (r.head % n)) (logBytes e s.time)
    ({ s with errlog := { r with head := (r.head + 1) % 2 ^ 32 } }).raise 256

/-- A heap frame retired (R441, R395): once, with its entry of kind 9. -/
def State.retireFrame (s : State) (pa : Nat) : State :=
  let md := pa / 2 ^ 37
  let f := pa % 2 ^ 37 / 4096
  match s.heaps[md]? with
  | none => s
  | some h =>
    if h.retired.contains f || !(h.first ≤ f && f < h.first + h.count) then s
    else ({ s with heaps := lset s.heaps md { h with retired := h.retired ++ [f] } }).log
      { kind := 9, unit := md, addr := pa / 4096 * 4096 }

/-- A corrected error of a sector logged; the eighth within 2^36 ticks retires its frame (R433, R441). -/
def State.correct (s : State) (sector : Nat) : State :=
  let pa := sector * 32
  let md := pa / 2 ^ 37
  let f := pa % 2 ^ 37 / 4096
  let s := s.log { kind := 1, unit := md % 16, addr := pa }
  match s.heaps[md]? with
  | none => s
  | some h =>
    let seen := (h.corrected.filter (fun (e : Nat × Nat) => s.time - e.2 ≤ 2 ^ 36)) ++ [(f, s.time)]
    let s := { s with heaps := lset s.heaps md { h with corrected := seen } }
    if 8 ≤ (seen.filter (fun (e : Nat × Nat) => e.1 == f)).length then s.retireFrame pa else s

/-- An uncorrectable error of a sector that nothing consumes: poison, the log, the frame's retirement (R433, R434, R441). -/
def State.uncorrect (s : State) (sector : Nat) : State :=
  let pa := sector * 32
  let s := { s with poison := if s.poison.contains sector then s.poison else s.poison ++ [sector] }
  (s.log { kind := 2, unit := pa / 2 ^ 37 % 16, addr := pa }).retireFrame pa

/-! ### Translation and the probe (R86 to R95) -/

/-- Bytes of a page of a size code (R88). -/
def pageBytes : Nat → Nat
  | 0 => 2 ^ 12 | 1 => 2 ^ 14 | 2 => 2 ^ 16 | 3 => 2 ^ 18 | 4 => 2 ^ 20 | 5 => 2 ^ 21 | 6 => 2 ^ 22 | 7 => 2 ^ 24
  | 8 => 2 ^ 25 | 9 => 2 ^ 26 | 10 => 2 ^ 28 | 11 => 2 ^ 29 | 12 => 2 ^ 30 | 13 => 2 ^ 32 | 14 => 2 ^ 34 | _ => 2 ^ 36

/-- The page that holds a virtual address. -/
def Aspace.page (a : Aspace) (va : Nat) : Option PageMap :=
  a.pages.find? (fun p => p.va ≤ va && va < p.va + pageBytes p.size)

/-- The physical address of a virtual one. -/
def Aspace.pa (a : Aspace) (va : Nat) : Option Nat := (a.page va).map (fun p => p.pa + (va - p.va))

/-- The frame's physical address of a group (R381). -/
def State.frameAddr (s : State) (core frame : Nat) : Nat := s.contextBase + Config.frameBytes * (32 * core + frame)

/-- The accesses that the probe tells apart. -/
inductive Need | read | write | atomic
  deriving DecidableEq, Repr

/-- Whether a page and a list of ranges grant an access (R366): listed by a range with the permission, and mapped with it. -/
def granted (l : Launch) (p : PageMap) (n : Need) : Bool :=
  l.wset.any (fun r =>
    meets p.va (pageBytes p.size) r.start (r.pages * 4096) &&
    match n with
    | .read => r.r && p.r
    | .write => r.w && p.w
    | .atomic => r.a && p.a)

/-- Whether a queue's pins hold a page (R92, R366): a pin covers whole pages. -/
def Queue.holds (q : Queue) (asp : Nat) (p : PageMap) : Bool :=
  q.pins.any (fun r => r.1 == asp && meets p.va (pageBytes p.size) r.2.1 (r.2.2 * 4096))

/-- Whether a page is pinned (R92). -/
def State.pagePinned (s : State) (asp : Nat) (p : PageMap) : Bool := s.queues.any (fun q => q.2.holds asp p)

/-- Whether a page is being staged (R92, R366, R405). -/
def State.staging (s : State) (asp : Nat) (p : PageMap) : Bool :=
  s.dmas.any (fun d => !d.out && d.aspace == asp && meets p.va (pageBytes p.size) d.va d.len) ||
  s.failedStaging.any (fun d => d.1 == asp && meets p.va (pageBytes p.size) d.2.1 d.2.2)

/-- Outcome of the probe for a byte range (R93): outside at an address, staging on a page, or ready. -/
inductive Probe
  | outside (va : Nat)
  | staging (page : Nat)
  | ready
  deriving DecidableEq, Repr

/-- The probe of one byte range page by page; `fuel` bounds the pages walked (R93). -/
def State.probeRange (s : State) (l : Launch) (n : Need) : Nat → Nat → Nat → Probe
  | 0, _, _ => .ready
  | fuel + 1, va, len =>
    if len = 0 then .ready
    else
      match (s.space l.aspace).page va with
      | none => .outside va
      | some p =>
        if va ≥ 2 ^ 56 || !granted l p n || !s.pagePinned l.aspace p then .outside va
        else
          let here := min len (p.va + pageBytes p.size - va)
          let rest := s.probeRange l n fuel (va + here) (len - here)
          match rest with
          | .outside a => .outside a
          | r => if s.staging l.aspace p then .staging p.va else r

/-- Whether an address range lies in the frame window (R386). -/
def inWindow (va n : Nat) : Bool := Config.frameVa ≤ va && va + n ≤ Config.frameVa + Config.frameBytes

/-- The probe of the lanes of an access (R93, R386): plain loads and stores of a handler reach its frame window. -/
def State.probe (s : State) (g : Group) (window : Bool) (n : Need) (ranges : List (Nat × Nat)) : Probe :=
  match s.launchOf g with
  | none => .outside 0
  | some l =>
    let rs := ranges.map (fun r =>
      if window && g.inHandler && inWindow r.1 r.2 then .ready
      else if meets r.1 r.2 Config.frameVa Config.frameBytes then .outside r.1
      else s.probeRange l n ((s.space l.aspace).pages.length + 1) r.1 r.2)
    match rs.find? (fun r => match r with
        | .outside _ => true
        | _ => false) with
    | some r => r
    | none => (rs.find? (fun r => r != .ready)).getD .ready

/-- The staging pages that a list of ranges touches (R94). -/
def State.stagingPages (s : State) (asp : Nat) (ranges : List (Nat × Nat)) : List Nat :=
  ((s.space asp).pages.filter (fun p => s.staging asp p && ranges.any (fun r => meets p.va (pageBytes p.size) r.1 r.2))).map
    PageMap.va

/-- The translations that a core's cache lacks of those that some ranges need (R95). Which ones a cache lacks is left open: those
that a remap has dropped (R91) and those that the environment drops (DESIGN CHOICE, log entry 124). -/
def State.missing (s : State) (core asp : Nat) (ranges : List (Nat × Nat)) : List (Nat × Nat) :=
  (s.core core).missed.filter (fun m => m.1 == asp && (match (s.space asp).page m.2 with
    | some p => ranges.any (fun r => meets p.va (pageBytes p.size) r.1 r.2)
    | none => false))

/-- A word held by a translation miss while the page walker fetches the entries (R95). -/
def State.walkPages (s : State) (core frame : Nat) (ms : List (Nat × Nat)) : State :=
  s.modCore core (fun c => { c with missed := c.missed.filter (fun m => !ms.contains m), walking := frame :: c.walking })

/-- The physical address of a group's access, its frame window included. -/
def State.transOf (s : State) (core frame : Nat) (g : Group) (va : Nat) : Nat :=
  if g.inHandler && inWindow va 1 then s.frameAddr core frame + (va - Config.frameVa)
  else ((s.space (s.aspaceOf g)).pa va).getD (2 ^ 41)

/-- The sharing scope of the page of an address: 0 device, 1 span, 2 system. -/
def State.scopeAt (s : State) (asp va : Nat) : Nat :=
  match (s.space asp).page va with
  | some p => p.scope
  | none => 0

/-! ### Teardown and kills (R36, R369, R394) -/

/-- Whether an operation belongs to the trapped context rather than to the handler (R385). -/
def Group.ofTrapped (g : Group) (op : Nat) : Bool :=
  match g.handler with
  | some t => g.inHandler && op < t.since
  | none => false

/-- A group's live counters with one of the trapped context's or its own changed (R112, R385). -/
def Group.modCounts (g : Group) (op : Nat) (ld st cp tl : Nat → Nat) : Group :=
  if g.ofTrapped op then
    { g with handler := g.handler.map (fun t => { t with ld := ld t.ld, st := st t.st, cp := cp t.cp, tl := tl t.tl }) }
  else { g with ld := ld g.ld, st := st g.st, cp := cp g.cp, tl := tl g.tl }

/-- Benches of a core released by a group; owner-queue places go too (R284, R300). -/
def releaseBenches (c : Core) (frame : Nat) : Core :=
  { c with benches := c.benches.map (fun b =>
      let b := { b with queue := b.queue.filter (fun q => q.1 != frame) }
      if b.owner = some frame then { b with owner := none, releasing := false, bypass := [none, none, none, none] } else b) }

/-- The stores of a group that its core has seen are in memory: they stay performed (R124, R394). -/
def State.settleEarly (s : State) (core frame : Nat) : State :=
  match s.group core frame with
  | none => s
  | some g =>
    (g.ops.filter MemOp.early).foldl (fun s op => match memForm op.ins with
      | some f => (lanesOf op.lanes).foldl (fun s l =>
          s.performFrom core (s.transOf core frame g (globalAddr f op.caps l).toNat) (leBytes (dataOf f op.outs l) f.size)) s
      | none => s) s

/-- One group's part of a kill (R36, R106, R128, R156, R300, R394): its slot, locks, attempt, wake set, benches and
ungranted requests go; copies that have not started are dropped; started copies and granted passes run on. -/
def State.killGroup (s : State) (core frame : Nat) : State :=
  let s := s.settleEarly core frame
  let s := s.modCore core (fun c => releaseBenches { c with locks := c.locks.filter (fun l => l.2 != frame),
                                                            hold := if c.hold = some frame then none else c.hold } frame)
  let s := s.modCluster (clusterOf core) (fun k =>
    { k with table := k.table.filter (fun r => !(r.core == core && r.frame == frame)),
             copies := k.copies.filter (fun o => o.started || !(o.core == core && o.frame == frame)),
             drains := k.drains.filter (fun d => !(d.core == core && d.frame == frame)),
             pass := k.pass.map (fun p =>
               let n := 32 * p.reqs.length
               let row := n - min n (p.retire - s.cycle)
               let reqs := p.reqs.map (fun r =>
                 if r.core == core && r.frame == frame && r.killed.isNone then { r with killed := some row } else r)
               { p with reqs := reqs,
                        retire := if !p.scan && reqs.all (fun r => r.killed.isSome) then min p.retire s.cycle
                          else p.retire }) })
  s.delGroup core frame

/-- The WID of lane 0 of a group: F1, F2, F3 and the device's place in the span, packed upward (R23). -/
def Launch.wid (l : Launch) (f1 rank f3 : Nat) : Nat :=
  let w := fun n => (l.widths.take n).sum
  f1 * 2 ^ w 1 + rank * 2 ^ w 2 + f3 * 2 ^ w 3 + l.spanX * 2 ^ w 4 + l.spanY * 2 ^ w 5

/-- The park records of a crew's groups left without a group: their answers are discarded (R394). Core 512 is none. A record
names its launch and its group's WID (R375), so that a later group in the same frame keeps its own. -/
def voidRecords (l : Launch) (c : Crew) (q : Queue) : Queue :=
  { q with unanswered := q.unanswered.map (fun u =>
      if u.2.1 == c.core && fieldAt u.2.2.2 0 8 == l.seq % 2 ^ 64
          && (List.range l.n1).any (fun f1 => fieldAt u.2.2.2 8 8 == l.wid f1 c.rank c.f3 % 2 ^ 64)
        then (u.1, 512, u.2.2.1, u.2.2.2) else u) }

/-- A crew killed (R36, R394). Its store buffer and quantum partials are dropped, its regions write nothing back; the
crew record stays, marked killed, until its relaunch or its launch's end. -/
def State.killCrew (s : State) (n : Nat) : State :=
  match s.crew n with
  | none => s
  | some c =>
    if c.retired || c.killed then s
    else
      let mine := fun (s : State) (f : Nat) => (s.group c.core f).any (fun g => g.crew == n)
      let s := c.frames.foldl (fun s f => if mine s f then s.killGroup c.core f else s) s
      let s := s.modCore c.core (fun k => { k with qbuf := k.qbuf.filter (fun e => e.crew != n) })
      let s := match s.launch c.launch with
        | some l => s.modQueue l.queue (voidRecords l c)
        | none => s
      s.setCrew n { c with killed := true, buffer := [], bufPoison := [], bufGen := none, regions := [] }

/-- Whether an end point of a copy is one of some chuck slots of a cluster. -/
def EndPt.inSlots (cl : Nat) (slots : List Nat) : EndPt → Bool
  | .chuck k x => k == cl && slots.contains x
  | _ => false

/-- Whether an engine operation still works on a cohort's chuck slots (R394). -/
def State.slotsBusy (s : State) (c : Cohort) : Bool :=
  let k := s.cluster c.cluster
  k.copies.any (fun o => o.src.inSlots c.cluster c.slots || o.dst.inSlots c.cluster c.slots)
  || (match k.pass with
      | some p => p.reqs.any (fun r => !r.scan && !r.gload && c.slots.contains r.slot)
      | none => false)

/-- What frees with the last crew of a cohort: its chuck slots and their contents, once its last engine operation has
completed (R55, R394). -/
def State.freeCohort (s : State) (n : Nat) : State :=
  match tfind s.cohorts n with
  | none => s
  | some c =>
    if s.slotsBusy c then s
    else
    let s := s.modCluster c.cluster (fun k =>
      { k with granted := k.granted.filter (fun x => !c.slots.contains x),
               chuck := c.slots.foldl (fun t x => tset t x .init) k.chuck })
    s.modCohort n (fun c => { c with slots := [] })

/-- The chuck slots of ended cohorts of a cluster that an engine operation has held until now (R394). -/
def State.settleSlots (s : State) (cl : Nat) : State :=
  (s.cohorts.filter (fun p => p.2.cluster == cl && (p.2.done || p.2.relaunch.isSome) && !p.2.slots.isEmpty)).foldl
    (fun s p => s.freeCohort p.1) s

/-- Entries of a queue's ring (R359). -/
def Queue.entries (q : Queue) : Nat := 2 ^ (min q.size 10 + 6)

/-- Whether a queue's started commands have all completed. -/
def Queue.idle (q : Queue) : Bool := q.busy.isEmpty && q.waiting.isNone

/-- DBG_STOPPED follows DBG_STOP once the started commands have completed (R455). -/
def Queue.settleStop (q : Queue) : Queue := { q with stopped := q.stop && q.idle }

/-- The completion of a command. -/
def State.complete (s : State) (q seq : Nat) : State :=
  s.modQueue q (fun x => { x with busy := x.busy.filter (· != seq) }.settleStop)

/-- Whether a launch that has not retired lists bytes of a range of a space. -/
def Launch.names (l : Launch) (asp va n : Nat) : Bool :=
  !l.complete && l.aspace == asp && l.wset.any (fun r => meets r.start (r.pages * 4096) va n)

/-- Whether a launch lists a page of a range: some byte of the range, or any byte of a page that the range meets (R92, R366). -/
def State.namesPage (s : State) (l : Launch) (asp va n : Nat) : Bool :=
  l.names asp va n || (s.space asp).pages.any (fun p => meets p.va (pageBytes p.size) va n && l.names asp p.va (pageBytes p.size))

/-- Whether a launch that has not retired lists a page of some ranges. -/
def State.listed (s : State) (asp : Nat) (rs : List (Nat × Nat)) : Bool :=
  s.launches.any (fun p => rs.any (fun r => s.namesPage p.2 asp r.1 (r.2 * 4096)))

/-- Pins without a range: what is left of each. -/
def dropPin (asp start pages : Nat) (pins : List (Nat × Nat × Nat)) : List (Nat × Nat × Nat) :=
  (pins.map (fun p =>
    let a := p.2.1
    let b := a + p.2.2 * 4096
    let c := start
    let d := start + pages * 4096
    if p.1 ≠ asp || b ≤ c || d ≤ a then [p]
    else (if a < c then [(asp, a, (c - a) / 4096)] else []) ++ (if d < b then [(asp, d, (b - d) / 4096)] else []))).flatten

/-- Pins without the pages that a range lists: every page of which it covers a byte (R92, R366). -/
def State.unpinRange (s : State) (asp : Nat) (pins : List (Nat × Nat × Nat)) (r : Nat × Nat) : List (Nat × Nat × Nat) :=
  ((s.space asp).pages.filter (fun p => meets p.va (pageBytes p.size) r.1 (r.2 * 4096))).foldl
    (fun ps p => dropPin asp p.va (pageBytes p.size / 4096) ps) (dropPin asp r.1 r.2 pins)

/-- Unpins of a queue that no launch holds back any longer take effect (R92). -/
def State.settleUnpins (s : State) (q : Nat) : State :=
  (s.queue q).unpins.foldl (fun s u =>
    if s.listed u.2.1 u.2.2 then s
    else
      let s := s.modQueue q (fun x =>
        { x with pins := u.2.2.foldl (s.unpinRange u.2.1) x.pins,
                 unpins := x.unpins.filter (fun y => y.1 != u.1) })
      s.complete q u.1) s

/-- The commands of a queue that a teardown leaves running: copies, unpins, prologues and binds before the command of number
`seq`, by enabling of the queue and then by sequence number. Its launches end, its later commands have no effect (R361, R369). -/
def State.spared (s : State) (q seq n : Nat) : Bool :=
  (n / 2 ^ 64 < seq / 2 ^ 64 || (n / 2 ^ 64 == seq / 2 ^ 64 && decide (2 ^ 63 ≤ (n + 2 ^ 64 - seq % 2 ^ 64) % 2 ^ 64))) && !s.launches.any (fun p => p.2.queue == q && p.2.seq == n && !p.2.complete)

/-- Prologues that end without completing go, with what their peers have sent for them (R371). -/
def State.dropPrologues (s : State) (gone : SpanTable → Bool) : State :=
  let gone := fun (t : SpanTable) => !t.complete && gone t
  let left := s.spans.filter (fun t => !gone t)
  let stale := fun (i : Nat) => s.spans.any (fun t => gone t && t.ident == i) && !left.any (fun t => !t.complete && t.ident == i)
  { s with spans := left, exchanges := s.exchanges.filter (fun x => !stale x.1) }

/-- A queue torn down (R369): status and sequence number, its launches' crews killed, its later commands without effect, the
error logged, vector 2q + 1 raised. -/
def State.teardown (s : State) (q err seq : Nat) : State :=
  let x := s.queue q
  if x.down then s
  else
    let go := s.spared q seq
    let s := s.setQueue q { x with error := err, down := true, errseq := seq % 2 ^ 64, waiting := none, busy := x.busy.filter go,
                                   head := x.tail % x.entries, unpins := x.unpins.filter (fun u => go u.1) }.settleStop
    let mine := s.launches.filter (fun p => p.2.queue == q && !p.2.complete)
    let s := mine.foldl (fun s p => s.modLaunch p.1 (fun l => { l with killed := true, complete := true })) s
    let crews := s.crews.filter (fun p => mine.any (fun l => l.1 == p.2.launch))
    let s := crews.foldl (fun s p => s.killCrew p.1) s
    let coh := s.cohorts.filter (fun p => mine.any (fun l => l.1 == p.2.launch))
    let s := coh.foldl (fun s p => (s.freeCohort p.1).modCohort p.1 (fun c => { c with done := true, relaunch := none })) s
    let s := { s with colls := s.colls.filter (fun (c : Coll) => c.failed || !mine.any (fun l => l.1 == c.launch)),
                      dmas := s.dmas.filter (fun (d : Dma) => d.queue != q || go d.seq),
                      binds := s.binds.filter (fun b => b.1 != q || go b.2.1) }
    let s := s.dropPrologues (fun t => t.queue == q && !go t.seq)
    let s := s.queues.foldl (fun s p => s.settleUnpins p.1) s
    (s.log { kind := 6, unit := 12, sub := err, aspace := x.aspace, queue := q, seq := seq }).raise (2 * q + 1)

/-- A kill of one crew that is reported to the queue (R36, R375, R437): the other uncommitted crews of the cohort go with
it when the cohort is eligible for relaunch; otherwise the queue is torn down with error 14. `cause` is the subcause of
a consumed error, or none for a kill by the host. -/
def State.killForRelaunch (s : State) (n : Nat) (cause : Option Nat) : State :=
  match s.crew n, s.cohortOf n with
  | some c, some (k, co) =>
    match s.launch c.launch with
    | none => s.killCrew n
    | some l =>
      let others := co.crews.filter (fun r => match s.crew r.2 with
        | some x => !x.retired
        | none => false)
      let idem := l.flags / 2 % 2 == 1
      let ok := fun (x : Crew) => (if cause = some 1 then idem else x.relaunchable || idem) && x.relaunches < 3
      let all := match cause with
        | none => l.flags % 2 == 1
        | some _ => others.all (fun r => match s.crew r.2 with
            | some x => ok x
            | none => true)
      if all then
        let s := others.foldl (fun s r => s.killCrew r.2) (s.modCrew n (fun x => { x with fault := cause }))
        (s.freeCohort k).modCohort k (fun x => { x with relaunch := some (others.map Prod.fst, co.cluster) })
      else s.teardown l.queue 14 l.seq
  | _, _ => s.killCrew n

end Sys2Proof.Machine
end

