-- ==== Sys2Proof/Machine/Frame.lean ====
section
/-! DEFINITION. The frame of a group: trap record, save area and replay part as bytes, and their reading back with the
rules for edits (R355 to R357, R381 to R383, R387). -/

namespace Sys2Proof.Machine

/-- The pending-hint state of a slice as a number (R355, offset 0x070). -/
def hintsWord (h : Hints) : Nat :=
  (if h.wide.isSome then 1 else 0) + (if h.mext then 2 else 0) + (if h.rnd.isSome then 4 else 0)
    + (if h.bnd.isSome then 8 else 0) + 2 ^ 4 * h.wide.getD 0 + 2 ^ 24 * (match h.rnd with
        | some r => r.code
        | none => 0) + 2 ^ 27 * h.bnd.getD 0

/-- A divergence-stack entry as 8 bytes (R355). -/
def stackWord : StackEntry → Nat
  | .merge m r => r.getD 0 + 2 ^ 56 * m.toNat
  | .path pc m => pc + 2 ^ 56 * m.toNat + 2 ^ 63

/-- Data bytes of a register (R356). -/
def shapeBytes : Shape → List Byte
  | .uniform u => leBytes u.toNat 4
  | .affine b s => leBytes b.toNat 4 ++ leBytes s.toNat 4
  | .general vs => (lanes32.map (fun l => leBytes (vs.getD l 0).toNat 4)).flatten

/-- The shape field of a register descriptor (R356). -/
def shapeCode : Shape → Nat
  | .uniform _ => 0
  | .affine _ _ => 1
  | .general _ => 2

/-- The 64 register descriptors, data offsets counted up from `off` (R356). -/
def descriptors (c : Ctx) : Nat → Nat → Nat → List Byte
  | 0, _, _ => []
  | n + 1, v, off =>
    if v < c.need then
      let r := c.reg v
      leBytes (shapeCode r.shape + 4 * r.fmt.code + 2 ^ 7 * r.bound + 2 ^ 12 * off) 4
        ++ descriptors c n (v + 1) (off + (shapeBytes r.shape).length)
    else leBytes 3 4 ++ descriptors c n (v + 1) off

/-- The data of the declared registers, ascending, without padding (R356). -/
def regData (c : Ctx) : List Byte := ((List.range c.need).map (fun v => shapeBytes (c.reg v).shape)).flatten

/-- A number rounded up to a multiple of 64. -/
def up64 (n : Nat) : Nat := (n + 63) / 64 * 64

/-- The benches of a core that a group owns, ascending (R355). -/
def ownedBenches (c : Core) (frame : Nat) : List Nat :=
  (List.range 4).filter (fun b => (c.benches.getD b .init).owner == some frame)

/-- The bits of a list of numbers below 64. -/
def bitSet (l : List Nat) : Nat := (l.map (fun b => 2 ^ b)).sum

/-- The slice whose gang's progress inside an xir or a matrix instruction the frame shows: a gang at the PC given that holds
one of the lanes given, else the first gang that has any (R278, R355; log entry 35). -/
def Ctx.shown (c : Ctx) (pc : Nat) (lanes : Mask) : Option Nat :=
  let has := fun (i : Nat) => match c.slices[i]? with
    | some x => x.xir.isSome || x.quarters != 0
    | none => false
  let here := fun (i : Nat) => match c.slices[i]? with
    | some x => x.pc == pc && c.slices.zipIdx.any (fun y => y.1.gang == i && sliceBits lanes y.2 &&& y.1.cur != 0)
    | none => false
  (((List.range 8).filter has).find? here).orElse (fun _ => (List.range 8).find? has)

/-- The xir progress and the quarters of a slice. -/
def Ctx.progress (c : Ctx) (i : Option Nat) : Option Xir × Nat :=
  match i.bind (fun i => c.slices[i]?) with
  | some x => (x.xir, x.quarters)
  | none => (none, 0)

/-- Everything the fixed part of a save area reports beside the context (R355). -/
structure SaveInfo where
  handler : Bool
  sleeping : Bool
  pages : Bool
  owned : List Nat
  affine : List Nat
  phaseCrew : Nat
  phaseCoh : Nat
  ld : Nat
  st : Nat
  cp : Nat
  tl : Nat
  open_ : Nat
  sig : BitVec 512
  locks : List Nat
  total : Nat
  shown : Option Nat                   -- the slice whose progress is shown

/-- The fixed part of a save area, 2,048 bytes (R355). -/
def fixedPart (c : Ctx) (i : SaveInfo) : List Byte :=
  let sl := c.slices
  let (xir, quarters) := c.progress i.shown
  let flags := (if i.handler then 1 else 0) + (if xir.isSome then 2 else 0) + (if i.sleeping then 4 else 0)
    + (if i.pages then 8 else 0) + (if c.noahead then 16 else 0) + 2 ^ 8 * bitSet i.owned + 2 ^ 12 * bitSet i.affine
    + 2 ^ 16 * quarters
  let x := xir.getD ⟨0, 0, 0, []⟩
  leBytes i.total 4 ++ leBytes flags 4 ++ leBytes c.live.toNat 4 ++ zeros 4
  ++ (sl.map (fun s => leBytes (if s.fin then 0xFF else s.gang) 1)).flatten
  ++ leBytes (bitSet ((List.range 8).filter (fun k => match sl[k]? with
        | some s => s.arrCrew
        | none => false))
      + 2 ^ 8 * bitSet ((List.range 8).filter (fun k => match sl[k]? with
        | some s => s.arrCoh
        | none => false))
      + 2 ^ 16 * (i.phaseCrew % 2 ^ 16) + 2 ^ 32 * (i.phaseCoh % 2 ^ 16)) 8
  ++ (sl.map (fun s => leBytes s.pc 8)).flatten
  ++ (sl.map (fun s => leBytes s.stack.length 1)).flatten
  ++ leBytes ((sl.mapIdx (fun k s => s.cur.toNat * 2 ^ (4 * k))).sum) 4 ++ zeros 4
  ++ (sl.map (fun s => leBytes (hintsWord s.hints) 8)).flatten
  ++ ((List.range 7).map (fun k => leBytes (c.maskAt (k + 1)).toNat 4)).flatten ++ zeros 4
  ++ leBytes c.round 4 ++ leBytes c.seed.toNat 4 ++ leBytes c.bflag.toNat 4 ++ leBytes c.quantum.toNat 4
  ++ leBytes c.batch.toNat 4 ++ leBytes c.txstat.toNat 4
  ++ leBytes (i.ld + 2 ^ 6 * i.st + 2 ^ 12 * i.cp + 2 ^ 16 * i.tl) 4 ++ leBytes (2 ^ i.open_ - 1) 4
  ++ leBytes x.pc 8 ++ leBytes x.pend.toNat 4 ++ leBytes x.done.toNat 4
  ++ leBytes i.sig.toNat 64
  ++ ((List.range 32).map (fun b => leBytes (bitSet ((List.range 64).filter (fun j => i.locks.contains (64 * b + j)))) 8)).flatten
  ++ (sl.map (fun s => padTo ((s.stack.reverse.map (fun e => leBytes (stackWord e) 8)).flatten) 128)).flatten
  ++ descriptors c 64 0 0 ++ zeros 192

/-- The register part, padded to 64 bytes (R356). -/
def regPart (c : Ctx) : List Byte := padTo (regData c) (up64 (regData c).length)

/-- An element of a bench. -/
def Bench.elem (b : Bench) (row col : Nat) : Word := tget b.elems (row * 256 + col) b.dflt

/-- The pair state of R53 in the 2,112-byte layout of R295. -/
def pairBytes (p : PairState) : List Byte :=
  ((List.range 256).map (fun j => leBytes (tget p.carry j (0x3F800000, 0)).1.toNat 4)).flatten
  ++ ((List.range 256).map (fun j => leBytes (tget p.carry j (0x3F800000, 0)).2.toNat 4)).flatten
  ++ ((List.range 32).map (fun k => leBytes (bitSet ((List.range 8).filter (fun j => p.flags.contains (8 * k + j)))) 1)).flatten
  ++ leBytes p.count 4 ++ zeros 28

/-- The bypass buffer in the layout of R357. -/
def bypassBytes (b : Bench) : List Byte :=
  ((List.range 4).map (fun q => match b.bypass.getD q none with
    | some (f, bs) => leBytes f.code 1 ++ zeros 15 ++ padTo bs 4608
    | none => leBytes 0xFF 1 ++ zeros 15 ++ zeros 4608)).flatten

/-- The bytes of one bench in the bench part, with the pair state after the odd bench of a pair (R357). -/
def benchBytes (n : Nat) (b : Bench) (p : PairState) : List Byte :=
  ((List.range 32768).map (fun i => leBytes (b.elem (i / 256) (i % 256)).toNat 4)).flatten
  ++ (if b.affine && n % 2 == 1 then pairBytes p else [])
  ++ bypassBytes b

/-- A bench of a core with the state of its pair. -/
def Core.benchOf (c : Core) (n : Nat) : Nat × Bench × PairState :=
  (n, c.benches.getD n .init, c.pairs.getD (n / 2) .init)

/-- Every bench of a group: those it owns on its core and those that its frame holds, ascending (R357, R391). -/
def allBenches (c : Core) (frame : Nat) (g : Group) : List (Nat × Bench × PairState) :=
  (List.range 4).filterMap (fun n => (g.benchCtx.find? (fun e => e.1 == n)).orElse
    (fun _ => if (ownedBenches c frame).contains n then some (c.benchOf n) else none))

/-- Bytes of one bench in the bench part. -/
def benchSize (e : Nat × Bench × PairState) : Nat := 131072 + 4 * 4624 + (if e.2.1.affine && e.1 % 2 == 1 then 2112 else 0)

/-- The bench part of a save area (R357). -/
def benchPart (bs : List (Nat × Bench × PairState)) : List Byte := (bs.map (fun e => benchBytes e.1 e.2.1 e.2.2)).flatten

/-- The offset of bench n in the bench part. -/
def benchOffset (bs : List (Nat × Bench × PairState)) (n : Nat) : Nat := ((bs.filter (fun e => e.1 < n)).map benchSize).sum

/-- An entry of the replay part, 832 bytes (R383). -/
def replayBytes (r : Replay) : List Byte :=
  leBytes r.op.word 4
  ++ leBytes ((if r.valid then 1 else 0) + (if r.withdrawn then 2 else 0) + (if r.req.isSome then 4 else 0)) 4
  ++ leBytes r.op.pc 8 ++ leBytes r.op.lanes.toNat 4 ++ leBytes r.op.wmask.toNat 4 ++ leBytes (hintsWord r.op.hints) 8
  ++ (match r.req with
      | some t => leBytes (t.age + 2 ^ 32 * t.window + 2 ^ 40 * t.quarter) 8
      | none => zeros 8)
  ++ zeros 24
  ++ padTo ((r.op.caps.map (fun vs => (lanes32.map (fun l => leBytes (vs.getD l 0).toNat 4)).flatten)).flatten) 768

/-- The replay part: header and entries, oldest first (R383). -/
def replayPart (rs : List Replay) : List Byte := padTo (leBytes rs.length 4) 64 ++ (rs.map replayBytes).flatten

/-- The trap record, 256 bytes (R382). -/
def recordBytes (t : TrapInfo) (inHandler benchesOut : Bool) (replayOff seq : Nat) (wid : Word64) (time : Nat) :
    List Byte :=
  leBytes t.cause 2 ++ leBytes t.sub 2
  ++ leBytes ((if inHandler then 1 else 0) + (if t.replayed then 2 else 0) + (if benchesOut then 4 else 0)) 4
  ++ leBytes t.pc 8 ++ leBytes t.lanes.toNat 4 ++ leBytes t.fault.toNat 4 ++ leBytes t.word 4 ++ leBytes replayOff 4
  ++ leBytes t.addr 8 ++ leBytes seq 8 ++ leBytes wid.toNat 8 ++ leBytes time 8 ++ zeros 192

/-- What the save area of a group reports; `at_` are the PC and lanes of a trap. -/
def State.saveInfo (s : State) (core frame : Nat) (g : Group) (c : Ctx) (at_ : Nat × Mask) (handlerCtx withBenches : Bool) :
    SaveInfo :=
  let k := s.core core
  let benches := allBenches k frame g
  let cr := s.crewOf g
  { handler := handlerCtx, sleeping := g.status == .sleeping, pages := g.status == .parkedPages,
    owned := benches.map (fun e => e.1), affine := (benches.filter (fun e => e.2.1.affine)).map (fun e => e.1),
    phaseCrew := (match cr with
      | some x => x.phaseCrew
      | none => 0),
    phaseCoh := (match cr with
      | some x => x.phaseCoh
      | none => 0),
    ld := g.ld, st := g.st, cp := g.cp, tl := g.tl, open_ := g.batches.length, sig := g.wake.sig,
    locks := (k.locks.filter (fun l => l.2 == frame)).map Prod.fst,
    total := 2048 + up64 (regData c).length + (if withBenches then up64 ((benches.map benchSize).sum) else 0),
    shown := c.shown at_.1 at_.2 }

/-- Fixed and register part of the save area of a context. -/
def State.saveHead (s : State) (core frame : Nat) (g : Group) (c : Ctx) (at_ : Nat × Mask) (handlerCtx withBenches : Bool) :
    List Byte :=
  fixedPart c (s.saveInfo core frame g c at_ handlerCtx withBenches) ++ regPart c

/-! ### Reading a frame back (R387, R388) -/

/-- The general lanes of 128 bytes. -/
def laneWords (bs : List Byte) : List Word := lanes32.map (fun l => BitVec.ofNat 32 (fieldAt bs (4 * l) 4))

/-- Data size of a shape code (R356). -/
def shapeSize : Nat → Nat
  | 0 => 4
  | 1 => 8
  | _ => 128

/-- A register read back from its descriptor; none where the edit breaks R387. `rd` reads the frame from an offset. -/
def readReg (rd : Nat → Nat → List Byte) (v : Nat) : Option (VReg × Nat × Nat) :=
  let d := fieldAt (rd (256 + 0x640 + 4 * v) 4) 0 4
  let off := 256 + 0x800 + d / 2 ^ 12
  let size := shapeSize (d % 4)
  if d % 4 = 3 || d / 2 ^ 11 % 2 = 1 || Config.frameBytes - 10240 < off + size then none
  else
    match Fmt.ofCode (d / 4 % 32) with
    | none => none
    | some f =>
      let bs := rd off size
      let sh := match d % 4 with
        | 0 => Shape.uniform (BitVec.ofNat 32 (ofLe bs))
        | 1 => Shape.affine (BitVec.ofNat 32 (fieldAt bs 0 4)) (BitVec.ofNat 32 (fieldAt bs 4 4))
        | _ => Shape.general (laneWords bs)
      some (⟨sh, f, d / 2 ^ 7 % 16, 0⟩, off, size)

/-- Whether a byte of the save area's fixed part may be edited (R387): PCs, m1 to m7, the four control registers,
pend_mask and the register descriptors; the rules for the new values are checked apart. -/
def editable (off : Nat) : Bool :=
  (0x20 ≤ off && off < 0x60) || (0xB0 ≤ off && off < 0xCC) || (0xD0 ≤ off && off < 0xE0)
    || (0xF8 ≤ off && off < 0xFC) || (0x640 ≤ off && off < 0x740)

/-- No two of a list of ranges meet. -/
def disjoint : List (Nat × Nat) → Bool
  | [] => true
  | (a, n) :: r => r.all (fun p => !meets a n p.1 p.2) && disjoint r

/-- A replay entry with the edits of the frame; none where an edit breaks R387. -/
def readReplay (rd : Nat → Nat → List Byte) (off : Nat) (r : Replay) : Option Replay :=
  let old := replayBytes r
  let new := rd off 832
  let flags := fieldAt new 4 4
  let oldFlags := fieldAt old 4 4
  let wm : Word := BitVec.ofNat 32 (fieldAt new 0x14 4)
  let same := (List.range 0x40).all (fun k =>
    (4 ≤ k && k < 8) || (0x14 ≤ k && k < 0x18) || new.getD k 0 == old.getD k 0)
  if same && (flags == oldFlags || flags + 1 == oldFlags && oldFlags % 2 == 1) && (wm &&& ~~~r.op.wmask == 0) then
    some { r with valid := flags % 2 == 1,
                  op := { r.op with wmask := wm,
                                    caps := (List.range r.op.caps.length).map (fun k => laneWords (new.drop (0x40 + 128 * k))) } }
  else none

/-- The replay entries of a frame, in order. -/
def readReplays (rd : Nat → Nat → List Byte) : Nat → List Replay → Option (List Replay)
  | _, [] => some []
  | off, r :: rs =>
    match readReplay rd off r, readReplays rd (off + 832) rs with
    | some x, some xs => some (x :: xs)
    | _, _ => none

/-- The lanes of some slices of a gang. -/
def slicesMask (sl : List Slice) (is : List Nat) : Mask :=
  is.foldl (fun m i => match sl[i]? with
    | some x => m ||| sliceMask x.cur i
    | none => m) 0

/-- The slices after an edit of their PCs (R387): a slice that was moved leaves its gang with nothing pending; the progress
of the gang's xir or matrix instruction stays with the slices that were not, an xir's in their lanes (R255, R278). `shown` is
the slice whose progress the frame shows, `pend` that progress's pending lanes as edited. -/
def movedSlices (sl : List Slice) (pcs : List Nat) (shown : Option Nat) (pend : Mask) : List Slice :=
  let stays := fun (i : Nat) (x : Slice) => !x.fin && pcs.getD i 0 == x.pc
  sl.mapIdx (fun i x =>
    if pcs.getD i 0 ≠ x.pc then { x with pc := pcs.getD i 0, hints := .none, xir := none, quarters := 0 }
    else
      let rest := (List.range 8).filter (fun j => match sl[j]? with
        | some y => y.gang == x.gang && stays j y
        | none => false)
      match sl[x.gang]? with
      | some lead =>
        if rest.head? = some i then
          let left := fun (q : Xir) => (if shown = some x.gang then pend else q.pend) &&& slicesMask sl rest
          { x with xir := lead.xir.map (fun q => { q with pend := left q, words := [] }),
                   quarters := lead.quarters, window := lead.window }
        else { x with xir := none, quarters := 0 }
      | none => x)

/-- The context of a frame with its edits, and the replay entries; none where R387 makes the group park. `benchBytes` is
the bench part expected in the frame, `stoch` whether mode 4 is implemented (R210). -/
def readFrame (rd : Nat → Nat → List Byte) (t : Trapped) (benchBytes : List Byte) (stoch : Bool) :
    Option (Ctx × List Replay) :=
  let c := t.ctx
  let headLen := t.image.length
  let head := rd 0 (256 + 2048)
  let sameHead := (List.range (256 + 2048)).all (fun k =>
    (256 ≤ k && editable (k - 256)) || head.getD k 0 == t.image.getD k 0)
  let regs := (List.range c.need).map (readReg rd)
  let above := (List.range (64 - c.need)).all (fun k => fieldAt head (256 + 0x640 + 4 * (c.need + k)) 4 == 3)
  let replayOff := fieldAt t.image 0x1C 4
  let replayLen := 64 + 832 * t.replay.length
  let placed := regs.filterMap (fun r => r.map (fun x => x.2))
  let ok := regs.all Option.isSome && disjoint (placed ++ [(headLen, up64 benchBytes.length), (replayOff, replayLen)])
  let pcs := (List.range 8).map (fun i => fieldAt head (256 + 0x20 + 8 * i) 8)
  let okPc := pcs.all (fun p => p % 4 == 0 && p < 2 ^ 56)
  let round := fieldAt head (256 + 0xD0) 4
  let seed := fieldAt head (256 + 0xD4) 4
  let pend : Word := BitVec.ofNat 32 (fieldAt head (256 + 0xF8) 4)
  let shown := t.shown
  let oldPend := ((c.progress shown).1.getD ⟨0, 0, 0, []⟩).pend
  let replayHead := rd replayOff 64 == padTo (leBytes t.replay.length 4) 64
  let benchSame := benchBytes.isEmpty || rd headLen benchBytes.length == benchBytes
  match readReplays rd (replayOff + 64) t.replay with
  | none => none
  | some rs =>
    if sameHead && above && ok && okPc && (round ≤ 3 || (round == 4 && stoch)) && (pend &&& ~~~oldPend == 0) && replayHead && benchSame then
      some ({ c with
        regs := regs.map (fun r => match r with
          | some x => x.1
          | none => .init),
        masks := (List.range 7).map (fun k => BitVec.ofNat 32 (fieldAt head (256 + 0xB0 + 4 * k) 4)),
        round := round, seed := if seed = 0 then 1 else BitVec.ofNat 32 seed,
        bflag := BitVec.ofNat 32 (fieldAt head (256 + 0xD8) 4),
        quantum := BitVec.ofNat 32 (fieldAt head (256 + 0xDC) 4),
        slices := movedSlices c.slices pcs shown pend }, rs)
    else none

end Sys2Proof.Machine
end

