-- ==== Sys2Proof/Machine/Access.lean ====
section
/-! DEFINITION. What one memory operation does when it is performed: loaded and stored bytes, atomics, the store buffer, local
store, locks and the tag table (R96 to R108, R256 to R271, R433 to R436). -/

namespace Sys2Proof.Machine

/-! ### Atomic arithmetic (R270) -/

/-- The value an atomic writes; none where it writes nothing. -/
def rmw (op : AOp) (size : Nat) (sgn : Bool) (old v nw : Nat) : Option Nat :=
  let le := if sgn then decide (signExt old (8 * size) ≤ signExt v (8 * size)) else decide (old ≤ v)
  match op with
  | .add => some ((old + v) % 2 ^ (8 * size))
  | .min => some (if le then old else v)
  | .max => some (if le then v else old)
  | .and => some (Nat.land old v)
  | .or => some (Nat.lor old v)
  | .xor => some (Nat.xor old v)
  | .exch => some v
  | .cas => if old = v then some nw else none
  | .fadd => some (roundTo .f32 .rn 0 false ((decodeElem .f32 old).add .rn (decodeElem .f32 v)))
  | .fmin => some (minMaxCode .f32 false old v)
  | .fmax => some (minMaxCode .f32 true old v)
  | .ld => none

/-! ### Local store (R96 to R106) -/

/-- Where a local address leads: outside (local-range trap), an absent rank, or a core and a position. -/
inductive LPlace
  | bad
  | absent
  | spot (core pos : Nat)
  deriving DecidableEq, Repr

/-- The crew of a rank of the group's cohort, not retired (R97). -/
def State.rankCrew (s : State) (crew rank : Nat) : Option Crew :=
  match s.cohortOf crew with
  | none => none
  | some (_, co) =>
    match co.crews.find? (fun p => p.1 == rank) with
    | none => none
    | some (_, n) =>
      match s.crew n with
      | some c => if c.retired then none else some c
      | none => none

/-- A local address decoded (R96, R97). -/
def State.localAt (s : State) (g : Group) (a : Nat) : LPlace :=
  match s.crewOf g, s.launchOf g with
  | some c, some l =>
    let off := a % 2 ^ 19
    let rank := a / 2 ^ 19 % 4
    let cf := a / 2 ^ 21 % 2
    if a / 2 ^ 22 ≠ 0 || l.lbytes ≤ off then .bad
    else if cf = 0 || rank = c.rank then (if cf = 1 && l.n2 ≤ rank then .bad else .spot c.core (c.base + off))
    else if l.n2 ≤ rank then .bad
    else
      match s.rankCrew g.crew rank with
      | some d => .spot d.core (d.base + off)
      | none => .absent
  | _, _ => .bad

/-- Whether a slot position of a core lies in an open region of a crew (R103). -/
def State.inRegion (s : State) (core slot : Nat) : Bool :=
  s.crews.any (fun p => p.2.core == core && !p.2.killed && p.2.regions.any (fun r =>
    let base := p.2.base / 1024 + r.2.lslot
    base ≤ slot && slot < base + r.2.nslot))

/-- Bytes written to a local store: region dirty bits are set, whole words lose their poison (R103, R434). -/
def State.writeLocal (s : State) (core pos : Nat) (bs : List Byte) : State :=
  let slots := (dedup ((List.range bs.length).map (fun i => (pos + i) / 1024))).filter (fun x => s.inRegion core x)
  s.modCore core (fun c =>
    { c with lmem := c.lmem.write pos bs,
             lpoison := c.lpoison.filter (fun w => !(pos ≤ 4 * w && 4 * w + 4 ≤ pos + bs.length)),
             rdirty := dedup (c.rdirty ++ slots) })

/-- Bytes of a local store. -/
def State.readLocal (s : State) (core pos n : Nat) : List Byte := (s.core core).lmem.bytes pos n

/-- The lock bit of a position: bank × 64 + bit (R104). -/
def lockBit (pos : Nat) : Nat :=
  let w := pos / 4
  (w % 32) * 64 + Nat.xor (w / 32) (w / 2048) % 64

/-- The tag entry of R99 that a slot of a core holds. -/
def State.tagAt (s : State) (core slot : Nat) : Word64 := tget (s.core core).tags slot 0

/-- tlook of one lane (R100). -/
def State.lookup (s : State) (g : Group) (a : Nat) : Nat :=
  match s.crewOf g, s.launchOf g with
  | some c, some l =>
    let hit := (List.range (l.lbytes / 1024)).find? (fun k =>
      let t := (s.tagAt c.core (c.base / 1024 + k)).toNat
      t % 2 == 1 && bitsOf t 10 46 == bitsOf a 10 46)
    hit.getD 0xFFFFFFFF
  | _, _ => 0xFFFFFFFF

/-! ### The store buffer of a relaunchable crew (R125, R435, R436) -/

/-- Buffered entries applied in order over what lies below: the bytes the crew sees. -/
def bufOverlay (below : Nat → Byte) : List BufEntry → Overlay → Overlay
  | [], o => o
  | .bytes w :: r, o => bufOverlay below r (Overlay.merge o w)
  | .red a op ty v _ :: r, o =>
    let n := IntTy_size ty
    let old := ofLe ((List.range n).map (fun i => o.over (a + i) (below (a + i))))
    match rmw (redOp op) n (IntTy_signed ty) old v.toNat 0 with
    | some x => bufOverlay below r (o.write a (leBytes x n))
    | none => bufOverlay below r o

/-- The contiguous runs of an overlay. -/
def runsOf : Overlay → List (Nat × List Byte)
  | [] => []
  | (a, b) :: r =>
    match runsOf r with
    | (a', bs) :: q => if a' = a + 1 then (a, b :: bs) :: q else (a, [b]) :: (a', bs) :: q
    | [] => [(a, [b])]

/-- An overlay performed, run by run, for a core. -/
def State.performRuns (s : State) (core : Nat) (o : Overlay) : State :=
  (runsOf o).foldl (fun s r => s.performFrom core r.1 r.2) s

/-- The lines a store buffer holds (R435). -/
def bufLines (b : List BufEntry) : List Nat :=
  dedup ((b.map (fun e => match e with
    | .bytes w => w.map (fun c => lineOf c.1)
    | .red a _ _ _ _ => [lineOf a])).flatten)

/-- The lines that the buffered reds of a crew write: their memory dies recall every cached copy (R108). -/
def redLines (b : List BufEntry) : List Nat :=
  (b.map (fun e => match e with
    | .bytes _ => []
    | .red a _ ty _ _ => linesOf a (IntTy_size ty))).flatten

/-- The reds among some entries counted at the memory dies that execute them (R450). -/
def State.countReds (s : State) (b : List BufEntry) : State :=
  b.foldl (fun s e => match e with
    | .bytes _ => s
    | .red a _ _ _ _ => s.countMem (a / 2 ^ 37) 4 1) s

/-- The address space of a crew's launch. -/
def State.crewSpace (s : State) (c : Crew) : Nat :=
  match s.launch c.launch with
  | some l => l.aspace
  | none => 0

/-- The log entry and the teardown of a rejected access of a crew (R91, R440). -/
def State.rejectGen (s : State) (crew va pa gen core : Nat) (wid : Word64) : State :=
  match s.crew crew with
  | none => s
  | some c =>
    match s.launch c.launch with
    | none => s
    | some l =>
      let s := s.log { kind := 4, unit := pa / 2 ^ 37 % 16, aspace := l.aspace, addr := va,
                       curGen := (s.space l.aspace).gen % 2 ^ 16, gen := gen % 2 ^ 16, queue := l.queue, seq := l.seq,
                       wid := wid.toNat, where_ := core }
      s.teardown l.queue 13 l.seq

/-- The generation of a crew's address space. -/
def State.crewGen (s : State) (c : Crew) : Nat := (s.space (s.crewSpace c)).gen

/-- The WID of lane 0 of group 0 of a crew. -/
def State.crewWid (s : State) (c : Crew) : Word64 :=
  match s.launch c.launch with
  | some l => BitVec.ofNat 64 (l.wid 0 c.rank c.f3)
  | none => 0

/-- The buffered entries of a crew performed (R435). -/
def State.commitEntries (s : State) (n : Nat) (c : Crew) : State :=
  let s := ((s.performRuns c.core (bufOverlay s.byteAt c.buffer [])).recall (redLines c.buffer)).countReds c.buffer
  ({ s with poison := dedup (s.poison ++ c.bufPoison) }).modCrew n (fun c =>
    { c with buffer := [], bufPoison := [], bufGen := none })

/-- The first red of a store buffer whose commit would read a poisoned sector, with that sector's address: bytes that the
crew has stored itself are not read from memory (R434, R435). -/
def State.metRed (s : State) : List BufEntry → Overlay → Option (Origin × Nat)
  | [], _ => none
  | .bytes w :: r, o => s.metRed r (Overlay.merge o w)
  | .red a _ ty _ by_ :: r, o =>
    if s.poisonedAt a (IntTy_size ty) && !(List.range (IntTy_size ty)).all (fun i => (o.find (a + i)).isSome) then
      some (by_, a / 32 * 32)
    else s.metRed r o

/-- A buffered red or partial that meets poison: its group consumes it while the crew still has it; afterwards the crew alone
is left to be killed (R379, R434, R437; log entry 112). -/
def State.redConsumed (s : State) (core crew : Nat) (o : Origin) (addr : Nat) : State :=
  let t : TrapInfo := ⟨20, 0, o.pc, o.lanes, o.lanes, o.word, addr, false⟩
  match (s.group core o.frame).filter (fun g => g.crew == crew && g.status != .retired) with
  | some g => s.setGroup core o.frame { g with poisoned := g.poisoned.orElse (fun _ => some (t, s.nextId, none)) }
  | none =>
    match s.crew crew with
    | none => s
    | some c =>
      let (as_, q, seq) := match s.launch c.launch with
        | some l => (l.aspace, l.queue, l.seq)
        | none => (0, 0, 0)
      let s := s.log { kind := 3, unit := addr / 2 ^ 37 % 16, addr := addr, aspace := as_, queue := q, seq := seq,
                       wid := (s.crewWid c).toNat, where_ := core }
      (s.retireFrame addr).killForRelaunch crew (some 0)

/-- The commit of a crew's store buffer (R125, R435); entries of an old generation are rejected (R91), and poison that a red
would read is consumed instead (R434). -/
def State.commitBuffer (s : State) (n : Nat) : State :=
  match s.crew n with
  | none => s
  | some c =>
    match c.bufGen.filter (fun e => e.1 != s.crewGen c), s.metRed c.buffer [] with
    | some (gen, va), _ => s.rejectGen n va (((s.space (s.crewSpace c)).pa va).getD (2 ^ 41)) gen c.core (s.crewWid c)
    | none, some (o, a) => s.redConsumed c.core n o a
    | none, none => s.commitEntries n c

/-- Whether a crew's buffer cannot commit for poison that one of its reds would read (R434). -/
def State.commitMet (s : State) (n : Nat) : Bool := (s.crew n).any (fun c => (s.metRed c.buffer []).isSome)

/-- An early commit (R436): the crew is relaunchable no longer; logged with kind 8. One that consumes poison commits nothing. -/
def State.commitEarly (s : State) (n : Nat) : State :=
  match s.crew n with
  | none => s
  | some c =>
    if !c.relaunchable then s
    else if s.commitMet n then s.commitBuffer n
    else
      let s := ((s.commitBuffer n).modCrew n (fun c => { c with relaunchable := false })).countDie (dieOf c.core) 3 1
      match s.launch c.launch with
      | some l => s.log { kind := 8, aspace := l.aspace, queue := l.queue, seq := l.seq,
                          wid := l.wid 0 c.rank c.f3, where_ := c.core }
      | none => s

/-- Whether an entry may join a crew's buffer within the limits of R435. -/
def State.bufferFits (s : State) (n : Nat) (e : BufEntry) : Bool :=
  match s.crew n with
  | none => true
  | some c =>
    let mine := (bufLines (c.buffer ++ [e])).length
    let die := ((s.crews.filter (fun p => p.1 != n && dieOf p.2.core == dieOf c.core)).map
      (fun p => (bufLines p.2.buffer).length)).sum
    mine ≤ 16384 && mine + die ≤ 262144

/-- The sectors that an overlay covers whole (R434). -/
def wholeSectors (o : Overlay) : List Nat :=
  (dedup (o.map (fun c => c.1 / 32))).filter (fun x => (List.range 32).all (fun i => (o.find (32 * x + i)).isSome))

/-- Poisoned sectors of a store buffer after an entry: a whole sector written loses its poison (R434). -/
def bufClean (e : BufEntry) (ps : List Nat) : List Nat :=
  match e with
  | .bytes w => if ps.isEmpty then [] else ps.filter (fun x => !(wholeSectors w).contains x)
  | .red _ _ _ _ _ => ps

/-- A write or red of a crew sent to global memory: into the store buffer while the crew is relaunchable (R435, R436); `tag`
is the generation that it carries, with its virtual address (R91). -/
def State.sendGlobal (s : State) (n core : Nat) (e : BufEntry) (tag : Nat × Nat) : State :=
  let direct := fun (s : State) =>
    ((s.performRuns core (bufOverlay s.byteAt [e] [])).recall (redLines [e])).countReds [e]
  match s.crew n with
  | none => direct s
  | some c =>
    if c.relaunchable then
      if s.bufferFits n e then
        (s.modCrew n (fun c => { c with buffer := c.buffer ++ [e], bufPoison := bufClean e c.bufPoison,
                                        bufGen := some (c.bufGen.getD tag) })).countDie (dieOf c.core) 2
          ((bufLines (c.buffer ++ [e])).length - (bufLines c.buffer).length)
      else if s.commitMet n then s.commitBuffer n
      else direct (s.commitEarly n)
    else direct s

/-! ### Views of global memory -/

/-- The stores of a core that have reached its L1 before anything else (R124), as bytes by physical address. -/
def State.earlyBytes (s : State) (core : Nat) : Overlay :=
  ((s.groupsOn core).map (fun p =>
    (p.2.ops.filter MemOp.early).map (fun op =>
      match memForm op.ins with
      | some f => (lanesOf op.lanes).map (fun l =>
          ocells (s.transOf core p.1 p.2 (globalAddr f op.caps l).toNat) (leBytes (dataOf f op.outs l) f.size))
      | none => []))).flatten.flatten.foldl (fun o w => Overlay.merge o w) []

/-- The bytes that a lane of a group reads: the crew's buffered bytes, its buffered reds applied to memory's value, early stores
of the core, the L1, memory (R107, R124, R435). -/
def State.viewBytes (s : State) (core : Nat) (g : Group) (pa n : Nat) : List Byte :=
  let early := s.earlyBytes core
  let below := fun a => early.over a ((s.readL1 core a 1).headD 0)
  match s.crewOf g with
  | some c =>
    if c.buffer.isEmpty then (List.range n).map (fun i => below (pa + i))
    else
      let o := bufOverlay s.byteAt c.buffer []
      (List.range n).map (fun i => o.over (pa + i) (below (pa + i)))
  | none => (List.range n).map (fun i => below (pa + i))

/-- The L1 of a core made to agree with memory: every line is dropped (R124). -/
def State.clearL1 (s : State) (core : Nat) : State := s.modCore core (fun c => { c with l1 := [] })

/-- Whether a scope is cohort or wider. -/
def Scope_wide : Scope → Bool
  | .grp | .crew => false
  | _ => true

/-- Whether a scope is device or wider. -/
def Scope_dev : Scope → Bool
  | .dev | .span | .sys => true
  | _ => false

/-! ### The quantum buffer (R128) -/

/-- A flush of quantum-buffer entries as adds of device scope, which recall every cached copy (R108, R128); a relaunchable
crew's go to its store buffer (R435), one of an old generation is rejected (R91), one that meets poison is consumed (R434). -/
def State.flushEntry (s : State) (core : Nat) (e : QEntry) : State :=
  match s.crew e.crew with
  | some c =>
    if e.gen = s.crewGen c then
      if !c.relaunchable && s.poisonedAt e.addr (IntTy_size e.ty) then s.redConsumed core e.crew e.made (e.addr / 32 * 32)
      else (s.sendGlobal e.crew core (.red e.addr .add e.ty e.sum e.made) (e.gen, e.va)).countDie (dieOf core) 6 1
    else s.rejectGen e.crew e.va e.addr e.gen core (s.crewWid c)
  | none => s

/-- The entries of a core that satisfy a condition, flushed and performed. -/
def State.flushWhere (s : State) (core : Nat) (p : QEntry → Bool) : State :=
  let es := (s.core core).qbuf.filter p
  let s := s.modCore core (fun c => { c with qbuf := c.qbuf.filter (fun e => !p e) })
  es.foldl (fun s e => s.flushEntry core e) s

/-- The magnitude of a partial: signed types by absolute value (R128). -/
def partialMag (ty : IntTy) (x : Word64) : Nat :=
  let w := 8 * IntTy_size ty
  if IntTy_signed ty then (signExt x.toNat w).natAbs else x.toNat % 2 ^ w

/-- A .quan add of one lane (R128). Partials reaching c.quantum and the entry that a full buffer gives up are marked as
on their way to the atomic unit. -/
def State.quanAdd (s : State) (core crew pa : Nat) (ty : IntTy) (v : Nat) (quantum : Nat) (made : Origin)
    (tag : Nat × Nat) : State :=
  s.modCore core (fun c =>
    let mine := fun (e : QEntry) => e.addr == pa && e.crew == crew && !e.flushing && IntTy_size e.ty == IntTy_size ty
    let old := c.qbuf.find? mine
    let rest := c.qbuf.filter (fun e => !mine e)
    let w := 8 * IntTy_size ty
    let sum : Word64 := BitVec.ofNat 64 (((match old with
      | some e => e.sum.toNat
      | none => 0) + v) % 2 ^ w)
    let thr := quantum ≤ partialMag ty sum
    let from_ := (old.map (fun (e : QEntry) => (e.gen, e.va))).getD tag
    let e : QEntry := ⟨pa, crew, ty, from_.1, from_.2, sum, made, thr, thr⟩
    let live := rest.filter (fun e => !e.flushing)
    let rest := if old.isNone && 32 ≤ live.length then
        match live.getLast? with
        | some v => rest.map (fun e => if e == v then { e with flushing := true } else e)
        | none => rest
      else rest
    { c with qbuf := e :: rest })

/-! ### Gangs (R18) -/

/-- The lowest slice of a list whose PC is `pc`. -/
def firstAt (sl : List Slice) (members : List Nat) (pc : Nat) : Nat :=
  (members.find? (fun i => match sl[i]? with
    | some x => x.pc == pc
    | none => false)).getD 0

/-- The slices of a gang regrouped by their next PC: each gang is named by its lowest slice (R18). -/
def repart (sl : List Slice) (members : List Nat) : List Slice :=
  let live := members.filter (fun i => match sl[i]? with
    | some x => !x.fin
    | none => false)
  sl.mapIdx (fun i x => if live.contains i then { x with gang := firstAt sl live x.pc } else x)

/-- The slices of a gang changed, the others left. -/
def onSlices (sl : List Slice) (members : List Nat) (f : Nat → Slice → Slice) : List Slice :=
  sl.mapIdx (fun i x => if members.contains i then f i x else x)

/-- A gang's step to the word at PC + 4; an instruction that is no hint consumes the pending hints (R181). -/
def stepSlices (sl : List Slice) (members : List Nat) (keepHints : Bool) : List Slice :=
  repart (onSlices sl members (fun _ x => { x with pc := x.pc + 4, hints := if keepHints then x.hints else .none })) members

/-- The progress inside an xir of the gang that a slice leads (R255). -/
def setXir (sl : List Slice) (lead : Nat) (q : Option Xir) : List Slice := onSlices sl [lead] (fun _ x => { x with xir := q })

/-- The quarters of its matrix instruction that the gang led by a slice has issued (R278). -/
def setQuarters (sl : List Slice) (lead n : Nat) : List Slice := onSlices sl [lead] (fun _ x => { x with quarters := n })

/-- The fusion window of the mmq that the gang led by a slice issues by quarters (R286). -/
def setWindow (sl : List Slice) (lead n : Nat) : List Slice := onSlices sl [lead] (fun _ x => { x with window := n })

/-- The progress inside an xir of the gang that a slice leads. -/
def Ctx.xirOf (c : Ctx) (lead : Nat) : Option Xir := (c.slices[lead]?).bind Slice.xir

/-- The quarters that the gang led by a slice has issued. -/
def Ctx.quartersOf (c : Ctx) (lead : Nat) : Nat := ((c.slices[lead]?).map Slice.quarters).getD 0

/-- Slices of a context that have a live lane. -/
def Ctx.liveSlices (c : Ctx) : List Nat := (List.range 8).filter (fun i => sliceBits c.live i != 0)

/-- A slice with no live active lane pops until it holds one, or finishes (R17). -/
def unwind (live : BitVec 4) (x : Slice) : List StackEntry → Slice
  | [] => { x with stack := [], cur := 0, fin := true }
  | .path p m :: r => if m &&& live = 0 then unwind live x r else { x with stack := r, cur := m &&& live, pc := p }
  | .merge m (some p) :: r =>
    if m &&& live = 0 then unwind live x r else { x with stack := r, cur := m &&& live, pc := p }
  | .merge _ none :: r => unwind live x r

/-! ### Ends of waits (R33, R112, R113) -/

/-- Whether every batch up to a number is complete (R113). -/
def batchesDone (g : Group) (n : Word) : Bool := g.batches.all (fun b => 2 ^ 31 ≤ (n - b.1).toNat)

/-- Whether what a group waits for has come. -/
def waitOver (g : Group) : Bool :=
  match g.wait with
  | .counters ld st cp tl => g.ld ≤ ld && g.st ≤ st && g.cp ≤ cp && g.tl ≤ tl
  | .batch n => batchesDone g n
  | _ => false

/-- The slices of the gang that a group last issued from. -/
def gangSlices (g : Group) (gang : Nat) : List Nat :=
  (List.range 8).filter (fun i => match g.ctx.slices[i]? with
    | some x => !x.fin && x.gang == gang
    | none => false)

/-- The end of a counter or batch wait: the group is ready at the instruction after it. -/
def Group.recheck (g : Group) : Group :=
  if g.status == .waiting && waitOver g then
    { g with status := .ready, wait := .none,
             ctx := { g.ctx with slices := stepSlices g.ctx.slices (gangSlices g g.lastGang) false } }
  else g

/-! ### Performing an operation -/

/-- Where a lane's access lies, for the checks of order: space (0 global, core + 1 local) and byte address. -/
def State.opSpot (s : State) (core frame : Nat) (g : Group) (f : MemForm) (caps : List (List Word)) (l : Nat) :
    Option (Nat × Nat) :=
  if f.look then none
  else if f.global then some (0, s.transOf core frame g (globalAddr f caps l).toNat)
  else
    match s.localAt g (localAddr f caps l) with
    | .spot c p => some (c + 1, p)
    | _ => none

/-- The value a load lane writes from its bytes (R258). -/
def placeLoaded (f : MemForm) (x : Nat) : Word64 :=
  if f.sgn && f.size < 4 then BitVec.ofNat 64 (wrapInt (signExt x (8 * f.size)) 32) else BitVec.ofNat 64 x

/-- Removal of an operation from its group, with its counter (R112). -/
def State.endOp (s : State) (core frame : Nat) (op : MemOp) (load : Bool) : State :=
  s.modGroup core frame (fun g =>
    let g := if load then g.modCounts op.id (· - 1) id id id else g.modCounts op.id id (· - 1) id id
    ({ g with ops := g.ops.filter (fun o => o.id != op.id) }).recheck)

/-- The trap record contents of an operation. -/
def opTrap (op : MemOp) (cause sub : Nat) (fault : Mask) (addr : Nat) : TrapInfo :=
  ⟨cause, sub, op.pc, op.lanes, fault, op.word, addr, op.again⟩

/-- A group whose load fails a trap-mode bound at write-back (R378): the trap is due at the load. Nothing younger has
issued, so the gang stands at the load again, with the hints it took, inside an xir with that word's lanes pending; a
re-injected load stays the oldest entry of the replay part (R388). After the end of the attempt in which the load issued, control
stays where that end has put it (R143). -/
def Group.failBack (g : Group) (op : MemOp) (fail : Mask) : Group :=
  let t := opTrap op 10 (op.hints.bnd.getD 0) fail 0
  if op.again then
    let g := g.modCounts op.id (· + 1) id id id
    { g with due := some t, replay := ⟨{ op with again := false }, true, false, none, true⟩ :: g.replay }
  else
    let back := if op.snap.isNone then [] else gangSlices g g.lastGang
    let sl := onSlices g.ctx.slices back (fun _ x => { x with pc := op.pc, hints := op.hints })
    match if op.snap.isNone then none else op.xir with
    | none => { g with due := some t, ctx := { g.ctx with slices := sl } }
    | some q =>
      let words := q.pend &&& maskOf (fun k => (q.words.getD k 0).toNat == op.word)
      let sl := setXir (onSlices g.ctx.slices back (fun _ x => { x with pc := op.pc })) (back.headD 0) (some q)
      { g with due := some { t with lanes := q.pend ||| q.done, fault := words }, ctx := { g.ctx with slices := sl } }

/-- Write-back of loaded values (R47, R258, R389): a bound trap is left to be taken, a poisoned read to be acted on. -/
def State.writeBack (s : State) (core frame : Nat) (op : MemOp) (f : MemForm) (vals : List Nat)
    (poison : Option (Nat × Mask × Nat)) : State :=
  let s := s.endOp core frame op true
  match s.group core frame with
  | none => s
  | some g =>
    match poison with
    | some (sub, m, addr) =>
      s.setGroup core frame { g with poisoned := some ({ opTrap op 20 sub m addr with lanes := m }, op.id, op.snap) }
    | none =>
      let put := fun (c : Ctx) => c.write (s.boundsOf g) (f.dstRegs.length == 2) f.dst .gen f.fmt (op.hints.bnd.getD 0) op.wmask
          (fun l => placeLoaded f (vals.getD l 0))
      match put g.ctx with
      | .ok c =>
        let ops := g.ops.map (fun o => if op.id < o.id then { o with snap := o.snap.map (fun k => (put k).toOption.getD k) } else o)
        s.setGroup core frame { g with ctx := c, ops := ops, cache := touchCache c f.dstRegs g.cache }
      | .error m => s.setGroup core frame { g.failBack op m with relock := if f.lock then some op.pc else none }

/-- Whether the results of an operation pass the bounds of its destination, so that it may act (R83, R378). -/
def State.resultsPass (s : State) (g : Group) (op : MemOp) (f : MemForm) (vals : List Nat) : Bool :=
  match g.ctx.write (s.boundsOf g) (f.dstRegs.length == 2) f.dst .gen f.fmt (op.hints.bnd.getD 0) op.wmask
      (fun l => placeLoaded f (vals.getD l 0)) with
  | .ok _ => true
  | .error _ => false

/-- Whether a crew's access meets poison in global memory or in its own store buffer (R434). -/
def State.crewPoisonAt (s : State) (g : Group) (pa n : Nat) : Bool :=
  s.poisonedAt pa n || (match s.crewOf g with
    | some c => c.bufPoison.any (fun x => meets pa n (x * 32) 32)
    | none => false)

/-- The poison of the tag table that a tlook meets: it reads every tag of its crew (R100, R433; log entry 111). -/
def State.tagPoison (s : State) (g : Group) (m : Mask) : Option (Nat × Mask × Nat) :=
  match s.crewOf g, s.launchOf g with
  | some c, some l =>
    ((List.range (l.lbytes / 1024)).find? (fun k => (s.core c.core).tpoison.contains (c.base / 1024 + k))).map
      (fun k => (1, m, 1024 * k))
  | _, _ => none

/-- The poison that a load or atomic meets: subcause, lanes, sector address (R434, R380). -/
def State.loadPoison (s : State) (core frame : Nat) (g : Group) (f : MemForm) (op : MemOp) : Option (Nat × Mask × Nat) :=
  if f.look then s.tagPoison g op.lanes
  else
    let hit := fun l => match s.opSpot core frame g f op.caps l with
      | some (0, a) => s.crewPoisonAt g a f.size
      | some (c + 1, p) => (s.core c).lpoison.any (fun w => meets p f.size (4 * w) 4)
      | none => false
    let m := maskOf (fun l => hasLane op.lanes l && hit l)
    match lowest m with
    | none => none
    | some l =>
      match s.opSpot core frame g f op.caps l with
      | some (0, a) => some (0, m, a / 32 * 32)
      | some (_, p) => some (1, m, p)
      | none => none

/-- A load performed for all its lanes (R262, R264, R265, R266). -/
def State.performLoad (s : State) (core frame : Nat) (g : Group) (op : MemOp) (f : MemForm) : State :=
  if f.look then
    s.writeBack core frame op f (lanes32.map (fun l => s.lookup g (capWide op.caps 0 l))) (s.loadPoison core frame g f op)
  else
    let s := if f.global && (f.acq.map Scope_wide).getD false then s.clearL1 core else s
    let pois := s.loadPoison core frame g f op
    let val := fun l =>
      if hasLane op.lanes l then
        match s.opSpot core frame g f op.caps l with
        | some (0, a) => ofLe (s.viewBytes core g a f.size)
        | some (c + 1, p) => ofLe (s.readLocal c p f.size)
        | none => 0
      else 0
    let vals := lanes32.map val
    let s := if f.global then
        (lanesOf op.lanes).foldl (fun s l => s.fillL1 core (s.transOf core frame g (globalAddr f op.caps l).toNat) f.size) s
      else s
    s.writeBack core frame op f vals pois

/-- The L1s after an atomic (R108): for device scope and wider it was executed at a memory die, which counts it (R450), and every
copy is recalled; below, its own core's is updated. -/
def State.atomL1 (s : State) (core pa : Nat) (wide : Bool) (bs : List Byte) : State :=
  if wide then (s.countMem (pa / 2 ^ 37) 4 1).recall [lineOf pa]
  else s.modCore core (fun c => { c with l1 := writeL1 c.l1 pa bs })

/-- One lane's read-modify-write on memory: the old value and the state after it (R270). -/
def State.atomLane (s : State) (core pa : Nat) (wide : Bool) (op : AOp) (size : Nat) (sgn : Bool) (v nw : Nat) :
    Nat × State :=
  let old := ofLe (s.readMem pa size)
  match rmw op size sgn old v nw with
  | some x => (old, (s.perform pa (leBytes x size)).atomL1 core pa wide (leBytes x size))
  | none => (old, s.atomL1 core pa wide (leBytes old size))

/-- Whether an atomic executes at a memory die: device scope or wider, or a span or system page (R108, R271). -/
def State.atomWide (s : State) (g : Group) (f : MemForm) (va : Nat) : Bool :=
  Scope_dev f.scope || s.scopeAt (s.aspaceOf g) va != 0

/-- A returning atomic performed in ascending lane order (R270); a result of the speculation buffer stands for the access
(R346). Where its results fail a trap-mode bound, memory stays as it was (R83, R378). -/
def State.performAtom (s : State) (core frame : Nat) (g : Group) (op : MemOp) (f : MemForm) (a : AOp) : State :=
  let s := if (f.acq.map Scope_wide).getD false then s.clearL1 core else s
  let pois := s.loadPoison core frame g f op
  if pois.isSome then s.writeBack core frame op f [] pois
  else
    match op.spec with
    | some bs => s.writeBack core frame op f (lanes32.map (fun l => fieldAt bs (f.size * l) f.size)) none
    | none =>
    let (t, vals) := (lanesOf op.lanes).foldl (fun (acc : State × List Nat) l =>
      let (s, vals) := acc
      let va := (globalAddr f op.caps l).toNat
      let pa := s.transOf core frame g va
      let (old, s) := s.atomLane core pa (s.atomWide g f va) a f.size f.sgn (dataOf f op.outs l) (casNew f op.outs l)
      (s, lset vals l old)) (s, List.replicate 32 0)
    (if s.resultsPass g op f vals then t else s).writeBack core frame op f vals none

/-- The operation of red as a buffer entry. -/
def redOf (i : Instr) : Option (RedOp × IntTy) :=
  match i with
  | .red o _ _ _ _ t => some (o, t)
  | _ => none

/-- The poison that a store, red or stul consumes: a red that goes to its sector and a stul do, a plain store does not; a red
on its way into a buffer reaches no sector yet (R434; log entry 112). -/
def State.storePoison (s : State) (core frame : Nat) (g : Group) (f : MemForm) (op : MemOp) : Option (Nat × Mask × Nat) :=
  if f.lock || (f.atom.isSome && f.use != some .quan && !(s.crewOf g).any Crew.relaunchable) then
    s.loadPoison core frame g f op
  else none

/-- A store, red or stul acts, in ascending lane order (R127, R262 to R265, R270). Adds of .comm use are merged with none
(R127; DESIGN CHOICE, log entry 113). -/
def State.storeLanes (s : State) (core frame : Nat) (g : Group) (op : MemOp) (f : MemForm) : State :=
  let s := (lanesOf op.lanes).foldl (fun (s : State) l =>
    match s.opSpot core frame g f op.caps l with
    | none => s
    | some (0, pa) =>
      let va := (globalAddr f op.caps l).toNat
      match redOf op.ins with
      | none =>
        if g.inHandler && inWindow va 1 then s.performFrom core pa (leBytes (dataOf f op.outs l) f.size)
        else s.sendGlobal g.crew core (.bytes (ocells pa (leBytes (dataOf f op.outs l) f.size))) (op.gen, va)
      | some (o, t) =>
        if f.use = some .quan then
          s.quanAdd core g.crew pa t (dataOf f op.outs l) op.quantum.toNat ⟨frame, op.pc, op.word, 1#32 <<< l⟩ (op.gen, va)
        else if (s.crewOf g).any Crew.relaunchable then
          s.sendGlobal g.crew core (.red pa o t (BitVec.ofNat 64 (dataOf f op.outs l)) ⟨frame, op.pc, op.word, 1#32 <<< l⟩) (op.gen, va)
        else (s.atomLane core pa (s.atomWide g f va) (redOp o) f.size f.sgn (dataOf f op.outs l) 0).2
    | some (c + 1, p) => s.writeLocal c p (leBytes (dataOf f op.outs l) f.size)) s
  let s := if f.lock then
      let bits := (lanesOf op.lanes).filterMap (fun l => match s.opSpot core frame g f op.caps l with
        | some (_, p) => some (lockBit p)
        | none => none)
      s.modCore core (fun c => { c with locks := c.locks.filter (fun b => !(b.2 == frame && bits.contains b.1)) })
    else s
  (s.endOp core frame op false).modGroup core frame (fun g =>
    { g with ctx := { g.ctx with bflag := addEvents g.ctx.bflag op.events } })

/-- A store, red or stul performed; one that meets poison writes nothing, and its group consumes it (R379, R434). -/
def State.performStore (s : State) (core frame : Nat) (g : Group) (op : MemOp) (f : MemForm) : State :=
  match s.storePoison core frame g f op with
  | none => s.storeLanes core frame g op f
  | some (sub, m, addr) =>
    (s.endOp core frame op false).modGroup core frame (fun g =>
      { g with poisoned := some ({ opTrap op 20 sub m addr with lanes := m }, op.id, op.snap) })

/-- An operation performed. -/
def State.performOp (s : State) (core frame : Nat) (g : Group) (op : MemOp) : State :=
  match memForm op.ins with
  | none => s.modGroup core frame (fun g => { g with ops := g.ops.filter (fun o => o.id != op.id) })
  | some f =>
    if f.load then
      match f.atom with
      | some a => s.performAtom core frame g op f a
      | none => s.performLoad core frame g op f
    else s.performStore core frame g op f

/-! ### Operations that must be performed now (R377, R390) -/

/-- Whether an operation carries a generation: not a local access, nor one of the frame window (R91). -/
def carriesGen (g : Group) (op : MemOp) : Bool :=
  match memForm op.ins with
  | some f => f.global && !(g.inHandler && (lanesOf op.lanes).all (fun l => inWindow (globalAddr f op.caps l).toNat 1))
  | none => false

/-- Whether an operation's generation is current. -/
def State.genOk (s : State) (g : Group) (op : MemOp) : Bool :=
  !carriesGen g op || op.gen == (s.space (s.aspaceOf g)).gen

/-- An operation rejected for its generation (R91). -/
def State.rejectOp (s : State) (core frame : Nat) (g : Group) (op : MemOp) : State :=
  let va := match memForm op.ins, lowest op.lanes with
    | some f, some l => (globalAddr f op.caps l).toNat
    | _, _ => 0
  s.rejectGen g.crew va (s.transOf core frame g va) op.gen core g.wid

/-- An operation performed out of its turn, or rejected for its generation; a release takes the threshold flushes of its
lanes with it (R91, R128). -/
def State.forceOp (s : State) (core frame : Nat) (op : MemOp) : State :=
  match s.group core frame with
  | none => s
  | some g =>
    if s.genOk g op then
      let s := match memForm op.ins with
        | some f => if f.rel.isSome then
            s.flushWhere core (fun e => e.threshold && e.made.frame == frame && e.made.lanes &&& op.lanes != 0) else s
        | none => s
      s.performOp core frame g op
    else s.rejectOp core frame g op

/-- The stores of a core that have reached its L1 and no memory die yet, with their frames (R124). -/
def State.earlyOps (s : State) (core : Nat) : List (Nat × MemOp) :=
  ((s.groupsOn core).map (fun p => (p.2.ops.filter MemOp.early).map (fun o => (p.1, o)))).flatten

/-- Numbers of the scopes, as their codes order them (R117). -/
def scopeRank : Scope → Nat
  | .grp => 0 | .crew => 1 | .coh => 2 | .dev => 3 | .span => 4 | .sys => 5

/-- Whether an operation is ordered before a release of a scope: a relaxed atomic with a declared use is not, but a
.comm one whose scope the release covers, and a .quan one on its way into the quantum buffer before one of device scope or
wider (R126, R128). -/
def orderedBefore (op : MemOp) (c : Scope) : Bool :=
  match memForm op.ins with
  | some f =>
    match f.use with
    | none => true
    | some .comm => scopeRank f.scope ≤ scopeRank c
    | some .quan => Scope_dev c
    | some _ => false
  | none => true

/-- Whether something that an early commit orders before it is still to be performed: an access of the crew's lanes that issued
before number `below`, a threshold flush, a store that its lanes may have read from their core before it reached memory (R125,
R436). -/
def State.commitWaits (s : State) (n core below : Nat) : Bool :=
  (s.crew n).any Crew.relaunchable
  && (!(s.earlyOps core).isEmpty || (s.core core).qbuf.any (fun e => e.threshold && e.crew == n)
    || s.groups.any (fun p => p.2.crew == n && p.2.ops.any (fun o => decide (o.id < below) && orderedBefore o .sys)))

/-- The same for a flush of the quantum buffer: it waits for no release, which may itself wait for a flush, and for nothing
behind one (R128). -/
def State.flushWaits (s : State) (n core : Nat) : Bool :=
  (s.crew n).any Crew.relaunchable
  && (!(s.earlyOps core).isEmpty || s.groups.any (fun p => p.2.crew == n &&
    (p.2.ops.takeWhile (fun o => (memForm o.ins).all (fun f => f.rel.isNone))).any (fun o => orderedBefore o .sys)))

/-- A performance that would commit a crew's stores early waits for what the commit orders before it (R125, R436). -/
def State.orWait (s t : State) (n : Nat) (waits : Bool) : State :=
  if waits && !(t.crew n).any Crew.relaunchable then s else t

/-- They are performed: what another lane of the core may have seen stands before anything that follows it (R120, R124). -/
def State.performEarly (s : State) (core : Nat) : State :=
  (s.earlyOps core).foldl (fun s e => s.forceOp core e.1 e.2) s

/-- The oldest operations of a group performed, `n` of them, in order. -/
def State.performOldest (s : State) (core frame : Nat) : Nat → State
  | 0 => s
  | n + 1 =>
    match s.group core frame with
    | none => s
    | some g =>
      match g.ops with
      | [] => s
      | op :: _ => (s.forceOp core frame op).performOldest core frame n

/-- Every operation that a group has issued performed, in order, behind the early stores of its core (R464, R377). -/
def State.performAll (s : State) (core frame : Nat) : State :=
  let s := s.performEarly core
  match s.group core frame with
  | some g => s.performOldest core frame g.ops.length
  | none => s

end Sys2Proof.Machine
end

