-- ==== Sys2Proof/Machine/Ops.lean ====
section
/-! DEFINITION. Taking an exception and the return from one, once for every instruction (R377 to R389), and a gang's
advance to its next instruction (R18). -/

namespace Sys2Proof.Machine

/-! ### Withdrawing what has issued and is not performed (R377, R383) -/

/-- A replay entry put in issue order. -/
def insertReplay (r : Replay) : List Replay → List Replay
  | [] => [r]
  | x :: xs => if r.op.id ≤ x.op.id then r :: x :: xs else x :: insertReplay r xs

/-- Replay entries in issue order. -/
def sortReplay : List Replay → List Replay
  | [] => []
  | r :: rs => insertReplay r (sortReplay rs)

/-- The entries that a trap or a swap moves into the replay part: un-sent memory instructions, requests not granted and
drains not performed (R377, R383, R390). -/
def State.heldEntries (s : State) (core frame : Nat) (g : Group) (withdrawn : Bool) : List Replay :=
  let k := s.cluster (clusterOf core)
  sortReplay (
    g.ops.map (fun op => ⟨op, true, withdrawn, none, false⟩)
    ++ (k.table.filter (fun r => r.core == core && r.frame == frame)).map
      (fun r => ⟨r.op, true, withdrawn, some ⟨r.age, r.window, r.quarter, 0, .rn⟩, false⟩)
    ++ (k.drains.filter (fun d => d.core == core && d.frame == frame)).map
      (fun d => ⟨d.op, true, withdrawn, some ⟨0, 0, d.quarter, d.seed, d.rnd⟩, false⟩))

/-- Their removal from the core and the cluster. -/
def State.dropHeld (s : State) (core frame : Nat) : State :=
  let s := s.modCluster (clusterOf core) (fun k =>
    { k with table := k.table.filter (fun r => !(r.core == core && r.frame == frame)),
             drains := k.drains.filter (fun d => !(d.core == core && d.frame == frame)) })
  s.modGroup core frame (fun g => { g with ops := [] })

/-- Whether a granted pass still runs for a group: it runs to completion before a frame is written (R377). -/
def State.passRuns (s : State) (core frame : Nat) : Bool :=
  match (s.cluster (clusterOf core)).pass with
  | some p => p.reqs.any (fun r => r.core == core && r.frame == frame && r.killed.isNone)
  | none => false

/-! ### The frame (R381 to R384) -/

/-- The offset of the replay part: behind the bench part's place (R382; log entry 11). -/
def State.replayOff (s : State) (core frame : Nat) (g : Group) (c : Ctx) : Nat :=
  256 + (s.saveInfo core frame g c (2 ^ 56, 0) false true).total

/-- The trap record, fixed part and register part of a group's frame. -/
def State.frameHead (s : State) (core frame : Nat) (g : Group) (t : TrapInfo) (benchesOut : Bool) : List Byte :=
  let seq := match s.launchOf g with
    | some l => l.seq
    | none => 0
  recordBytes t g.inHandler benchesOut (s.replayOff core frame g g.ctx) seq g.wid s.time
    ++ s.saveHead core frame g g.ctx (t.pc, t.lanes) false (!benchesOut)

/-- A frame written: its head, its bench part where it has one, and its replay part (R384 steps 2 and 4). A
line of the frame that the core's L1 still holds stays there (DESIGN CHOICE, log entry 136). -/
def State.writeFrame (s : State) (core frame : Nat) (head benches : List Byte) (rs : List Replay) : State :=
  let base := s.frameAddr core frame
  let s := s.perform base head
  let s := if benches.isEmpty then s else s.perform (base + head.length) benches
  s.perform (base + fieldAt head 0x1C 4) (replayPart rs)

/-! ### Taking a trap (R384, R385) -/

/-- The park-ring cause of a trap cause (R375, R380). -/
def parkCode (cause : Nat) : Nat := if 32 ≤ cause && cause ≤ 36 then cause - 30 else 1

/-- Whether the handler of a launch takes a trap (R384 step 3, R385). -/
def handlerFor (l : Option Launch) (cause need : Nat) : Option Nat :=
  match l with
  | some x =>
    match x.trapOff with
    | some off => if cause = 7 || cause = 20 || 32 ≤ cause || need < 6 then none else some (x.code + 512 + off)
    | none => none
  | none => none

/-- The context in which the handler starts (R385). -/
def handlerCtx (c : Ctx) (pc cause sub : Nat) : Ctx :=
  let first := (c.liveSlices.head?).getD 0
  let sl := c.slices.mapIdx (fun i x =>
    { x with pc := pc, cur := sliceBits c.live i, stack := [], hints := .none, gang := first,
             fin := sliceBits c.live i == 0, arrCrew := false, arrCoh := false, wait := .run, since := 0,
             xir := none, quarters := 0 })
  let c := { c with slices := sl }
  ((c.setReg 2 ⟨.uniform (BitVec.ofNat 32 Config.frameVa), .n64, 0, 0⟩).setReg 3
      ⟨.uniform (BitVec.ofNat 32 (Config.frameVa / 2 ^ 32)), .n64, 0, 0⟩).setReg 4
    ⟨.uniform (BitVec.ofNat 32 (cause + sub * 2 ^ 16)), .n32, 0, 0⟩

/-- A slice of a context that comes back, without the lanes that have exited since; without a lane it goes on by R17. -/
def Slice.keepLive (live : BitVec 4) (x : Slice) : Slice :=
  if x.fin || x.cur &&& live == x.cur then x
  else if x.cur &&& live == 0 then unwind live { x with hints := .none, xir := none, quarters := 0, wait := .run } x.stack
  else { x with cur := x.cur &&& live }

/-- A trapped context without the lanes that have exited in handler mode: none becomes live again (R9, R309). -/
def Ctx.keepLive (c : Ctx) (live : Mask) : Ctx :=
  let l := c.live &&& live
  if l = c.live then c else { c with live := l, slices := c.slices.mapIdx (fun i x => x.keepLive (sliceBits l i)) }

/-- A group in handler mode parked with cause 34, 35 or 36: the handler's live state is discarded and the frame of the
first trap stands (R382, R385). -/
def State.parkHandler (s : State) (core frame cause : Nat) : State :=
  let s := s.performAll core frame
  s.modGroup core frame (fun g =>
    match g.handler with
    | none => { g with status := .parked, wait := .none, park := some (parkCode cause), due := none, replay := [] }
    | some t =>
      { g with ctx := t.ctx.keepLive g.ctx.live, cache := keptCache t.ctx g.cache, ld := g.ld + t.ld, st := g.st + t.st, cp := g.cp + t.cp, tl := g.tl + t.tl,
               openOps := t.openOps ++ g.openOps, batches := t.batches ++ g.batches,
               handler := some { t with ld := 0, st := 0, cp := 0, tl := 0, openOps := [], batches := [] },
               inHandler := false, status := .parked, wait := .none, park := some (parkCode cause), due := none,
               replay := [], specs := [], ahead := none, tokenWait := 0 })

/-- The group after its frame is written: the handler runs, or the group parks (R384 steps 3 and 4). -/
def trapGroup (g : Group) (t : TrapInfo) (entry : Option Nat) (head : List Byte) (rs : List Replay) (since : Nat) :
    Group :=
  let base : Trapped :=
    { ctx := g.ctx, replay := rs, image := head, benches := entry.isNone, info := t, shown := g.ctx.shown t.pc t.lanes, ld := 0, st := 0, cp := 0, tl := 0,
      openOps := [], batches := [], since := since }
  let g := { g with ops := [], replay := [], due := none, specs := [], ahead := none, wait := .none, pages := [],
                    held := [] }
  match entry with
  | some pc =>
    let c := handlerCtx g.ctx pc t.cause t.sub
    { g with ctx := c, cache := keptCache c g.cache, status := .ready, inHandler := true,
             handler := some { base with ld := g.ld, st := g.st, cp := g.cp, tl := g.tl,
                                         openOps := g.openOps, batches := g.batches },
             ld := 0, st := 0, cp := 0, tl := 0, openOps := [], batches := [] }
  | none => { g with status := .parked, tokenWait := 0, handler := some base, park := some (parkCode t.cause) }

/-- The error-log entry of a group's event (R440). -/
def State.groupLog (s : State) (core : Nat) (g : Group) (kind sub addr : Nat) : LogEntry :=
  let l := s.launchOf g
  { kind := kind, sub := sub, aspace := s.aspaceOf g, addr := addr,
    queue := (match l with
      | some x => x.queue
      | none => 0),
    seq := (match l with
      | some x => x.seq
      | none => 0), wid := g.wid.toNat, where_ := core }

/-- A park with cause 32 or 33 in handler mode (R382): a new trap record stands over the first trap's save area, and the
group keeps the handler's context in its slot (log entry 13). -/
def State.parkInHandler (s : State) (core frame : Nat) (t : TrapInfo) : State :=
  let s := s.performAll core frame
  match s.group core frame with
  | none => s
  | some g =>
    match g.handler with
    | none => s
    | some h =>
      let seq := match s.launchOf g with
        | some l => l.seq
        | none => 0
      let rec_ := recordBytes t true (!h.benches) (fieldAt h.image 0x1C 4) seq g.wid s.time
      (s.perform (s.frameAddr core frame) rec_).setGroup core frame
        { g with handler := some { h with image := rec_ ++ h.image.drop 256, info := t }, status := .parked, wait := .none,
                 park := some (parkCode t.cause), tokenWait := 0 }

/-- The teardown that a working-set violation brings (R93, R440). -/
def State.wsTeardown (s : State) (core : Nat) (g : Group) (addr : Nat) : State :=
  match s.launchOf g with
  | some l => (s.log (s.groupLog core g 5 0 addr)).teardown l.queue 12 l.seq
  | none => s

/-- The frame of a trap and what follows it, once nothing of the group runs (R384 steps 2 to 4): causes 7 and 20 start no
handler; 7 tears the queue down, 20 is followed by the kill of UNCORRECTABLE_CONSUMED. -/
def State.trapNow (s : State) (core frame : Nat) (t : TrapInfo) : State :=
  let s := s.performEarly core
  match s.group core frame with
  | none => s
  | some g =>
    let rs := s.heldEntries core frame g false ++ g.replay
    let s := s.dropHeld core frame
    let entry := handlerFor (s.launchOf g) t.cause g.ctx.need
    let head := s.frameHead core frame g t entry.isSome
    let s := s.writeFrame core frame head (if entry.isSome then [] else benchPart (allBenches (s.core core) frame g)) rs
    let (id, s) := s.newId
    let s := s.setGroup core frame (trapGroup g t entry head rs id)
    if t.cause = 7 then s.wsTeardown core g t.addr else s

/-- Taking a trap: the one operation of every exception (R154, R377, R384, R385). A live attempt ends first. In handler mode
the group parks with cause 35, or with the cause of its park. Otherwise the trap is due until no granted pass runs for the
group; then its frame is written. -/
def State.takeTrap (s : State) (core frame : Nat) (t : TrapInfo) : State :=
  let s := s.modGroup core frame (fun g => g.abort 8 true)
  match s.group core frame with
  | none => s
  | some g =>
    if g.inHandler && (t.cause = 32 || t.cause = 33) then s.parkInHandler core frame t
    else if g.inHandler && t.cause = 7 then (s.parkHandler core frame 35).wsTeardown core g t.addr
    else if g.inHandler && t.cause ≠ 20 then s.parkHandler core frame 35
    else if s.passRuns core frame then s.setGroup core frame { g with due := some t }
    else s.trapNow core frame t

/-! ### Returning (R387, R388) -/

/-- The counters that invalid replay entries release (R388). -/
def releaseInvalid (g : Group) (rs : List Replay) : Group :=
  rs.foldl (fun g r =>
    if r.valid then g
    else
      match r.req with
      | some _ => { g with tl := g.tl - 1 }
      | none =>
        match memForm r.op.ins with
        | some f => if f.load then { g with ld := g.ld - 1 } else { g with st := g.st - 1 }
        | none => { g with tl := g.tl - 1 }) g

/-- Gangs after an edit of PCs (R387): slices of one gang whose PCs differ part (R18). -/
def partEdited (sl : List Slice) : List Slice :=
  sl.map (fun x =>
    let same := fun j => match sl[j]? with
      | some y => y.gang == x.gang && y.pc == x.pc && y.fin == x.fin
      | none => false
    { x with gang := ((List.range 8).find? same).getD x.gang })

/-- The group after a return: the frame's context, the live counters, and the valid entries to re-inject. -/
def resumeGroup (g : Group) (t : Trapped) (c : Ctx) (rs : List Replay) : Group :=
  let g := { g with ctx := { c with slices := partEdited c.slices }, inHandler := false, handler := none, status := .ready, wait := .none, park := none,
                    ld := g.ld + t.ld, st := g.st + t.st, cp := g.cp + t.cp, tl := g.tl + t.tl,
                    openOps := t.openOps ++ g.openOps, batches := t.batches ++ g.batches,
                    relock := g.relock.bind (fun pc => if c.slices.any (fun x => x.pc == pc) then some pc else none),
                    replay := (rs.filter Replay.valid).map (fun r => { r with check := true }), specs := [],
                    cache := keptCache c g.cache }
  releaseInvalid g rs

/-- The return from an exception: the frame as it stands is checked and taken; a frame that breaks R387 parks the group
with cause 34 (R387, R388). -/
def State.resume (s : State) (core frame : Nat) : State :=
  match s.group core frame with
  | none => s
  | some g =>
    match g.handler with
    | none => s.modGroup core frame (fun g => { g with status := .ready, wait := .none, park := none })
    | some t =>
      let rd := fun off n => s.readMem (s.frameAddr core frame + off) n
      let bb := if t.benches then benchPart (allBenches (s.core core) frame g) else []
      match readFrame rd t bb (s.features.testBit 13) with
      | some (c, rs) => s.setGroup core frame (resumeGroup g t (c.keepLive g.ctx.live) rs)
      | none => s.parkHandler core frame 34

end Sys2Proof.Machine
end

