-- ==== Sys2Proof/Machine/Operands.lean ====
section
/-! DEFINITION. Operands of instruction words: classes of format codes, mask operands, immediates and hints, what an
issuing word sees, and how a register result is written (R44 to R52, R175 to R184, R211). -/

namespace Sys2Proof.Machine

/-- Classes of source format codes (R211) and the other ways an entry names its codes. -/
inductive Cls | t32 | s32 | n32 | t64 | s64 | n64 | any | is (f : Fmt)
  deriving DecidableEq, Repr

/-- Whether a source of a class is a pair. -/
def Cls.wide : Cls → Bool
  | .t64 | .s64 | .n64 => true
  | .is f => f.isWide
  | _ => false

/-- Whether a class accepts a code; b32 stands in every integer source (R49, R211). -/
def Cls.accepts : Cls → Fmt → Bool
  | .t32, f => match f with
    | .s8 | .s16 | .s32 | .n8 | .n16 | .n32 | .b32 => true
    | _ => false
  | .s32, f => match f with
    | .s8 | .s16 | .s32 | .b32 => true
    | _ => false
  | .n32, f => match f with
    | .n8 | .n16 | .n32 | .b32 => true
    | _ => false
  | .t64, f => match f with
    | .s64 | .n64 | .b32 => true
    | _ => false
  | .s64, f => match f with
    | .s64 | .b32 => true
    | _ => false
  | .n64, f => match f with
    | .n64 | .b32 => true
    | _ => false
  | .any, _ => true
  | .is x, f => x == f

/-- Widen (R211). -/
def widen : Fmt → Fmt
  | .s8 | .s16 | .s32 => .s32
  | .n8 | .n16 | .n32 => .n32
  | f => f

/-- The codes of a source: both halves of a pair must agree (R49). -/
def sourceOk (c : Ctx) (v : Nat) (k : Cls) : Bool :=
  k.accepts (c.reg v).fmt && (!k.wide || (c.reg (v + 1)).fmt == (c.reg v).fmt)

/-- The registers of a source. -/
def sourceRegs (v : Nat) (k : Cls) : List Nat := if k.wide then [v, v + 1] else [v]

/-- What a source reads in lane l, unsigned (R189). -/
def sourceVal (c : Ctx) (v : Nat) (k : Cls) (l : Nat) : Nat :=
  if k.wide then (c.lane64 v l).toNat else (c.lane v l).toNat

/-- What a word sees when it issues. -/
structure Iss where
  core : Nat
  frame : Nat
  g : Group
  act : Mask                  -- Active()
  slices : List Nat
  pc : Nat
  word : Nat
  xir : Bool
  hints : Hints
  bounds : List (Nat × Bound)
  launch : Option Launch
  replayed : Bool := false    -- a replay entry that is re-injected (R388)

/-- Mask(ms) under a pending mask extension; m0 reads as Active() (R52, R183). -/
def Iss.maskOp (x : Iss) (ms : Nat) : Mask :=
  let k := if x.hints.mext then 4 + ms else ms
  if k = 0 then x.act else x.g.ctx.maskAt k

/-- Eff(ms): Active() AND Mask(ms) (R45). -/
def Iss.eff (x : Iss) (ms : Option Nat) : Mask :=
  match ms with
  | some k => x.act &&& x.maskOp k
  | none => x.act

/-- A mask register as a source or condition; m0 reads as Active() (R11, R226). -/
def Iss.maskReg (x : Iss) (k : Nat) : Mask := if k = 0 then x.act else x.g.ctx.maskAt k

/-- The 32-bit immediate: the extended field, or the value of a pending wide immediate (R176, R182). -/
def Iss.imm (x : Iss) (i : Nat) (signed : Bool) : Nat :=
  match x.hints.wide with
  | some e => (e * 2 ^ 12 + i) % 2 ^ 32
  | none => if signed then wrapInt (signExt i 12) 32 else i

/-- The rounding mode in force (R69, R184). -/
def Iss.mode (x : Iss) : Rnd :=
  match x.hints.rnd with
  | some r => r
  | none => (Rnd.ofCode x.g.ctx.round).getD .rn

/-- What the checks of R179 and the gates of issue say of a word. -/
inductive Verdict
  /-- A precise trap: cause, subcause, fault lanes, address. -/
  | trap (cause sub : Nat) (fault : Mask) (addr : Nat)
  /-- The live attempt ends where the word would issue (R140 to R142, R146): cause, persistent. -/
  | abort (cause : Nat) (persist : Bool)
  /-- Held at issue as under an interlock. -/
  | hold
  /-- Held at issue, with what the hold leaves. -/
  | holdAs (effect : State → State)
  /-- Stopped at the probe by staging pages (R94). -/
  | pages (ps : List Nat)
  /-- It takes effect without an issue of its own and without a charge. -/
  | free (effect : State → State)
  /-- It issues at a price, with an effect. -/
  | go (price : Nat) (effect : State → State)

/-- The mask that the trap record of a word names: its effective write mask (R382). -/
def Iss.info (x : Iss) (ms : Option Nat) (cause sub : Nat) (fault : Mask) (addr : Nat) : TrapInfo :=
  ⟨cause, sub, x.pc, x.eff ms, fault, x.word, addr, x.replayed⟩

/-- The trap record of a word: inside xir it names the xir's lanes and the faulting word's (R255, R382). -/
def Iss.record (x : Iss) (ms : Option Nat) (cause sub : Nat) (fault : Mask) (addr : Nat) : TrapInfo :=
  match x.g.ctx.xirOf (x.slices.headD 0) with
  | some q => if x.xir then ⟨cause, sub, x.pc, q.pend ||| q.done, x.act, x.word, addr, x.replayed⟩
    else x.info ms cause sub fault addr
  | none => x.info ms cause sub fault addr

/-- A gang's advance past a word; inside xir the gang stays (R254). -/
def Iss.advance (x : Iss) (c : Ctx) : Ctx :=
  if x.xir then c else { c with slices := stepSlices c.slices x.slices false }

/-- The group's context changed and the gang moved on. -/
def State.onCtx (s : State) (x : Iss) (f : Ctx → Ctx) : State :=
  s.modGroup x.core x.frame (fun g => { g with ctx := x.advance (f g.ctx) })

/-- Write-back of a result with its bound check, then the advance; a trap-mode bound traps (R47, R51, R83, R378). -/
def State.writeResult (s : State) (x : Iss) (ms : Option Nat) (wide : Bool) (d : Nat) (k : ResK) (fmt : Fmt) (ix : Nat)
    (m : Mask) (val : Nat → Word64) : State :=
  match s.group x.core x.frame with
  | none => s
  | some g =>
    match g.ctx.write x.bounds wide d k fmt ix m val with
    | .error bad => s.takeTrap x.core x.frame (x.record ms 10 ix bad 0)
    | .ok c => s.setGroup x.core x.frame { g with ctx := x.advance c }

/-- The bound index of a result (R50): the hint's, else va's when va carries the result's code, else 0. -/
def Iss.resultIndex (x : Iss) (va : Option Nat) (code : Fmt) : Nat :=
  match x.hints.bnd with
  | some i => i
  | none =>
    match va with
    | some v => if (x.g.ctx.reg v).fmt = code then (x.g.ctx.reg v).bound else 0
    | none => 0

/-- The rows of R44 that give affine results. -/
inductive AffRule | none | addSub | mul | shl
  deriving DecidableEq, Repr

/-- The shape of a lane-independent result before R45 (R44). -/
def resultKind (r : AffRule) (shapes : List Shape) : ResK :=
  if shapes.all Shape.isUniform then .uni
  else
    match r, shapes with
    | .addSub, l => if l.all Shape.isCompact then .aff else .gen
    | .mul, [a] => if a.isCompact then .aff else .gen
    | .mul, [a, b] => if a.isCompact && b.isCompact && (a.isUniform || b.isUniform) then .aff else .gen
    | .shl, [a] => if a.isCompact then .aff else .gen
    | .shl, [a, b] => if a.isCompact && b.isUniform then .aff else .gen
    | _, _ => .gen

/-- The shape of a result inside xir: always general (R44, R254). -/
def Iss.kind (x : Iss) (k : ResK) : ResK := if x.xir then .gen else k

/-- The price of a word that has a uniform price (R158). -/
def shapedPrice (price : Nat × Nat) (shapes : List Shape) (live m : Mask) (k : ResK) : Nat :=
  if shapes.all Shape.isCompact && (covers live m && k != .gen) then price.2 else price.1

/-- A lane-independent word: destination, sources with their classes, mask operand, result code, affine rule, prices
(general, uniform), value. -/
structure Alu where
  d : Nat
  wide : Bool := false
  srcs : List (Nat × Cls)
  ms : Option Nat
  code : List Fmt → Fmt
  ok : List Fmt → Bool := fun _ => true
  aff : AffRule := .none
  price : Nat × Nat
  val : Iss → List Nat → Nat

/-- The registers that an Alu word reads and writes. -/
def Alu.regs (a : Alu) : List Nat := (a.srcs.map (fun p => sourceRegs p.1 p.2)).flatten

def Alu.dsts (a : Alu) : List Nat := if a.wide then [a.d, a.d + 1] else [a.d]

/-- The value that an Alu word computes in lane l. -/
def Alu.lane (a : Alu) (x : Iss) (c : Ctx) (l : Nat) : Word64 :=
  BitVec.ofNat 64 (a.val x (a.srcs.map (fun p => sourceVal c p.1 p.2 l)))

/-- The shapes of the sources; a pair counts by both halves. -/
def Alu.shapes (a : Alu) (c : Ctx) : List Shape := a.regs.map (fun v => (c.reg v).shape)

/-- The verdict on an Alu word: format checks, then its price and effect. -/
def Alu.verdict (a : Alu) (x : Iss) : Verdict :=
  let c := x.g.ctx
  let fmts := a.srcs.map (fun p => (c.reg p.1).fmt)
  let code := a.code fmts
  let ix := x.resultIndex (a.srcs.head?.map Prod.fst) code
  let m := x.eff a.ms
  let k := x.kind (resultKind a.aff (a.shapes c))
  if a.srcs.all (fun p => sourceOk c p.1 p.2) && a.ok fmts && boundOk x.bounds ix code then
    .go (shapedPrice a.price (a.shapes c) c.live m k)
      (fun s => s.writeResult x a.ms a.wide a.d k code ix m (a.lane x c))
  else .trap 4 0 0 0

end Sys2Proof.Machine
end

