-- ==== Sys2Proof/Machine/Flags.lean ====
section
/-! DEFINITION. Conditions and the mask bits they give: comparisons (R224, R241), branch conditions (R227) and the
bound-event counter (R57; its arithmetic is `addEvents`). The machine has no other condition flags. -/

namespace Sys2Proof.Machine

/-- A condition of icmp on an order. -/
def cmpHolds (c : CmpCond) (o : Ordering) : Bool :=
  match c with
  | .eq => o == .eq
  | .ne => o != .eq
  | .lt => o == .lt
  | .le => o != .gt
  | .gt => o == .gt
  | .ge => o != .lt

/-- The order of two lane values by the type of icmp (R224). -/
def intOrder (t : IntTy) (a b : Nat) : Ordering :=
  match t with
  | .s32 => compare (signExt a 32) (signExt b 32)
  | .s64 => compare (signExt a 64) (signExt b 64)
  | .n32 | .n64 => compare a b

/-- A condition of fcmp (R241). -/
def fcmpHolds (c : FCond) (a b : Val) : Bool :=
  let un := a.isNan || b.isNan
  match c with
  | .un => un
  | .ord => !un
  | .ne => un || a.cmp b != .eq
  | .eq => !un && a.cmp b == .eq
  | .lt => !un && a.cmp b == .lt
  | .le => !un && a.cmp b != .gt
  | .gt => !un && a.cmp b == .gt
  | .ge => !un && a.cmp b != .lt

/-- The lanes of the active mask that take a branch (R227). -/
def takenLanes (c : BrCond) (act m : Mask) : Mask :=
  match c with
  | .always => act
  | .t => act &&& m
  | .f => act &&& ~~~m
  | .any => if act &&& m != 0 then act else 0
  | .all => if act &&& ~~~m == 0 then act else 0
  | .none => if act &&& m == 0 then act else 0

end Sys2Proof.Machine
end

