-- ==== Sys2Proof/Machine/Issue.lean ====
section
/-! DEFINITION. How an instruction word issues: the order of checks, the gates, the charge and what follows (R139 to
R141, R158, R161 to R163, R179, R181, R209, R210, R254, R255). -/

namespace Sys2Proof.Machine

/-- What the pipeline needs to know of a word. -/
structure Desc where
  srcs : List Nat := []       -- registers read
  dsts : List Nat := []       -- registers written
  ms : Option Nat := none     -- the ms field, where it is the mask operand
  wideOk : Bool := false      -- accepts a pending wide immediate (R201)
  inTx : Bool := true         -- not forbidden in a live attempt (R140)
  inXir : Bool := false       -- legal as a lane's word (R208)
  chuck : Option Nat := none  -- the chuck slot named (R55)
  noHints : Bool := false     -- illegal with any pending hint (R253)
  reads : Option (Iss → Nat → Nat → Mask) := none  -- lanes of a source, by its place in `srcs`, that a lane reads; else its own

/-- The feature bits that gate a word (R209); bit 0 is always set. Bit 1's `atomic fn 2 and 3` is read as the functions that
select the 64-bit types, not as atom.xor and atom.exch of the logic group (DESIGN CHOICE, log entry 98). -/
def gateBits : Instr → List Nat
  | .iadd64 .. | .isub64 .. | .imulLo64 .. | .imulWideS32 .. | .imulWideN32 .. | .iminS64 .. | .iminN64 ..
  | .imaxS64 .. | .imaxN64 .. | .shl64 .. | .shrN64 .. | .shrS64 .. | .popc64 .. | .clz64 .. => [1]
  | .icmp _ _ _ t _ => if IntTy_size t = 8 then [1] else []
  | .fadd _ _ _ _ f | .fsub _ _ _ _ f | .fmul _ _ _ _ f | .fdiv _ _ _ _ f | .fmin _ _ _ _ f | .fmax _ _ _ _ f
  | .fcopysign _ _ _ _ f => if f = .f32 then [] else [2]
  | .fneg _ _ _ f | .fabs _ _ _ f | .fsqrt _ _ _ f | .frcp _ _ _ f | .frsq _ _ _ f | .ffloor _ _ _ f | .fceil _ _ _ f
  | .ftrunc _ _ _ f | .frint _ _ _ f => if f = .f32 then [] else [2]
  | .fexp2 _ _ _ f | .flog2 _ _ _ f | .fsin _ _ _ f | .fcos _ _ _ f | .ftanh _ _ _ f | .fsigm _ _ _ f =>
    if f = .f32 then [3] else [2, 3]
  | .ffmaF16x2 .. | .ffmaBf16x2 .. => [2]
  | .fcmp _ _ _ t _ => if t = .f32 then [] else [2]
  | .ballot .. | .bcast .. | .xchg .. | .shfl .. | .scan .. | .scanx .. => [4]
  | .xir .. => [5]
  | .txb .. | .txo .. | .txc | .txr | .txe => [6]
  | .ldG _ _ _ _ c _ | .stG _ _ _ _ c _ => if c = some .span || c = some .sys then [15] else []
  | .fenceAcq c | .fenceRel c | .fenceAr c => if c = .span || c = .sys then [15] else []
  | .atomAdd _ _ _ s _ t | .atomMin _ _ _ s _ t | .atomMax _ _ _ s _ t | .atomLd _ _ s _ t =>
    (if IntTy_size t = 8 then [1] else []) ++ (if s = .span || s = .sys then [15] else [])
  | .atomAnd _ _ _ s _ | .atomOr _ _ _ s _ | .atomXor _ _ _ s _ | .atomExch _ _ _ s _ =>
    if s = .span || s = .sys then [15] else []
  | .atomCas _ _ _ s _ t => (if t = .n64 then [1] else []) ++ (if s = .span || s = .sys then [15] else [])
  | .atomFadd _ _ _ s _ | .atomFmin _ _ _ s _ | .atomFmax _ _ _ s _ =>
    [8] ++ (if s = .span || s = .sys then [15] else [])
  | .red o _ _ s u t =>
    (if IntTy_size t = 8 then [1] else []) ++ (if u = .quan then [7] else [])
      ++ (if o = .fadd || o = .fmin || o = .fmax then [8] else []) ++ (if s = .span || s = .sys then [15] else [])
  | .mmq _ _ _ _ f | .mmqByp _ _ _ _ f | .mdrainByp _ _ _ f =>
    match f with
    | .ta8 | .e4m3 | .s8 => [9]
    | .ta6 => [10]
    | .bf16 | .f16 => [11]
  | .mdrain _ _ _ f =>
    match f with
    | .ta8 | .e4m3 | .s8 | .f32 => [9]
    | .ta6 => [10]
    | .bf16 | .f16 => [11]
  | .mgld .. | .mscan .. | .mdrainState .. => [12]
  | .macq _ _ _ f => if f then [12] else [9]
  | .mrel _ => [9]
  | .hintRnd r => if r = .rs then [13] else []
  | .rgnOpen .. | .rgnClose .. => [14]
  | _ => []

/-- Whether the device implements a word (R209, R210). -/
def State.implements (s : State) (i : Instr) : Bool := (gateBits i).all (fun b => s.features.testBit b)

/-- What a word sees: the pending hints are those of the gang's slices, none inside xir (R181). -/
def State.issOf (s : State) (c : Cur) (g : Group) : Iss :=
  { core := c.core, frame := c.frame, g := g, act := c.active, slices := c.slices, pc := c.pc, word := c.word,
    xir := c.xir,
    hints := if c.xir then .none else
      match g.ctx.slices[c.slices.headD 0]? with
      | some sl => sl.hints
      | none => .none,
    bounds := s.boundsOf g, launch := s.launchOf g }

/-- The registers whose write-back is pending: destinations of operations in flight (R47, R337). -/
def pendingRegs (g : Group) : List Nat :=
  (g.ops.map (fun op => match memForm op.ins with
    | some f => f.dstRegs
    | none => [])).flatten

/-- An operation in flight whose destination carries a trap-mode bound holds its group's issue (R378). -/
def boundPending (g : Group) (bounds : List (Nat × Bound)) : Bool :=
  g.ops.any (fun op => match memForm op.ins with
    | some f => f.load && (match boundOf bounds (op.hints.bnd.getD 0) with
        | some b => b.mode == .trap
        | none => false)
    | none => false)

/-- Whether the register interlock holds a word (R337, R378). -/
def interlocked (x : Iss) (regs : List Nat) : Bool :=
  let p := pendingRegs x.g
  regs.any (fun v => p.contains v) || boundPending x.g x.bounds

/-- Whether a word is illegal: its own form, a missing feature, a pending hint it may not take, or its place (R179 step
1, R181, R208 to R210). -/
def State.illegal (s : State) (x : Iss) (i : Instr) (d : Desc) : Bool :=
  !i.wf || !s.implements i || (x.hints.wide.isSome && !d.wideOk) || (x.hints.mext && d.ms.isNone)
    || (d.noHints && x.hints != .none) || (x.xir && !d.inXir)

/-- The chuck slots of a group's cohort (R55). -/
def Iss.chuckCount (x : Iss) : Nat :=
  match x.launch with
  | some l => l.chuck
  | none => 0

/-- The checks of R179 in order, then the word's own (R140, R179, R337). That a word forbidden in a live attempt which is
also illegal is illegal first is a DESIGN CHOICE (log entry 131). -/
def State.gate (s : State) (x : Iss) (i : Instr) (d : Desc) (own : Iss → Verdict) : Verdict :=
  if s.illegal x i d then .trap 1 0 0 0
  else if x.g.tx.isSome && !d.inTx then .abort 6 true
  else if (d.srcs ++ d.dsts).any (fun v => x.g.ctx.need ≤ v) then .trap 2 0 0 0
  else if d.chuck.any (fun k => x.chuckCount ≤ k) then .trap 3 0 0 0
  else if interlocked x (d.srcs ++ d.dsts) then .hold
  else own x

/-! ### Charge and bookkeeping -/

/-- Whether the issue condition holds for a price (R162). -/
def State.canPay (s : State) (core price : Nat) : Bool :=
  let cap := s.power.cap
  let lv := (s.core core).level
  if price ≤ cap then price ≤ lv else lv == cap && price - cap ≤ (s.die (dieOf core)).bucket

/-- The group for which a core holds: a hold is over once its group is no longer ready or no longer waits for tokens (R164). -/
def State.holder (s : State) (core : Nat) : Option Nat :=
  (s.core core).hold.filter (fun f => (s.group core f).any (fun g => g.status == .ready && decide (64 ≤ g.tokenWait)))

/-- Whether a word may pay now: no fairness hold stands for another group, and the level suffices (R162, R164). -/
def State.mayPay (s : State) (x : Iss) (price : Nat) : Bool :=
  (s.holder x.core).all (· == x.frame) && s.canPay x.core price

/-- The charge of a price (R161, R162). -/
def State.charge (s : State) (core price : Nat) : State :=
  let cap := s.power.cap
  if price ≤ cap then s.modCore core (fun c => { c with level := c.level - price })
  else (s.modCore core (fun c => { c with level := 0 })).modDie (dieOf core)
    (fun d => { d with bucket := d.bucket - (price - cap) })

/-- The port of a group (R21). -/
def portOf (p : Place) : Nat :=
  match p with
  | .active k | .shadow k => k % 4
  | .frame => 0

/-- What every issue leaves: the token-wait count at 0, the gang served, the port used (R37, R163, R340, R452). -/
def State.markIssued (s : State) (x : Iss) : State :=
  let p := portOf x.g.place
  let s := s.modCore x.core (fun c =>
    { c with ports := p :: c.ports, issued := (p, x.frame, x.pc, x.word) :: c.issued,
             hold := if c.hold = some x.frame then none else c.hold })
  s.modGroup x.core x.frame (fun g =>
    { g with tokenWait := 0, lastGang := x.slices.headD 0, ahead := none,
             relock := if g.relock = some x.pc && !g.inHandler then none else g.relock })

/-- The register cache past a word: the registers it read, and those it wrote unless a load is still to write them (R58). -/
def State.touchRegs (s : State) (x : Iss) (regs : List Nat) : State :=
  s.modGroup x.core x.frame (fun g =>
    { g with cache := touchCache g.ctx (regs.filter (fun v => !(pendingRegs g).contains v)) g.cache })

/-- The xir's progress past a word that issued: its lanes are done; with none pending the gang goes on (R254, R255). -/
def xirDone (c : Ctx) (slices : List Nat) (act : Mask) : Ctx :=
  let lead := slices.headD 0
  match c.xirOf lead with
  | none => c
  | some q =>
    let pend := q.pend &&& ~~~act
    if pend = 0 then { c with slices := stepSlices (setXir c.slices lead none) slices false }
    else { c with slices := setXir c.slices lead (some { q with pend := pend, done := q.done ||| act }) }

/-- The lanes that would read poison: each lane of Eff(ms) reads its own lane of every source, or the lanes that the word
names (R434). -/
def Iss.poisonRead (x : Iss) (d : Desc) : Mask :=
  match d.reads with
  | none => (d.srcs.foldl (fun m v => m ||| (x.g.ctx.reg v).poison) 0) &&& x.eff d.ms
  | some r => maskOf (fun l => hasLane x.act l && d.srcs.zipIdx.any (fun p => (x.g.ctx.reg p.1).poison &&& r x p.2 l != 0))

/-- Poison that a word reads from the register file is consumed: nothing younger has issued (R379, R434). -/
def State.consume (s : State) (x : Iss) (d : Desc) (p : Mask) : State :=
  s.modGroup x.core x.frame (fun g =>
    { g with poisoned := some ({ x.info d.ms 20 2 p 0 with lanes := p }, s.nextId, none) })

/-- A word that has paid: a poisoned source is consumed instead of the effect (R379, R434). -/
def State.runWord (s : State) (x : Iss) (d : Desc) (effect : State → State) : State :=
  let s := s.markIssued x
  let p := x.poisonRead d
  if p ≠ 0 then s.consume x d p
  else
    let s := (effect s).touchRegs x (d.srcs ++ d.dsts)
    if x.xir then
      s.modGroup x.core x.frame (fun g =>
        if g.status == .ready && g.inHandler == x.g.inHandler then { g with ctx := xirDone g.ctx x.slices x.act } else g)
    else s

/-- A group stopped at the probe (R94, R154). -/
def State.parkPages (s : State) (x : Iss) (ps : List Nat) : State :=
  s.modGroup x.core x.frame (fun g =>
    let g := if g.tx.isSome then g.abort 10 false else g
    let lead := x.slices.headD 0
    let sl := setXir g.ctx.slices lead ((g.ctx.xirOf lead).map (fun q => { q with words := [] }))
    { g with status := .parkedPages, pages := ps, waitStart := s.cycle, tokenWait := 0, ctx := { g.ctx with slices := sl } })

/-- The issue condition failed: for lack of tokens, or because the core holds for another group (R163, R164). -/
def State.waitTokens (s : State) (x : Iss) : State :=
  (s.modCore x.core (fun c => { c with short := x.frame :: c.short })).modGroup x.core x.frame (fun g => { g with tokenWait := g.tokenWait + 1 })

/-- What a verdict does. -/
def State.settle (s : State) (x : Iss) (d : Desc) : Verdict → State
  | .trap c sub f a => s.takeTrap x.core x.frame (x.record d.ms c sub f a)
  | .abort c p => s.setGroup x.core x.frame (x.g.abort c p)
  | .hold => s
  | .holdAs effect => effect s
  | .pages ps => s.parkPages x ps
  | .free effect => if x.poisonRead d ≠ 0 then s.consume x d (x.poisonRead d) else effect s
  | .go price effect =>
    if s.mayPay x price then
      (((s.charge x.core price).countCore x.core 0 1).countCore x.core 1 price).runWord x d effect
    else s.waitTokens x

/-- The issue of a word by the group of `State.cur`: every instruction word's meaning is a call of this. -/
def issueWord (i : Instr) (d : Desc) (own : Iss → Verdict) (s : State) : Host.Outcome State Fault Refusal :=
  match s.cur with
  | none => .fault .noIssuer
  | some c =>
    match s.group c.core c.frame with
    | none => .fault .noIssuer
    | some g => .next (s.settle (s.issOf c g) d (s.gate (s.issOf c g) i d own))

/-- The issue of a lane-independent word; every one is legal inside xir (R208). -/
def issueAlu (i : Instr) (wideOk : Bool) (a : Alu) (s : State) : Host.Outcome State Fault Refusal :=
  issueWord i { srcs := a.regs, dsts := a.dsts, ms := a.ms, wideOk := wideOk, inXir := true } a.verdict s

end Sys2Proof.Machine
end

