-- ==== Sys2Proof/Machine/Integer.lean ====
section
/-! DEFINITION. The integer instructions: ialu, the immediate forms, mov and imad (R211 to R218). -/

namespace Sys2Proof.Machine

/-- The code of the first source, widened (R211). -/
def widenFirst (l : List Fmt) : Fmt := widen (l.headD .b32)

/-- A two-source value as a function of the source list. -/
def bin (f : Nat → Nat → Nat) : Iss → List Nat → Nat := fun _ v => f (v.getD 0 0) (v.getD 1 0)

/-- A one-source value as a function of the source list. -/
def una (f : Nat → Nat) : Iss → List Nat → Nat := fun _ v => f (v.getD 0 0)

/-- Two's complement of a value on `n` bits (R212). -/
def sx (n x : Nat) : Int := signExt x n

/-- A clamp to the range of a type, as bits (R74, R212). -/
def satBits (f : Fmt) (n : Nat) (x : Int) : Nat := wrapInt (clampInt x (intRange f).1 (intRange f).2) n

/-- A register operation on single registers (R215). -/
def alu32 (d a b m : Nat) (k : Cls) (code : List Fmt → Fmt) (aff : AffRule) (price : Nat × Nat) (f : Nat → Nat → Nat) :
    Alu :=
  { d := d, srcs := [(a, k), (b, k)], ms := some m, code := code, aff := aff, price := price, val := bin f }

/-- A unary operation on a single register. -/
def alu1 (d a m : Nat) (k : Cls) (code : List Fmt → Fmt) (price : Nat × Nat) (f : Nat → Nat) : Alu :=
  { d := d, srcs := [(a, k)], ms := some m, code := code, price := price, val := una f }

/-- An operation that writes a pair. -/
def alu64 (d a b m : Nat) (k : Cls) (code : List Fmt → Fmt) (price : Nat × Nat) (f : Nat → Nat → Nat) : Alu :=
  { d := d, wide := true, srcs := [(a, k), (b, k)], ms := some m, code := code, price := price, val := bin f }

/-- An immediate form: the register form with b the immediate (R217). -/
def aluImm (d a m i : Nat) (aff : AffRule) (price : Nat × Nat) (f : Nat → Nat → Nat) : Alu :=
  { d := d, srcs := [(a, .t32)], ms := some m, code := widenFirst, aff := aff, price := price,
    val := fun x v => f (v.getD 0 0) (x.imm i true) }

/-- Quotient and remainder of R216, signed. -/
def divS (a b : Nat) : Int × Int :=
  let x := sx 32 a
  let y := sx 32 b
  if y = 0 then (-1, x)
  else if x = -(2 ^ 31) && y = -1 then (-(2 ^ 31), 0)
  else (x.tdiv y, x - y * x.tdiv y)

/-- Quotient and remainder of R216, unsigned. -/
def divN (a b : Nat) : Nat × Nat := if b = 0 then (2 ^ 32 - 1, a) else (a / b, a - b * (a / b))

/-- A constant result code. -/
def always (f : Fmt) : List Fmt → Fmt := fun _ => f

/-- iadd (R215): a + b. -/
def execIadd (d a b m : Nat) (s : State) : Host.Outcome State Fault Refusal :=
  issueAlu (.iadd d a b m) false (alu32 d a b m .t32 widenFirst .addSub (2, 1) (fun a b => a + b)) s

/-- isub (R215): a − b modulo 2^32. -/
def execIsub (d a b m : Nat) (s : State) : Host.Outcome State Fault Refusal :=
  issueAlu (.isub d a b m) false (alu32 d a b m .t32 widenFirst .addSub (2, 1) (fun a b => a + (2 ^ 32 - b))) s

/-- imul.lo (R215). -/
def execImulLo (d a b m : Nat) (s : State) : Host.Outcome State Fault Refusal :=
  issueAlu (.imulLo d a b m) false (alu32 d a b m .t32 widenFirst .mul (4, 2) (fun a b => a * b)) s

/-- imul.hi.s32 (R215). -/
def execImulHiS32 (d a b m : Nat) (s : State) : Host.Outcome State Fault Refusal :=
  issueAlu (.imulHiS32 d a b m) false (alu32 d a b m .s32 (always .s32) .none (4, 2) (fun a b => wrapInt (sx 32 a * sx 32 b) 64 / 2 ^ 32)) s

/-- imul.hi.n32 (R215). -/
def execImulHiN32 (d a b m : Nat) (s : State) : Host.Outcome State Fault Refusal :=
  issueAlu (.imulHiN32 d a b m) false (alu32 d a b m .n32 (always .n32) .none (4, 2) (fun a b => a * b / 2 ^ 32)) s

/-- imin.s32 (R215). -/
def execIminS32 (d a b m : Nat) (s : State) : Host.Outcome State Fault Refusal :=
  issueAlu (.iminS32 d a b m) false (alu32 d a b m .s32 (always .s32) .none (2, 1) (fun a b => if sx 32 a ≤ sx 32 b then a else b)) s

/-- imin.n32 (R215). -/
def execIminN32 (d a b m : Nat) (s : State) : Host.Outcome State Fault Refusal :=
  issueAlu (.iminN32 d a b m) false (alu32 d a b m .n32 (always .n32) .none (2, 1) (fun a b => if a ≤ b then a else b)) s

/-- imax.s32 (R215). -/
def execImaxS32 (d a b m : Nat) (s : State) : Host.Outcome State Fault Refusal :=
  issueAlu (.imaxS32 d a b m) false (alu32 d a b m .s32 (always .s32) .none (2, 1) (fun a b => if sx 32 a ≤ sx 32 b then b else a)) s

/-- imax.n32 (R215). -/
def execImaxN32 (d a b m : Nat) (s : State) : Host.Outcome State Fault Refusal :=
  issueAlu (.imaxN32 d a b m) false (alu32 d a b m .n32 (always .n32) .none (2, 1) (fun a b => if a ≤ b then b else a)) s

/-- iabs.s32 (R215): −2^31 stays 0x80000000. -/
def execIabsS32 (d a m : Nat) (s : State) : Host.Outcome State Fault Refusal :=
  issueAlu (.iabsS32 d a m) false (alu1 d a m .s32 (always .s32) (2, 1) (fun a => (sx 32 a).natAbs)) s

/-- ineg (R215). -/
def execIneg (d a m : Nat) (s : State) : Host.Outcome State Fault Refusal :=
  issueAlu (.ineg d a m) false (alu1 d a m .t32 widenFirst (2, 1) (fun a => 2 ^ 32 - a)) s

/-- idiv.s32 (R216). -/
def execIdivS32 (d a b m : Nat) (s : State) : Host.Outcome State Fault Refusal :=
  issueAlu (.idivS32 d a b m) false (alu32 d a b m .s32 (always .s32) .none (16, 8) (fun a b => wrapInt (divS a b).1 32)) s

/-- idiv.n32 (R216). -/
def execIdivN32 (d a b m : Nat) (s : State) : Host.Outcome State Fault Refusal :=
  issueAlu (.idivN32 d a b m) false (alu32 d a b m .n32 (always .n32) .none (16, 8) (fun a b => (divN a b).1)) s

/-- irem.s32 (R216). -/
def execIremS32 (d a b m : Nat) (s : State) : Host.Outcome State Fault Refusal :=
  issueAlu (.iremS32 d a b m) false (alu32 d a b m .s32 (always .s32) .none (16, 8) (fun a b => wrapInt (divS a b).2 32)) s

/-- irem.n32 (R216). -/
def execIremN32 (d a b m : Nat) (s : State) : Host.Outcome State Fault Refusal :=
  issueAlu (.iremN32 d a b m) false (alu32 d a b m .n32 (always .n32) .none (16, 8) (fun a b => (divN a b).2)) s

/-- iadd.sat.s32 (R215): clamped. -/
def execIaddSatS32 (d a b m : Nat) (s : State) : Host.Outcome State Fault Refusal :=
  issueAlu (.iaddSatS32 d a b m) false (alu32 d a b m .s32 (always .s32) .none (2, 1) (fun a b => satBits .s32 32 (sx 32 a + sx 32 b))) s

/-- iadd.sat.n32 (R215): clamped. -/
def execIaddSatN32 (d a b m : Nat) (s : State) : Host.Outcome State Fault Refusal :=
  issueAlu (.iaddSatN32 d a b m) false (alu32 d a b m .n32 (always .n32) .none (2, 1) (fun a b => satBits .n32 32 ((a : Int) + (b : Int)))) s

/-- isub.sat.s32 (R215): clamped. -/
def execIsubSatS32 (d a b m : Nat) (s : State) : Host.Outcome State Fault Refusal :=
  issueAlu (.isubSatS32 d a b m) false (alu32 d a b m .s32 (always .s32) .none (2, 1) (fun a b => satBits .s32 32 (sx 32 a - sx 32 b))) s

/-- isub.sat.n32 (R215): clamped. -/
def execIsubSatN32 (d a b m : Nat) (s : State) : Host.Outcome State Fault Refusal :=
  issueAlu (.isubSatN32 d a b m) false (alu32 d a b m .n32 (always .n32) .none (2, 1) (fun a b => satBits .n32 32 ((a : Int) - (b : Int)))) s

/-- iadd.64 (R215). -/
def execIadd64 (d a b m : Nat) (s : State) : Host.Outcome State Fault Refusal :=
  issueAlu (.iadd64 d a b m) false (alu64 d a b m .t64 widenFirst (4, 2) (fun a b => a + b)) s

/-- isub.64 (R215). -/
def execIsub64 (d a b m : Nat) (s : State) : Host.Outcome State Fault Refusal :=
  issueAlu (.isub64 d a b m) false (alu64 d a b m .t64 widenFirst (4, 2) (fun a b => a + (2 ^ 64 - b))) s

/-- imul.lo.64 (R215). -/
def execImulLo64 (d a b m : Nat) (s : State) : Host.Outcome State Fault Refusal :=
  issueAlu (.imulLo64 d a b m) false (alu64 d a b m .t64 widenFirst (8, 4) (fun a b => a * b)) s

/-- imul.wide.s32 (R215): single sources, a pair result. -/
def execImulWideS32 (d a b m : Nat) (s : State) : Host.Outcome State Fault Refusal :=
  issueAlu (.imulWideS32 d a b m) false (alu64 d a b m .s32 (always .s64) (8, 4) (fun a b => wrapInt (sx 32 a * sx 32 b) 64)) s

/-- imul.wide.n32 (R215). -/
def execImulWideN32 (d a b m : Nat) (s : State) : Host.Outcome State Fault Refusal :=
  issueAlu (.imulWideN32 d a b m) false (alu64 d a b m .n32 (always .n64) (8, 4) (fun a b => a * b)) s

/-- imin.s64 (R215). -/
def execIminS64 (d a b m : Nat) (s : State) : Host.Outcome State Fault Refusal :=
  issueAlu (.iminS64 d a b m) false (alu64 d a b m .s64 (always .s64) (4, 2) (fun a b => if sx 64 a ≤ sx 64 b then a else b)) s

/-- imin.n64 (R215). -/
def execIminN64 (d a b m : Nat) (s : State) : Host.Outcome State Fault Refusal :=
  issueAlu (.iminN64 d a b m) false (alu64 d a b m .n64 (always .n64) (4, 2) (fun a b => if a ≤ b then a else b)) s

/-- imax.s64 (R215). -/
def execImaxS64 (d a b m : Nat) (s : State) : Host.Outcome State Fault Refusal :=
  issueAlu (.imaxS64 d a b m) false (alu64 d a b m .s64 (always .s64) (4, 2) (fun a b => if sx 64 a ≤ sx 64 b then b else a)) s

/-- imax.n64 (R215). -/
def execImaxN64 (d a b m : Nat) (s : State) : Host.Outcome State Fault Refusal :=
  issueAlu (.imaxN64 d a b m) false (alu64 d a b m .n64 (always .n64) (4, 2) (fun a b => if a ≤ b then b else a)) s

/-- mov (R217): the immediate, code b32, index 0 unless a hint overrides it. -/
def execMov (d m i : Nat) (s : State) : Host.Outcome State Fault Refusal :=
  issueAlu (.mov d m i) true
    { d := d, srcs := [], ms := some m, code := always .b32, price := (2, 1), val := fun x _ => x.imm i true } s

/-- iadd with an immediate (R217). -/
def execIaddImm (d a m i : Nat) (s : State) : Host.Outcome State Fault Refusal :=
  issueAlu (.iaddImm d a m i) true (aluImm d a m i .addSub (2, 1) (fun a b => a + b)) s

/-- imul.lo with an immediate (R217). -/
def execImulLoImm (d a m i : Nat) (s : State) : Host.Outcome State Fault Refusal :=
  issueAlu (.imulLoImm d a m i) true (aluImm d a m i .mul (4, 2) (fun a b => a * b)) s

/-- and with an immediate (R217). -/
def execAndImm (d a m i : Nat) (s : State) : Host.Outcome State Fault Refusal :=
  issueAlu (.andImm d a m i) true (aluImm d a m i .none (2, 1) Nat.land) s

/-- or with an immediate (R217). -/
def execOrImm (d a m i : Nat) (s : State) : Host.Outcome State Fault Refusal :=
  issueAlu (.orImm d a m i) true (aluImm d a m i .none (2, 1) Nat.lor) s

/-- xor with an immediate (R217). -/
def execXorImm (d a m i : Nat) (s : State) : Host.Outcome State Fault Refusal :=
  issueAlu (.xorImm d a m i) true (aluImm d a m i .none (2, 1) Nat.xor) s

/-- imad (R218): a × b + c. -/
def execImad (d a b c m : Nat) (s : State) : Host.Outcome State Fault Refusal :=
  issueAlu (.imad d a b c m) false
    { d := d, srcs := [(a, .t32), (b, .t32), (c, .t32)], ms := some m, code := widenFirst, price := (4, 2),
      val := fun _ v => v.getD 0 0 * v.getD 1 0 + v.getD 2 0 } s

end Sys2Proof.Machine
end

