-- ==== Sys2Proof/Machine/Bits.lean ====
section
/-! DEFINITION. The bit, shift, count, bit-field, compare, select and mask instructions (R219 to R226). -/

namespace Sys2Proof.Machine

/-- Leading zeros of an `n`-bit number. -/
def clzBits (n x : Nat) : Nat := if x = 0 then n else n - 1 - x.log2

/-- Number of 1 bits among the lowest `n` bits. -/
def popBits : Nat → Nat → Nat
  | 0, _ => 0
  | n + 1, x => x % 2 + popBits n (x / 2)

/-- Trailing zeros among the lowest `n` bits. -/
def ctzBits : Nat → Nat → Nat
  | 0, _ => 0
  | n + 1, x => if x % 2 = 1 then 0 else ctzBits n (x / 2) + 1

/-- Bit i moved to bit n − 1 − i. -/
def revBits : Nat → Nat → Nat
  | 0, _ => 0
  | n + 1, x => (x % 2) * 2 ^ n + revBits n (x / 2)

/-- An arithmetic right shift on `n` bits. -/
def sar (n a k : Nat) : Nat := wrapInt (sx n a / 2 ^ k) n

/-- A 32-bit rotation left. -/
def rotl32 (a k : Nat) : Nat := (a * 2 ^ k) % 2 ^ 32 + a / 2 ^ (32 - k)

/-- A bit field of at most `width` bits from `pos`, with its width (R222). -/
def field (a pos width : Nat) : Nat × Nat :=
  let w := min (min width 32) (32 - pos)
  (bitsOf a pos w, w)

/-- bfe (R222). -/
def bfe (signed : Bool) (a pos width : Nat) : Nat :=
  let (f, w) := field a pos width
  if w = 0 then 0 else if signed then wrapInt (signExt f w) 32 else f

/-- bfi (R223). -/
def bfiVal (old a pos width : Nat) : Nat :=
  let w := min width (32 - pos)
  let m := (2 ^ w - 1) * 2 ^ pos
  Nat.lor (Nat.land old (2 ^ 32 - 1 - m)) (Nat.land (a * 2 ^ pos) m)

/-- The complement of a 32-bit value. -/
def not32 (a : Nat) : Nat := 2 ^ 32 - 1 - a % 2 ^ 32

/-- An immediate shift (R220). -/
def aluShift (d a m : Nat) (aff : AffRule) (f : Nat → Nat) : Alu :=
  { d := d, srcs := [(a, .t32)], ms := some m, code := widenFirst, aff := aff, price := (2, 1), val := una f }

/-- A 64-bit shift: the count stands in a single register (R220). -/
def aluShift64 (d a b m : Nat) (f : Nat → Nat → Nat) : Alu :=
  { d := d, wide := true, srcs := [(a, .t64), (b, .t32)], ms := some m, code := widenFirst, price := (4, 2), val := bin f }

/-- shl by a constant (R220). -/
def execShlImm (d a m c : Nat) (s : State) : Host.Outcome State Fault Refusal :=
  issueAlu (.shlImm d a m c) false (aluShift d a m .shl (fun a => a * 2 ^ c)) s

/-- shr.n by a constant (R220). -/
def execShrNImm (d a m c : Nat) (s : State) : Host.Outcome State Fault Refusal :=
  issueAlu (.shrNImm d a m c) false (aluShift d a m .none (fun a => a / 2 ^ c)) s

/-- shr.s by a constant (R220). -/
def execShrSImm (d a m c : Nat) (s : State) : Host.Outcome State Fault Refusal :=
  issueAlu (.shrSImm d a m c) false (aluShift d a m .none (fun a => sar 32 a c)) s

/-- rotl by a constant (R220). -/
def execRotlImm (d a m c : Nat) (s : State) : Host.Outcome State Fault Refusal :=
  issueAlu (.rotlImm d a m c) false (aluShift d a m .none (fun a => rotl32 a c)) s

/-- bfe.n with constants (R222). -/
def execBfeNImm (d a m w p : Nat) (s : State) : Host.Outcome State Fault Refusal :=
  issueAlu (.bfeNImm d a m w p) false (alu1 d a m .t32 (always .n32) (2, 1) (fun a => bfe false a p w)) s

/-- bfe.s with constants (R222). -/
def execBfeSImm (d a m w p : Nat) (s : State) : Host.Outcome State Fault Refusal :=
  issueAlu (.bfeSImm d a m w p) false (alu1 d a m .t32 (always .s32) (2, 1) (fun a => bfe true a p w)) s

/-- bfi (R223): vd is a source; the code comes from vd, the bound index by R50 from va. -/
def execBfi (d a m w p : Nat) (s : State) : Host.Outcome State Fault Refusal :=
  issueAlu (.bfi d a m w p) false
    { d := d, srcs := [(a, .t32), (d, .t32)], ms := some m, code := fun l => widen (l.getD 1 .b32), price := (2, 1),
      val := fun _ v => bfiVal (v.getD 1 0) (v.getD 0 0) p w } s

/-- and (R219). -/
def execAnd (d a b m : Nat) (s : State) : Host.Outcome State Fault Refusal :=
  issueAlu (.and_ d a b m) false (alu32 d a b m .t32 widenFirst .none (2, 1) Nat.land) s

/-- or (R219). -/
def execOr (d a b m : Nat) (s : State) : Host.Outcome State Fault Refusal :=
  issueAlu (.or_ d a b m) false (alu32 d a b m .t32 widenFirst .none (2, 1) Nat.lor) s

/-- xor (R219). -/
def execXor (d a b m : Nat) (s : State) : Host.Outcome State Fault Refusal :=
  issueAlu (.xor_ d a b m) false (alu32 d a b m .t32 widenFirst .none (2, 1) Nat.xor) s

/-- andn (R219). -/
def execAndn (d a b m : Nat) (s : State) : Host.Outcome State Fault Refusal :=
  issueAlu (.andn d a b m) false (alu32 d a b m .t32 widenFirst .none (2, 1) (fun a b => Nat.land a (not32 b))) s

/-- orn (R219). -/
def execOrn (d a b m : Nat) (s : State) : Host.Outcome State Fault Refusal :=
  issueAlu (.orn d a b m) false (alu32 d a b m .t32 widenFirst .none (2, 1) (fun a b => Nat.lor a (not32 b))) s

/-- not (R219). -/
def execNot (d a m : Nat) (s : State) : Host.Outcome State Fault Refusal :=
  issueAlu (.not_ d a m) false (alu1 d a m .t32 widenFirst (2, 1) not32) s

/-- shl (R220). -/
def execShl (d a b m : Nat) (s : State) : Host.Outcome State Fault Refusal :=
  issueAlu (.shl d a b m) false (alu32 d a b m .t32 widenFirst .shl (2, 1) (fun a b => a * 2 ^ (b % 32))) s

/-- shr.n (R220). -/
def execShrN (d a b m : Nat) (s : State) : Host.Outcome State Fault Refusal :=
  issueAlu (.shrN d a b m) false (alu32 d a b m .t32 widenFirst .none (2, 1) (fun a b => a / 2 ^ (b % 32))) s

/-- shr.s (R220). -/
def execShrS (d a b m : Nat) (s : State) : Host.Outcome State Fault Refusal :=
  issueAlu (.shrS d a b m) false (alu32 d a b m .t32 widenFirst .none (2, 1) (fun a b => sar 32 a (b % 32))) s

/-- rotl (R220). -/
def execRotl (d a b m : Nat) (s : State) : Host.Outcome State Fault Refusal :=
  issueAlu (.rotl d a b m) false (alu32 d a b m .t32 widenFirst .none (2, 1) (fun a b => rotl32 a (b % 32))) s

/-- popc (R221). -/
def execPopc (d a m : Nat) (s : State) : Host.Outcome State Fault Refusal :=
  issueAlu (.popc d a m) false (alu1 d a m .t32 (always .n32) (2, 1) (popBits 32)) s

/-- clz (R221). -/
def execClz (d a m : Nat) (s : State) : Host.Outcome State Fault Refusal :=
  issueAlu (.clz d a m) false (alu1 d a m .t32 (always .n32) (2, 1) (clzBits 32)) s

/-- ctz (R221). -/
def execCtz (d a m : Nat) (s : State) : Host.Outcome State Fault Refusal :=
  issueAlu (.ctz d a m) false (alu1 d a m .t32 (always .n32) (2, 1) (ctzBits 32)) s

/-- brev (R221). -/
def execBrev (d a m : Nat) (s : State) : Host.Outcome State Fault Refusal :=
  issueAlu (.brev d a m) false (alu1 d a m .t32 widenFirst (2, 1) (revBits 32)) s

/-- bfe with pos and width per lane (R222). -/
def execBfeN (d a b m : Nat) (s : State) : Host.Outcome State Fault Refusal :=
  issueAlu (.bfeN d a b m) false (alu32 d a b m .t32 (always .n32) .none (2, 1) (fun a b => bfe false a (b % 32) (b / 32 % 64))) s

/-- bfe with pos and width per lane (R222). -/
def execBfeS (d a b m : Nat) (s : State) : Host.Outcome State Fault Refusal :=
  issueAlu (.bfeS d a b m) false (alu32 d a b m .t32 (always .s32) .none (2, 1) (fun a b => bfe true a (b % 32) (b / 32 % 64))) s

/-- shl.64 (R220). -/
def execShl64 (d a b m : Nat) (s : State) : Host.Outcome State Fault Refusal :=
  issueAlu (.shl64 d a b m) false (aluShift64 d a b m (fun a b => a * 2 ^ (b % 64))) s

/-- shr.n.64 (R220). -/
def execShrN64 (d a b m : Nat) (s : State) : Host.Outcome State Fault Refusal :=
  issueAlu (.shrN64 d a b m) false (aluShift64 d a b m (fun a b => a / 2 ^ (b % 64))) s

/-- shr.s.64 (R220). -/
def execShrS64 (d a b m : Nat) (s : State) : Host.Outcome State Fault Refusal :=
  issueAlu (.shrS64 d a b m) false (aluShift64 d a b m (fun a b => sar 64 a (b % 64))) s

/-- popc.64 (R221): a pair in, a single register out. -/
def execPopc64 (d a m : Nat) (s : State) : Host.Outcome State Fault Refusal :=
  issueAlu (.popc64 d a m) false (alu1 d a m .t64 (always .n32) (4, 2) (popBits 64)) s

/-- clz.64 (R221). -/
def execClz64 (d a m : Nat) (s : State) : Host.Outcome State Fault Refusal :=
  issueAlu (.clz64 d a m) false (alu1 d a m .t64 (always .n32) (4, 2) (clzBits 64)) s

/-- The class of the sources of icmp (R224). -/
def cmpCls : IntTy → Cls
  | .s32 => .s32 | .n32 => .n32 | .s64 => .s64 | .n64 => .n64

/-- The price of a word that writes a mask: mask results count as uniform (R213). -/
def maskPrice (p : Nat × Nat) (shapes : List Shape) : Nat := if shapes.all Shape.isCompact then p.2 else p.1

/-- A word that writes a whole mask (R52): source checks, price, and the bits of the active lanes it sets. -/
def maskVerdict (x : Iss) (k : Nat) (srcs : List (Nat × Cls)) (price : Nat × Nat) (m : Mask) : Verdict :=
  let c := x.g.ctx
  if srcs.all (fun p => sourceOk c p.1 p.2) then
    .go (maskPrice price ((srcs.map (fun p => sourceRegs p.1 p.2)).flatten.map (fun v => (c.reg v).shape)))
      (fun s => s.onCtx x (fun c => c.setMask k m))
  else .trap 4 0 0 0

/-- icmp (R224). -/
def execIcmp (d a b : Nat) (t : IntTy) (c : CmpCond) (s : State) : Host.Outcome State Fault Refusal :=
  let k := cmpCls t
  issueWord (.icmp d a b t c) { srcs := sourceRegs a k ++ sourceRegs b k }
    (fun x => maskVerdict x d [(a, k), (b, k)] (if IntTy_size t = 8 then (4, 2) else (2, 1))
      (maskOf (fun l => hasLane x.act l &&
        cmpHolds c (intOrder t (sourceVal x.g.ctx a k l) (sourceVal x.g.ctx b k l))))) s

/-- sel (R225): any equal codes but s64 and n64; uniform when the chosen values are. -/
def execSel (d a b c m : Nat) (s : State) : Host.Outcome State Fault Refusal :=
  issueWord (.sel d a b c m) { srcs := [a, b], dsts := [d], ms := some m, inXir := true } (fun x =>
    let cx := x.g.ctx
    let ra := cx.reg a
    let rb := cx.reg b
    let mc := x.maskReg c
    let ix := x.resultIndex (some a) ra.fmt
    let e := x.eff (some m)
    let k := x.kind (if (ra.shape.isUniform && covers cx.live mc) || (rb.shape.isUniform && cx.live &&& mc == 0) then .uni
      else .gen)
    if ra.fmt == rb.fmt && !ra.fmt.isWide && boundOk x.bounds ix ra.fmt then
      .go (shapedPrice (2, 1) [ra.shape, rb.shape] cx.live e k) (fun s =>
        let pick := fun l => if hasLane mc l then cx.lane a l else cx.lane b l
        let first := if covers cx.live mc then cx.lane a 0 else cx.lane b 0
        s.writeResult x (some m) false d k ra.fmt ix e
          (fun l => if k = .uni then first.zeroExtend 64 else (pick l).zeroExtend 64))
    else .trap 4 0 0 0) s

/-- A mask operation on mask registers (R226). -/
def issueMaskOp (i : Instr) (d : Nat) (f : Iss → Mask) (s : State) : Host.Outcome State Fault Refusal :=
  issueWord i { } (fun x => .go 1 (fun s => s.onCtx x (fun c => c.setMask d (f x)))) s

/-- mand (R226). -/
def execMand (d a b : Nat) (s : State) : Host.Outcome State Fault Refusal :=
  issueMaskOp (.mand d a b) d (fun x => x.maskReg a &&& x.maskReg b) s

/-- mor (R226). -/
def execMor (d a b : Nat) (s : State) : Host.Outcome State Fault Refusal :=
  issueMaskOp (.mor d a b) d (fun x => x.maskReg a ||| x.maskReg b) s

/-- mxor (R226). -/
def execMxor (d a b : Nat) (s : State) : Host.Outcome State Fault Refusal :=
  issueMaskOp (.mxor d a b) d (fun x => x.maskReg a ^^^ x.maskReg b) s

/-- mandn (R226). -/
def execMandn (d a b : Nat) (s : State) : Host.Outcome State Fault Refusal :=
  issueMaskOp (.mandn d a b) d (fun x => x.maskReg a &&& ~~~x.maskReg b) s

/-- mnot (R226). -/
def execMnot (d a : Nat) (s : State) : Host.Outcome State Fault Refusal :=
  issueMaskOp (.mnot d a) d (fun x => ~~~x.maskReg a) s

/-- mmov (R226). -/
def execMmov (d a : Nat) (s : State) : Host.Outcome State Fault Refusal :=
  issueMaskOp (.mmov d a) d (fun x => x.maskReg a) s

/-- A mask operation that writes a register under Active() (R226). -/
def maskToReg (x : Iss) (d price : Nat) (k : ResK) (val : Nat → Nat) : Verdict :=
  let ix := x.resultIndex none .n32
  if boundOk x.bounds ix .n32 then
    .go price (fun s => s.writeResult x none false d k .n32 ix x.act (fun l => BitVec.ofNat 64 (val l)))
  else .trap 4 0 0 0

/-- mpop (R226). -/
def execMpop (d a : Nat) (s : State) : Host.Outcome State Fault Refusal :=
  issueWord (.mpop d a) { dsts := [d] } (fun x => maskToReg x d 1 .uni (fun _ => (lanesOf (x.maskReg a)).length)) s

/-- mfirst (R226). -/
def execMfirst (d a : Nat) (s : State) : Host.Outcome State Fault Refusal :=
  issueWord (.mfirst d a) { dsts := [d] } (fun x => maskToReg x d 1 .uni (fun _ => (lowest (x.maskReg a)).getD 32)) s

/-- mtov (R226): general. -/
def execMtov (d a : Nat) (s : State) : Host.Outcome State Fault Refusal :=
  issueWord (.mtov d a) { dsts := [d] }
    (fun x => maskToReg x d 2 .gen (fun l => if hasLane (x.maskReg a) l then 1 else 0)) s

/-- vtom (R226). -/
def execVtom (d a : Nat) (s : State) : Host.Outcome State Fault Refusal :=
  issueWord (.vtom d a) { srcs := [a] }
    (fun x => maskVerdict x d [(a, .t32)] (2, 1) (maskOf (fun l => hasLane x.act l && x.g.ctx.lane a l != 0))) s

end Sys2Proof.Machine
end

