-- ==== Sys2Proof/Machine/Trans.lean ====
section
/-! DEFINITION. The transcendental functions of fun (R239): a fixed-point value with an error bound, rounded when both
ends of the bound round alike; an undecided rounding takes the free value `Config.fun1` (log entry 9). -/

namespace Sys2Proof.Machine

/-- Fraction bits of the fixed-point evaluation. -/
abbrev fxP : Nat := 224

/-- π in units of 2^−512, rounded down. -/
def piBits : Nat :=
  0x3243f6a8885a308d313198a2e03707344a4093822299f31d0082efa98ec4e6c89452821e638d01377be5466cf34e90c6cc0ac29b7c97c50dd3f84d5b5b5470917

/-- ln 2 in units of 2^−256, rounded down. -/
def ln2Bits : Nat := 0xb17217f7d1cf79abc9e3b39803f2f6af40f343267298b62d8a0d175b8baafa2b

/-- The sum of a power series with terms term × r / (k + 1), for exp (n terms). -/
def expSum (r : Nat) : Nat → Nat → Nat → Nat
  | 0, _, _ => 0
  | n + 1, k, term => term + expSum r n (k + 1) (term * r / 2 ^ fxP / (k + 1))

/-- e^r for r in [0, 1), units of 2^−P. -/
def fxExp (r : Nat) : Nat := expSum r 64 0 (2 ^ fxP)

/-- The alternating sum with terms term × r² / ((k + 1)(k + 2)), for sin and cos. -/
def trigSum (r2 : Nat) : Nat → Nat → Nat → Bool → Int
  | 0, _, _, _ => 0
  | n + 1, k, term, neg =>
    (if neg then -(term : Int) else term) + trigSum r2 n (k + 2) (term * r2 / 2 ^ fxP / ((k + 1) * (k + 2))) (!neg)

/-- sin r and cos r for r in [0, 2), units of 2^−P. -/
def fxSin (r : Nat) : Nat := (trigSum (r * r / 2 ^ fxP) 40 1 r false).toNat
def fxCos (r : Nat) : Nat := (trigSum (r * r / 2 ^ fxP) 40 0 (2 ^ fxP) false).toNat

/-- The sum of the terms z^(2k+1) / (2k+1), for atanh. -/
def atanhSum (z2 : Nat) : Nat → Nat → Nat → Nat
  | 0, _, _ => 0
  | n + 1, k, pow => pow / (2 * k + 1) + atanhSum z2 n (k + 1) (pow * z2 / 2 ^ fxP)

/-- 2^x for x in units of 2^−P: mantissa in units of 2^−P in [1, 2), and exponent. -/
def fxExp2 (x : Int) : Nat × Int :=
  let k := x / 2 ^ fxP
  let f := (x % 2 ^ fxP).toNat
  (fxExp (f * ln2Bits / 2 ^ 256), k)

/-- e^x for x in units of 2^−P. -/
def fxExpE (x : Int) : Nat × Int := fxExp2 (x * 2 ^ 256 / ln2Bits)

/-- An approximation: sign, fixed-point magnitude and its exponent, with an error below 2^24 units. -/
structure Approx where
  neg : Bool
  m : Nat
  e : Int
  deriving DecidableEq, Repr

/-- What an exact evaluation gives: a value, or an approximation still to be rounded. -/
inductive Eval
  | exact (v : Val)
  | near (a : Approx)
  deriving DecidableEq, Repr

/-- A value just below a magnitude. -/
def justBelow (neg : Bool) (m : Nat) (e : Int) : Val := .real neg (m * 2 ^ 64 - 1) (e - 64) true

/-- A value just above a magnitude. -/
def justAbove (neg : Bool) (m : Nat) (e : Int) : Val := .real neg (m * 2 ^ 64) (e - 64) true

/-- A real in units of 2^−P, cut toward −∞. -/
def fxOf (neg : Bool) (m : Nat) (e : Int) : Int :=
  let x := if -(fxP : Int) ≤ e then scaleTo m e (-(fxP : Int)) else m / 2 ^ (-(fxP : Int) - e).toNat
  if neg then -(x : Int) else x

/-- fexp2 of a nonzero real (R239). -/
def evalExp2 (neg : Bool) (m : Nat) (e : Int) : Eval :=
  let t := magLog2 m e
  if 9 < t then .exact (.real false 1 (if neg then -400 else 400) true)
  else if t < -70 then .exact (if neg then justBelow false 1 0 else justAbove false 1 0)
  else if 0 ≤ e || m % 2 ^ (-e).toNat = 0 then
    let k : Int := if 0 ≤ e then m * 2 ^ e.toNat else m / 2 ^ (-e).toNat
    .exact (.real false 1 (if neg then -k else k) false)
  else
    let (v, k) := fxExp2 (fxOf neg m e)
    .near ⟨false, v, k - fxP⟩

/-- flog2 of a positive real (R239). -/
def evalLog2 (m : Nat) (e : Int) : Eval :=
  let l := m.log2
  let k : Int := l + e
  if m = 2 ^ l then .exact (Val.ofInt k)
  else
    let z := (m - 2 ^ l) * 2 ^ fxP / (m + 2 ^ l)
    let s := 2 * atanhSum (z * z / 2 ^ fxP) 100 0 z
    let x : Int := k * 2 ^ fxP + (s * 2 ^ 256 / ln2Bits : Nat)
    .near ⟨x < 0, x.natAbs, -fxP⟩

/-- fsin (`cosine` false) or fcos of a nonzero real (R239). -/
def evalTrig (cosine : Bool) (neg : Bool) (m : Nat) (e : Int) : Eval :=
  if magLog2 m e < -40 then .exact (if cosine then justBelow false 1 0 else justBelow neg m e)
  else
    let x := scaleTo m e (-512)
    let q := 2 * x / piBits
    let r := (x - q * piBits / 2) / 2 ^ (512 - fxP)
    let quad := if cosine then (q + 1) % 4 else q % 4
    let v := if quad % 2 = 0 then fxSin r else fxCos r
    .near ⟨(quad ≥ 2) != (neg && !cosine), v, -fxP⟩

/-- ftanh of a nonzero real (R239). -/
def evalTanh (neg : Bool) (m : Nat) (e : Int) : Eval :=
  if magLog2 m e < -40 then .exact (justBelow neg m e)
  else if 5 ≤ magLog2 m e then .exact (justBelow neg 1 0)
  else
    let (v, k) := fxExpE (-2 * fxOf false m e)
    let v := v / 2 ^ (-k).toNat
    .near ⟨neg, (2 ^ fxP - v) * 2 ^ fxP / (2 ^ fxP + v), -fxP⟩

/-- fsigm of a nonzero real (R239). -/
def evalSigm (neg : Bool) (m : Nat) (e : Int) : Eval :=
  if magLog2 m e < -70 then .exact (if neg then justBelow false 1 (-1) else justAbove false 1 (-1))
  else if !neg && 7 ≤ magLog2 m e then .exact (justBelow false 1 0)
  else if 8 ≤ magLog2 m e then .exact (.real false 1 (-400) true)
  else
    let (v, k) := fxExpE (fxOf true m e)
    let w := v / 2 ^ (-k).toNat
    if neg then .near ⟨false, v * 2 ^ fxP / (2 ^ fxP + w), k - fxP⟩
    else .near ⟨false, 2 ^ (2 * fxP) / (2 ^ fxP + w), -fxP⟩

/-- An evaluation rounded into a format; `op` and `x` name the free value of an undecided rounding. -/
def roundEval (f : Fmt) (r : Rnd) (op x : Nat) : Eval → Nat
  | .exact v => roundTo f r 0 false v
  | .near a =>
    let lo := roundTo f r 0 false (.real a.neg (a.m - 2 ^ 24) a.e true)
    let hi := roundTo f r 0 false (.real a.neg (a.m + 2 ^ 24) a.e true)
    if lo = hi then lo else Config.fun1 op x % 2 ^ elemBits f

end Sys2Proof.Machine
end

