-- ==== Sys2Proof/Machine/Float.lean ====
section
/-! DEFINITION. The float instructions: fbin, fun, ffma and fcmp (R234 to R241). Every result is exact and rounded once;
a stochastic mode rounds as RNE here. -/

namespace Sys2Proof.Machine

/-- The register code of a float format of fbin. -/
def fbinCode : FBinFmt → Fmt
  | .f32 => .f32 | .f16 => .f16 | .bf16 => .bf16 | .f16x2 => .f16x2 | .bf16x2 => .bf16x2

/-- The register code of a float format of fun and fcmp. -/
def ffCode : FFmt → Fmt
  | .f32 => .f32 | .f16 => .f16 | .bf16 => .bf16

/-- Element format and whether the register holds two elements (R234). -/
def floatElem : Fmt → Fmt × Bool
  | .f16x2 => (.f16, true)
  | .bf16x2 => (.bf16, true)
  | f => (f, false)

/-- An operation on elements applied to a register: one element, or two independent ones (R234). -/
def perElem (f : Fmt) (op : Fmt → List Nat → Nat) (v : List Nat) : Nat :=
  let (e, packed) := floatElem f
  if packed then op e (v.map (fun x => x % 2 ^ 16)) + 2 ^ 16 * op e (v.map (fun x => x / 2 ^ 16 % 2 ^ 16))
  else op e (v.map (fun x => x % 2 ^ elemBits e))

/-- The operations of fbin (R235, R238). -/
inductive FOp | add | sub | mul | div | min | max | copysign
  deriving DecidableEq, Repr

/-- |a| with a sign, the canonical NaN for a NaN (R235). -/
def withSignOf (e : Fmt) (a : Nat) (neg : Bool) : Nat :=
  if (decodeElem e a).isNan then nanCode e else withSign e neg (a % signBit e)

/-- fbin on one element. -/
def fbinElem (op : FOp) (r : Rnd) (e : Fmt) (v : List Nat) : Nat :=
  let a := v.getD 0 0
  let b := v.getD 1 0
  let x := decodeElem e a
  let y := decodeElem e b
  match op with
  | .add => roundTo e r 0 false (x.add r y)
  | .sub => roundTo e r 0 false (x.add r y.negate)
  | .mul => roundTo e r 0 false (x.mul y)
  | .div => roundTo e r 0 false (x.div y)
  | .min => minMaxCode e false a b
  | .max => minMaxCode e true a b
  | .copysign => withSignOf e a (b / signBit e % 2 == 1)

/-- The price of fbin (R236). -/
def fbinPrice (op : FOp) (f : FBinFmt) : Nat × Nat :=
  let packed := f == .f16x2 || f == .bf16x2
  match op with
  | .div => if packed then (12, 12) else (8, 8)
  | _ => if packed then (3, 3) else (2, 2)

/-- An fbin word (R238). -/
def fbin (op : FOp) (d a b m : Nat) (f : FBinFmt) : Alu :=
  let c := fbinCode f
  { d := d, srcs := [(a, .is c), (b, .is c)], ms := some m, code := always c, price := fbinPrice op f,
    val := fun x v => perElem c (fbinElem op (noStoch x.mode)) v }

/-- fadd (R235, R238). -/
def execFadd (d a b m : Nat) (f : FBinFmt) (s : State) : Host.Outcome State Fault Refusal :=
  issueAlu (.fadd d a b m f) false (fbin .add d a b m f) s

/-- fsub (R235, R238). -/
def execFsub (d a b m : Nat) (f : FBinFmt) (s : State) : Host.Outcome State Fault Refusal :=
  issueAlu (.fsub d a b m f) false (fbin .sub d a b m f) s

/-- fmul (R235, R238). -/
def execFmul (d a b m : Nat) (f : FBinFmt) (s : State) : Host.Outcome State Fault Refusal :=
  issueAlu (.fmul d a b m f) false (fbin .mul d a b m f) s

/-- fdiv (R235, R238). -/
def execFdiv (d a b m : Nat) (f : FBinFmt) (s : State) : Host.Outcome State Fault Refusal :=
  issueAlu (.fdiv d a b m f) false (fbin .div d a b m f) s

/-- fmin (R235, R238). -/
def execFmin (d a b m : Nat) (f : FBinFmt) (s : State) : Host.Outcome State Fault Refusal :=
  issueAlu (.fmin d a b m f) false (fbin .min d a b m f) s

/-- fmax (R235, R238). -/
def execFmax (d a b m : Nat) (f : FBinFmt) (s : State) : Host.Outcome State Fault Refusal :=
  issueAlu (.fmax d a b m f) false (fbin .max d a b m f) s

/-- fcopysign (R235, R238). -/
def execFcopysign (d a b m : Nat) (f : FBinFmt) (s : State) : Host.Outcome State Fault Refusal :=
  issueAlu (.fcopysign d a b m f) false (fbin .copysign d a b m f) s

/-- The operations of fun (R239), numbered as R197 numbers them. -/
inductive UOp | neg | abs | sqrt | rcp | rsq | exp2 | log2 | sin | cos | tanh | sigm | floor | ceil | trunc | rint
  deriving DecidableEq, Repr

/-- The number of an operation, for the free value of an undecided rounding. -/
def uopCode : UOp → Nat
  | .neg => 0 | .abs => 1 | .sqrt => 2 | .rcp => 3 | .rsq => 4 | .exp2 => 5 | .log2 => 6 | .sin => 7 | .cos => 8
  | .tanh => 9 | .sigm => 10 | .floor => 11 | .ceil => 12 | .trunc => 13 | .rint => 14

/-- The integral value of a real by a mode; a zero keeps the sign (R239). -/
def integral (r : Rnd) : Val → Val
  | .real neg m e _ => .real neg (roundInt r neg m e) 0 false
  | v => v

/-- fsin and fcos with their special operands. -/
def evalWave (cosine : Bool) : Val → Eval
  | .real neg m e _ =>
    if m = 0 then .exact (if cosine then .real false 1 0 false else .zero neg) else evalTrig cosine neg m e
  | _ => .exact .nan

/-- The exact function of an operand, or its approximation, with the special operands of R239. -/
def evalFun (op : UOp) (r : Rnd) (v : Val) : Eval :=
  match v with
  | .nan => .exact .nan
  | v =>
    match op with
    | .neg => .exact v.negate
    | .abs => .exact (if v.neg then v.negate else v)
    | .sqrt =>
      match v with
      | .inf neg => .exact (if neg then .nan else v)
      | .real neg m e _ => if m = 0 then .exact v else if neg then .exact .nan else .exact (sqrtVal m e)
      | _ => .exact .nan
    | .rcp => .exact ((Val.real false 1 0 false).div v)
    | .rsq =>
      match v with
      | .inf neg => .exact (if neg then .nan else .zero false)
      | .real neg m e _ => if m = 0 then .exact (.inf neg) else if neg then .exact .nan else .exact (rsqrtVal m e)
      | _ => .exact .nan
    | .exp2 =>
      match v with
      | .inf neg => .exact (if neg then .zero false else .inf false)
      | .real neg m e _ => if m = 0 then .exact (.real false 1 0 false) else evalExp2 neg m e
      | _ => .exact .nan
    | .log2 =>
      match v with
      | .inf neg => .exact (if neg then .nan else .inf false)
      | .real neg m e _ => if m = 0 then .exact (.inf true) else if neg then .exact .nan else evalLog2 m e
      | _ => .exact .nan
    | .sin => evalWave false v
    | .cos => evalWave true v
    | .tanh =>
      match v with
      | .inf neg => .exact (.real neg 1 0 false)
      | .real neg m e _ => if m = 0 then .exact v else evalTanh neg m e
      | _ => .exact .nan
    | .sigm =>
      match v with
      | .inf neg => .exact (if neg then .zero false else .real false 1 0 false)
      | .real neg m e _ => if m = 0 then .exact (.real false 1 (-1) false) else evalSigm neg m e
      | _ => .exact .nan
    | .floor => .exact (integral .rd v)
    | .ceil => .exact (integral .ru v)
    | .trunc => .exact (integral .rz v)
    | .rint => .exact (integral r v)

/-- fun on one element: fneg and fabs on the bits, the others rounded once (R235, R239). -/
def funElem (op : UOp) (r : Rnd) (e : Fmt) (v : List Nat) : Nat :=
  let a := v.getD 0 0
  match op with
  | .neg => withSignOf e a (a / signBit e % 2 == 0)
  | .abs => withSignOf e a false
  | op => roundEval e r (uopCode op) a (evalFun op r (decodeElem e a))

/-- The price of fun (R236). -/
def funPrice : UOp → Nat × Nat
  | .neg | .abs | .floor | .ceil | .trunc | .rint => (2, 2)
  | _ => (8, 8)

/-- A fun word (R239). -/
def funAlu (op : UOp) (d a m : Nat) (f : FFmt) : Alu :=
  let c := ffCode f
  { d := d, srcs := [(a, .is c)], ms := some m, code := always c, price := funPrice op,
    val := fun x v => perElem c (funElem op (noStoch x.mode)) v }

/-- fneg (R239). -/
def execFneg (d a m : Nat) (f : FFmt) (s : State) : Host.Outcome State Fault Refusal :=
  issueAlu (.fneg d a m f) false (funAlu .neg d a m f) s

/-- fabs (R239). -/
def execFabs (d a m : Nat) (f : FFmt) (s : State) : Host.Outcome State Fault Refusal :=
  issueAlu (.fabs d a m f) false (funAlu .abs d a m f) s

/-- fsqrt (R239). -/
def execFsqrt (d a m : Nat) (f : FFmt) (s : State) : Host.Outcome State Fault Refusal :=
  issueAlu (.fsqrt d a m f) false (funAlu .sqrt d a m f) s

/-- frcp (R239). -/
def execFrcp (d a m : Nat) (f : FFmt) (s : State) : Host.Outcome State Fault Refusal :=
  issueAlu (.frcp d a m f) false (funAlu .rcp d a m f) s

/-- frsq (R239). -/
def execFrsq (d a m : Nat) (f : FFmt) (s : State) : Host.Outcome State Fault Refusal :=
  issueAlu (.frsq d a m f) false (funAlu .rsq d a m f) s

/-- fexp2 (R239). -/
def execFexp2 (d a m : Nat) (f : FFmt) (s : State) : Host.Outcome State Fault Refusal :=
  issueAlu (.fexp2 d a m f) false (funAlu .exp2 d a m f) s

/-- flog2 (R239). -/
def execFlog2 (d a m : Nat) (f : FFmt) (s : State) : Host.Outcome State Fault Refusal :=
  issueAlu (.flog2 d a m f) false (funAlu .log2 d a m f) s

/-- fsin (R239). -/
def execFsin (d a m : Nat) (f : FFmt) (s : State) : Host.Outcome State Fault Refusal :=
  issueAlu (.fsin d a m f) false (funAlu .sin d a m f) s

/-- fcos (R239). -/
def execFcos (d a m : Nat) (f : FFmt) (s : State) : Host.Outcome State Fault Refusal :=
  issueAlu (.fcos d a m f) false (funAlu .cos d a m f) s

/-- ftanh (R239). -/
def execFtanh (d a m : Nat) (f : FFmt) (s : State) : Host.Outcome State Fault Refusal :=
  issueAlu (.ftanh d a m f) false (funAlu .tanh d a m f) s

/-- fsigm (R239). -/
def execFsigm (d a m : Nat) (f : FFmt) (s : State) : Host.Outcome State Fault Refusal :=
  issueAlu (.fsigm d a m f) false (funAlu .sigm d a m f) s

/-- ffloor (R239). -/
def execFfloor (d a m : Nat) (f : FFmt) (s : State) : Host.Outcome State Fault Refusal :=
  issueAlu (.ffloor d a m f) false (funAlu .floor d a m f) s

/-- fceil (R239). -/
def execFceil (d a m : Nat) (f : FFmt) (s : State) : Host.Outcome State Fault Refusal :=
  issueAlu (.fceil d a m f) false (funAlu .ceil d a m f) s

/-- ftrunc (R239). -/
def execFtrunc (d a m : Nat) (f : FFmt) (s : State) : Host.Outcome State Fault Refusal :=
  issueAlu (.ftrunc d a m f) false (funAlu .trunc d a m f) s

/-- frint (R239). -/
def execFrint (d a m : Nat) (f : FFmt) (s : State) : Host.Outcome State Fault Refusal :=
  issueAlu (.frint d a m f) false (funAlu .rint d a m f) s

/-- a × b + c, rounded once (R240). -/
def fmaElem (r : Rnd) (e : Fmt) (v : List Nat) : Nat :=
  let x := decodeElem e (v.getD 0 0)
  let y := decodeElem e (v.getD 1 0)
  let z := decodeElem e (v.getD 2 0)
  roundTo e r 0 false ((x.mul y).add r z)

/-- An ffma word (R240). -/
def ffma (d a b c m : Nat) (f : Fmt) (price : Nat × Nat) : Alu :=
  { d := d, srcs := [(a, .is f), (b, .is f), (c, .is f)], ms := some m, code := always f, price := price,
    val := fun x v => perElem f (fmaElem (noStoch x.mode)) v }

/-- ffma on f32 (R240). -/
def execFfmaF32 (d a b c m : Nat) (s : State) : Host.Outcome State Fault Refusal :=
  issueAlu (.ffmaF32 d a b c m) false (ffma d a b c m .f32 (3, 3)) s

/-- ffma on f16x2 (R240). -/
def execFfmaF16x2 (d a b c m : Nat) (s : State) : Host.Outcome State Fault Refusal :=
  issueAlu (.ffmaF16x2 d a b c m) false (ffma d a b c m .f16x2 (4, 4)) s

/-- ffma on bf16x2 (R240). -/
def execFfmaBf16x2 (d a b c m : Nat) (s : State) : Host.Outcome State Fault Refusal :=
  issueAlu (.ffmaBf16x2 d a b c m) false (ffma d a b c m .bf16x2 (4, 4)) s

/-- fcmp (R241). -/
def execFcmp (d a b : Nat) (t : FFmt) (c : FCond) (s : State) : Host.Outcome State Fault Refusal :=
  let f := ffCode t
  issueWord (.fcmp d a b t c) { srcs := [a, b] }
    (fun x => maskVerdict x d [(a, .is f), (b, .is f)] (2, 2)
      (maskOf (fun l => hasLane x.act l &&
        fcmpHolds c (decodeElem f (x.g.ctx.lane a l).toNat) (decodeElem f (x.g.ctx.lane b l).toNat)))) s

end Sys2Proof.Machine
end

