-- ==== Sys2Proof/Machine/Convert.lean ====
section
/-! DEFINITION. The conversions and tag (R67 to R74, R242 to R246). -/

namespace Sys2Proof.Machine

/-- Whether a format is a result of a narrowing conversion (R69). -/
def narrowFmt : Fmt → Bool
  | .f16 | .bf16 | .e4m3 | .ta8 | .ta6 | .f16x2 | .bf16x2 | .e4m3x4 | .ta8x4 | .ta6x4 => true
  | _ => false

/-- A value with the LFSR state after it. -/
abbrev Seeded := Nat × Word

/-- One element converted into a float format; under stochastic mode the LFSR steps first (R71, R243). -/
def cvtElem (d : Fmt) (r : Rnd) (sat : Bool) (v : Val) (seed : Word) : Seeded :=
  if r = .rs then
    let n := lfsrStep seed
    (roundTo d .rs (n.toNat % 2 ^ 16) sat v, n)
  else (roundTo d r 0 sat v, seed)

/-- The bits of an integer element in a register (R48). -/
def placeInt (d : Fmt) (x : Int) : Nat :=
  match d with
  | .s8 => wrapInt (signExt (wrapInt x 8) 8) 32
  | .s16 => wrapInt (signExt (wrapInt x 16) 16) 32
  | .n8 => wrapInt x 8
  | .n16 => wrapInt x 16
  | .s64 | .n64 => wrapInt x 64
  | _ => wrapInt x 32

/-- The integer that a source of an integer code holds (R243). -/
def intOf (s : Fmt) (a : Nat) : Int :=
  match s with
  | .s8 | .s16 | .s32 => signExt a 32
  | .s64 => signExt a 64
  | _ => a

/-- An element conversion of one lane (R243). -/
def cvtLane (d s : Fmt) (sat : Bool) (r : Rnd) (a : Nat) (seed : Word) : Seeded :=
  if d.isInt then
    if s.isInt then (placeInt d (if sat then clampInt (intOf s a) (intRange d).1 (intRange d).2 else intOf s a), seed)
    else (placeInt d (toInt d r (decodeElem s a)), seed)
  else if s.isInt then cvtElem d r sat (Val.ofInt (intOf s a)) seed
  else cvtElem d r sat (decodeElem s a) seed

/-- Elements packed in order into a register: positions from the format (R48, R244). -/
def packElems (ps : List Nat) (e : Fmt) (r : Rnd) (sat : Bool) : List Val → Nat → Word → Seeded
  | [], _, seed => (0, seed)
  | v :: vs, k, seed =>
    let (x, seed) := cvtElem e r sat v seed
    let (y, seed) := packElems ps e r sat vs (k + 1) seed
    (x * 2 ^ ps.getD k 0 + y, seed)

/-- The elements of a register of a format as values. -/
def elemVals (f : Fmt) (x : Nat) : List Val :=
  let (ps, w, e) := elemsOf f
  ps.map (fun p => decodeElem e (x / 2 ^ p % 2 ^ w))

/-- A packing of one lane from the pair value (R244). -/
def packLane (d s : Fmt) (sat : Bool) (r : Rnd) (a : Nat) (seed : Word) : Seeded :=
  let (ps, _, e) := elemsOf d
  packElems ps e r sat (elemVals s (a % 2 ^ 32) ++ elemVals s (a / 2 ^ 32)) 0 seed

/-- An unpacking of one lane: exact; into f16x2 and bf16x2 its elements step the LFSR (R69, R71, R244). -/
def unpackLane (d s : Fmt) (r : Rnd) (a : Nat) (seed : Word) : Seeded :=
  let (ps, _, e) := elemsOf d
  let vs := elemVals s a
  let n := ps.length
  let (x, seed) := packElems ps e r false (vs.take n) 0 seed
  let (y, seed) := packElems ps e r false (vs.drop n) 0 seed
  (x + 2 ^ 32 * y, seed)

/-- A conversion of one lane that is not a block conversion. -/
def convLane (k : CvtKind) (d s : Fmt) (sat : Bool) (r : Rnd) (a : Nat) (seed : Word) : Seeded :=
  match k with
  | .pack => packLane d s sat r a seed
  | .unpack => unpackLane d s r a seed
  | _ => cvtLane d s sat r a seed

/-- The lanes of a list converted in order, the LFSR stepping through them (R71). -/
def convLanes (f : Nat → Word → Seeded) : List Nat → Word → List (Nat × Nat) × Word
  | [], seed => ([], seed)
  | l :: ls, seed =>
    let (v, seed) := f l seed
    let (vs, seed) := convLanes f ls seed
    ((l, v) :: vs, seed)

/-- The mode of a conversion: stochastic only where it is narrowing (R69). -/
def convMode (x : Iss) (d : Fmt) : Rnd := if narrowFmt d then x.mode else noStoch x.mode

/-- The class of the source of a conversion: a pair for packing and for 64-bit codes. -/
def convSrc (k : CvtKind) (a : Nat) (s : Fmt) : List Nat :=
  if k = .pack || s.isWide then [a, a + 1] else [a]

/-- Whether the destination is a pair. -/
def convWide (k : CvtKind) (d : Fmt) : Bool := k == .unpack || d.isWide

/-- The price of a conversion (R236). -/
def convPrice : CvtKind → Nat × Nat
  | .element => (2, 2)
  | _ => (3, 3)

/-- The write-back of a conversion: values and c.seed together (R71, R378). -/
def State.writeSeeded (s : State) (x : Iss) (m : Nat) (wide : Bool) (d : Nat) (k : ResK) (fmt : Fmt) (ix : Nat)
    (val : Nat → Word64) (seed : Word) : State :=
  match s.group x.core x.frame with
  | none => s
  | some g =>
    match g.ctx.write x.bounds wide d k fmt ix (x.eff (some m)) val with
    | .error bad => s.takeTrap x.core x.frame (x.record (some m) 10 ix bad 0)
    | .ok c => s.setGroup x.core x.frame { g with ctx := x.advance { c with seed := seed } }

/-- cvt in element, packing and unpacking form (R243, R244). -/
def execCvt (v a : Nat) (sf : Fmt) (m : Nat) (t : Bool) (df : Fmt) (s : State) : Host.Outcome State Fault Refusal :=
  let k := (cvtKind df sf false).getD .element
  let src := convSrc k a sf
  let wide := convWide k df
  issueWord (.cvt v a sf m t df)
    { srcs := src, dsts := if wide then [v, v + 1] else [v], ms := some m, inXir := true } (fun x =>
    let c := x.g.ctx
    let r := convMode x df
    let shapes := src.map (fun v => (c.reg v).shape)
    let ix := x.resultIndex (some a) df
    let e := x.eff (some m)
    let rk := x.kind (if r != .rs && shapes.all Shape.isUniform then .uni else .gen)
    if src.all (fun v => (c.reg v).fmt == sf) && boundOk x.bounds ix df then
      .go (shapedPrice (convPrice k) shapes c.live e rk) (fun s =>
        let f := fun l seed => convLane k df sf t r (if src.length = 2 then (c.lane64 a l).toNat else (c.lane a l).toNat) seed
        let ls := if rk = .uni then lanes32 else lanesOf e
        let (vals, seed) := convLanes f ls c.seed
        s.writeSeeded x m wide v rk df ix (fun l => BitVec.ofNat 64 (tget vals l 0)) seed)
    else .trap 4 0 0 0) s

/-! ### The block form (R67, R68, R245) -/

/-- The greatest magnitude of a list of reals, or none if a value is no real (R68). -/
def greatestMag : List Val → Option Val
  | [] => some (.zero false)
  | .real _ m e st :: r =>
    match greatestMag r with
    | some g => some (if (Val.real false m e st).cmp g == .gt then .real false m e st else g)
    | none => none
  | _ :: _ => none

/-- The least integer t with M × 2^−t ≤ G: floor(log2 M) − floor(log2 G) or one more. -/
def leastFit (m : Nat) (e : Int) (g : Nat) : Int :=
  let t := magLog2 m e - (g.log2 : Int)
  if (Val.real false m (e - t) false).cmp (Val.ofInt g) == .gt then t + 1 else t

/-- The scale code of eight values in a narrow format (R68). -/
def blockScale (f : Fmt) (xs : List Val) : Nat :=
  match greatestMag xs with
  | none => 255
  | some (.real _ m e _) =>
    if m = 0 then 127
    else
      let t : Int := match f with
        | .e4m3 => leastFit m e 448
        | .s8 => leastFit m e 127
        | _ => magLog2 m e
      (clampInt t (-127) 127 + 127).toNat
  | some _ => 255

/-- One element of a block with scale code `c` (R68): as register bits, the LFSR stepping for float formats. -/
def blockElem (f : Fmt) (r : Rnd) (sat : Bool) (c : Nat) (v : Val) (seed : Word) : Seeded :=
  let v := if c = 255 then Val.nan else v.scale (127 - (c : Int))
  if f = .s8 then (placeInt .s8 (toInt .s8 r v), seed) else cvtElem f r sat v seed

/-- cvt in block form (R245). -/
def execCvtBlk (v a : Nat) (sf : Fmt) (m : Nat) (t : Bool) (df : Fmt) (s : State) : Host.Outcome State Fault Refusal :=
  issueWord (.cvtBlk v a sf m t df) { srcs := [a], dsts := [v, v + 1], ms := some m, inXir := true } (fun x =>
    let c := x.g.ctx
    let r := convMode x df
    let ix := x.resultIndex (some a) df
    let e := x.eff (some m)
    if (c.reg a).fmt == sf && boundOk x.bounds ix df then
      .go 4 (fun s =>
        let val := fun l => if hasLane e l then decodeElem .f32 (c.lane a l).toNat else Val.zero false
        let scales := [0, 1, 2, 3].map (fun q => blockScale df ((List.range 8).map (fun j => val (8 * q + j))))
        let (vals, seed) := convLanes (fun l sd => blockElem df r t (scales.getD (l / 8) 127) (val l) sd) (lanesOf e) c.seed
        let e8 : Word := BitVec.ofNat 32 (scales.getD 0 0 + 2 ^ 8 * scales.getD 1 0 + 2 ^ 16 * scales.getD 2 0
          + 2 ^ 24 * scales.getD 3 0)
        match s.group x.core x.frame with
        | none => s
        | some g =>
          match g.ctx.write x.bounds false v .gen df ix e (fun l => BitVec.ofNat 64 (tget vals l 0)) with
          | .error bad => s.takeTrap x.core x.frame (x.record (some m) 10 ix bad 0)
          | .ok c' => s.setGroup x.core x.frame
              { g with ctx := x.advance { (c'.put (v + 1) .gen .e8x4 0 e (fun _ => e8)) with seed := seed } })
    else .trap 4 0 0 0) s

/-- tag (R246): bits and shape copied, a new code and bound index. A pair whose halves carry different codes is taken too:
R246 lets va carry any code (DESIGN CHOICE, log entry 134). -/
def execTag (d a m i : Nat) (f : Fmt) (s : State) : Host.Outcome State Fault Refusal :=
  let wide := f.isWide
  let src := if wide then [a, a + 1] else [a]
  issueWord (.tag d a m i f)
    { srcs := src, dsts := if wide then [d, d + 1] else [d], ms := some m, inXir := true } (fun x =>
    let c := x.g.ctx
    let ix := x.hints.bnd.getD i
    let e := x.eff (some m)
    let shapes := src.map (fun v => (c.reg v).shape)
    let k := x.kind (if shapes.all Shape.isUniform then .uni
      else if !wide && shapes.all Shape.isCompact then .aff else .gen)
    if boundOk x.bounds ix f then
      .go (shapedPrice (2, 1) shapes c.live e k) (fun s =>
        s.writeResult x (some m) wide d k f ix e
          (fun l => if wide then c.lane64 a l else (c.lane a l).zeroExtend 64))
    else .trap 4 0 0 0) s

end Sys2Proof.Machine
end

