-- ==== Sys2Proof/Machine/Lane.lean ====
section
/-! DEFINITION. Lane exchange, scans and xir (R247 to R255). -/

namespace Sys2Proof.Machine

/-- Src(va, k): an exited lane reads 0 (R247). -/
def srcLane (c : Ctx) (a k : Nat) : Word := if k < 32 && hasLane c.live k then c.lane a k else 0

/-- One lane as a mask; none of an index of 32 or above. -/
def oneLane (k : Nat) : Mask := if k < 32 then 1#32 <<< k else 0

/-- What a lane of an exchange reads: the lane of va that its index gives, if that is live, its own lane of the index, and of
a third operand (R247, R434). -/
def exchangeReads (m : Nat) (idx : Iss → Nat → Nat) (x : Iss) (place l : Nat) : Mask :=
  if hasLane (x.eff (some m)) l then
    match place with
    | 0 => oneLane (idx x l) &&& x.g.ctx.live
    | 1 => oneLane l
    | _ => if idx x l < 32 then 0 else oneLane l
  else 0

/-- ballot (R248): inactive live lanes take part. -/
def execBallot (d a : Nat) (s : State) : Host.Outcome State Fault Refusal :=
  issueWord (.ballot d a) { srcs := [a], reads := some (fun x _ _ => x.g.ctx.live) } (fun x =>
    if sourceOk x.g.ctx a .t32 then
      .go 2 (fun s => s.onCtx x (fun c => c.setMask d
        (maskOf (fun l => hasLane x.g.ctx.live l && srcLane x.g.ctx a l != 0))))
    else .trap 4 0 0 0) s

/-- A lane exchange that writes a register of va's code (R247). -/
def exchange (x : Iss) (d a : Nat) (idx : List (Nat × Cls)) (m price : Nat) (k : ResK) (ok : Bool) (val : Nat → Word) :
    Verdict :=
  let c := x.g.ctx
  let f := (c.reg a).fmt
  let ix := x.resultIndex (some a) f
  if !f.isWide && idx.all (fun p => sourceOk c p.1 p.2) && ok && boundOk x.bounds ix f then
    .go price (fun s => s.writeResult x (some m) false d k f ix (x.eff (some m)) (fun l => (val l).zeroExtend 64))
  else .trap 4 0 0 0

/-- The lane that bcast reads: the value of vb in the lowest lane of Active() (R249). -/
def bcastLane (b : Nat) (x : Iss) : Nat := (x.g.ctx.lane b ((lowest x.act).getD 0)).toNat

/-- What bcast reads: one lane of va and one of vb, whatever its mask (R249, R434). -/
def bcastReads (b : Nat) (x : Iss) (place : Nat) : Mask :=
  if place = 0 then oneLane (bcastLane b x) &&& x.g.ctx.live else oneLane ((lowest x.act).getD 0)

/-- bcast (R249). -/
def execBcast (d a b m : Nat) (s : State) : Host.Outcome State Fault Refusal :=
  issueWord (.bcast d a b m) { srcs := [a, b], dsts := [d], ms := some m, reads := some (fun x p _ => bcastReads b x p) } (fun x =>
    let c := x.g.ctx
    let k := bcastLane b x
    exchange x d a [(b, .t32)] m 2 .uni true (fun _ => srcLane c a k)) s

/-- The lane that a lane of xchg reads (R250). -/
def xchgLane (b : Nat) (x : Iss) (l : Nat) : Nat := Nat.xor l ((x.g.ctx.lane b l).toNat % 32)

/-- xchg (R250). -/
def execXchg (d a b m : Nat) (s : State) : Host.Outcome State Fault Refusal :=
  issueWord (.xchg d a b m)
    { srcs := [a, b], dsts := [d], ms := some m, reads := some (exchangeReads m (xchgLane b)) } (fun x =>
    let c := x.g.ctx
    exchange x d a [(b, .t32)] m 3 .gen true (fun l => srcLane c a (xchgLane b x l))) s

/-- shfl (R251). -/
def execShfl (d a b f m : Nat) (s : State) : Host.Outcome State Fault Refusal :=
  issueWord (.shfl d a b f m)
    { srcs := [a, b, f], dsts := [d], ms := some m,
      reads := some (exchangeReads m (fun x l => (x.g.ctx.lane b l).toNat)) } (fun x =>
    let c := x.g.ctx
    exchange x d a [(b, .t32)] m 4 .gen ((c.reg f).fmt == (c.reg a).fmt) (fun l =>
      let k := (c.lane b l).toNat
      if k < 32 then srcLane c a k else c.lane f l)) s

/-! ### Scans (R252) -/

/-- The class of va, the result code, the identity and the price of a scan operation. -/
def scanInfo : ScanOp → Cls × Fmt × Nat × Nat
  | .addN32 => (.t32, .n32, 0, 6)
  | .minS32 => (.s32, .s32, 0x7FFFFFFF, 6)
  | .maxS32 => (.s32, .s32, 0x80000000, 6)
  | .minN32 => (.n32, .n32, 0xFFFFFFFF, 6)
  | .maxN32 => (.n32, .n32, 0, 6)
  | .addF32 => (.is .f32, .f32, 0, 8)
  | .minF32 => (.is .f32, .f32, 0x7F800000, 8)
  | .maxF32 => (.is .f32, .f32, 0xFF800000, 8)

/-- Op(o, acc, x). -/
def scanOp (o : ScanOp) (r : Rnd) (acc x : Nat) : Nat :=
  match o with
  | .addN32 => (acc + x) % 2 ^ 32
  | .minS32 => if sx 32 acc ≤ sx 32 x then acc else x
  | .maxS32 => if sx 32 acc ≤ sx 32 x then x else acc
  | .minN32 => min acc x
  | .maxN32 => max acc x
  | .addF32 => fbinElem .add r .f32 [acc, x]
  | .minF32 => minMaxCode .f32 false acc x
  | .maxF32 => minMaxCode .f32 true acc x

/-- The folds of a scan over its participants in ascending order: (lane, inclusive, exclusive). -/
def scanFold (op : Nat → Nat → Nat) (val : Nat → Nat) : List Nat → Nat → List (Nat × Nat × Nat)
  | [], _ => []
  | l :: ls, acc => (l, op acc (val l), acc) :: scanFold op val ls (op acc (val l))

/-- A scan word (R252). -/
def scanVerdict (x : Iss) (d a m : Nat) (o : ScanOp) (exclusive : Bool) : Verdict :=
  let c := x.g.ctx
  let (cls, f, ident, price) := scanInfo o
  let ix := x.resultIndex (some a) f
  let e := x.eff (some m)
  if sourceOk c a cls && boundOk x.bounds ix f then
    .go price (fun s =>
      let r := scanFold (scanOp o (noStoch x.mode)) (fun l => (c.lane a l).toNat) (lanesOf e) ident
      let v := r.map (fun p => (p.1, if exclusive then p.2.2 else p.2.1))
      s.writeResult x (some m) false d .gen f ix e (fun l => BitVec.ofNat 64 (tget v l 0)))
  else .trap 4 0 0 0

/-- scan (R252): inclusive. -/
def execScan (d a m : Nat) (c : ScanOp) (s : State) : Host.Outcome State Fault Refusal :=
  issueWord (.scan d a m c) { srcs := [a], dsts := [d], ms := some m } (fun x => scanVerdict x d a m c false) s

/-- scanx (R252): exclusive. -/
def execScanx (d a m : Nat) (c : ScanOp) (s : State) : Host.Outcome State Fault Refusal :=
  issueWord (.scanx d a m c) { srcs := [a], dsts := [d], ms := some m } (fun x => scanVerdict x d a m c true) s

/-! ### xir (R253) -/

/-- The progress with which an xir starts, or with which it goes on where the gang stands at one: its pending lanes (R253,
R255). -/
def xirStart (x : Iss) (m : Nat) : Xir :=
  match x.g.ctx.xirOf (x.slices.headD 0) with
  | some q => { q with pend := q.pend &&& x.g.ctx.live }
  | none => ⟨x.pc, x.eff (some m), 0, []⟩

/-- The start of an xir, or its resumption when the gang stands at one with pending lanes: the words of the lanes are
taken now; the words then issue one by one (R254), and the xir word itself is charged nothing (R160). -/
def startXir (c : Ctx) (x : Iss) (a m : Nat) : Ctx :=
  let lead := x.slices.headD 0
  let p := xirStart x m
  let q : Xir := { p with words := lanes32.map (fun l => c.lane a l) }
  if p.pend = 0 then { c with slices := stepSlices (setXir c.slices lead none) x.slices false }
  else { c with slices := setXir c.slices lead (some q) }

/-- Whether an xir resumes with no lane left: control goes to the instruction after it, and va is not looked at (R255). -/
def xirOver (x : Iss) (m : Nat) : Bool :=
  (x.g.ctx.xirOf (x.slices.headD 0)).isSome && (xirStart x m).pend == 0

/-- xir (R253 to R255): a pending binding hint makes it illegal; va carries b32 or n32. -/
def execXir (a m : Nat) (s : State) : Host.Outcome State Fault Refusal :=
  issueWord (.xir a m)
    { srcs := [a], ms := some m, noHints := true,
      reads := some (fun x _ l => if hasLane (xirStart x m).pend l then oneLane l else 0) } (fun x =>
    if (x.g.ctx.reg a).fmt == .b32 || (x.g.ctx.reg a).fmt == .n32 || xirOver x m then
      .free (fun s => s.modGroup x.core x.frame (fun g => { g with ctx := startXir g.ctx x a m }))
    else .trap 4 0 0 0) s

end Sys2Proof.Machine
end

