-- ==== Sys2Proof/Machine/Control.lean ====
section
/-! DEFINITION. Control flow: branches, calls, joins, indirect jumps, regang and exit over slices, gangs and divergence
stacks (R9 to R20, R139, R227 to R233, R309). -/

namespace Sys2Proof.Machine

/-- Entries of a divergence stack at most (R12). -/
abbrev stackDepth : Nat := 16

/-- Next PCs and stacks of a gang's slices: the slices, or the slices that would overflow (R15). -/
abbrev Turned := Except (List Nat) (List Slice)

/-- Whether any of a gang's slices holds more entries than a stack has; they are named (R15). -/
def checkDepth (sl : List Slice) (members : List Nat) : Turned :=
  let beyond := members.filter (fun i => match sl[i]? with
    | some x => stackDepth < x.stack.length
    | none => false)
  if beyond.isEmpty then .ok sl else .error beyond

/-- A slice at a conditional branch (R13). -/
def branchSlice (x : Slice) (tk : BitVec 4) (target fall : Nat) : Slice :=
  let nt := x.cur &&& ~~~tk
  if nt = 0 then { x with pc := target }
  else if tk = 0 then { x with pc := fall }
  else
    match x.stack with
    | .path p m :: r =>
      if p = fall then { x with stack := .path p (m ||| nt) :: r, cur := tk, pc := target }
      else { x with stack := .path fall nt :: .merge x.cur none :: x.stack, cur := tk, pc := target }
    | st => { x with stack := .path fall nt :: .merge x.cur none :: st, cur := tk, pc := target }

/-- Whether a slice's top entry is a path entry with a PC. -/
def topPath (x : Slice) (pc : Nat) : Bool :=
  match x.stack with
  | .path p _ :: _ => p == pc
  | _ => false

/-- A gang at a conditional branch inside a live attempt: every slice in step (R139). -/
def branchGang (sl : List Slice) (members : List Nat) (act taken : Mask) (target fall : Nat) : List Slice :=
  if taken = 0 then onSlices sl members (fun _ x => { x with pc := fall })
  else if act &&& ~~~taken = 0 then onSlices sl members (fun _ x => { x with pc := target })
  else
    let fold := members.all (fun i => match sl[i]? with
      | some x => topPath x fall
      | none => false)
    onSlices sl members (fun i x =>
      let tk := sliceBits taken i &&& x.cur
      let nt := x.cur &&& ~~~tk
      match fold, x.stack with
      | true, .path p m :: r => { x with stack := .path p (m ||| nt) :: r, cur := tk, pc := target }
      | _, st => { x with stack := .path fall nt :: .merge x.cur none :: st, cur := tk, pc := target })

/-- Gangs after a branch: they part outside an attempt (R18), not inside one (R139). -/
def afterTurn (inTx : Bool) (sl : List Slice) (members : List Nat) : List Slice :=
  let sl := onSlices sl members (fun _ x => { x with hints := .none })
  if inTx then sl else repart sl members

/-- A conditional branch of a gang (R13, R15, R18, R139). -/
def turnBranch (inTx : Bool) (sl : List Slice) (members : List Nat) (act taken : Mask) (target fall : Nat) : Turned :=
  let r := if inTx then branchGang sl members act taken target fall
    else onSlices sl members (fun i x => branchSlice x (sliceBits taken i &&& x.cur) target fall)
  match checkDepth r members with
  | .ok r => .ok (afterTurn inTx r members)
  | .error e => .error e

/-- The distinct targets of a list of lanes, in ascending order of the lowest lane naming each (R14). -/
def targetsOf (tgt : Nat → Nat) (ls : List Nat) : List Nat := dedup (ls.map tgt)

/-- The lanes of a slice that name a target. -/
def namesTarget (tgt : Nat → Nat) (i : Nat) (cur : BitVec 4) (t : Nat) : BitVec 4 :=
  cur &&& sliceBits (maskOf (fun l => tgt l == t)) i

/-- A slice at a branch with a target per lane, over the targets `ts` in order (R14, R139). -/
def indirectSlice (tgt : Nat → Nat) (ts : List Nat) (i : Nat) (x : Slice) : Slice :=
  match ts with
  | [] => x
  | [t] => { x with pc := t }
  | t :: others =>
    { x with stack := others.map (fun u => .path u (namesTarget tgt i x.cur u)) ++ .merge x.cur none :: x.stack,
             cur := namesTarget tgt i x.cur t, pc := t }

/-- A branch with a target per lane (R14, R18, R139). -/
def turnIndirect (inTx : Bool) (sl : List Slice) (members : List Nat) (act : Mask) (tgt : Nat → Nat) : Turned :=
  let all := targetsOf tgt (lanesOf act)
  let r := onSlices sl members (fun i x =>
    if inTx then indirectSlice tgt all i x
    else indirectSlice tgt (targetsOf tgt (lanesOf (sliceMask x.cur i))) i x)
  match checkDepth r members with
  | .ok r => .ok (afterTurn inTx r members)
  | .error e => .error e

/-- The resume PC written into the highest merge entry that has none (R16). -/
def setResume (pc : Nat) : List StackEntry → List StackEntry
  | [] => []
  | .merge m none :: r => .merge m (some pc) :: r
  | .merge m (some p) :: r => .merge m (some p) :: r
  | e :: r => e :: setResume pc r

/-- A slice at join (R16, R17). -/
def joinSlice (live : BitVec 4) (x : Slice) : Slice :=
  match x.stack with
  | [] => { x with pc := x.pc + 4 }
  | .path p m :: r =>
    let st := setResume (x.pc + 4) r
    if m &&& live = 0 then unwind live x st else { x with stack := st, cur := m &&& live, pc := p }
  | .merge m _ :: r => { x with stack := r, cur := m &&& live, pc := x.pc + 4 }

/-- A slice at join inside an attempt: an entry without a lane is popped like any other (R139). -/
def joinSliceTx (live : BitVec 4) (x : Slice) : Slice :=
  match x.stack with
  | [] => { x with pc := x.pc + 4 }
  | .path p m :: r => { x with stack := setResume (x.pc + 4) r, cur := m &&& live, pc := p }
  | .merge m _ :: r => { x with stack := r, cur := m &&& live, pc := x.pc + 4 }

/-- Whether a join inside an attempt would pop an entry pushed before txb (R139). -/
def popsOlder (t : Tx) (sl : List Slice) (members : List Nat) : Bool :=
  members.any (fun i => match sl[i]? with
    | some x => !x.stack.isEmpty && x.stack.length ≤ t.depths.getD i 0
    | none => false)

/-- The group's slices replaced after a control transfer; speculation entries go (R346). -/
def State.turn (s : State) (x : Iss) (sl : List Slice) : State :=
  s.modGroup x.core x.frame (fun g => { g with ctx := { g.ctx with slices := sl }, specs := [] })

/-- Whether the fetch probe of a target finds it outside the working set. -/
def State.fetchOutside (s : State) (g : Group) (pc : Nat) : Bool :=
  match s.probe g false .read [(pc, 4)] with
  | .outside _ => true
  | _ => false

/-- The check of a branch's targets (R232): a target beyond 56 bits or misaligned, then the fetch probe. -/
def targetCheck (s : State) (x : Iss) (lanes : Mask) (tgt : Nat → Nat) : Option Verdict :=
  let bad := maskOf (fun l => hasLane lanes l && (tgt l % 4 != 0 || 2 ^ 56 ≤ tgt l))
  match lowest bad with
  | some l => some (.trap 9 0 bad (tgt l))
  | none =>
    let ranges := (targetsOf tgt (lanesOf lanes)).map (fun t => (t, 4))
    match s.probe x.g false .read ranges with
    | .outside va => some (.trap 7 0 (maskOf (fun l => hasLane lanes l && s.fetchOutside x.g (tgt l))) va)
    | .staging _ => some (.pages (s.stagingPages (s.aspaceOf x.g) ranges))
    | .ready => none

/-- The target of a B-format word, as 64 bits (R178). -/
def branchTarget (pc o : Nat) : Nat := wrapInt (pc + 4 * signExt o 19) 64

/-- br and call (R227 to R229): `link` writes PC + 4 into v2 for the taking lanes. Where a word fails both its target check
and the depth of a divergence stack, the target check comes first (DESIGN CHOICE, log entry 99). The link of the last word of
the address space is 2^56, which does not wrap (DESIGN CHOICE, log entry 133). -/
def branchVerdict (s : State) (x : Iss) (c : BrCond) (m o : Nat) (link : Bool) : Verdict :=
  let taken := takenLanes c x.act (x.maskReg m)
  let target := branchTarget x.pc o
  let ix := x.hints.bnd.getD 0
  if link && taken != 0 && !boundOk x.bounds ix .n64 then .trap 4 0 0 0
  else
    match targetCheck s x taken (fun _ => target) with
    | some v => v
    | none =>
      match turnBranch x.g.tx.isSome x.g.ctx.slices x.slices x.act taken target (x.pc + 4) with
      | .error is => .trap 8 0 (slicesMask x.g.ctx.slices is) 0
      | .ok sl =>
        .go 2 (fun s =>
          if link && taken != 0 then
            match s.group x.core x.frame with
            | none => s
            | some g =>
              match g.ctx.write x.bounds true 2 (.uni) .n64 ix taken (fun _ => BitVec.ofNat 64 (x.pc + 4)) with
              | .error bad => s.takeTrap x.core x.frame (x.info none 10 ix bad 0)
              | .ok c => (s.setGroup x.core x.frame { g with ctx := c }).turn x sl
          else s.turn x sl)

/-- br (R228). -/
def execBr (c : BrCond) (m o : Nat) (s : State) : Host.Outcome State Fault Refusal :=
  issueWord (.br c m o) { } (fun x => branchVerdict s x c m o false) s

/-- call (R229): the link stands in v2 and v3. -/
def execCall (c : BrCond) (m o : Nat) (s : State) : Host.Outcome State Fault Refusal :=
  issueWord (.call c m o) { dsts := [2, 3] } (fun x => branchVerdict s x c m o true) s

/-- join (R230). -/
def execJoin (s : State) : Host.Outcome State Fault Refusal :=
  issueWord .join { } (fun x =>
    .go 1 (fun s =>
      let c := x.g.ctx
      let live := fun i => sliceBits c.live i
      match x.g.tx with
      | some t =>
        if popsOlder t c.slices x.slices then s.modGroup x.core x.frame (fun g => g.abort 13 true)
        else s.turn x (afterTurn true (onSlices c.slices x.slices (fun i y => joinSliceTx (live i) y)) x.slices)
      | none => s.turn x (afterTurn false (onSlices c.slices x.slices (fun i y => joinSlice (live i) y)) x.slices))) s

/-- jmp, calli and ret (R231, R232): targets are read before the link is written; the link as in `branchVerdict` (DESIGN CHOICE,
log entry 133). -/
def indirectVerdict (s : State) (x : Iss) (a : Nat) (link : Option Nat) : Verdict :=
  let tgt := fun l => (x.g.ctx.lane64 a l).toNat
  let ix := x.hints.bnd.getD 0
  if !sourceOk x.g.ctx a .t64 then .trap 4 0 0 0
  else if link.isSome && !boundOk x.bounds ix .n64 then .trap 4 0 0 0
  else
    match targetCheck s x x.act tgt with
    | some v => v
    | none =>
      match turnIndirect x.g.tx.isSome x.g.ctx.slices x.slices x.act tgt with
      | .error is => .trap 8 0 (slicesMask x.g.ctx.slices is) 0
      | .ok sl =>
        .go 4 (fun s =>
          match link, s.group x.core x.frame with
          | some d, some g =>
            match g.ctx.write x.bounds true d .uni .n64 ix x.act (fun _ => BitVec.ofNat 64 (x.pc + 4)) with
            | .error bad => s.takeTrap x.core x.frame (x.info none 10 ix bad 0)
            | .ok c => (s.setGroup x.core x.frame { g with ctx := c }).turn x sl
          | _, _ => s.turn x sl)

/-- jmp (R231). -/
def execJmp (a : Nat) (s : State) : Host.Outcome State Fault Refusal :=
  issueWord (.jmp a) { srcs := [a, a + 1] } (fun x => indirectVerdict s x a none) s

/-- calli (R231). -/
def execCalli (d a : Nat) (s : State) : Host.Outcome State Fault Refusal :=
  issueWord (.calli d a) { srcs := [a, a + 1], dsts := [d, d + 1] } (fun x => indirectVerdict s x a (some d)) s

/-- ret (R231): the effect of jmp. -/
def execRet (a : Nat) (s : State) : Host.Outcome State Fault Refusal :=
  issueWord (.ret a) { srcs := [a, a + 1] } (fun x => indirectVerdict s x a none) s

/-- The group's state after some of its gangs begin to wait: it waits when no gang is left running (R33). -/
def Group.settleWait (g : Group) (now : Nat) : Group :=
  let live := g.ctx.slices.filter (fun x => !x.fin)
  if live.any (fun x => x.wait == .run) then { g with status := .ready }
  else if g.status = .ready then { g with status := .waiting, wait := .gangs, waitStart := now, tokenWait := 0 } else g

/-- A gang that begins to wait, its PC at the instruction that waits; its pending hints stay until the wait ends (R185). -/
def State.gangWaits (s : State) (x : Iss) (w : GangWait) (mark : Slice → Slice) : State :=
  s.modGroup x.core x.frame (fun g =>
    let sl := onSlices g.ctx.slices x.slices (fun _ y => mark { y with wait := w, since := s.cycle })
    ({ g with ctx := { g.ctx with slices := sl } }).settleWait s.cycle)

/-- regang (R20, R233): S = 0 waits for nothing; otherwise the gang waits, and REGANG_MERGE ends the wait. -/
def execRegang (k : Nat) (s : State) : Host.Outcome State Fault Refusal :=
  issueWord (.regang k) { inTx := false } (fun x =>
    .go 2 (fun s => if k = 0 then s.onCtx x id else s.gangWaits x (.regang k) id)) s

/-- exit (R309): the active lanes exit; each slice goes on by R17; a group without a live lane retires. -/
def execExit (s : State) : Host.Outcome State Fault Refusal :=
  issueWord .exit { inTx := false } (fun x =>
    .go 1 (fun s => s.modGroup x.core x.frame (fun g =>
      let live := g.ctx.live &&& ~~~x.act
      let sl := repart (onSlices g.ctx.slices x.slices (fun i y =>
        unwind (sliceBits live i) { y with hints := .none } y.stack)) x.slices
      let g := { g with ctx := { g.ctx with live := live, slices := sl } }
      if live = 0 then { g with status := .retiring } else g.settleWait s.cycle))) s

end Sys2Proof.Machine
end

