-- ==== Sys2Proof/Machine/MemInstr.lean ====
section
/-! DEFINITION. Loads, stores, atomics, locks and the tag table: their checks, the probe, the gates, their entry into the
core's memory queue, and tracked accesses inside an attempt (R86, R93 to R106, R141, R142, R146, R256 to R266, R269 to
R271). -/

namespace Sys2Proof.Machine

/-- The codes a store accepts for its data register (R258). -/
def storeCodeOk (z : Sz) (c : Ctx) (d : Nat) : Bool :=
  let f := (c.reg d).fmt
  match z with
  | .n8 | .s8 => Cls.t32.accepts f || f == .e4m3 || f == .ta8 || f == .ta6
  | .n16 | .s16 => Cls.t32.accepts f || f == .f16 || f == .bf16
  | .n32 | .s32 =>
    Cls.t32.accepts f || (match f with
      | .f16x2 | .bf16x2 | .e4m3x4 | .ta8x4 | .ta6x4 | .e8x4 | .s8x4 | .n8x4 => true
      | _ => false)
  | .f32 => f == .f32
  | .n64 => sourceOk c d .t64

/-- The class of an atomic's operands by its type (R269). -/
def atomCls (t : IntTy) : Cls := if IntTy_size t = 8 then .t64 else .t32

/-- The source codes of a memory instruction: address, then data (R256, R258, R266, R269). -/
def memCodesOk (i : Instr) (f : MemForm) (c : Ctx) : Bool :=
  sourceOk c f.addr (if f.global || f.look then .t64 else .t32) &&
  match i with
  | .stG d _ _ z _ _ | .stL d _ _ z _ => storeCodeOk z c d
  | .stul d _ _ z _ => storeCodeOk (LkSz_sz z) c d
  | .atomAdd _ _ b _ _ t | .atomMin _ _ b _ _ t | .atomMax _ _ b _ _ t => sourceOk c b (atomCls t)
  | .atomAnd _ _ b _ _ | .atomOr _ _ b _ _ | .atomXor _ _ b _ _ => sourceOk c b .t32
  | .atomExch _ _ b _ _ => sourceOk c b .t32 || sourceOk c b (.is .f32)
  | .atomCas _ _ b _ _ .n32 => sourceOk c b .t32 && sourceOk c (b + 1) .t32
  | .atomCas _ _ b _ _ .n64 => sourceOk c b .t64 && sourceOk c (b + 2) .t64
  | .atomFadd _ _ b _ _ | .atomFmin _ _ b _ _ | .atomFmax _ _ b _ _ => sourceOk c b (.is .f32)
  | .red o _ b _ _ t =>
    match o with
    | .fadd | .fmin | .fmax => sourceOk c b (.is .f32)
    | _ => sourceOk c b (atomCls t)
  | _ => true

/-- The price of a memory instruction (R260). -/
def memPrice (i : Instr) (f : MemForm) : Nat :=
  let wide := f.size == 8
  match i with
  | .ldG .. | .stG .. => if wide then 16 else 8
  | .ldL .. | .stL .. => if wide then 5 else 3
  | .lkld .. | .stul .. | .tlook .. => 4
  | .atomLd .. => if wide then 16 else 8
  | .red .. => if wide then 16 else 10
  | _ => if wide then 20 else 12

/-- The bound index that the write-back or the stored register of a memory instruction names (R50, R51, R263). -/
def memBound (x : Iss) (f : MemForm) : Nat :=
  if f.load then x.hints.bnd.getD 0
  else
    match f.atom with
    | some _ => 0
    | none => (x.g.ctx.reg (f.data.headD 0)).bound

/-- The code against which that bound is checked. -/
def memBoundFmt (x : Iss) (f : MemForm) : Fmt := if f.load then f.fmt else (x.g.ctx.reg (f.data.headD 0)).fmt

/-- The permission a global access needs (R262, R271). -/
def memNeed (f : MemForm) : Need :=
  match f.atom with
  | some _ => .atomic
  | none => if f.load then .read else .write

/-- The probe of one lane (R86, R93, R386). -/
def State.probeLane (s : State) (x : Iss) (f : MemForm) (a : Int) : Probe :=
  if a < 0 || 2 ^ 56 ≤ a then .outside (wrapInt a 64)
  else s.probe x.g (f.atom.isNone && x.g.tx.isNone) (memNeed f) [(a.toNat, f.size)]

/-- Whether a probe is outside. -/
def Probe.isOutside : Probe → Bool
  | .outside _ => true
  | _ => false

/-- Whether a probe meets a staging page. -/
def Probe.isStaging : Probe → Bool
  | .staging _ => true
  | _ => false

/-- The checks of a global address: alignment, then the probe, a translation miss of which holds the word (R93, R95, R141,
R257). A staging page is met before a page of span or system scope is looked at (DESIGN CHOICE, log entry 126). -/
def globalChecks (s : State) (x : Iss) (f : MemForm) (caps : List (List Word)) (lanes : Mask) : Option Verdict :=
  let addr := fun l => globalAddr f caps l
  let bad := maskOf (fun l => hasLane lanes l && addr l % (f.size : Int) != 0)
  let out := maskOf (fun l => hasLane lanes l && (s.probeLane x f (addr l)).isOutside)
  let asp := s.aspaceOf x.g
  match lowest bad, lowest out with
  | some l, _ => some (.trap 5 0 bad (wrapInt (addr l) 64))
  | none, some l => some (.trap 7 0 out (wrapInt (addr l) 64))
  | none, none =>
    let ls := lanesOf lanes
    let ms := s.missing x.core asp (ls.map (fun l => ((addr l).toNat, f.size)))
    if !ms.isEmpty then some (.holdAs (fun s => s.walkPages x.core x.frame ms))
    else if ls.any (fun l => (s.probeLane x f (addr l)).isStaging) then
      some (.pages (s.stagingPages asp (ls.map (fun l => ((addr l).toNat, f.size)))))
    else if x.g.tx.isSome && ls.any (fun l => s.scopeAt asp (addr l).toNat != 0) then some (.abort 7 true)
    else none

/-- Whether a local address is refused: outside the crew's store, or a cohort form of lkld and stul (R96, R105, R265). -/
def localBad (s : State) (x : Iss) (f : MemForm) (a : Nat) : Bool :=
  s.localAt x.g a == .bad || (f.lock && a / 2 ^ 21 % 2 == 1)

/-- The checks of a local address: range, then alignment (R96, R257). -/
def localChecks (s : State) (x : Iss) (f : MemForm) (caps : List (List Word)) (lanes : Mask) : Option Verdict :=
  let addr := fun l => localAddr f caps l
  let out := maskOf (fun l => hasLane lanes l && localBad s x f (addr l))
  let bad := maskOf (fun l => hasLane lanes l && addr l % f.size != 0)
  match lowest out, lowest bad with
  | some l, _ => some (.trap 6 0 out (addr l))
  | none, some l => some (.trap 5 0 bad (addr l))
  | none, none => none

/-- The lock bits that the lanes of an lkld or stul name (R104). -/
def lockBits (s : State) (g : Group) (f : MemForm) (caps : List (List Word)) (lanes : Mask) : List Nat :=
  dedup ((lanesOf lanes).filterMap (fun l => match s.localAt g (localAddr f caps l) with
    | .spot _ p => some (lockBit p)
    | _ => none))

/-- Whether an lkld breaks the nesting rule: the group holds a lock bit, but not as this very lkld, which kept its bits
across a trap (R105, R106; log entry 12). -/
def lockNested (s : State) (x : Iss) (again : Bool) : Bool :=
  !again && x.g.relock != some x.pc && (s.core x.core).locks.any (fun b => b.2 == x.frame)

/-- Whether an lkld must wait: another group has one of its bits, or an older held lkld names one (R105). -/
def lockBlocked (s : State) (x : Iss) (bits : List Nat) : Bool :=
  (s.core x.core).locks.any (fun b => b.2 != x.frame && bits.contains b.1) ||
  (s.groupsOn x.core).any (fun p => p.1 != x.frame && s.ageOf p.2 < s.ageOf x.g && p.2.held.any (fun b => bits.contains b))

/-- Entries that a trap would put into the group's replay part (R383). -/
def replayLoad (s : State) (x : Iss) : Nat :=
  let k := s.cluster (clusterOf x.core)
  x.g.ops.length + (k.table.filter (fun r => r.core == x.core && r.frame == x.frame)).length
    + (k.drains.filter (fun d => d.core == x.core && d.frame == x.frame)).length

/-- The counter a memory instruction counts in (R112). -/
def memCount (g : Group) (f : MemForm) : Nat := if f.load then g.ld else g.st

/-- The captured operands of a store after its bound check: clamped data (R83, R263). -/
def clampCaps (f : MemForm) (caps : List (List Word)) (val : Nat → Word64) (lanes : Mask) : List (List Word) :=
  let put := fun (k : Nat) (w : Word64 → Word) (caps : List (List Word)) =>
    lset caps k (lanes32.map (fun l => if hasLane lanes l then w (val l) else capAt caps k l))
  if f.size = 8 then put (f.nAddr + 1) hi32 (put f.nAddr lo32 caps) else put f.nAddr lo32 caps

/-- The value of a stored register as its code sees it: whole, before the low bytes are taken (R263). -/
def storedVal (f : MemForm) (caps : List (List Word)) (l : Nat) : Word64 :=
  BitVec.ofNat 64 (if f.size = 8 then capWide caps f.nAddr l else (capAt caps f.nAddr l).toNat)

/-! ### Tracked accesses (R141, R142, R146) -/

/-- Attempts of other groups that conflict with an access to lines: keys, with their stamps (R146). -/
def conflicts (s : State) (key : Nat) (write : Bool) (lines : List Nat) : List (Nat × Nat) :=
  s.groups.filterMap (fun p =>
    if p.1 = key then none
    else
      match p.2.tx with
      | some t => if lines.any (fun ln => if write then t.touches ln else t.wrote ln) then some (p.1, t.stamp) else none
      | none => none)

/-- Younger attempts that lose a conflict end (R146). -/
def State.abortKeys (s : State) (keys : List Nat) : State :=
  { s with groups := s.groups.map (fun p => if keys.contains p.1 then (p.1, p.2.abort 1 false) else p) }

/-- The lines of a write set (R142). -/
def writeLines (t : Tx) : List Nat := dedup ((t.layers.map (fun l => l.writes.map (fun c => lineOf c.1))).flatten)

/-- The bytes of a tracked read: the attempt's layers, innermost first, over memory and the crew's buffered bytes. -/
def trackedBytes (s : State) (core : Nat) (g : Group) (t : Tx) (pa n : Nat) : List Byte :=
  let base := s.viewBytes core g pa n
  (List.range n).map (fun i =>
    match t.layers.findSome? (fun l => l.writes.find (pa + i)) with
    | some b => b
    | none => base.getD i 0)

/-- The lanes whose tracked read meets poison beside the attempt's own writes (R434). -/
def trackedPoison (s : State) (g : Group) (t : Tx) (pa : Nat → Nat) (size : Nat) (lanes : Mask) : Mask :=
  maskOf (fun l => hasLane lanes l && (List.range size).any (fun i =>
    !t.layers.any (fun y => (y.writes.find (pa l + i)).isSome) && s.crewPoisonAt g (pa l + i) 1))

/-- A tracked access performed at its issue, once the sets have room: a read settles its conflicts with the write sets of
other attempts, and acts as an acquire of device scope; a buffered write conflicts with nothing before its commit, and
carries the generation of the attempt's first write (R91, R135, R142, R146). -/
def trackedEffect (x : Iss) (f : MemForm) (caps : List (List Word)) (lanes : Mask) (ix : Nat)
    (ms : Option Nat) (s : State) : State :=
  match s.group x.core x.frame with
  | none => s
  | some g =>
    match g.tx with
    | none => s
    | some t =>
      let pa := fun l => s.transOf x.core x.frame g (globalAddr f caps l).toNat
      let lines := dedup (((lanesOf lanes).map (fun l => linesOf (pa l) f.size)).flatten)
      let cs := if f.load then conflicts s (gkey x.core x.frame) false lines else []
      if cs.any (fun c => c.2 < t.stamp) then s.setGroup x.core x.frame (g.abort 1 false)
      else
        let reads := if f.load then t.reads ++ lines.filter (fun ln => !t.reads.contains ln) else t.reads
        let ck := checkLanes x.bounds ix (memBoundFmt x f) lanes (storedVal f caps)
        let caps' := clampCaps f caps ck.val lanes
        let wr := if f.load then [] else (lanesOf lanes).map (fun l => ocells (pa l) (leBytes (dataOf f caps' l) f.size))
        let layers := match t.layers with
          | l :: r => { l with writes := wr.foldl Overlay.merge l.writes } :: r
          | [] => []
        let tag := ((s.space (s.aspaceOf g)).gen, (lowest lanes).elim 0 (fun l => (globalAddr f caps l).toNat))
        let t' := { t with reads := reads, layers := layers, gen := if f.load then t.gen else some (t.gen.getD tag) }
        if 512 < reads.length then s.setGroup x.core x.frame (g.abort 3 true)
        else if 64 < (writeLines t').length then s.setGroup x.core x.frame (g.abort 4 true)
        else
          let s := s.abortKeys (cs.map Prod.fst)
          let bad := if f.load then trackedPoison s g t pa f.size lanes else 0
          if bad != 0 then
            let info := { x.info ms 20 0 bad (pa ((lowest bad).getD 0) / 32 * 32) with lanes := bad }
            s.setGroup x.core x.frame { g with poisoned := some (info, s.nextId, none) }
          else if f.load then
            let s := s.clearL1 x.core
            let val := fun l => placeLoaded f (if hasLane lanes l then ofLe (trackedBytes s x.core g t (pa l) f.size) else 0)
            let s := s.setGroup x.core x.frame { g with tx := some t' }
            s.writeResult x ms (f.dstRegs.length == 2) f.dst .gen f.fmt ix lanes val
          else if ck.bad != 0 then s.takeTrap x.core x.frame (x.record ms 10 ix ck.bad 0)
          else s.setGroup x.core x.frame
            { g with tx := some t', ctx := x.advance { g.ctx with bflag := addEvents g.ctx.bflag ck.events } }

/-! ### Entering the memory queue -/

/-- The result that the speculation buffer offers an access, every lane from an entry of its address; a compare-and-swap
takes only a failing one (R346). -/
def specResult (g : Group) (f : MemForm) (caps : List (List Word)) (lanes : Mask) : Option (List Byte) :=
  if f.use ≠ some .spec then none
  else
    let entry := fun l => g.specs.find? (fun e => (e.1 : Int) == globalAddr f caps l && e.2.2 == f.size)
    let ok := (lanesOf lanes).all (fun l => match entry l with
      | some e => f.atom == some .ld || ofLe e.2.1 != dataOf f caps l
      | none => false)
    if ok && lanes != 0 then
      some ((lanes32.map (fun l => if hasLane lanes l then match entry l with
        | some e => padTo e.2.1 f.size
        | none => zeros f.size else zeros f.size)).flatten)
    else none

/-- Speculation entries that no lane's access touches (R346). -/
def dropSpecs (specs : List (Nat × List Byte × Nat)) (f : MemForm) (caps : List (List Word)) (lanes : Mask) :
    List (Nat × List Byte × Nat) :=
  if !f.global then specs
  else specs.filter (fun e => !(lanesOf lanes).any (fun l => meets e.1 e.2.2 (globalAddr f caps l).toNat f.size))

/-- A memory instruction enters the queue of its core: counted, its operands captured, locks set, the gang advanced.
`again` is the operation when it is re-injected (R388); `events` are the bound events of a store, which its write-back
counts (R57); `outs` are the operands that its performance uses. -/
def enterQueue (x : Iss) (i : Instr) (f : MemForm) (caps outs : List (List Word)) (lanes : Mask) (events : Nat)
    (again : Option MemOp) (s : State) : State :=
  let commits := f.load && f.atom.isSome && (s.crew x.g.crew).any Crew.relaunchable
  let refused := commits && s.commitMet x.g.crew
  let s := if commits then s.commitEarly x.g.crew else s
  match (s.group x.core x.frame).filter (fun _ => !refused) with
  | none => s
  | some g =>
    let (n, s) := s.draw
    let (id, s) := s.newId
    let spec := if Config.useSpec n then specResult g f caps lanes else none
    let gen := (s.space (s.aspaceOf g)).gen
    let op : MemOp := match again with
      | some o => { o with caps := caps, outs := outs, gen := gen, early := false, spec := none, again := true, events := events }
      | none => { id := id, ins := i, word := (encode i).getD x.word, pc := x.pc, lanes := lanes, wmask := lanes,
                  hints := x.hints, caps := caps, outs := outs, gen := gen, early := false, spec := spec,
                  xir := if x.xir then g.ctx.xirOf (x.slices.headD 0) else none, again := false, quantum := g.ctx.quantum,
                  events := events, snap := if f.load || f.atom.isSome || f.lock then some g.ctx else none }
    let s := if f.lock && f.load then
        let bits := lockBits s g f caps lanes
        s.modCore x.core (fun c =>
          { c with locks := c.locks.filter (fun b => !bits.contains b.1) ++ bits.map (fun b => (b, x.frame)) })
      else s
    s.setGroup x.core x.frame
      { g with ops := g.ops ++ [op], specs := dropSpecs g.specs f caps lanes, held := [],
               ld := if f.load && again.isNone then g.ld + 1 else g.ld,
               st := if !f.load && again.isNone then g.st + 1 else g.st,
               replay := if again.isSome then g.replay.drop 1 else g.replay,
               ctx := if again.isSome then g.ctx else x.advance g.ctx }

/-- The verdict on a memory instruction with captured operands: codes, addresses, gates, then the queue or, for a plain
global access inside an attempt, its tracked performance (R179, R257, R263). -/
def memVerdict (s : State) (x : Iss) (i : Instr) (f : MemForm) (caps : List (List Word)) (lanes : Mask) (ms : Option Nat)
    (again : Option MemOp) (free : Bool) : Verdict :=
  let ix := memBound x f
  let price := if free then 0 else memPrice i f
  if !memCodesOk i f x.g.ctx || !boundOk x.bounds ix (memBoundFmt x f) then .trap 4 0 0 0
  else if f.lock && f.load && lockNested s x again.isSome then .trap 14 0 0 0
  else
    match if f.look then none else if f.global then globalChecks s x f caps lanes else localChecks s x f caps lanes with
    | some v => v
    | none =>
      if x.g.tx.isSome && f.global then .go price (trackedEffect x f caps lanes ix ms)
      else if again.isNone && 63 ≤ memCount x.g f then .hold
      else if 32 ≤ replayLoad s x then .hold
      else if f.load && f.atom.isSome && s.commitWaits x.g.crew x.core s.nextId then .hold
      else
        let bits := if f.lock && f.load then lockBits s x.g f caps lanes else []
        if lockBlocked s x bits then
          .holdAs (fun s => s.modGroup x.core x.frame (fun g => { g with held := bits }))
        else
          let ck := checkLanes x.bounds ix (memBoundFmt x f) lanes (storedVal f caps)
          if f.load || f.atom.isSome then .go price (enterQueue x i f caps caps lanes 0 again)
          else if ck.bad != 0 then .go price (fun s => s.takeTrap x.core x.frame (x.record ms 10 ix ck.bad 0))
          else .go price (enterQueue x i f caps (clampCaps f caps ck.val lanes) lanes ck.events again)

/-- What the pipeline needs to know of a memory instruction. -/
def memDesc (f : MemForm) (ms : Option Nat) (inTx inXir : Bool) : Desc :=
  { srcs := f.addrRegs ++ f.data, dsts := f.dstRegs, ms := ms, inTx := inTx, inXir := inXir }

/-- The issue of a memory instruction. -/
def issueMem (i : Instr) (ms : Option Nat) (inTx inXir : Bool) (s : State) : Host.Outcome State Fault Refusal :=
  match memForm i with
  | none => issueWord i { } (fun _ => .hold) s
  | some f => issueWord i (memDesc f ms inTx inXir)
      (fun x => memVerdict s x i f (capture x.g.ctx f) (x.eff ms) ms none false) s

/-- ld.g (R262). -/
def execLdG (d a m : Nat) (z : Sz) (c : Option Scope) (o : Nat) (s : State) : Host.Outcome State Fault Refusal :=
  issueMem (.ldG d a m z c o) (some m) c.isNone c.isNone s

/-- st.g (R262, R263). -/
def execStG (d a m : Nat) (z : Sz) (c : Option Scope) (o : Nat) (s : State) : Host.Outcome State Fault Refusal :=
  issueMem (.stG d a m z c o) (some m) c.isNone c.isNone s

/-- ld.l (R264). -/
def execLdL (d a m : Nat) (z : Sz) (o : Nat) (s : State) : Host.Outcome State Fault Refusal :=
  issueMem (.ldL d a m z o) (some m) true true s

/-- st.l (R264). -/
def execStL (d a m : Nat) (z : Sz) (o : Nat) (s : State) : Host.Outcome State Fault Refusal :=
  issueMem (.stL d a m z o) (some m) false true s

/-- lkld (R265). -/
def execLkld (d a m : Nat) (z : LkSz) (o : Nat) (s : State) : Host.Outcome State Fault Refusal :=
  issueMem (.lkld d a m z o) (some m) false false s

/-- stul (R265). -/
def execStul (d a m : Nat) (z : LkSz) (o : Nat) (s : State) : Host.Outcome State Fault Refusal :=
  issueMem (.stul d a m z o) (some m) false false s

/-- tlook (R100, R266). -/
def execTlook (d a m : Nat) (s : State) : Host.Outcome State Fault Refusal :=
  issueMem (.tlook d a m) (some m) true false s

/-- The slot of a tag entry that a lane of tset names, with its value (R99, R100). -/
def tagWrites (x : Iss) (base a b m : Nat) : List (Nat × Word64) :=
  (lanesOf (x.eff (some m))).map (fun l =>
    (base + (x.g.ctx.lane a l).toNat, BitVec.ofNat 64 ((x.g.ctx.lane64 b l).toNat % 2 ^ 56)))

/-- tset (R100, R266): it takes effect on the table at its issue. A tlook that issued earlier and is not yet performed sees it
(DESIGN CHOICE, log entry 100: R266 orders only a tlook that issues after it). -/
def execTset (a b m : Nat) (s : State) : Host.Outcome State Fault Refusal :=
  issueWord (.tset a b m) { srcs := [a, b, b + 1], ms := some m, inTx := false } (fun x =>
    if !sourceOk x.g.ctx a .t32 || !sourceOk x.g.ctx b .t64 then .trap 4 0 0 0
    else
      let slots := match x.launch with
        | some l => l.lbytes / 1024
        | none => 0
      let base := match s.crewOf x.g with
        | some c => c.base / 1024
        | none => 0
      let out := maskOf (fun l => hasLane (x.eff (some m)) l && slots ≤ (x.g.ctx.lane a l).toNat)
      match lowest out with
      | some l => .trap 6 0 out (x.g.ctx.lane a l).toNat
      | none => .go 2 (fun s =>
          (s.modCore x.core (fun c =>
            { c with tags := (tagWrites x base a b m).foldl (fun t p => Sys2Proof.Machine.tset t p.1 p.2) c.tags,
                     tpoison := c.tpoison.filter (fun k => !(tagWrites x base a b m).any (fun p => p.1 == k)) })).onCtx x id)) s

end Sys2Proof.Machine
end

