-- ==== Sys2Proof/Machine/Atomic.lean ====
section
/-! DEFINITION. The global atomics (R269 to R271): each enters the memory queue and is performed there. -/

namespace Sys2Proof.Machine

/-- atom.add (R270). -/
def execAtomAdd (d a b : Nat) (c : Scope) (u : Use) (t : IntTy) (s : State) : Host.Outcome State Fault Refusal :=
  issueMem (.atomAdd d a b c u t) none false false s

/-- atom.min (R270). -/
def execAtomMin (d a b : Nat) (c : Scope) (u : Use) (t : IntTy) (s : State) : Host.Outcome State Fault Refusal :=
  issueMem (.atomMin d a b c u t) none false false s

/-- atom.max (R270). -/
def execAtomMax (d a b : Nat) (c : Scope) (u : Use) (t : IntTy) (s : State) : Host.Outcome State Fault Refusal :=
  issueMem (.atomMax d a b c u t) none false false s

/-- atom.and (R270). -/
def execAtomAnd (d a b : Nat) (c : Scope) (u : Use) (s : State) : Host.Outcome State Fault Refusal :=
  issueMem (.atomAnd d a b c u) none false false s

/-- atom.or (R270). -/
def execAtomOr (d a b : Nat) (c : Scope) (u : Use) (s : State) : Host.Outcome State Fault Refusal :=
  issueMem (.atomOr d a b c u) none false false s

/-- atom.xor (R270). -/
def execAtomXor (d a b : Nat) (c : Scope) (u : Use) (s : State) : Host.Outcome State Fault Refusal :=
  issueMem (.atomXor d a b c u) none false false s

/-- atom.exch (R270). -/
def execAtomExch (d a b : Nat) (c : Scope) (u : Use) (s : State) : Host.Outcome State Fault Refusal :=
  issueMem (.atomExch d a b c u) none false false s

/-- atom.fadd (R270). -/
def execAtomFadd (d a b : Nat) (c : Scope) (u : Use) (s : State) : Host.Outcome State Fault Refusal :=
  issueMem (.atomFadd d a b c u) none false false s

/-- atom.fmin (R270). -/
def execAtomFmin (d a b : Nat) (c : Scope) (u : Use) (s : State) : Host.Outcome State Fault Refusal :=
  issueMem (.atomFmin d a b c u) none false false s

/-- atom.fmax (R270). -/
def execAtomFmax (d a b : Nat) (c : Scope) (u : Use) (s : State) : Host.Outcome State Fault Refusal :=
  issueMem (.atomFmax d a b c u) none false false s

/-- atom.cas (R270). -/
def execAtomCas (d a b : Nat) (c : Scope) (u : Use) (t : CasTy) (s : State) : Host.Outcome State Fault Refusal :=
  issueMem (.atomCas d a b c u t) none false false s

/-- red: the form without a result (R270). -/
def execRed (o : RedOp) (a b : Nat) (c : Scope) (u : Use) (t : IntTy) (s : State) : Host.Outcome State Fault Refusal :=
  issueMem (.red o a b c u t) none false false s

/-- atom.ld (R270): a pure read. -/
def execAtomLd (d a : Nat) (c : Scope) (u : Use) (t : IntTy) (s : State) : Host.Outcome State Fault Refusal :=
  issueMem (.atomLd d a c u t) none false false s

end Sys2Proof.Machine
end

