-- ==== Sys2Proof/Machine/Copy.lean ====
section
/-! DEFINITION. Copies, regions, batches, waits and fences (R101 to R103, R109 to R113, R118, R128, R267, R268, R272 to
R276). -/

namespace Sys2Proof.Machine

/-! ### The copy descriptor (R272, R273) -/

/-- A copy descriptor as fields. -/
structure CopyDesc where
  ndim : Nat
  esize : Nat
  skind : Nat
  dkind : Nat
  sbase : Nat
  dbase : Nat
  extents : List Nat
  sstride : List Int
  dstride : List Int
  reservedOk : Bool

/-- A base field by its kind: its reserved bits must be 0 (R272). -/
def baseOk (kind base : Nat) : Bool :=
  match kind with
  | 0 => base < 2 ^ 56
  | 1 => base < 2 ^ 32
  | _ => base < 2 ^ 8

/-- The 128 bytes of a descriptor read as fields. -/
def readDesc (bs : List Byte) : CopyDesc :=
  let w := fieldAt bs 0 8
  let ndim := w % 8 + 1
  let dims := List.range 8
  let ext := dims.map (fun k => fieldAt bs (24 + 4 * k) 4)
  let ss := dims.map (fun k => signExt (fieldAt bs (56 + 4 * k) 4) 32)
  let ds := dims.map (fun k => signExt (fieldAt bs (88 + 4 * k) 4) 32)
  let sk := bitsOf w 8 2
  let dk := bitsOf w 10 2
  let rest := dims.all (fun k => k < ndim || (ext.getD k 0 == 0 && ss.getD k 0 == 0 && ds.getD k 0 == 0))
  { ndim := ndim, esize := 2 ^ bitsOf w 4 2, skind := sk, dkind := dk, sbase := fieldAt bs 8 8, dbase := fieldAt bs 16 8,
    extents := ext.take ndim, sstride := ss.take ndim, dstride := ds.take ndim,
    reservedOk := bitsOf w 3 1 == 0 && bitsOf w 6 2 == 0 && w / 2 ^ 12 == 0 && fieldAt bs 120 8 == 0 && rest
      && baseOk sk (fieldAt bs 8 8) && baseOk dk (fieldAt bs 16 8) }

/-- The total bytes T of a copy (R273). -/
def CopyDesc.total (d : CopyDesc) : Nat := d.esize * d.extents.foldl (· * ·) 1

/-- The lowest and the highest displacement of an element, in bytes. -/
def strideSpan (esize : Nat) : List Nat → List Int → Int × Int
  | e :: es, s :: ss =>
    let (lo, hi) := strideSpan esize es ss
    let d := ((e : Int) - 1) * s * esize
    (lo + min 0 d, hi + max 0 d)
  | _, _ => (0, 0)

/-- Check 1 of R273. -/
def CopyDesc.malformed (d : CopyDesc) : Bool :=
  !d.reservedOk || d.skind == 3 || d.dkind == 3 || (d.skind == 2 && d.dkind == 2)
  || (d.skind == 2 && d.sstride.any (· != 0)) || (d.dkind == 2 && d.dstride.any (· != 0))
  || 2 ^ 36 < d.total || ((d.skind == 2 || d.dkind == 2) && d.total != 36864)

/-- Whether a local endpoint is refused (R273 check 3). -/
def localEndBad (s : State) (x : Iss) (base : Nat) (span : Int × Int) (esize : Nat) : Bool :=
  let l := match x.launch with
    | some l => l.lbytes
    | none => 0
  let off : Int := (base % 2 ^ 19 : Nat)
  s.localAt x.g base == .bad || off + span.1 < 0 || (l : Int) < off + span.2 + (esize : Int)

/-- The range that an endpoint touches, as start and length. -/
def endRange (base : Nat) (span : Int × Int) (esize : Nat) : List (Int × Nat) :=
  [((base : Int) + span.1, (span.2 - span.1).toNat + esize)]

/-- The probe of a copy's or region's range (R93). -/
def State.probeSpan (s : State) (x : Iss) (n : Need) (rs : List (Int × Nat)) : Probe :=
  match rs.find? (fun r => r.1 < 0 || 2 ^ 56 < r.1 + (r.2 : Int)) with
  | some r => .outside (wrapInt r.1 64)
  | none => s.probe x.g false n (rs.map (fun r => (r.1.toNat, r.2)))

/-- What the pipeline sees of a span that a probe finds ready: a word held by a translation miss (R95), or the word goes on. -/
def State.spanMiss (s : State) (x : Iss) (rs : List (Int × Nat)) (k : Verdict) : Verdict :=
  let ms := s.missing x.core (s.aspaceOf x.g) (rs.map (fun r => (r.1.toNat, r.2)))
  if ms.isEmpty then k else .holdAs (fun s => s.walkPages x.core x.frame ms)

/-- The end point of an operation. -/
def endOf (s : State) (x : Iss) (kind base : Nat) : EndPt :=
  match kind with
  | 0 => .global base
  | 1 =>
    match s.localAt x.g base with
    | .spot c p => .loc (some (c, p))
    | _ => .loc none
  | _ =>
    let slots := match s.cohortOf x.g.crew with
      | some (_, co) => co.slots
      | none => []
    .chuck (clusterOf x.core) (slots.getD base 256)

/-- The first of two probes that stops. -/
def worse (a b : Probe) : Probe :=
  match a, b with
  | .outside v, _ => .outside v
  | _, .outside v => .outside v
  | .ready, p => p
  | p, _ => p

/-- The lanes reported for a word that acts for its lowest active lane. -/
def lowLane (x : Iss) : Mask := match lowest x.act with
  | some l => 1#32 <<< l
  | none => 0

/-- The requests of a cluster that have not retired, those in replay entries of its cores included (R290, R291). -/
def State.readers (s : State) (cl : Nat) : List Nat :=
  let k := s.cluster cl
  let held := fun (rs : List Replay) => (rs.filter (fun r => r.req.isSome)).map (fun r => r.op.id)
  (k.table.map (fun r => r.op.id)) ++ (match k.pass with
    | some p => p.reqs.map (fun r => r.op.id)
    | none => [])
  ++ ((s.groups.filter (fun p => clusterOf (p.1 / 32) == cl)).map (fun p =>
      held p.2.replay ++ (match p.2.handler with
        | some t => held t.replay
        | none => []))).flatten

/-- The operations that a copy waits for: older loads of the group (R110), and older accesses of the lanes that issue it,
which the fork edge orders before it, but for relaxed atomics with a declared use (R131). -/
def forkOps (g : Group) (act : Mask) : List Nat :=
  (g.ops.filter (fun o => match memForm o.ins with
    | some f => f.load || (f.use.isNone && o.lanes &&& act != 0)
    | none => false)).map MemOp.id

/-- Whether a local store of some lanes is still to be performed: the dirty bits of R103 are not final (R131). -/
def localPending (g : Group) (act : Mask) : Bool :=
  g.ops.any (fun o => o.lanes &&& act != 0 && (match memForm o.ins with
    | some f => !f.load && !f.global
    | none => false))

/-- Whether a global end of a copy, from its lowest to its highest byte, meets a range of virtual addresses. -/
def CopyOp.covers (o : CopyOp) (va n : Nat) : Bool :=
  let slots : Nat := (o.wbSlots.map (fun (k : Nat) => 1024 * k)).foldl max 0
  let one := fun (e : EndPt) (strides : List Int) => match e with
    | .global b => (endRange b (strideSpan o.esize o.extents strides) o.esize).any (fun r =>
        decide (r.1 < (va : Int) + n) && decide ((va : Int) < r.1 + r.2 + slots))
    | _ => false
  one o.src o.sstride || one o.dst o.dstride

/-- A copy operation of the group, counted and batched (R110, R112, R113); what a walk has read of its addresses is used no more
(R346). -/
def State.addCopy (s : State) (x : Iss) (mk : Nat → List Nat → List Nat → CopyOp) : State :=
  match s.group x.core x.frame with
  | none => s
  | some g =>
    let (id, s) := s.newId
    let k := s.cluster (clusterOf x.core)
    let o := mk id (forkOps g x.act) (s.readers (clusterOf x.core))
    let s := s.setCluster (clusterOf x.core) { k with copies := k.copies ++ [o] }
    let s := match o.dst with
      | .chuck c n => s.modCluster c (fun k =>
          let q := tget k.chuck n .init
          { k with chuck := Sys2Proof.Machine.tset k.chuck n { q with valid := false, filling := q.filling + 1 } })
      | _ => s
    s.setGroup x.core x.frame { g with cp := g.cp + 1, openOps := g.openOps ++ [id], specs := g.specs.filter (fun e => !o.covers e.1 e.2.2) }

/-- Whether a copy operation must wait at issue (R110, R112). -/
def copyFull (s : State) (x : Iss) : Bool := 64 ≤ (s.cluster (clusterOf x.core)).copies.length || 15 ≤ x.g.cp

/-- The verdict on a cpy whose descriptor has been read (R273, R274). -/
def copyVerdict (s : State) (x : Iss) (d : CopyDesc) : Verdict :=
  let low := lowLane x
  let sspan := strideSpan d.esize d.extents d.sstride
  let dspan := strideSpan d.esize d.extents d.dstride
  let chuckBad := fun kind base => kind == 2 && x.chuckCount ≤ base
  let ranges := (if d.skind = 0 then endRange d.sbase sspan d.esize else [])
    ++ (if d.dkind = 0 then endRange d.dbase dspan d.esize else [])
  if d.malformed then .trap 13 0 low 0
  else if d.total = 0 then .go 16 (fun s => s.onCtx x id)
  else if chuckBad d.skind d.sbase || chuckBad d.dkind d.dbase then .trap 3 0 low 0
  else if d.skind = 1 && localEndBad s x d.sbase sspan d.esize then .trap 6 0 low d.sbase
  else if d.dkind = 1 && localEndBad s x d.dbase dspan d.esize then .trap 6 0 low d.dbase
  else if d.skind ≠ 2 && d.sbase % d.esize ≠ 0 then .trap 5 0 low d.sbase
  else if d.dkind ≠ 2 && d.dbase % d.esize ≠ 0 then .trap 5 0 low d.dbase
  else
    let ps := if d.skind = 0 then s.probeSpan x .read (endRange d.sbase sspan d.esize) else .ready
    let pd := if d.dkind = 0 then s.probeSpan x .write (endRange d.dbase dspan d.esize) else .ready
    match worse ps pd with
    | .outside va => .trap 7 0 low va
    | .staging _ => .pages (s.stagingPages (s.aspaceOf x.g) (ranges.map (fun r => (r.1.toNat, r.2))))
    | .ready =>
      s.spanMiss x ranges <|
      if copyFull s x then .hold
      else .go 16 (fun s =>
        (s.addCopy x (fun id after guards =>
          { id := id, core := x.core, frame := x.frame, crew := x.g.crew, src := endOf s x d.skind d.sbase,
            dst := endOf s x d.dkind d.dbase, esize := d.esize, extents := d.extents, sstride := d.sstride,
            dstride := d.dstride, after := after, started := false, gen := (s.space (s.aspaceOf x.g)).gen, pc := x.pc,
            word := x.word, lanes := x.act, guards := guards, wbSlots := [] })).onCtx x id)

/-- Whether an older operation of the lanes holds the read of a descriptor: an acquire, or a write to its bytes (R116, R120,
R131). -/
def descPending (s : State) (x : Iss) (pa size : Nat) : Bool :=
  x.g.ops.any (fun o => o.lanes &&& x.act != 0 && (match memForm o.ins with
    | some f => f.acq.isSome || ((!f.load || f.atom.isSome) && (lanesOf o.lanes).any (fun l =>
        match s.opSpot x.core x.frame x.g f o.caps l with
        | some (0, a) => meets a f.size pa size
        | _ => false))
    | none => false))

/-- The bytes of a virtual range as the lane reads them, in pieces of 64 that lie on one page each (R88, R89). -/
def State.viewRange (s : State) (x : Iss) (va n : Nat) : List Byte :=
  ((List.range ((n + 63) / 64)).map (fun k =>
    s.viewBytes x.core x.g (s.transOf x.core x.frame x.g (va + 64 * k)) (min 64 (n - 64 * k)))).flatten

/-- The descriptor of rgn.open or cpy: probed as a read of its bytes, then read as the lane reads memory (R257). -/
def withDesc (s : State) (x : Iss) (a size align : Nat) (k : List Byte → Verdict) : Verdict :=
  let va := (x.g.ctx.lane64 a ((lowest x.act).getD 0)).toNat
  let low := lowLane x
  if !sourceOk x.g.ctx a .t64 then .trap 4 0 0 0
  else if va % align ≠ 0 then .trap 5 0 low va
  else
    match s.probeSpan x .read [((va : Int), size)] with
    | .outside v => .trap 7 0 low v
    | .staging _ => .pages (s.stagingPages (s.aspaceOf x.g) [(va, size)])
    | .ready =>
      s.spanMiss x [((va : Int), size)] <|
      if (List.range ((size + 63) / 64)).any (fun k =>
          descPending s x (s.transOf x.core x.frame x.g (va + 64 * k)) (min 64 (size - 64 * k))) then .hold
      else k (s.viewRange x va size)

/-- cpy (R274). -/
def execCpy (a : Nat) (s : State) : Host.Outcome State Fault Refusal :=
  issueWord (.cpy a) { srcs := [a, a + 1], inTx := false }
    (fun x => withDesc s x a 128 64 (fun bs => copyVerdict s x (readDesc bs))) s

/-! ### Regions (R101 to R103, R267, R268) -/

/-- The 16 bytes of a region descriptor, and whether its reserved fields are 0. -/
def readRegion (bs : List Byte) : Region × Bool :=
  let w := fieldAt bs 0 8
  let g := fieldAt bs 8 8
  (⟨w % 2 ^ 9, bitsOf w 16 9, bitsOf w 32 1 == 1, bitsOf w 33 2, g % 2 ^ 56⟩,
    bitsOf w 9 7 == 0 && bitsOf w 25 7 == 0 && w / 2 ^ 35 == 0 && g / 2 ^ 56 == 0)

/-- The checks of R102. -/
def regionBad (c : Crew) (lbytes d : Nat) (r : Region) (reservedOk : Bool) : Bool :=
  c.regions.any (fun p => p.1 == d) || lbytes / 1024 < r.lslot + r.nslot
  || c.regions.any (fun p => meets r.lslot r.nslot p.2.lslot p.2.nslot)
  || r.nslot == 0 || r.wb == 3 || r.gbase % 1024 != 0 || !reservedOk

/-- The copy operation of a fill or of a write-back over some slots of a region (R103). -/
def regionCopy (x : Iss) (c : Crew) (r : Region) (fill : Bool) (slots : List Nat) (gen id : Nat) (after guards : List Nat) :
    CopyOp :=
  let loc := EndPt.loc (some (c.core, c.base + 1024 * r.lslot))
  { id := id, core := x.core, frame := x.frame, crew := x.g.crew, src := if fill then .global r.gbase else loc,
    dst := if fill then loc else .global r.gbase, esize := 1, extents := [1024], sstride := [1], dstride := [1],
    after := after, started := false, gen := gen, pc := x.pc, word := x.word, lanes := x.act, guards := guards,
    wbSlots := slots }

/-- rgn.open (R267): alignment is that of the 16-byte descriptor. -/
def execRgnOpen (a d : Nat) (s : State) : Host.Outcome State Fault Refusal :=
  issueWord (.rgnOpen a d) { srcs := [a, a + 1], inTx := false } (fun x => withDesc s x a 16 16 (fun bs =>
    match s.crewOf x.g, x.launch with
    | some c, some l =>
      let (r, okr) := readRegion bs
      let low := lowLane x
      if regionBad c l.lbytes d r okr then .trap 11 0 low 0
      else
        let span := [((r.gbase : Int), 1024 * r.nslot)]
        let pr := if r.fill then s.probeSpan x .read span else .ready
        let pw := if r.wb ≠ 0 then s.probeSpan x .write span else .ready
        match worse pr pw with
        | .outside v => .trap 7 0 low v
        | .staging _ => .pages (s.stagingPages l.aspace [(r.gbase, 1024 * r.nslot)])
        | .ready =>
          s.spanMiss x (if r.fill || r.wb ≠ 0 then span else []) <|
          if (r.fill && copyFull s x) || localPending x.g x.act then .hold
          else .go 16 (fun s =>
            let slots := (List.range r.nslot).map (fun k => c.base / 1024 + r.lslot + k)
            let s := s.modCrew x.g.crew (fun c => { c with regions := c.regions ++ [(d, r)] })
            let s := s.modCore c.core (fun k => { k with rdirty := k.rdirty.filter (fun y => !slots.contains y) })
            let s := if r.fill then
                s.addCopy x (regionCopy x c r true (List.range r.nslot) (s.space l.aspace).gen)
              else s
            s.onCtx x id)
    | _, _ => .trap 11 0 0 0)) s

/-- The slots, counted from the region's first, that a close writes back (R103). -/
def closeSlots (s : State) (c : Crew) (r : Region) : List Nat :=
  (List.range r.nslot).filter (fun k =>
    r.wb == 2 || (r.wb == 1 && (s.core c.core).rdirty.contains (c.base / 1024 + r.lslot + k)))

/-- rgn.close (R268). -/
def execRgnClose (d : Nat) (s : State) : Host.Outcome State Fault Refusal :=
  issueWord (.rgnClose d) { inTx := false } (fun x =>
    match s.crewOf x.g with
    | none => .trap 11 0 0 0
    | some c =>
      match c.regions.find? (fun p => p.1 == d) with
      | none => .trap 11 0 (lowLane x) 0
      | some (_, r) =>
        let slots := closeSlots s c r
        if (r.wb != 0 && localPending x.g x.act) || (!slots.isEmpty && copyFull s x) then .hold
        else .go 16 (fun s =>
          let s := s.modCrew x.g.crew (fun c => { c with regions := c.regions.filter (fun p => p.1 != d) })
          let s := if slots.isEmpty then s
            else s.addCopy x (regionCopy x c r false slots (s.space (s.aspaceOf x.g)).gen)
          s.onCtx x id)) s

/-! ### Batches and waits (R112, R113, R275) -/

/-- cbat (R113): held while 16 closed batches are incomplete. -/
def execCbat (s : State) : Host.Outcome State Fault Refusal :=
  issueWord .cbat { inTx := false } (fun x =>
    if 16 ≤ x.g.batches.length then .hold
    else .go 1 (fun s =>
      s.modGroup x.core x.frame (fun g =>
        let n := g.ctx.batch + 1
        { g with batches := if g.openOps.isEmpty then g.batches else g.batches ++ [(n, g.openOps)], openOps := [],
                 ctx := x.advance { g.ctx with batch := n } }))) s

/-- A group that begins a counter or batch wait, or goes on at once where it is already over; its pending hints stay until
the wait ends (R185). -/
def State.beginWait (s : State) (x : Iss) (w : Wait) : State :=
  s.modGroup x.core x.frame (fun g =>
    ({ g with status := .waiting, wait := w, waitStart := s.cycle, tokenWait := 0 }).recheck)

/-- wait (R112, R275). -/
def execWait (l st t c : Nat) (s : State) : Host.Outcome State Fault Refusal :=
  issueWord (.wait l st t c) { } (fun x => .go 1 (fun s => s.beginWait x (.counters l st c t))) s

/-- waitb (R113, R275): a batch not yet closed raises the batch-range trap. -/
def execWaitb (n : Nat) (s : State) : Host.Outcome State Fault Refusal :=
  issueWord (.waitb n) { wideOk := true, inTx := false } (fun x =>
    let k : Word := BitVec.ofNat 32 (x.imm n false)
    let ahead := (k - x.g.ctx.batch).toNat
    if 1 ≤ ahead && ahead < 2 ^ 31 then .trap 12 0 0 0
    else .go 1 (fun s => s.beginWait x (.batch k))) s

/-! ### Fences (R118 to R122, R128, R276) -/

/-- Whether operations of the active lanes hold an acquire: older reads (R119). -/
def readsPending (g : Group) (act : Mask) : Bool :=
  g.ops.any (fun op => op.lanes &&& act != 0 && (match memForm op.ins with
    | some f => f.load
    | none => false))

/-- Whether operations of the active lanes hold a release of a scope, or for a wide one any store that the lanes may have
read from their core's L1 before it reached memory (R120, R124, R126, R128). -/
def releasePending (s : State) (core frame : Nat) (g : Group) (act : Mask) (c : Scope) : Bool :=
  g.ops.any (fun op => op.lanes &&& act != 0 && orderedBefore op c) ||
  (Scope_wide c && !(s.earlyOps core).isEmpty) ||
  (Scope_dev c && (s.core core).qbuf.any (fun e => e.threshold && e.made.frame == frame && e.made.lanes &&& act != 0))

/-- The price of a fence by scope (R260). -/
def fencePrice : Scope → Nat
  | .grp | .crew => 1 | .coh => 2 | .dev => 4 | .span | .sys => 8

/-- A fence: held until what it orders is done; an acquire part of cohort scope or wider makes the L1 agree, a release
part of device scope or wider flushes the quantum buffer; what an .ar fence orders is visible to all agents at one moment
(R124, R128, R276). -/
def fenceVerdict (s : State) (x : Iss) (c : Scope) (acq rel : Bool) : Verdict :=
  if acq && readsPending x.g x.act then .hold
  else if rel && releasePending s x.core x.frame x.g x.act c then .hold
  else .go (fencePrice c) (fun s =>
    let s := if rel && Scope_dev c then s.flushWhere x.core (fun _ => true) else s
    let s := if acq && Scope_wide c then s.clearL1 x.core else s
    let s := if acq && rel && Scope_wide c then s.freshen else s
    s.onCtx x id)

/-- fence.acq (R276). -/
def execFenceAcq (c : Scope) (s : State) : Host.Outcome State Fault Refusal :=
  issueWord (.fenceAcq c) { inTx := false } (fun x => fenceVerdict s x c true false) s

/-- fence.rel (R276). -/
def execFenceRel (c : Scope) (s : State) : Host.Outcome State Fault Refusal :=
  issueWord (.fenceRel c) { inTx := false } (fun x => fenceVerdict s x c false true) s

/-- fence.ar (R276). -/
def execFenceAr (c : Scope) (s : State) : Host.Outcome State Fault Refusal :=
  issueWord (.fenceAr c) { inTx := false } (fun x => fenceVerdict s x c true true) s

end Sys2Proof.Machine
end

