-- ==== Sys2Proof/Machine/Tx.lean ====
section
/-! DEFINITION. Transactions: txb, txo, txe, txr and txc (R135, R137 to R156, R277). -/

namespace Sys2Proof.Machine

/-- Whether the issuing gang holds every slice of the group with a live lane (R137, R311). -/
def wholeGang (x : Iss) : Bool := x.g.ctx.liveSlices.all (fun i => x.slices.contains i)

/-- Attempt contexts in use on a core (R138). -/
def State.attempts (s : State) (core : Nat) : Nat := ((s.groupsOn core).filter (fun p => p.2.tx.isSome)).length

/-- The stack depths of the slices. -/
def depthsOf (sl : List Slice) : List Nat := sl.map (fun x => x.stack.length)

/-- The begin of an attempt (R137): a restart after a transient abort at the same txb keeps its stamp and its count of
restarts. -/
def State.beginTx (s : State) (x : Iss) (lfail : Nat) : State :=
  let s := s.clearL1 x.core
  match s.group x.core x.frame with
  | none => s
  | some g =>
    let kept := match g.lastStamp with
      | some (st, n, pc) => if pc = x.pc then some (st, n) else none
      | none => none
    let (st, n) := kept.getD (s.stamp, 0)
    let s := if kept.isSome then s else { s with stamp := s.stamp + 1 }
    let d := depthsOf g.ctx.slices
    let t : Tx :=
      { lanes := x.act, depths := d, lfail := lfail, pc := x.pc, stamp := st, restarts := n, reads := [], gen := none,
        layers := [⟨0, x.act, d, []⟩] }
    s.setGroup x.core x.frame
      { g with tx := some t, lastStamp := none,
               ctx := x.advance { g.ctx with txstat := g.ctx.txstat ||| 0x10000#32 } }

/-- txb (R137, R138, R277): the acquire waits for the group's older operations. -/
def execTxb (o : Nat) (s : State) : Host.Outcome State Fault Refusal :=
  issueWord (.txb o) { inTx := false } (fun x =>
    if !wholeGang x then .trap 15 0 0 0
    else if 4 ≤ s.attempts x.core || !x.g.ops.isEmpty then .hold
    else .go 4 (fun s => s.beginTx x (branchTarget x.pc o))) s

/-- A change of the live attempt by txo or txe, then the advance. -/
def State.onTx (s : State) (x : Iss) (f : Tx → Tx) : State :=
  s.modGroup x.core x.frame (fun g => { g with tx := g.tx.map f, ctx := x.advance g.ctx })

/-- The live attempt ended by its own instruction (R143, R148, R149). -/
def State.abortOwn (s : State) (x : Iss) (cause : Nat) : State :=
  s.modGroup x.core x.frame (fun g => g.abort cause true)

/-- txo (R148). -/
def execTxo (o : Nat) (s : State) : Host.Outcome State Fault Refusal :=
  issueWord (.txo o) { } (fun x =>
    match x.g.tx with
    | none => .trap 15 0 0 0
    | some t => .go 2 (fun s =>
        if 5 ≤ t.layers.length then s.abortOwn x 5
        else s.onTx x (fun t =>
          { t with layers := ⟨branchTarget x.pc o, x.act, depthsOf x.g.ctx.slices, []⟩ :: t.layers }))) s

/-- Two layers as one: the inner layer's writes stand over those of the layer below. -/
def mergeTop : List Layer → List Layer
  | l :: m :: r => { m with writes := Overlay.merge m.writes l.writes } :: r
  | ls => ls

/-- txe (R148). -/
def execTxe (s : State) : Host.Outcome State Fault Refusal :=
  issueWord .txe { } (fun x =>
    match x.g.tx with
    | none => .trap 15 0 0 0
    | some t => .go 2 (fun s =>
        if t.layers.length ≤ 1 then s.abortOwn x 13
        else s.onTx x (fun t => { t with layers := mergeTop t.layers }))) s

/-- A line entered in a signature (R150). -/
def sigAdd (sig : BitVec 512) (line : Nat) : BitVec 512 :=
  let (a, b) := wakeBits line
  sig ||| (1#512 <<< a) ||| (1#512 <<< b)

/-- Exact wake entries in use on a core (R150). -/
def State.exactUsed (s : State) (core : Nat) : Nat := ((s.groupsOn core).map (fun p => p.2.wake.exact.length)).sum

/-- The sleep of a group at its txb (R149, R150). The cause is written when the group wakes. -/
def State.sleepTx (s : State) (x : Iss) (t : Tx) : State :=
  let room := min 64 (256 - s.exactUsed x.core)
  let exact := t.reads.take room
  let rest := t.reads.drop room
  s.modGroup x.core x.frame (fun g =>
    { g with tx := none, lastStamp := none, status := .sleeping, wait := .none, waitStart := s.cycle, tokenWait := 0,
             specs := [], wake := ⟨exact, rest.foldl sigAdd 0, t.reads, false⟩,
             ctx := { g.ctx with
               txstat := txstatWord 0 false 0 t.restarts (!rest.isEmpty) exact.length,
               slices := endSlices g.ctx.slices t.depths (t.lanes &&& g.ctx.live) t.pc true } })

/-- txr (R148, R149). -/
def execTxr (s : State) : Host.Outcome State Fault Refusal :=
  issueWord .txr { } (fun x =>
    match x.g.tx with
    | none => .trap 15 0 0 0
    | some t => .go 2 (fun s =>
        match t.layers with
        | l :: m :: r =>
          s.modGroup x.core x.frame (fun g =>
            { g with tx := some { t with layers := m :: r },
                     ctx := { g.ctx with slices := endSlices g.ctx.slices l.depths (l.lanes &&& g.ctx.live) l.lelse true } })
        | _ => if t.reads.isEmpty then s.abortOwn x 12 else s.sleepTx x t)) s

/-- The writes of an attempt, every layer merged, the base layer lowest. -/
def Tx.writes (t : Tx) : Overlay := t.layers.reverse.foldl (fun o l => Overlay.merge o l.writes) []

/-- The end of an attempt by its commit, and its writes performed: they become visible to every agent at one moment (R135,
R143). -/
def State.endTx (s : State) (x : Iss) (t : Tx) : State :=
  let s := s.modGroup x.core x.frame (fun g =>
    { g with tx := none, lastStamp := none, specs := [],
             ctx := { g.ctx with
               txstat := txstatWord 0 false (t.layers.length - 1) t.restarts (g.ctx.txstat.getLsbD 17)
                 (bitsOf g.ctx.txstat.toNat 18 7),
               slices := endSlices g.ctx.slices t.depths (t.lanes &&& g.ctx.live) (x.pc + 4) true } })
  (s.performRuns x.core t.writes).freshen

/-- The commit of an attempt. The crew's store buffer commits early and the quantum buffer is flushed ahead of it, while the
attempt is live: either may end it (R128, R134, R156). Its writes then conflict: with an older attempt it ends itself, a
younger one ends (R146). Writes of an old generation are rejected (R91). -/
def State.commitTx (s : State) (x : Iss) : State :=
  let refused := (s.crew x.g.crew).any Crew.relaunchable && s.commitMet x.g.crew
  let s := s.commitEarly x.g.crew
  let s := if refused then s else s.flushWhere x.core (fun _ => true)
  match (s.group x.core x.frame).filter (fun _ => !refused) with
  | none => s
  | some g =>
    match g.tx with
    | none => s
    | some t =>
      let cs := conflicts s (gkey x.core x.frame) true (writeLines t)
      let stale := t.gen.filter (fun e => e.1 != (s.space (s.aspaceOf g)).gen)
      if cs.any (fun c => c.2 < t.stamp) then s.setGroup x.core x.frame (g.abort 1 false)
      else
        match stale with
        | some (gen, va) => s.rejectGen g.crew va (s.transOf x.core x.frame g va) gen x.core g.wid
        | none => (s.abortKeys (cs.map Prod.fst)).endTx x t

/-- txc (R143, R277): the release waits for the lanes' older operations. -/
def execTxc (s : State) : Host.Outcome State Fault Refusal :=
  issueWord .txc { } (fun x =>
    match x.g.tx with
    | none => .trap 15 0 0 0
    | some _ =>
      if releasePending s x.core x.frame x.g x.act .dev || s.commitWaits x.g.crew x.core s.nextId then .hold
      else .go 4 (fun s => s.commitTx x)) s

end Sys2Proof.Machine
end

