-- ==== Sys2Proof/Machine/System.lean ====
section
/-! DEFINITION. Control registers, barriers, trap, brk, tret, ebud and pint (R301 to R313, R454). -/

namespace Sys2Proof.Machine

/-! ### Values that the power system latches (R425) -/

/-- The refill cap of a compute die, tokens per interval (R423). -/
def Power.dcap (p : Power) : Nat := p.flux * p.area * 2048 / 2100

/-- c.allow of a cluster (R425). -/
def State.allow (s : State) (cluster : Nat) : Nat := s.power.dcap * (s.cluster cluster).m / 256

/-! ### getc and setc (R56, R303, R304) -/

/-- What getc reads: pair or single, shape before R45, code, value of a lane. -/
structure CRead where
  wide : Bool := false
  kind : ResK := .uni
  fmt : Fmt := .n32
  val : Nat → Nat

/-- The value of a control register at its issue, in a state charged for the read (R26, R56, R168, R303). -/
def readC (s : State) (x : Iss) : CReg → CRead
  | .wid =>
    { wide := true, kind := .aff, fmt := .b32,
      val := fun l => x.g.wid.toNat / 2 ^ 32 * 2 ^ 32 + (x.g.wid.toNat + l) % 2 ^ 32 }
  | .lane => { kind := .aff, val := fun l => l }
  | .slice => { kind := .gen, val := fun l => l / 4 }
  | .gang => { val := fun _ => bitSet x.slices }
  | .where_ => { val := fun _ => x.core }
  | .time => { wide := true, fmt := .n64, val := fun _ => s.time }
  | .tokens => { val := fun _ => (s.core x.core).level }
  | .charge => { val := fun _ => s.power.charge }
  | .allow => { val := fun _ => s.allow (clusterOf x.core) }
  | .txstat => { val := fun _ => x.g.ctx.txstat.toNat }
  | .bflag => { val := fun _ => x.g.ctx.bflag.toNat }
  | .quantum => { val := fun _ => x.g.ctx.quantum.toNat }
  | .batch => { val := fun _ => x.g.ctx.batch.toNat }
  | .round => { val := fun _ => x.g.ctx.round }
  | .seed => { val := fun _ => x.g.ctx.seed.toNat }

/-- The price of a control-register read by the shape of its result (R158, R301). -/
def creadPrice (x : Iss) (k : ResK) : Nat := if covers x.g.ctx.live x.act && k != .gen then 1 else 2

/-- Whether a load or a drain that the group has in flight may still change c.bflag: it checks a bound (R57, R303). -/
def eventsPending (s : State) (x : Iss) : Bool :=
  x.g.ops.any (fun op => match memForm op.ins with
    | some f => op.events != 0 || (f.load && (boundOf x.bounds (op.hints.bnd.getD 0)).isSome)
    | none => false) ||
  (s.cluster (clusterOf x.core)).drains.any (fun d => d.core == x.core && d.frame == x.frame &&
    ((s.core x.core).benches.getD d.bench .init).bound != 0)

/-- getc (R303): held while c.bflag still has events of older instructions to come. -/
def execGetc (d : Nat) (n : CReg) (s : State) : Host.Outcome State Fault Refusal :=
  issueWord (.getc d n) { dsts := if n.isWide then [d, d + 1] else [d] } (fun x =>
    let r := readC s x n
    let ix := x.resultIndex none r.fmt
    if !boundOk x.bounds ix r.fmt then .trap 4 0 0 0
    else if n = .bflag && eventsPending s x then .hold
    else .go (creadPrice x r.kind) (fun s =>
      let r := readC s x n
      s.writeResult x none r.wide d r.kind r.fmt ix x.act (fun l => BitVec.ofNat 64 (r.val l)))) s

/-- The value that setc and pint read: the lowest active lane's (R304, R313). -/
def lowValue (x : Iss) (v : Nat) : Word := x.g.ctx.lane v ((lowest x.act).getD 0)

/-- A writable control register of a context set (R304). -/
def setC (c : Ctx) (n : CReg) (w : Word) : Ctx :=
  match n with
  | .bflag => { c with bflag := w }
  | .quantum => { c with quantum := w }
  | .round => { c with round := w.toNat }
  | .seed => { c with seed := if w = 0 then 1 else w }
  | _ => c

/-- Whether R56 refuses a value. -/
def State.controlBad (s : State) (n : CReg) (w : Word) : Bool :=
  n = .round && (5 ≤ w.toNat || (w.toNat == 4 && !s.features.testBit 13))

/-- setc (R304). -/
def execSetc (d : Nat) (n : CReg) (s : State) : Host.Outcome State Fault Refusal :=
  issueWord (.setc d n) { srcs := [d], inTx := false } (fun x =>
    let w := lowValue x d
    if !sourceOk x.g.ctx d .t32 then .trap 4 0 0 0
    else if s.controlBad n w then .trap 17 0 0 0
    else if n = .bflag && eventsPending s x then .hold
    else .go 2 (fun s => s.onCtx x (fun c => setC c n w))) s

/-! ### Barriers (R306 to R308) -/

/-- Whether accesses of the active lanes are still to be performed before they arrive (R307). -/
def arrivalPending (x : Iss) : Bool := x.g.ops.any (fun op => op.lanes &&& x.act != 0 && orderedBefore op .grp)

/-- bar.crew (R306): the gang waits at the barrier; BARRIER_RELEASE ends the wait. -/
def execBarCrew (s : State) : Host.Outcome State Fault Refusal :=
  issueWord .barCrew { inTx := false } (fun x =>
    if arrivalPending x then .hold
    else .go 2 (fun s => s.gangWaits x .crewBar (fun y => { y with arrCrew := true }))) s

/-- bar.coh (R306); what its lanes may have read before it reached memory is performed before they arrive (R120, R307). -/
def execBarCoh (s : State) : Host.Outcome State Fault Refusal :=
  issueWord .barCoh { inTx := false } (fun x =>
    if arrivalPending x || !(s.earlyOps x.core).isEmpty then .hold
    else .go 2 (fun s => s.gangWaits x .cohBar (fun y => { y with arrCoh := true }))) s

/-! ### trap, brk and tret (R310, R311, R454) -/

/-- A trap that an instruction takes as its own effect: the frame's slices resume at PC + 4 (R310). -/
def State.softTrap (s : State) (x : Iss) (cause sub : Nat) : State :=
  (s.modGroup x.core x.frame (fun g => { g with ctx := x.advance g.ctx })).takeTrap x.core x.frame
    (x.info none cause sub 0 0)

/-- trap n (R310). -/
def execTrap (n : Nat) (s : State) : Host.Outcome State Fault Refusal :=
  issueWord (.trap n) { inTx := false } (fun x => .go 4 (fun s => s.softTrap x 18 n)) s

/-- Whether a launch enables the debugger: flags bit 5 (R454). -/
def debugOn (l : Option Launch) : Bool :=
  match l with
  | some x => x.flags.testBit 5
  | none => false

/-- brk (R310, R454): a debugger stop where the launch enables it, otherwise the breakpoint trap. -/
def execBrk (s : State) : Host.Outcome State Fault Refusal :=
  issueWord .brk { inTx := false } (fun x => .go 4 (fun s => s.softTrap x (if debugOn x.launch then 33 else 19) 0)) s

/-- tret (R311, R386): it waits for the handler's own operations, then the frame is taken. -/
def execTret (s : State) : Host.Outcome State Fault Refusal :=
  issueWord .tret { inTx := false } (fun x =>
    if x.g.inHandler && !x.g.ops.isEmpty then .hold
    else .go 4 (fun s =>
      if x.g.inHandler && wholeGang x then s.resume x.core x.frame else s.parkHandler x.core x.frame 34)) s

/-! ### ebud and pint (R312, R313) -/

/-- The value of an ebud selector (R312). -/
def ebudValue (s : State) (x : Iss) (n : Nat) : Nat :=
  let p := s.power
  match n with
  | 0 => (s.core x.core).level
  | 1 => p.cap
  | 2 => p.rate
  | 3 => (s.die (dieOf x.core)).latched
  | 4 => p.dcap
  | 5 => p.ivPackage
  | 6 => p.grant
  | 7 => p.next
  | 8 => x.g.tokenWait
  | 9 => p.ivCore % 2 ^ 32
  | _ => p.ivIntent

/-- ebud (R312). -/
def execEbud (d n : Nat) (s : State) : Host.Outcome State Fault Refusal :=
  issueWord (.ebud d n) { dsts := [d], inTx := false } (fun x =>
    let ix := x.resultIndex none .n32
    if !boundOk x.bounds ix .n32 then .trap 4 0 0 0
    else .go (creadPrice x .uni) (fun s =>
      let v := min (ebudValue s x n) 0xFFFFFFFF
      s.writeResult x none false d .uni .n32 ix x.act (fun _ => BitVec.ofNat 64 v))) s

/-- The group as the plan of steps names it. -/
def planKey (g : Group) : Nat := g.crew * 16 + g.f1

/-- Whole watts as tokens per interval (R422). -/
def wattTokens (w : Nat) : Nat := w * 20480 / 21

/-- A fixed step without what one declaration put into it (R313): of the steps of a start and a key the first. -/
def cutStep (start made n : Nat) : List (Nat × Nat × Nat) → List (Nat × Nat × Nat)
  | [] => []
  | x :: r =>
    if x.1 = start && x.2.2 = made then (if x.2.1 ≤ n then r else (start, x.2.1 - n, made) :: r) else x :: cutStep start made n r

/-- A declaration of a rise `ahead` intervals on, or the withdrawal of what the group has declared and the device has not announced:
declarations still to be fixed, and those in fixed steps of which no peer has been told (R313, R430). -/
def declareRise (p : Power) (key rise ahead : Nat) : Power :=
  if rise = 0 then
    let mine := p.quiet.filter (fun x => x.2.2.1 == some key)
    { p with decls := p.decls.filter (fun d => d.2.2.2 != some key), quiet := p.quiet.filter (fun x => x.2.2.1 != some key),
             steps := mine.foldl (fun l x => cutStep x.1 x.2.1 x.2.2.2 l) p.steps }
  else { p with decls := p.decls ++ [(p.ivCore + ahead, wattTokens rise, p.ivCore, some key)] }

/-- pint (R313). -/
def execPint (d : Nat) (s : State) : Host.Outcome State Fault Refusal :=
  issueWord (.pint d) { srcs := [d], inTx := false } (fun x =>
    let w := (lowValue x d).toNat
    if !sourceOk x.g.ctx d .t32 then .trap 4 0 0 0
    else if w / 2 ^ 24 ≠ 0 || bitsOf w 12 12 = 0 then .trap 17 0 0 0
    else .go 4 (fun s =>
      ({ s with power := declareRise s.power (planKey x.g) (w % 2 ^ 12) (bitsOf w 12 12) }).onCtx x id)) s

end Sys2Proof.Machine
end

