-- ==== Sys2Proof/Machine/Hints.lean ====
section
/-! DEFINITION. Hints and bbc (R58, R180 to R186, R314, R358, R456). -/

namespace Sys2Proof.Machine

/-- The issue of a hint: one grain, no trap but the illegal instruction; it consumes no pending hint (R180, R181). -/
def issueHint (i : Instr) (pending : Hints → Bool) (effect : Iss → State → State) (s : State) :
    Host.Outcome State Fault Refusal :=
  match s.cur with
  | none => .fault .noIssuer
  | some c =>
    match s.group c.core c.frame with
    | none => .fault .noIssuer
    | some g =>
      let x := s.issOf c g
      if !i.wf || !s.implements i || x.xir || pending x.hints then .next (s.settle x {} (.trap 1 0 0 0))
      else if boundPending g x.bounds then .next s
      else .next (s.settle x {} (.go 1 (effect x)))

/-- The gang moved past a hint with its pending hints changed. -/
def State.afterHint (s : State) (x : Iss) (f : Hints → Hints) : State :=
  s.modGroup x.core x.frame (fun g =>
    let sl := onSlices g.ctx.slices x.slices (fun _ y => { y with hints := f y.hints })
    { g with ctx := { g.ctx with slices := stepSlices sl x.slices true } })

/-- hint.wide (R182). -/
def execHintWide (w : Nat) (s : State) : Host.Outcome State Fault Refusal :=
  issueHint (.hintWide w) (fun h => h.wide.isSome) (fun x s => s.afterHint x (fun h => { h with wide := some w })) s

/-- hint.mext (R183). -/
def execHintMext (s : State) : Host.Outcome State Fault Refusal :=
  issueHint .hintMext Hints.mext (fun x s => s.afterHint x (fun h => { h with mext := true })) s

/-- hint.rnd (R184). -/
def execHintRnd (r : Rnd) (s : State) : Host.Outcome State Fault Refusal :=
  issueHint (.hintRnd r) (fun h => h.rnd.isSome) (fun x s => s.afterHint x (fun h => { h with rnd := some r })) s

/-- hint.bnd (R184). -/
def execHintBnd (i : Nat) (s : State) : Host.Outcome State Fault Refusal :=
  issueHint (.hintBnd i) (fun h => h.bnd.isSome) (fun x s => s.afterHint x (fun h => { h with bnd := some i })) s

/-- An advisory hint's effect on the group, then the gang's advance (R186). -/
def State.advise (s : State) (x : Iss) (f : Group → Group) : State := (s.modGroup x.core x.frame f).afterHint x id

/-- hint.yield (R186): the group is not offered issue for n cycles. -/
def execHintYield (n : Nat) (s : State) : Host.Outcome State Fault Refusal :=
  issueHint (.hintYield n) (fun _ => false) (fun x s => s.advise x (fun g => { g with yield := n })) s

/-- A register brought into the register cache and marked, or its mark cleared (R58). -/
def keepReg (g : Group) (keep : Bool) (r : Nat) : Group :=
  if g.ctx.need ≤ r then g
  else if !keep then { g with cache := g.cache.map (fun e => if e.1 == r then (r, false) else e) }
  else if (g.ctx.reg r).shape.isCompact then g
  else
    if 4 ≤ (g.cache.filter (fun e => e.2 && e.1 != r)).length then g
    else
      let q := if g.cache.any (fun e => e.1 == r) then g.cache else touchCache g.ctx [r] g.cache
      { g with cache := q.map (fun e => if e.1 == r then (r, true) else e) }

/-- hint.keep (R58). -/
def execHintKeep (k : Bool) (r : Nat) (s : State) : Host.Outcome State Fault Refusal :=
  issueHint (.hintKeep k r) (fun _ => false) (fun x s => s.advise x (fun g => keepReg g k r)) s

/-- hint.evict (R58): the entry is written back and dropped. -/
def execHintEvict (r : Nat) (s : State) : Host.Outcome State Fault Refusal :=
  issueHint (.hintEvict r) (fun _ => false)
    (fun x s => s.advise x (fun g => { g with cache := g.cache.filter (fun e => e.1 != r) })) s

/-- hint.fuse (R186): the window of the group's next mmq; 0 stands for the default. -/
def execHintFuse (w : Nat) (s : State) : Host.Outcome State Fault Refusal :=
  issueHint (.hintFuse w) (fun _ => false) (fun x s => s.advise x (fun g => { g with fuse := some w })) s

/-- hint.noahead (R186): run-ahead off or on; a walk in progress ends when it is turned off. -/
def execHintNoahead (f : Bool) (s : State) : Host.Outcome State Fault Refusal :=
  issueHint (.hintNoahead f) (fun _ => false)
    (fun x s => s.advise x (fun g =>
      { g with ahead := if f then none else g.ahead, ctx := { g.ctx with noahead := f } })) s

/-- hint.adv (R180): a no-op. -/
def execHintAdv (k p : Nat) (s : State) : Host.Outcome State Fault Refusal :=
  issueHint (.hintAdv k p) (fun _ => false) (fun x s => s.afterHint x id) s

/-! ### Block counters (R314, R456) -/

/-- The physical address of a counter of a launch. -/
def State.counterPa (s : State) (l : Launch) (n : Nat) : Nat := ((s.space l.aspace).pa (l.counters + 8 * n)).getD (2 ^ 41)

/-- A counter-cache entry performed as a .comm add of device scope, past the crew's store buffer; it recalls every cached copy (R108, R314). -/
def State.flushCount (s : State) (core : Nat) (e : Nat × Nat × Nat) : State :=
  match s.launch e.1 with
  | none => s
  | some l =>
    let pa := s.counterPa l e.2.1
    (s.performFrom core pa (leBytes ((ofLe (s.readMem pa 8) + e.2.2) % 2 ^ 64) 8)).recall (linesOf pa 8)

/-- Counts added in a core's counter cache, most recently used first; a miss in a full cache evicts the last (R456). -/
def State.addCount (s : State) (core launch n k : Nat) : State :=
  let c := (s.core core).bbc
  let mine := fun (e : Nat × Nat × Nat) => e.1 == launch && e.2.1 == n
  match c.find? mine with
  | some e => s.modCore core (fun y => { y with bbc := (launch, n, e.2.2 + k) :: c.filter (fun e => !mine e) })
  | none =>
    let s := s.countCluster (clusterOf core) 5 1
    if c.length < 128 then s.modCore core (fun y => { y with bbc := (launch, n, k) :: c })
    else
      let s := match c.getLast? with
        | some e => s.flushCount core e
        | none => s
      s.modCore core (fun y => { y with bbc := (launch, n, k) :: c.dropLast })

/-- The lanes of a mask, counted. -/
def laneCount (m : Mask) : Nat := (lanesOf m).length

/-- bbc (R314). -/
def execBbc (n : Nat) (s : State) : Host.Outcome State Fault Refusal :=
  issueHint (.bbc n) (fun _ => false) (fun x s =>
    let s := match x.launch, s.crewOf x.g with
      | some l, some c =>
        if l.flags.testBit 2 && n < l.nblocks then s.addCount x.core c.launch n (laneCount x.act) else s
      | _, _ => s
    s.afterHint x id) s

end Sys2Proof.Machine
end

