-- ==== Sys2Proof/Machine/Matrix.lean ====
section
/-! DEFINITION. Matrix and scan instructions: checks, the reservation table, benches and their owners (R278 to R287,
R289 to R297). What passes, scans and drains compute is in MatrixEvents. -/

namespace Sys2Proof.Machine

/-! ### Formats (R279) -/

/-- The element format of a matrix format. -/
def mxElem : MxFmt → Fmt
  | .ta8 => .ta8 | .e4m3 => .e4m3 | .s8 => .s8 | .ta6 => .ta6 | .bf16 => .bf16 | .f16 => .f16

/-- The depth D (R279). -/
def mxDepth : MxFmt → Nat
  | .ta6 => 160
  | .bf16 | .f16 => 64
  | _ => 128

/-- K for a range code (R279). -/
def mxK (f : MxFmt) (k : Nat) : Nat := mxDepth f / 4 * (k + 1)

/-- The matrix format of a drain format; none for f32. -/
def drainMx : DrFmt → Option MxFmt
  | .ta8 => some .ta8 | .e4m3 => some .e4m3 | .s8 => some .s8 | .ta6 => some .ta6 | .bf16 => some .bf16
  | .f16 => some .f16 | .f32 => none

/-- The drain format of a matrix format. -/
def mxDrain : MxFmt → DrFmt
  | .ta8 => .ta8 | .e4m3 => .e4m3 | .s8 => .s8 | .ta6 => .ta6 | .bf16 => .bf16 | .f16 => .f16

/-! ### Instructions as data -/

/-- What a matrix instruction does. -/
inductive MxKind
  | mul (k slot : Nat) (f : MxFmt) (byp : Option Nat)
  | gload
  | scan (isNew clrf : Bool)
  | drain (f : DrFmt) (sat : Bool)
  | state
  | bypass (f : MxFmt) (sat : Bool) (g : Nat)
  deriving DecidableEq, Repr

/-- Kind, bench and operand register of a matrix instruction that makes engine operations. -/
def mxIns : Instr → Option (MxKind × Nat × Option Nat)
  | .mmq b k sl a f => some (.mul k sl f none, b, some a)
  | .mmqByp b k sl c f => some (.mul k sl f (some c), b, none)
  | .mgld b a => some (.gload, b, some a)
  | .mscan b e n => some (.scan n e, b, none)
  | .mdrain b t a f => some (.drain f t, b, some a)
  | .mdrainState b a => some (.state, b, some a)
  | .mdrainByp b t g f => some (.bypass f t g, b, none)
  | _ => none

/-- Whether an instruction acts by quarters (R278). -/
def byQuarters : MxKind → Bool
  | .scan _ _ | .state => false
  | _ => true

/-- The price of one operation (R280). -/
def mxPrice : MxKind → Nat
  | .mul k _ _ _ => 256 * (k + 1)
  | .scan _ _ => 384
  | .state => 64
  | _ => 32

/-- Bytes of local store that one operation reads or writes (R291, R293, R295, R296). -/
def mxBytes : MxKind → Nat
  | .mul _ _ _ none => 4608
  | .gload => 32768
  | .drain f _ =>
    match drainMx f with
    | some m => 4608 * m.segments
    | none => 32768
  | .state => 2112
  | _ => 0

/-- The benches that an operation on bench b takes part with (R285). -/
def mxBenches (k : MxKind) (b : Nat) : List Nat :=
  match k with
  | .mul _ _ _ (some c) => [b, c]
  | .scan _ _ | .state => [b, b + 1]
  | _ => [b]

/-- The benches of an instruction as a queue holds it. -/
def insBenches (i : Instr) : List Nat :=
  match mxIns i with
  | some (k, b, _) => mxBenches k b
  | none => []

/-! ### Benches and their owners (R283, R284) -/

/-- Bench b of a core. -/
def State.bench (s : State) (core b : Nat) : Bench := (s.core core).benches.getD b .init

/-- A core with a bench changed. -/
def State.modBench (s : State) (core b : Nat) (f : Bench → Bench) : State :=
  s.modCore core (fun c => { c with benches := pset .init c.benches b (f (c.benches.getD b .init)) })

/-- Whether a group owns a bench for its matrix instructions; a handler owns none (R284, R385). -/
def ownsBench (s : State) (x : Iss) (b : Nat) : Bool :=
  !x.g.inHandler && (s.bench x.core b).owner == some x.frame && !(s.bench x.core b).releasing

/-- Whether operations of a group on a bench have not retired (R284): in the table, in a pass, drains, replay entries. -/
def State.benchBusy (s : State) (core frame b : Nat) : Bool :=
  let k := s.cluster (clusterOf core)
  let mine := fun (r : Req) => r.core == core && r.frame == frame && (insBenches r.op.ins).contains b
  let held := fun (rs : List Replay) => rs.any (fun r => r.req.isSome && (insBenches r.op.ins).contains b)
  k.table.any mine
  || (match k.pass with
      | some p => p.reqs.any mine
      | none => false)
  || k.drains.any (fun d => d.core == core && d.frame == frame && (insBenches d.op.ins).contains b)
  || (match s.group core frame with
      | some g => held g.replay || (match g.handler with
          | some t => held t.replay
          | none => false)
      | none => false)

/-- Whether operations of a group that may still write a bench have not retired: in the table, in a pass, replay entries
(R292). -/
def State.benchWritten (s : State) (core frame b : Nat) : Bool :=
  let k := s.cluster (clusterOf core)
  let mine := fun (r : Req) => r.core == core && r.frame == frame && (insBenches r.op.ins).contains b
  k.table.any mine
  || (match k.pass with
      | some p => p.reqs.any mine
      | none => false)
  || (match s.group core frame with
      | some g => g.replay.any (fun r => r.req.isSome && (insBenches r.op.ins).contains b)
      | none => false)

/-- Whether a pass still runs for a bench: one of a killed group too (R300). -/
def State.benchRuns (s : State) (core b : Nat) : Bool :=
  match (s.cluster (clusterOf core)).pass with
  | some p => p.reqs.any (fun r => r.core == core && (insBenches r.op.ins).contains b)
  | none => false

/-- Whether a bench is free: unowned or released with every operation retired (R283, R284). -/
def State.benchFree (s : State) (core b : Nat) : Bool :=
  let x := s.bench core b
  !x.frozen && !s.benchRuns core b &&
  match x.owner with
  | none => true
  | some f => x.releasing && !s.benchBusy core f b

/-- The benches of a request: one, or a pair. -/
def pairOf (b : Nat) (aff : Bool) : List Nat := if aff then [b, b + 1] else [b]

/-- Whether somebody queues for a bench; a pair request queues for both benches (R283). -/
def State.benchQueued (s : State) (core b : Nat) : Bool :=
  !(s.bench core b).queue.isEmpty || (b % 2 == 1 && (s.bench core (b - 1)).queue.any (fun q => q.2.1))

/-- A bench as its acquisition leaves it (R283). -/
def acquireBench (frame bound : Nat) (aff clr gains : Bool) (b : Bench) : Bench :=
  let b := { b with owner := some frame, releasing := false, affine := aff, bound := bound,
                    bypass := [none, none, none, none], queue := b.queue.filter (fun q => q.1 != frame) }
  if clr then { b with dflt := if gains then 0x3F800000 else 0, elems := [], poison := [] } else b

/-- The acquisition of a bench or of a pair: bound, elements, pair state (R283). -/
def State.acquire (s : State) (core frame b : Nat) (aff clr : Bool) (bound : Nat) : State :=
  let bs := pairOf b aff
  let same := bs.all (fun n => (s.bench core n).affine == aff)
  let s := bs.foldl (fun s n => s.modBench core n (acquireBench frame bound aff clr (aff && n % 2 == 0))) s
  if aff && same && !clr then s
  else if !aff && same then s
  else s.modCore core (fun c => { c with pairs := pset .init c.pairs (b / 2) .init })

/-- A request put in an owner queue: by priority, highest first, then by age (R283). -/
def insertOwner (e : Nat × Bool × Bool × Nat × Nat × Nat) :
    List (Nat × Bool × Bool × Nat × Nat × Nat) → List (Nat × Bool × Bool × Nat × Nat × Nat)
  | [] => [e]
  | q :: r => if q.2.2.2.2.1 < e.2.2.2.2.1 then e :: q :: r else q :: insertOwner e r

/-- macq (R283). -/
def execMacq (b : Nat) (c : Bool) (i : Nat) (f : Bool) (s : State) : Host.Outcome State Fault Refusal :=
  issueWord (.macq b c i f) { inTx := false } (fun x =>
    let ix := x.hints.bnd.getD i
    let bs := pairOf b f
    let mine := fun n => (ownsBench s x n) || (s.bench x.core n).queue.any (fun q => q.1 == x.frame)
    if !boundOk x.bounds ix .f32 then .trap 4 0 0 0
    else if x.g.inHandler then .trap 16 1 0 0
    else if bs.any (fun n => x.g.benchCtx.any (fun e => e.1 == n)) then .hold
    else if bs.any mine then .trap 16 3 0 0
    else .go 2 (fun s =>
      if bs.all (fun n => s.benchFree x.core n && !s.benchQueued x.core n) then
        (s.acquire x.core x.frame b f c ix).onCtx x id
      else
        let (age, s) := s.newId
        let s := s.modBench x.core b (fun k => { k with queue := insertOwner (x.frame, f, c, ix, s.recordPrio x.g, age) k.queue })
        s.beginWait x (.bench b))) s

/-- mrel (R284): the group stops being owner at once; the bench passes on when its operations have retired. -/
def execMrel (b : Nat) (s : State) : Host.Outcome State Fault Refusal :=
  issueWord (.mrel b) { inTx := false } (fun x =>
    let aff := (s.bench x.core b).affine
    if x.g.benchCtx.any (fun e => e.1 == b) then .hold
    else if !ownsBench s x b then .trap 16 1 0 0
    else if aff && b % 2 == 1 then .trap 16 2 0 0
    else if (pairOf b aff).any (fun n => (s.bench x.core n).frozen) then .hold
    else .go 2 (fun s =>
      let s := (pairOf b aff).foldl (fun s n =>
        if s.benchBusy x.core x.frame n then s.modBench x.core n (fun k => { k with releasing := true })
        else s.modBench x.core n (fun k => { k with owner := none, bypass := [none, none, none, none] })) s
      s.onCtx x id)) s

/-! ### Checks (R281, R282, R290) -/

/-- The physical slot that a slot number of a crew's cohort names. -/
def State.slotOfCrew (s : State) (crew k : Nat) : Nat :=
  match s.cohortOf crew with
  | some (_, c) => c.slots.getD k 256
  | none => 256

/-- The physical slot that a slot number names for the issuing group. -/
def State.slotOf (s : State) (x : Iss) (k : Nat) : Nat := s.slotOfCrew x.g.crew k

/-- A slot of the issuing core's cluster. -/
def State.chuckAt (s : State) (core slot : Nat) : Chuck := tget (s.cluster (clusterOf core)).chuck slot .init

/-- The format of the tile in a quarter of a bench's bypass buffer as the group's older operations leave it: that of its
youngest mdrain.byp still to be drained, or of the tile held (R281, R285, R294). -/
def bypassFmt (s : State) (x : Iss) (c q : Nat) : Option MxFmt :=
  match (s.cluster (clusterOf x.core)).drains.reverse.find? (fun d =>
      d.core == x.core && d.frame == x.frame && d.kind == 2 && d.bench == c && d.quarter == q) with
  | some d => drainMx d.fmt
  | none => ((s.bench x.core c).bypass.getD q none).map Prod.fst

/-- The cause of the matrix-state trap for an operation of quarter q (R281, R282); `again` is a re-injected request, whose
group may have released the bench since. -/
def mxState (s : State) (x : Iss) (k : MxKind) (b q : Nat) (again : Bool) : Option Nat :=
  let own := fun n => ownsBench s x n || (again && (s.bench x.core n).owner == some x.frame)
  let bn := s.bench x.core b
  match k with
  | .mul _ sl _ byp =>
    if !own b then some 1
    else
      match byp with
      | some c =>
        if !own c then some 1
        else if bn.affine && b % 2 == 0 then some 2
        else if (bypassFmt s x c q).isNone then some 4
        else
          let ch := s.chuckAt x.core (s.slotOf x sl)
          if !ch.valid && ch.filling == 0 then some 5 else none
      | none =>
        if bn.affine && b % 2 == 0 then some 2
        else
          let ch := s.chuckAt x.core (s.slotOf x sl)
          if !ch.valid && ch.filling == 0 then some 5 else none
  | .gload | .scan _ _ | .state => if !own b then some 1 else if !bn.affine || b % 2 == 1 then some 2 else none
  | .drain _ _ | .bypass _ _ _ => if !own b then some 1 else none

/-- Whether the format-mismatch trap stops an operation (R281, R290, R294). -/
def mxFormatBad (s : State) (x : Iss) (k : MxKind) (va : Option Nat) (q : Nat) : Bool :=
  (match va with
    | some v => !sourceOk x.g.ctx v .t32
    | none => false) ||
  match k with
  | .mul _ sl f byp =>
    (match (s.chuckAt x.core (s.slotOf x sl)).fmt with
      | some g => g != f
      | none => false) ||
    (match byp with
      | some c => (match bypassFmt s x c q with
          | some g => g != f
          | none => false)
      | none => false)
  | _ => false

/-- Whether a slot's fill holds an operation at issue (R290). -/
def mxFilling (s : State) (x : Iss) (k : MxKind) : Bool :=
  match k with
  | .mul _ sl _ _ => !(s.chuckAt x.core (s.slotOf x sl)).valid
  | _ => false

/-- The local store that an operation reaches: refused, or the place of its first byte, none of an absent rank. -/
def mxPlace (s : State) (x : Iss) (a n : Nat) : Option (Option (Nat × Nat)) :=
  let lbytes := match x.launch with
    | some l => l.lbytes
    | none => 0
  if n ≠ 0 && lbytes < a % 2 ^ 19 + n then none
  else
    match s.localAt x.g a with
    | .bad => none
    | .absent => some none
    | .spot c p => some (some (c, p))

/-- Requests that enter the reservation table; the others are drains. -/
def mxTabled : MxKind → Bool
  | .mul _ _ _ _ | .gload | .scan _ _ => true
  | _ => false

/-- The lanes of a quarter (R278). -/
def quarterMask (q : Nat) : Mask := (0xFF#32) <<< (8 * q)

/-- The lowest lane that supplies an operation's operand: of the quarter, or of Active(). -/
def mxLane (k : MxKind) (act : Mask) (q : Nat) : Option Nat := lowest (if byQuarters k then act &&& quarterMask q else act)

/-- The bound under which a bench is drained; mdrain.state has none (R292, R295). -/
def drainBound (s : State) (x : Iss) (k : MxKind) (b : Nat) : Option Bound :=
  match k with
  | .drain _ _ | .bypass _ _ _ => boundOf x.bounds (s.bench x.core b).bound
  | _ => none

/-- The columns that a drain converts (R292, R294). -/
def drainCols : MxKind → List Nat
  | .bypass f _ g => (List.range (min (mxDepth f) (256 - g * mxDepth f))).map (fun j => g * mxDepth f + j)
  | .drain _ _ => List.range 256
  | _ => []

/-- Whether an element of a quarter fails a trap-mode bound (R292). -/
def quarterFails (s : State) (x : Iss) (k : MxKind) (b q : Nat) (bd : Bound) : Bool :=
  let bn := s.bench x.core b
  (List.range 32).any (fun i => (drainCols k).any (fun j =>
    outCount bd .f32 (bn.elem (32 * q + i) j).toNat != 0))

/-- Quarters with an active lane. -/
def activeQuarters (act : Mask) : List Nat := [0, 1, 2, 3].filter (fun q => act &&& quarterMask q != 0)

/-- Quarters of the instruction that its gang has issued (R278). -/
def quartersDone (x : Iss) : Nat := x.g.ctx.quartersOf (x.slices.headD 0)

/-- The LFSR after n steps. -/
def lfsrSteps : Nat → Word → Word
  | 0, w => w
  | n + 1, w => lfsrSteps n (lfsrStep w)

/-- LFSR steps that a drain operation takes under stochastic mode (R292). -/
def drainSteps (x : Iss) (k : MxKind) : Nat :=
  if x.mode ≠ .rs then 0
  else
    match k with
    | .drain .f32 _ | .drain .s8 _ | .bypass .s8 _ _ => 0
    | k => 32 * (drainCols k).length

/-- The fusion window that an mmq takes (R286). -/
def windowOf (g : Group) : Nat :=
  match g.fuse with
  | none | some 0 => 32
  | some w => w

/-- The fusion window of a request at its issue: that of the group's pending hint for the first quarter of an mmq, the same
for its other quarters (R286); an mgld has no hint and the default (R296; log entry 37). -/
def requestWindow (x : Iss) (g : Group) : MxKind → Nat
  | .mul _ _ _ _ =>
    if quartersDone x = 0 then windowOf g else ((g.ctx.slices[x.slices.headD 0]?).map Slice.window).getD 32
  | _ => 32

/-- A request put in the reservation table, or a drain put among the cluster's (R285, R286, R292); an mmq fixes the format
of its slot (R290). A request that re-enters keeps its age; its entry cycle is that of its re-entry (R299; DESIGN CHOICE, log
entry 129). -/
def State.addMatrix (s : State) (core frame : Nat) (g : Group) (op : MemOp) (k : MxKind) (b q : Nat)
    (place : Option (Nat × Nat)) (tag : ReqTag) : State :=
  let cl := clusterOf core
  let guards := s.readers cl
  let kk := s.cluster cl
  let coh := match s.cohortOf g.crew with
    | some (n, _) => n
    | none => 0
  let r : Req :=
    { core := core, frame := frame, cohort := coh, quarter := q, scan := false, gload := false, isNew := false,
      clrf := false, bench := b, bypass := none, slot := 256, k := 0, fmt := .ta8, base := place, prio := s.recordPrio g,
      age := tag.age, entry := s.cycle, window := tag.window, op := op, killed := none, tile := [] }
  let d : Drain :=
    { id := op.id, core := core, frame := frame, bench := b, kind := 0, quarter := q, fmt := .f32, sat := false,
      seg := 0, target := place, rnd := tag.rnd, op := op, seed := tag.seed, guards := guards }
  let add := fun (r : Req) => s.setCluster cl { kk with table := kk.table ++ [r], age := kk.age + 1 }
  match k with
  | .mul kc sl f byp =>
    let slot := s.slotOfCrew g.crew sl
    (add { r with bypass := byp, slot := slot, k := kc, fmt := f }).modCluster cl (fun c =>
      let h := tget c.chuck slot .init
      { c with chuck := Sys2Proof.Machine.tset c.chuck slot { h with fmt := some f } })
  | .gload => add { r with gload := true }
  | .scan n e => add { r with scan := true, isNew := n, clrf := e }
  | .drain f t => s.setCluster cl { kk with drains := kk.drains ++ [{ d with fmt := f, sat := t }] }
  | .state => s.setCluster cl { kk with drains := kk.drains ++ [{ d with kind := 1 }] }
  | .bypass f t sg =>
    s.setCluster cl { kk with drains := kk.drains ++ [{ d with kind := 2, fmt := mxDrain f, sat := t, seg := sg }] }

/-- A matrix operation entered in the cluster at its issue or its re-injection: counted, its gang moved on. -/
def enterMatrix (x : Iss) (i : Instr) (k : MxKind) (b q : Nat) (place : Option (Nat × Nat)) (caps : List (List Word))
    (again : Option Replay) (s : State) : State :=
  match s.group x.core x.frame with
  | none => s
  | some g =>
    let (id, s) := s.newId
    let op : MemOp := match again with
      | some r => { r.op with caps := caps, outs := caps, again := true }
      | none => { id := id, ins := i, word := (encode i).getD x.word, pc := x.pc, lanes := x.act, wmask := x.act,
                  hints := x.hints, caps := caps, outs := caps, gen := 0, early := false, spec := none, xir := none, again := false,
                  quantum := 0, events := 0, snap := none }
    let win := requestWindow x g k
    let fresh : ReqTag := ⟨(s.cluster (clusterOf x.core)).age, win, q, g.ctx.seed, x.mode⟩
    let tag := match again with
      | some r => r.req.getD fresh
      | none => fresh
    let s := s.addMatrix x.core x.frame g op k b q place tag
    let done := quartersDone x ||| 2 ^ q
    let last := !byQuarters k || (activeQuarters x.act).all (fun n => done.testBit n)
    s.setGroup x.core x.frame
      (match again with
      | some _ => { g with replay := g.replay.drop 1 }
      | none =>
        let lead := x.slices.headD 0
        let c := { g.ctx with seed := lfsrSteps (drainSteps x k) g.ctx.seed,
                              slices := setWindow (setQuarters g.ctx.slices lead (if last then 0 else done)) lead
                                (if last then 0 else win) }
        { g with tl := g.tl + 1, fuse := (match k with
            | .mul _ _ _ _ => none
            | _ => g.fuse), ctx := if last then x.advance c else c })

/-- An mdrain that fails its checks leaves nothing (R292): the drains of its quarters that have issued go, with their
counts and their LFSR steps. -/
def State.undoDrains (s : State) (x : Iss) (b : Nat) : State :=
  let cl := clusterOf x.core
  let mine := fun (d : Drain) => d.core == x.core && d.frame == x.frame && d.bench == b && d.op.pc == x.pc
    && d.op.lanes == x.act
  let gone := (s.cluster cl).drains.filter mine
  let s := s.modCluster cl (fun k => { k with drains := k.drains.filter (fun d => !mine d) })
  s.modGroup x.core x.frame (fun g =>
    { g with tl := g.tl - gone.length,
             ctx := { g.ctx with seed := (gone.head?.map Drain.seed).getD g.ctx.seed,
                                 slices := setQuarters g.ctx.slices (x.slices.headD 0) 0 } })

/-- The trap record of a quarter operation: Active() and the lanes that supplied the failing quarters' operands (R382). -/
def supplyLanes (act : Mask) (qs : List Nat) : Mask :=
  qs.foldl (fun m q => match lowest (act &&& quarterMask q) with
    | some l => m ||| (1#32 <<< l)
    | none => m) 0

/-- The verdict on one operation of a matrix instruction, at its issue or re-injected (R278, R281, R286, R290, R292). -/
def mxVerdict (s : State) (x : Iss) (i : Instr) (k : MxKind) (b : Nat) (va : Option Nat) (q : Nat)
    (caps : List (List Word)) (again : Option Replay) (free : Bool) : Verdict :=
  let price := if free then 0 else mxPrice k
  let lane := mxLane k x.act q
  let fl : Mask := match lane with
    | some l => 1#32 <<< l
    | none => 0
  let a := (capAt caps 0 (lane.getD 0)).toNat
  let n := mxBytes k
  let busy := (mxBenches k b).any (fun m => s.benchWritten x.core x.frame m)
  let away := (mxBenches k b).any (fun m => x.g.benchCtx.any (fun e => e.1 == m))
  match if away then none else mxState s x k b q again.isSome with
  | some c => .trap 16 c fl 0
  | none =>
    if away then .hold
    else if (mxBenches k b).any (fun m => (s.bench x.core m).frozen) then .hold
    else if mxFilling s x k then .hold
    else if mxFormatBad s x k va q then .trap 4 0 fl 0
    else
      match if n = 0 then some none else mxPlace s x a n with
      | none => .trap 6 0 fl a
      | some place =>
        if n ≠ 0 && a % 16 ≠ 0 then .trap 5 0 fl a
        else if again.isNone && 15 ≤ x.g.tl then .hold
        else if mxTabled k && 64 ≤ (s.cluster (clusterOf x.core)).table.length then .hold
        else if 32 ≤ replayLoad s x then .hold
        else
          match drainBound s x k b with
          | some bd =>
            if bd.mode != .trap then .go price (enterMatrix x i k b q place caps again)
            else if busy && quartersDone x = 0 && again.isNone then .hold
            else
              let qs := if again.isSome then [q] else activeQuarters x.act
              let bad := qs.filter (fun m => quarterFails s x k b m bd)
              let last := qs.all (fun m => m == q || (quartersDone x).testBit m)
              if bad.isEmpty || !last then .go price (enterMatrix x i k b q place caps again)
              else .go price (fun s =>
                (if again.isSome then s else s.undoDrains x b).takeTrap x.core x.frame
                  ⟨10, (s.bench x.core b).bound, x.pc, x.act, supplyLanes x.act bad, x.word, 0, again.isSome⟩)
          | none => .go price (enterMatrix x i k b q place caps again)

/-- The issue of a matrix instruction: its next quarter operation, or its single operation (R278). -/
def issueMatrix (i : Instr) (s : State) : Host.Outcome State Fault Refusal :=
  match mxIns i with
  | none => issueWord i { } (fun _ => .trap 1 0 0 0) s
  | some (k, b, va) =>
    issueWord i { srcs := va.toList, inTx := false, chuck := (match k with
        | .mul _ sl _ _ => some sl
        | _ => none) } (fun x =>
      let caps := va.toList.map (fun v => lanes32.map (fun l => x.g.ctx.lane v l))
      if byQuarters k then
        match (activeQuarters x.act).find? (fun q => !(quartersDone x).testBit q) with
        | some q => mxVerdict s x i k b va q caps none false
        | none => .free (fun s => s.onCtx x (fun c => { c with slices := setQuarters c.slices (x.slices.headD 0) 0 }))
      else mxVerdict s x i k b va 0 caps none false) s

/-- mmq (R289). -/
def execMmq (b k sl a : Nat) (f : MxFmt) (s : State) : Host.Outcome State Fault Refusal := issueMatrix (.mmq b k sl a f) s

/-- mmq.byp (R294). -/
def execMmqByp (b k sl c : Nat) (f : MxFmt) (s : State) : Host.Outcome State Fault Refusal :=
  issueMatrix (.mmqByp b k sl c f) s

/-- mgld (R296). -/
def execMgld (b a : Nat) (s : State) : Host.Outcome State Fault Refusal := issueMatrix (.mgld b a) s

/-- mscan (R297). -/
def execMscan (b : Nat) (e n : Bool) (s : State) : Host.Outcome State Fault Refusal := issueMatrix (.mscan b e n) s

/-- mdrain (R292). -/
def execMdrain (b : Nat) (t : Bool) (a : Nat) (f : DrFmt) (s : State) : Host.Outcome State Fault Refusal :=
  issueMatrix (.mdrain b t a f) s

/-- mdrain.state (R295). -/
def execMdrainState (b a : Nat) (s : State) : Host.Outcome State Fault Refusal := issueMatrix (.mdrainState b a) s

/-- mdrain.byp (R294). -/
def execMdrainByp (b : Nat) (t : Bool) (g : Nat) (f : MxFmt) (s : State) : Host.Outcome State Fault Refusal :=
  issueMatrix (.mdrainByp b t g f) s

end Sys2Proof.Machine
end

