-- ==== Sys2Proof/Machine/MatrixEvents.lean ====
section
/-! DEFINITION. What the matrix engine, the spindle and the drains do: grants, passes, scan chunks, drains and the
handover of benches (R77 to R79, R166, R283 to R300). -/

namespace Sys2Proof.Machine

/-- An event that is enabled takes effect; one that is not leaves the state as it is. -/
def whenEnabled (ok : Bool) (effect : State → State) (s : State) : Host.Outcome State Fault Refusal :=
  .next (if ok then effect s else s)

/-! ### The value of a chunk (R78, R79) -/

/-- Element e of a 144-byte row (R55). -/
def rowElem (f : MxFmt) (row : List Byte) (e : Nat) : Nat :=
  match f with
  | .ta6 => fieldAt row 0 120 / 2 ^ (6 * e) % 64
  | .bf16 | .f16 => fieldAt row (2 * e) 2
  | _ => fieldAt row e 1

/-- The scale code of block b of a row; none for formats without scales. -/
def rowScale (f : MxFmt) (row : List Byte) (b : Nat) : Option Nat :=
  match f with
  | .ta6 => some (fieldAt row (120 + b) 1)
  | .bf16 | .f16 => none
  | _ => some (fieldAt row (128 + b) 1)

/-- The window position P (R78). -/
def windowP : MxFmt → Int
  | .ta6 => 31
  | .bf16 | .f16 => 48
  | _ => 23

/-- The value of element e of a row. -/
def rowVal (f : MxFmt) (row : List Byte) (e : Nat) : Val := elemVal (mxElem f) (elemBits (mxElem f)) (rowElem f row e)

/-- A finite value times 2^k, cut to an integer toward zero (R79). -/
def truncScaled (k : Int) : Val → Int
  | .real neg m e _ =>
    let p := e + k
    let x := if 0 ≤ p then m * 2 ^ p.toNat else m / 2 ^ (-p).toNat
    if neg then -(x : Int) else x
  | _ => 0

/-- The exponent of the greatest magnitude of a list of finite products; none if all are zero. -/
def topExp (ps : List Val) : Option Int :=
  ps.foldl (fun best p => match p with
    | .real _ m e _ =>
      if m = 0 then best
      else
        match best with
        | some b => some (max b (magLog2 m e))
        | none => some (magLog2 m e)
    | _ => best) none

/-- A block's exact sum and combined scale, from its products and the two scale codes (R78, R79). -/
def blockTerm (ps : List Val) (scale : Option Int) : Val × Option Int :=
  let sum := ps.foldl (fun a p => a.add .rn p) (Val.zero false)
  match scale with
  | some eb => (sum.scale eb, some eb)
  | none => (sum, topExp ps)

/-- The f32 code of a chunk C (R79). -/
def chunkValue (f : MxFmt) (k : Nat) (a b : List Byte) : Nat :=
  let n := mxK f k / 8
  let prods := (List.range (mxK f k)).map (fun e => (rowVal f a e).mul (rowVal f b e))
  let badScale := (List.range n).any (fun j => rowScale f a j == some 255 || rowScale f b j == some 255)
  let infs := prods.filterMap (fun p => match p with
    | .inf s => some s
    | _ => none)
  if badScale || prods.any Val.isNan then nanCode .f32
  else if infs.contains true && infs.contains false then nanCode .f32
  else
    match infs with
    | s :: _ => roundTo .f32 .rn 0 false (.inf s)
    | [] =>
      let terms := (List.range n).map (fun j =>
        blockTerm ((prods.drop (8 * j)).take 8) (match rowScale f a j, rowScale f b j with
          | some x, some y => some ((x : Int) - 127 + ((y : Int) - 127))
          | _, _ => none))
      let es := terms.filterMap Prod.snd
      match es with
      | [] => 0
      | e :: r =>
        let emax := r.foldl max e
        let w := (terms.map (fun t => if t.2.isSome then truncScaled (windowP f - emax) t.1 else 0)).foldl (· + ·) 0
        roundTo .f32 .rn 0 false ((Val.ofInt w).scale (emax - windowP f))

/-- A bench element with a chunk added (R79). -/
def accumulate (x : Word) (c : Nat) : Word :=
  BitVec.ofNat 32 (roundTo .f32 .rn 0 false ((decodeElem .f32 x.toNat).add .rn (decodeElem .f32 c)))

/-! ### Benches written -/

/-- A run of bench elements replaced; their poison goes. -/
def benchPut (b : Bench) (lo : Nat) (ws : List Word) : Bench :=
  { b with elems := b.elems.filter (fun e => !(lo ≤ e.1 && e.1 < lo + ws.length)) ++ ws.mapIdx (fun i w => (lo + i, w)),
           poison := b.poison.filter (fun e => !(lo ≤ e && e < lo + ws.length)) }

/-- The elements of some rows of a bench. -/
def benchRows (b : Bench) (row n : Nat) : List Word := (List.range (256 * n)).map (fun i => b.elem (row + i / 256) (i % 256))

/-! ### Grants (R285 to R288) -/

/-- Whether two operations share a bench. -/
def shareBench (a b : Instr) : Bool := (insBenches a).any (fun n => (insBenches b).contains n)

/-- Whether an older operation of the same group on a shared bench is still to be granted or drained (R285). -/
def Cluster.blocked (k : Cluster) (core frame id : Nat) (i : Instr) : Bool :=
  k.table.any (fun r => r.core == core && r.frame == frame && r.op.id < id && shareBench r.op.ins i) ||
  k.drains.any (fun d => d.core == core && d.frame == frame && d.id < id && shareBench d.op.ins i)

/-- Whether a request is blocked (R285). -/
def reqBlocked (k : Cluster) (r : Req) : Bool := k.blocked r.core r.frame r.op.id r.op.ins

/-- Whether two requests have one fusion key; scans and mgld quarters fuse with nothing (R287, R296, R297). -/
def sameKey (a b : Req) : Bool :=
  !a.scan && !a.gload && !b.scan && !b.gload && a.cohort == b.cohort && a.slot == b.slot && a.k == b.k && a.fmt == b.fmt

/-- Whether an older access of a matrix operation's lanes is still to be performed, but for relaxed atomics with a declared
use: the operation forks after it (R131, R299). An older load whose data is still to come holds it too, and what consumes an
error (R379). -/
def State.forkHeld (s : State) (core frame : Nat) (op : MemOp) : Bool :=
  match s.group core frame with
  | some g => g.poisoned.isSome || g.ops.any (fun o => o.id < op.id && (match memForm o.ins with
      | some f => f.load || (f.use.isNone && o.lanes &&& op.lanes != 0)
      | none => false))
  | none => false

/-- The requests of a cluster that their group's older accesses do not hold. -/
def State.forked (s : State) (k : Cluster) : List Req := k.table.filter (fun r => !s.forkHeld r.core r.frame r.op)

/-- Whether a request may head a pass (R287). -/
def reqEligible (k : Cluster) (now : Nat) (r : Req) : Bool :=
  !reqBlocked k r && (r.scan || r.entry + r.window ≤ now || 16 ≤ (k.table.filter (sameKey r)).length)

/-- The requests that join a pass, in the order given: each is unblocked once those chosen before it are out of the table,
sixteen in all (R285, R287). -/
def passMates (k : Cluster) (chosen : List Req) : List Req → List Req
  | [] => chosen
  | r :: rs =>
    let left := { k with table := k.table.filter (fun q => !chosen.any (fun c => c.op.id == q.op.id)) }
    if chosen.length < 16 && !reqBlocked left r then passMates k (chosen ++ [r]) rs else passMates k chosen rs

/-- Whether one request goes before another: priority, then age. -/
def reqBefore (a b : Req) : Bool := b.prio < a.prio || (a.prio == b.prio && a.age < b.age)

/-- Requests in the arbiter's order. -/
def insertReq (r : Req) : List Req → List Req
  | [] => [r]
  | x :: xs => if reqBefore x r then x :: insertReq r xs else r :: x :: xs

def sortReqs (rs : List Req) : List Req := rs.foldr insertReq []

/-- The bytes of a request's tile: local, zeros of an absent rank, or those of the bypass buffer (R97, R291, R294). -/
def State.tileBytes (s : State) (r : Req) : List Byte :=
  let n := if r.gload then 32768 else if r.scan then 0 else 4608
  match r.bypass, r.base with
  | some c, _ => match (s.bench r.core c).bypass.getD r.quarter none with
    | some (_, bs) => bs
    | none => zeros n
  | none, some (c, p) => s.readLocal c p n
  | none, none => zeros n

/-- MATRIX_GRANT (R287, R288): an idle engine grants a pass or a scan chunk. -/
def execMatrixGrant (cl : Nat) (s : State) : Host.Outcome State Fault Refusal :=
  let k := s.cluster cl
  let es := sortReqs ((s.forked k).filter (reqEligible k s.cycle))
  whenEnabled (k.pass.isNone && !es.isEmpty) (fun s =>
    match es with
    | [] => s
    | h :: _ =>
      let pass := if h.scan || h.gload then [h]
        else passMates k [h] (sortReqs ((s.forked k).filter (fun r => r.op.id != h.op.id && sameKey h r)))
      let reqs := pass.map (fun r => { r with tile := s.tileBytes r })
      let ids := reqs.map (fun r => r.op.id)
      let len := if h.scan then 296 else 16 + 32 * reqs.length
      s.setCluster cl { k with table := k.table.filter (fun r => !ids.contains r.op.id),
                               pass := some ⟨reqs, h.scan, s.cycle + len⟩ }) s

/-! ### Ends of operations -/

/-- A matrix operation leaves its tl counter (R112). -/
def State.endMatrix (s : State) (core frame : Nat) (op : MemOp) : State :=
  s.modGroup core frame (fun g => (g.modCounts op.id id id id (· - 1)).recheck)

/-- The consumption of poison by an engine operation (R379, R434). -/
def State.enginePoison (s : State) (core frame : Nat) (op : MemOp) (sub : Nat) (lanes : Mask) (addr : Nat) : State :=
  s.modGroup core frame (fun g =>
    if g.poisoned.isSome then g
    else { g with poisoned := some ({ opTrap op 20 sub lanes addr with lanes := lanes }, op.id, none) })

/-- Whether poison lies under a range of a local store, of a bench, of a slot. -/
def State.localPoison (s : State) (at_ : Option (Nat × Nat)) (n : Nat) : Bool :=
  match at_ with
  | some (c, p) => (s.core c).lpoison.any (fun w => meets p n (4 * w) 4)
  | none => false

def benchPoison (b : Bench) (lo n : Nat) : Bool := b.poison.any (fun e => lo ≤ e && e < lo + n)

/-- The lanes that stand for an operation's consumption: its quarter's, or all of Active() (R434). -/
def reqLanes (r : Req) : Mask := if r.scan then r.op.lanes else r.op.lanes &&& quarterMask r.quarter

/-- The tile that a pass reads for its request of place `ix`: where a local byte changed while the pass ran, either byte, for
each request by itself (R291). -/
def State.passTile (s : State) (r : Req) (ix : Nat) : List Byte :=
  if r.bypass.isSome then r.tile
  else
    let now := s.tileBytes r
    r.tile.mapIdx (fun i old => if Config.streamNew (s.fresh + 32768 * ix + i) then now.getD i 0 else old)

/-- The rows of a request that a pass writes: all, or those before its kill (R300). `ix` is its place in the pass. -/
def liveRows (r : Req) (ix : Nat) : Nat :=
  match r.killed with
  | none => 32
  | some row => min 32 (row - 32 * ix)

/-- The chunk rows of an mmq quarter added into its bench (R289). -/
def mulQuarter (k : Cluster) (r : Req) (tile : List Byte) (rows : Nat) (b : Bench) : Bench :=
  let slot := (tget k.chuck r.slot .init).bytes
  let cols := (List.range 256).map (fun j => slot.bytes (144 * j) 144)
  let lo := 32 * r.quarter * 256
  let mine := { b with elems := b.elems.filter (fun e => lo ≤ e.1 && e.1 < lo + 8192) }
  let new := (List.range rows).map (fun i =>
    let a := (tile.drop (144 * i)).take 144
    cols.mapIdx (fun j col => accumulate (mine.elem (32 * r.quarter + i) j) (chunkValue r.fmt r.k a col)))
  benchPut b (32 * r.quarter * 256) new.flatten

/-- The gains of an mgld quarter written into its bench (R296). -/
def gainQuarter (r : Req) (tile : List Byte) (rows : Nat) (b : Bench) : Bench :=
  benchPut b (32 * r.quarter * 256) ((List.range (256 * rows)).map (fun i =>
    let x := fieldAt tile (4 * i) 4
    BitVec.ofNat 32 (if (decodeElem .f32 x).isNan then nanCode .f32 else x)))

/-- The parts of a row that an mmq of K elements reads: elements, then scale codes (R55, R279). -/
def rowReads (f : MxFmt) (k : Nat) : List (Nat × Nat) :=
  let n := mxK f k
  match f with
  | .ta6 => [(0, 6 * n / 8), (120, n / 8)]
  | .bf16 | .f16 => [(0, 2 * n)]
  | _ => [(0, n), (128, n / 8)]

/-- The parts of a tile of rows 144 bytes apart that an mmq reads. -/
def tileReads (f : MxFmt) (k rows : Nat) : List (Nat × Nat) :=
  ((List.range rows).map (fun i => (rowReads f k).map (fun p => (144 * i + p.1, p.2)))).flatten

/-- The poison that a quarter reads: subcause and address. -/
def State.quarterPoison (s : State) (cl : Nat) (r : Req) : Option (Nat × Nat) :=
  let here := if r.gload then [(0, 32768)] else if r.bypass.isSome then [] else tileReads r.fmt r.k 32
  let slot := (tget (s.cluster cl).chuck r.slot .init).poison
  if here.any (fun p => s.localPoison (r.base.map (fun b => (b.1, b.2 + p.1))) p.2) then some (1, (match r.base with
    | some (_, p) => p
    | none => 0))
  else if r.gload then none
  else if !slot.isEmpty && (tileReads r.fmt r.k 256).any (fun p => slot.any (fun u => meets p.1 p.2 (8 * u) 8)) then
    some (4, 0)
  else if benchPoison (s.bench r.core r.bench) (32 * r.quarter * 256) 8192 then some (3, 0)
  else none

/-- One quarter of a retiring pass (R79, R166, R288, R296, R300). -/
def State.retireQuarter (s : State) (cl : Nat) (r : Req) (ix : Nat) : State :=
  let tile := s.passTile r ix
  let rows := liveRows r ix
  let pois := s.quarterPoison cl r
  let k := s.cluster cl
  let s := if pois.isSome then s
    else s.modBench r.core r.bench (fun b => if r.gload then gainQuarter r tile rows b else mulQuarter k r tile rows b)
  if r.killed.isSome then s
  else
    let s := s.endMatrix r.core r.frame r.op
    let s := match pois with
      | some (sub, addr) => s.enginePoison r.core r.frame r.op sub (reqLanes r) addr
      | none => s
    if ix = 0 then s
    else (s.modCore r.core (fun c => { c with rebate := c.rebate + 48 })).countCluster cl 2 1

/-- PASS_RETIRE (R288): the quarters of a pass write their rows in grant order. -/
def execPassRetire (cl : Nat) (s : State) : Host.Outcome State Fault Refusal :=
  match (s.cluster cl).pass with
  | none => .next s
  | some p =>
    whenEnabled (!p.scan && p.retire ≤ s.cycle) (fun s =>
      let s := s.modCluster cl (fun k => { k with pass := none })
      let s := p.reqs.zipIdx.foldl (fun s x => s.retireQuarter cl x.1 x.2) s
      ({ s with fresh := s.fresh + 32768 * p.reqs.length }).settleSlots cl) s

/-! ### The spindle (R297, R298) -/

/-- FlushG on an f32 code, with whether a nonzero gain was flushed (R298). -/
def flushGain (g : Nat) : Nat × Bool :=
  if g / 2 ^ 23 % 256 = 0 && g % 2 ^ 23 ≠ 0 then (g / 2 ^ 31 * 2 ^ 31, true) else (g, false)

/-- Compose on f32 codes, with whether a gain was flushed (R298). -/
def compose (p2 p1 : Nat × Nat) : (Nat × Nat) × Bool :=
  let (g2, f2) := flushGain p2.1
  let (g1, f1) := flushGain p1.1
  let (g, f) := flushGain (roundTo .f32 .rn 0 false ((decodeElem .f32 g2).mul (decodeElem .f32 g1)))
  ((g, fmaElem .rn .f32 [g2, p1.2, p2.2]), f2 || f1 || f)

/-- One stage over the rows of a column. -/
def scanStage (d : Nat) (ps : List (Nat × Nat)) : List (Nat × Nat) × Bool :=
  let hi := (ps.drop d).zipWith compose ps
  (ps.take d ++ hi.map Prod.fst, hi.any Prod.snd)

/-- The stages of R297. -/
def scanStages : List Nat → List (Nat × Nat) → Bool → List (Nat × Nat) × Bool
  | [], ps, f => (ps, f)
  | d :: ds, ps, f =>
    let (ps, f') := scanStage d ps
    scanStages ds ps (f || f')

/-- One column of a chunk: the rows after it, the carry, the flag (R297). -/
def scanColumn (ps : List (Nat × Nat)) (carry : Nat × Nat) : List (Nat × Nat) × (Nat × Nat) × Bool :=
  let (ps, f) := scanStages [1, 2, 4, 8, 16, 32, 64] ps false
  let out := ps.map (fun p => compose p carry)
  (out.map Prod.fst, (out.map Prod.fst).getLastD (0x3F800000, 0), f || out.any Prod.snd)

/-- The rows of a column of a pair. -/
def pairColumn (ev od : Bench) (j : Nat) : List (Nat × Nat) :=
  (List.range 128).map (fun i => ((ev.elem i j).toNat, (od.elem i j).toNat))

/-- A chunk composed over all columns: both benches and the pair state (R297). -/
def scanChunk (isNew clrf : Bool) (ev od : Bench) (p : PairState) : Bench × Bench × PairState :=
  let carry := fun j => if isNew then (0x3F800000, 0) else
    (let c := tget p.carry j (0x3F800000, 0); (c.1.toNat, c.2.toNat))
  let cols := (List.range 256).map (fun j => scanColumn (pairColumn ev od j) (carry j))
  let at_ := fun (i j : Nat) => ((cols.getD j ([], (0, 0), false)).1).getD i (0, 0)
  let gains := (List.range 32768).map (fun x => BitVec.ofNat 32 (at_ (x / 256) (x % 256)).1)
  let offs := (List.range 32768).map (fun x => BitVec.ofNat 32 (at_ (x / 256) (x % 256)).2)
  let flags := (List.range 256).filter (fun j => (!clrf && p.flags.contains j) || (cols.getD j ([], (0, 0), false)).2.2)
  let carries := cols.mapIdx (fun j c => (j, (BitVec.ofNat 32 c.2.1.1, BitVec.ofNat 32 c.2.1.2)))
  (benchPut ev 0 gains, benchPut od 0 offs, ⟨carries, ((if isNew then 0 else p.count) + 1) % 2 ^ 16, flags, false⟩)

/-- SCAN_RETIRE (R297): 296 cycles after its grant; a killed group's chunk leaves nothing (R300). -/
def execScanRetire (cl : Nat) (s : State) : Host.Outcome State Fault Refusal :=
  match (s.cluster cl).pass with
  | some ⟨r :: _, true, t⟩ =>
    whenEnabled (t ≤ s.cycle) (fun s =>
      let s := s.modCluster cl (fun k => { k with pass := none })
      if r.killed.isSome then s
      else
        let ev := s.bench r.core r.bench
        let od := s.bench r.core (r.bench + 1)
        let s := s.endMatrix r.core r.frame r.op
        let pair := (s.core r.core).pairs.getD (r.bench / 2) .init
        let stale := pair.poison && !(r.isNew && r.clrf)
        if benchPoison ev 0 32768 || benchPoison od 0 32768 || stale then s.enginePoison r.core r.frame r.op 3 (reqLanes r) 0
        else
          let (e, o, p) := scanChunk r.isNew r.clrf ev od pair
          ((s.modBench r.core r.bench (fun _ => e)).modBench r.core (r.bench + 1) (fun _ => o)).modCore r.core
            (fun c => { c with pairs := pset .init c.pairs (r.bench / 2) p })) s
  | _ => .next s

/-! ### Drains (R292 to R295) -/

/-- An element after its bound check (R83, R292). -/
def drainElem (bd : Option Bound) (w : Word) : Word :=
  match bd with
  | some b => if b.mode == .clamp then (clampLane b .f32 (w.zeroExtend 64)).truncate 32 else w
  | none => w

/-- Events that the elements count (R57). -/
def drainEvents (bd : Option Bound) (ws : List Word) : Nat :=
  match bd with
  | some b => if b.mode == .trap then 0 else (ws.map (fun w => outCount b .f32 w.toNat)).sum
  | none => 0

/-- Eight values quantised with their scale code (R68). -/
def drainBlock (f : Fmt) (r : Rnd) (sat : Bool) (vs : List Val) (seed : Word) : (Nat × List Nat) × Word :=
  let c := blockScale f vs
  let (xs, seed) := vs.foldl (fun (acc : List Nat × Word) v =>
    let (x, sd) := blockElem f r sat c v acc.2
    (acc.1 ++ [x % 2 ^ elemBits f], sd)) ([], seed)
  ((c, xs), seed)

/-- A row's blocks quantised in order. -/
def drainBlocks (f : Fmt) (r : Rnd) (sat : Bool) : List (List Val) → Word → List (Nat × List Nat) × Word
  | [], seed => ([], seed)
  | b :: bs, seed =>
    let (x, seed) := drainBlock f r sat b seed
    let (xs, seed) := drainBlocks f r sat bs seed
    (x :: xs, seed)

/-- A list cut into eights. -/
def eights (vs : List Val) : List (List Val) := (List.range (vs.length / 8)).map (fun k => (vs.drop (8 * k)).take 8)

/-- The 144 bytes of a row from its blocks (R55, R293): missing ta6 blocks are zeros under the code 127. -/
def rowBytes (f : MxFmt) (blocks : List (Nat × List Nat)) : List Byte :=
  match f with
  | .ta6 =>
    let bs := blocks ++ List.replicate (20 - blocks.length) (127, List.replicate 8 0)
    let es := (bs.map Prod.snd).flatten
    leBytes ((es.mapIdx (fun i x => x * 2 ^ (6 * i))).sum) 120 ++ (bs.map (fun b => leBytes b.1 1)).flatten ++ zeros 4
  | .bf16 | .f16 => ((blocks.map Prod.snd).flatten.map (fun x => leBytes x 2)).flatten ++ zeros 16
  | _ => ((blocks.map Prod.snd).flatten.map (fun x => leBytes x 1)).flatten ++ (blocks.map (fun b => leBytes b.1 1)).flatten

/-- A row converted: blocks with scales, or elements alone for bf16 and f16. -/
def drainRow (f : MxFmt) (r : Rnd) (sat : Bool) (vs : List Val) (seed : Word) : List (Nat × List Nat) × Word :=
  match f with
  | .bf16 | .f16 =>
    let (xs, seed) := vs.foldl (fun (acc : List Nat × Word) v =>
      let (x, sd) := cvtElem (mxElem f) r sat v acc.2
      (acc.1 ++ [x], sd)) ([], seed)
    ((List.range (xs.length / 8)).map (fun k => (0, (xs.drop (8 * k)).take 8)), seed)
  | f => drainBlocks (mxElem f) r sat (eights vs) seed

/-- Rows converted in order, the LFSR stepping through them (R292). -/
def drainRows (f : MxFmt) (r : Rnd) (sat : Bool) : List (List Val) → Word → List (List (Nat × List Nat))
  | [], _ => []
  | v :: vs, seed =>
    let (x, seed) := drainRow f r sat v seed
    x :: drainRows f r sat vs seed

/-- The tile of a converted quarter: segments of D columns, rows 144 bytes apart (R293). -/
def segmentTile (f : MxFmt) (rows : List (List (Nat × List Nat))) (g : Nat) : List Byte :=
  let d := mxDepth f / 8
  (rows.map (fun r => rowBytes f ((r.drop (d * g)).take d))).flatten

/-- What a drain writes, with its elements (R292 to R295). -/
def drainBytes (d : Drain) (bn : Bench) (bd : Option Bound) : List Byte × List Word :=
  let cols := match mxIns d.op.ins with
    | some (k, _, _) => drainCols k
    | none => []
  let rows := (List.range 32).map (fun i => cols.map (fun j => bn.elem (32 * d.quarter + i) j))
  let vals := rows.map (fun ws => ws.map (drainElem bd))
  match drainMx d.fmt with
  | none => ((vals.flatten.map (fun w => leBytes w.toNat 4)).flatten, rows.flatten)
  | some f =>
    let conv := drainRows f d.rnd d.sat (vals.map (fun ws => ws.map (fun w => decodeElem .f32 w.toNat))) d.seed
    if d.kind = 2 then (segmentTile f conv 0, rows.flatten)
    else (((List.range f.segments).map (segmentTile f conv)).flatten, rows.flatten)

/-- Whether a range of a local store meets a guard set before an operation issued (R291). -/
def State.guarded (s : State) (cl : Nat) (guards : List Nat) (core pos n : Nat) : Bool :=
  let k := s.cluster cl
  let hit := fun (id : Nat) (base : Option (Nat × Nat)) (len : Nat) => guards.contains id && (match base with
    | some (c, p) => c == core && meets p len pos n
    | none => false)
  let size := fun (r : Req) => if r.gload then 32768 else if r.scan || r.bypass.isSome then 0 else 4608
  k.table.any (fun r => hit r.op.id r.base (size r))
  || (match k.pass with
      | some p => p.reqs.any (fun r => r.killed.isNone && hit r.op.id r.base (size r))
      | none => false)
  || s.groups.any (fun p =>
      let held := fun (rs : List Replay) => rs.any (fun r => r.req.isSome && guards.contains r.op.id &&
        (match mxIns r.op.ins with
          | some (kd, _, some _) =>
            let q := match r.req with
              | some t => t.quarter
              | none => 0
            let a := (capAt r.op.caps 0 ((mxLane kd r.op.lanes q).getD 0)).toNat
            mxTabled kd && (match s.localAt p.2 a with
              | .spot c at_ => c == core && meets at_ (mxBytes kd) pos n
              | _ => false)
          | _ => false))
      held p.2.replay || (match p.2.handler with
        | some t => held t.replay
        | none => false))

/-- Whether a drain waits for the other quarters of its instruction, whose elements a trap-mode bound still checks (R292). -/
def State.drainChecks (s : State) (d : Drain) : Bool :=
  match s.group d.core d.frame with
  | some g =>
    (match boundOf (s.boundsOf g) (s.bench d.core d.bench).bound with
      | some b => b.mode == .trap
      | none => false)
    && g.ctx.slices.zipIdx.any (fun x => !x.1.fin && x.1.pc == d.op.pc && x.1.quarters != 0
      && slicesMask g.ctx.slices (gangSlices g x.2) &&& d.op.lanes != 0)
  | none => false

/-- Whether a guard holds a drain's write of its target (R291). -/
def State.drainHeld (s : State) (cl : Nat) (d : Drain) : Bool :=
  match d.target with
  | some (c, p) => s.guarded cl d.guards c p (match mxIns d.op.ins with
      | some (kd, _, _) => mxBytes kd
      | none => 0)
  | none => false

/-- Whether a drain may take place (R131, R285, R291, R292). -/
def State.drainReady (s : State) (cl : Nat) (d : Drain) : Bool :=
  let k := s.cluster cl
  !s.forkHeld d.core d.frame d.op && !s.drainChecks d && !k.blocked d.core d.frame d.id d.op.ins
  && !(match k.pass with
      | some p => p.reqs.any (fun r => r.core == d.core && r.frame == d.frame && shareBench r.op.ins d.op.ins)
      | none => false)
  && !s.drainHeld cl d

/-- DRAIN_COMPLETE (R292 to R295). -/
def execDrainComplete (cl op : Nat) (s : State) : Host.Outcome State Fault Refusal :=
  match (s.cluster cl).drains.find? (fun d => d.id == op) with
  | none => .next s
  | some d =>
    whenEnabled (s.drainReady cl d) (fun s =>
      let s := s.modCluster cl (fun k => { k with drains := k.drains.filter (fun e => e.id != op) })
      let bn := s.bench d.core d.bench
      let lo := if d.kind = 1 then 0 else 32 * d.quarter * 256
      let s := s.endMatrix d.core d.frame d.op
      let lanes := if d.kind = 1 then d.op.lanes else d.op.lanes &&& quarterMask d.quarter
      let pair := (s.core d.core).pairs.getD (d.bench / 2) .init
      let cols := match mxIns d.op.ins with
        | some (k, _, _) => drainCols k
        | none => []
      if (if d.kind = 1 then pair.poison else bn.poison.any (fun e => lo ≤ e && e < lo + 8192 && cols.contains (e % 256))) then s.enginePoison d.core d.frame d.op 3 lanes 0
      else if d.kind = 1 then
        match d.target with
        | some (c, p) => s.writeLocal c p (pairBytes pair)
        | none => s
      else
        match s.group d.core d.frame with
        | none => s
        | some g =>
          let bd := boundOf (s.boundsOf g) bn.bound
          let (bs, ws) := drainBytes d bn bd
          let s := s.setGroup d.core d.frame
            { g with ctx := { g.ctx with bflag := addEvents g.ctx.bflag (drainEvents bd ws) } }
          if d.kind = 2 then
            match drainMx d.fmt with
            | some f => s.modBench d.core d.bench (fun b => { b with bypass := pset none b.bypass d.quarter (some (f, bs)) })
            | none => s
          else
            match d.target with
            | some (c, p) => s.writeLocal c p bs
            | none => s) s

/-! ### Handover (R283, R284) -/

/-- Whether a group stands in the active bank. -/
def State.inBank (s : State) (core frame : Nat) : Bool :=
  match s.group core frame with
  | some g => (match g.place with
      | .active _ => true
      | _ => false)
  | none => false

/-- The requests of an owner queue whose groups stand in the active bank, in order (R283; log entry 31). -/
def State.queueOf (s : State) (core b : Nat) : List (Nat × Bool × Bool × Nat × Nat × Nat) :=
  (s.bench core b).queue.filter (fun q => s.inBank core q.1)

/-- Whether the head of the queue of an even bench is a pair request, which keeps both benches of its pair (R283). -/
def pairHead (s : State) (core b : Nat) : Bool :=
  match s.queueOf core (b / 2 * 2) with
  | q :: _ => q.2.1
  | [] => false

/-- The benches that a group's frame holds, put back where they are free, an affine pair together (R357, R391). -/
def State.restoreBenches (s : State) (core frame : Nat) : State :=
  match s.group core frame with
  | none => s
  | some g =>
    let set := fun (e : Nat × Bench × PairState) => if e.2.1.affine then [e.1 / 2 * 2, e.1 / 2 * 2 + 1] else [e.1]
    let back := g.benchCtx.filter (fun e => (set e).all (fun n => s.benchFree core n))
    let s := back.foldl (fun s e =>
      let q := (s.bench core e.1).queue
      let s := s.modBench core e.1 (fun _ => { e.2.1 with owner := some frame, queue := q, frozen := false })
      if e.2.1.affine && e.1 % 2 == 1 then
        s.modCore core (fun c => { c with pairs := pset .init c.pairs (e.1 / 2) e.2.2 })
      else s) s
    s.modGroup core frame (fun g =>
      { g with benchCtx := g.benchCtx.filter (fun e => !back.any (fun b => b.1 == e.1)) })

/-- The group of the active bank that waits for bench b to be put back from its frame (R391). -/
def State.returning (s : State) (core b : Nat) : Option Nat :=
  ((s.groupsOn core).find? (fun p => s.inBank core p.1 && p.2.benchCtx.any (fun e => e.1 == b))).map Prod.fst

/-- The end of a macq wait. -/
def Group.endBenchWait (g : Group) : Group :=
  { g with status := .ready, wait := .none,
           ctx := { g.ctx with slices := stepSlices g.ctx.slices (gangSlices g g.lastGang) false } }

/-- BENCH_HANDOVER (R283, R284, R391): a free bench goes to the owner that has returned for it, else to the head of its queue,
whose wait ends. -/
def execBenchHandover (core b : Nat) (s : State) : Host.Outcome State Fault Refusal :=
  match s.returning core b, s.queueOf core b with
  | some f, _ => whenEnabled (s.benchFree core b) (fun s => s.restoreBenches core f) s
  | none, [] =>
    whenEnabled (s.benchFree core b) (fun s =>
      s.modBench core b (fun k => { k with owner := none, releasing := false, bypass := [none, none, none, none] })) s
  | none, q :: _ =>
    let aff := q.2.1
    whenEnabled ((pairOf b aff).all (fun n => s.benchFree core n) && (aff || !pairHead s core b)) (fun s =>
      (s.acquire core q.1 b aff q.2.2.1 q.2.2.2.1).modGroup core q.1 Group.endBenchWait) s

end Sys2Proof.Machine
end

