-- ==== Sys2Proof/Machine/MemEvents.lean ====
section
/-! DEFINITION. The performance of what has issued: loads, stores, copies, quantum flushes, rejected generations and
wakes (R91, R103, R109 to R113, R116 to R130, R150 to R152, R434). -/

namespace Sys2Proof.Machine

/-! ### Order among a group's operations (R116 to R130) -/

/-- Whether two operations touch a common byte. -/
def State.opsMeet (s : State) (core frame : Nat) (g : Group) (a b : MemOp) : Bool :=
  match memForm a.ins, memForm b.ins with
  | some fa, some fb =>
    (lanesOf a.lanes).any (fun l => match s.opSpot core frame g fa a.caps l with
      | none => false
      | some (sp, x) => (lanesOf b.lanes).any (fun m => match s.opSpot core frame g fb b.caps m with
          | some (sq, y) => sp == sq && meets x fa.size y fb.size
          | none => false))
  | _, _ => false

/-- Whether an older operation of the same group holds a younger one (R116, R119, R120, R123, R126): same bytes, an
acquire, a read before a write, anything ordered before a release. Lanes that the two do not share are not ordered. An
atomic of .nord use is performed like any other: it returns the newest write (DESIGN CHOICE, log entry 101). -/
def State.opHolds (s : State) (core frame : Nat) (g : Group) (older op : MemOp) : Bool :=
  match memForm older.ins, memForm op.ins with
  | some fo, some f =>
    (older.lanes &&& op.lanes != 0 &&
      ((fo.acq.isSome && f.use.isNone)
      || (fo.load && (!f.load || (f.atom.isSome && f.atom != some .ld)))
      || (match f.rel with
          | some c => orderedBefore older c
          | none => false)))
    || (!(older.early && f.load && f.atom.isNone) && s.opsMeet core frame g older op)
  | _, _ => false

/-- A release waits for the threshold flushes of its lanes (R128), and one of cohort scope or wider for every store that its
lanes may have read before it reached memory (R120, R124). -/
def State.flushHolds (s : State) (core frame : Nat) (op : MemOp) (f : MemForm) : Bool :=
  ((f.rel.map Scope_dev).getD false &&
    (s.core core).qbuf.any (fun e => e.threshold && e.made.frame == frame && e.made.lanes &&& op.lanes != 0))
  || ((f.rel.map Scope_wide).getD false && !(s.earlyOps core).isEmpty)

/-- Early stores of other groups of the core that touch an operation's bytes (R116, R124). -/
def State.earlyHolds (s : State) (core frame : Nat) (g : Group) (op : MemOp) (f : MemForm) : Bool :=
  !(f.load && f.atom.isNone) && (s.groupsOn core).any (fun p => p.1 != frame && p.2.ops.any (fun o => o.early &&
    (match memForm o.ins with
    | some fo => (lanesOf op.lanes).any (fun l => match s.opSpot core frame g f op.caps l with
        | none => false
        | some (sp, x) => (lanesOf o.lanes).any (fun m => match s.opSpot core p.1 p.2 fo o.caps m with
            | some (sq, y) => sp == sq && meets x f.size y fo.size
            | none => false))
    | none => false)))

/-- Whether an operation may be performed: nothing older holds it, and its group is not about to be killed (R379). -/
def State.opReady (s : State) (core frame : Nat) (g : Group) (op : MemOp) : Bool :=
  match memForm op.ins with
  | none => false
  | some f =>
    g.poisoned.isNone && (g.ops.filter (fun o => o.id < op.id)).all (fun o => !s.opHolds core frame g o op)
    && !s.flushHolds core frame op f && !s.earlyHolds core frame g op f

/-- An operation of a group by number, of the kind asked for. -/
def findOp (g : Group) (id : Nat) (load : Bool) : Option MemOp :=
  g.ops.find? (fun o => o.id == id && (match memForm o.ins with
    | some f => f.load == load
    | none => false))

/-- The performance of an operation of a group where it is enabled. -/
def State.completeOp (s : State) (core frame id : Nat) (load : Bool) : State :=
  match s.group core frame with
  | none => s
  | some g =>
    match findOp g id load with
    | none => s
    | some op =>
      if s.opReady core frame g op && s.genOk g op then s.orWait (s.performOp core frame g op) g.crew (s.commitWaits g.crew core id)
      else s

/-- LOAD_COMPLETE (R112): a load, returning atomic, lkld or tlook writes back. -/
def execLoadComplete (core frame op : Nat) (s : State) : Host.Outcome State Fault Refusal :=
  .next (s.completeOp core frame op true)

/-- STORE_ACCEPT (R112): a store, red or stul is accepted where it executes. -/
def execStoreAccept (core frame op : Nat) (s : State) : Host.Outcome State Fault Refusal :=
  .next (s.completeOp core frame op false)

/-- A plain global store reaches its own core's L1 before anything else (R124); a relaunchable crew's do not. -/
def State.makeEarly (s : State) (core frame id : Nat) : State :=
  match s.group core frame with
  | none => s
  | some g =>
    match findOp g id false with
    | none => s
    | some op =>
      match memForm op.ins with
      | some f =>
        if f.global && f.atom.isNone && f.rel.isNone && s.opReady core frame g op && s.genOk g op
          && !(s.crewOf g).any Crew.relaunchable then
          s.setGroup core frame { g with ops := g.ops.map (fun o => if o.id == id then { o with early := true } else o) }
        else s
      | none => s

/-! ### Copies (R103, R109 to R111, R113, R274) -/

/-- The displacements of the elements in bytes, i0 fastest (R274). -/
def copyMoves (esize : Nat) : List Nat → List Int → List Int → List (Int × Int)
  | e :: es, a :: as, b :: bs =>
    ((copyMoves esize es as bs).map (fun p =>
      (List.range e).map (fun (i : Nat) => (p.1 + (i : Int) * a * esize, p.2 + (i : Int) * b * esize)))).flatten
  | _, _, _ => [(0, 0)]

/-- Every element move of an operation: linear number, source and destination displacement. A fill or write-back moves
one slot for each slot it covers. -/
def CopyOp.moves (o : CopyOp) : List (Nat × Int × Int) :=
  let base := copyMoves o.esize o.extents o.sstride o.dstride
  let all := if o.wbSlots.isEmpty then base
    else (o.wbSlots.map (fun (k : Nat) => base.map (fun p => (p.1 + 1024 * (k : Int), p.2 + 1024 * (k : Int))))).flatten
  all.mapIdx (fun n p => (n, p.1, p.2))

/-- The address space of an operation's crew. -/
def State.copySpace (s : State) (o : CopyOp) : Nat :=
  match s.crew o.crew with
  | some c => (match s.launch c.launch with
      | some l => l.aspace
      | none => 0)
  | none => 0

/-- A physical address of a copy's global end; an unmapped one lies past every die. -/
def State.copyPa (s : State) (o : CopyOp) (va : Int) : Nat := ((s.space (s.copySpace o)).pa va.toNat).getD (2 ^ 41)

/-- The bytes of one element at an operation's source, and whether they are poisoned. The copy engine is an agent other than the
crew's lanes and reads none of their buffered bytes (R114, R435; log entry 132). A source whose rank has retired reads as zeros
(R97; DESIGN CHOICE, log entry 125). -/
def State.copyRead (s : State) (o : CopyOp) (n : Nat) (d : Int) : List Byte × Bool :=
  match o.src with
  | .global va =>
    let pa := s.copyPa o ((va : Int) + d)
    (s.readMem pa o.esize, s.poisonedAt pa o.esize)
  | .loc (some (c, p)) =>
    let a := ((p : Int) + d).toNat
    (s.readLocal c a o.esize, (s.core c).lpoison.any (fun w => meets a o.esize (4 * w) 4))
  | .loc none => (zeros o.esize, false)
  | .chuck cl k =>
    let h := tget (s.cluster cl).chuck k .init
    (h.bytes.bytes (o.esize * n) o.esize, h.poison.any (fun u => meets (o.esize * n) o.esize (8 * u) 8))

/-- An uncorrectable error that the copy engine meets first is logged and retires its frame; the copy goes on with the poison (R434,
R441). -/
def State.copyMet (s : State) (o : CopyOp) : State :=
  match o.src with
  | .global va =>
    (s.poison.filter (fun x => o.moves.any (fun m => meets (s.copyPa o ((va : Int) + m.2.1)) o.esize (x * 32) 32))).foldl
      (fun s x => s.uncorrect x) s
  | _ => s

/-- The end of a copy: destination bytes and the poison carried to the destination's units (R434). -/
def State.copyWrite (s : State) (o : CopyOp) (es : List (Nat × Int × List Byte × Bool)) : State :=
  match o.dst with
  | .global va =>
    let at_ := fun (d : Int) => s.copyPa o ((va : Int) + d)
    let w := es.foldl (fun w e => Overlay.write w (at_ e.2.1) e.2.2.1) []
    let bad := dedup ((es.filter (fun e => e.2.2.2)).map (fun e => at_ e.2.1 / 32))
    let s := s.sendGlobal o.crew o.core (.bytes w) (o.gen, va)
    if bad.isEmpty then s
    else if (s.crew o.crew).any Crew.relaunchable then
      s.modCrew o.crew (fun c => { c with bufPoison := dedup (c.bufPoison ++ bad) })
    else { s with poison := dedup (s.poison ++ bad) }
  | .loc (some (c, p)) =>
    let at_ := fun (d : Int) => ((p : Int) + d).toNat
    let s := es.foldl (fun s e => s.writeLocal c (at_ e.2.1) e.2.2.1) s
    let bad := ((es.filter (fun e => e.2.2.2)).map (fun e =>
      (List.range ((at_ e.2.1 + o.esize - 1) / 4 - at_ e.2.1 / 4 + 1)).map (fun i => at_ e.2.1 / 4 + i))).flatten
    s.modCore c (fun k => { k with lpoison := dedup (k.lpoison ++ bad) })
  | .loc none => s
  | .chuck cl k =>
    s.modCluster cl (fun c =>
      let h := tget c.chuck k .init
      let bytes := es.foldl (fun (m : Memory) e => m.write (o.esize * e.1) e.2.2.1) h.bytes
      let bad := (es.filter (fun e => e.2.2.2)).map (fun e => o.esize * e.1 / 8)
      let h := { h with bytes := bytes, valid := true, fmt := none, filling := h.filling - 1, poison := dedup bad }
      { c with chuck := Sys2Proof.Machine.tset c.chuck k h })

/-- The slots of a core's local store whose region dirty bits a fill or write-back clears when it completes (R103). -/
def CopyOp.cleaned (o : CopyOp) : List (Nat × Nat) :=
  if o.wbSlots.isEmpty then []
  else
    match o.src, o.dst with
    | .global _, .loc (some (c, p)) | .loc (some (c, p)), .global _ => o.wbSlots.map (fun k => (c, p / 1024 + k))
    | _, _ => []

/-- Whether a request of the cluster that has not retired reads a chuck slot: table, pass, replay entries (R109, R290). -/
def State.slotRead (s : State) (cl slot : Nat) : Bool :=
  let k := s.cluster cl
  let reads := fun (r : Req) => !r.scan && !r.gload && r.slot == slot
  let logical := fun (g : Group) (n : Nat) => match s.cohortOf g.crew with
    | some (_, c) => c.slots.getD n 256 == slot
    | none => false
  let held := fun (g : Group) (rs : List Replay) => rs.any (fun r => r.req.isSome && (match r.op.ins with
    | .mmq _ _ n _ _ => logical g n
    | .mmqByp _ _ n _ _ => logical g n
    | _ => false))
  k.table.any reads
  || (match k.pass with
      | some p => p.reqs.any (fun r => r.killed.isNone && reads r)
      | none => false)
  || s.groups.any (fun p => clusterOf (p.1 / 32) == cl && (held p.2 p.2.replay || (match p.2.handler with
      | some t => held p.2 t.replay
      | none => false)))

/-- A copy leaves its group's cp count and its batch (R112, R113). -/
def Group.endCopy (g : Group) (op : Nat) : Group :=
  let g := g.modCounts op id id (· - 1) id
  let ops := fun (l : List Nat) => l.filter (· != op)
  let bs := fun (l : List (Word × List Nat)) => (l.map (fun b => (b.1, ops b.2))).filter (fun b => !b.2.isEmpty)
  ({ g with openOps := ops g.openOps, batches := bs g.batches,
            handler := g.handler.map
              (fun (t : Trapped) => { t with openOps := ops t.openOps, batches := bs t.batches }) }).recheck

/-- The group of a copy, where it still stands. -/
def State.copyGroup (s : State) (o : CopyOp) : Option Group := (s.group o.core o.frame).filter (fun g => g.crew == o.crew)

/-- Whether an operation that a copy waits for is still to be performed: in the memory queue or a replay part (R110, R131). -/
def State.copyWaits (s : State) (o : CopyOp) : Bool :=
  match s.copyGroup o with
  | some g =>
    let ids := fun (rs : List Replay) => rs.map (fun r => r.op.id)
    g.poisoned.isSome || (g.ops.map MemOp.id ++ ids g.replay ++ (match g.handler with
      | some t => ids t.replay
      | none => [])).any (fun i => o.after.contains i)
  | none => false

/-- Whether a copy is a region's write-back. -/
def CopyOp.isBack (o : CopyOp) : Bool := !o.wbSlots.isEmpty && (match o.dst with
  | .global _ => true
  | _ => false)

/-- The global bytes of a write-back: address and length by slot. -/
def CopyOp.backRanges (o : CopyOp) : List (Nat × Nat) :=
  match o.dst with
  | .global va => o.wbSlots.map (fun k => (va + 1024 * k, 1024))
  | _ => []

/-- Whether a write-back waits for an earlier one that meets its global range: they are written in the order in which the
regions closed (R103). -/
def State.backWaits (s : State) (o : CopyOp) : Bool :=
  o.isBack && s.clusters.any (fun p => p.2.copies.any (fun w => w.id < o.id && w.isBack && s.copySpace w == s.copySpace o
    && w.backRanges.any (fun a => o.backRanges.any (fun b => meets a.1 a.2 b.1 b.2))))

/-- COPY_START (R110): every older access that the fork orders before it has been performed, what its lanes may have read
early included (R124, R131), earlier write-backs of its range are done, and the group consumes no error. -/
def execCopyStart (cl op : Nat) (s : State) : Host.Outcome State Fault Refusal :=
  match (s.cluster cl).copies.find? (fun o => o.id == op) with
  | none => .next s
  | some o =>
    whenEnabled (!o.started && !s.copyWaits o && !s.backWaits o && (s.earlyOps o.core).isEmpty) (fun s =>
      s.modCluster cl (fun k =>
        { k with copies := k.copies.map (fun x => if x.id == op then { x with started := true } else x) })) s

/-- Whether a copy's generation is current where it reaches global memory (R91). -/
def State.copyGenOk (s : State) (o : CopyOp) : Bool :=
  (match o.src, o.dst with
    | .global _, _ | _, .global _ => o.gen == (s.space (s.copySpace o)).gen
    | _, _ => true)

/-- Whether guards or readers hold a copy's write of its destination (R109, R291). -/
def State.copyHeld (s : State) (cl : Nat) (o : CopyOp) : Bool :=
  match o.dst with
  | .loc (some (c, p)) => o.moves.any (fun m => s.guarded cl o.guards c ((p : Int) + m.2.2).toNat o.esize)
  | .chuck c k => s.slotRead c k
  | _ => false

/-- COPY_COMPLETE (R113): every byte of a started copy is moved; guards and readers of the destination hold it. -/
def execCopyComplete (cl op : Nat) (s : State) : Host.Outcome State Fault Refusal :=
  match (s.cluster cl).copies.find? (fun o => o.id == op) with
  | none => .next s
  | some o =>
    whenEnabled (o.started && s.copyGenOk o && !s.copyHeld cl o) (fun from_ =>
      let s := from_
      let es := o.moves.map (fun m => let r := s.copyRead o m.1 m.2.1; (m.1, m.2.2, r.1, r.2))
      let s := (s.copyMet o).copyWrite o es
      let s := (s.countCluster cl 3 (o.esize * es.length)).drawDie (cl / 16)
      let s := o.cleaned.foldl (fun s p => s.modCore p.1 (fun k => { k with rdirty := k.rdirty.filter (· != p.2) })) s
      let s := (s.modCluster cl (fun k => { k with copies := k.copies.filter (fun x => x.id != op) })).settleSlots cl
      let s := s.modGroup o.core o.frame (fun g => if g.crew = o.crew then g.endCopy op else g)
      from_.orWait s o.crew (from_.commitWaits o.crew o.core op)) s

/-! ### Quantum buffer, generations, wakes -/

/-- QUANTUM_FLUSH (R128): entry `ix` of a core, on its way to the atomic unit, is performed there. -/
def execQuantumFlush (core ix : Nat) (s : State) : Host.Outcome State Fault Refusal :=
  match (s.core core).qbuf[ix]? with
  | none => .next s
  | some e =>
    whenEnabled e.flushing (fun s =>
      s.orWait ((s.modCore core (fun c => { c with qbuf := c.qbuf.eraseIdx ix })).flushEntry core e) e.crew
        (s.flushWaits e.crew core)) s

/-- The rejection of a copy that has started, of a killed crew too: the copy ends without effect (R91, R394). -/
def State.rejectCopy (s : State) (cl : Nat) (o : CopyOp) : State :=
  let va := match o.src, o.dst with
    | .global v, _ => v
    | _, .global v => v
    | _, _ => 0
  let wid := match s.copyGroup o, s.crew o.crew with
    | some g, _ => g.wid
    | none, some c => s.crewWid c
    | none, none => 0
  let s := (s.modCluster cl (fun k => { k with copies := k.copies.filter (fun x => x.id != o.id) })).settleSlots cl
  let s := s.modGroup o.core o.frame (fun g => if g.crew = o.crew then g.endCopy o.id else g)
  s.rejectGen o.crew va (s.copyPa o va) o.gen o.core wid

/-- GENERATION_REJECT (R91): an access or copy with a generation that is not its space's current one. -/
def execGenerationReject (core frame op : Nat) (s : State) : Host.Outcome State Fault Refusal :=
  let mine := (s.group core frame).bind (fun g => (g.ops.find? (fun o => o.id == op)).map (fun o => (g, o)))
  match mine, (s.cluster (clusterOf core)).copies.find? (fun o => o.id == op) with
  | some (g, o), _ => whenEnabled (!s.genOk g o) (fun s => s.rejectOp core frame g o) s
  | none, some o => whenEnabled (o.started && !s.copyGenOk o) (fun s => s.rejectCopy (clusterOf core) o) s
  | none, none => .next s

/-- c.txstat with another cause. -/
def txCause (w : Word) (cause : Nat) : Word := BitVec.ofNat 32 (w.toNat - w.toNat % 16 + cause)

/-- A sleeper woken: ready at its txb, wake state cleared, cause 11 (R151). -/
def Group.wakeUp (g : Group) : Group :=
  { g with status := .ready, wait := .none, wake := .none, ctx := { g.ctx with txstat := txCause g.ctx.txstat 11 } }

/-- WAKE (R151): a sleeper that a write has marked becomes ready. -/
def execWake (core frame : Nat) (s : State) : Host.Outcome State Fault Refusal :=
  match s.group core frame with
  | none => .next s
  | some g => whenEnabled (g.status == .sleeping && g.wake.marked) (fun s => (s.setGroup core frame g.wakeUp).countDie (dieOf core) 7 1) s

/-- SPURIOUS_WAKE (R152): a sleeper becomes ready without a write. -/
def execSpuriousWake (core frame : Nat) (s : State) : Host.Outcome State Fault Refusal :=
  match s.group core frame with
  | none => .next s
  | some g => whenEnabled (g.status == .sleeping) (fun s => (s.setGroup core frame g.wakeUp).countDie (dieOf core) 7 1) s

end Sys2Proof.Machine
end

