-- ==== Sys2Proof/Machine/Fetch.lean ====
section
/-! DEFINITION. Which gang a group issues next and the word it fetches (R18, R37, R232, R253, R254, R338). -/

namespace Sys2Proof.Machine

/-! ### The next gang (R37) -/

/-- The slices of the gang that a slice names. -/
def gangOf (sl : List Slice) (lead : Nat) : List Nat :=
  (List.range sl.length).filter (fun i => match sl[i]? with
    | some x => !x.fin && x.gang == lead
    | none => false)

/-- The lowest slices of the gangs that may issue, ascending. -/
def readyGangs (sl : List Slice) : List Nat :=
  (List.range sl.length).filter (fun i => match sl[i]? with
    | some x => !x.fin && x.gang == i && x.wait == .run
    | none => false)

/-- The ready gang that follows the last one served, in ascending order of the lowest slices, wrapping (R37). -/
def pickGang (g : Group) : Option Nat :=
  let rs := readyGangs g.ctx.slices
  (rs.find? (fun i => g.lastGang < i)).orElse (fun _ => rs.head?)

/-- The current lanes of some slices. -/
def gangLanes (sl : List Slice) (is : List Nat) : Mask := slicesMask sl is

/-! ### Fetch (R232, R338) -/

/-- Outcome of a fetch. -/
inductive Fetched
  | outside (va : Nat)
  | staging (pages : List Nat)
  | word (w : Nat)
  deriving DecidableEq, Repr

/-- The word of a launch's code object at an address as it stood at launch. -/
def Launch.snap (l : Launch) (pc : Nat) : Option Nat :=
  if l.code ≤ pc then (l.snapshot[(pc - l.code) / 4]?).map (fun w => w.toNat) else none

/-- The word at an address as memory holds it. -/
def State.codeWord (s : State) (l : Launch) (pc : Nat) : Nat :=
  ofLe (s.readMem (((s.space l.aspace).pa pc).getD (2 ^ 41)) 4)

/-- The word fetched: where a code word was rewritten, either word (R338). -/
def State.fetchWord (s : State) (l : Launch) (pc : Nat) : Nat :=
  let now := s.codeWord l pc
  match l.snap pc with
  | some w => if w = now then now else if Config.fetchNew s.fresh then now else w
  | none => now

/-- A fetch of a rewritten word uses up its free value: each such fetch chooses anew (R338). -/
def State.drawFetch (s : State) (l : Launch) (pc : Nat) : State :=
  if (l.snap pc).all (· == s.codeWord l pc) then s else { s with fresh := s.fresh + 1 }

/-- The same for a group's fetch. -/
def State.fetched (s : State) (g : Group) (pc : Nat) : State := (s.launchOf g).elim s (s.drawFetch · pc)

/-- The fetch of a group at a PC, behind its probe. -/
def State.fetch (s : State) (g : Group) (pc : Nat) : Fetched :=
  match s.launchOf g with
  | none => .outside pc
  | some l =>
    if pc % 4 ≠ 0 || 2 ^ 56 ≤ pc then .outside pc
    else
      match s.probe g false .read [(pc, 4)] with
      | .outside va => .outside va
      | .staging _ => .staging (s.stagingPages l.aspace [(pc, 4)])
      | .ready => .word (s.fetchWord l pc)

/-! ### What a group issues next -/

/-- The next issue of a group: slices, lanes, PC; in an xir with captured words, the word of its lowest pending lane with
every pending lane that holds it (R253, R254). -/
def nextIssue (core frame : Nat) (g : Group) : Option (Cur × Bool) :=
  match pickGang g with
  | none => none
  | some i =>
    let is := gangOf g.ctx.slices i
    let act := gangLanes g.ctx.slices is
    let pc := (g.ctx.slices[i]?.map Slice.pc).getD 0
    match g.ctx.xirOf i with
    | some q =>
      if !q.words.isEmpty then
        let l := (lowest q.pend).getD 0
        let w := q.words.getD l 0
        let m := q.pend &&& maskOf (fun k => q.words.getD k 0 == w)
        some (⟨core, frame, is, m, pc, w.toNat, true⟩, true)
      else some (⟨core, frame, is, act, pc, 0, false⟩, false)
    | none => some (⟨core, frame, is, act, pc, 0, false⟩, false)

end Sys2Proof.Machine
end

