-- ==== Sys2Proof/Machine/RunAhead.lean ====
section
/-! DEFINITION. Run-ahead: the walk of a group held on a load (R165, R344 to R347). -/

namespace Sys2Proof.Machine

/-! ### Registers of a word -/

/-- The vector registers that an instruction word reads and writes. -/
def insRegs (i : Instr) : List Nat × List Nat :=
  match i with
  | .iadd d a b _ | .isub d a b _ | .imulLo d a b _ | .imulHiS32 d a b _ | .imulHiN32 d a b _
  | .iminS32 d a b _ | .iminN32 d a b _ | .imaxS32 d a b _ | .imaxN32 d a b _ | .idivS32 d a b _
  | .idivN32 d a b _ | .iremS32 d a b _ | .iremN32 d a b _ | .iaddSatS32 d a b _ | .iaddSatN32 d a b _
  | .isubSatS32 d a b _ | .isubSatN32 d a b _ | .and_ d a b _ | .or_ d a b _ | .xor_ d a b _ | .andn d a b _
  | .orn d a b _ | .shl d a b _ | .shrN d a b _ | .shrS d a b _ | .rotl d a b _ | .bfeN d a b _ | .bfeS d a b _
  | .sel d a b _ _ | .fadd d a b _ _ | .fsub d a b _ _ | .fmul d a b _ _ | .fdiv d a b _ _ | .fmin d a b _ _
  | .fmax d a b _ _ | .fcopysign d a b _ _ | .bcast d a b _ | .xchg d a b _ => ([a, b], [d])
  | .iabsS32 d a _ | .ineg d a _ | .iaddImm d a _ _ | .imulLoImm d a _ _ | .andImm d a _ _ | .orImm d a _ _
  | .xorImm d a _ _ | .shlImm d a _ _ | .shrNImm d a _ _ | .shrSImm d a _ _ | .rotlImm d a _ _
  | .bfeNImm d a _ _ _ | .bfeSImm d a _ _ _ | .not_ d a _ | .popc d a _ | .clz d a _ | .ctz d a _ | .brev d a _
  | .fneg d a _ _ | .fabs d a _ _ | .fsqrt d a _ _ | .frcp d a _ _ | .frsq d a _ _ | .fexp2 d a _ _
  | .flog2 d a _ _ | .fsin d a _ _ | .fcos d a _ _ | .ftanh d a _ _ | .fsigm d a _ _ | .ffloor d a _ _
  | .fceil d a _ _ | .ftrunc d a _ _ | .frint d a _ _ | .scan d a _ _ | .scanx d a _ _ => ([a], [d])
  | .iadd64 d a b _ | .isub64 d a b _ | .imulLo64 d a b _ | .iminS64 d a b _ | .iminN64 d a b _
  | .imaxS64 d a b _ | .imaxN64 d a b _ => ([a, a + 1, b, b + 1], [d, d + 1])
  | .imulWideS32 d a b _ | .imulWideN32 d a b _ => ([a, b], [d, d + 1])
  | .mov d _ _ | .mpop d _ | .mfirst d _ | .mtov d _ | .ebud d _ => ([], [d])
  | .bfi d a _ _ _ => ([a, d], [d])
  | .imad d a b c _ | .ffmaF32 d a b c _ | .ffmaF16x2 d a b c _ | .ffmaBf16x2 d a b c _ | .shfl d a b c _ => ([a, b, c], [d])
  | .shl64 d a b _ | .shrN64 d a b _ | .shrS64 d a b _ => ([a, a + 1, b], [d, d + 1])
  | .popc64 d a _ | .clz64 d a _ => ([a, a + 1], [d])
  | .icmp _ a b t _ => (if IntTy_size t = 8 then [a, a + 1, b, b + 1] else [a, b], [])
  | .mand _ _ _ | .mor _ _ _ | .mxor _ _ _ | .mandn _ _ _ | .mnot _ _ | .mmov _ _ | .br _ _ _ | .join
  | .regang _ | .rgnClose _ | .cbat | .fenceAcq _ | .fenceRel _ | .fenceAr _ | .wait _ _ _ _ | .waitb _
  | .txb _ | .txo _ | .txc | .txr | .txe | .exit | .barCrew | .barCoh | .trap _ | .brk | .tret
  | .mmqByp _ _ _ _ _ | .mscan _ _ _ | .mdrainByp _ _ _ _ | .macq _ _ _ _ | .mrel _
  | .hintWide _ | .hintMext | .hintRnd _ | .hintBnd _ | .hintYield _ | .hintKeep _ _ | .hintEvict _ | .bbc _
  | .hintFuse _ | .hintNoahead _ | .hintAdv _ _ => ([], [])
  | .vtom _ a | .ballot _ a | .xir a _ | .mmq _ _ _ a _ | .mgld _ a | .mdrain _ _ a _ | .mdrainState _ a => ([a], [])
  | .call _ _ _ => ([], [2, 3])
  | .jmp a | .ret a | .rgnOpen a _ | .cpy a => ([a, a + 1], [])
  | .calli d a => ([a, a + 1], [d, d + 1])
  | .fcmp _ a b _ _ => ([a, b], [])
  | .cvtBlk v a _ _ _ _ => ([a], [v, v + 1])
  | .tset a b _ => ([a, b, b + 1], [])
  | .getc d n => ([], if n.isWide then [d, d + 1] else [d])
  | .setc d _ | .pint d => ([d], [])
  | .cvt v a f _ _ d =>
    let k := (cvtKind d f false).getD .element
    (convSrc k a f, if convWide k d then [v, v + 1] else [v])
  | .tag d a _ _ f => if f.isWide then ([a, a + 1], [d, d + 1]) else ([a], [d])
  | i =>
    match memForm i with
    | some f => (f.addrRegs ++ f.data, f.dstRegs)
    | none => ([], [])

/-- Mask register k among the numbers of poisoned registers; m0 is Active(), which nothing poisons. -/
def maskReg (k : Nat) : List Nat := if k = 0 then [] else [64 + k]

/-- The mask registers that a word of a walk reads (R345). -/
def insMasks (i : Instr) : List Nat :=
  match i with
  | .iadd _ _ _ m | .isub _ _ _ m | .imulLo _ _ _ m | .imulHiS32 _ _ _ m | .imulHiN32 _ _ _ m
  | .iminS32 _ _ _ m | .iminN32 _ _ _ m | .imaxS32 _ _ _ m | .imaxN32 _ _ _ m | .idivS32 _ _ _ m
  | .idivN32 _ _ _ m | .iremS32 _ _ _ m | .iremN32 _ _ _ m | .iaddSatS32 _ _ _ m | .iaddSatN32 _ _ _ m
  | .isubSatS32 _ _ _ m | .isubSatN32 _ _ _ m | .iadd64 _ _ _ m | .isub64 _ _ _ m | .imulLo64 _ _ _ m
  | .imulWideS32 _ _ _ m | .imulWideN32 _ _ _ m | .iminS64 _ _ _ m | .iminN64 _ _ _ m | .imaxS64 _ _ _ m
  | .imaxN64 _ _ _ m | .and_ _ _ _ m | .or_ _ _ _ m | .xor_ _ _ _ m | .andn _ _ _ m | .orn _ _ _ m | .shl _ _ _ m
  | .shrN _ _ _ m | .shrS _ _ _ m | .rotl _ _ _ m | .bfeN _ _ _ m | .bfeS _ _ _ m | .shl64 _ _ _ m | .shrN64 _ _ _ m
  | .shrS64 _ _ _ m | .fadd _ _ _ m _ | .fsub _ _ _ m _ | .fmul _ _ _ m _ | .fdiv _ _ _ m _ | .fmin _ _ _ m _
  | .fmax _ _ _ m _ | .fcopysign _ _ _ m _ | .imad _ _ _ _ m | .ffmaF32 _ _ _ _ m | .ffmaF16x2 _ _ _ _ m
  | .ffmaBf16x2 _ _ _ _ m | .iabsS32 _ _ m | .ineg _ _ m | .not_ _ _ m | .popc _ _ m | .clz _ _ m | .ctz _ _ m
  | .brev _ _ m | .popc64 _ _ m | .clz64 _ _ m | .iaddImm _ _ m _ | .imulLoImm _ _ m _ | .andImm _ _ m _
  | .orImm _ _ m _ | .xorImm _ _ m _ | .shlImm _ _ m _ | .shrNImm _ _ m _ | .shrSImm _ _ m _ | .rotlImm _ _ m _
  | .bfeNImm _ _ m _ _ | .bfeSImm _ _ m _ _ | .bfi _ _ m _ _ | .mov _ m _ | .fneg _ _ m _ | .fabs _ _ m _
  | .fsqrt _ _ m _ | .frcp _ _ m _ | .frsq _ _ m _ | .fexp2 _ _ m _ | .flog2 _ _ m _ | .fsin _ _ m _ | .fcos _ _ m _
  | .ftanh _ _ m _ | .fsigm _ _ m _ | .ffloor _ _ m _ | .fceil _ _ m _ | .ftrunc _ _ m _ | .frint _ _ m _
  | .cvt _ _ _ m _ _ | .cvtBlk _ _ _ m _ _ | .tag _ _ m _ _ | .ldG _ _ m _ _ _ => maskReg m
  | .sel _ _ _ c m => maskReg c ++ maskReg m
  | _ => []

/-- The mask register that a held word would write, among the numbers of poisoned registers. -/
def maskDst (i : Instr) : List Nat :=
  match i with
  | .icmp d _ _ _ _ | .fcmp d _ _ _ _ | .vtom d _ | .ballot d _ => maskReg d
  | _ => []

/-- The meaning of a word that run-ahead computes: an integer, float or conversion word legal inside xir (R208, R345). -/
def walkWord (i : Instr) (s : State) : Option (Host.Outcome State Fault Refusal) :=
  match i with
  | .iadd d a b m => some (execIadd d a b m s)
  | .isub d a b m => some (execIsub d a b m s)
  | .imulLo d a b m => some (execImulLo d a b m s)
  | .imulHiS32 d a b m => some (execImulHiS32 d a b m s)
  | .imulHiN32 d a b m => some (execImulHiN32 d a b m s)
  | .iminS32 d a b m => some (execIminS32 d a b m s)
  | .iminN32 d a b m => some (execIminN32 d a b m s)
  | .imaxS32 d a b m => some (execImaxS32 d a b m s)
  | .imaxN32 d a b m => some (execImaxN32 d a b m s)
  | .iabsS32 d a m => some (execIabsS32 d a m s)
  | .ineg d a m => some (execIneg d a m s)
  | .idivS32 d a b m => some (execIdivS32 d a b m s)
  | .idivN32 d a b m => some (execIdivN32 d a b m s)
  | .iremS32 d a b m => some (execIremS32 d a b m s)
  | .iremN32 d a b m => some (execIremN32 d a b m s)
  | .iaddSatS32 d a b m => some (execIaddSatS32 d a b m s)
  | .iaddSatN32 d a b m => some (execIaddSatN32 d a b m s)
  | .isubSatS32 d a b m => some (execIsubSatS32 d a b m s)
  | .isubSatN32 d a b m => some (execIsubSatN32 d a b m s)
  | .iadd64 d a b m => some (execIadd64 d a b m s)
  | .isub64 d a b m => some (execIsub64 d a b m s)
  | .imulLo64 d a b m => some (execImulLo64 d a b m s)
  | .imulWideS32 d a b m => some (execImulWideS32 d a b m s)
  | .imulWideN32 d a b m => some (execImulWideN32 d a b m s)
  | .iminS64 d a b m => some (execIminS64 d a b m s)
  | .iminN64 d a b m => some (execIminN64 d a b m s)
  | .imaxS64 d a b m => some (execImaxS64 d a b m s)
  | .imaxN64 d a b m => some (execImaxN64 d a b m s)
  | .mov d m i => some (execMov d m i s)
  | .iaddImm d a m i => some (execIaddImm d a m i s)
  | .imulLoImm d a m i => some (execImulLoImm d a m i s)
  | .andImm d a m i => some (execAndImm d a m i s)
  | .orImm d a m i => some (execOrImm d a m i s)
  | .xorImm d a m i => some (execXorImm d a m i s)
  | .shlImm d a m c => some (execShlImm d a m c s)
  | .shrNImm d a m c => some (execShrNImm d a m c s)
  | .shrSImm d a m c => some (execShrSImm d a m c s)
  | .rotlImm d a m c => some (execRotlImm d a m c s)
  | .bfeNImm d a m w p => some (execBfeNImm d a m w p s)
  | .bfeSImm d a m w p => some (execBfeSImm d a m w p s)
  | .bfi d a m w p => some (execBfi d a m w p s)
  | .imad d a b c m => some (execImad d a b c m s)
  | .and_ d a b m => some (execAnd d a b m s)
  | .or_ d a b m => some (execOr d a b m s)
  | .xor_ d a b m => some (execXor d a b m s)
  | .andn d a b m => some (execAndn d a b m s)
  | .orn d a b m => some (execOrn d a b m s)
  | .not_ d a m => some (execNot d a m s)
  | .shl d a b m => some (execShl d a b m s)
  | .shrN d a b m => some (execShrN d a b m s)
  | .shrS d a b m => some (execShrS d a b m s)
  | .rotl d a b m => some (execRotl d a b m s)
  | .popc d a m => some (execPopc d a m s)
  | .clz d a m => some (execClz d a m s)
  | .ctz d a m => some (execCtz d a m s)
  | .brev d a m => some (execBrev d a m s)
  | .bfeN d a b m => some (execBfeN d a b m s)
  | .bfeS d a b m => some (execBfeS d a b m s)
  | .shl64 d a b m => some (execShl64 d a b m s)
  | .shrN64 d a b m => some (execShrN64 d a b m s)
  | .shrS64 d a b m => some (execShrS64 d a b m s)
  | .popc64 d a m => some (execPopc64 d a m s)
  | .clz64 d a m => some (execClz64 d a m s)
  | .sel d a b c m => some (execSel d a b c m s)
  | .fadd d a b m f => some (execFadd d a b m f s)
  | .fsub d a b m f => some (execFsub d a b m f s)
  | .fmul d a b m f => some (execFmul d a b m f s)
  | .fdiv d a b m f => some (execFdiv d a b m f s)
  | .fmin d a b m f => some (execFmin d a b m f s)
  | .fmax d a b m f => some (execFmax d a b m f s)
  | .fcopysign d a b m f => some (execFcopysign d a b m f s)
  | .fneg d a m f => some (execFneg d a m f s)
  | .fabs d a m f => some (execFabs d a m f s)
  | .fsqrt d a m f => some (execFsqrt d a m f s)
  | .frcp d a m f => some (execFrcp d a m f s)
  | .frsq d a m f => some (execFrsq d a m f s)
  | .fexp2 d a m f => some (execFexp2 d a m f s)
  | .flog2 d a m f => some (execFlog2 d a m f s)
  | .fsin d a m f => some (execFsin d a m f s)
  | .fcos d a m f => some (execFcos d a m f s)
  | .ftanh d a m f => some (execFtanh d a m f s)
  | .fsigm d a m f => some (execFsigm d a m f s)
  | .ffloor d a m f => some (execFfloor d a m f s)
  | .fceil d a m f => some (execFceil d a m f s)
  | .ftrunc d a m f => some (execFtrunc d a m f s)
  | .frint d a m f => some (execFrint d a m f s)
  | .ffmaF32 d a b c m => some (execFfmaF32 d a b c m s)
  | .ffmaF16x2 d a b c m => some (execFfmaF16x2 d a b c m s)
  | .ffmaBf16x2 d a b c m => some (execFfmaBf16x2 d a b c m s)
  | .cvt v a xs m t d => some (execCvt v a xs m t d s)
  | .cvtBlk v a xs m t d => some (execCvtBlk v a xs m t d s)
  | .tag d a m i f => some (execTag d a m i f s)
  | _ => none

/-! ### The walk -/

/-- Where a walk stands: private copy, PC, words walked, active lanes, poisoned registers, mask k as 64 + k (R344). More than 32 words: the
walk has ended, and none starts again before the group issues. -/
abbrev Walk := Ctx × Nat × Nat × Mask × List Nat

/-- A walk that has ended. -/
def Walk.over (w : Walk) : Walk := (w.1, w.2.1, 33, w.2.2.2.1, [])

/-- A walk past a word whose destinations are poisoned or, when computed, valid. -/
def Walk.past (w : Walk) (c : Ctx) (dsts : List Nat) (poisoned : Bool) : Walk :=
  let ps := w.2.2.2.2.filter (fun v => !dsts.contains v)
  (c, w.2.1 + 4, w.2.2.1 + 1, w.2.2.2.1, if poisoned then ps ++ dsts else ps)

/-- The registers and masks that a word writes, among the numbers of poisoned registers; nothing of a word that does not
decode. -/
def wordDsts (word : Nat) : List Nat :=
  match decodeWord word with
  | .ok i => (insRegs i).2 ++ maskDst i
  | .error _ => []

/-- What the held word may still write: of an xir whose words are captured, what each of them writes; of one whose words are
not known, every register and mask (R255, R345). -/
def heldDsts (g : Group) (c : Cur) (captured : Bool) (i : Instr) : List Nat :=
  if captured then
    match g.ctx.xirOf (c.slices.headD 0) with
    | some q => ((lanesOf q.pend).map (fun l => wordDsts (q.words.getD l 0).toNat)).flatten
    | none => []
  else
    match i with
    | .xir _ _ => List.range 64 ++ (List.range 7).map (65 + ·)
    | i => (insRegs i).2 ++ maskDst i

/-- The register interlock of a group's next word on a load's result, with what the word may write. -/
def heldBy (g : Group) (c : Cur) (captured : Bool) (word : Nat) : Option (Nat × Mask × List Nat) :=
  match decodeWord word with
  | .ok i =>
    let (a, b) := insRegs i
    if (a ++ b).any (fun v => (pendingRegs g).contains v) then
      some (c.pc, gangLanes g.ctx.slices c.slices, heldDsts g c captured i)
    else none
  | .error _ => none

/-- The register interlock of the group's next word on a load's result: its PC, the lanes of its gang and the registers that
it may write (R344). -/
def State.heldOn (s : State) (core frame : Nat) (g : Group) : Option (Nat × Mask × List Nat) :=
  match nextIssue core frame g with
  | some (c, true) => heldBy g c true c.word
  | some (c, false) =>
    match s.fetch g c.pc with
    | .word w => heldBy g c false w
    | _ => none
  | none => none

/-- Whether a group of the active bank may be offered issue in this cycle (R21, R162). -/
def State.mayOffer (s : State) (core : Nat) (h : Nat × Nat × Group) : Bool :=
  let c := s.core core
  let g := h.2.2
  let p := portOf g.place
  g.status == .ready && g.due.isNone && g.poisoned.isNone && g.yield == 0 && !c.refilled
  && (!g.replay.isEmpty || !(readyGangs g.ctx.slices).isEmpty)
  && !c.ports.contains p && !c.ports.contains (p + 4) && !c.tested.contains h.2.1

/-- Whether a group's port is done with its offers of this cycle: none of its groups is still to be offered issue. -/
def State.portDone (s : State) (core p : Nat) : Bool :=
  (s.groupsOn core).all (fun q => match q.2.place with
    | .active k => k % 4 != p || !s.mayOffer core (k, q.1, q.2)
    | _ => true)

/-- What a walk may do in a cycle besides: before the refill of R162, no attempt, hold or swap, the level above half the
capacity, no grant of the port in this cycle, one word of the group's walk (R165, R344). The entry 8 + frame of `ports` marks a cycle's word. -/
def State.walkOk (s : State) (core frame : Nat) (g : Group) : Bool :=
  let c := s.core core
  let p := portOf g.place
  (match g.place with
    | .active _ => true
    | _ => false)
  && g.status == .ready && g.tx.isNone && !g.ctx.noahead && g.poisoned.isNone && g.due.isNone
  && g.replay.isEmpty && (s.holder core).isNone && c.swap.isNone && !c.refilled && !c.ports.contains p && !c.ports.contains (8 + frame)
  && s.portDone core p && s.power.cap / 2 < c.level

/-- The walks of a core end when its level is at or below half the capacity (R347). -/
def State.endWalks (s : State) (core : Nat) : State :=
  if (s.core core).level ≤ s.power.cap / 2 && (s.groupsOn core).any (fun p => p.2.ahead.isSome) then
    { s with groups := s.groups.map (fun p =>
        if p.1 / 32 == core then (p.1, { p.2 with ahead := p.2.ahead.map Walk.over }) else p) }
  else s

/-- What a word sees of a walk: the private copy and no hint. -/
def walkIss (s : State) (core frame : Nat) (g : Group) (w : Walk) (word : Nat) : Iss :=
  { core := core, frame := frame, g := { g with ctx := w.1, ops := [] }, act := w.2.2.2.1, slices := [], pc := w.2.1,
    word := word, xir := false, hints := .none, bounds := s.boundsOf g, launch := s.launchOf g }

/-- A price paid by a walk (R165). -/
def State.payWalk (s : State) (core price : Nat) : State :=
  ((s.charge core price).countCore core 1 price).countCore core 6 1

/-- A word computed into the private copy: the copy after it and its price; none where it would not complete (R346). -/
def State.walkCompute (s : State) (core frame : Nat) (g : Group) (w : Walk) (i : Instr) (word : Nat) : Option (Ctx × Nat) :=
  let sl := g.ctx.slices.mapIdx (fun k x => { x with pc := w.2.1, hints := .none, gang := 0, fin := decide (k ≠ 0), xir := none, quarters := 0 })
  let g' := { g with ctx := { w.1 with slices := sl }, ops := [], replay := [] }
  let s' := { (s.setGroup core frame g') with cur := some ⟨core, frame, [0], w.2.2.2.1, w.2.1, word, false⟩ }
  match walkWord i s' with
  | some (.next t) =>
    match t.group core frame with
    | some h =>
      let moved := h.ctx.slices[0]?.map Slice.pc == some (w.2.1 + 4)
      if h.status == .ready && h.inHandler == g.inHandler && h.poisoned.isNone && moved then
        some ({ h.ctx with slices := w.1.slices }, (s.core core).level - (t.core core).level)
      else none
    | none => none
  | _ => none

/-- Whether every lane's access passes the probe with nothing to wait for (R345). -/
def State.walkProbe (s : State) (x : Iss) (f : MemForm) (caps : List (List Word)) (lanes : Mask) : Bool :=
  (globalChecks s x f caps lanes).isNone

/-- The entries that a performed access puts into the speculation buffer, as far as the core's eight have room (R345). -/
def State.addSpecs (s : State) (core frame : Nat) (es : List (Nat × List Byte × Nat)) : State :=
  let used := ((s.groupsOn core).map (fun p => p.2.specs.length)).sum
  s.modGroup core frame (fun g => { g with specs := g.specs ++ es.take (8 - used) })

/-- Whether an operation of the group that has issued is still to be performed on a lane's bytes: what the lane would read
is not settled (R130, R346). -/
def specPending (s : State) (x : Iss) (f : MemForm) (caps : List (List Word)) (lane : Nat) : Bool :=
  let pa := s.transOf x.core x.frame x.g (globalAddr f caps lane).toNat
  let size := f.size
  match s.group x.core x.frame with
  | some g => g.ops.any (fun o => match memForm o.ins with
      | some f => (lanesOf o.lanes).any (fun l => match s.opSpot x.core x.frame g f o.caps l with
          | some (0, a) => meets a f.size pa size
          | _ => false)
      | none => false)
  | none => false

/-- The old values of an access's lanes, for the speculation buffer, as their crew sees memory. -/
def specEntries (s : State) (x : Iss) (f : MemForm) (caps : List (List Word)) : List (Nat × List Byte × Nat) :=
  let fresh := s.clearL1 x.core
  (lanesOf x.act).map (fun l =>
    let pa := s.transOf x.core x.frame x.g (globalAddr f caps l).toNat
    ((globalAddr f caps l).toNat, fresh.viewBytes x.core x.g pa f.size, f.size))

/-- A load or .spec access of a walk: prefetch, or performance into the speculation buffer (R345). A .spec access whose bytes an
older operation of the group is still to reach, and an atom.cas whose data alone is poisoned, is performed as a read; the first
leaves no entry (DESIGN CHOICE, log entry 48). -/
def State.walkMem (s : State) (core frame : Nat) (g : Group) (w : Walk) (i : Instr) (word : Nat) (f : MemForm) : State :=
  let x := walkIss s core frame g w word
  let caps := capture w.1 f
  let blind := f.data.any (fun v => w.2.2.2.2.contains v)
  let bad := (f.addrRegs ++ insMasks i).any (fun v => w.2.2.2.2.contains v) || (f.addrRegs ++ f.data ++ f.dstRegs).any (w.1.need ≤ ·)
  let put := fun (s : State) => s.modGroup core frame (fun g => { g with ahead := some (w.past w.1 f.dstRegs true) })
  let lanes := match i with
    | .ldG _ _ m _ _ _ => x.eff (some m)
    | _ => x.act
  let price := memPrice i f
  if bad || !(blind || memCodesOk i f w.1) || !sourceOk w.1 f.addr .t64 || !s.walkProbe x f caps lanes || !s.canPay core price then put s
  else
    match f.atom with
    | none =>
      let s := (lanesOf lanes).foldl (fun s l =>
        s.fillL1 core (s.transOf core frame g (globalAddr f caps l).toNat) f.size) (s.payWalk core price)
      put s
    | some a =>
      let es := specEntries s x f caps
      let succeeds := es.any (fun e => (lanesOf lanes).any (fun l =>
        e.1 == (globalAddr f caps l).toNat && ofLe e.2.1 == dataOf f caps l))
      if a == .cas && !blind && succeeds then put s
      else (put (s.payWalk core price)).addSpecs core frame (if (lanesOf lanes).any (specPending s x f caps) then [] else es)

/-- The treatment of the word that a walk reaches (R345). -/
def State.walkStep (s : State) (core frame : Nat) (g : Group) (w : Walk) : State :=
  let set := fun (s : State) (w : Walk) => s.modGroup core frame (fun g => { g with ahead := some w })
  match s.fetch g w.2.1 with
  | .word word =>
    let s := s.fetched g w.2.1
    match decodeWord word with
    | .error _ => set s w.over
    | .ok i =>
      if !s.implements i then set s w.over
      else
        match i with
        | .hintYield _ | .hintKeep _ _ | .hintEvict _ | .bbc _ | .hintFuse _ | .hintNoahead _ | .hintAdv _ _ =>
          set s (w.past w.1 [] false)
        | .ldL d _ _ z _ => set s (w.past w.1 (regsOf d (Sz_size z)) true)
        | .stG _ _ _ _ none _ | .stL _ _ _ _ _ => set s (w.past w.1 [] false)
        | .ldG _ _ _ _ none _ | .atomLd _ _ _ .spec _ | .atomCas _ _ _ _ .spec _ =>
          match memForm i with
          | some f =>
            if f.atom.isSome && f.addrRegs.any (fun v => w.2.2.2.2.contains v) then set s w.over
            else s.walkMem core frame g w i word f
          | none => set s w.over
        | i =>
          if (walkWord i s).isNone then set s w.over
          else
            let (a, b) := insRegs i
            if (a ++ insMasks i).any (fun v => w.2.2.2.2.contains v) then set s (w.past w.1 b true)
            else
              match s.walkCompute core frame g w i word with
              | some (c, price) => (set s (w.past c b false)).payWalk core price
              | none => set s (w.past w.1 b true)
  | _ => set s w.over

/-- RUN_AHEAD (R344 to R347): one word of a held group's walk in a cycle in which its port grants no issue; a walk ends with
the interlock, or with the level at or below half the capacity. -/
def execRunAhead (core frame : Nat) (s : State) : Host.Outcome State Fault Refusal :=
  match s.group core frame with
  | none => .next s
  | some g =>
    match s.heldOn core frame g with
    | none => .next (s.modGroup core frame (fun g => { g with ahead := none }))
    | some (pc, act, dsts) =>
      let w := g.ahead.getD (g.ctx, pc + 4, 0, act, pendingRegs g ++ dsts)
      whenEnabled (s.walkOk core frame g && w.2.2.1 < 32) (fun s =>
        (s.walkStep core frame g w).modCore core (fun c =>
          { c with ports := (8 + frame) :: (portOf g.place + 4) :: c.ports })) (s.endWalks core)

end Sys2Proof.Machine
end

