-- ==== Sys2Proof/Machine/Preempt.lean ====
section
/-! DEFINITION. Swaps of the banks of a core, spills, evictions and restores (R22, R39, R152, R153, R155, R299, R390 to
R393, R464). -/

namespace Sys2Proof.Machine

/-! ### Slots of the banks -/

/-- The groups of a core in slots of the active bank, in slot order. -/
def State.activeOn (s : State) (core : Nat) : List (Nat × Nat × Group) :=
  ((List.range 16).map (fun k => (s.groupsOn core).filterMap (fun p =>
    if p.2.place = .active k then some (k, p.1, p.2) else none))).flatten

/-- The groups of a core in slots of the shadow bank, in slot order. -/
def State.shadowOn (s : State) (core : Nat) : List (Nat × Nat × Group) :=
  ((List.range 16).map (fun k => (s.groupsOn core).filterMap (fun p =>
    if p.2.place = .shadow k then some (k, p.1, p.2) else none))).flatten

/-- Slots of a bank without a group. -/
def freeSlots (held : List (Nat × Nat × Group)) : List Nat :=
  (List.range 16).filter (fun k => !held.any (fun h => h.1 == k))

/-- Home rows that the groups of a bank hold (R59). -/
def rowsHeld (held : List (Nat × Nat × Group)) : Nat := (held.map (fun h => h.2.2.ctx.need)).sum

/-- Whether the 48 cycles of a swap still run (R22). -/
def State.swapping (s : State) (core : Nat) : Bool :=
  match (s.core core).swap with
  | some w => s.cycle < w.until_
  | none => false

/-! ### Leaving the banks -/

/-- The number of oldest operations of a group that count as sent when its bank is swapped out: all up to its last store or
read-modify-write (R390, R393; log entry 32). They complete afterwards. -/
def sentFirst (ops : List MemOp) : Nat :=
  let n := ops.length
  n - ((ops.reverse.takeWhile (fun o => match memForm o.ins with
    | some f => f.load && (f.atom.isNone || f.atom == some .ld)
    | none => true)).length)

/-- The signature of a sleeper with its exact entries folded in (R153). -/
def Wake.fold (w : Wake) : Wake := { w with exact := [], sig := w.exact.foldl sigAdd w.sig }

/-- What every group loses when it leaves its slot: a live attempt (R155), the captured words of its xirs (R255), run-ahead,
speculation entries, token-wait count, register cache. -/
def Group.leave (g : Group) : Group :=
  let g := if g.tx.isSome then g.abort 9 false else g
  let sl := g.ctx.slices.map (fun x => { x with xir := x.xir.map (fun q => { q with words := [] }) })
  { g with ctx := { g.ctx with slices := sl }, ahead := none, specs := [], tokenWait := 0, cache := [], held := [],
           wake := g.wake.fold }

/-- The operations of a leaving group: those sent stay in flight, the others are withdrawn into its replay part with its
ungranted requests and its drains; in handler mode all are sent (R390, R464). -/
def State.withdraw (s : State) (core frame : Nat) : State :=
  match s.group core frame with
  | none => s
  | some g =>
    if g.inHandler then s
    else
      let n := sentFirst g.ops
      let rs := s.heldEntries core frame { g with ops := g.ops.drop n } true ++ g.replay
      (s.dropHeld core frame).modGroup core frame (fun h => { h with ops := g.ops.take n, replay := rs })

/-- Offset of the handler area in a frame (R464). -/
abbrev handlerArea : Nat := 645120

/-- The save area, replay part and the benches that have not left the frame since an earlier save, at their new places, written
into a group's frame; in handler mode the handler area; of a parked group nothing, its frame stands (R357, R382, R391, R464). -/
def State.writeSaved (s : State) (core frame : Nat) : State :=
  match s.group core frame with
  | none => s
  | some g =>
    let base := s.frameAddr core frame
    match g.handler with
    | some _ =>
      if g.inHandler then s.perform (base + handlerArea) (s.saveHead core frame g g.ctx (2 ^ 56, 0) true false) else s
    | none =>
      let head := s.saveHead core frame g g.ctx (2 ^ 56, 0) false true
      let bs := allBenches (s.core core) frame g
      let s := (s.perform (base + 256) head).perform (base + s.replayOff core frame g g.ctx) (replayPart g.replay)
      g.benchCtx.foldl (fun s e =>
        s.perform (base + 256 + head.length + benchOffset bs e.1) (benchBytes e.1 e.2.1 e.2.2)) s

/-- Where the bench part of a group's frame begins: behind its register part, or behind that of the trapped context. -/
def State.benchBase (s : State) (core frame : Nat) (g : Group) : Nat :=
  s.frameAddr core frame + (match g.handler with
    | none => 256 + 2048 + (regPart g.ctx).length
    | some t => t.image.length)

/-- Bench n of a group written at its place in the bench part, unless the frame holds the benches already (R357, R391, R464). -/
def State.writeBench (s : State) (core frame n : Nat) : State :=
  match s.group core frame with
  | none => s
  | some g =>
    if g.handler.any Trapped.benches then s
    else
      let c := s.core core
      let e := c.benchOf n
      s.perform (s.benchBase core frame g + benchOffset (allBenches c frame g) n) (benchBytes n e.2.1 e.2.2)

/-- The frame of a trapped context once its last bench stands in it: flag [2] of the trap record is cleared, and the total
size takes the bench part in (R355, R464). -/
def State.benchesWritten (s : State) (core frame : Nat) : State :=
  match s.group core frame with
  | none => s
  | some g =>
    match g.handler with
    | none => s
    | some t =>
      if t.benches || !(ownedBenches (s.core core) frame).isEmpty || g.benchCtx.isEmpty then s
      else
        let base := s.frameAddr core frame
        let flags := leBytes (fieldAt t.image 4 4 - fieldAt t.image 4 4 / 4 % 2 * 4) 4
        let total := leBytes (fieldAt t.image 256 4 + up64 ((g.benchCtx.map benchSize).sum)) 4
        let image := t.image.take 4 ++ flags ++ (t.image.drop 8).take 248 ++ total ++ t.image.drop 260
        ((s.perform (base + 4) flags).perform (base + 256) total).setGroup core frame
          { g with handler := some { t with benches := true, image := image } }

/-- A bench of a leaving group, with the other bench of an affine pair, written to its frame and freed for another owner
(R391). -/
def State.spillOne (s : State) (core b : Nat) : State :=
  let bn := s.bench core b
  match bn.owner with
  | none => s.modBench core b (fun k => { k with frozen := false })
  | some f =>
    let set := if bn.affine then [b / 2 * 2, b / 2 * 2 + 1] else [b]
    let s := set.foldl (fun s n => s.writeBench core f n) s
    let s := s.modGroup core f (fun g => { g with benchCtx := g.benchCtx ++ set.map (s.core core).benchOf })
    let s := set.foldl (fun s n => s.modBench core n (fun k =>
      { k with owner := none, frozen := false, releasing := false, bypass := [none, none, none, none] })) s
    s.benchesWritten core f

/-! ### Eviction and restore (R39, R153) -/

/-- Whether an evicted group would be ready: a marked sleeper, or its pages are ready. -/
def State.wouldBeReady (s : State) (g : Group) : Bool :=
  let asp := s.aspaceOf g
  if g.pages.isEmpty then g.wake.marked
  else g.pages.all (fun va => match (s.space asp).page va with
    | some p => !s.staging asp p
    | none => true)

/-- The groups that may be evicted, sleepers first, the longest first; of two that have waited equally long, the one in the
lower slot (DESIGN CHOICE, log entry 102). -/
def State.victims (s : State) (core : Nat) : List Nat :=
  let of_ := fun (st : GState) => (s.activeOn core).filter (fun h => h.2.2.status == st)
  let longest := fun (hs : List (Nat × Nat × Group)) =>
    hs.foldl (fun (best : Option (Nat × Nat × Group)) h => match best with
      | some b => if h.2.2.waitStart < b.2.2.waitStart then some h else some b
      | none => some h) none
  match longest (of_ .sleeping), longest (of_ .parkedPages) with
  | some h, _ => [h.2.1]
  | none, some h => [h.2.1]
  | none, none => []

/-- Groups of a core that would be ready and hold no slot: evicted ones, and those that a swap has saved in a frame (R33,
R39). -/
def State.slotless (s : State) (core : Nat) : List (Nat × Group) :=
  (s.groupsOn core).filter (fun p => (p.2.status == .evicted && s.wouldBeReady p.2)
    || (p.2.status == .ready && p.2.place == .frame && (s.core core).swap.isNone))

/-- Whether the next group to be restored lacks a free slot, or the home rows that it needs (R39, R59). -/
def State.roomLacks (s : State) (core : Nat) : Bool :=
  match s.slotless core with
  | (_, g) :: _ => (freeSlots (s.activeOn core)).isEmpty || decide (s.rows < rowsHeld (s.activeOn core) + g.ctx.need)
  | [] => false

/-- EVICTION (R39): the longest sleeper, or the longest parked for pages, leaves its slot for a group that would be ready,
once what it has issued has written back and no pass runs on its benches (R384, R391). -/
def execEviction (core : Nat) (s : State) : Host.Outcome State Fault Refusal :=
  match s.victims core with
  | [] => .next s
  | f :: _ =>
    let owned := ownedBenches (s.core core) f
    whenEnabled (s.roomLacks core && (s.core core).swap.isNone
        && (s.group core f).all (fun g => g.ops.isEmpty) && owned.all (fun b => !s.benchRuns core b)) (fun s =>
      let s := (s.modGroup core f Group.leave).withdraw core f
      let s := s.writeSaved core f
      let s := owned.foldl (fun s b => s.spillOne core b) s
      s.modGroup core f (fun g => { g with status := .evicted, place := .frame })) s

/-- A withdrawn request put back into its table with its age kept; its window counts from the cycle of its return
(DESIGN CHOICE, log entry 129: R299 keeps only the age). -/
def State.rejoinReq (s : State) (core frame : Nat) (g : Group) (r : Replay) (t : ReqTag) : State :=
  match mxIns r.op.ins with
  | none => s
  | some (k, b, _) =>
    let a := (capAt r.op.caps 0 ((mxLane k r.op.lanes t.quarter).getD 0)).toNat
    let place := if mxBytes k = 0 then none
      else match s.localAt g a with
        | .spot c p => some (c, p)
        | _ => none
    s.addMatrix core frame g r.op k b t.quarter place t

/-- The withdrawn entries of a returning group rejoin the memory queue and the table, oldest first, with no check and no charge,
while there is room and their benches are back; an entry that a return re-injects stops them (R299, R388, R390). -/
def State.rejoin (s : State) (core frame : Nat) : Nat → State
  | 0 => s
  | n + 1 =>
    match s.group core frame with
    | none => s
    | some g =>
      match g.replay with
      | [] => s
      | r :: rest =>
        if !r.withdrawn || r.check then s
        else
          match r.req with
          | none => (s.setGroup core frame { g with replay := rest, ops := g.ops ++ [r.op] }).rejoin core frame n
          | some t =>
            let away := (insBenches r.op.ins).any (fun n => g.benchCtx.any (fun e => e.1 == n) || (s.bench core n).frozen)
            if away || 64 ≤ (s.cluster (clusterOf core)).table.length then s
            else (((s.setGroup core frame { g with replay := rest }).rejoinReq core frame g r t)).rejoin core frame n

/-- A group's return into a slot of the active bank. -/
def State.enterBank (s : State) (core frame slot : Nat) : State :=
  let s := s.modGroup core frame (fun g => { g with place := .active slot })
  (s.restoreBenches core frame).rejoin core frame 32

/-- What a group becomes as it is given a slot by GROUP_RESTORE: ready (R94, R153). -/
def Group.readied (g : Group) : Group :=
  if g.status == .ready then g else if g.pages.isEmpty then g.wakeUp else { g with status := .ready, pages := [] }

/-- GROUP_RESTORE (R39, R94, R153): a group without a slot that would be ready is restored into a free one and is ready. -/
def execGroupRestore (core : Nat) (s : State) : Host.Outcome State Fault Refusal :=
  match s.slotless core, freeSlots (s.activeOn core) with
  | (f, g) :: _, k :: _ =>
    whenEnabled (!s.swapping core && rowsHeld (s.activeOn core) + g.ctx.need ≤ s.rows) (fun s =>
      let s := s.modGroup core f Group.readied
      s.enterBank core f k) s
  | _, _ => .next s

/-! ### Swaps (R390, R391, R393) -/

/-- The highest effective priority of some groups, one more than it; 0 of none. -/
def State.topPrio (s : State) (held : List (Nat × Nat × Group)) : Nat :=
  held.foldl (fun m h => max m (s.prioOf h.2.2 + 1)) 0

/-- Whether the dispatcher or the host orders a swap of a core's banks (R391). -/
def State.swapOrdered (s : State) (core : Nat) : Bool :=
  (s.core core).preempt || s.topPrio (s.activeOn core) < s.topPrio (s.shadowOn core)

/-- One outgoing group at cycle 0 of a swap. -/
def State.swapOut (s : State) (core : Nat) (h : Nat × Nat × Group) : State :=
  ((s.modGroup core h.2.1 Group.leave).withdraw core h.2.1).modGroup core h.2.1 (fun g => { g with place := .shadow h.1 })

/-- Whether a ring of a number of entries is full. -/
def Ring.full (r : Ring) (n : Nat) : Bool := n ≤ (r.head + 2 ^ 32 - r.tail) % 2 ^ 32

/-- SHADOW_BANK_SWAP (R22, R390, R393): the banks exchange roles, in a cycle in which the core has issued nothing yet and while
the report ring has room; the spill of the outgoing groups follows. -/
def execShadowBankSwap (core : Nat) (s : State) : Host.Outcome State Fault Refusal :=
  let c := s.core core
  let still := c.ports.isEmpty && c.issued.isEmpty && !c.refilled
  whenEnabled (c.swap.isNone && s.swapOrdered core && still && !s.preempt.full (2 ^ (s.preempt.size + 2))) (fun s =>
    let out := s.activeOn core
    let inc := s.shadowOn core
    let s := out.foldl (fun s h => s.swapOut core h) s
    let frames := out.map (fun h => h.2.1)
    let s := s.modCore core (fun c =>
      { c with benches := c.benches.map (fun b => { b with frozen := b.owner.isSome }), preempt := false, hold := none,
               swap := some ⟨s.time, s.cycle + 48, frames, frames, false⟩ })
    let s := inc.foldl (fun s h => s.enterBank core h.2.1 h.1) s
    s.countCore core 7 48) s

/-- The lowest bench of a core still to be spilled, once the last granted passes on those benches have retired (R391). -/
def State.spillBench (s : State) (core : Nat) : Option Nat :=
  match (List.range 4).filter (fun b => (s.bench core b).frozen) with
  | b :: bs => if (b :: bs).any (fun n => s.benchRuns core n) then none else some b
  | [] => none

/-- SPILL (R22, R391): after the 48 cycles, the next outgoing group's registers in slot order, once everything it has in
flight has written back, then the next bench in ascending number. -/
def execSpill (core : Nat) (s : State) : Host.Outcome State Fault Refusal :=
  match (s.core core).swap with
  | none => .next s
  | some w =>
    match w.spilling with
    | f :: rest =>
      whenEnabled (w.until_ ≤ s.cycle && (s.group core f).all (fun g => g.ops.isEmpty)) (fun s =>
        ((s.writeSaved core f).modGroup core f (fun g => { g with place := .frame })).modCore core
          (fun c => { c with swap := some { w with spilling := rest } })) s
    | [] =>
      match s.spillBench core with
      | some b => whenEnabled (w.until_ ≤ s.cycle) (fun s =>
          let s := s.spillOne core b
          (s.activeOn core).foldl (fun s h => (s.restoreBenches core h.2.1).rejoin core h.2.1 32) s) s
      | none => .next s

/-- The 64 bytes of a saved-context report (R393). -/
def reportBytes (core : Nat) (w : Swap) (now : Nat) : List Byte :=
  leBytes core 4 ++ leBytes (bitSet w.outgoing) 4 ++ leBytes w.start 8 ++ leBytes now 8 ++ zeros 40

/-- SAVED_CONTEXT_REPORT (R393): after the release fence, the report, when the ring has room. -/
def execSavedContextReport (core : Nat) (s : State) : Host.Outcome State Fault Refusal :=
  match (s.core core).swap with
  | none => .next s
  | some w =>
    let n := 2 ^ (s.preempt.size + 2)
    whenEnabled (w.until_ ≤ s.cycle && w.spilling.isEmpty && (s.core core).benches.all (fun b => !b.frozen) && !s.preempt.full n) (fun s =>
      let s := (s.performEarly core).flushWhere core (fun _ => true)
      let r := s.preempt
      let s := s.perform (r.base + 64 * (r.head % n)) (reportBytes core w s.time)
      let s := ({ s with preempt := { r with head := (r.head + 1) % 2 ^ 32 } }).raise 257
      s.modCore core (fun c => { c with swap := none })) s

/-- Saved groups of a core in the order in which the dispatcher stages them: by priority, then age (R391). -/
def insertSaved (s : State) (h : Nat × Group) : List (Nat × Group) → List (Nat × Group)
  | [] => [h]
  | x :: xs =>
    if s.prioOf x.2 < s.prioOf h.2 || (s.prioOf x.2 == s.prioOf h.2 && s.ageOf h.2 < s.ageOf x.2) then h :: x :: xs
    else x :: insertSaved s h xs

/-- The groups of a core that a swap has saved in frames. -/
def State.savedOn (s : State) (core : Nat) : List (Nat × Group) :=
  ((s.groupsOn core).filter (fun p => p.2.place == .frame && p.2.status != .evicted && p.2.status != .retired)).foldr
    (insertSaved s) []

/-- SHADOW_BANK_FILL (R391): saved groups are brought into free slots and rows of the shadow bank. -/
def execShadowBankFill (core : Nat) (s : State) : Host.Outcome State Fault Refusal :=
  whenEnabled ((s.core core).swap.isNone) (fun s =>
    (s.savedOn core).foldl (fun s p =>
      match freeSlots (s.shadowOn core) with
      | k :: _ =>
        if rowsHeld (s.shadowOn core) + p.2.ctx.need ≤ s.rows then
          s.modGroup core p.1 (fun g => { g with place := .shadow k })
        else s
      | [] => s) s) s

/-- PREEMPT_CMD (R391, R393): a write of the register; it waits while an earlier spill is incomplete. -/
def execPreemptCmd (core : Nat) (s : State) : Host.Outcome State Fault Refusal :=
  .next (if core < Config.cores then s.modCore core (fun c => { c with preempt := true }) else s)

end Sys2Proof.Machine
end

