-- ==== Sys2Proof/Machine/GroupEvents.lean ====
section
/-! DEFINITION. Events of groups: pages that become ready, barriers, regang, the watchdog, the core bucket, traps raised
at write-back, park records and their answers, consumed errors (R20, R34, R40, R94, R162 to R164, R306 to R308, R375,
R379, R384). -/

namespace Sys2Proof.Machine

/-! ### Waits that end -/

/-- PAGES_READY (R94): no page that stopped the probe is staging any longer. -/
def execPagesReady (core frame : Nat) (s : State) : Host.Outcome State Fault Refusal :=
  match s.group core frame with
  | none => .next s
  | some g =>
    whenEnabled (g.status == .parkedPages && s.wouldBeReady { g with wake := { g.wake with marked := true } })
      (fun s => s.setGroup core frame { g with status := .ready, pages := [] }) s

/-- Waiting gangs that a condition selects go on at the next instruction, and the group is ready with them. -/
def Group.release (g : Group) (p : Slice → Bool) (mark : Slice → Slice) : Group :=
  let freed := g.ctx.slices.any p
  let sl := g.ctx.slices.map (fun x =>
    mark (if p x then { x with pc := x.pc + 4, wait := .run, hints := .none } else x))
  let g := { g with ctx := { g.ctx with slices := sl } }
  if freed && g.status == .waiting && g.wait == .gangs then { g with status := .ready, wait := .none } else g

/-- The groups of a crew that have not retired, by key. -/
def State.groupsOf (s : State) (crew : Nat) : Tbl Group :=
  s.groups.filter (fun p => p.2.crew == crew && p.2.status != .retired)

/-- Whether a group has arrived at a barrier phase: every slice arrived or finished; never while trapped or parked (R34,
R306, R308). -/
def arrived (coh : Bool) (g : Group) : Bool :=
  g.handler.isNone && g.status != .parked &&
  g.ctx.slices.all (fun x => x.fin || (if coh then x.arrCoh else x.arrCrew))

/-- Whether a crew has arrived: every group of it has; a retired crew counts (R306). -/
def State.crewArrived (s : State) (coh : Bool) (crew : Nat) : Bool :=
  match s.crew crew with
  | some c => c.retired || (!c.killed && (s.groupsOf crew).all (fun p => arrived coh p.2))
  | none => false

/-- The crews that a barrier of a crew joins. -/
def State.barrierCrews (s : State) (crew : Nat) (coh : Bool) : List Nat :=
  if coh then
    match s.cohortOf crew with
    | some (_, c) => c.crews.map Prod.snd
    | none => [crew]
  else [crew]

/-- A group at the release of a phase: its waiting gangs go on, its marks are cleared. -/
def releaseBar (coh : Bool) (g : Group) : Group :=
  g.release (fun x => x.wait == (if coh then GangWait.cohBar else GangWait.crewBar) && !x.fin)
    (fun x => if coh then { x with arrCoh := false } else { x with arrCrew := false })

/-- BARRIER_RELEASE (R34, R306); what follows a cohort's barrier reads no line fetched before it (R120, R307). -/
def execBarrierRelease (crew : Nat) (coh : Bool) (s : State) : Host.Outcome State Fault Refusal :=
  let cs := s.barrierCrews crew coh
  let waits := cs.any (fun n => (s.groupsOf n).any (fun p =>
    p.2.ctx.slices.any (fun x => x.wait == (if coh then GangWait.cohBar else GangWait.crewBar) && !x.fin)))
  whenEnabled (waits && cs.all (fun n => s.crewArrived coh n)) (fun s =>
    let s := { s with groups := s.groups.map (fun p =>
      if cs.contains p.2.crew && p.2.status != .retired then (p.1, releaseBar coh p.2) else p) }
    let s := if coh then (cs.filterMap s.crew).foldl (fun s c => s.clearL1 c.core) s else s
    cs.foldl (fun s n => s.modCrew n (fun c =>
      if coh then { c with phaseCoh := c.phaseCoh + 1 } else { c with phaseCrew := c.phaseCrew + 1 })) s) s

/-- The slices of a set S (R20). -/
def slicesOf (k : Nat) : List Nat := (List.range 8).filter (fun i => k.testBit i)

/-- Slice i waits at a regang at a PC with a set. -/
def atRegang (sl : List Slice) (pc k i : Nat) : Bool :=
  match sl[i]? with
  | some x => !x.fin && x.pc == pc && x.wait == .regang k
  | none => false

/-- A regang wait that is over: the PC and set of a gang for which every slice of S qualifies (R20). -/
def regangDone (sl : List Slice) : Option (Nat × Nat) :=
  (List.range 8).findSome? (fun i => match sl[i]? with
    | some x => match x.wait with
      | .regang k =>
        let ok := (slicesOf k).all (fun j => atRegang sl x.pc k j || (match sl[j]? with
          | some y => y.fin || y.gang == x.gang
          | none => true))
        if !x.fin && ok then some (x.pc, k) else none
      | _ => none
    | none => none)

/-- The slices that leave a regang: gangs with a slice in S become one gang, a gang without one stays its own (R20). -/
def regangSlices (sl : List Slice) (pc k : Nat) : List Slice :=
  let leads := dedup (((slicesOf k).filter (atRegang sl pc k)).map (fun i => match sl[i]? with
    | some x => x.gang
    | none => i))
  let lead := leads.foldl min 8
  sl.mapIdx (fun i x =>
    if atRegang sl pc k i then
      { x with pc := pc + 4, wait := .run, hints := .none, gang := if leads.contains x.gang then lead else x.gang }
    else x)

/-- REGANG_MERGE (R20). -/
def execRegangMerge (core frame : Nat) (s : State) : Host.Outcome State Fault Refusal :=
  match s.group core frame with
  | none => .next s
  | some g =>
    match regangDone g.ctx.slices with
    | none => .next s
    | some (pc, k) =>
      let g' := { g with ctx := { g.ctx with slices := regangSlices g.ctx.slices pc k } }
      .next (s.setGroup core frame
        (if g.status == .waiting && g.wait == .gangs then { g' with status := .ready, wait := .none } else g'))

/-! ### The watchdog (R40) -/

/-- The watchdog interval of a group's queue in cycles; 0 disables it (R359). -/
def State.watchdogOf (s : State) (g : Group) : Nat :=
  match s.launchOf g with
  | some l => (s.queue l.queue).watchdog * 65536
  | none => 0

/-- The gang of the first slice that a condition selects. -/
def gangWhere (sl : List Slice) (p : Slice → Bool) : Option Nat := (sl.find? (fun x => !x.fin && p x)).map Slice.gang

/-- The gang at whose instruction a group has waited longer than `wd` cycles: of a waiting or sleeping group since that
began; in a regang since the gang came to it. -/
def expired (g : Group) (wd now : Nat) : Option Nat :=
  let regang := gangWhere g.ctx.slices (fun x => match x.wait with
    | .regang _ => wd < now - x.since
    | _ => false)
  let late := decide (wd < now - g.waitStart)
  match g.status with
  | .sleeping => if late then some ((g.ctx.liveSlices.head?).getD 0) else none
  | .waiting =>
    if late then some (if g.wait == .gangs then (gangWhere g.ctx.slices (fun x => x.wait != .run)).getD g.lastGang else g.lastGang)
    else regang
  | .ready => regang
  | _ => none

/-- The wait of a group abandoned: gangs and benches are waited for no longer, a sleeper's wake set is cleared. -/
def Group.abandon (g : Group) : Group :=
  { g with wait := .none, wake := .none, status := .ready,
           ctx := { g.ctx with slices := g.ctx.slices.map (fun x => { x with wait := .run }),
                               txstat := if g.status == .sleeping then txCause g.ctx.txstat 14 else g.ctx.txstat } }

/-- WATCHDOG_EXPIRY (R40, R153, R380): the group parks with cause 32 at the instruction that waited. A wait inside a live attempt
ends the attempt as a trap does, persistently with cause 8 (DESIGN CHOICE, log entry 127: R154 names no watchdog). -/
def execWatchdogExpiry (core frame : Nat) (s : State) : Host.Outcome State Fault Refusal :=
  match s.group core frame with
  | none => .next s
  | some g =>
    let wd := s.watchdogOf g
    match expired g wd s.cycle with
    | none => .next s
    | some lead =>
    whenEnabled (wd != 0 && g.due.isNone && s.inBank core frame) (fun s =>
      let is := gangOf g.ctx.slices lead
      let pc := (g.ctx.slices[lead]?.map Slice.pc).getD 0
      let word := match s.launchOf g with
        | some l => s.fetchWord l pc
        | none => 0
      let s := (s.fetched g pc).modCore core (fun c =>
        { c with benches := c.benches.map (fun b => { b with queue := b.queue.filter (fun q => q.1 != frame) }) })
      (s.setGroup core frame g.abandon).takeTrap core frame
        ⟨32, 0, pc, gangLanes g.ctx.slices is, 0, word, 0, false⟩) s

/-! ### The core bucket (R162, R164) -/

/-- Whether the offers of a core's cycle are over: none of its groups is still to be offered issue (R162 steps 1 to 3). -/
def State.offersOver (s : State) (core : Nat) : Bool :=
  s.swapping core || (s.activeOn core).all (fun h => !s.mayOffer core h)

/-- Whether a held group of a core still has a word to walk in this cycle (R344). -/
def State.walkDue (s : State) (core : Nat) : Bool :=
  (s.groupsOn core).any (fun p => s.walkOk core p.1 p.2 && decide ((p.2.ahead.elim 0 (fun w => w.2.2.1)) < 32)
    && (s.heldOn core p.1 p.2).isSome)

/-- The refill of R162 step 4 (R425): the refill, at most the rate, the die bucket's content and what the cluster's
allowance leaves, and what is refused of it noted as demand (R426); then the rebates; the excess beyond the capacity returns to
the die bucket. -/
def State.refillCore (s : State) (core : Nat) : State :=
  let p := s.power
  let c := s.core core
  let d := s.die (dieOf core)
  let k := s.cluster (clusterOf core)
  let left := s.allow (clusterOf core) * 16 - k.taken
  let want := min p.rate (p.cap - c.level)
  let r := min (min want d.bucket) left
  let lv := c.level + r + c.rebate
  let beyond := lv - p.cap
  let s := { s with power := { p with refused := p.refused + (want - r) } }.setCore core { c with level := lv - beyond, rebate := 0, refilled := true }
  let s := s.modDie (dieOf core) (fun d => { d with bucket := min (d.bucket - r + beyond) (p.dcap * 16) })
  s.modCluster (clusterOf core) (fun k => { k with taken := k.taken + r })

/-- CORE_BUCKET_REFILL (R162 step 4, R347, R425): at the end of the core's cycle, once its offers and walks are over; walks end
by the level before it. -/
def execCoreBucketRefill (core : Nat) (s : State) : Host.Outcome State Fault Refusal :=
  whenEnabled (core < Config.cores && !(s.core core).refilled && s.offersOver core && !s.walkDue core)
    (fun s => (s.endWalks core).refillCore core) s

/-- The oldest ready group of the active bank whose token-wait count has reached 64 (R164). -/
def State.holdFor (s : State) (core : Nat) : Option Nat :=
  let ws := (s.activeOn core).filter (fun h => h.2.2.status == .ready && 64 ≤ h.2.2.tokenWait)
  (ws.foldl (fun (best : Option (Nat × Nat × Group)) h => match best with
    | some b => if s.ageOf h.2.2 < s.ageOf b.2.2 then some h else some b
    | none => some h) none).map (fun h => h.2.1)

/-- A core that holds for no group begins a hold; run-ahead of its groups ends (R164, R347). -/
def State.beginHold (s : State) (core : Nat) : State :=
  match s.holder core, s.holdFor core with
  | none, some f =>
    let s := s.modCore core (fun c => { c with hold := some f })
    { s with groups := s.groups.map (fun p =>
        if p.1 / 32 == core then (p.1, { p.2 with ahead := p.2.ahead.map Walk.over }) else p) }
  | _, _ => s

/-- FAIRNESS_HOLD (R164): at the end of a cycle of the core, behind its refill. -/
def execFairnessHold (core : Nat) (s : State) : Host.Outcome State Fault Refusal :=
  whenEnabled (s.core core).refilled (fun s => s.beginHold core) s

/-! ### Traps at write-back, park records (R375, R378, R384) -/

/-- TAKE_TRAP (R377, R378, R384): a trap raised at a write-back, or one that waited for granted passes, is taken. -/
def execTakeTrap (core frame : Nat) (s : State) : Host.Outcome State Fault Refusal :=
  match s.group core frame with
  | none => .next s
  | some g =>
    match g.due with
    | none => .next s
    | some t =>
      whenEnabled (s.inBank core frame && g.poisoned.isNone && !s.passRuns core frame) (fun s =>
        (s.setGroup core frame { g with due := none }).takeTrap core frame t) s

/-- Records that a park ring holds (R359, R375). -/
def Queue.parkN (q : Queue) : Nat := 2 ^ (min q.parkSize 14 + 2)

/-- The first index at or after `i` that holds no unanswered record; none while the ring is full (R375). -/
def Queue.freeIndex (q : Queue) (i : Nat) : Option Nat :=
  let n := q.parkN
  if n ≤ q.unanswered.length then none
  else ((List.range (q.unanswered.length + 1)).map (fun k => (i + k) % n)).find?
    (fun j => !q.unanswered.any (fun u => u.1 == j))

/-- A park record written at an index, with its interrupt (R375, R399). -/
def State.putRecord (s : State) (qn ix core frame : Nat) (bs : List Byte) : State :=
  let q := s.queue qn
  let s := s.perform (q.park + 32 * ix) bs
  (s.setQueue qn { q with unanswered := q.unanswered ++ [(ix, core, frame, bs)], phead := (ix + 1) % q.parkN }).raise (2 * qn)

/-- The 32 bytes of a park record (R375). -/
def parkBytes (seq : Nat) (wid : Word64) (code core frameAddr : Nat) : List Byte :=
  leBytes seq 8 ++ leBytes wid.toNat 8 ++ leBytes code 4 ++ leBytes core 4 ++ leBytes frameAddr 8

/-- The oldest record that found no place in a new ring and whose group is gone, written at a free index (R309, R375). -/
def State.putBacklog (s : State) (core frame : Nat) : State :=
  match s.queues.find? (fun p => p.2.backlog.any (fun r => r.1 == core && r.2.1 == frame)) with
  | none => s
  | some (n, q) =>
    match q.backlog, q.freeIndex (q.phead % q.parkN) with
    | (c, f, bs) :: rest, some ix => (s.setQueue n { q with backlog := rest }).putRecord n ix c f bs
    | _, _ => s

/-- PARK_RECORD_WRITE (R375, R384): the record of a parked group, when its queue's ring has a place; a group that retired in
handler mode leaves with its record. -/
def execParkRecordWrite (core frame : Nat) (s : State) : Host.Outcome State Fault Refusal :=
  match s.group core frame with
  | none => .next (s.putBacklog core frame)
  | some g =>
    match g.park, s.launchOf g with
    | some code, some l =>
      let q := s.queue l.queue
      match q.freeIndex (q.phead % q.parkN) with
      | none => .next s
      | some ix =>
        let s := s.putRecord l.queue ix core frame (parkBytes l.seq g.wid code core (s.frameAddr core frame))
        .next (if g.status == .retired then s.delGroup core frame
          else s.modGroup core frame (fun g => { g with park := none }))
    | _, _ => .next s

/-! ### Answers to park records (R375) -/

/-- An unanswered record taken from a queue: its core, frame and bytes. -/
def State.answer (s : State) (qn ix : Nat) : Option (Nat × Nat × List Byte × State) :=
  let q := s.queue qn
  match q.unanswered.find? (fun u => u.1 == ix) with
  | none => none
  | some (_, c, f, bs) =>
    some (c, f, bs, s.setQueue qn { q with unanswered := q.unanswered.filter (fun u => u.1 != ix) })

/-- PARK_RESUME (R375): action 0 resumes the group as tret does; a handler parked with cause 32 or 33 goes on. A record of
cause 6 is answered, and nothing else happens. -/
def execParkResume (q r : Nat) (s : State) : Host.Outcome State Fault Refusal :=
  match s.answer q r with
  | none => .next s
  | some (core, frame, bs, s') =>
    if fieldAt bs 16 4 = 6 then .next s'
    else
      match s'.group core frame with
      | some g =>
        if g.status != .parked then .next s'
        else if g.inHandler then .next (s'.setGroup core frame { g with status := .ready, park := none })
        else .next (s'.resume core frame)
      | none => .next s'

/-- PARK_KILL_CREW (R375): action 1 kills the crew; it is relaunched, or the queue is torn down with error 14. A record of
cause 6 is answered, and nothing else happens. -/
def execParkKillCrew (q r : Nat) (s : State) : Host.Outcome State Fault Refusal :=
  match s.answer q r with
  | none => .next s
  | some (core, frame, bs, s') =>
    if fieldAt bs 16 4 = 6 then .next s'
    else
      match s'.group core frame with
      | some g => .next (s'.killForRelaunch g.crew none)
      | none => .next s'

/-- The command number of the launch that a park record of a queue names (R361, R375). -/
def State.recordNumber (s : State) (q seq : Nat) : Nat :=
  match s.launches.find? (fun p => p.2.queue == q && p.2.seq % 2 ^ 64 == seq && !p.2.complete) with
  | some p => p.2.seq
  | none => seq + 2 ^ 64 * (s.queue q).epoch

/-- PARK_KILL_LAUNCH (R375): action 2 tears the queue down with error 17. -/
def execParkKillLaunch (q r : Nat) (s : State) : Host.Outcome State Fault Refusal :=
  match s.answer q r with
  | none => .next s
  | some (core, _, bs, s') =>
    .next (if core < Config.cores then s'.teardown q 17 (s'.recordNumber q (fieldAt bs 0 8)) else s')

/-- QUEUE_PARK_WRITE (R359, R375): the unanswered records move into the new ring from index 0. Those that do not fit stay
without a record: of a group that is gone the device keeps it until there is a place. -/
def execQueueParkWrite (q v : Nat) (s : State) : Host.Outcome State Fault Refusal :=
  let x := s.queue q
  let old := x.unanswered
  let y := { x with park := v / 64 % 2 ^ 35 * 64, parkSize := bitsOf v 48 4, unanswered := [], phead := 0 }
  let rest := (old.drop y.parkN).map Prod.snd
  let late := rest.filter (fun u => fieldAt u.2.2 16 4 == 6)
  let y := if late.isEmpty then y else { y with backlog := late ++ y.backlog }
  let s := (old.take y.parkN).zipIdx.foldl (fun s p => s.putRecord q p.2 p.1.2.1 p.1.2.2.1 p.1.2.2.2) (s.setQueue q y)
  .next (rest.foldl (fun s u => s.modGroup u.1 u.2.1 (fun g => { g with park := some (fieldAt u.2.2 16 4) })) s)

/-! ### Consumed errors (R379) -/

/-- What is younger than a consumer and not yet performed is squashed: it writes nothing and starts no copy; registers that
younger words have written are as the consumer left them; a store that other lanes of the core have read stands (R124, R379). -/
def State.squash (s : State) (core frame n : Nat) (left : Option Ctx) : State :=
  match s.group core frame with
  | none => s
  | some g =>
    let young := (s.heldEntries core frame g false ++ g.replay).filter (fun r => decide (n < r.op.id) && !r.op.early)
    let mine := fun (c f id : Nat) => c == core && f == frame && n < id
    let k := s.cluster (clusterOf core)
    let gone := (k.copies.filter (fun c => !c.started && mine c.core c.frame c.id)).map CopyOp.id
    let s := s.modCluster (clusterOf core) (fun k =>
      { k with table := k.table.filter (fun r => !mine r.core r.frame r.op.id),
               drains := k.drains.filter (fun d => !mine d.core d.frame d.op.id),
               copies := k.copies.filter (fun c => !gone.contains c.id) })
    let g := releaseInvalid g (young.map (fun r => { r with valid := false }))
    s.setGroup core frame
      { g with ctx := left.getD g.ctx, ops := g.ops.filter (fun o => decide (o.id ≤ n) || o.early), replay := g.replay.filter (fun r => r.op.id ≤ n),
               cp := g.cp - gone.length, openOps := g.openOps.filter (fun id => !gone.contains id),
               batches := g.batches.map (fun b => (b.1, b.2.filter (fun id => !gone.contains id))) }

/-- UNCORRECTABLE_CONSUMED (R379, R437, R440): the younger instructions squashed, the frame with cause 20 once no granted pass
runs for the group, the log entry, the kill of the crew. -/
def execUncorrectableConsumed (core frame : Nat) (s : State) : Host.Outcome State Fault Refusal :=
  match s.group core frame with
  | none => .next s
  | some g =>
    match g.poisoned with
    | none => .next s
    | some (t, n, left) =>
      whenEnabled (!s.passRuns core frame) (fun s =>
        let s := (s.setGroup core frame { g with poisoned := none, due := none }).squash core frame n left
        let s := s.takeTrap core frame t
        let e := s.groupLog core g 3 t.sub t.addr
        let s := if t.sub = 0 then (s.log { e with unit := t.addr / 2 ^ 37 % 16 }).retireFrame t.addr else s.log e
        s.killForRelaunch g.crew (some t.sub)) s

end Sys2Proof.Machine
end

