-- ==== Sys2Proof/Machine/Commands.lean ====
section
/-! DEFINITION. Hardware queues and their commands: fetch, map, pin, copies, signals and waits (R87 to R92, R359 to R366, R404,
R405, R455). -/

namespace Sys2Proof.Machine

/-! ### Queue registers (R359) -/

/-- The low half of QUEUE_CTL written: priority always, the address space while the queue is not enabled. -/
def ctlLow (q : Queue) (lo : Nat) : Queue :=
  { q with priority := bitsOf lo 4 8, aspace := if q.enable then q.aspace else bitsOf lo 12 10 }

/-- QUEUE_ENABLE (R359, R361, R369): clears QUEUE_STATUS and fetches from QUEUE_HEAD; the next command may carry any number. -/
def execQueueEnable (q lo : Nat) (s : State) : Host.Outcome State Fault Refusal :=
  .next (s.modQueue q (fun x =>
    { ctlLow x lo with enable := true, error := 0, down := false, expect := none, epoch := x.epoch + 1 }))

/-- QUEUE_DISABLE (R359). -/
def execQueueDisable (q lo : Nat) (s : State) : Host.Outcome State Fault Refusal :=
  .next (s.modQueue q (fun x => { ctlLow x lo with enable := false }))

/-- QUEUE_BASE_WRITE (R359). -/
def execQueueBaseWrite (q v : Nat) (s : State) : Host.Outcome State Fault Refusal :=
  .next (s.modQueue q (fun x => { x with base := bitsOf v 6 35 * 64, head := 0 }))

/-- QUEUE_DOORBELL (R359): a write of QUEUE_TAIL. -/
def execQueueDoorbell (q tail : Nat) (s : State) : Host.Outcome State Fault Refusal :=
  .next (s.modQueue q (fun x => { x with tail := tail % 2 ^ 32 }))

/-- DBG_STOP_SET (R455). -/
def execDbgStopSet (q : Nat) (s : State) : Host.Outcome State Fault Refusal :=
  .next (s.modQueue q (fun x => { x with stop := true }.settleStop))

/-- DBG_STOP_CLEAR (R455). -/
def execDbgStopClear (q : Nat) (s : State) : Host.Outcome State Fault Refusal :=
  .next (s.modQueue q (fun x => { x with stop := false, stopped := false }))

/-! ### Fetch and the start of a command (R361 to R363) -/

/-- The bytes of operands of a command kind; none for a kind that does not exist (R363). -/
def operandBytes : Nat → Option Nat
  | 1 => some 8 | 2 => some 12 | 3 => some 12 | 4 => some 24 | 5 => some 24 | 6 => some 17 | 7 => some 16 | 8 => some 8
  | 9 => some 12 | 10 => some 12 | _ => none

/-- Whether a list of bytes is zero. -/
def allZero (bs : List Byte) : Bool := bs.all (· == 0)

/-- Whether a ring entry breaks R363. -/
def entryBad (e : List Byte) : Bool :=
  match operandBytes (fieldAt e 0 1) with
  | none => true
  | some n => fieldAt e 1 1 / 2 != 0 || fieldAt e 2 6 != 0 || !allZero (e.drop (16 + n))

/-- The ring entry that a queue may fetch: enabled, up, not empty, not stopped, nothing that lets nothing start. -/
def State.nextEntry (s : State) (q : Nat) : Option (List Byte) :=
  let x := s.queue q
  if x.enable && !x.down && !s.fatal && x.waiting.isNone && !x.stop && x.head % x.entries != x.tail % x.entries
  then some (s.readMem (x.base + 64 * (x.head % x.entries)) 64)
  else none

/-- A command taken from its queue: the head moves on, the next number is expected. -/
def State.takeEntry (s : State) (q seq : Nat) : State :=
  let x := s.queue q
  s.setQueue q { x with head := (x.head + 1) % x.entries, expect := some ((seq + 1) % 2 ^ 64) }

/-- The number of a command: the sequence number that its entry carries, and above bit 64 how often its queue had been enabled,
so that commands in flight stay apart when the numbers begin again (R361). -/
def State.number (s : State) (q seq : Nat) : Nat := seq + 2 ^ 64 * (s.queue q).epoch

/-- What a command of a number does: none while it cannot start, otherwise the state after its start. -/
abbrev Body := Nat → List Byte → State → Option State

/-- The start of a queue's next command, which must be of a kind: the sequence (R361), the entry's form (R363), the flag
after and signals (R362), then its body, in a state in which it has been fetched. -/
def State.startCommand (s : State) (q kind : Nat) (body : Body) : State :=
  match s.nextEntry q with
  | none => s
  | some e =>
    let x := s.queue q
    let seq := fieldAt e 8 8
    let n := s.number q seq
    let k := fieldAt e 0 1
    if k ≠ kind then s
    else if x.expect.isSome && x.expect != some seq then (s.takeEntry q seq).teardown q 1 n
    else if entryBad e then (s.takeEntry q seq).teardown q 2 n
    else if (k = 6 || fieldAt e 1 1 = 1) && !x.busy.isEmpty then s
    else (body n e (s.takeEntry q seq)).getD s

/-- A command that stays incomplete. -/
def State.addBusy (s : State) (q seq : Nat) : State := s.modQueue q (fun x => { x with busy := x.busy ++ [seq] })

/-! ### Virtual ranges of a queue -/

/-- The physical pieces of a virtual range; none where a byte has no translation. -/
def State.piecesOf (s : State) (asp : Nat) : Nat → Nat → Nat → Option (List (Nat × Nat))
  | 0, _, n => if n = 0 then some [] else none
  | fuel + 1, va, n =>
    if n = 0 then some []
    else
      match (s.space asp).page va with
      | none => none
      | some p =>
        let here := min n (p.va + pageBytes p.size - va)
        (s.piecesOf asp fuel (va + here) (n - here)).map (fun r => (p.pa + (va - p.va), here) :: r)

/-- The pieces of a range, with room for every page of the space. -/
def State.pieces (s : State) (asp va n : Nat) : Option (List (Nat × Nat)) :=
  s.piecesOf asp ((s.space asp).pages.length + 1) va n

/-- The bytes of a virtual range. -/
def State.readVirt (s : State) (asp va n : Nat) : Option (List Byte) :=
  (s.pieces asp va n).map (fun ps => (ps.map (fun p => s.readMem p.1 p.2)).flatten)

/-- Whether every page of a range is pinned by a queue and satisfies a condition; `fuel` bounds the pages. -/
def State.pinnedFor (s : State) (q asp : Nat) (ok : PageMap → Bool) : Nat → Nat → Nat → Bool
  | 0, _, n => n == 0
  | fuel + 1, va, n =>
    n == 0 || (match (s.space asp).page va with
      | none => false
      | some p =>
        let here := min n (p.va + pageBytes p.size - va)
        (s.queue q).holds asp p && ok p && s.pinnedFor q asp ok fuel (va + here) (n - here))

/-- Whether a range lies on pages pinned by a queue. -/
def State.pinOk (s : State) (q asp va n : Nat) (ok : PageMap → Bool) : Bool :=
  s.pinnedFor q asp ok ((s.space asp).pages.length + 1) va n

/-! ### map (R89 to R91, R365, R386, R396) -/

/-- An entry of a translation table as a page; none where it breaks R365. -/
def readPage (bs : List Byte) : Option PageMap :=
  let lo := fieldAt bs 0 8
  let hi := fieldAt bs 8 8
  let va := lo % 2 ^ 56
  let size := bitsOf lo 56 4
  let pa := hi % 2 ^ 41
  let n := pageBytes size
  if lo / 2 ^ 60 ≠ 0 || hi / 2 ^ 46 ≠ 0 || va % n ≠ 0 || pa % n ≠ 0 || bitsOf hi 44 2 = 3 then none
  else some ⟨va, size, pa, hi.testBit 41, hi.testBit 42, hi.testBit 43, bitsOf hi 44 2⟩

/-- Whether a page lies in the heap of a present memory die, on no retired frame (R396). -/
def State.inHeap (s : State) (pa n : Nat) : Bool :=
  match s.heaps[pa / 2 ^ 37]? with
  | some h =>
    let f := pa % 2 ^ 37 / 4096
    let k := n / 4096
    h.present && h.first ≤ f && f + k ≤ h.first + h.count && !h.retired.any (fun r => f ≤ r && r < f + k)
  | none => false

/-- Ascending and disjoint. -/
def pagesSorted : List PageMap → Bool
  | p :: q :: r => p.va + pageBytes p.size ≤ q.va && pagesSorted (q :: r)
  | _ => true

/-- The table that a map command names, when it is a table. -/
def State.readTable (s : State) (pa count : Nat) : Option (List PageMap) :=
  let es := (List.range count).map (fun i => readPage (s.readMem (pa + 16 * i) 16))
  let ps := es.filterMap id
  if es.all Option.isSome && pagesSorted ps && populated pa (16 * count)
    && ps.all (fun p => s.inHeap p.pa (pageBytes p.size) && !meets p.va (pageBytes p.size) Config.frameVa Config.frameBytes)
  then some ps else none

/-- The first map of a space creates it; a later one is a remap with a new generation (R87, R91, R365). Before it is adopted, the
stores that a core of their own has seen are performed: an access that anything has seen is not rejected (R116, R136); then every
translation cache drops the entries of the space. -/
def State.install (s : State) (asp : Nat) (ps : List PageMap) : State :=
  match tfind s.aspaces asp with
  | none => { s with aspaces := tset s.aspaces asp ⟨0, ps⟩ }
  | some a =>
    let s := (s.cores.map Prod.fst).foldl (fun s c => s.performEarly c) s
    let gone := ps.map (fun p => (asp, p.va))
    { s with aspaces := tset s.aspaces asp ⟨(a.gen + 1) % 2 ^ 16, ps⟩,
             cores := s.cores.map (fun c => (c.1, { c.2 with missed := c.2.missed.filter (fun m => m.1 != asp) ++ gone })) }

/-- MAP (R365): an unmapped-die table, or one that breaks a rule, is error 10. -/
def execMap (q : Nat) (s : State) : Host.Outcome State Fault Refusal :=
  .next (s.startCommand q 10 (fun seq e s =>
    match s.readTable (fieldAt e 16 8) (fieldAt e 24 4) with
    | some ps => some (s.install (s.queue q).aspace ps)
    | none => some (s.teardown q 10 seq)))

/-! ### pin and unpin (R90, R92, R366) -/

/-- A range of a working-set list; none where it is malformed (R366). -/
def readRange (bs : List Byte) : Option Range :=
  let lo := fieldAt bs 0 8
  let hi := fieldAt bs 8 8
  let pages := hi % 2 ^ 32
  if lo / 2 ^ 56 ≠ 0 || lo % 4096 ≠ 0 || pages = 0 || hi / 2 ^ 35 ≠ 0 then none
  else some ⟨lo, pages, hi.testBit 32, hi.testBit 33, hi.testBit 34⟩

/-- A working-set list in memory: none where it has no translation, then none where an entry is malformed. -/
def State.readRanges (s : State) (asp va count : Nat) : Option (Option (List Range)) :=
  (s.readVirt asp va (16 * count)).map (fun bs =>
    let rs := (List.range count).map (fun i => readRange ((bs.drop (16 * i)).take 16))
    if rs.all Option.isSome then some (rs.filterMap id) else none)

/-- Whether a list of ranges covers a byte of the frame window, which is error 10 (R386). -/
def coverWindow (rs : List Range) : Bool :=
  rs.any (fun r => meets r.start (r.pages * 4096) Config.frameVa Config.frameBytes)

/-- Whether a range may be pinned: translated throughout, on populated memory (R90, R366). -/
def State.pinnable (s : State) (asp : Nat) (r : Range) : Bool :=
  match s.pieces asp r.start (r.pages * 4096) with
  | some ps => ps.all (fun p => populated p.1 p.2)
  | none => false

/-- PIN (R92, R366). -/
def execPin (q : Nat) (s : State) : Host.Outcome State Fault Refusal :=
  .next (s.startCommand q 2 (fun seq e s =>
    let asp := (s.queue q).aspace
    match s.readRanges asp (fieldAt e 16 8) (fieldAt e 24 4) with
    | none => some (s.teardown q 10 seq)
    | some none => some (s.teardown q 2 seq)
    | some (some rs) =>
      if !coverWindow rs && rs.all (s.pinnable asp) then
        some (s.modQueue q (fun x => { x with pins := x.pins ++ rs.map (fun r => (asp, r.start, r.pages)) }))
      else some (s.teardown q 10 seq)))

/-- UNPIN (R92, R366). -/
def execUnpin (q : Nat) (s : State) : Host.Outcome State Fault Refusal :=
  .next (s.startCommand q 3 (fun seq e s =>
    let asp := (s.queue q).aspace
    match s.readRanges asp (fieldAt e 16 8) (fieldAt e 24 4) with
    | none => some (s.teardown q 10 seq)
    | some none => some (s.teardown q 2 seq)
    | some (some rs) =>
      let u := (seq, asp, rs.map (fun r => (r.start, r.pages)))
      if coverWindow rs then some (s.teardown q 10 seq)
      else some (((s.addBusy q seq).modQueue q (fun x => { x with unpins := x.unpins ++ [u] })).settleUnpins q)))

/-! ### Copies across the package boundary (R366, R404, R405) -/

/-- Whether a copy-in must wait: a target page is listed and ready for a launch of its space (R366). -/
def State.copyInBusy (s : State) (asp va n : Nat) : Bool :=
  (s.space asp).pages.any (fun p => meets p.va (pageBytes p.size) va n && !s.staging asp p &&
    s.launches.any (fun l => !l.2.complete && l.2.aspace == asp &&
      l.2.wset.any (fun r => meets p.va (pageBytes p.size) r.start (r.pages * 4096))))

/-- The link of a queue's copies: 0 for IO0, 1 for IO1 (R403). -/
def State.linkOf (s : State) (q : Nat) : Nat := s.linkRoute / 2 ^ q % 2

/-- The start of a copy-in or copy-out (R404). -/
def startCopy (q : Nat) (out : Bool) : Body := fun seq e s =>
  let asp := (s.queue q).aspace
  let va := fieldAt e 24 8
  let n := fieldAt e 32 8
  if n = 0 then some s
  else if !s.pinOk q asp va n (fun p => if out then p.r else p.w) then some (s.teardown q 9 seq)
  else if !out && s.copyInBusy asp va n then none
  else if !s.hostLinks.contains (s.linkOf q) then some (s.teardown q 11 seq)
  else
    let (id, s) := s.newId
    let d : Dma := { id := id, queue := q, seq := seq, out := out, sys := fieldAt e 16 8, va := va, aspace := asp, len := n,
                     link := s.linkOf q, pieces := (s.pieces asp va n).getD [], moved := [], gen := (s.space asp).gen }
    some ({ s with dmas := s.dmas ++ [d] }.addBusy q seq)

/-- COPY_IN (R366, R404): its pages are staging until it completes. -/
def execCopyIn (q : Nat) (s : State) : Host.Outcome State Fault Refusal := .next (s.startCommand q 4 (startCopy q false))

/-- COPY_OUT (R404). -/
def execCopyOut (q : Nat) (s : State) : Host.Outcome State Fault Refusal := .next (s.startCommand q 5 (startCopy q true))

/-- The failure of a copy: its queue is torn down with an error, and with a copy-in those of the launches that list its pages,
which stay staging, with error 11 (R94, R405). -/
def State.failCopy (s : State) (d : Dma) (err : Nat) : State :=
  let hit := if d.out then [] else (s.launches.filter (fun l => s.namesPage l.2 d.aspace d.va d.len)).map
    (fun l => (l.2.queue, l.2.seq))
  let s := { s with dmas := s.dmas.filter (fun x => x.id != d.id),
                    failedStaging := if d.out then s.failedStaging else s.failedStaging ++ [(d.aspace, d.va, d.len)] }
  (hit.filter (fun h => h.1 != d.queue)).foldl (fun s h => s.teardown h.1 11 h.2) (s.teardown d.queue err d.seq)

/-- The pages of a copy-in that has completed are staging no longer for an earlier one that failed (R92). -/
def State.clearStaging (s : State) (d : Dma) : State :=
  let ps := (s.space d.aspace).pages
  let hit := fun (p : PageMap) (va n : Nat) => meets p.va (pageBytes p.size) va n
  { s with failedStaging := (s.failedStaging.map (fun f =>
      if f.1 == d.aspace && ps.any (fun p => hit p f.2.1 f.2.2 && hit p d.va d.len) then
        (ps.filter (fun p => hit p f.2.1 f.2.2 && !hit p d.va d.len)).map (fun p => (f.1, p.va, pageBytes p.size))
      else [f])).flatten }

/-- The copies of a range that the L1s hold recalled: an agent of system scope writes it (R108). -/
def State.dropLines (s : State) (pa n : Nat) : State := s.recall (linesOf pa n)

/-- Bytes written at the physical pieces of a range, in order, by an agent of system scope. -/
def State.writePieces (s : State) (ps : List (Nat × Nat)) (bs : List Byte) : State :=
  (ps.foldl (fun (acc : State × List Byte) p =>
    ((acc.1.perform p.1 (acc.2.take p.2)).dropLines p.1 p.2, acc.2.drop p.2)) (s, bs)).1

/-- The physical pieces of `n` bytes of a range from its byte `off` on. -/
def cutPieces : List (Nat × Nat) → Nat → Nat → List (Nat × Nat)
  | [], _, _ => []
  | p :: r, off, n =>
    if p.2 ≤ off then cutPieces r (off - p.2) n
    else
      let k := min n (p.2 - off)
      if k = 0 then [] else (p.1 + off, k) :: cutPieces r 0 (n - k)

/-- The parts of a copy not yet moved: offset and length; all of it, or piece by piece. -/
def Dma.rest (d : Dma) : List (Nat × Nat) :=
  if d.moved.isEmpty then [(0, d.len)]
  else ((List.range ((d.len + 4095) / 4096)).filter (fun i => !d.moved.contains i)).map
    (fun i => (4096 * i, min 4096 (d.len - 4096 * i)))

/-- One part of a copy moved (R404); poisoned data leaves as poisoned data, and every sector of it is logged (R434, R441). -/
def State.movePart (s : State) (d : Dma) (r : Nat × Nat) (bytes : List Byte) : State :=
  let ps := cutPieces d.pieces r.1 r.2
  if d.out then
    let bad := s.poison.filter (fun x => ps.any (fun p => meets p.1 p.2 (x * 32) 32))
    let s := s.emit (.copyOut d.link (d.sys + r.1) ((ps.map (fun p => s.readMem p.1 p.2)).flatten))
    if bad.isEmpty then s else bad.foldl (fun s x => s.uncorrect x) (s.emit .poisonedData)
  else s.writePieces ps (padTo bytes r.2)

/-- Whether a copy carries the generation that its address space still has (R91). -/
def State.copyFresh (s : State) (d : Dma) : Bool := d.gen == (s.space d.aspace).gen

/-- A copy that a remap has overtaken: the memory die rejects it, and its queue is torn down with error 13 (R91, R440). -/
def State.rejectDma (s : State) (d : Dma) : State :=
  (s.log { kind := 4, unit := (d.pieces.headD (0, 0)).1 / 2 ^ 37 % 16, aspace := d.aspace, addr := d.va,
           curGen := (s.space d.aspace).gen % 2 ^ 16, gen := d.gen % 2 ^ 16, queue := d.queue, seq := d.seq }).failCopy d 13

/-- DMA_COPY_COMPLETE (R91, R404, R405): the end of a copy, or one piece of it moved before. -/
def execDmaCopyComplete (op : Nat) (e : DmaEnd) (s : State) : Host.Outcome State Fault Refusal :=
  match s.dmas.find? (fun d => d.id == op) with
  | none => .next s
  | some d =>
    if !s.copyFresh d then .next (s.rejectDma d)
    else match e with
    | .failed => .next (s.failCopy d 11)
    | .piece ix bytes =>
      whenEnabled (4096 * ix < d.len && !d.moved.contains ix) (fun s =>
        { s with dmas := s.dmas.map (fun (x : Dma) => if x.id == op then { x with moved := ix :: x.moved } else x) }.movePart d
          (4096 * ix, min 4096 (d.len - 4096 * ix)) bytes) s
    | .data bytes =>
      let s := d.rest.foldl (fun s r => s.movePart d r ((bytes.drop r.1).take r.2)) s
      let s := if d.out then s else s.clearStaging d
      .next (({ s with dmas := s.dmas.filter (fun x => x.id != op) }.complete d.queue d.seq).countDma d.link 0 d.len
        |>.countDma d.link 1 1)

/-- HOST_LINK_DOWN (R405). -/
def execHostLinkDown (link : Nat) (s : State) : Host.Outcome State Fault Refusal :=
  let s := { s with hostLinks := s.hostLinks.filter (· != link) }
  .next ((s.dmas.filter (fun d => d.link == link)).foldl (fun s d => s.failCopy d 11) s)

/-! ### Completion objects (R364) -/

/-- The physical address of a completion object; none where R364 refuses it. -/
def State.object (s : State) (q va : Nat) : Option Nat :=
  let asp := (s.queue q).aspace
  if va % 8 ≠ 0 || !s.pinOk q asp va 8 (fun _ => true) then none else (s.space asp).pa va

/-- SIGNAL (R362, R364). -/
def execSignal (q : Nat) (s : State) : Host.Outcome State Fault Refusal :=
  .next (s.startCommand q 6 (fun seq e s =>
    let v := fieldAt e 24 8
    let mode := fieldAt e 32 1
    match s.object q (fieldAt e 16 8) with
    | none => some (s.teardown q 2 seq)
    | some pa =>
      if 1 < mode then some (s.teardown q 2 seq)
      else
        let x := if mode = 1 then (ofLe (s.readMem pa 8) + v) % 2 ^ 64 else v
        some ((s.perform pa (leBytes x 8)).dropLines pa 8)))

/-- The wait of a queue ends when its object is at least the value (R363). -/
def State.pollWait (s : State) (q : Nat) : State :=
  match (s.queue q).waiting with
  | some (_, pa, v) =>
    if v ≤ ofLe (s.readMem pa 8) then s.modQueue q (fun x => { x with waiting := none }.settleStop) else s
  | none => s

/-- WAIT_COMMAND (R362 to R364): it starts, or, when it has started, it looks at its object again. -/
def execWaitCommand (q : Nat) (s : State) : Host.Outcome State Fault Refusal :=
  if (s.queue q).waiting.isSome then .next (s.pollWait q)
  else
    .next (s.startCommand q 7 (fun seq e s =>
      match s.object q (fieldAt e 16 8) with
      | none => some (s.teardown q 2 seq)
      | some pa => some ((s.modQueue q (fun x => { x with waiting := some (seq, pa, fieldAt e 24 8) })).pollWait q)))

end Sys2Proof.Machine
end

