-- ==== Sys2Proof/Machine/Span.lean ====
section
/-! DEFINITION. Span prologues, the flits that the device sends, and what a route failure ends (R371, R409, R410, R421, R460,
R461). -/

namespace Sys2Proof.Machine

/-! ### Span prologues (R371, R410) -/

/-- The devices of a rectangle in row-major order. -/
def rectDevices (x y w h : Nat) : List (Nat × Nat) :=
  ((List.range h).map (fun j => (List.range w).map (fun i => (x + i, y + j)))).flatten

/-- Whether a rectangle contains a device. -/
def inRect (x y w h dx dy : Nat) : Bool := x ≤ dx && dx < x + w && y ≤ dy && dy < y + h

/-- A routing entry: first-hop port when valid. -/
def readHop (bs : List Byte) : Option Nat :=
  let v := fieldAt bs 0 4
  if v / 2 ^ 6 ≠ 0 || !v.testBit 5 then none else some (v % 32)

/-- The thresholds that a port's latched statistics break, as alarm bits (R411); none before its first window. -/
def Port.breach (p : Port) : Nat :=
  let up := fun (c : Bool) k => if c then 2 ^ k else 0
  if !p.latched then 0
  else up (p.height < p.thHeight) 0 + up (p.width < p.thWidth) 1 + up (p.thCerr < p.cerr) 2

/-- Whether a first hop is usable: a trained port with no alarm bit and no threshold broken (R371, R411, R460). -/
def State.hopOk (s : State) (p : Nat) : Bool :=
  (s.port p).trained && !(s.port p).down && (s.port p).alarm == 0 && (s.port p).breach == 0

/-- Whether the hops of a table are usable, that of the device itself (number `own`) apart. -/
def State.hopsOk (s : State) (own : Nat) (hops : List Nat) : Bool := (hops.mapIdx (fun i p => i == own || s.hopOk p)).all id

/-- The routing table of a prologue with its checks; none where one fails. -/
def State.readSpan (s : State) (q seq va size : Nat) : Option SpanTable :=
  match s.readVirt (s.queue q).aspace va 16 with
  | none => none
  | some h =>
    let sp := fieldAt h 0 4
    let x := sp % 2 ^ 10
    let y := bitsOf sp 16 9
    let n4 := fieldAt h 4 2
    let n5 := fieldAt h 6 2
    match s.readVirt (s.queue q).aspace (va + 16) (4 * n4 * n5) with
    | none => none
    | some bs =>
      let es := (List.range (n4 * n5)).map (fun i => readHop ((bs.drop (4 * i)).take 4))
      let hops := es.map (·.getD 0)
      let ok := bitsOf sp 10 6 == 0 && sp / 2 ^ 25 == 0 && fieldAt h 12 4 == 0 && size == 16 + 4 * n4 * n5
        && 1 ≤ n4 && n4 ≤ 1024 && 1 ≤ n5 && n5 ≤ 512 && inRect x y n4 n5 s.coordX s.coordY && es.all Option.isSome
        && s.hopsOk (s.coordX - x + n4 * (s.coordY - y)) hops
      if ok then
        some { ident := fieldAt h 8 4, x := x, y := y, n4 := n4, n5 := n5, hops := hops, queue := q, seq := seq, heard := [],
               complete := false }
      else none

/-- The first-hop port of a span table for a device; none outside its rectangle. -/
def SpanTable.hop (t : SpanTable) (x y : Nat) : Option Nat :=
  if inRect t.x t.y t.n4 t.n5 x y then t.hops[(x - t.x) + t.n4 * (y - t.y)]? else none

/-- The other devices of a prologue's rectangle. -/
def State.peersOf (s : State) (t : SpanTable) : List (Nat × Nat) :=
  (rectDevices t.x t.y t.n4 t.n5).filter (fun d => d != (s.coordX, s.coordY))

/-! ### Route failures (R371, R410, R421, R461) -/

/-- Whether a launch is a span launch over a span identity: of the table that it uses (R460). -/
def State.launchOver (s : State) (l : Launch) (ident : Nat) : Bool :=
  l.flags.testBit 7 && s.spans.any (fun t => t.ident == ident && t.queue == l.queue && some t.seq == l.table)

def State.modColl (s : State) (launch : Nat) (f : Coll → Coll) : State :=
  { s with colls := s.colls.map (fun (c : Coll) => if c.launch == launch then f c else c) }

/-- An error recorded: the first one stands (R421). -/
def Coll.err (c : Coll) (e : Nat) : Coll := { c with error := if c.error = 0 then e else c.error }

/-- The binding of an ident. -/
def State.binding (s : State) (ident : Nat) : Option Binding := s.bindings.find? (fun (b : Binding) => b.ident == ident)

/-- Peers of a binding. -/
def Binding.size (b : Binding) : Nat := b.pw * b.ph

/-- A prologue that fails: error 15, and it is incomplete no longer (R371). -/
def State.failPrologue (s : State) (t : SpanTable) : State :=
  ((s.dropPrologues (fun u => u.queue == t.queue && u.seq == t.seq)).teardown t.queue 15 t.seq).complete t.queue t.seq

/-- A route failure over a span identity (R410, R421, R461): error 1 in the completion records, then the teardown with error 15 of
every queue that holds a span launch of the identity; a prologue of it that waits for its peers fails. -/
def State.routeFailed (s : State) (span : Nat) : State :=
  let qs := (s.launches.filter (fun p => !p.2.complete && !p.2.killed && s.launchOver p.2 span)).map (fun p => (p.2.queue, p.2.seq))
  let waiting := s.spans.filter (fun t => !t.complete && t.ident == span)
  let beyond := fun (c : Coll) => s.spans.any (fun t => t.ident == span && t.queue == c.queue) &&
    (s.binding c.ident).any (fun b => 1 < b.size)
  let s := { s with colls := s.colls.map (fun (c : Coll) => if beyond c then { (c.err 1) with failed := true } else c) }
  let s := qs.foldl (fun s p => s.teardown p.1 15 p.2) s
  waiting.foldl (fun s t => s.failPrologue t) s

/-! ### Flits (R409, R410) -/

/-- The 16 bytes of a flit's header (R409): destination, source, channel, kind, span identity, sequence number, valid bytes. -/
def flitHeader (dx dy sx sy vc kind span seq valid : Nat) : List Byte :=
  leBytes (dx % 2 ^ 10 + 2 ^ 10 * (dy % 2 ^ 9) + 2 ^ 19 * (sx % 2 ^ 10) + 2 ^ 29 * (sy % 2 ^ 9) + 2 ^ 38 * (vc % 4)
    + 2 ^ 40 * (kind % 2 ^ 5) + 2 ^ 48 * (span % 2 ^ 32) + 2 ^ 80 * (seq % 2 ^ 32) + 2 ^ 112 * (valid % 2 ^ 8)) 16

/-- A flit sent through a port. -/
def State.sendFlit (s : State) (port : Nat) (header payload : List Byte) : State :=
  let s := s.emit (.flit port header payload)
  if port < 32 then s.countPort port 0 1 else s

/-- Whether a port carries traffic. -/
def Port.up (p : Port) : Bool := p.trained && !p.down

/-- The next sequence number of this device towards a destination on a channel (R409). -/
def State.nextSeq (s : State) (key : Nat × Nat × Nat) : Nat :=
  ((s.flitSeq.find? (fun e => e.1 == key)).map Prod.snd).getD 0

/-- The channel of the flits that the device sends of itself: control (DESIGN CHOICE, log entry 110). -/
abbrev ownChannel : Nat := 2

/-- The payload of a flit of the device's own: the numbers of its body, eight bytes each; R409 gives a body no layout (DESIGN
CHOICE, log entry 110). -/
def flitBody (body : List Nat) : List Byte := (body.map (fun v => leBytes v 8)).flatten

/-- A flit of this device's own (R409, R410). One whose first hop does not carry traffic is dropped, with vector 259, and the
device, which is its source, has a route failure of its span identity; flits of power intents and of time synchronisation have
none. -/
def State.sendOwn (s : State) (port kind dx dy span : Nat) (body : List Nat) : State :=
  let key := (dx, dy, ownChannel)
  let n := s.nextSeq key
  let s := { s with flitSeq := (key, (n + 1) % 2 ^ 32) :: s.flitSeq.filter (fun e => e.1 != key) }
  let pay := flitBody body
  if port < 32 && (s.port port).up then
    s.sendFlit port (flitHeader dx dy s.coordX s.coordY ownChannel kind span n pay.length) (padTo pay 224)
  else if kind = 3 || kind = 4 then s.raise 259
  else (s.raise 259).routeFailed span

/-- The first-hop port of the management table for a device (R410). -/
def State.mgmtPort (s : State) (x y : Nat) : Nat :=
  match s.mgmt.find? (fun m => m.1 == x && m.2.1 == y) with
  | some m => m.2.2
  | none => 32

/-! ### Prologues (R371, R460, R461) -/

/-- A prologue whose every peer has been heard completes, each exchange counted once; one whose ports are no longer usable fails
(R371, R460). -/
def State.settlePrologue (s : State) (t : SpanTable) : State :=
  let peers := s.peersOf t
  let heard := peers.map (fun d => (t.ident, d.1, d.2))
  if t.complete || !heard.all (fun x => s.exchanges.contains x) then s
  else if !s.hopsOk (s.coordX - t.x + t.n4 * (s.coordY - t.y)) t.hops then s.failPrologue t
  else
    { s with exchanges := heard.foldl (fun l x => l.erase x) s.exchanges,
             spans := s.spans.map (fun (u : SpanTable) =>
               if u.queue == t.queue && u.seq == t.seq then { u with heard := peers, complete := true } else u) }.complete t.queue t.seq

/-- The prologues that may end now, the oldest first. -/
def State.settlePrologues (s : State) : State :=
  s.spans.reverse.foldl (fun (s : State) (t : SpanTable) => if s.spans.contains t then s.settlePrologue t else s) s

/-- A port that carries traffic no longer fails the prologues that wait for a peer behind it (R371, R461). -/
def State.failBehind (s : State) (port : Nat) : State :=
  (s.spans.filter (fun (t : SpanTable) => !t.complete && (s.peersOf t).any (fun d => t.hop d.1 d.2 == some port))).foldl
    (fun s t => s.failPrologue t) s

/-- SPAN_PROLOGUE (R371): from its start on its table is the one that later span launches of the queue use. -/
def execSpanPrologue (q : Nat) (s : State) : Host.Outcome State Fault Refusal :=
  .next (s.startCommand q 9 (fun seq e s =>
    match s.readSpan q seq (fieldAt e 16 8) (fieldAt e 24 4) with
    | none => some (s.teardown q 15 seq)
    | some t =>
      let s := (({ s with spans := t :: s.spans }).addBusy q seq).modQueue q (fun x => { x with span := some seq })
      let s := (s.peersOf t).foldl (fun s d =>
        if s.spans.contains t then s.sendOwn (s.mgmtPort d.1 d.2) 5 d.1 d.2 t.ident [] else s) s
      some s.settlePrologues))

/-- PROLOGUE_EXCHANGE_RECEIVE (R371). -/
def execPrologueExchangeReceive (sx sy span : Nat) (s : State) : Host.Outcome State Fault Refusal :=
  .next ({ s with exchanges := (span, sx, sy) :: s.exchanges }.settlePrologues)

end Sys2Proof.Machine
end

