-- ==== Sys2Proof/Machine/Launch.lean ====
section
/-! DEFINITION. Launches: the record, its checks, and what a launch starts as (R24, R81, R349, R350, R358, R367, R368, R373,
R413, R414). -/

namespace Sys2Proof.Machine

/-! ### Launches (R24, R81, R349, R350, R358, R367, R368, R373) -/

/-- A bound descriptor from its 16 bytes; none where R81 or R4 refuses it. -/
def readBound (bs : List Byte) : Option Bound :=
  let x := fieldAt bs 0 16
  let low : Word64 := BitVec.ofNat 64 (x % 2 ^ 32)
  let high : Word64 := BitVec.ofNat 64 (bitsOf x 32 32)
  let mode := match bitsOf x 72 2 with
    | 0 => some BoundMode.flag
    | 1 => some BoundMode.clamp
    | 2 => some BoundMode.trap
    | _ => none
  match Fmt.ofCode (bitsOf x 64 5), mode with
  | some f, some m =>
    let lo := boundVal f low
    let hi := boundVal f high
    let (_, w, ef) := elemsOf f
    let cross := m == .clamp &&
      (elemVal ef w (boundEdge ef w true lo)).cmp (elemVal ef w (boundEdge ef w false hi)) == .gt
    if f == .b32 || f == .e8x4 || bitsOf x 69 3 ≠ 0 || x / 2 ^ 74 ≠ 0 || lo.isNan || hi.isNan || lo.cmp hi == .gt || cross
    then none else some ⟨f, m, low, high⟩
  | _, _ => none

/-- A launch record as fields (R367). -/
structure LaunchRec where
  bytes : List Byte

/-- A field of a record. -/
def LaunchRec.at (r : LaunchRec) (off n : Nat) : Nat := fieldAt r.bytes off n

/-- Flag bit k. -/
def LaunchRec.flag (r : LaunchRec) (k : Nat) : Bool := (r.at 8 4).testBit k

/-- The widths w0 to w5. -/
def LaunchRec.widths (r : LaunchRec) : List Nat := (List.range 6).map (fun k => r.at (0x10 + k) 1)

/-- The counts N0 to N5. -/
def LaunchRec.counts (r : LaunchRec) : List Nat :=
  [r.at 0x0C 1, r.at 0x16 1, r.at 0x17 1, r.at 0x18 4, r.at 0x1C 2, r.at 0x1E 2]

/-- The collective fields (R414). -/
def LaunchRec.coll (r : LaunchRec) : CollRec :=
  { ident := r.at 0x70 4, kind := r.at 0x74 1, op := r.at 0x75 1, fmt := r.at 0x76 1, cshift := r.at 0x77 1,
    nchunk := r.at 0x78 4, csize := r.at 0x7C 4, src := r.at 0x80 8, dst := r.at 0x88 8, recAddr := r.at 0x90 8,
    arg0 := r.at 0x98 4, arg1 := r.at 0x9C 4 }

/-- Whether collective fields are well formed (R414). -/
def collOk (c : CollRec) : Bool :=
  let red := c.kind ≤ 1
  let fmtOk := if red then c.fmt == Fmt.f32.code || c.fmt == Fmt.f16.code || c.fmt == Fmt.bf16.code
      || c.fmt == Fmt.s32.code || c.fmt == Fmt.n32.code
    else c.fmt == Fmt.b32.code
  c.kind ≤ 4 && (if red then c.op ≤ 2 else c.op == 0) && fmtOk && c.cshift ≤ 63 && 1 ≤ c.nchunk && c.csize % 64 == 0
  && 64 ≤ c.csize && c.csize ≤ 16777216 && c.src % 64 == 0 && c.dst % 64 == 0 && c.recAddr % 64 == 0
  && (if c.kind = 3 then c.arg0 % 64 == 0 && 64 ≤ c.arg0 && c.arg0 ≤ 4096 && c.csize % c.arg0 == 0
      else if c.kind = 4 then c.arg1 == 0 else c.arg0 == 0 && c.arg1 == 0)

/-- Step 1 of R368 for the record itself: reserved fields, counts, alignment. -/
def LaunchRec.formOk (r : LaunchRec) : Bool :=
  let fl := r.at 8 4
  fl / 2 ^ 9 == 0 && r.at 0x0E 2 == 0 && r.at 0x3E 2 == 0 && r.at 0x54 4 == 0 && r.at 0x6C 4 == 0
  && allZero (r.bytes.drop 0xA0) && (r.at 0x21 1) / 16 == 0 && (r.at 0x3C 2) % 2 == 0
  && bitsOf (r.at 0x68 4) 10 6 == 0 && r.at 0x68 4 / 2 ^ 25 == 0
  && 1 ≤ r.at 0x0C 1 && r.at 0x0C 1 ≤ 32 && 1 ≤ r.at 0x16 1 && r.at 0x16 1 ≤ 16 && 1 ≤ r.at 0x17 1 && r.at 0x17 1 ≤ 4
  && 1 ≤ r.at 0x18 4 && 1 ≤ r.at 0x1C 2 && r.at 0x1C 2 ≤ 1024 && 1 ≤ r.at 0x1E 2 && r.at 0x1E 2 ≤ 512
  && 1 ≤ r.at 0x20 1 && r.at 0x20 1 ≤ 64 && r.at 0x22 2 ≤ 256 && r.at 0x24 4 % 1024 == 0
  && 1 ≤ r.at 0x38 4 && r.at 0x38 4 ≤ 65536 && r.at 0x40 8 % 16 == 0
  && (if r.flag 2 then r.at 0x48 8 % 8 == 0 else r.at 0x48 8 == 0)
  && (r.flag 8 || r.at 0x50 4 == 0) && (r.flag 7 || (r.at 0x1C 2 == 1 && r.at 0x1E 2 == 1))
  && (if r.flag 6 then collOk r.coll else allZero ((r.bytes.drop 0x70).take 48))

/-- Whether a header is that of a code object (R350 first two checks). -/
def headerOk (h : List Byte) : Bool :=
  let f := fun off n => fieldAt h off n
  f 0 4 == 0x4D524F50 && f 8 4 == 512 && f 4 2 == 1 && f 0x0C 4 / 4 == 0 && f 0x10 4 % 2 == 1 && f 0x41 1 / 16 == 0
  && f 0x4C 2 % 2 == 0
  && allZero ((h.drop 0x50).take 176) && allZero ((h.drop 0x1F0).take 16)

/-- Whether a header agrees with a record in the fields that R350 compares: of the bound descriptors those it declares. -/
def headerAgrees (h : List Byte) (r : LaunchRec) (bt : Nat → List Byte) : Bool :=
  let f := fun off n => fieldAt h off n
  let declared := (List.range 16).filter (fun i => (f 0x4C 2).testBit i)
  f 0x38 1 == r.at 0x16 1 && f 0x39 1 == r.at 0x17 1 && f 0x3A 6 == r.at 0x10 6 && f 0x40 1 == r.at 0x20 1
  && f 0x41 1 == r.at 0x21 1 && f 0x42 2 == r.at 0x22 2 && f 0x44 4 == r.at 0x24 4
  && (f 0x0C 4).testBit 0 == r.flag 8 && f 0x34 4 == r.at 0x50 4
  && declared.all (fun i => (r.at 0x3C 2).testBit i && (h.drop (0x100 + 16 * (i - 1))).take 16 == bt i)

/-- WID widths and counts (R24). -/
def widOk (r : LaunchRec) : Bool :=
  (r.widths.zip [5, 4, 2, 32, 10, 9]).all (fun p => p.1 ≤ p.2) && r.widths.sum ≤ 64
  && (r.counts.zip r.widths).all (fun p => p.1 ≤ 2 ^ p.2)

/-- Groups of a launch that one core may hold (R61). -/
def State.groupsPerCore (s : State) (regs : Nat) : Nat := min 16 (s.rows / regs)

/-- Step 7 of R368: the occupancy bound, local store and slots of one cluster. -/
def State.capacityOk (s : State) (r : LaunchRec) : Bool :=
  r.at 0x16 1 ≤ s.groupsPerCore (r.at 0x20 1) && r.at 0x24 4 ≤ Config.localBytes && r.at 0x22 2 ≤ 256

/-- Whether a working set lists every byte of a range with write and atomic permission (R358); `fuel` bounds the pages. -/
def State.listsCounters (s : State) (asp : Nat) (ws : List Range) : Nat → Nat → Nat → Bool
  | 0, _, n => n == 0
  | fuel + 1, va, n =>
    n == 0 || (match (s.space asp).page va with
      | none => false
      | some p =>
        let here := min n (p.va + pageBytes p.size - va)
        let by_ := fun (f : Range → Bool) => ws.any (fun r => f r && meets p.va (pageBytes p.size) r.start (r.pages * 4096))
        p.w && p.a && by_ Range.w && by_ Range.a && s.listsCounters asp ws fuel (va + here) (n - here))

/-- The cohorts of a launch that one empty cluster can hold at once (R373). -/
def State.cohortsPerCluster (s : State) (r : LaunchRec) : Nat :=
  let crews := [s.groupsPerCore (r.at 0x20 1) / r.at 0x16 1]
    ++ (if r.at 0x24 4 = 0 then [] else [Config.localBytes / r.at 0x24 4])
    ++ (if r.at 0x21 1 = 0 then [] else [1])
  let k := crews.foldl min 16
  let q := 4 * k / r.at 0x17 1
  if r.at 0x22 2 = 0 then q else min q (256 / r.at 0x22 2)

/-- The step that a launch with an energy estimate declares for the next interval (R373, R313). -/
def State.declareLaunch (s : State) (r : LaunchRec) : State :=
  let est := r.at 0x2C 4
  if est = 0 then s
  else
    let c := min (r.at 0x17 1 * r.at 0x18 4) (128 * r.at 0x17 1 * s.cohortsPerCluster r)
    let p := s.power
    { s with power := { p with decls := p.decls ++ [(p.ivCore + 1, est * c, p.ivCore, none)] } }

/-- The launch that a record which passed its checks describes. -/
def mkLaunch (r : LaunchRec) (q asp seq : Nat) (ws : List Range) (bounds : List (Nat × Bound)) (h : List Byte)
    (object : List Byte) (sx sy : Nat) : Launch :=
  { queue := q, aspace := asp, seq := seq, priority := r.at 0x0D 1, code := r.at 0 8, codeSize := fieldAt h 0x24 4, flags := r.at 8 4,
    n0 := r.at 0x0C 1, n1 := r.at 0x16 1, n2 := r.at 0x17 1, n3 := r.at 0x18 4, n4 := r.at 0x1C 2, n5 := r.at 0x1E 2,
    widths := r.widths, regs := r.at 0x20 1, benches := r.at 0x21 1, chuck := r.at 0x22 2, lbytes := r.at 0x24 4,
    quantum := r.at 0x28 4, energy := r.at 0x2C 4, wset := ws, bounds := bounds, counters := r.at 0x48 8,
    nblocks := fieldAt h 0x48 4, trapOff := if r.flag 8 then some (r.at 0x50 4) else none, spanX := sx, spanY := sy,
    coll := if r.flag 6 then some r.coll else none,
    snapshot := (List.range ((object.length + 3) / 4)).map (fun i => BitVec.ofNat 32 (fieldAt object (4 * i) 4)),
    next := 0, retiredCohorts := 0, killed := false, complete := false, fired := [] }

/-- Whether a queue's latest prologue has completed for a rectangle (R368 step 8, R371). -/
def State.prologueFor (s : State) (q : Nat) (p : SpanTable → Bool) : Bool :=
  match (s.queue q).span with
  | some i => s.spans.any (fun t => t.seq == i && t.queue == q && t.complete && p t)
  | none => false

/-- The latest completed prologue of a queue whose rectangle holds the peers of a binding (R368 step 9, R413). -/
def State.peerTable (s : State) (q : Nat) (b : Binding) : Option SpanTable :=
  s.spans.find? (fun t => t.queue == q && t.complete && t.x ≤ b.px && b.px + b.pw ≤ t.x + t.n4 && t.y ≤ b.py &&
    b.py + b.ph ≤ t.y + t.n5)

/-- Step 9 of R368: the error of a launch's collective, 0 for none (R413, R414). A broadcast whose root is no peer is error 2 here,
behind error 16 and before error 15: P is known from the binding alone (DESIGN CHOICE, log entry 135). -/
def State.collError (s : State) (q : Nat) (c : CollRec) : Nat :=
  match s.binding c.ident with
  | none => 16
  | some b =>
    if c.kind = 4 && b.size ≤ c.arg0 then 2
    else if 1 < b.size && (s.peerTable q b).isNone then 15
    else 0

/-- The prologue whose table a launch uses from its start to its end (R371, R460): the queue's latest for a span launch, for
another the one that leads to the peers of its binding. -/
def State.tableOf (s : State) (q : Nat) (r : LaunchRec) : Option Nat :=
  if r.flag 7 then (s.queue q).span
  else if r.flag 6 then ((s.binding r.coll.ident).bind (fun b => s.peerTable q b)).map SpanTable.seq
  else none

/-- Whether a binding is used by a collective that has not completed on the device (R414). -/
def State.bindingBusy (s : State) (ident : Nat) : Bool :=
  s.colls.any (fun c => c.ident == ident) ||
  s.launches.any (fun l => !l.2.complete && (match l.2.coll with
    | some c => c.ident == ident
    | none => false))

/-- The checks of a launch in the order of R368, with what a launch that passes needs: the record, the working set, the bound
descriptors, the header, the object. A list that covers the frame window is error 10, looked for with step 1 (R386; DESIGN
CHOICE, log entry 103). -/
def State.checkLaunch (s : State) (q addr : Nat) : Except Nat (LaunchRec × List Range × List (Nat × Bound) × List Byte × List Byte) :=
  let asp := (s.queue q).aspace
  let pinned := fun va n => s.pinOk q asp va n (fun _ => true)
  match s.readVirt asp addr 256 with
  | none => .error 9
  | some rb =>
    let r : LaunchRec := ⟨rb⟩
    let bs := (List.range 16).filter (fun i => (r.at 0x3C 2).testBit i)
    let bt := fun i => (s.readVirt asp (r.at 0x40 8 + 16 * (i - 1)) 16).getD []
    let hdr := (s.readVirt asp (r.at 0 8) 512).getD []
    let ws := s.readRanges asp (r.at 0x30 8) (r.at 0x38 4)
    let size := max (512 + fieldAt hdr 0x24 4) (fieldAt hdr 0x28 4 + fieldAt hdr 0x2C 4)
    if addr % 256 ≠ 0 || !r.formOk || ws = some none then .error 2
    else if coverWindow ((ws.getD none).getD []) then .error 10
    else if !(pinned addr 256 && pinned (r.at 0x30 8) (16 * r.at 0x38 4) && pinned (r.at 0 8) 512
        && bs.all (fun i => pinned (r.at 0x40 8 + 16 * (i - 1)) 16)) then .error 9
    else
      let wset := (ws.getD none).getD []
      if r.flag 2 && !s.listsCounters asp wset ((s.space asp).pages.length + 1) (r.at 0x48 8) (8 * fieldAt hdr 0x48 4)
      then .error 9
      else if headerOk hdr && r.at 0 8 % 4096 = 0 && !pinned (r.at 0 8) size then .error 9
      else if r.at 0 8 % 4096 ≠ 0 || !headerOk hdr then .error 3
      else if (List.range 128).any (fun k => (fieldAt hdr 0x10 16).testBit k && !s.features.testBit k)
          || fieldAt hdr 0x10 16 ≠ r.at 0x58 16 then .error 4
      else if !headerAgrees hdr r bt then .error 5
      else if !widOk r then .error 6
      else if bs.any (fun i => (readBound (bt i)).isNone) then .error 8
      else if !s.capacityOk r then .error 7
      else
        let x := r.at 0x68 4 % 2 ^ 10
        let y := bitsOf (r.at 0x68 4) 16 9
        if r.flag 7 && !s.prologueFor q (fun t => t.x == x && t.y == y && t.n4 == r.at 0x1C 2 && t.n5 == r.at 0x1E 2)
        then .error 15
        else
          let e := if r.flag 6 then s.collError q r.coll else 0
          if e ≠ 0 then .error e
          else .ok (r, wset, bs.filterMap (fun i => (readBound (bt i)).map (fun b => (i, b))), hdr,
                    (s.readVirt asp (r.at 0 8) size).getD [])

/-- The collective of a launch as the launch starts (R414). -/
def startColl (launch q asp : Nat) (c : CollRec) : Coll :=
  { launch := launch, ident := c.ident, queue := q, aspace := asp, rec_ := c, fired := [], missing := [], got := [],
    peerFired := [], acc := [], sending := [], filled := [], settled := [], bytes := 0, saturated := 0, landed := 0,
    overflow := 0, dropped := 0, error := 0, failed := false }

/-- A launch entered among those to be dispatched. -/
def State.addLaunch (s : State) (q seq : Nat) (r : LaunchRec) (ws : List Range) (bs : List (Nat × Bound)) (h object : List Byte) :
    State :=
  let sx := if r.flag 7 then s.coordX - r.at 0x68 4 % 2 ^ 10 else 0
  let sy := if r.flag 7 then s.coordY - bitsOf (r.at 0x68 4) 16 9 else 0
  let l := { mkLaunch r q (s.queue q).aspace seq ws bs h object sx sy with table := s.tableOf q r }
  let s := match l.coll with
    | some c => { s with colls := s.colls ++ [startColl s.nextLaunch q l.aspace c] }
    | none => s
  ({ s with launches := tset s.launches s.nextLaunch l, nextLaunch := s.nextLaunch + 1 }.addBusy q seq).declareLaunch r

/-- LAUNCH (R367, R368, R414): a launch whose binding another launch still uses waits to start. -/
def execLaunch (q : Nat) (s : State) : Host.Outcome State Fault Refusal :=
  .next (s.startCommand q 1 (fun seq e s =>
    let addr := fieldAt e 16 8
    let rb : LaunchRec := ⟨(s.readVirt (s.queue q).aspace addr 256).getD []⟩
    if rb.flag 6 && s.bindingBusy (rb.at 0x70 4) then none
    else
      match s.checkLaunch q addr with
      | .error e => some (s.teardown q e seq)
      | .ok (r, ws, bs, h, object) => some (s.addLaunch q seq r ws bs h object)))

end Sys2Proof.Machine
end

