-- ==== Sys2Proof/Machine/Collective.lean ====
section
/-! DEFINITION. Collectives: bindings, firing, reduction in arrival order, rows of an all-to-all, staging, the completion
record (R413 to R421). -/

namespace Sys2Proof.Machine

/-! ### Bindings (R413) -/

/-- A binding from its descriptor; none where a field is reserved or out of range. -/
def readBinding (bs : List Byte) (q asp : Nat) : Option Binding :=
  let f := fun off n => fieldAt bs off n
  let ok := 1 ≤ f 0 4 && allZero ((bs.drop 0x1C).take 36)
    && (f 8 2 == 0 || (f 4 2 < 1024 && f 6 2 < 512 && f 8 2 ≤ 1024 && 1 ≤ f 0x0A 2 && f 0x0A 2 ≤ 512 && f 0x0C 4 % 65536 == 0
      && 65536 ≤ f 0x0C 4 && f 0x0C 4 ≤ 4194304 && f 0x10 8 % 64 == 0 && f 0x10 8 < 2 ^ 56))
  if ok then
    some { ident := f 0 4, queue := q, px := f 4 2, py := f 6 2, pw := f 8 2, ph := f 0x0A 2, staging := f 0x0C 4,
           ovf := f 0x10 8, ovfrows := f 0x18 4, aspace := asp }
  else none

/-- The bindings with one replaced, or removed. -/
def rebind (bs : List Binding) (b : Binding) : List Binding :=
  let rest := bs.filter (fun (x : Binding) => x.ident != b.ident)
  if b.pw = 0 then rest else b :: rest

/-- The start of a bind (R413): one whose ident is in use stays incomplete until the launches that use it have completed their
collective. -/
def startBind (q : Nat) : Body := fun seq e s =>
  let asp := (s.queue q).aspace
  match s.readVirt asp (fieldAt e 16 8) 64 with
  | none => some (s.teardown q 10 seq)
  | some bs =>
    match readBinding bs q asp with
    | none => some (s.teardown q 2 seq)
    | some b =>
      let held := (s.binds.foldl (fun l x => rebind l x.2.2) s.bindings).filter (fun (x : Binding) => x.ident != b.ident)
      if b.pw ≠ 0 && (!inRect b.px b.py b.pw b.ph s.coordX s.coordY ||
        (1 < b.size && (s.peerTable q b).isNone)) then
        some (s.teardown q 15 seq)
      else if b.pw ≠ 0 && (64 ≤ held.length || 4194304 < (held.map Binding.staging).sum + b.staging) then
        some (s.teardown q 7 seq)
      else if s.bindingBusy b.ident then some ({ s with binds := s.binds ++ [(q, seq, b)] }.addBusy q seq)
      else some { s with bindings := rebind s.bindings b }

/-- The first bind of a queue that waits no longer. -/
def State.dueBind (s : State) (q : Nat) : Option (Nat × Nat × Binding) :=
  s.binds.find? (fun b => b.1 == q && !s.bindingBusy b.2.2.ident)

/-- BIND_COLLECTIVE (R413): a bind that has started takes effect once its ident is used no longer; otherwise the queue's next
command starts. -/
def execBindCollective (q : Nat) (s : State) : Host.Outcome State Fault Refusal :=
  match s.dueBind q with
  | some b => .next ({ s with binds := s.binds.filter (· != b), bindings := rebind s.bindings b.2.2 }.complete q b.2.1)
  | none => .next (s.startCommand q 8 (startBind q))

/-- The peer rank of this device (R413). -/
def State.myRank (s : State) (b : Binding) : Nat := (s.coordX - b.px) + b.pw * (s.coordY - b.py)

/-- The other peers' ranks. -/
def State.others (s : State) (b : Binding) : List Nat := (List.range b.size).filter (· != s.myRank b)

/-! ### Collectives in progress -/

def State.collOf (s : State) (launch : Nat) : Option Coll := s.colls.find? (fun (c : Coll) => c.launch == launch)

/-- The collective of an ident. -/
def State.collNamed (s : State) (ident : Nat) : Option Coll := s.colls.find? (fun (c : Coll) => c.ident == ident)

/-- The span table that leads to a peer of a binding: the one that the launch of the collective in progress uses (R371, R460),
otherwise the latest completed one of the queue. -/
def State.tableFor (s : State) (b : Binding) (peer : Nat) : Option SpanTable :=
  let c := s.collNamed b.ident
  let q := c.elim b.queue Coll.queue
  let own := (c.bind (fun c => s.launch c.launch)).bind Launch.table
  let fits := fun (t : SpanTable) =>
    t.complete && t.queue == q && inRect t.x t.y t.n4 t.n5 (b.px + peer % b.pw) (b.py + peer / b.pw)
  (s.spans.find? (fun t => fits t && some t.seq == own)).orElse (fun _ => s.spans.find? fits)

/-- Whether the first hop towards a peer carries traffic; true where no span table of the queue holds the peer. -/
def State.peerUp (s : State) (b : Binding) (peer : Nat) : Bool :=
  match s.tableFor b peer with
  | some t => (t.hop (b.px + peer % b.pw) (b.py + peer / b.pw)).any (fun p => (s.port p).up)
  | none => true

/-- Collective traffic, whose number of flits per port R409 leaves open, noted for the survey stream. -/
def State.noteTraffic (s : State) : State := s.count 48 8 1

/-- What goes to a peer of a binding (R410): over the fabric, or dropped with vector 259 and a route failure to the device itself. -/
def State.toPeer (s : State) (b : Binding) (peer : Nat) (o : Out) : State :=
  if s.peerUp b peer then s.noteTraffic.emit o
  else (s.raise 259).routeFailed (((s.tableFor b peer).map SpanTable.ident).getD 0)

/-- The same for what names its ident alone; nothing is known of the peers of an ident that is not bound. -/
def State.toPeerOf (s : State) (ident peer : Nat) (o : Out) : State :=
  match s.binding ident with
  | some b => s.toPeer b peer o
  | none => s.noteTraffic.emit o

/-- Energy that a collective engine draws for `n` bytes (R419): of which die is a free value too. -/
def State.drawEngine (s : State) (n : Nat) : State :=
  let d := Config.engineDie s.fresh % Config.dies
  (s.countDie d 4 n).drawDie d

/-- Bytes of an element (R417). -/
def CollRec.esize (c : CollRec) : Nat := if c.fmt = Fmt.f16.code || c.fmt = Fmt.bf16.code then 2 else 4

/-- Result slots, in chunks of `dst`, that are to be written on this device (R417). -/
def Coll.slots (c : Coll) (p me : Nat) : Nat :=
  match c.rec_.kind with
  | 0 => c.rec_.nchunk
  | 1 => (c.rec_.nchunk + p - 1 - me) / p
  | 2 => p * c.rec_.nchunk
  | 4 => c.rec_.nchunk
  | _ => 0

/-- The slot of `dst` at which a result of a chunk lands (R417). -/
def Coll.slot (c : Coll) (rank chunk : Nat) : Nat := if c.rec_.kind = 2 then rank * c.rec_.nchunk + chunk else chunk

/-- Whether the chunk of a rank gives a result slot on this device. -/
def Coll.lands (c : Coll) (p me rank chunk : Nat) : Bool :=
  match c.rec_.kind with
  | 0 | 2 => true
  | 1 => chunk % p == me
  | 4 => rank == c.rec_.arg0
  | _ => false

/-- A slot written whole or given up. -/
def Coll.settle (c : Coll) (slot : Nat) : Coll :=
  { c with settled := if c.settled.contains slot then c.settled else slot :: c.settled }

/-- Bytes written at a virtual address of the collective, where it is translated. -/
def State.collWrite (s : State) (asp va : Nat) (bs : List Byte) : State :=
  match s.pieces asp va bs.length with
  | some ps => s.writePieces ps bs
  | none => s

/-- Result bytes of a slot written (R417), with their saturation marks counted (R418, R421). -/
def State.landResult (s : State) (launch slot off : Nat) (bs : List Byte) (sat : List Bool) : State :=
  match s.collOf launch with
  | none => s
  | some c =>
    if c.settled.contains slot then s
    else
      let s := (s.collWrite c.aspace (c.rec_.dst + slot * c.rec_.csize + off) bs).drawEngine bs.length
      s.modColl launch (fun c =>
        let n := tget c.filled slot 0 + bs.length
        let c := { c with bytes := c.bytes + bs.length, saturated := c.saturated + (sat.filter id).length,
                          filled := tset c.filled slot n }
        if c.rec_.csize ≤ n then c.settle slot else c)

/-- The ident of an arrival. -/
def Arrival.ident : Arrival → Nat
  | .data d => d.ident
  | .row r => r.ident
  | .missing i _ _ => i

/-- The rank that an arrival comes from. -/
def Arrival.rank : Arrival → Nat
  | .data d => d.rank
  | .row r => r.rank
  | .missing _ k _ => k

/-- Something sent to a peer: kept until it is accepted (R419). -/
def State.sendColl (s : State) (launch peer : Nat) (a : Arrival) : State :=
  (s.toPeerOf a.ident peer (.coll peer a)).modColl launch (fun c => { c with sending := c.sending ++ [(peer, a, false)] })

/-! ### Reduction (R418) -/

/-- The format of a reduction. -/
def CollRec.elem (c : CollRec) : Fmt := (Fmt.ofCode c.fmt).getD .b32

/-- Whether a reduction's intermediate is an integer. -/
def CollRec.isInt (c : CollRec) : Bool := c.fmt == Fmt.s32.code || c.fmt == Fmt.n32.code

/-- The first value of an element, as it stands. -/
def firstElem (c : CollRec) (pos x : Nat) : RedElem :=
  if c.isInt then { pos := pos, count := 1, fval := 0, ival := if c.fmt = Fmt.s32.code then (BitVec.ofNat 32 x).toInt else (x : Int) }
  else { pos := pos, count := 1, fval := roundTo .f32 .rn 0 false (decodeElem c.elem x), ival := 0 }

/-- A later value combined into an element. -/
def combine (c : CollRec) (a b : RedElem) : RedElem :=
  if c.isInt then
    { a with count := a.count + 1,
             ival := match c.op with
               | 0 => a.ival + b.ival
               | 1 => min a.ival b.ival
               | _ => max a.ival b.ival }
  else
    { a with count := a.count + 1,
             fval := match c.op with
               | 0 => roundTo .f32 .rn 0 false ((decodeElem .f32 a.fval).add .rn (decodeElem .f32 b.fval))
               | 1 => minMaxCode .f32 false a.fval b.fval
               | _ => minMaxCode .f32 true a.fval b.fval }

/-- The final narrowing of an element: its code and whether it counts as saturated. -/
def narrow (c : CollRec) (a : RedElem) : Nat × Bool :=
  if c.isInt then
    let (lo, hi) := intRange c.elem
    ((clampInt a.ival lo hi % 2 ^ 32).toNat, decide (a.ival < lo) || decide (hi < a.ival))
  else
    let v := decodeElem .f32 a.fval
    let x := roundTo c.elem .rn 0 true v
    let f := c.elem
    let g := greatestCode f
    let beyond := match v with
      | .inf _ => true
      | .real _ m e st => (Val.real false m e st).cmp (decodeElem f g) == .gt
      | .nan => false
    (x, beyond)

/-- One element taken into the intermediate values: the values, and the element where it is final. -/
def reduceElem (c : CollRec) (p pos x : Nat) (acc : List RedElem) : List RedElem × Option RedElem :=
  let b := firstElem c pos x
  let e := match acc.find? (fun (a : RedElem) => a.pos == pos) with
    | some a => combine c a b
    | none => b
  let rest := acc.filter (fun (a : RedElem) => a.pos != pos)
  if p ≤ e.count then (rest, some e) else (e :: rest, none)

/-- Adjacent finished elements joined: offset, bytes, marks. -/
def joinRuns : List (Nat × List Byte × Bool) → List (Nat × List Byte × List Bool)
  | [] => []
  | (o, bs, m) :: r =>
    match joinRuns r with
    | (o', bs', ms) :: r' => if o + bs.length = o' then (o, bs ++ bs', m :: ms) :: r' else (o, bs, [m]) :: (o', bs', ms) :: r'
    | [] => [(o, bs, [m])]

/-- A final result that the owner of a chunk writes, and for an all-reduce sends to every peer. -/
def State.ownerResult (s : State) (launch : Nat) (b : Binding) (r : CollRec) (chunk off : Nat) (bs : List Byte)
    (sat : List Bool) : State :=
  let s := s.landResult launch chunk off bs sat
  if r.kind = 0 then
    (s.others b).foldl (fun s p => s.sendColl launch p (.data
      { ident := r.ident, rank := s.myRank b, chunk := chunk, offset := off, result := true, sat := sat, agree := true,
        poisoned := false, data := bs })) s
  else s

/-- A contribution combined at the owner of its chunk, element by element (R418). -/
def State.reduce (s : State) (launch : Nat) (b : Binding) (chunk off : Nat) (bs : List Byte) : State :=
  match s.collOf launch with
  | none => s
  | some c =>
    let r := c.rec_
    let es := r.esize
    let step := fun (st : List RedElem × List (Nat × List Byte × Bool)) (i : Nat) =>
      let (acc, fin) := reduceElem r b.size (chunk * r.csize + off + i * es) (fieldAt bs (i * es) es) st.1
      match fin with
      | some e => let (x, m) := narrow r e; (acc, st.2 ++ [(off + i * es, leBytes x es, m)])
      | none => (acc, st.2)
    let (acc, fins) := (List.range (bs.length / es)).foldl step (c.acc, [])
    let s := (s.modColl launch (fun c => { c with acc := acc })).drawEngine bs.length
    (joinRuns fins).foldl (fun s x => s.ownerResult launch b r chunk x.1 x.2.1 x.2.2) s

/-- A chunk of a reduction given up at its owner: for an all-reduce, peers are told with data marked as unusable. -/
def State.giveUp (s : State) (launch : Nat) (b : Binding) (rank chunk err : Nat) : State :=
  match s.collOf launch with
  | none => s
  | some c =>
    let s := s.modColl launch (fun c =>
      let c := c.err err
      if c.lands b.size (s.myRank b) rank chunk then c.settle (c.slot rank chunk)
      else { c with peerFired := (rank, chunk) :: c.peerFired.filter (· != (rank, chunk)) })
    if c.rec_.kind = 0 && chunk % b.size = s.myRank b && !c.settled.contains chunk && err ≠ 4 then
      (s.others b).foldl (fun s p => s.sendColl launch p (.data
        { ident := c.ident, rank := s.myRank b, chunk := chunk, offset := 0, result := true, sat := [], agree := err != 2,
          poisoned := err == 5, data := [] })) s
    else s

/-! ### Rows of an all-to-all (R420) -/

/-- The destination of a row; none for no row. -/
def rowDest (bs : List Byte) (p : Nat) : Option Nat := if fieldAt bs 0 4 < p then some (fieldAt bs 0 4) else none

/-- A row with its tag's low half replaced by the source rank. -/
def retag (bs : List Byte) (rank : Nat) : List Byte := leBytes rank 4 ++ bs.drop 4

/-- A row of this device that found no free row: its overflow region, or dropped. -/
def State.overflowRow (s : State) (launch : Nat) (b : Binding) (bs : List Byte) : State :=
  match s.collOf launch with
  | none => s
  | some c =>
    if c.overflow < b.ovfrows then
      (s.collWrite b.aspace (b.ovf + c.overflow * c.rec_.arg0) (retag bs (s.myRank b))).modColl launch
        (fun c => { c with overflow := c.overflow + 1 })
    else s.modColl launch (fun c => { c with dropped := c.dropped + 1 })

/-- A row granted the lowest free result row; none when there is none. -/
def State.landRow (s : State) (launch rank : Nat) (bs : List Byte) : Option State :=
  match s.collOf launch with
  | none => none
  | some c =>
    if c.landed < c.rec_.arg1 then
      some (((s.collWrite c.aspace (c.rec_.dst + c.landed * c.rec_.arg0) (retag bs rank)).modColl launch
        (fun c => { c with landed := c.landed + 1, bytes := c.bytes + c.rec_.arg0 })).drawEngine bs.length)
    else none

/-- The rows of a fired chunk. -/
def rowsOf (bs : List Byte) (size : Nat) : List (List Byte) :=
  (List.range (bs.length / size)).map (fun i => (bs.drop (i * size)).take size)

/-- Something of the device's own put into staging, so that it is taken up in its turn with what peers send (R418, R420). -/
def State.stageOwn (s : State) (launch : Nat) (a : Arrival) : State :=
  { s with staged := s.staged ++ [⟨s.cycle, some launch, a, []⟩] }

/-- One row of a fired chunk on its way, to a peer or to this device. -/
def State.fireRow (s : State) (launch : Nat) (b : Binding) (chunk : Nat) (bs : List Byte) : State :=
  match rowDest bs b.size with
  | none => s
  | some d =>
    let r := Arrival.row ⟨(s.collOf launch).elim 0 Coll.ident, s.myRank b, chunk, bs⟩
    if d = s.myRank b then s.stageOwn launch r else s.sendColl launch d r

/-! ### Arrivals (R418 to R420) -/

/-- Whether an arrival can be used: a collective of its ident runs, which has not had it, and, for a contribution to a
reduction, the device's own chunk has fired. A row that comes behind its chunk's end is one that was refused before. -/
def State.usable (s : State) : Arrival → Bool
  | .data d => match s.collNamed d.ident, s.binding d.ident with
    | some c, some _ => !c.got.contains (d.rank, d.chunk, d.offset) &&
        (d.result || 2 ≤ c.rec_.kind || c.fired.contains d.chunk || c.missing.contains d.chunk)
    | _, _ => false
  | .row r => match s.collNamed r.ident, s.binding r.ident with
    | some c, some _ => !c.peerFired.contains (r.rank, r.chunk) || s.refusedColl.contains r
    | _, _ => false
  | .missing i _ _ => (s.collNamed i).isSome && (s.binding i).isSome

/-- A chunk that a peer has announced as missing: error 4, and nothing that depends on it is written (R416). -/
def State.chunkMissing (s : State) (ident rank chunk : Nat) : State :=
  match s.collNamed ident, s.binding ident with
  | some c, some b =>
    let s := s.modColl c.launch (fun c =>
      { (c.err 4) with peerFired := (rank, chunk) :: c.peerFired.filter (· != (rank, chunk)) })
    if c.lands b.size (s.myRank b) rank chunk then s.giveUp c.launch b rank chunk 4 else s
  | _, _ => s

/-- A row taken up: granted a result row, or sent back to its sender, which is the device itself for a row of its own (R420). -/
def State.useRow (s : State) (own : Bool) (r : Row) : State :=
  match s.collNamed r.ident, s.binding r.ident with
  | some c, some b =>
    let s := { s with refusedColl := s.refusedColl.erase r }
    match s.landRow c.launch r.rank r.data with
    | some s => s
    | none => if own then s.overflowRow c.launch b r.data else s.toPeerOf r.ident r.rank (.rowBack r)
  | _, _ => s

/-- What waits in staging used. Data that disagrees, or that met an uncorrectable error, gives its slot up; a row that met one is
lost (R421, R434). -/
def State.useArrival (s : State) (x : Staged) : State :=
  match x.item with
  | .data d => match s.collNamed d.ident, s.binding d.ident with
    | some c, some b =>
      let l := c.launch
      let s := s.modColl l (fun c => { c with got := (d.rank, d.chunk, d.offset) :: c.got })
      if !d.agree then s.giveUp l b d.rank d.chunk 2
      else if d.poisoned || !x.poison.isEmpty then s.giveUp l b d.rank d.chunk 5
      else if d.result then
        let s := if d.data.isEmpty then s else s.landResult l (c.slot d.rank d.chunk) d.offset d.data d.sat
        s.modColl l (fun c => { c with peerFired := (d.rank, d.chunk) :: c.peerFired.filter (· != (d.rank, d.chunk)) })
      else if c.settled.contains d.chunk then s
      else s.reduce l b d.chunk d.offset d.data
    | _, _ => s
  | .row r =>
    if x.poison.isEmpty then s.useRow x.own.isSome r
    else { s with refusedColl := s.refusedColl.erase r,
                  colls := s.colls.map (fun (c : Coll) => if c.ident == r.ident then c.err 5 else c) }
  | .missing i k c => s.chunkMissing i k c

/-- Whether something in staging comes before another: the cycle of its arrival, then the rank of its sender (R418, R420). -/
def Staged.before (a b : Staged) : Bool := a.cycle < b.cycle || (a.cycle == b.cycle && a.item.rank < b.item.rank)

/-- Something put in its place in a list in that order, behind its equals. -/
def insertStaged (x : Staged) : List Staged → List Staged
  | [] => [x]
  | y :: r => if x.before y then x :: y :: r else y :: insertStaged x r

/-- One thing from staging: used when it can be, dropped when it is the device's own of a collective that is gone, otherwise kept. -/
def State.settleOne (s : State) (x : Staged) : State :=
  if x.own.any (fun l => (s.collOf l).isNone) then s
  else if s.usable x.item then s.useArrival x
  else { s with staged := s.staged ++ [x] }

/-- What came into staging in earlier cycles and can be used, used in its order: all that a cycle brings is there once the cycle
is over (R418, R420). -/
def State.settleStaged (s : State) : State :=
  if s.staged.isEmpty then s
  else
    let due := (s.staged.filter (fun x => x.cycle < s.cycle)).foldl (fun l x => insertStaged x l) []
    due.foldl (fun s x => s.settleOne x) { s with staged := s.staged.filter (fun x => !(x.cycle < s.cycle)) }

/-- Bytes of an arrival. -/
def Arrival.bytes : Arrival → Nat
  | .data d => d.data.length
  | .row r => r.data.length
  | .missing _ _ _ => 0

/-- An uncorrectable error in collective staging: an 8-byte unit of what waits there is poisoned (R433). -/
def State.poisonStaged (s : State) (ix unit : Nat) : State :=
  match s.staged[ix]? with
  | none => s
  | some x =>
    if 8 * unit < x.item.bytes && !x.poison.contains unit then
      { s with staged := lset s.staged ix { x with poison := x.poison ++ [unit] } }
    else s

/-- Staging bytes that arrivals of an ident may take on the eight dies: its binding's quota, or for an ident that is not
bound what no binding has reserved (R413, R419). -/
def State.quota (s : State) (ident : Nat) : Nat :=
  Config.dies * (match s.binding ident with
    | some b => b.staging
    | none => 4194304 - (s.bindings.map Binding.staging).sum)

/-- Staging bytes that arrivals of an ident take: what can be used waits for the end of its cycle only. -/
def State.quotaUsed (s : State) (ident : Nat) : Nat :=
  ((s.staged.filter (fun x => x.item.ident == ident && x.own.isNone && !s.usable x.item)).map (fun x => x.item.bytes)).sum

/-- A refusal sent, and counted on the engine's die (R419, R450). -/
def State.refuseColl (s : State) (ident rank chunk : Nat) : State :=
  (s.countDie (Config.engineDie s.fresh % Config.dies) 5 1).toPeerOf ident rank (.collRefused ident rank chunk)

/-- An arrival: it goes into staging, or is refused while its quota is full (R419). -/
def State.arrive (s : State) (a : Arrival) : State :=
  let s := s.noteTraffic
  if s.usable a || s.quotaUsed a.ident + a.bytes ≤ s.quota a.ident then
    { s with staged := s.staged ++ [⟨s.cycle, none, a, []⟩] }
  else match a with
    | .data d => s.refuseColl d.ident d.rank d.chunk
    | .row r =>
      { s with refusedColl := if s.refusedColl.contains r then s.refusedColl else s.refusedColl ++ [r] }.refuseColl r.ident r.rank r.chunk
    | .missing _ _ _ => s

/-- COLLECTIVE_DATA_RECEIVE (R417 to R419). -/
def execCollectiveDataReceive (c : Contribution) (s : State) : Host.Outcome State Fault Refusal := .next (s.arrive (.data c))

/-- ALLTOALL_ROW_RECEIVE (R420). -/
def execAlltoallRowReceive (r : Row) (s : State) : Host.Outcome State Fault Refusal := .next (s.arrive (.row r))

/-- CHUNK_MISSING_RECEIVE (R416): where no collective of the ident runs yet, the announcement waits for it. -/
def execChunkMissingReceive (ident rank chunk : Nat) (s : State) : Host.Outcome State Fault Refusal :=
  .next (if s.usable (.missing ident rank chunk) then s.chunkMissing ident rank chunk
    else { s with staged := s.staged ++ [⟨s.cycle, none, .missing ident rank chunk, []⟩] })

/-- The chunk that a thing sent belongs to. -/
def Arrival.chunk : Arrival → Nat
  | .data d => d.chunk
  | .row r => r.chunk
  | .missing _ _ c => c

/-- The oldest thing sent to a peer for a chunk that the peer has not answered: answers come in the order of sending (R410). -/
def Coll.unanswered (c : Coll) (peer chunk : Nat) : Option (Nat × Arrival × Bool) :=
  c.sending.find? (fun x => x.1 == peer && x.2.1.chunk == chunk && !x.2.2)

/-- COLLECTIVE_REFUSAL (R419): a peer refused what was sent: it is held and sent again, behind what is on its way. -/
def execCollectiveRefusal (ident rank chunk : Nat) (s : State) : Host.Outcome State Fault Refusal :=
  match s.collNamed ident with
  | none => .next s
  | some c =>
    match c.unanswered rank chunk with
    | none => .next s
    | some x =>
      .next ((s.modColl c.launch (fun c => { c with sending := c.sending.erase x ++ [x] })).toPeerOf ident x.1 (.coll x.1 x.2.1))

/-- A peer accepted the oldest thing sent to it for a chunk (R419); a row of which nothing more is known stays (R420, R421). -/
def State.collAccepted (s : State) (ident peer chunk : Nat) : State :=
  match s.collNamed ident with
  | none => s
  | some c =>
    match c.unanswered peer chunk with
    | none => s
    | some x => s.modColl c.launch (fun c => { c with sending := match x.2.1 with
        | .row _ => c.sending.erase x ++ [(x.1, x.2.1, true)]
        | _ => c.sending.erase x })

/-- A row that a peer has accepted has landed there (R421). -/
def State.rowLanded (s : State) (ident peer chunk : Nat) : State :=
  match s.collNamed ident with
  | none => s
  | some c =>
    match c.sending.find? (fun x => x.1 == peer && x.2.1.chunk == chunk && x.2.2) with
    | none => s
    | some x => s.modColl c.launch (fun c => { c with sending := c.sending.erase x })

/-- ROW_RETURN (R420): a row of this device that found no free row at its destination. -/
def execRowReturn (r : Row) (s : State) : Host.Outcome State Fault Refusal :=
  match s.collNamed r.ident, s.binding r.ident with
  | some c, some b =>
    match c.sending.find? (fun x => x.2.1 == Arrival.row r) with
    | none => .next s
    | some x => .next ((s.modColl c.launch (fun c => { c with sending := c.sending.erase x })).overflowRow c.launch b r.data)
  | _, _ => .next s

/-! ### Firing (R416) -/

/-- The first range of a collective that its launch may not use, by its start: source, record, results (R414). -/
def State.collFault (s : State) (l : Launch) (c : CollRec) (b : Binding) : Option Nat :=
  let fuel := (s.space l.aspace).pages.length + 1
  let ok := fun va n need => match s.probeRange l need fuel va n with
    | .outside _ => false
    | _ => true
  let me := s.myRank b
  let dst := match c.kind with
    | 0 | 4 => [(0, c.nchunk * c.csize)]
    | 1 => (List.range ((c.nchunk + b.size - 1 - me) / b.size)).map (fun i => ((me + i * b.size) * c.csize, c.csize))
    | 2 => [(0, b.size * c.nchunk * c.csize)]
    | _ => [(0, c.arg1 * c.arg0)]
  let shared := fun (d : Nat × Nat) => (s.pieces l.aspace (c.dst + d.1) d.2).isSome &&
    (s.space l.aspace).pages.all (fun (p : PageMap) =>
      !meets p.va (pageBytes p.size) (c.dst + d.1) d.2 || (p.w && p.scope == 1))
  if !ok c.src (c.nchunk * c.csize) .read then some c.src
  else if !ok c.recAddr 64 .write then some c.recAddr
  else (dst.find? (fun d => !shared d)).map (fun d => c.dst + d.1)

/-- The end of a launch whose collective may not use its ranges (R93, R414, R440). -/
def State.collTeardown (s : State) (l : Launch) (wid va : Nat) : State :=
  (s.log { kind := 5, aspace := l.aspace, addr := va, queue := l.queue, seq := l.seq, wid := wid }).teardown l.queue 12 l.seq

/-- The data of a fired chunk sent on its way (R417, R420). -/
def State.fireData (s : State) (l : Nat) (b : Binding) (r : CollRec) (chunk : Nat) (bs : List Byte) : State :=
  let me := s.myRank b
  let item := fun result data => Arrival.data
    { ident := r.ident, rank := me, chunk := chunk, offset := 0, result := result, sat := [], agree := true, poisoned := false,
      data := data }
  let toAll := fun (s : State) a => (s.others b).foldl (fun s p => s.sendColl l p a) s
  match r.kind with
  | 0 | 1 =>
    if chunk % b.size = me then s.stageOwn l (item false bs)
    else s.sendColl l (chunk % b.size) (item false bs)
  | 2 => toAll (s.landResult l (me * r.nchunk + chunk) 0 bs []) (item true bs)
  | 4 => if me = r.arg0 then toAll (s.landResult l chunk 0 bs []) (item true bs) else toAll s (item true [])
  | _ => toAll ((rowsOf bs r.arg0).foldl (fun s x => s.fireRow l b chunk x) s) (item true [])

/-- A chunk whose source met an uncorrectable error: error 5, the sectors are logged and their frames retired, and the peers are
told (R421, R434, R441). -/
def State.firePoisoned (s : State) (l : Nat) (b : Binding) (r : CollRec) (chunk : Nat) (bad : List Nat) : State :=
  let me := s.myRank b
  let s := (bad.foldl (fun s x => s.uncorrect x) s).modColl l (fun c => c.err 5)
  let item := Arrival.data
    { ident := r.ident, rank := me, chunk := chunk, offset := 0, result := 2 ≤ r.kind, sat := [], agree := true, poisoned := true,
      data := [] }
  let s := if 1 < r.kind || chunk % b.size = me then s.giveUp l b me chunk 5 else s
  if r.kind ≤ 1 then (if chunk % b.size = me then s else s.sendColl l (chunk % b.size) item)
  else (s.others b).foldl (fun s p => s.sendColl l p item) s

/-- The chunk that a retiring crew fires (R416): `wid` is that of lane 0 of group 0. -/
def State.fireChunk (s : State) (l : Nat) (wid : Nat) : State :=
  match s.launch l, s.collOf l with
  | some la, some c =>
    let r := c.rec_
    let chunk := wid / 2 ^ r.cshift % r.nchunk
    match s.binding r.ident with
    | none => s
    | some b =>
      if la.killed then s
      else if c.fired.contains chunk then s.modColl l (fun c => c.err 3)
      else if c.fired.isEmpty && (s.collFault la r b).isSome then s.collTeardown la wid ((s.collFault la r b).getD 0)
      else
        let va := r.src + chunk * r.csize
        let ps := (s.pieces la.aspace va r.csize).getD []
        let bs := padTo ((ps.map (fun p => s.readMem p.1 p.2)).flatten) r.csize
        let s := (s.modColl l (fun c => { c with fired := chunk :: c.fired })).drawEngine r.csize
        let carries := r.kind != 4 || s.myRank b == r.arg0
        let bad := s.poison.filter (fun x => ps.any (fun p => meets p.1 p.2 (x * 32) 32))
        if carries && !bad.isEmpty then s.firePoisoned l b r chunk bad else s.fireData l b r chunk bs
  | _, _ => s

/-- The chunks that a retired launch has not fired, announced as missing to every peer (R416). -/
def State.announceMissing (s : State) (l : Nat) : State :=
  match s.collOf l with
  | none => s
  | some c =>
    let gone := (List.range c.rec_.nchunk).filter (fun k => !c.fired.contains k)
    match s.binding c.ident with
    | none => s
    | some b =>
      gone.foldl (fun s k =>
        let s := s.modColl l (fun c => { c with missing := k :: c.missing })
        let s := (s.others b).foldl (fun s p => s.toPeer b p (.collMissing p c.ident k)) s
        s.chunkMissing c.ident (s.myRank b) k) s

/-! ### Completion (R421) -/

/-- Whether a collective is over on the device. An all-to-all also waits for every row: none that can be used is in staging, none
is refused and held by its sender. -/
def State.collOver (s : State) (c : Coll) (b : Binding) : Bool :=
  let me := s.myRank b
  c.failed ||
  (c.fired.length + c.missing.length == c.rec_.nchunk && c.sending.isEmpty && c.settled.length == c.slots b.size me &&
    (c.rec_.kind != 3 ||
      ((c.peerFired.filter (fun x => x.1 != me && x.1 < b.size)).length == (b.size - 1) * c.rec_.nchunk &&
        !s.staged.any (fun x => x.item.ident == c.ident && s.usable x.item) && !s.refusedColl.any (fun r => r.ident == c.ident))))

/-- The 64 bytes of a completion record behind its status. -/
def completionBytes (c : Coll) (time : Nat) : List Byte :=
  leBytes c.error 4 ++ zeros 4 ++ leBytes (c.bytes / c.rec_.esize) 8 ++ leBytes c.saturated 8 ++ leBytes c.landed 4
    ++ leBytes c.overflow 4 ++ leBytes c.dropped 4 ++ zeros 4 ++ leBytes time 8 ++ zeros 8

/-- COLLECTIVE_COMPLETE (R421): every other field first, then the status. -/
def execCollectiveComplete (ident : Nat) (s : State) : Host.Outcome State Fault Refusal :=
  let s := s.settleStaged
  match s.collNamed ident, s.binding ident with
  | some c, some b =>
    whenEnabled (s.collOver c b) (fun s =>
      let s := s.collWrite c.aspace (c.rec_.recAddr + 8) (completionBytes c s.time)
      let s := s.collWrite c.aspace c.rec_.recAddr (leBytes (if c.error = 0 then 1 else 2) 8)
      { s with colls := s.colls.filter (fun (x : Coll) => x.launch != c.launch) }) s
  | _, _ => .next s

end Sys2Proof.Machine
end

