-- ==== Sys2Proof/Machine/Lifecycle.lean ====
section
/-! DEFINITION. The life of cohorts, crews and groups: admission and placement, relaunch, retirement (R23 to R35, R42, R61,
R96, R99, R103, R309, R314, R372, R373, R394, R437). -/

namespace Sys2Proof.Machine

/-! ### Room on a core and in a cluster (R61, R372) -/

/-- The crews of a core that hold local store: neither retired nor killed. -/
def State.crewsOn (s : State) (core : Nat) : List Crew :=
  (s.crews.map Prod.snd).filter (fun (c : Crew) => c.core == core && !c.retired && !c.killed)

/-- The local store that is held on a core, as (base, bytes). -/
def State.localHeld (s : State) (core : Nat) : List (Nat × Nat) :=
  (s.crewsOn core).map (fun c => (c.base, (s.launch c.launch).elim 0 Launch.lbytes))

/-- The place of an allocation of a size in a core's local store, which R96 leaves open: the lowest free one (DESIGN CHOICE, log entry
130). -/
def fitLocal (held : List (Nat × Nat)) (n : Nat) : Option Nat :=
  ((List.range 385).map (fun k => 1024 * k)).find? (fun a =>
    a + n ≤ Config.localBytes && held.all (fun h => !meets a n h.1 h.2))

/-- Frame indices of a core that nothing holds: no group, and no park record still unanswered (R309, R381). -/
def State.freeFrames (s : State) (core : Nat) : List Nat :=
  (List.range 32).filter (fun f => (s.group core f).isNone &&
    !s.queues.any (fun q => q.2.unanswered.any (fun u => u.2.1 == core && u.2.2.1 == f)
      || q.2.backlog.any (fun u => u.1 == core && u.2.1 == f)))

/-- Benches that launches with groups on a core name (R372; log entry 31). -/
def State.benchesNamed (s : State) (core : Nat) : Nat :=
  ((s.groupsOn core).filter (fun p => match p.2.place with
    | .shadow _ => false
    | _ => true)).foldl (fun m p => m ||| (s.launchOf p.2).elim 0 Launch.benches) 0

/-- The place of a crew's local store on a core, where the core has room for the crew (R372). -/
def State.coreFits (s : State) (core : Nat) (l : Launch) : Option Nat :=
  let held := s.activeOn core
  if l.n1 ≤ (freeSlots held).length && rowsHeld held + l.n1 * l.regs ≤ s.rows && l.benches &&& s.benchesNamed core == 0
    && l.n1 ≤ (s.freeFrames core).length && !s.swapping core
  then fitLocal (s.localHeld core) l.lbytes else none

/-- Whether engine operations of killed crews still run in a cluster (R394). -/
def State.draining (s : State) (cl : Nat) : Bool :=
  let k := s.cluster cl
  k.copies.any (fun o => (s.crew o.crew).any Crew.killed) ||
  (match k.pass with
    | some p => p.reqs.any (fun r => r.killed.isSome)
    | none => false)

/-- The cores of a cluster that take a cohort's crews, with the places of their local store (R28, R372). Which cores that have
room take them is left open: the lowest ones do, in the order of the ranks (DESIGN CHOICE, log entry 104). -/
def State.coresFor (s : State) (cl : Nat) (l : Launch) (n : Nat) : Option (List (Nat × Nat)) :=
  let cs := ((List.range 4).map (fun k => 4 * cl + k)).filterMap (fun c => (s.coreFits c l).map (fun b => (c, b)))
  if n ≤ cs.length && l.chuck ≤ 256 - (s.cluster cl).granted.length && !s.draining cl then some (cs.take n) else none

/-- The energy rule of admission of a cohort, named by launch and F3: one that it refused on a die is not tried there again in
the same interval (R373). -/
def State.forecastOk (s : State) (cl : Nat) (key : Nat × Nat) (l : Launch) (n : Nat) : Bool :=
  let d := cl / 16
  l.energy == 0 || (!(s.die d).refused.contains key && ((s.die d).forecast + n * l.energy ≤ s.power.dcap ||
    !s.crews.any (fun p => dieOf p.2.core == d && !p.2.retired && !p.2.killed)))

/-- Whether a cluster can take n crews of a cohort. -/
def State.admits (s : State) (key : Nat × Nat) (l : Launch) (n cl : Nat) : Bool :=
  (s.coresFor cl l n).isSome && s.forecastOk cl key l n

/-- The refusals of a cohort by the energy rule alone, noted (R373). -/
def State.refuse (s : State) (key : Nat × Nat) (l : Launch) (n : Nat) : State :=
  if l.energy = 0 then s
  else (List.range Config.clusters).foldl (fun s cl =>
    if (s.coresFor cl l n).isSome && !s.forecastOk cl key l n && !(s.die (cl / 16)).refused.contains key then
      s.modDie (cl / 16) (fun d => { d with refused := d.refused ++ [key] })
    else s) s

/-- The cluster chosen: of those in the order in which the dispatcher reaches them the one of greatest allowance (R31). -/
def State.bestCluster (s : State) (cls : List Nat) : Option Nat :=
  cls.foldl (fun (b : Option Nat) c => match b with
    | some x => if s.allow x < s.allow c then some c else some x
    | none => some c) none

/-- The clusters in the order in which the dispatcher reaches them. -/
def clusterOrder (pick : Nat) : List Nat := (List.range Config.clusters).map (fun k => (pick + k) % Config.clusters)

/-! ### The order of launches (R372) -/

/-- Effective priority: the lesser of the record's and the queue's. -/
def State.launchPrio (s : State) (l : Launch) : Nat := min l.priority (s.queue l.queue).priority

/-- Whether launch a comes before launch b: priority, queues in rotation, the earlier launch. -/
def State.launchBefore (s : State) (a b : Nat × Launch) : Bool :=
  let turn := fun (l : Launch) => (l.queue + 128 - s.rotate % 128) % 128
  let pa := s.launchPrio a.2
  let pb := s.launchPrio b.2
  pb < pa || (pa == pb && (turn a.2 < turn b.2 || (turn a.2 == turn b.2 && a.1 < b.1)))

/-- The first launch of a list in the order of R372. -/
def State.firstLaunch (s : State) (ls : List (Nat × Launch)) : Option (Nat × Launch) :=
  ls.foldl (fun (b : Option (Nat × Launch)) l => match b with
    | some x => if s.launchBefore l x then some l else some x
    | none => some l) none

/-- The cohort of a launch that waits for its relaunch. -/
def State.relaunchOf (s : State) (ln : Nat) : Option (Nat × Cohort) :=
  s.cohorts.find? (fun p => p.2.launch == ln && p.2.relaunch.isSome)

/-! ### Placement (R10, R23, R29, R42, R55, R99) -/

/-- The context in which a group starts: `pc` at the kernel's first instruction, lanes 0 to N0 − 1 live. -/
def freshCtx (l : Launch) (wid : Nat) : Ctx :=
  let live := maskOf (fun k => k < l.n0)
  { need := l.regs, live := live, regs := List.replicate l.regs .init, masks := List.replicate 7 0,
    slices := (List.range 8).map (fun i =>
      { pc := l.code + 512, cur := sliceBits live i, stack := [], hints := .none, gang := 0, fin := sliceBits live i == 0,
        arrCrew := false, arrCoh := false, wait := .run, since := 0, xir := none, quarters := 0, window := 0 }),
    round := 0, seed := BitVec.ofNat 32 wid ||| 1, bflag := 0, quantum := BitVec.ofNat 32 l.quantum, batch := 0, txstat := 0,
    noahead := false }

/-- A group that starts in a slot. -/
def freshGroup (l : Launch) (crew f1 rank f3 slot : Nat) : Group :=
  let wid := l.wid f1 rank f3
  { crew := crew, f1 := f1, wid := BitVec.ofNat 64 wid, ctx := freshCtx l wid, lastGang := 8, status := .ready, wait := .none,
    place := .active slot, ld := 0, st := 0, cp := 0, tl := 0, openOps := [], batches := [], fuse := none, yield := 0,
    tx := none, lastStamp := none, wake := .none, handler := none, inHandler := false, ops := [], replay := [], pages := [],
    due := none, poisoned := none, park := none, tokenWait := 0, sinceOffer := 0, waitStart := 0, cache := [], specs := [],
    ahead := none, held := [], relock := none, benchCtx := [] }

/-- A crew placed on a core with its groups (R29, R32, R99). Its tags read 0, its region dirty bits are clear, its local store
is fresh: zero (DESIGN CHOICE, log entry 65). Which free slots and frame indices the groups get is left open: the lowest ones, in
the order of F1 (DESIGN CHOICE, log entry 105). -/
def State.placeCrew (s : State) (ln : Nat) (l : Launch) (f3 rank relaunches core base : Nat) : State :=
  let n := s.nextCrew
  let frames := (s.freeFrames core).take l.n1
  let slots := (freeSlots (s.activeOn core)).take l.n1
  let c : Crew :=
    { launch := ln, f3 := f3, rank := rank, core := core, frames := frames, base := base, regions := [], phaseCrew := 0,
      phaseCoh := 0, relaunchable := l.flags.testBit 0, relaunches := relaunches, buffer := [], bufPoison := [], bufGen := none, age := n,
      prio := s.launchPrio l, killed := false, retired := false, fault := none }
  let s := { s.setCrew n c with nextCrew := n + 1 }
  let own := fun k => base / 1024 ≤ k && k < (base + l.lbytes) / 1024
  let s := s.modCore core (fun k => { k with tags := k.tags.filter (fun t => !own t.1), tpoison := k.tpoison.filter (fun t => !own t),
                                             rdirty := k.rdirty.filter (fun t => !own t),
                                             lmem := k.lmem.filter (fun x => !own (x.1 / 1024)),
                                             lpoison := k.lpoison.filter (fun w => !own (w / 256)) })
  ((frames.zip slots).zipIdx).foldl (fun s p => s.setGroup core p.1.1 (freshGroup l n p.2 rank f3 p.1.2)) s

/-- Crews of given ranks placed on cores of a cluster; the answer names them by rank. -/
def State.placeAll (s : State) (ln : Nat) (l : Launch) (f3 : Nat) (rs : List (Nat × Nat)) (cs : List (Nat × Nat)) :
    State × List (Nat × Nat) :=
  (rs.zip cs).foldl (fun (a : State × List (Nat × Nat)) p =>
    (a.1.placeCrew ln l f3 p.1.1 p.1.2 p.2.1 p.2.2, a.2 ++ [(p.1.1, a.1.nextCrew)])) (s, [])

/-- Chuck slots of a cluster granted to a cohort, with their contents gone (R55). -/
def State.grantSlots (s : State) (cl n : Nat) : State × List Nat :=
  let k := s.cluster cl
  let mine := ((List.range 256).filter (fun x => !k.granted.contains x)).take n
  let chuck := mine.foldl (fun (t : Tbl Chuck) x => Sys2Proof.Machine.tset t x .init) k.chuck
  (s.setCluster cl { k with granted := k.granted ++ mine, chuck := chuck }, mine)

/-- A cohort's crews admitted on a cluster (R29, R373). -/
def State.enrolCrews (s : State) (ln : Nat) (l : Launch) (f3 cl : Nat) (rs : List (Nat × Nat)) (k : Nat) : State :=
  match s.coresFor cl l rs.length with
  | none => s
  | some cs =>
    let (s, crews) := s.placeAll ln l f3 rs cs
    let (s, slots) := s.grantSlots cl l.chuck
    let s := s.modDie (cl / 16) (fun d => { d with forecast := d.forecast + rs.length * l.energy })
    { s with cohorts := tset s.cohorts k { launch := ln, f3 := f3, cluster := cl, crews := crews, slots := slots, relaunch := none,
                                           done := false },
             rotate := (l.queue + 1) % 128 }

/-- The launches that have a cohort to be dispatched on some cluster. -/
def State.dispatchable (s : State) : List (Nat × Launch) :=
  s.launches.filter (fun p => !p.2.killed && !p.2.complete && p.2.next < p.2.n3 && (s.relaunchOf p.1).isNone &&
    (List.range Config.clusters).any (s.admits (p.1, p.2.next) p.2 p.2.n2))

/-- The cohorts that wait for their first dispatch, and those that wait for their relaunch, as the energy rule sees them. -/
def State.noteRefusals (s : State) : State :=
  s.launches.foldl (fun s p =>
    if p.2.killed || p.2.complete then s
    else
      match s.relaunchOf p.1 with
      | some (_, c) => s.refuse (p.1, c.f3) p.2 (c.relaunch.getD ([], 0)).1.length
      | none => if p.2.next < p.2.n3 then s.refuse (p.1, p.2.next) p.2 p.2.n2 else s) s

/-- Whether the boundary of an interval is due: what the interval decides waits for it (R422, R459). -/
def State.boundaryDue (s : State) : Bool := s.power.ivCore < s.cycle / 2048

/-- The next cohort that a cluster can take, admitted; `pick` is the cluster that the dispatcher reaches first. -/
def State.admitNext (s : State) (pick : Nat) : State :=
  match s.firstLaunch s.dispatchable with
  | none => s
  | some (ln, l) =>
    match s.bestCluster ((clusterOrder pick).filter (s.admits (ln, l.next) l l.n2)) with
    | none => s
    | some cl =>
      let k := s.nextCohort
      let s := s.enrolCrews ln l l.next cl ((List.range l.n2).map (fun r => (r, 0))) k
      { s with nextCohort := k + 1 }.modLaunch ln (fun l => { l with next := l.next + 1 })

/-- COHORT_ADMIT (R29, R31, R372, R373): the cohorts that the forecast alone refuses are left until the next interval, whether
another is admitted or not. -/
def execCohortAdmit (pick : Nat) (s : State) : Host.Outcome State Fault Refusal :=
  whenEnabled (!s.boundaryDue) (fun s => s.noteRefusals.admitNext pick) s

/-- The relaunches that some cluster can take: launch, cohort number, cohort. -/
def State.relaunchable (s : State) : List (Nat × Launch) :=
  s.launches.filter (fun p => !p.2.killed && !p.2.complete && (match s.relaunchOf p.1 with
    | some (_, c) => c.slots.isEmpty &&
        (List.range Config.clusters).any (s.admits (p.1, c.f3) p.2 ((c.relaunch.getD ([], 0)).1.length))
    | none => false))

/-- The log entry of a relaunch (R437, R440): the subcause of the error that struck the crew, 0 for a kill by the host; `core` is
where it was struck (R463). -/
def relaunchLog (l : Launch) (f3 rank core sub : Nat) : LogEntry :=
  { kind := 7, sub := sub, aspace := l.aspace, queue := l.queue, seq := l.seq, wid := l.wid 0 rank f3, where_ := core }

/-- CREW_RELAUNCH (R32, R437): on another cluster than the one struck whenever another can take it, once what the struck one held
is free (R394); the same WIDs and ranks, the ranks that had committed absent. -/
def execCrewRelaunch (pick : Nat) (s : State) : Host.Outcome State Fault Refusal :=
  match s.firstLaunch (if s.boundaryDue then [] else s.relaunchable) with
  | none => .next s
  | some (ln, l) =>
    match s.relaunchOf ln with
    | none => .next s
    | some (k, co) =>
      let (ranks, struck) := co.relaunch.getD ([], 0)
      let fits := (clusterOrder pick).filter (s.admits (ln, co.f3) l ranks.length)
      let other := fits.filter (· != struck)
      match s.bestCluster (if other.isEmpty then fits else other) with
      | none => .next s
      | some cl =>
        let old := fun r => (co.crews.find? (fun x => x.1 == r)).bind (fun x => s.crew x.2)
        let rs := ranks.map (fun r => (r, (old r).elim 1 (fun c => c.relaunches + 1)))
        let gone := ranks.filterMap old
        let hit := ((gone.find? (fun c => c.fault.isSome)).orElse (fun _ => gone.head?)).getD ⟨0, 0, 0, 4 * struck, [], 0, [], 0, 0, false, 0, [], [], none, 0, 0, false, false, none⟩
        .next ((s.enrolCrews ln l co.f3 cl rs k).log (relaunchLog l co.f3 hit.rank hit.core (hit.fault.getD 0)))

/-! ### Retirement (R35, R103, R309) -/

/-- Whether no operation of a group is outstanding. -/
def State.settled (s : State) (core frame : Nat) (g : Group) : Bool :=
  let k := s.cluster (clusterOf core)
  let mine := fun (c f : Nat) => c == core && f == frame
  g.ops.isEmpty && (g.replay.isEmpty || g.inHandler) && g.due.isNone && g.poisoned.isNone
  && !k.table.any (fun r => mine r.core r.frame)
  && (match k.pass with
      | some p => !p.reqs.any (fun r => mine r.core r.frame && r.killed.isNone)
      | none => true)
  && !k.drains.any (fun d => mine d.core d.frame) && !k.copies.any (fun o => mine o.core o.frame && o.crew == g.crew)

/-- GROUP_RETIRE (R35, R106, R309): a group that retires in handler mode keeps its frame for its park record. -/
def execGroupRetire (core frame : Nat) (s : State) : Host.Outcome State Fault Refusal :=
  match s.group core frame with
  | none => .next s
  | some g =>
    whenEnabled (g.status == .retiring && s.settled core frame g) (fun s =>
      let s := s.modCore core (fun c => releaseBenches { c with locks := c.locks.filter (fun l => l.2 != frame),
                                                                hold := if c.hold = some frame then none else c.hold } frame)
      if g.inHandler then s.setGroup core frame { g with status := .retired, place := .frame, park := some 6 }
      else s.delGroup core frame) s

/-- A region still open at its crew's retirement: closed, its write-back moved at once, its energy drawn from the die (R103,
R260). -/
def State.closeRegion (s : State) (n : Nat) (r : Nat × Region) : State :=
  match s.crew n with
  | none => s
  | some c =>
    let slots := closeSlots s c r.2
    let s := s.setCrew n { c with regions := c.regions.filter (fun p => p.1 != r.1) }
    if slots.isEmpty then s
    else
      let o : CopyOp :=
        { id := 0, core := c.core, frame := 0, crew := n, src := .loc (some (c.core, c.base + 1024 * r.2.lslot)),
          dst := .global r.2.gbase, esize := 1, extents := [1024], sstride := [1], dstride := [1], after := [],
          started := true, gen := (s.space ((s.launch c.launch).elim 0 Launch.aspace)).gen, pc := 0, word := 0, lanes := 0, guards := [], wbSlots := slots }
      let es := o.moves.map (fun m => let x := s.copyRead o m.1 m.2.1; (m.1, m.2.2, x.1, x.2))
      let s := ((s.copyWrite o es).countCluster (clusterOf c.core) 3 (1024 * slots.length)).drawDie (dieOf c.core)
      o.cleaned.foldl (fun s p => s.modCore p.1 (fun k => { k with rdirty := k.rdirty.filter (· != p.2) })) s

/-- A list of numbered things put in ascending order of their numbers. -/
def byNumber {α : Type} (l : List (Nat × α)) (n : Nat) : List (Nat × α) :=
  ((List.range n).map (fun k => l.filter (fun p => p.1 == k))).flatten

/-- The launch's cohort after the last of its crews has retired (R35, R363, R416). -/
def State.endCohort (s : State) (k : Nat) (co : Cohort) : State :=
  let s := (s.freeCohort k).modCohort k (fun c => { c with done := true })
  let s := s.modLaunch co.launch (fun l => { l with retiredCohorts := l.retiredCohorts + 1 })
  match s.launch co.launch with
  | none => s
  | some l =>
    if l.retiredCohorts < l.n3 then s
    else
      let s := s.modLaunch co.launch (fun l => { l with complete := true })
      let s := (s.complete l.queue l.seq).announceMissing co.launch
      s.queues.foldl (fun s q => s.settleUnpins q.1) s

/-- A place in some bytes of a core's local store is none any more: its crew has retired (R97, R274). -/
def voidPlace (core lo n : Nat) (p : Option (Nat × Nat)) : Option (Nat × Nat) :=
  p.bind (fun x => if x.1 == core && lo ≤ x.2 && x.2 < lo + n then none else some x)

/-- The same for an end point of a copy. -/
def EndPt.void (core lo n : Nat) : EndPt → EndPt
  | .loc p => .loc (voidPlace core lo n p)
  | e => e

/-- What other crews' copies, drains and matrix requests still hold of a retired crew's local store is an absent rank's. -/
def State.voidRank (s : State) (core lo n : Nat) : State :=
  let req := fun (r : Req) => { r with base := voidPlace core lo n r.base }
  s.modCluster (clusterOf core) (fun k =>
    { k with copies := k.copies.map (fun o => { o with src := o.src.void core lo n, dst := o.dst.void core lo n }),
             drains := k.drains.map (fun d => { d with target := voidPlace core lo n d.target }),
             table := k.table.map req,
             pass := k.pass.map (fun p => { p with reqs := p.reqs.map req }) })

/-- The block counters of a launch that cores still hold, added to its array (R314, R358). -/
def State.flushCounters (s : State) (launch : Nat) : State :=
  (s.cores.map Prod.fst).foldl (fun s core =>
    let mine := (s.core core).bbc.filter (fun e => e.1 == launch)
    if mine.isEmpty then s
    else mine.foldl (fun s e => s.flushCount core e)
      (s.modCore core (fun k => { k with bbc := k.bbc.filter (fun e => e.1 != launch) }))) s

/-- CREW_RETIRE (R35, R97, R103, R125, R128, R314, R416). -/
def execCrewRetire (crew : Nat) (s : State) : Host.Outcome State Fault Refusal :=
  match s.crew crew with
  | none => .next s
  | some c =>
    whenEnabled (!c.retired && !c.killed && (s.groupsOf crew).isEmpty) (fun s =>
      let s := (s.performEarly c.core).flushWhere c.core (fun e => e.crew == crew)
      if (s.crew crew).any Crew.killed then s
      else
      let s := (byNumber c.regions 16).foldl (fun s r => s.closeRegion crew r) s
      let refused := s.commitMet crew
      let s := (s.flushCounters c.launch).commitBuffer crew
      if refused then s
      else
        let s := match s.launch c.launch with
          | some l => s.fireChunk c.launch (l.wid 0 c.rank c.f3)
          | none => s
        let s := s.voidRank c.core c.base ((s.launch c.launch).elim 0 Launch.lbytes)
        let s := s.modCrew crew (fun c => { c with retired := !c.killed })
        match s.cohortOf crew with
        | some (k, co) =>
          if !co.done && co.crews.all (fun r => (s.crew r.2).any Crew.retired) then s.endCohort k co else s
        | none => s) s

end Sys2Proof.Machine
end

