-- ==== Sys2Proof/Machine/Power.lean ====
section
/-! DEFINITION. The power system: buckets above the core, the winder, backfill, charge, temperatures, planned steps and the
claims of peers (R422 to R431). -/

namespace Sys2Proof.Machine

/-! ### Rates and registers (R422, R423) -/

/-- A rate in units of 0.1 W as tokens per interval. -/
def tenthTokens (f : Nat) : Nat := f * 2048 / 21

/-- The slew limits and the greatest grant, in tokens per interval; a limit of 0 counts as 1. -/
def Power.su (p : Power) : Nat := tenthTokens (max 1 p.up)
def Power.sd (p : Power) : Nat := tenthTokens (max 1 p.down)
def Power.gmax (p : Power) : Nat := wattTokens p.most

/-- K and the lead as they count (R423). -/
def Power.kk (p : Power) : Nat := max 1 p.k
def Power.ll (p : Power) : Nat := max 2 p.lead

/-- Which INTENT_PEER stands at an offset of the block (R424). -/
def peerIndex (off : Nat) : Option Nat :=
  if 0x100 ≤ off && off < 0x200 then some ((off - 0x100) / 8)
  else if 0x300 ≤ off && off < 0x400 then some (32 + (off - 0x300) / 8)
  else none

/-- The 64 bits of a register of the block (R423, R424); `dcap` is the die cap in force. -/
def Power.readReg (p : Power) (heaps : List Heap) (dcap off : Nat) : Nat :=
  match off with
  | 0x000 => p.cap + 2 ^ 16 * p.rate
  | 0x008 => p.flux + 2 ^ 16 * p.area + 2 ^ 32 * (dcap % 2 ^ 32)
  | 0x010 => p.up + 2 ^ 12 * p.down + 2 ^ 24 * p.most
  | 0x018 => p.grant % 2 ^ 32 + 2 ^ 32 * (p.next % 2 ^ 32)
  | 0x020 => (if p.scrub then 1 else 0) + (if p.test then 2 else 0) + (if p.prefetch then 4 else 0)
      + 2 ^ 32 * (p.absorbed % 2 ^ 32)
  | 0x028 => p.charge % 2 ^ 32 + 2 ^ 32 * (p.capacity % 2 ^ 32)
  | 0x030 => p.floor
  | 0x038 => p.k + 2 ^ 8 * p.lead + (if p.enable then 2 ^ 16 else 0)
  | 0x040 => p.soft + 2 ^ 8 * p.hard
  | _ =>
    match peerIndex off with
    | some i => tget p.peers i 0
    | none =>
      if 0x200 ≤ off && off < 0x260 then
        match heaps[(off - 0x200) / 8]? with
        | some h => h.temp % 256 + (if h.double then 256 else 0)
        | none => 0
      else if 0x400 ≤ off && off < 0x4C0 then
        match p.rails[(off - 0x400) / 8]? with
        | some (mv, i, pk) => mv % 2 ^ 16 + 2 ^ 16 * (i % 2 ^ 16) + 2 ^ 32 * (pk % 2 ^ 16)
        | none => 0
      else 0

/-- A register of the block written whole: its writable fields, with the limits of R423. -/
def Power.writeReg (p : Power) (off v : Nat) : Power :=
  match off with
  | 0x000 => { p with cap := max 16 (v % 2 ^ 16), rate := if bitsOf v 16 8 = 0 then p.rate else bitsOf v 16 8 }
  | 0x008 => { p with flux := v % 2 ^ 16 }
  | 0x010 => { p with up := v % 2 ^ 12, down := bitsOf v 12 12, most := bitsOf v 24 12 }
  | 0x020 => { p with scrub := v.testBit 0, test := v.testBit 1, prefetch := v.testBit 2 }
  | 0x030 => { p with floor := v % 2 ^ 32 }
  | 0x038 => { p with k := v % 2 ^ 6, lead := bitsOf v 8 4, enable := v.testBit 16 }
  | 0x040 => { p with soft := v % 2 ^ 8, hard := if bitsOf v 8 8 ≤ v % 2 ^ 8 then p.hard else bitsOf v 8 8 }
  | _ => match peerIndex off with
    | some i => { p with peers := tset p.peers i (v % 2 ^ 20) }
    | none => p

/-- A value of 4 or 8 bytes put over the 64 bits of the register that holds it. -/
def overlay64 (old off size v : Nat) : Nat :=
  if size = 8 then v % 2 ^ 64
  else if off % 8 = 4 then old % 2 ^ 32 + 2 ^ 32 * (v % 2 ^ 32)
  else old / 2 ^ 32 * 2 ^ 32 + v % 2 ^ 32

/-- A write that takes effect: of 4 or 8 bytes. -/
def Power.apply (p : Power) (w : Nat × Nat × Nat) : Power :=
  let base := w.1 / 8 * 8
  p.writeReg base (overlay64 (p.readReg [] 0 base) w.1 w.2.1 w.2.2)

/-- The registers as written, the writes of the interval included: what a read returns. -/
def Power.written (p : Power) : Power := p.pending.foldl Power.apply p

/-! ### The supply of one cycle (R425) -/

/-- The refill of one die bucket: the die's cap, what it took this interval and the package bucket limit it. -/
def State.refillDie (s : State) (d : Nat) : State :=
  let p := s.power
  let x := s.die d
  let cap := p.dcap * 16
  let r := min (min (cap - x.bucket) (cap - x.refilled)) p.bucket
  if r = 0 then s
  else
    let s := s.modDie d (fun x => { x with bucket := x.bucket + r, refilled := x.refilled + r })
    { s with power := { s.power with bucket := s.power.bucket - r, drawn := s.power.drawn + r } }

/-- Grains of the grant due by the end of cycle n of its interval: n + 1 of 2,048 parts, rounded down (R157, R425). -/
def Power.due (p : Power) (n : Nat) : Nat := p.grant * (n + 1) / 128

/-- One cycle of supply: the package bucket's credit, then the dies in ascending order. The credit of G/2,048 tokens is what makes
the interval's sum right in whole grains (R157, R425; DESIGN CHOICE, log entry 107). -/
def State.supply (s : State) : State :=
  if s.power.on then
    let p := s.power
    let n := s.cycle - p.ivStart
    let credit := p.due n - p.grant * n / 128
    let s := { s with power := { p with bucket := min (p.bucket + credit) (2 * p.grant * 16) } }
    (List.range Config.dies).foldl (fun s d => s.refillDie d) s
  else s

/-! ### Backfill (R427, R428, R433, R441) -/

/-- What of the grant is still to be drawn by backfill up to this cycle: the die refills and the recharge come first. -/
def State.unused (s : State) : Nat :=
  let p := s.power
  let left := p.due (s.cycle - p.ivStart) - p.drawn
  let short := 16 * (p.capacity - p.stored.getD p.capacity)
  left - min short left - p.absorbing

/-- Whether a cluster issues nothing in this cycle. -/
def State.idleCluster (s : State) (k : Nat) : Bool := (List.range 4).all (fun i => (s.core (4 * k + i)).issued.isEmpty)

/-- The ranges that a queue's next command lists: the list of a pin, the working set of a launch. -/
def State.nextRanges (s : State) (q : Nat) (e : List Byte) : List Range :=
  let asp := (s.queue q).aspace
  let list := match fieldAt e 0 1 with
    | 1 => (s.readVirt asp (fieldAt e 16 8) 256).bind (fun r => s.readRanges asp (fieldAt r 0x30 8) (fieldAt r 0x38 4))
    | 2 => s.readRanges asp (fieldAt e 16 8) (fieldAt e 24 4)
    | _ => none
  (list.getD none).getD []

/-- Whether the next command of a queue of highest priority among those that have one lists a page that is pinned and ready (R427). -/
def State.listsPages (s : State) : Bool :=
  let qs := s.queues.filterMap (fun q => (s.nextEntry q.1).map (fun e => (q.1, q.2, e)))
  let top := qs.foldl (fun m q => max m q.2.1.priority) 0
  qs.any (fun q => q.2.1.priority == top && (s.space q.2.1.aspace).pages.any (fun p =>
    s.pagePinned q.2.1.aspace p && !s.staging q.2.1.aspace p &&
      (s.nextRanges q.1 q.2.2).any (fun r => meets p.va (pageBytes p.size) r.start (r.pages * 4096))))

/-- The kind of backfill that takes the cycle's energy: 0 scrub, which always has a sector to read, 1 self-test, 2 prefetch,
3 ballast (R427). -/
def State.backfillKind (s : State) : Nat :=
  let p := s.power
  if p.scrub then 0
  else if p.test && (List.range Config.clusters).any s.idleCluster then 1
  else if p.prefetch && s.listsPages then 2
  else 3

/-- The sector that scrub reads next on a memory die: sectors go in address order and begin again (R427). -/
def State.scrubNext (s : State) (n : Nat) : Nat := n * 2 ^ 32 + s.power.scrubAt.getD n 0

/-- The scrub read of one memory die's next sector, and what it sets off (R427, R434, R441). A correction is written back in the
same step, before anything can write the line. -/
def State.scrubDie (found : Scrub) (s : State) (n : Nat) : State :=
  let x := s.scrubNext n
  let p := s.power
  let s := { s with power := { p with scrubAt := pset 0 p.scrubAt n ((p.scrubAt.getD n 0 + 1) % (Config.dieBytes / 32)) } }.countMem n 5 1
  if s.poison.contains x || found == .uncorrectable x then s.uncorrect x
  else if found == .corrected x then s.correct x
  else s

/-- What backfill of a kind does beside drawing energy: a scrub reads one sector on every present die (how many a cycle reads is
DESIGN CHOICE, log entry 70); a self-test of an idle cluster may fail. -/
def State.backfillWork (s : State) (kind : Nat) (found : Scrub) : State :=
  match kind, found with
  | 0, _ => ((List.range 12).filter (fun n => s.heaps[n]?.any Heap.present)).foldl (fun s n => s.scrubDie found n) s
  | 1, .testFailed k => if s.idleCluster k then s.log { kind := 13, unit := 14, where_ := 4 * k } else s
  | _, _ => s

/-- BACKFILL_DRAW (R427, R428): from the package bucket only; `k` is what the cycle's backfill finds. -/
def execBackfillDraw (k : Scrub) (s : State) : Host.Outcome State Fault Refusal :=
  whenEnabled s.power.on (fun s =>
    let x := min s.unused s.power.bucket
    let kind := s.backfillKind
    let t := { s with power := { s.power with
      bucket := s.power.bucket - x, absorbing := s.power.absorbing + x,
      kinds := pset 0 s.power.kinds kind (s.power.kinds.getD kind 0 + x) } }
    if x = 0 then s else t.backfillWork kind k) s

/-! ### Planned steps and claims (R430, R431) -/

/-- Claims that stand for an interval. -/
def claimsAt (cs : List (Nat × Nat × Nat × Nat)) (i : Nat) : List (Nat × Nat × Nat × Nat) :=
  cs.filter (fun c => c.2.2.1 == i)

/-- The least interval at or after `i` in which fewer than K claims fall. -/
def Power.freeFrom (p : Power) : Nat → Nat → Nat
  | 0, i => i
  | fuel + 1, i => if p.enable && p.kk ≤ (claimsAt p.claims i).length then p.freeFrom fuel (i + 1) else i

/-- The start of a step declared in interval `a` for interval `wanted` (R430). -/
def Power.startOf (p : Power) (wanted a : Nat) : Nat :=
  p.freeFrom (p.claims.length + 1) (max wanted (a + 1 + p.ll))

/-- The announcement of a step to every valid peer (R430). -/
def State.announce (s : State) (start size a : Nat) : State :=
  if s.power.enable then
    (s.power.peers.filter (fun e => e.2.testBit 19)).foldl (fun s e =>
      let x := e.2 % 2 ^ 10
      let y := bitsOf e.2 10 9
      s.sendOwn (s.mgmtPort x y) 3 x y 0 [start, size, a]) s
  else s

/-- Whether the device tells any peer of its steps (R430). -/
def Power.announces (p : Power) : Bool := p.enable && p.peers.any (fun e => e.2.testBit 19)

/-- The declarations made before interval `n` for one wanted interval, fixed as one step and announced; where nothing is announced
each declaration stays to be withdrawn (R313). -/
def State.fixStep (s : State) (n wanted : Nat) : State :=
  let p := s.power
  let mine := p.decls.filter (fun d => d.1 == wanted && d.2.2.1 < n)
  let a := mine.foldl (fun m d => max m d.2.2.1) 0
  let size := (mine.map (fun d => d.2.1)).sum
  let start := p.startOf wanted a
  let s := { s with power := { p with decls := p.decls.filter (fun d => !(d.1 == wanted && d.2.2.1 < n)),
                                      steps := p.steps ++ [(start, size, a)],
                                      quiet := p.quiet ++ (if p.announces then [] else mine.map (fun (d : Nat × Nat × Nat × Option Nat) => (start, a, d.2.2.2, d.2.1))) } }
  s.announce start size a

/-- Every declaration made before interval `n` fixed, in the order of the intervals wanted. -/
def State.fixSteps (s : State) (n : Nat) : State :=
  let wanted := dedup ((s.power.decls.filter (fun d => d.2.2.1 < n)).map (fun d => d.1))
  wanted.foldl (fun s w => s.fixStep n w) s

/-- Whether the key (a, y, x) of a claim is lower than another. -/
def keyBelow (a b : Nat × Nat × Nat) : Bool :=
  a.1 < b.1 || (a.1 == b.1 && (a.2.1 < b.2.1 || (a.2.1 == b.2.1 && a.2.2 < b.2.2)))

/-- A fixed step for which K or more claims of lower keys are held, moved and announced again, before it begins: `now` is the
interval that it must begin behind (R431). -/
def State.moveStep (s : State) (now ix : Nat) : State :=
  match s.power.steps[ix]? with
  | none => s
  | some (start, size, a) =>
    let p := s.power
    let lower := (claimsAt p.claims start).filter (fun c => keyBelow (c.2.2.2, c.1, c.2.1) (a, s.coordY, s.coordX))
    if p.enable && now < start && p.kk ≤ lower.length then
      let next := p.freeFrom (p.claims.length + 1) (start + 1)
      let quiet := p.quiet.filter (fun x => !(x.1 == start && x.2.1 == a && p.announces))
      ({ s with power := { p with steps := lset p.steps ix (next, size, a), quiet := quiet } }).announce next size a
    else s

/-- Every fixed step that must move, moved. -/
def State.moveSteps (s : State) (now : Nat) : State :=
  (List.range s.power.steps.length).foldl (fun s i => s.moveStep now i) s

/-- Whether a device is a peer of the intent group (R423, R424). -/
def Power.isPeer (p : Power) (x y : Nat) : Bool := p.peers.any (fun e => e.2.testBit 19 && e.2 % 2 ^ 10 == x && bitsOf e.2 10 9 == y)

/-- INTENT_CLAIM_RECEIVE (R431): a flit of a peer replaces the sender's claim of the same key, as the new place of one step; claims
of a peer's other steps stand (R332, R335; DEDUCED, log entry 108). -/
def execIntentClaimReceive (sx sy start delta a : Nat) (s : State) : Host.Outcome State Fault Refusal :=
  whenEnabled (s.power.isPeer sx sy) (fun s =>
  let p := s.power
  let rest := p.claims.filter (fun c => !(c.1 == sy && c.2.1 == sx && c.2.2.2 == a))
  let claims := if p.ivCore < start && delta != 0 then rest ++ [(sy, sx, start, a)] else rest
  { s with power := { p with claims := claims } }.moveSteps p.ivCore) s

/-! ### The winder (R426) -/

/-- What the die buckets request and have not been given, in grains (R425, R426). -/
def State.shortfall (s : State) : Nat :=
  ((List.range Config.dies).map (fun d => s.power.dcap * 16 - (s.die d).bucket)).sum

/-- T of the interval that ends: what the die buckets have drawn, what they still request, and the refills of core buckets that were
refused in its cycles (R425, R426; log entry 67). -/
def State.demandNow (s : State) : Nat := (s.power.drawn + s.shortfall + s.power.refused) / 16

/-- The steps that begin at the boundary that opens interval n: one running step, from the grant at which it begins. -/
def Power.beginSteps (p : Power) (n : Nat) : Power :=
  let now := p.steps.filter (fun x => x.1 ≤ n)
  if now.isEmpty then p
  else
    let rest := match p.running with
      | some (base, size) => base + size - p.grant
      | none => 0
    { p with steps := p.steps.filter (fun x => n < x.1), quiet := p.quiet.filter (fun x => n < x.1), running := some (p.grant, (now.map (fun x => x.2.1)).sum + rest) }

/-- A: the limit that the steps, the slew and the reserve rise set on the next grant; `pending` tells whether a step is. -/
def Power.limit (p : Power) (pending : Bool) (t : Nat) : Nat :=
  let a := match p.running with
    | some (base, size) => min (p.grant + p.su) (base + size)
    | none => if !pending && t - p.grant ≤ p.su then p.grant + p.su else p.grant
  if p.charge < p.floor then max a (p.grant + p.su) else a

/-- The greatest grant that the winder permits in the interval after n, whatever the demand (WND_RATE.next, R312 selector 7): a step
declared by now will be pending when it is set (R426, R430). -/
def Power.permitted (p : Power) (n : Nat) : Nat :=
  let q := p.beginSteps (n + 1)
  max (q.grant - q.sd) (min (q.limit (!q.steps.isEmpty || !q.decls.isEmpty) (q.grant + q.su)) q.gmax)

/-- The charge by the balance of R429: what the supply delivered less what was drawn, at most the capacity. -/
def Power.balance (p : Power) (cycles : Nat) : Option Nat :=
  p.stored.map (fun c => min p.capacity (c + p.grant * cycles / 2048 - (p.drawn + p.absorbing) / 16))

/-- A measurement held within 0.5 % of capacity of the balance (R429). -/
def measured (cap : Nat) (balance : Option Nat) (m : Nat) : Nat :=
  match balance with
  | none => min m cap
  | some b => min cap (max (b - cap / 200) (min m (b + cap / 200)))

/-- The allowance m of a cluster at a temperature (R425). -/
def allowance (p : Power) (t : Nat) : Nat :=
  if t ≤ p.soft then 16 else if p.hard ≤ t then 0 else (p.hard - t) * 16 / (p.hard - p.soft)

/-- The grant of interval n, with the steps that begin, end or are declared at its boundary (R426). -/
def Power.wind (p : Power) (n t : Nat) : Power :=
  let p := p.beginSteps n
  let a := p.limit (!p.steps.isEmpty) t
  let g := max (p.grant - p.sd) (min (min t a) p.gmax)
  let beyond := match p.running with
    | some (base, size) => base + size ≤ g || (t < a && t ≤ p.gmax)
    | none => false
  let idle := p.running.isNone && p.steps.isEmpty
  let decls := if idle && p.grant + p.su < t then p.decls ++ [(n + 1, t - p.grant, n, none)] else p.decls
  { p with grant := g, running := if beyond then none else p.running, decls := decls }

/-- Temperatures of the memory dies (R429). -/
def heapTemps (hs : List Heap) (ts : List Nat) : List Heap :=
  hs.mapIdx (fun i (h : Heap) =>
    let t := ts.getD i h.temp
    { h with temp := t, double := if 85 < t then true else if t ≤ 82 then false else h.double })

/-- Clusters and dies at a boundary: allowance, forecast, what was taken; a die bucket holds at most the cap now in force (R373,
R425). -/
def State.latchUnits (s : State) (m : Measure) : State :=
  let s := (List.range Config.clusters).foldl (fun s c => s.modCluster c (fun k =>
    let t := m.clusterTemp.getD c k.temp
    { k with temp := t, m := allowance s.power t, taken := 0 })) s
  (List.range Config.dies).foldl (fun s d => s.modDie d (fun x =>
    let b := min x.bucket (s.power.dcap * 16)
    { x with bucket := b, refilled := 0, forecast := 0, refused := [], latched := b / 16 })) s

/-- What the boundary that opens interval n does (R423 to R431). A step declared earlier is fixed before the grant is set, so that
it is pending for that grant (R426, R430; DEDUCED, log entry 122). -/
def State.boundary (s : State) (n : Nat) (m : Measure) : State :=
  let s := ({ s with power := { s.power.written with pending := [] } }.fixSteps n).moveSteps n
  let p := s.power
  let t := s.demandNow
  let charge := measured p.capacity (p.balance 2048) m.charge
  let p := { p with charge := charge, stored := some ((p.balance 2048).getD charge), rails := m.rails }
  let reserve := p.on && charge < p.floor
  let w := if p.on then p.wind n t else p
  let claims := w.claims.filter (fun c => n ≤ c.2.2.1)
  let s := { s with power := { w with
    claims := claims, demand := t, absorbed := p.absorbing / 16, drawn := 0, absorbing := 0, refused := 0, ivStart := s.cycle, ivCore := n,
    bucket := min p.bucket (2 * w.grant * 16) }, heaps := heapTemps s.heaps m.dieTemp }
  let s := (if reserve then s.announce n p.su (n - 1) else s).count 48 7 1
  let s := s.latchUnits m
  let q := s.power
  { s with power := { q with ivPackage := q.bucket / 16, next := q.permitted n,
                             ivIntent := (q.steps.getLast?).elim 0 (fun x => x.1) } }

/-- WINDER_BOUNDARY (R423 to R431), due when the cycle count has reached the next interval. -/
def execWinderBoundary (m : Measure) (s : State) : Host.Outcome State Fault Refusal :=
  whenEnabled s.boundaryDue (fun s => s.boundary (s.power.ivCore + 1) m) s

end Sys2Proof.Machine
end

