-- ==== Sys2Proof/Machine/Fabric.lean ====
section
/-! DEFINITION. The Dweotte fabric: time synchronisation, forwarding, route failures, port statistics, links (R371, R406 to
R411). -/

namespace Sys2Proof.Machine

/-! ### Time synchronisation (R407) -/

/-- TIME_SYNC_SEND (R407): a flit with the time base on a trained port. It travels one hop and names no far device: the destination
that it carries is the device's own (DESIGN CHOICE, log entry 110). -/
def execTimeSyncSend (port : Nat) (s : State) : Host.Outcome State Fault Refusal :=
  whenEnabled (port < 32 && (s.port port).up) (fun s => s.sendOwn port 4 s.coordX s.coordY 0 [s.time]) s

/-- Whether a port leads to the corner of a span whose prologue has completed, this device not being the corner. -/
def State.leadsToCorner (s : State) (port : Nat) : Bool :=
  s.spans.any (fun t => t.complete && (t.x, t.y) != (s.coordX, s.coordY) && t.hop t.x t.y == some port)

/-- TIME_SYNC_RECEIVE (R407): how far the time base is from the corner's, to be worked off at one tick in 4,096. -/
def execTimeSyncReceive (port time : Nat) (s : State) : Host.Outcome State Fault Refusal :=
  let s := if port < 32 then s.countPort port 1 1 else s
  whenEnabled (s.leadsToCorner port) (fun s => { s with timeDebt := (time : Int) - s.time }) s

/-! ### Forwarding (R409, R410) -/

/-- Whether a received flit is dropped and counted as an error of its port (R409). -/
def flitBad (f : Flit) : Bool := 7 ≤ f.kind || 3 ≤ f.vc || f.rsv != 0 || 224 < f.valid

/-- Where a flit goes on (R410): none where it is dropped in silence, then none where it cannot be forwarded. -/
def State.nextHop (s : State) (f : Flit) : Option (Option Nat) :=
  match f.kind with
  | 1 | 2 | 6 =>
    match s.spans.find? (fun t => t.ident == f.span) with
    | none => none
    | some t => some ((t.hop f.dx f.dy).bind (fun p => if (s.port p).up then some p else none))
  | 3 | 5 => some (if (s.port (s.mgmtPort f.dx f.dy)).up then some (s.mgmtPort f.dx f.dy) else none)
  | _ => none

/-- The header of a flit that is sent on: its own. -/
def headerOf (f : Flit) : List Byte := flitHeader f.dx f.dy f.sx f.sy f.vc f.kind f.span f.seq f.valid

/-- A route-failure flit to the source of a flit, with vector 259 (R399, R410). -/
def State.routeFailure (s : State) (f : Flit) : State :=
  let port := match s.spans.find? (fun t => t.ident == f.span) with
    | some t => (t.hop f.sx f.sy).getD 32
    | none => s.mgmtPort f.sx f.sy
  (s.sendOwn port 6 f.sx f.sy f.span []).raise 259

/-- FLIT_FORWARD (R409, R410): a flit received at a port. One for the device itself is delivered, which its own event does. -/
def execFlitForward (port : Nat) (f : Flit) (s : State) : Host.Outcome State Fault Refusal :=
  if flitBad f then .next (s.modPort port (fun p => { p with errors := p.errors + 1 }))
  else
    let s := if port < 32 then s.countPort port 1 1 else s
    if f.dx = s.coordX && f.dy = s.coordY then .next s
    else
      match s.nextHop f with
      | none => .next s
      | some (some p) => .next (s.sendFlit p (headerOf f) f.payload)
      | some none => .next (s.routeFailure f)

/-- ROUTE_FAILURE_RECEIVE (R410, R421). -/
def execRouteFailureReceive (span : Nat) (s : State) : Host.Outcome State Fault Refusal := .next (s.routeFailed span)

/-! ### Ports and links (R408, R411) -/

/-- PORT_WINDOW (R411): the statistics of a window of 2^24 ticks latched at its end, alarms set, vector 258. -/
def execPortWindow (port : Nat) (w : PortStats) (s : State) : Host.Outcome State Fault Refusal :=
  let p := s.port port
  let q := { p with prevHeight := p.height, prevCerr := p.cerr, height := w.height % 2 ^ 12, width := w.width % 2 ^ 10,
                    worst := w.lane % 8, cerr := min w.cerr 0xFFFFFFFF, retries := min w.retries 0xFFFFFFFF,
                    window := s.time / 2 ^ 24, latched := true }
  let alarm := p.alarm ||| q.breach
  whenEnabled (port < 32 && p.window < s.time / 2 ^ 24) (fun s =>
    let s := s.modPort port (fun _ => { q with alarm := alarm })
    if alarm ≠ p.alarm then s.raise 258 else s) s

/-- The statistics of a window for which the environment supplies none: those of the last again, before the first the thresholds
themselves (DESIGN CHOICE, log entry 137). -/
def Port.sameStats (p : Port) : PortStats :=
  if p.latched then { height := p.height, width := p.width, lane := p.worst, cerr := p.cerr, retries := p.retries }
  else { height := p.thHeight, width := p.thWidth, lane := 0, cerr := 0, retries := 0 }

/-- PORT_DOWN (R408, R411, R440): later traffic of the port fails at FLIT_FORWARD, and so does a prologue that waits for a peer
behind it (R371). -/
def execPortDown (port : Nat) (s : State) : Host.Outcome State Fault Refusal :=
  .next (((s.modPort port (fun p => { p with down := true, trained := false, lanes := 0 })).log
    { kind := 11, unit := 12 + port / 16 % 2 }).failBehind port)

/-- LINK_TRAINED (R403, R411): a host link or a fabric port with its eight lanes (R408). -/
def execLinkTrained (host : Bool) (n : Nat) (s : State) : Host.Outcome State Fault Refusal :=
  .next (if host then
      (if n < 2 then { s with hostLinks := n :: s.hostLinks.filter (· != n) } else s)
    else s.modPort n (fun p => { p with trained := true, down := false, lanes := 8, window := s.time / 2 ^ 24 }))

end Sys2Proof.Machine
end

