-- ==== Sys2Proof/Machine/HostRegs.lean ====
section
/-! DEFINITION. BAR0: registers by offset, the memory window, MSI-X, host CXL.mem accesses (R60, R351, R359, R360, R381, R393,
R395, R397 to R403, R406, R411, R412, R424, R434, R439, R444, R446, R447, R455). -/

namespace Sys2Proof.Machine

/-- The state that an outcome gives, the old one where it gives none. -/
def stateOr (s : State) : Host.Outcome State Fault Refusal → State
  | .next t => t
  | _ => s

/-! ### Reads (R397) -/

/-- Packed bits of a list of flags. -/
def packBits (p : Nat → Bool) (n : Nat) : Nat := ((List.range n).map (fun i => if p i then 2 ^ i else 0)).sum

/-- The 8 bytes at an offset of a queue block (R359, R360). QUEUE_PHEAD reads as the first free index at or after the one
after the last written; while no index is free, as that one (DESIGN CHOICE, log entry 34). -/
def Queue.readReg (q : Queue) (off : Nat) : Nat :=
  match off with
  | 0x00 => q.base
  | 0x08 => (if q.enable then 1 else 0) + 2 ^ 4 * q.priority + 2 ^ 12 * q.aspace + 2 ^ 32 * q.watchdog + 2 ^ 48 * q.size
  | 0x10 => q.tail + 2 ^ 32 * q.head
  | 0x18 => q.error + (if q.down then 256 else 0)
  | 0x20 => q.errseq
  | 0x28 => q.park + 2 ^ 48 * q.parkSize
  | 0x30 => 2 ^ 32 * (q.freeIndex (q.phead % q.parkN)).getD q.phead
  | _ => 0

/-- The 8 bytes at an offset of a port block (R411, R412). -/
def Port.readReg (p : Port) (off : Nat) : Nat :=
  match off with
  | 0x00 => (if p.trained then 1 else 0) + (if p.down then 2 else 0) + 2 ^ 2 * p.alarm + 2 ^ 8 * p.lanes + 2 ^ 32 * p.retries
  | 0x08 => p.height + 2 ^ 12 * p.width + 2 ^ 22 * p.worst + 2 ^ 32 * p.cerr
  | 0x10 => p.prevHeight + 2 ^ 32 * p.prevCerr
  | 0x18 => p.thHeight + 2 ^ 12 * p.thWidth + 2 ^ 32 * p.thCerr
  | _ => 0

/-- The survey, sampling and trace block (R446, R447). -/
def State.readDebug (s : State) (off : Nat) : Nat :=
  match off with
  | 0x00 => s.surveyK + (if s.surveyOn then 256 else 0)
  | 0x08 => s.survey.base + 2 ^ 48 * s.survey.size
  | 0x10 => s.survey.head + 2 ^ 32 * s.survey.tail
  | 0x18 => s.survey.lost
  | 0x20 => s.sampleJ + (if s.sampleOn then 256 else 0) + 2 ^ 32 * s.sampleSeed
  | 0x28 => s.sample.base + 2 ^ 48 * s.sample.size
  | 0x30 => s.sample.head + 2 ^ 32 * s.sample.tail
  | 0x38 => s.sample.lost
  | 0x40 => s.traceSize + (if s.traceOn then 256 else 0) + s.traceBase / 64 * 2 ^ 12
  | 0x50 => packBits (fun i => (s.queue i).stop) 64
  | 0x58 => packBits (fun i => (s.queue (64 + i)).stop) 64
  | 0x60 => packBits (fun i => (s.queue i).stopped) 64
  | 0x68 => packBits (fun i => (s.queue (64 + i)).stopped) 64
  | _ => 0

/-- A heap's registers (R395, R412). -/
def Heap.readReg (h : Heap) (off : Nat) : Nat :=
  if off = 0 then h.first + 2 ^ 32 * h.count
  else (if h.present then 1 else 0) + (if h.ctx then 2 else 0) + 2 ^ 8 * (h.retired.length % 2 ^ 24)

/-- CAP_REGROWS (R60). -/
def State.regrows (s : State) : Nat := s.rows % 2 ^ 11 + 2 ^ 16 * (s.coresReduced % 2 ^ 10)

/-- The registers below the blocks. -/
def State.readLow (s : State) (off : Nat) : Nat :=
  match off with
  | 0x000 => s.features
  | 0x010 => s.regrows
  | 0x100 => s.contextBase
  | 0x108 => s.preempt.base + 2 ^ 48 * s.preempt.size
  | 0x110 => s.preempt.head
  | 0x120 => s.preempt.tail
  | 0x200 => s.time % 2 ^ 64
  | 0x300 => s.coordX + 2 ^ 10 * s.coordY
  | 0x400 => s.linkRoute % 2 ^ 64
  | 0x408 => s.linkRoute / 2 ^ 64
  | 0x500 => s.memwinBase
  | _ => 0

/-- The error log and the mailbox with its data window (R439, R444). -/
def State.readLog (s : State) (off : Nat) : Nat :=
  match off with
  | 0x50000 => s.errlog.base + 2 ^ 48 * s.errlog.size
  | 0x50008 => s.errlog.head
  | 0x50010 => s.errlog.tail
  | 0x50018 => s.errlog.lost
  | 0x51008 => s.mbox.arg
  | 0x51010 => s.mbox.state + 2 ^ 8 * s.mbox.code + 2 ^ 32 * (s.mbox.image.elim 0 (fun i => i.2.length))
  | _ =>
    if 0x58000 ≤ off && off < 0x60000 then
      ofLe ((List.range 8).map (fun i => s.mbox.window.over (off - 0x58000 + i) 0))
    else 0

/-- The MSI-X table and its pending bits (R399). -/
def State.readMsix (s : State) (off : Nat) : Nat :=
  if off < 0x31040 then
    let e := tget s.msixTable ((off - 0x30000) / 16) [0, 0, 0, 1]
    let k := (off - 0x30000) / 4 % 4
    e.getD k 0 + 2 ^ 32 * e.getD (k + 1) 0
  else if 0x32000 ≤ off && off < 0x32028 then packBits (fun i => s.msixPending.contains (8 * (off - 0x32000) + i)) 64
  else 0

/-- The 8 bytes of BAR0 at an 8-byte aligned offset. -/
def State.readReg (s : State) (off : Nat) : Nat :=
  if s.recovery then (if 0x50000 ≤ off && off < 0x60000 then s.readLog off else 0)
  else if off < 0x1000 then s.readLow off
  else if off < 0x10C0 then (s.heaps[(off - 0x1000) / 16]?).elim 0 (fun h => h.readReg (off % 16))
  else if 0x10000 ≤ off && off < 0x12000 then (s.queue ((off - 0x10000) / 64)).readReg (off % 64)
  else if 0x20000 ≤ off && off < 0x20800 then (s.port ((off - 0x20000) / 64)).readReg (off % 64)
  else if 0x30000 ≤ off && off < 0x40000 then s.readMsix off
  else if 0x40000 ≤ off && off < 0x50000 then s.power.written.readReg s.heaps s.power.dcap (off - 0x40000)
  else if 0x50000 ≤ off && off < 0x60000 then s.readLog off
  else if 0x60000 ≤ off && off < 0x70000 then s.readDebug (off - 0x60000)
  else 0

/-! ### The memory window (R398) -/

/-- Whether the host may reach physical bytes: the heap of a present die, outside retired frames; `ctx` adds the context
region. -/
def State.reachable (s : State) (ctx : Bool) (pa n : Nat) : Bool :=
  populated pa n &&
  ((ctx && s.contextBase ≤ pa && pa + n ≤ s.contextBase + 16384 * Config.frameBytes) ||
    (match s.heaps[pa / 2 ^ 37]? with
      | some h =>
        let f := pa % 2 ^ 37 / 4096
        let l := (pa % 2 ^ 37 + n - 1) / 4096
        h.present && h.first ≤ f && l < h.first + h.count && !h.retired.any (fun r => f ≤ r && r ≤ l)
      | none => false))

/-- Whether an access through the window has a form that is served. -/
def windowForm (off n : Nat) : Bool := 1 ≤ n && n ≤ 512 && off % 4096 + n ≤ 4096 && off + n ≤ 0x800000

/-- The log entry of an access to a reserve (R398, R401, R440). -/
def reserveLog (pa : Nat) : LogEntry := { kind := 12, unit := pa / 2 ^ 37 % 16, addr := pa }

/-- The BAR0 is there: after step 6 of R445, or in recovery, where the window is not. -/
def State.barOn (s : State) : Bool := 6 ≤ s.bringUp && !s.recovery

/-- MEMWIN_READ (R398, R434): `off` counts from the window's start. -/
def execMemwinRead (off len : Nat) (s : State) : Host.Outcome State Fault Refusal :=
  let pa := s.memwinBase + off
  if s.recovery && windowForm off len then .next (s.emit (.bytes (zeros len) false))
  else if !s.barOn || !windowForm off len then .next (s.emit .unsupported)
  else if !s.reachable true pa len then .next ((s.emit .unsupported).log (reserveLog pa))
  else
    match s.poison.filter (fun x => meets pa len (x * 32) 32) with
    | x :: _ => .next ((s.emit (.bytes (s.readMem pa len) true)).uncorrect x)
    | [] => .next (s.emit (.bytes (s.readMem pa len) false))

/-- The log entry of a register write that is discarded for its form (R397, R440). -/
def discardLog (off : Nat) : LogEntry := { kind := 10, unit := 12, addr := off }

/-- MEMWIN_WRITE (R398). -/
def execMemwinWrite (off : Nat) (data : List Byte) (s : State) : Host.Outcome State Fault Refusal :=
  let pa := s.memwinBase + off
  if !s.barOn then .next s
  else if !windowForm off data.length then .next (s.log (discardLog (0x800000 + off)))
  else if !s.reachable true pa data.length then .next (s.log (reserveLog pa))
  else .next ((s.perform pa data).dropLines pa data.length)

/-- HOST_CXL_MEM_ACCESS (R401, R402, R434): reserves, the context region and retired frames read poisoned data; a write
there is discarded; both are logged. Beyond the decoders nothing answers. -/
def execHostCxlMemAccess (h : HostAccess) (s : State) : Host.Outcome State Fault Refusal :=
  let decoded := fun pa n => pa / 2 ^ 37 < 12 && pa % 2 ^ 37 + n ≤ 95831457792
  let open_ := fun pa n => s.reachable false pa n && !meets pa n s.contextBase (16384 * Config.frameBytes)
  if !s.cxl || !s.hostLinks.contains 0 then .next s
  else
    match h with
    | .read pa n =>
      if !decoded pa n then .next (s.emit .unsupported)
      else if !open_ pa n then .next ((s.emit (.bytes (zeros n) true)).log (reserveLog pa))
      else
        match s.poison.filter (fun x => meets pa n (x * 32) 32) with
        | x :: _ => .next ((s.emit (.bytes (s.readMem pa n) true)).uncorrect x)
        | [] => .next (s.emit (.bytes (s.readMem pa n) false))
    | .write pa bs =>
      if !decoded pa bs.length then .next s
      else if !open_ pa bs.length then .next (s.log (reserveLog pa))
      else .next ((s.perform pa bs).dropLines pa bs.length)

/-! ### Writes (R397) -/

/-- A write to a queue block (R359, R360): fields of the high half first, what starts a fetch last. -/
def State.writeQueue (s : State) (q off size v : Nat) : State :=
  let x := s.queue q
  let base := off / 8 * 8
  let w := overlay64 (x.readReg base) off size v
  let low := size = 8 || off % 8 = 0
  let high := size = 8 || off % 8 = 4
  match base with
  | 0x00 => stateOr s (execQueueBaseWrite q w s)
  | 0x08 =>
    let s := if high then s.modQueue q (fun x => { x with watchdog := bitsOf w 32 16, size := bitsOf w 48 4 }) else s
    if low then stateOr s (if w.testBit 0 then execQueueEnable q (w % 2 ^ 32) s else execQueueDisable q (w % 2 ^ 32) s) else s
  | 0x10 => if low then stateOr s (execQueueDoorbell q (w % 2 ^ 32) s) else s
  | 0x28 => stateOr s (execQueueParkWrite q w s)
  | 0x30 =>
    if low then
      let r := w % 2 ^ 16
      match bitsOf w 16 2 with
      | 0 => stateOr s (execParkResume q r s)
      | 1 => stateOr s (execParkKillCrew q r s)
      | 2 => stateOr s (execParkKillLaunch q r s)
      | _ => s
    else s
  | _ => s

/-- A write to a port block (R411): alarm bits are cleared by 1, thresholds are written. -/
def State.writePort (s : State) (p off size v : Nat) : State :=
  let base := off / 8 * 8
  let x := s.port p
  match base with
  | 0x00 =>
    let bits := if off % 8 = 0 then bitsOf v 2 3 else 0
    s.modPort p (fun x => { x with alarm := x.alarm - (x.alarm &&& bits) })
  | 0x18 =>
    let w := overlay64 (x.readReg base) off size v
    s.modPort p (fun x => { x with thHeight := w % 2 ^ 12, thWidth := bitsOf w 12 10, thCerr := bitsOf w 32 32 })
  | _ => s

/-- A ring register: base and size code. -/
def Ring.setBase (r : Ring) (w : Nat) : Ring := { r with base := bitsOf w 6 35 * 64, size := bitsOf w 48 4 }

/-- LINK_ROUTE: bits of enabled queues do not change (R403). -/
def State.setRoute (s : State) (w : Nat) : State :=
  { s with linkRoute := packBits (fun q => if (s.queue q).enable then s.linkRoute.testBit q else w.testBit q) 128 }

/-- A write to the registers below the blocks (R381, R393, R398, R403). -/
def State.writeLow (s : State) (off size v : Nat) : State :=
  let base := off / 8 * 8
  let w := overlay64 (s.readLow base) off size v
  match base with
  | 0x100 => if s.queues.any (fun q => q.2.enable) then s else { s with contextBase := bitsOf w 16 25 * 65536 }
  | 0x108 => { s with preempt := s.preempt.setBase w }
  | 0x118 => if off % 8 = 0 then stateOr s (execPreemptCmd (w % 2 ^ 9) s) else s
  | 0x120 => { s with preempt := { s.preempt with tail := w % 2 ^ 32 } }
  | 0x400 => s.setRoute (w + 2 ^ 64 * (s.linkRoute / 2 ^ 64))
  | 0x408 => s.setRoute (s.linkRoute % 2 ^ 64 + 2 ^ 64 * w)
  | 0x500 => { s with memwinBase := bitsOf w 23 18 * 2 ^ 23 }
  | _ => s

/-- A write to the MSI-X table: an entry unmasked with its pending bit set is sent (R399). -/
def State.writeMsix (s : State) (off size v : Nat) : State :=
  if off < 0x31040 then
    let n := (off - 0x30000) / 16
    let k := (off - 0x30000) / 4 % 4
    let e := tget s.msixTable n [0, 0, 0, 1]
    let e := lset e k (v % 2 ^ 32)
    let e := if size = 8 then lset e (k + 1) (v / 2 ^ 32 % 2 ^ 32) else e
    let s := { s with msixTable := tset s.msixTable n e }
    if s.msixPending.contains n && e.getD 3 1 % 2 == 0 then
      { s with msixPending := s.msixPending.filter (· != n) }.sendMsix n
    else s
  else s

/-- DBG_STOP written: the bits of one word (R447, R455). -/
def State.writeStops (s : State) (first n w : Nat) : State :=
  (List.range n).foldl (fun s i =>
    let q := first + i
    if w.testBit i = (s.queue q).stop then s
    else stateOr s (if w.testBit i then execDbgStopSet q s else execDbgStopClear q s)) s

/-- A write to the survey, sampling and trace block (R446): fields stay while their enable bit is 1. -/
def State.writeDebug (s : State) (off size v : Nat) : State :=
  let base := off / 8 * 8
  let w := overlay64 (s.readDebug base) off size v
  let on := w.testBit 8
  match base with
  | 0x00 =>
    let k := w % 32
    { s with surveyOn := on, surveyK := if s.surveyOn || k < 10 || 20 < k then s.surveyK else k }
  | 0x08 => if s.surveyOn then s else { s with survey := s.survey.setBase w }
  | 0x10 => { s with survey := { s.survey with tail := w / 2 ^ 32 } }
  | 0x20 =>
    let j := w % 32
    { s with sampleOn := on, sampleJ := if s.sampleOn || j < 8 || 24 < j then s.sampleJ else j,
             sampleSeed := if s.sampleOn then s.sampleSeed else w / 2 ^ 32 }
  | 0x28 => if s.sampleOn then s else { s with sample := s.sample.setBase w }
  | 0x30 => { s with sample := { s.sample with tail := w / 2 ^ 32 } }
  | 0x40 =>
    let k := w % 32
    { s with traceOn := on, traceSize := if s.traceOn || k < 12 || 24 < k then s.traceSize else k,
             traceBase := if s.traceOn then s.traceBase else bitsOf w 12 35 * 64 }
  | 0x50 => s.writeStops (8 * (off - 0x50)) (8 * size) v
  | 0x58 => s.writeStops (8 * (off - 0x50)) (8 * size) v
  | _ => s

/-- Bytes put into the mailbox's data window (R444). -/
def State.writeWindow (s : State) (off size v : Nat) : State :=
  { s with mbox := { s.mbox with window := s.mbox.window.write (off - 0x58000) (leBytes v size) } }

end Sys2Proof.Machine
end

