-- ==== Sys2Proof/Machine/Boot.lean ====
section
/-! DEFINITION. Firmware images, attestation, cold reset with its bring-up, function-level reset, register writes and reads,
errors pinned to no crew (R397, R400, R433, R438, R439, R442 to R445, R461). -/

namespace Sys2Proof.Machine

/-! ### The mailbox and firmware images (R442, R444, R461) -/

/-- The mailbox after a command: 2 done, or 3 with a code. -/
def Mbox.answer (m : Mbox) (code : Nat) : Mbox := { m with state := if code = 0 then 2 else 3, code := code }

def State.modMbox (s : State) (f : Mbox → Mbox) : State := { s with mbox := f s.mbox }

/-- MBOX_OPEN (R444). -/
def execMboxOpen (s : State) : Host.Outcome State Fault Refusal :=
  .next (s.modMbox (fun m =>
    if 67108864 < m.arg then m.answer 2 else { m with image := some (m.arg, []) }.answer 0))

/-- MBOX_APPEND (R444). -/
def execMboxAppend (s : State) : Host.Outcome State Fault Refusal :=
  .next (s.modMbox (fun m =>
    match m.image with
    | none => m.answer 1
    | some (n, bs) =>
      if m.arg = 0 || 32768 < m.arg || n < bs.length + m.arg then m.answer 2
      else { m with image := some (n, bs ++ (List.range m.arg).map (fun i => m.window.over i 0)) }.answer 0))

/-- The error code that verification gives an image, 0 for none (R442, R444). -/
def verifyCode (minVersion : List Nat) (n : Nat) (bs : List Byte) : Nat :=
  let f := fun off k => fieldAt bs off k
  let key := (bs.drop 24).take 57
  let body := f 16 8
  if bs.length ≠ n || bs.length < 128 || bs.length ≠ 242 + body then 2
  else if f 0 4 ≠ 0x56474C55 || 3 < f 4 4 || !allZero ((bs.drop 81).take 47) then 3
  else if Config.shake256 key ≠ Config.rootDigest then 4
  else if !Config.ed448Ok key (bs.take (128 + body)) (bs.drop (128 + body)) then 5
  else if f 8 8 < minVersion.getD (f 4 4) 0 then 6
  else 0

/-- The image in verified bytes. -/
def imageOf (bs : List Byte) : Image :=
  { kind := fieldAt bs 4 4, version := fieldAt bs 8 8, body := (bs.drop 128).take (fieldAt bs 16 8), key := (bs.drop 24).take 57,
    sig := bs.drop (128 + fieldAt bs 16 8) }

/-- The bytes of an image (R442). -/
def imageBytes (i : Image) : List Byte :=
  leBytes 0x56474C55 4 ++ leBytes i.kind 4 ++ leBytes i.version 8 ++ leBytes i.body.length 8 ++ padTo i.key 57 ++ zeros 47 ++ i.body
    ++ padTo i.sig 114

/-- Whether an image in the store may run: its key, its signature, its version (R442). -/
def imageGood (minVersion : List Nat) (i : Image) : Bool :=
  verifyCode minVersion (imageBytes i).length (imageBytes i) == 0

/-- An image in place of those of its kind. -/
def putImage (is : List Image) (i : Image) : List Image := i :: is.filter (fun x => x.kind != i.kind)

/-- An image that starts: it runs, and its version is the fused minimum from then on (R442, R461). -/
def State.startImage (s : State) (i : Image) : State :=
  { s with images := putImage s.images i, minVersion := pset 0 s.minVersion i.kind (max i.version (s.minVersion.getD i.kind 0)) }

/-- The log entry of a firmware event (R440). -/
def firmwareLog (sub : Nat) : LogEntry := { kind := 13, unit := 15, sub := sub }

/-! ### Bring-up (R395, R423, R445) -/

/-- Step 3: the memory dies and the context region. -/
def State.bootMemory (s : State) (b : Boot) : State :=
  let ctx := b.ctxDie
  { s with heaps := (List.range 12).map (fun n =>
             { Heap.init n with first := if n = ctx then 2686976 else 65536, count := if n = ctx then 20750524 else 23371964,
                                present := b.present.getD n true, ctx := n == ctx }),
           contextBase := ctx * 2 ^ 37 + 0x10000000 }

/-- The cores with a register-file bank mapped out, each once. -/
def reducedCores (out : List (Nat × Nat)) : List Nat :=
  dedup ((out.filter (fun x => x.1 < Config.cores && x.2 < 8)).map Prod.fst)

/-- Home rows usable on a core: 1,024 less 128 for each bank mapped out (R59). -/
def usableRows (out : List (Nat × Nat)) (core : Nat) : Nat :=
  1024 - 128 * ((List.range 8).filter (fun b => out.contains (core, b))).length

/-- Steps 4 and 5: the register file, with the rows of every core and the count of reduced cores (R59, R60); local stores,
benches and chuck arrays are cleared. -/
def State.bootCores (s : State) (b : Boot) : State :=
  let cs := reducedCores b.bankOut
  { s with rows := (cs.map (usableRows b.bankOut)).foldl min 1024, coresReduced := cs.length, bankOut := b.bankOut, cores := [],
           clusters := [] }

/-- Steps 6 and 7: links, BAR0, management table, ports, power. -/
def State.bootLinks (s : State) (b : Boot) : State :=
  let ports := b.ports.foldl (fun (t : Tbl Port) p => tset t p { Port.init with trained := true, lanes := 8 }) []
  { s with hostLinks := b.links, cxl := b.cxl, mgmt := b.mgmt, ports := ports, coordX := b.coordX, coordY := b.coordY,
           power := { s.power with flux := b.flux, area := b.area, capacity := b.capacity, on := true }, bringUp := 7 }

/-- What failed at step 4 or later, logged; the device goes on without it (R445): cores that lost rows of their register file, host
links and fabric ports that did not train. -/
def State.logFailures (s : State) (b : Boot) : State :=
  let s := if s.coresReduced ≠ 0 then s.log { firmwareLog 0 with unit := 14 } else s
  let s := b.badLinks.foldl (fun s l => s.log { firmwareLog 0 with unit := 12 + l % 2 }) s
  b.badPorts.foldl (fun s p => s.log { kind := 11, unit := 12 + p / 16 % 2 }) s

/-- Recovery (R445): IO0's link, the error log and the mailbox. -/
def State.enterRecovery (s : State) : State := { s with recovery := true, hostLinks := [0], cxl := false }

/-- Whether every image in the store of some kinds may run (R442). -/
def State.storeGood (s : State) (kinds : Nat → Bool) : Bool :=
  s.stored.all (fun (i : Image) => !kinds i.kind || imageGood s.minVersion i)

/-- Steps 2 to 7. -/
def State.bringUpRest (s : State) (b : Boot) : State :=
  if !b.imagesOk || !b.memOk || !s.storeGood (· != 0) then s.enterRecovery
  else
    let s := (s.stored.filter (fun (i : Image) => i.kind != 0)).foldl (fun s i => s.startImage i) s
    (((s.bootMemory b).bootCores b).bootLinks b).logFailures b

/-- Step 1: the stored Uligralvo image, or recovery. -/
def State.bringUpAll (s : State) (b : Boot) : State :=
  if !b.romOk || !s.storeGood (· == 0) then s.enterRecovery
  else ((s.stored.filter (fun (i : Image) => i.kind == 0)).foldl (fun s i => s.startImage i) s).bringUpRest b

/-- COLD_RESET (R445): every register at its reset value, nothing resident, time and intervals from 0; stored images and
fused minima stay. -/
def execColdReset (b : Boot) (s : State) : Host.Outcome State Fault Refusal :=
  let stored := s.stored ++ b.images.filter (fun i => !s.stored.any (fun x => x.kind == i.kind))
  .next ({ State.reset with stored := stored, minVersion := s.minVersion, boot := some b, agenda := s.agenda, fresh := s.fresh,
                            out := s.out, host := s.host }.bringUpAll b)

/-- MBOX_VERIFY_STORE (R442, R444, R445, R461): a good image is stored; a refused one is logged and discarded. In recovery a
good Uligralvo image starts at once, and bring-up goes on. -/
def execMboxVerifyStore (s : State) : Host.Outcome State Fault Refusal :=
  match s.mbox.image with
  | none => .next (s.modMbox (fun m => m.answer 1))
  | some (n, bs) =>
    let code := verifyCode s.minVersion n bs
    let s := s.modMbox (fun m => { m with image := none }.answer code)
    if code ≠ 0 then .next (s.log (firmwareLog code))
    else
      let i := imageOf bs
      let s := if s.recovery && i.kind == 0 then s.startImage i else { s with stored := putImage s.stored i }
      if s.recovery && i.kind == 0 then
        match s.boot with
        | some b => .next ({ s with recovery := false }.bringUpRest b)
        | none => .next { s with recovery := false }
      else .next s

/-- MBOX_DISCARD (R444). -/
def execMboxDiscard (s : State) : Host.Outcome State Fault Refusal :=
  .next (s.modMbox (fun m => if m.image.isNone then m.answer 1 else { m with image := none }.answer 0))

/-! ### Attestation and function-level reset (R400, R443) -/

/-- Whether configuration requests are served: after step 6 of R445, and in recovery. -/
def State.configOn (s : State) : Bool := 6 ≤ s.bringUp || s.recovery

/-- A configuration request for an aligned word (R400, R445): identifiers, revision and class code where PCI Express has them
(PRESUMED, log entry 138). -/
def State.configRead (s : State) (off : Nat) : State :=
  if !s.configOn then s.emit (.configRetry off)
  else s.emit (.config off (match off with
    | 0 => 0x5A091D47
    | 8 => 0x12000000 + Config.stepping % 256
    | _ => Config.configWord off % 2 ^ 32))

/-- DOE_ATTESTATION (R443): a request carries a nonce of 32 bytes. -/
def execDoeAttestation (nonce : List Byte) (s : State) : Host.Outcome State Fault Refusal :=
  if nonce.length ≠ 32 || !s.configOn then .next s
  else
    let is := s.images.map (fun (i : Image) => (i.kind, i.version, Config.shake256 i.body))
    .next (s.emit (.report nonce Config.stepping s.features s.regrows is s.time
      (Config.identitySign nonce Config.stepping s.features s.regrows is s.time) Config.identityCert))

/-- Every queue of the package. -/
def allQueues : List Nat := List.range 128

/-- FUNCTION_LEVEL_RESET (R400): every queue ends with error 17, one that was down already too; memory, mappings, heaps and firmware stay. -/
def execFunctionLevelReset (s : State) : Host.Outcome State Fault Refusal :=
  let s := allQueues.foldl (fun s q => (s.modQueue q (fun x => { x with down := false })).teardown q 17 0) s
  let s := allQueues.foldl (fun s q => s.modQueue q (fun x => { x with enable := false, unanswered := [], backlog := [] })) s
  .next { s with surveyOn := false, sampleOn := false, traceOn := false,
                 power := { s.power with pending := s.power.pending ++ [(0x38, 8,
                   s.power.written.readReg s.heaps 0 0x38 - (if s.power.written.enable then 2 ^ 16 else 0))] } }

/-! ### Register writes and reads (R397, R439, R444) -/

/-- A write to the error log's registers and the mailbox. -/
def State.writeLog (s : State) (off size v : Nat) : State :=
  let base := off / 8 * 8
  let w := overlay64 (s.readLog base) off size v
  match base with
  | 0x50000 => { s with errlog := s.errlog.setBase w }
  | 0x50010 => { s with errlog := { s.errlog with tail := w % 2 ^ 32 } }
  | 0x51008 => s.modMbox (fun m => { m with arg := w })
  | 0x51000 =>
    if off % 8 = 0 then
      match v % 256 with
      | 1 => stateOr s (execMboxOpen s)
      | 2 => stateOr s (execMboxAppend s)
      | 3 => stateOr s (execMboxVerifyStore s)
      | 4 => stateOr s (execMboxDiscard s)
      | _ => s
    else s
  | _ => if 0x58000 ≤ off && off + size ≤ 0x60000 then s.writeWindow off size v else s

/-- The first sample of a core once sampling is enabled (R451). -/
def seedSample (seed core cycle j : Nat) (c : Core) : Core :=
  let x : Word := BitVec.ofNat 32 (seed ^^^ core)
  let y := lfsrStep (if x = 0 then 1 else x)
  { c with lfsr := y, nextSample := cycle + 2 ^ (j - 1) + y.toNat % 2 ^ j }

/-- Sampling begins: every core's LFSR is seeded. -/
def State.beginSampling (s : State) : State :=
  (List.range Config.cores).foldl (fun s c => s.modCore c (seedSample s.sampleSeed c s.cycle s.sampleJ)) s

/-- Tracing begins: the offsets start behind the header of each region (R453). -/
def State.beginTrace (s : State) : State :=
  (List.range Config.cores).foldl (fun s c => s.modCore c (fun k =>
    { k with traceOff := 64, traceLost := 0, traceLast := s.cycle, traced := [], traceLossy := false, staging := [], traceBegun := false, tracePend := [] })) s

/-- A write of a form that R397 serves. -/
def writeForm (off size : Nat) : Bool :=
  if 0x58000 ≤ off && off < 0x60000 then 4 ≤ size && size ≤ 512 && off + size ≤ 0x60000
  else (size == 4 || size == 8) && off % size == 0 && off < 0x800000

/-- A register write (R397, R398, R423). -/
def State.writeReg (s : State) (off size v : Nat) : State :=
  if !writeForm off size then s.log (discardLog off)
  else if 0x50000 ≤ off && off < 0x60000 then (if s.recovery || s.barOn then s.writeLog off size v else s)
  else if !s.barOn then s
  else if off < 0x1000 then s.writeLow off size v
  else if 0x10000 ≤ off && off < 0x12000 then s.writeQueue ((off - 0x10000) / 64) (off % 64) size v
  else if 0x20000 ≤ off && off < 0x20800 then s.writePort ((off - 0x20000) / 64) (off % 64) size v
  else if 0x30000 ≤ off && off < 0x40000 then s.writeMsix off size v
  else if 0x40000 ≤ off && off < 0x50000 then
    { s with power := { s.power with pending := s.power.pending ++ [(off - 0x40000, size, v)] } }
  else if 0x60000 ≤ off && off < 0x70000 then
    let t := s.writeDebug (off - 0x60000) size v
    let t := if t.sampleOn && !s.sampleOn then t.beginSampling else t
    if t.traceOn && !s.traceOn then t.beginTrace else t
  else s

/-- REGISTER_WRITE (R397): a write of the host or the firmware, in its order of arrival. -/
def execRegisterWrite (off size val : Nat) (s : State) : Host.Outcome State Fault Refusal := .next (s.writeReg off size val)

/-- A register read (R397): 4 or 8 bytes, naturally aligned, or the window. -/
def State.readMmio (s : State) (off size : Nat) : State :=
  if 0x800000 ≤ off then stateOr s (execMemwinRead (off - 0x800000) size s)
  else if (s.barOn || s.recovery) && !((size == 4 || size == 8) && off % size == 0) && 0x58000 ≤ off && 4 ≤ size && size ≤ 512 && off + size ≤ 0x60000 then
    s.emit (.bytes ((List.range size).map (fun i => s.mbox.window.over (off - 0x58000 + i) 0)) false)
  else if !(s.barOn || s.recovery) || !((size == 4 || size == 8) && off % size == 0) then s.emit .unsupported
  else
    let w := s.readReg (off / 8 * 8)
    s.emit (.value (if size = 8 then w else if off % 8 = 4 then w / 2 ^ 32 else w % 2 ^ 32))

/-- A write that arrives at BAR0: a register, or the window. -/
def State.writeMmio (s : State) (off size v : Nat) : State :=
  if 0x800000 ≤ off then stateOr s (execMemwinWrite (off - 0x800000) (leBytes v size) s) else s.writeReg off size v

/-! ### Errors pinned to no crew (R438) -/

/-- An uncorrectable error pinned to an address space, or to none: the device then accepts no command until a cold reset. -/
def State.spaceError (s : State) (asp : Option Nat) : State :=
  match asp with
  | some a => allQueues.foldl (fun s q => if (s.queue q).aspace = a then s.teardown q 14 0 else s) s
  | none =>
    let s := allQueues.foldl (fun s q => s.teardown q 14 0) s
    { s with fatal := true }.log { kind := 14, unit := 15 }

end Sys2Proof.Machine
end

