-- ==== Sys2Proof/Machine/Debug.lean ====
section
/-! DEFINITION. Survey records, samples and the trace stream (R446 to R453). -/

namespace Sys2Proof.Machine

/-! ### Rings of records (R446, R448) -/

/-- Bytes of a survey or sample ring. -/
def Ring.bytes (r : Ring) : Nat := 2 ^ (r.size + 16)

/-- Whether n more bytes would not overtake the tail. -/
def Ring.fits (r : Ring) (n : Nat) : Bool := (r.head + r.bytes - r.tail % r.bytes) % r.bytes + n < r.bytes

/-- Records written from the head on, 64 bytes at a time around the ring's end. -/
def State.ringWrite (s : State) (base size : Nat) : Nat → List Byte → Nat → State
  | _, _, 0 => s
  | off, bs, n + 1 =>
    (s.perform (base + off % size) (bs.take 64)).ringWrite base size ((off + 64) % size) (bs.drop 64) n

/-! ### Survey (R450) -/

/-- A record: header and body padded to 64 bytes. -/
def surveyRecord (s : State) (unit die : Nat) (lost : Bool) (body : List Nat) : List Byte :=
  let bytes := (body.map (fun w => leBytes (min w 0xFFFFFFFF) 4)).flatten
  padTo (leBytes (1 + 2 ^ 8 * unit + 2 ^ 12 * die + (if lost then 2 ^ 15 else 0) + 2 ^ 16 * bytes.length
      + 2 ^ 32 * s.surveyK) 8 ++ leBytes (s.cycle / 2 ^ s.surveyK) 8 ++ leBytes s.time 8) 64
    ++ padTo bytes ((bytes.length + 63) / 64 * 64)

/-- A counter kept by the model. -/
def State.counter (s : State) (unit word : Nat) : Nat := tget s.counters (unit * 4096 + word) 0

/-- A counter that the model does not keep: a free value. What the L2 of a die hits, misses, reads and writes at memory, and the stalls
of refresh, are below the architecture (R107, R429). -/
def State.openCounter (s : State) (unit word : Nat) : Nat := Config.surveyFree s.surveyLast (unit * 4096 + word)

/-- The package's words. -/
def State.packageWords (s : State) : List Nat :=
  let p := s.power
  [p.grant, p.kinds.sum / 16, p.charge] ++ p.kinds.map (· / 16) ++ [s.counter 48 7]

/-- A memory die's words. -/
def State.memoryWords (s : State) (n : Nat) : List Nat :=
  (List.range 3).map (fun k => s.openCounter (16 + n) k) ++ [s.counter (16 + n) 3, s.counter (16 + n) 4, s.counter (16 + n) 5] ++
    (match s.heaps[n]? with
      | some h => [h.temp, if h.double then 1 else 0]
      | none => [0, 0])

/-- An I/O die's words. The flits that carry collective data or come in for the collective engines are a free number (R409 gives
them no layout); without such traffic there are none. -/
def State.ioWords (s : State) (n : Nat) : List Nat :=
  let free := fun k => if s.counter 48 8 = 0 then 0 else s.openCounter (32 + n) k
  (List.range 32).map (fun k => s.counter (32 + n) k + free k) ++ [s.counter (32 + n) 32 / 64, s.counter (32 + n) 33]

/-- A compute die's words. -/
def State.dieWords (s : State) (d : Nat) : List Nat :=
  ((List.range 64).map (fun c => (List.range 8).map (fun k =>
      if k = 5 then s.counter d (8 * c + 5) / 16 else s.counter d (8 * c + k)))).flatten
    ++ ((List.range 16).map (fun c => (List.range 8).map (fun k =>
        if k = 7 then 0 else if k = 3 then s.counter d (512 + 8 * c + 3) / 64 else s.counter d (512 + 8 * c + k)))).flatten
    ++ (List.range 8).map (fun k => if k < 2 then s.openCounter d (640 + k)
        else if k = 4 then s.counter d 644 / 64 else s.counter d (640 + k))

/-- The records of a tick in their order. -/
def State.tickRecords (s : State) : List Byte :=
  surveyRecord s 15 0 s.surveyLostMark s.packageWords
    ++ ((List.range 12).map (fun n => surveyRecord s n 0 false (s.memoryWords n))).flatten
    ++ ((List.range 2).map (fun n => surveyRecord s (12 + n) 0 false (s.ioWords n))).flatten
    ++ ((List.range 8).map (fun d => surveyRecord s 14 d false (s.dieWords d))).flatten

/-- The tick: records written, or the tick dropped and counted. -/
def State.surveyTick (s : State) : State :=
  let bs := s.tickRecords
  let r := s.survey
  if r.fits bs.length then
    let s := s.ringWrite r.base r.bytes r.head bs (bs.length / 64)
    { s with survey := { r with head := (r.head + bs.length) % r.bytes }, surveyLostMark := false }
  else { s with survey := { r with lost := min (r.lost + 1) 0xFFFFFFFF }, surveyLostMark := true }

/-- SURVEY_TICK (R450): at each multiple of 2^k cycles every counter latches. -/
def execSurveyTick (s : State) : Host.Outcome State Fault Refusal :=
  whenEnabled (s.cycle % 2 ^ s.surveyK == 0 && s.surveyLast != s.cycle) (fun s =>
    let s := if s.surveyOn then s.surveyTick else s
    { s with counters := [], surveyLast := s.cycle, power := { s.power with kinds := [0, 0, 0, 0] } }) s

/-! ### Task names (R449) -/

/-- The 16 bytes of a group's task name. -/
def State.taskName (s : State) (core frame : Nat) (g : Group) : List Byte :=
  let l := s.launchOf g
  leBytes (l.elim 0 Launch.seq) 8 ++ leBytes (l.elim 0 Launch.queue + 2 ^ 16 * core + 2 ^ 25 * frame) 8

/-- The PC of a group's next instruction. -/
def nextPc (g : Group) : Nat :=
  match pickGang g with
  | some i => (g.ctx.slices[i]?.map Slice.pc).getD 0
  | none => ((g.ctx.slices.find? (fun x => !x.fin)).map Slice.pc).getD 0

/-! ### Samples (R451, R452) -/

/-- Whether a group's launch is sampled. -/
def State.sampled (s : State) (g : Group) : Bool := (s.launchOf g).any (fun l => l.flags.testBit 4)

/-- Why a group that holds a slot did not issue in this cycle (R452). -/
def State.blockReason (s : State) (core frame : Nat) (g : Group) : Nat :=
  let c := s.core core
  if s.swapping core then 12
  else if g.inHandler then 11
  else match g.status with
    | .ready =>
      if c.short.contains frame then (if (s.holder core).any (· != frame) then 2 else 1)
      else if c.walking.contains frame then 4
      else if (s.heldOn core frame g).isSome then 3
      else if c.ports.contains (portOf g.place) then 6
      else 5
    | .waiting => match g.wait with
      | .counters _ _ _ _ => 7
      | .batch _ => 7
      | _ => 8
    | .sleeping => 9
    | .parkedPages => 10
    | .parked => 11
    | _ => 13

/-- The survey's counts of a cycle of a core: a group that waited only for tokens, one held by the interlock, and the groups in
the waiting state (R450). -/
def State.countWaits (s : State) (core : Nat) : State :=
  let rs := (s.activeOn core).map (fun h => s.blockReason core h.2.1 h.2.2)
  let n := ((s.groupsOn core).filter (fun h => h.2.status == .waiting)).length
  let s := if rs.contains 1 then s.countCore core 2 1 else s
  let s := if rs.contains 3 then s.countCore core 4 1 else s
  if n = 0 then s else s.countCore core 5 n

/-- The copies and drains of a cluster that a reader guard holds (R291, R450). -/
def State.guardHolds (s : State) (cl : Nat) : Nat :=
  let k := s.cluster cl
  (k.copies.filter (fun o => o.started && s.copyHeld cl o)).length + (k.drains.filter (s.drainHeld cl)).length

/-- The survey's counts of a cycle of a cluster: a pass, a scan, a full reservation table, what reader guards hold (R450). -/
def State.countPasses (s : State) (cl : Nat) : State :=
  let k := s.cluster cl
  let n := s.guardHolds cl
  let s := match k.pass with
    | some p => s.countCluster cl (if p.scan then 1 else 0) 1
    | none => s
  let s := if 64 ≤ k.table.length then s.countCluster cl 4 1 else s
  if n = 0 then s else s.countCluster cl 6 n

/-- Whether group a comes before group b in the order of R374, reasons 1 to 6 first. -/
def State.blockBefore (s : State) (a b : Nat × Nat × Group) : Bool :=
  let late := fun (r : Nat) => if r ≤ 6 then 0 else 1
  let x := late a.1
  let y := late b.1
  x < y || (x == y && (s.prioOf b.2.2 < s.prioOf a.2.2 ||
    (s.prioOf a.2.2 == s.prioOf b.2.2 && s.ageOf a.2.2 < s.ageOf b.2.2)))

/-- The 128 bytes of a sample. -/
def State.sampleBytes (s : State) (core port : Nat) (issued : Option ((Nat × Nat) × Nat × Group)) (blocked : Option (Nat × Nat × Group)) :
    List Byte :=
  let flags := (if issued.isSome then 1 else 0) + (if blocked.isSome then 2 else 0)
  let reason := blocked.elim 0 (fun b => b.1)
  let who := issued.map Prod.snd
  let other := blocked.map Prod.snd
  let name := fun (o : Option (Nat × Group)) => o.elim (zeros 16) (fun x => s.taskName core x.1 x.2)
  let wid := fun (o : Option (Nat × Group)) => leBytes (o.elim 0 (fun x => x.2.wid.toNat)) 8
  padTo ([2, BitVec.ofNat 8 flags, BitVec.ofNat 8 reason, BitVec.ofNat 8 port] ++ leBytes core 4 ++ leBytes s.time 8
    ++ name who ++ leBytes (issued.elim 0 (fun x => x.1.1)) 8 ++ leBytes (issued.elim 0 (fun x => x.1.2)) 4 ++ zeros 4
    ++ name other ++ leBytes (other.elim 0 (fun x => nextPc x.2)) 8 ++ wid who ++ wid other) 128

/-- A sample of a core's port: taken when the port's slots hold a sampled group. -/
def State.takeSample (s : State) (core port : Nat) : State :=
  let held := (s.activeOn core).filter (fun h => portOf h.2.2.place == port && s.sampled h.2.2)
  if held.isEmpty then s
  else
    let issued := ((s.core core).issued.find? (fun i => i.1 == port && held.any (fun h => h.2.1 == i.2.1))).bind (fun i =>
      (s.group core i.2.1).map (fun g => (i.2.2, i.2.1, g)))
    let others := (held.filter (fun h => !issued.any (fun i => i.2.1 == h.2.1))).map (fun h =>
      (s.blockReason core h.2.1 h.2.2, h.2.1, h.2.2))
    let blocked := others.foldl (fun (b : Option (Nat × Nat × Group)) x => match b with
      | some y => if s.blockBefore x y then some x else some y
      | none => some x) none
    let r := s.sample
    if r.fits 128 then
      let s := s.ringWrite r.base r.bytes r.head (s.sampleBytes core port issued blocked) 2
      { s with sample := { r with head := (r.head + 128) % r.bytes } }
    else { s with sample := { r with lost := min (r.lost + 1) 0xFFFFFFFF } }

/-- SAMPLE (R451, R452): in the core's scheduled cycle, once its offers and walks are over and it is known what issued and what did
not; then the LFSR steps and sets the next. -/
def execSample (core : Nat) (s : State) : Host.Outcome State Fault Refusal :=
  whenEnabled (s.sampleOn && (s.core core).nextSample ≤ s.cycle && s.offersOver core && !s.walkDue core) (fun s =>
    let x := (s.core core).lfsr
    let s := s.takeSample core (x.toNat / 2 ^ 30)
    let y := lfsrStep x
    s.modCore core (fun c =>
      { c with lfsr := y, nextSample := s.cycle + 2 ^ (s.sampleJ - 1) + y.toNat % 2 ^ s.sampleJ })) s

/-! ### Trace (R453) -/

/-- Whether a group is traced. -/
def State.tracedGroup (s : State) (g : Group) : Bool := s.traceOn && (s.launchOf g).any (fun l => l.flags.testBit 3)

/-- Address of a core's trace region. -/
def State.traceRegion (s : State) (core : Nat) : Nat := s.traceBase + 2 ^ s.traceSize * core

/-- Staged bytes moved into the region while there is room: offsets run from 64 to the region's end (log entry 33). The rest of the
header is 0. -/
def State.traceDrain (s : State) (core : Nat) : State :=
  let c := s.core core
  let a := s.traceRegion core
  let n := 2 ^ s.traceSize - 64
  let w := c.traceOff - 64
  let r := ofLe (s.readMem (a + 8) 8) - 64
  let room := (r + n - w - 1) % n
  let k := min room c.staging.length
  let bs := c.staging.take k
  let first := bs.take (n - w)
  let s := (s.perform (a + 64 + w) first).perform (a + 64) (bs.drop first.length)
  let off := 64 + (w + k) % n
  let s := (s.perform a (leBytes off 8)).perform (a + 16) (zeros 48)
  s.modCore core (fun c => { c with traceOff := off, staging := c.staging.drop k })

/-- The header of a packet with its long dt. -/
def packetHead (ty slot slice dt : Nat) : List Byte :=
  leBytes (ty + 2 ^ 4 * slot + 2 ^ 8 * slice + 2 ^ 11 * min dt 31) 2 ++ (if 31 ≤ dt then leBytes dt 4 else [])

/-- A packet staged behind the others, the first of a stream with dt 0; none where the staging lacks room for it. -/
def State.stage (s : State) (core ty slot slice : Nat) (payload : List Byte) : Option State :=
  let c := s.core core
  let bs := packetHead ty slot slice (if c.traceBegun then s.cycle - c.traceLast else 0) ++ payload
  if 4096 < c.staging.length + bs.length then none
  else some (s.modCore core (fun c => { c with staging := c.staging ++ bs, traceLast := s.cycle, traceBegun := true }))

/-- A packet dropped and counted: every gang then needs a SYNC. -/
def State.dropPacket (s : State) (core : Nat) : State :=
  s.modCore core (fun c => { c with traceLost := c.traceLost + 1, traced := [], traceLossy := true })

/-- The LOSS packet that comes before the next one once packets have been dropped. -/
def State.stageLoss (s : State) (core : Nat) : Option State :=
  let c := s.core core
  if c.traceLost = 0 then some s
  else (s.stage core 6 0 0 (leBytes c.traceLost 4)).map (fun s => s.modCore core (fun c => { c with traceLost := 0 }))

/-- The slot nibble of a group. -/
def slotNumber : Place → Nat
  | .active k => k
  | .shadow k => k
  | .frame => 0

/-- The payload of a SYNC. -/
def State.syncBytes (s : State) (core frame : Nat) (g : Group) (gang : Nat) : List Byte :=
  let is := gangOf g.ctx.slices gang
  let x := g.ctx.slices[gang]?
  leBytes s.cycle 8 ++ leBytes s.time 8 ++ s.taskName core frame g ++ leBytes g.wid.toNat 8
    ++ leBytes ((x.map Slice.pc).getD 0) 8 ++ leBytes (gangLanes g.ctx.slices is).toNat 4 ++ leBytes (bitSet is) 1
    ++ leBytes ((x.map (fun y => y.stack.length)).getD 0) 1 ++ zeros 2

/-- Whether the next packet of a gang of a group needs a SYNC before it. -/
def State.syncDue (s : State) (core key gang : Nat) : Bool :=
  let c := s.core core
  match c.traced.find? (fun t => t.1 == key && t.2.1 == gang) with
  | some t => 65536 ≤ s.cycle - t.2.2
  | none => c.traceLossy || !c.traced.any (fun t => t.1 == key)

/-- The SYNC that a packet's gang needs, staged; none where there is no room for it. -/
def State.stageSync (s : State) (core : Nat) (p : Pending) : Option State :=
  if s.syncDue core p.key p.slice then
    (s.stage core 7 p.slot p.slice p.sync).map (fun s => s.modCore core (fun c =>
      { c with traced := (p.key, p.slice, s.cycle) :: c.traced.filter (fun t => !(t.1 == p.key && t.2.1 == p.slice)) }))
  else some s

/-- A packet staged behind the LOSS and the SYNC that must come before it, or dropped; one of type 7 is its SYNC alone. -/
def State.stagePending (s : State) (core : Nat) (p : Pending) : State :=
  match s.stageLoss core with
  | none => s.dropPacket core
  | some s =>
    match s.stageSync core p with
    | none => s.dropPacket core
    | some s => if p.ty = 7 then s else (s.stage core p.ty p.slot p.slice p.payload).getD (s.dropPacket core)

/-- The packets of a core's cycle staged in ascending port order, those of one port as they came. -/
def State.stageCycle (s : State) (core : Nat) : State :=
  let ps := (s.core core).tracePend
  if ps.isEmpty then s
  else
    let order := ((List.range 4).map (fun k => ps.filter (fun p => p.port == k))).flatten
    order.foldl (fun s p => s.stagePending core p) (s.modCore core (fun c => { c with tracePend := [] }))

/-- A packet of a gang, to be staged at the end of the cycle. -/
def State.packet (s : State) (core frame : Nat) (g : Group) (gang ty : Nat) (payload : List Byte) : State :=
  let p : Pending := { port := portOf g.place, ty := ty, slot := slotNumber g.place, slice := gang, payload := payload,
                       key := planKey g, sync := s.syncBytes core frame g gang }
  s.modCore core (fun c => { c with tracePend := c.tracePend ++ [p] })

/-- The packet of an issued control-flow word: type and payload. -/
def flowPacket (x : Iss) : Instr → Option (Nat × List Byte)
  | .br c m _ | .call c m _ =>
    let t := takenLanes c x.act (x.maskReg m)
    if c = .always then none
    else if t = x.act then some (1, [])
    else if t = 0 then some (2, [])
    else some (3, leBytes t.toNat 4)
  | .jmp a | .calli _ a | .ret a =>
    let tgt := fun l => (x.g.ctx.lane64 a l).toNat
    let ts := targetsOf tgt (lanesOf x.act)
    some (4, leBytes ts.length 1 ++ (ts.map (fun t =>
      leBytes (maskOf (fun l => hasLane x.act l && tgt l == t)).toNat 4 ++ leBytes t 8)).flatten)
  | .exit => some (5, [0])
  | _ => none

/-- The events that a group's change shows, by their codes. -/
def groupEvents (a : Group) (b : Group) : List Nat :=
  let trap := !a.inHandler && b.inHandler
  let parked := a.status != .parked && b.status == .parked
  let resume := a.handler.isSome && b.handler.isNone
  let isActive := fun (p : Place) => match p with
    | .active _ => true
    | _ => false
  (if trap then [1] else []) ++ (if resume then [2] else []) ++ (if parked then [3] else [])
  ++ (if isActive a.place && !isActive b.place then [4] else []) ++ (if !isActive a.place && isActive b.place then [5] else [])
  ++ (if a.tx.isSome && b.tx.isNone then
        (if b.status == .sleeping then [9]
         else if b.ctx.txstat.toNat % 16 == 0 then [6]
         else if b.ctx.txstat.getLsbD 4 then [8] else [7]) else [])
  ++ (if a.status == .sleeping && b.status == .ready then [10] else [])

/-- The event packets of every traced group that a step has changed. -/
def State.traceEvents (before after : State) : State :=
  before.groups.foldl (fun (s : State) (p : Nat × Group) =>
    match tfind s.groups p.1 with
    | some b =>
      if b.crew = p.2.crew && s.tracedGroup b then
        (groupEvents p.2 b).foldl (fun s e => s.packet (p.1 / 32) (p.1 % 32) b (min b.lastGang 7) 5 [BitVec.ofNat 8 e]) s
      else s
    | none => s) after

/-- The trace of one step: the packet of an issued word, then events. -/
def traceStep (before after : State) (ran : Option (Cur × Instr)) : State :=
  if !before.traceOn then after
  else
    let s := match ran with
      | none => after
      | some (c, i) =>
        match before.group c.core c.frame with
        | none => after
        | some g =>
          let went := (before.core c.core).issued.length < (after.core c.core).issued.length
          if !before.tracedGroup g || !went then after
          else
            let gang := c.slices.headD 0
            let k := after.core c.core
            let first := !k.traceLossy && !k.traced.any (fun t => t.1 == planKey g)
            let txelse := i == .txr && (after.group c.core c.frame).any (fun b => b.tx.isSome)
            match flowPacket (before.issOf c g) i with
            | some (ty, bs) => after.packet c.core c.frame g gang ty bs
            | none =>
              if txelse then after.packet c.core c.frame g gang 5 [11]
              else if first then after.packet c.core c.frame g gang 7 [] else after
    State.traceEvents before s

end Sys2Proof.Machine
end

