-- ==== Sys2Proof/Machine/Dispatch.lean ====
section
/-! DEFINITION. Dispatch: one arm for each constructor of `Instr`, a direct call of its meaning. -/

namespace Sys2Proof.Machine

def exec (i : Instr) (s : State) : Host.Outcome State Fault Refusal :=
  match i with
  | .iadd d a b m => Sys2Proof.Machine.execIadd d a b m s
  | .isub d a b m => Sys2Proof.Machine.execIsub d a b m s
  | .imulLo d a b m => Sys2Proof.Machine.execImulLo d a b m s
  | .imulHiS32 d a b m => Sys2Proof.Machine.execImulHiS32 d a b m s
  | .imulHiN32 d a b m => Sys2Proof.Machine.execImulHiN32 d a b m s
  | .iminS32 d a b m => Sys2Proof.Machine.execIminS32 d a b m s
  | .iminN32 d a b m => Sys2Proof.Machine.execIminN32 d a b m s
  | .imaxS32 d a b m => Sys2Proof.Machine.execImaxS32 d a b m s
  | .imaxN32 d a b m => Sys2Proof.Machine.execImaxN32 d a b m s
  | .iabsS32 d a m => Sys2Proof.Machine.execIabsS32 d a m s
  | .ineg d a m => Sys2Proof.Machine.execIneg d a m s
  | .idivS32 d a b m => Sys2Proof.Machine.execIdivS32 d a b m s
  | .idivN32 d a b m => Sys2Proof.Machine.execIdivN32 d a b m s
  | .iremS32 d a b m => Sys2Proof.Machine.execIremS32 d a b m s
  | .iremN32 d a b m => Sys2Proof.Machine.execIremN32 d a b m s
  | .iaddSatS32 d a b m => Sys2Proof.Machine.execIaddSatS32 d a b m s
  | .iaddSatN32 d a b m => Sys2Proof.Machine.execIaddSatN32 d a b m s
  | .isubSatS32 d a b m => Sys2Proof.Machine.execIsubSatS32 d a b m s
  | .isubSatN32 d a b m => Sys2Proof.Machine.execIsubSatN32 d a b m s
  | .iadd64 d a b m => Sys2Proof.Machine.execIadd64 d a b m s
  | .isub64 d a b m => Sys2Proof.Machine.execIsub64 d a b m s
  | .imulLo64 d a b m => Sys2Proof.Machine.execImulLo64 d a b m s
  | .imulWideS32 d a b m => Sys2Proof.Machine.execImulWideS32 d a b m s
  | .imulWideN32 d a b m => Sys2Proof.Machine.execImulWideN32 d a b m s
  | .iminS64 d a b m => Sys2Proof.Machine.execIminS64 d a b m s
  | .iminN64 d a b m => Sys2Proof.Machine.execIminN64 d a b m s
  | .imaxS64 d a b m => Sys2Proof.Machine.execImaxS64 d a b m s
  | .imaxN64 d a b m => Sys2Proof.Machine.execImaxN64 d a b m s
  | .mov d m xi => Sys2Proof.Machine.execMov d m xi s
  | .iaddImm d a m xi => Sys2Proof.Machine.execIaddImm d a m xi s
  | .imulLoImm d a m xi => Sys2Proof.Machine.execImulLoImm d a m xi s
  | .andImm d a m xi => Sys2Proof.Machine.execAndImm d a m xi s
  | .orImm d a m xi => Sys2Proof.Machine.execOrImm d a m xi s
  | .xorImm d a m xi => Sys2Proof.Machine.execXorImm d a m xi s
  | .shlImm d a m c => Sys2Proof.Machine.execShlImm d a m c s
  | .shrNImm d a m c => Sys2Proof.Machine.execShrNImm d a m c s
  | .shrSImm d a m c => Sys2Proof.Machine.execShrSImm d a m c s
  | .rotlImm d a m c => Sys2Proof.Machine.execRotlImm d a m c s
  | .bfeNImm d a m w p => Sys2Proof.Machine.execBfeNImm d a m w p s
  | .bfeSImm d a m w p => Sys2Proof.Machine.execBfeSImm d a m w p s
  | .bfi d a m w p => Sys2Proof.Machine.execBfi d a m w p s
  | .imad d a b c m => Sys2Proof.Machine.execImad d a b c m s
  | .and_ d a b m => Sys2Proof.Machine.execAnd d a b m s
  | .or_ d a b m => Sys2Proof.Machine.execOr d a b m s
  | .xor_ d a b m => Sys2Proof.Machine.execXor d a b m s
  | .andn d a b m => Sys2Proof.Machine.execAndn d a b m s
  | .orn d a b m => Sys2Proof.Machine.execOrn d a b m s
  | .not_ d a m => Sys2Proof.Machine.execNot d a m s
  | .shl d a b m => Sys2Proof.Machine.execShl d a b m s
  | .shrN d a b m => Sys2Proof.Machine.execShrN d a b m s
  | .shrS d a b m => Sys2Proof.Machine.execShrS d a b m s
  | .rotl d a b m => Sys2Proof.Machine.execRotl d a b m s
  | .popc d a m => Sys2Proof.Machine.execPopc d a m s
  | .clz d a m => Sys2Proof.Machine.execClz d a m s
  | .ctz d a m => Sys2Proof.Machine.execCtz d a m s
  | .brev d a m => Sys2Proof.Machine.execBrev d a m s
  | .bfeN d a b m => Sys2Proof.Machine.execBfeN d a b m s
  | .bfeS d a b m => Sys2Proof.Machine.execBfeS d a b m s
  | .shl64 d a b m => Sys2Proof.Machine.execShl64 d a b m s
  | .shrN64 d a b m => Sys2Proof.Machine.execShrN64 d a b m s
  | .shrS64 d a b m => Sys2Proof.Machine.execShrS64 d a b m s
  | .popc64 d a m => Sys2Proof.Machine.execPopc64 d a m s
  | .clz64 d a m => Sys2Proof.Machine.execClz64 d a m s
  | .icmp d a b t c => Sys2Proof.Machine.execIcmp d a b t c s
  | .sel d a b c m => Sys2Proof.Machine.execSel d a b c m s
  | .mand d a b => Sys2Proof.Machine.execMand d a b s
  | .mor d a b => Sys2Proof.Machine.execMor d a b s
  | .mxor d a b => Sys2Proof.Machine.execMxor d a b s
  | .mandn d a b => Sys2Proof.Machine.execMandn d a b s
  | .mnot d a => Sys2Proof.Machine.execMnot d a s
  | .mmov d a => Sys2Proof.Machine.execMmov d a s
  | .mpop d a => Sys2Proof.Machine.execMpop d a s
  | .mfirst d a => Sys2Proof.Machine.execMfirst d a s
  | .mtov d a => Sys2Proof.Machine.execMtov d a s
  | .vtom d a => Sys2Proof.Machine.execVtom d a s
  | .br c m o => Sys2Proof.Machine.execBr c m o s
  | .call c m o => Sys2Proof.Machine.execCall c m o s
  | .join => Sys2Proof.Machine.execJoin s
  | .jmp a => Sys2Proof.Machine.execJmp a s
  | .calli d a => Sys2Proof.Machine.execCalli d a s
  | .ret a => Sys2Proof.Machine.execRet a s
  | .regang xs => Sys2Proof.Machine.execRegang xs s
  | .fadd d a b m f => Sys2Proof.Machine.execFadd d a b m f s
  | .fsub d a b m f => Sys2Proof.Machine.execFsub d a b m f s
  | .fmul d a b m f => Sys2Proof.Machine.execFmul d a b m f s
  | .fdiv d a b m f => Sys2Proof.Machine.execFdiv d a b m f s
  | .fmin d a b m f => Sys2Proof.Machine.execFmin d a b m f s
  | .fmax d a b m f => Sys2Proof.Machine.execFmax d a b m f s
  | .fcopysign d a b m f => Sys2Proof.Machine.execFcopysign d a b m f s
  | .fneg d a m f => Sys2Proof.Machine.execFneg d a m f s
  | .fabs d a m f => Sys2Proof.Machine.execFabs d a m f s
  | .fsqrt d a m f => Sys2Proof.Machine.execFsqrt d a m f s
  | .frcp d a m f => Sys2Proof.Machine.execFrcp d a m f s
  | .frsq d a m f => Sys2Proof.Machine.execFrsq d a m f s
  | .fexp2 d a m f => Sys2Proof.Machine.execFexp2 d a m f s
  | .flog2 d a m f => Sys2Proof.Machine.execFlog2 d a m f s
  | .fsin d a m f => Sys2Proof.Machine.execFsin d a m f s
  | .fcos d a m f => Sys2Proof.Machine.execFcos d a m f s
  | .ftanh d a m f => Sys2Proof.Machine.execFtanh d a m f s
  | .fsigm d a m f => Sys2Proof.Machine.execFsigm d a m f s
  | .ffloor d a m f => Sys2Proof.Machine.execFfloor d a m f s
  | .fceil d a m f => Sys2Proof.Machine.execFceil d a m f s
  | .ftrunc d a m f => Sys2Proof.Machine.execFtrunc d a m f s
  | .frint d a m f => Sys2Proof.Machine.execFrint d a m f s
  | .ffmaF32 d a b c m => Sys2Proof.Machine.execFfmaF32 d a b c m s
  | .ffmaF16x2 d a b c m => Sys2Proof.Machine.execFfmaF16x2 d a b c m s
  | .ffmaBf16x2 d a b c m => Sys2Proof.Machine.execFfmaBf16x2 d a b c m s
  | .fcmp d a b t c => Sys2Proof.Machine.execFcmp d a b t c s
  | .cvt v a xs m t d => Sys2Proof.Machine.execCvt v a xs m t d s
  | .cvtBlk v a xs m t d => Sys2Proof.Machine.execCvtBlk v a xs m t d s
  | .tag d a m xi f => Sys2Proof.Machine.execTag d a m xi f s
  | .ballot d a => Sys2Proof.Machine.execBallot d a s
  | .bcast d a b m => Sys2Proof.Machine.execBcast d a b m s
  | .xchg d a b m => Sys2Proof.Machine.execXchg d a b m s
  | .shfl d a b c m => Sys2Proof.Machine.execShfl d a b c m s
  | .scan d a m c => Sys2Proof.Machine.execScan d a m c s
  | .scanx d a m c => Sys2Proof.Machine.execScanx d a m c s
  | .xir a m => Sys2Proof.Machine.execXir a m s
  | .ldG d a m z c o => Sys2Proof.Machine.execLdG d a m z c o s
  | .stG d a m z c o => Sys2Proof.Machine.execStG d a m z c o s
  | .ldL d a m z o => Sys2Proof.Machine.execLdL d a m z o s
  | .stL d a m z o => Sys2Proof.Machine.execStL d a m z o s
  | .lkld d a m z o => Sys2Proof.Machine.execLkld d a m z o s
  | .stul d a m z o => Sys2Proof.Machine.execStul d a m z o s
  | .tlook d a m => Sys2Proof.Machine.execTlook d a m s
  | .tset a b m => Sys2Proof.Machine.execTset a b m s
  | .rgnOpen a d => Sys2Proof.Machine.execRgnOpen a d s
  | .rgnClose d => Sys2Proof.Machine.execRgnClose d s
  | .atomAdd d a b xs u t => Sys2Proof.Machine.execAtomAdd d a b xs u t s
  | .atomMin d a b xs u t => Sys2Proof.Machine.execAtomMin d a b xs u t s
  | .atomMax d a b xs u t => Sys2Proof.Machine.execAtomMax d a b xs u t s
  | .atomAnd d a b xs u => Sys2Proof.Machine.execAtomAnd d a b xs u s
  | .atomOr d a b xs u => Sys2Proof.Machine.execAtomOr d a b xs u s
  | .atomXor d a b xs u => Sys2Proof.Machine.execAtomXor d a b xs u s
  | .atomExch d a b xs u => Sys2Proof.Machine.execAtomExch d a b xs u s
  | .atomCas d a b xs u t => Sys2Proof.Machine.execAtomCas d a b xs u t s
  | .atomFadd d a b xs u => Sys2Proof.Machine.execAtomFadd d a b xs u s
  | .atomFmin d a b xs u => Sys2Proof.Machine.execAtomFmin d a b xs u s
  | .atomFmax d a b xs u => Sys2Proof.Machine.execAtomFmax d a b xs u s
  | .red o a b xs u t => Sys2Proof.Machine.execRed o a b xs u t s
  | .atomLd d a xs u t => Sys2Proof.Machine.execAtomLd d a xs u t s
  | .cpy a => Sys2Proof.Machine.execCpy a s
  | .cbat => Sys2Proof.Machine.execCbat s
  | .fenceAcq xs => Sys2Proof.Machine.execFenceAcq xs s
  | .fenceRel xs => Sys2Proof.Machine.execFenceRel xs s
  | .fenceAr xs => Sys2Proof.Machine.execFenceAr xs s
  | .wait l xs t c => Sys2Proof.Machine.execWait l xs t c s
  | .waitb n => Sys2Proof.Machine.execWaitb n s
  | .txb o => Sys2Proof.Machine.execTxb o s
  | .txo o => Sys2Proof.Machine.execTxo o s
  | .txc => Sys2Proof.Machine.execTxc s
  | .txr => Sys2Proof.Machine.execTxr s
  | .txe => Sys2Proof.Machine.execTxe s
  | .getc d n => Sys2Proof.Machine.execGetc d n s
  | .setc d n => Sys2Proof.Machine.execSetc d n s
  | .exit => Sys2Proof.Machine.execExit s
  | .barCrew => Sys2Proof.Machine.execBarCrew s
  | .barCoh => Sys2Proof.Machine.execBarCoh s
  | .trap n => Sys2Proof.Machine.execTrap n s
  | .brk => Sys2Proof.Machine.execBrk s
  | .tret => Sys2Proof.Machine.execTret s
  | .ebud d n => Sys2Proof.Machine.execEbud d n s
  | .pint d => Sys2Proof.Machine.execPint d s
  | .mmq b k xs a f => Sys2Proof.Machine.execMmq b k xs a f s
  | .mmqByp b k xs c f => Sys2Proof.Machine.execMmqByp b k xs c f s
  | .mgld b a => Sys2Proof.Machine.execMgld b a s
  | .mscan b e n => Sys2Proof.Machine.execMscan b e n s
  | .mdrain b t a f => Sys2Proof.Machine.execMdrain b t a f s
  | .mdrainState b a => Sys2Proof.Machine.execMdrainState b a s
  | .mdrainByp b t g f => Sys2Proof.Machine.execMdrainByp b t g f s
  | .macq b c xi f => Sys2Proof.Machine.execMacq b c xi f s
  | .mrel b => Sys2Proof.Machine.execMrel b s
  | .hintWide w => Sys2Proof.Machine.execHintWide w s
  | .hintMext => Sys2Proof.Machine.execHintMext s
  | .hintRnd r => Sys2Proof.Machine.execHintRnd r s
  | .hintBnd xi => Sys2Proof.Machine.execHintBnd xi s
  | .hintYield n => Sys2Proof.Machine.execHintYield n s
  | .hintKeep k r => Sys2Proof.Machine.execHintKeep k r s
  | .hintEvict r => Sys2Proof.Machine.execHintEvict r s
  | .bbc n => Sys2Proof.Machine.execBbc n s
  | .hintFuse w => Sys2Proof.Machine.execHintFuse w s
  | .hintNoahead f => Sys2Proof.Machine.execHintNoahead f s
  | .hintAdv k p => Sys2Proof.Machine.execHintAdv k p s
  | .coldReset b => Sys2Proof.Machine.execColdReset b s
  | .functionLevelReset => Sys2Proof.Machine.execFunctionLevelReset s
  | .queueDoorbell q tail => Sys2Proof.Machine.execQueueDoorbell q tail s
  | .queueEnable q lo => Sys2Proof.Machine.execQueueEnable q lo s
  | .queueDisable q lo => Sys2Proof.Machine.execQueueDisable q lo s
  | .queueBaseWrite q v => Sys2Proof.Machine.execQueueBaseWrite q v s
  | .queueParkWrite q v => Sys2Proof.Machine.execQueueParkWrite q v s
  | .parkResume q r => Sys2Proof.Machine.execParkResume q r s
  | .parkKillCrew q r => Sys2Proof.Machine.execParkKillCrew q r s
  | .parkKillLaunch q r => Sys2Proof.Machine.execParkKillLaunch q r s
  | .preemptCmd core => Sys2Proof.Machine.execPreemptCmd core s
  | .dbgStopSet q => Sys2Proof.Machine.execDbgStopSet q s
  | .dbgStopClear q => Sys2Proof.Machine.execDbgStopClear q s
  | .mboxOpen => Sys2Proof.Machine.execMboxOpen s
  | .mboxAppend => Sys2Proof.Machine.execMboxAppend s
  | .mboxVerifyStore => Sys2Proof.Machine.execMboxVerifyStore s
  | .mboxDiscard => Sys2Proof.Machine.execMboxDiscard s
  | .memwinRead off len => Sys2Proof.Machine.execMemwinRead off len s
  | .memwinWrite off data => Sys2Proof.Machine.execMemwinWrite off data s
  | .registerWrite off size val => Sys2Proof.Machine.execRegisterWrite off size val s
  | .hostCxlMemAccess h => Sys2Proof.Machine.execHostCxlMemAccess h s
  | .doeAttestation nonce => Sys2Proof.Machine.execDoeAttestation nonce s
  | .launch q => Sys2Proof.Machine.execLaunch q s
  | .pin q => Sys2Proof.Machine.execPin q s
  | .unpin q => Sys2Proof.Machine.execUnpin q s
  | .copyIn q => Sys2Proof.Machine.execCopyIn q s
  | .copyOut q => Sys2Proof.Machine.execCopyOut q s
  | .signal q => Sys2Proof.Machine.execSignal q s
  | .waitCommand q => Sys2Proof.Machine.execWaitCommand q s
  | .bindCollective q => Sys2Proof.Machine.execBindCollective q s
  | .spanPrologue q => Sys2Proof.Machine.execSpanPrologue q s
  | .map q => Sys2Proof.Machine.execMap q s
  | .cohortAdmit pick => Sys2Proof.Machine.execCohortAdmit pick s
  | .coreBucketRefill core => Sys2Proof.Machine.execCoreBucketRefill core s
  | .fairnessHold core => Sys2Proof.Machine.execFairnessHold core s
  | .runAhead core frame => Sys2Proof.Machine.execRunAhead core frame s
  | .loadComplete core frame op => Sys2Proof.Machine.execLoadComplete core frame op s
  | .storeAccept core frame op => Sys2Proof.Machine.execStoreAccept core frame op s
  | .copyStart cl op => Sys2Proof.Machine.execCopyStart cl op s
  | .copyComplete cl op => Sys2Proof.Machine.execCopyComplete cl op s
  | .quantumFlush core ix => Sys2Proof.Machine.execQuantumFlush core ix s
  | .generationReject core frame op => Sys2Proof.Machine.execGenerationReject core frame op s
  | .wake core frame => Sys2Proof.Machine.execWake core frame s
  | .spuriousWake core frame => Sys2Proof.Machine.execSpuriousWake core frame s
  | .pagesReady core frame => Sys2Proof.Machine.execPagesReady core frame s
  | .eviction core => Sys2Proof.Machine.execEviction core s
  | .groupRestore core => Sys2Proof.Machine.execGroupRestore core s
  | .benchHandover core bench => Sys2Proof.Machine.execBenchHandover core bench s
  | .matrixGrant cl => Sys2Proof.Machine.execMatrixGrant cl s
  | .passRetire cl => Sys2Proof.Machine.execPassRetire cl s
  | .scanRetire cl => Sys2Proof.Machine.execScanRetire cl s
  | .drainComplete cl op => Sys2Proof.Machine.execDrainComplete cl op s
  | .barrierRelease crew coh => Sys2Proof.Machine.execBarrierRelease crew coh s
  | .regangMerge core frame => Sys2Proof.Machine.execRegangMerge core frame s
  | .watchdogExpiry core frame => Sys2Proof.Machine.execWatchdogExpiry core frame s
  | .shadowBankSwap core => Sys2Proof.Machine.execShadowBankSwap core s
  | .spill core => Sys2Proof.Machine.execSpill core s
  | .savedContextReport core => Sys2Proof.Machine.execSavedContextReport core s
  | .takeTrap core frame => Sys2Proof.Machine.execTakeTrap core frame s
  | .parkRecordWrite core frame => Sys2Proof.Machine.execParkRecordWrite core frame s
  | .uncorrectableConsumed core frame => Sys2Proof.Machine.execUncorrectableConsumed core frame s
  | .crewRelaunch pick => Sys2Proof.Machine.execCrewRelaunch pick s
  | .groupRetire core frame => Sys2Proof.Machine.execGroupRetire core frame s
  | .crewRetire crew => Sys2Proof.Machine.execCrewRetire crew s
  | .collectiveDataReceive c => Sys2Proof.Machine.execCollectiveDataReceive c s
  | .collectiveRefusal ident rank chunk => Sys2Proof.Machine.execCollectiveRefusal ident rank chunk s
  | .alltoallRowReceive r => Sys2Proof.Machine.execAlltoallRowReceive r s
  | .rowReturn r => Sys2Proof.Machine.execRowReturn r s
  | .collectiveComplete ident => Sys2Proof.Machine.execCollectiveComplete ident s
  | .winderBoundary m => Sys2Proof.Machine.execWinderBoundary m s
  | .backfillDraw k => Sys2Proof.Machine.execBackfillDraw k s
  | .intentClaimReceive sx sy xs delta a => Sys2Proof.Machine.execIntentClaimReceive sx sy xs delta a s
  | .timeSyncSend port => Sys2Proof.Machine.execTimeSyncSend port s
  | .timeSyncReceive port time => Sys2Proof.Machine.execTimeSyncReceive port time s
  | .prologueExchangeReceive sx sy span => Sys2Proof.Machine.execPrologueExchangeReceive sx sy span s
  | .flitForward port f => Sys2Proof.Machine.execFlitForward port f s
  | .routeFailureReceive span => Sys2Proof.Machine.execRouteFailureReceive span s
  | .portWindow port w => Sys2Proof.Machine.execPortWindow port w s
  | .portDown port => Sys2Proof.Machine.execPortDown port s
  | .surveyTick => Sys2Proof.Machine.execSurveyTick s
  | .sample core => Sys2Proof.Machine.execSample core s
  | .dmaCopyComplete op e => Sys2Proof.Machine.execDmaCopyComplete op e s
  | .hostLinkDown link => Sys2Proof.Machine.execHostLinkDown link s
  | .linkTrained host n => Sys2Proof.Machine.execLinkTrained host n s
  | .shadowBankFill core => Sys2Proof.Machine.execShadowBankFill core s
  | .chunkMissingReceive ident rank chunk => Sys2Proof.Machine.execChunkMissingReceive ident rank chunk s

end Sys2Proof.Machine
end

