-- ==== Sys2Proof/Machine/Sched.lean ====
section
/-! DEFINITION. What happens next: the choice of the group that issues and its issue, the re-injection of replay entries,
the passage of a cycle, the device's own motion, and the moves that an agenda names (R37, R38, R162 to R164, R179, R232,
R253 to R255, R340, R374, R388, R422, R425; log entry 7). -/

namespace Sys2Proof.Machine

/-- The next state of an outcome changed. -/
def onNext (f : State → State) : Host.Outcome State Fault Refusal → Host.Outcome State Fault Refusal
  | .next t => .next (f t)
  | .fault r => .fault r
  | .refused r => .refused r

/-! ### The group that is offered issue (R21, R38, R162, R374) -/

/-- How near a group is to the bound of R38, with room for the four groups of one port: 0 while it is not near. -/
def lateness (g : Group) : Nat := g.sinceOffer - 251

/-- Whether a group is offered before another: the bound of R38 first, then priority, then age (R374). -/
def State.offerBefore (s : State) (a b : Nat × Nat × Group) : Bool :=
  lateness b.2.2 < lateness a.2.2 || (lateness a.2.2 == lateness b.2.2 && (s.prioOf b.2.2 < s.prioOf a.2.2 ||
    (s.prioOf a.2.2 == s.prioOf b.2.2 && s.ageOf a.2.2 < s.ageOf b.2.2)))

/-- The frame of the group that a core offers issue next. -/
def State.offer (s : State) (core : Nat) : Option Nat :=
  if s.swapping core then none
  else
    (((s.activeOn core).filter (s.mayOffer core)).foldl (fun (best : Option (Nat × Nat × Group)) h => match best with
      | some b => if s.offerBefore h b then some h else some b
      | none => some h) none).map (fun h => h.2.1)

/-- The offer noted. -/
def State.markOffer (s : State) (core frame : Nat) : State :=
  (s.modCore core (fun c => { c with tested := frame :: c.tested })).modGroup core frame
    (fun g => { g with sinceOffer := 0 })

/-! ### Re-injection (R388) -/

/-- What a replay entry sees: its own PC, word, lanes and hints; its operands are the captured ones. -/
def State.replayIss (s : State) (core frame : Nat) (g : Group) (op : MemOp) : Iss :=
  { core := core, frame := frame, g := g, act := op.lanes, slices := [g.lastGang], pc := op.pc, word := op.word, xir := false,
    hints := { op.hints with mext := false, wide := none }, bounds := s.boundsOf g, launch := s.launchOf g, replayed := true }

/-- The verdict on a replay entry. -/
def State.replayVerdict (s : State) (x : Iss) (r : Replay) : Verdict :=
  let i := r.op.ins
  match mxIns i with
  | some (k, b, va) =>
    s.gate x i { inTx := false, chuck := (match k with
        | .mul _ sl _ _ => some sl
        | _ => none) }
      (fun x => mxVerdict s x i k b va (r.req.elim 0 ReqTag.quarter) r.op.caps (some r) r.withdrawn)
  | none =>
    match memForm i with
    | some f => s.gate x i {} (fun x => memVerdict s x i f r.op.caps r.op.lanes none (some r.op) r.withdrawn)
    | none => .hold

/-- Whether a verdict ends in a trap of its group. -/
def State.wouldTrap (s : State) (x : Iss) : Verdict → Bool
  | .trap _ _ _ _ => true
  | .go _ e => (match (e s).group x.core x.frame with
      | some h => h.status != x.g.status || h.inHandler != x.g.inHandler
      | none => true)
  | _ => false

/-- The oldest replay entry re-injected; one that would trap waits for those before it, so that it is the oldest of the new
frame (R388 step 5). A request that only a swap or an eviction withdrew re-enters as it was, once its bench is back (R299, R390). -/
def State.reinject (s : State) (core frame : Nat) (g : Group) : State :=
  match g.replay with
  | [] => s
  | r :: _ =>
    if r.withdrawn && !r.check then s.rejoin core frame 32
    else
    let x := s.replayIss core frame g r.op
    let v := s.replayVerdict x r
    if s.wouldTrap x v && !(s.heldEntries core frame g false).isEmpty then s else s.settle x {} v

/-! ### The issue of the next word (R179, R232, R254) -/

/-- A fetched word decoded and run by the group of `c`; a word that does not decode is illegal (R179 step 1). -/
def State.runFetched (s : State) (c : Cur) (g : Group) : Host.Outcome State Fault Refusal :=
  match decodeWord c.word with
  | .ok i => onNext (fun t => traceStep s { t with cur := none } (some (c, i))) (exec i { s with cur := some c })
  | .error _ => .next (traceStep s (s.settle (s.issOf c g) {} (.trap 1 0 0 0)) none)

/-- The next issue of a group: a captured word of its xir, or the word at the PC of the gang that is served, behind its
fetch probe. -/
def State.issueNext (s : State) (core frame : Nat) (g : Group) : Host.Outcome State Fault Refusal :=
  match nextIssue core frame g with
  | none => .next s
  | some (c, true) => s.runFetched c g
  | some (c, false) =>
    match s.fetch g c.pc with
    | .outside va => .next (traceStep s (s.settle (s.issOf c g) {} (.trap 7 0 c.active va)) none)
    | .staging ps => .next (traceStep s (s.settle (s.issOf c g) {} (.pages ps)) none)
    | .word w =>
      let ms := s.missing core (s.aspaceOf g) [(c.pc, 4)]
      if ms.isEmpty then (s.fetched g c.pc).runFetched { c with word := w } g else .next (s.walkPages core frame ms)

/-- One offer of issue on a core. -/
def State.issueOn (s : State) (core : Nat) : Host.Outcome State Fault Refusal :=
  match s.offer core with
  | none => .next s
  | some f =>
    let s := s.markOffer core f
    match s.group core f with
    | none => .next s
    | some g =>
      if g.replay.isEmpty then s.issueNext core f g else .next (traceStep s (s.reinject core f g) none)

/-! ### Queues: the next command -/

/-- The command event of a kind (R363); none for a kind that does not exist. -/
def commandOf (q : Nat) : Nat → Option Instr
  | 1 => some (.launch q) | 2 => some (.pin q) | 3 => some (.unpin q) | 4 => some (.copyIn q) | 5 => some (.copyOut q)
  | 6 => some (.signal q) | 7 => some (.waitCommand q) | 8 => some (.bindCollective q) | 9 => some (.spanPrologue q)
  | 10 => some (.map q) | _ => none

/-- A queue's next command, or a bind or wait that has started and may now end; the commands of a queue that is torn down complete without effect (R369);
an entry of no kind breaks R363, after the check of its number (R361). -/
def State.runCommand (s : State) (q : Nat) : Host.Outcome State Fault Refusal :=
  let x := s.queue q
  if (s.dueBind q).isSome then exec (.bindCollective q) s
  else if x.waiting.isSome then exec (.waitCommand q) s
  else if x.enable && x.down then .next (s.setQueue q { x with head := x.tail % x.entries })
  else
    match s.nextEntry q with
    | none => .next s
    | some e =>
      match commandOf q (fieldAt e 0 1) with
      | some i => exec i s
      | none =>
        let seq := fieldAt e 8 8
        .next ((s.takeEntry q seq).teardown q (if x.expect.isSome && x.expect != some seq then 1 else 2) (s.number q seq))

/-! ### The passage of a cycle (R162, R163, R164, R186, R407, R422, R425) -/

/-- The flits that every trained port sends each 2^20 ticks (R407). -/
def State.sendSyncs (s : State) : State :=
  (List.range 32).foldl (fun s p => if (s.port p).up then stateOr s (exec (.timeSyncSend p) s) else s) s

/-- One cycle of the time base: 10/21 of a tick (R305, R422). Of the ticks that it is to be steered by, one is added or dropped in
4,096; it never runs backward. The syncs go at every multiple of 2^20 that it reaches or passes (R407). -/
def State.advanceTime (s : State) : State :=
  let f := s.timeFrac + 10
  if f < 21 then { s with timeFrac := f }
  else
    let may := decide (4096 ≤ s.time - s.steer)
    let n := if may && decide (0 < s.timeDebt) then 2 else if may && decide (s.timeDebt < 0) then 0 else 1
    let t := { s with timeFrac := f - 21, time := (s.time + n) % 2 ^ 64, steer := if n = 1 then s.steer else s.time,
                      timeDebt := s.timeDebt - ((n : Int) - 1) }
    if t.time / 2 ^ 20 = s.time / 2 ^ 20 then t else t.sendSyncs

/-- A core's own end of a cycle: refill and rebates, the end and the begin of a hold, the cycle's trace packets, staged bytes, the
marks of the cycle cleared. -/
def State.endCore (s : State) (core : Nat) : State :=
  let s := (s.countWaits core).endWalks core
  let c := s.core core
  let s := if !c.refilled && (c.level != s.power.cap || c.rebate != 0) then s.refillCore core else s
  let s := if c.hold.isSome && (s.holder core).isNone then s.modCore core (fun c => { c with hold := none }) else s
  let s := s.beginHold core
  let s := if (s.core core).hold.isSome then s.countCore core 3 1 else s
  let s := s.stageCycle core
  let s := if (s.core core).staging.isEmpty then s else s.traceDrain core
  let c := s.core core
  if c.issued.isEmpty && c.tested.isEmpty && c.ports.isEmpty && c.short.isEmpty && c.walking.isEmpty && !c.refilled then s
  else s.modCore core (fun c => { c with ports := [], tested := [], issued := [], short := [], walking := [], refilled := false })

/-- A group at the end of a cycle: its pause, and the cycles since it was last offered issue. -/
def endGroup (g : Group) : Group :=
  match g.place with
  | .active _ =>
    if g.status == .ready && g.yield == 0 then { g with sinceOffer := g.sinceOffer + 1 } else { g with yield := g.yield - 1 }
  | _ => g

/-- The end of a cycle and the start of the next. The buckets refill in one order, which R162 leaves open: the package and die
buckets, then the core buckets in ascending number (DESIGN CHOICE, log entry 106). Backfill takes its share behind the die refills,
with nothing found but what is known to be poisoned; what else a scrub finds is an event of its own. What the cycle brought into
collective staging is taken up when it is over. -/
def State.tick (s : State) : State :=
  let s := s.supply
  let s := stateOr s (exec (.backfillDraw .none) s)
  let s := (List.range Config.cores).foldl (fun s c => s.endCore c) s
  let s := s.clusters.foldl (fun s p => s.countPasses p.1) s
  let s := { s with groups := s.groups.map (fun (p : Nat × Group) => (p.1, endGroup p.2)) }
  { s with cycle := s.cycle + 1 }.advanceTime.settleStaged

/-! ### The device's own motion -/

/-- Events of a group that may be enabled. -/
def groupMoves (core frame : Nat) (g : Group) : List Instr :=
  [.uncorrectableConsumed core frame, .takeTrap core frame, .pagesReady core frame, .wake core frame, .regangMerge core frame,
   .watchdogExpiry core frame, .parkRecordWrite core frame, .groupRetire core frame]
  ++ (g.ops.map (fun o => [.generationReject core frame o.id, .loadComplete core frame o.id, .storeAccept core frame o.id])).flatten

/-- Events of a cluster that may be enabled. -/
def clusterMoves (cl : Nat) (k : Cluster) : List Instr :=
  k.drains.map (fun d => .drainComplete cl d.id)
  ++ (k.copies.map (fun o =>
      [.copyStart cl o.id, .generationReject o.core o.frame o.id, .copyComplete cl o.id])).flatten

/-- Events of a core that may be enabled. -/
def coreMoves (core : Nat) (c : Core) : List Instr :=
  (List.range c.qbuf.length).map (fun i => .quantumFlush core i) ++ (List.range 4).map (fun b => .benchHandover core b)
  ++ [.shadowBankSwap core, .spill core, .savedContextReport core, .shadowBankFill core]

/-- The measurement of a boundary for which the environment supplies none: the last one again. -/
def State.sameMeasure (s : State) : Measure := ⟨s.power.charge, [], [], s.power.rails⟩

/-- The queues that may have something to do. -/
def State.busyQueues (s : State) : List Nat :=
  (s.queues.filter (fun p => p.2.waiting.isSome || (s.dueBind p.1).isSome || (s.nextEntry p.1).isSome
    || (p.2.enable && p.2.down && p.2.head != p.2.tail % p.2.entries))).map Prod.fst

/-- What comes at a cycle of its own and not later: boundaries of intervals, ticks, grants and retirements, evictions and restores
(R39, R286, R297, R422, R450). -/
def State.timedMoves (s : State) : List Instr :=
  [.winderBoundary s.sameMeasure, .surveyTick]
  ++ (s.clusters.map (fun p => [.matrixGrant p.1, .passRetire p.1, .scanRetire p.1])).flatten
  ++ (s.cores.map (fun p => [.groupRestore p.1, .eviction p.1])).flatten

/-- What else may happen of itself, in the order in which it is tried. -/
def State.ownMoves (s : State) : List Instr :=
  (s.dmas.filter Dma.out).map (fun d => .dmaCopyComplete d.id (.data []))
  ++ (s.groups.map (fun p => groupMoves (p.1 / 32) (p.1 % 32) p.2)).flatten
  ++ (s.queues.map (fun p => p.2.backlog.map (fun r => .parkRecordWrite r.1 r.2.1))).flatten
  ++ (s.crews.map (fun p => [.barrierRelease p.1 false, .barrierRelease p.1 true, .crewRetire p.1])).flatten
  ++ (s.clusters.map (fun p => clusterMoves p.1 p.2)).flatten
  ++ (s.cores.map (fun p => coreMoves p.1 p.2)).flatten
  ++ s.colls.map (fun (c : Coll) => .collectiveComplete c.ident)
  ++ (if s.launches.isEmpty then [] else [.crewRelaunch 0, .cohortAdmit 0])

/-- The first of some events that changes anything. -/
def State.firstChange (s : State) : List Instr → Option State
  | [] => none
  | i :: r => if stateOr s (exec i s) = s then s.firstChange r else some (stateOr s (exec i s))

/-- A trained port whose window of statistics has ended (R411). -/
def State.dueWindow (s : State) : Option Nat :=
  (s.ports.find? (fun p => p.1 < 32 && p.2.up && p.2.window < s.time / 2 ^ 24)).map Prod.fst

/-- What is due in this cycle: a port's window, otherwise the first of the moves that come at a cycle of their own. -/
def State.firstTimed (s : State) : Option State :=
  match s.dueWindow with
  | some p => some (stateOr s (execPortWindow p (s.port p).sameStats s))
  | none => s.firstChange s.timedMoves

/-- The first queue whose command changes anything. -/
def State.firstCommand (s : State) : List Nat → Option State
  | [] => none
  | q :: r => if stateOr s (s.runCommand q) = s then s.firstCommand r else some (stateOr s (s.runCommand q))

/-- The first core that offers issue to a group. -/
def State.firstOffer (s : State) : Option Nat := (s.cores.map Prod.fst).find? (fun c => (s.offer c).isSome)

/-- What follows a cycle's offers: the run-ahead of groups that are held, then the samples (R344, R451). -/
def State.lateMoves (s : State) : List Instr :=
  s.groups.map (fun p => .runAhead (p.1 / 32) (p.1 % 32)) ++ s.cores.map (fun p => .sample p.1)

/-- A step with no agenda: an event that is enabled, else a command, else an offer of issue, else run-ahead or a sample, else the
cycle ends. -/
def State.ownStep (s : State) : Host.Outcome State Fault Refusal :=
  match s.firstTimed.orElse (fun _ => s.firstChange s.ownMoves) with
  | some t => .next (traceStep s t none)
  | none =>
    match s.firstCommand s.busyQueues with
    | some t => .next (traceStep s t none)
    | none =>
      match s.firstOffer with
      | some c => s.issueOn c
      | none => .next ((s.firstChange s.lateMoves).getD s.tick)

/-! ### Moves of an agenda -/

/-- An L1 line of a core replaced (R107). -/
def State.dropLine (s : State) (core line : Nat) : State :=
  s.modCore core (fun c => { c with l1 := c.l1.filter (fun p => p.1 != line) })

/-- A sector struck: its data is lost until it is written whole (R433). -/
def State.poisonSector (s : State) (sector : Nat) : State :=
  { s with poison := if s.poison.contains sector then s.poison else s.poison ++ [sector] }

/-- A number added to a list that does not have it. -/
def addNew (l : List Nat) (n : Nat) : List Nat := if l.contains n then l else l ++ [n]

/-- The end of a cycle, as an agenda asks for it: first what is due in the cycle, the offers, what follows them, one a step, and the
move stays; then the cycle ends (R162, R317, R422). -/
def State.endCycle (s : State) : Host.Outcome State Fault Refusal :=
  let stay := onNext (fun t => { t with agenda := .tick :: t.agenda })
  match s.firstTimed with
  | some t => stay (.next (traceStep s t none))
  | none =>
    match s.firstOffer with
    | some c => stay (s.issueOn c)
    | none =>
      match s.firstChange s.lateMoves with
      | some t => stay (.next t)
      | none => .next s.tick

/-- A move of the agenda. An instruction word is no event: it issues only by an offer. -/
def State.runMove (s : State) : Move → Host.Outcome State Fault Refusal
  | .issue core => s.issueOn core
  | .event i => if (encode i).isSome then .next s else onNext (fun t => traceStep s t none) (exec i s)
  | .command q => onNext (fun t => traceStep s t none) (s.runCommand q)
  | .mmioWrite off size v => .next (traceStep s (s.writeMmio off size v) none)
  | .mmioRead off size => .next (s.readMmio off size)
  | .dropLine core line => .next (s.dropLine core line)
  | .dropTranslation core asp page =>
    .next (s.modCore core (fun c => { c with missed := if c.missed.contains (asp, page) then c.missed else c.missed ++ [(asp, page)] }))
  | .earlyVisible core frame op => .next (s.makeEarly core frame op)
  | .poisonSector a => .next (s.poisonSector a)
  | .poisonLocal core pos => .next (s.modCore core (fun c => { c with lpoison := addNew c.lpoison (pos / 4) }))
  | .poisonLane core frame r l =>
    .next (s.modGroup core frame (fun g =>
      { g with ctx := g.ctx.setReg r { g.ctx.reg r with poison := (g.ctx.reg r).poison ||| (1#32 <<< l) } }))
  | .poisonBench core b e => .next (s.modBench core b (fun k => { k with poison := addNew k.poison e }))
  | .poisonChuck cl slot pos =>
    .next (s.modCluster cl (fun k =>
      let h := tget k.chuck slot .init
      { k with chuck := Sys2Proof.Machine.tset k.chuck slot { h with poison := addNew h.poison (pos / 8) } }))
  | .poisonTag core k => .next (s.modCore core (fun c => { c with tpoison := addNew c.tpoison k }))
  | .poisonPair core k =>
    .next (s.modCore core (fun c => { c with pairs := pset .init c.pairs k { c.pairs.getD k .init with poison := true } }))
  | .poisonBuffer n x => .next (s.modCrew n (fun c => { c with bufPoison := addNew c.bufPoison x }))
  | .poisonStaged i u => .next (s.poisonStaged i u)
  | .corrected x => .next (s.correct x)
  | .correctedIn u x a => .next (s.log { kind := 1, unit := u % 16, sub := x % 256, addr := a })
  | .spaceError a => .next (traceStep s (s.spaceError a) none)
  | .collAccepted i p c => .next (s.collAccepted i p c)
  | .rowLanded i p c => .next (s.rowLanded i p c)
  | .configRead off => .next (s.configRead off)
  | .tick => s.endCycle

/-! ### A machine loaded with one instruction (log entry 7) -/

/-- The page that holds the loaded code: first of the heap of memory die 0. -/
def loadPage : PageMap := ⟨0x10000, 0, 0x290000000, true, true, true, 0⟩

/-- A launch of one group of 32 lanes whose code section is one word. -/
def loadLaunch (w : Nat) : Launch :=
  { queue := 0, aspace := 0, seq := 0, priority := 0, code := 0x10000, codeSize := 4, flags := 0, n0 := 32, n1 := 1, n2 := 1,
    n3 := 1, n4 := 1, n5 := 1, widths := [5, 0, 0, 0, 0, 0], regs := 64, benches := 0, chuck := 0, lbytes := 0, quantum := 0,
    energy := 0, wset := [⟨0x10000, 1, true, true, true⟩], bounds := [], counters := 0, nblocks := 0, trapOff := none,
    spanX := 0, spanY := 0, coll := none, snapshot := List.replicate 128 0 ++ [BitVec.ofNat 32 w], next := 1, retiredCohorts := 0, killed := false,
    complete := false, fired := [] }

/-- Its crew. -/
def loadCrew : Crew :=
  { launch := 0, f3 := 0, rank := 0, core := 0, frames := [0], base := 0, regions := [], phaseCrew := 0, phaseCoh := 0,
    relaunchable := false, relaunches := 0, buffer := [], bufPoison := [], bufGen := none, age := 0, prio := 0, killed := false,
    retired := false, fault := none }

/-- A state in which that launch stands as admitted on core 0, with a full bucket, and issues next. -/
def State.loadWord (s : State) (w : Nat) : State :=
  { s with
    mem := s.mem.write 0x290000200 (bytesOfWord w),
    aspaces := Sys2Proof.Machine.tset s.aspaces 0 ⟨0, [loadPage]⟩,
    queues := Sys2Proof.Machine.tset s.queues 0 { Queue.init with pins := [(0, 0x10000, 1)] },
    launches := Sys2Proof.Machine.tset s.launches 0 (loadLaunch w),
    crews := Sys2Proof.Machine.tset s.crews 0 loadCrew,
    cohorts := Sys2Proof.Machine.tset s.cohorts 0
      { launch := 0, f3 := 0, cluster := 0, crews := [(0, 0)], slots := [], relaunch := none, done := false },
    cores := Sys2Proof.Machine.tset s.cores 0 { Core.init with level := s.power.cap },
    groups := Sys2Proof.Machine.tset (s.groups.filter (fun p => 32 ≤ p.1)) 0 (freshGroup (loadLaunch w) 0 0 0 0 0),
    nextCrew := max s.nextCrew 1, nextCohort := max s.nextCohort 1, nextLaunch := max s.nextLaunch 1,
    agenda := [.issue 0], cur := none }

end Sys2Proof.Machine
end

