-- ==== Sys2Proof/Machine/Step.lean ====
section
/-! DEFINITION. One step of the machine, and a machine loaded with one instruction to run next. -/

namespace Sys2Proof.Machine

/-- One step: the next move of the agenda, or the device's own motion (log entry 7). -/
def step (s : State) : Host.Outcome State Fault Refusal :=
  match s.agenda with
  | m :: r => { s with agenda := r }.runMove m
  | [] => s.ownStep

/-- A state whose next step runs the word `w`: the launch that holds it stands as if loaded from outside (log entry 7). Every
instruction has one word, so `nbits` says nothing more. -/
def State.withFetchWord (s : State) (_nbits w : Nat) : State := s.loadWord (w % 2 ^ 32)

end Sys2Proof.Machine
end

