-- ==== Sys2Proof/Safety.lean ====
section
/-! DEFINITION. The terms in which claims are stated: when a word issues and takes its own effect, what an issue leaves
alone, what a result register holds afterwards, and what every reachable state keeps. -/

namespace Sys2Proof.Safety

open Sys2Proof.Machine

/-- The word `i` issues: the group `g` of the issue `c` may issue it by R140, R179, R181 and R209, no operation in flight
holds it (R337, R378), no source is poisoned (R434), its core holds for no other group (R164) and can pay every price up to
`price` (R162). -/
structure Issues (s : State) (c : Cur) (g : Group) (i : Instr) (d : Desc) (price : Nat) : Prop where
  cur : s.cur = some c
  group : s.group c.core c.frame = some g
  form : i.wf = true
  feature : s.implements i = true
  wide : (s.issOf c g).hints.wide ≠ none → d.wideOk = true
  mext : (s.issOf c g).hints.mext = true → d.ms ≠ none
  noHint : d.noHints = true → (s.issOf c g).hints = .none
  lane : c.xir = true → d.inXir = true
  attempt : g.tx ≠ none → d.inTx = true
  need : ∀ v ∈ d.srcs ++ d.dsts, v < g.ctx.need
  chuck : ∀ k, d.chuck = some k → k < (s.issOf c g).chuckCount
  ready : ∀ v ∈ d.srcs ++ d.dsts, v ∉ pendingRegs g
  bound : boundPending g (s.boundsOf g) = false
  clean : ∀ v ∈ d.srcs, (g.ctx.reg v).poison = 0
  hold : ∀ f, s.holder c.core = some f → f = c.frame
  pay : ∀ q, q ≤ price → s.canPay c.core q = true

/-- A price taken at issue (R161, R162): from the core's bucket, and what the bucket's cap does not cover from the die's. -/
structure Charged (s t : State) (core price : Nat) : Prop where
  within : price ≤ s.power.cap →
    (t.core core).level = (s.core core).level - price ∧ ∀ n, (t.die n).bucket = (s.die n).bucket
  beyond : s.power.cap < price → (t.core core).level = 0 ∧
    ∀ n, (t.die n).bucket = if n = dieOf core then (s.die n).bucket - (price - s.power.cap) else (s.die n).bucket

/-- What the issue of a word leaves alone outside the context of its group, which becomes `h`: all of memory, every other
group, every other core and compute die, of its own core all but the bucket, which pays the word's price, and the marks of
issue, of the dies all but the bucket, of the group all but its context, its token wait, the gang served, a run-ahead walk, the register cache and the
mark of an lkld to be taken again at this PC; every other part of the state but the survey counters. -/
structure Kept (s t : State) (c : Cur) (price : Nat) (g h : Group) : Prop where
  group : t.group c.core c.frame = some h
  groups : ∀ k, k ≠ gkey c.core c.frame → tfind t.groups k = tfind s.groups k
  own : h = { g with ctx := h.ctx, tokenWait := 0, lastGang := h.lastGang, ahead := none, cache := h.cache,
                     relock := if g.relock = some c.pc && !g.inHandler then none else g.relock }
  core : t.core c.core = { s.core c.core with
    level := (t.core c.core).level, ports := (t.core c.core).ports, issued := (t.core c.core).issued,
    hold := (t.core c.core).hold }
  cores : ∀ n, n ≠ c.core → t.core n = s.core n
  dies : ∀ n, t.die n = { s.die n with bucket := (t.die n).bucket }
  mem : ∀ a, t.mem.read a = s.mem.read a
  paid : Charged s t c.core price
  rest : t = { s with groups := t.groups, cores := t.cores, dies := t.dies, counters := t.counters }

/-- What a word that writes registers leaves alone in its context: every register outside `ds`, every mask register, the
divergence state, every context register. The gang goes to the word at PC + 4; a word of an xir leaves it where it stands
until the xir's last lane is done, and notes the xir's progress (R254). -/
structure CtxKept (c : Cur) (g h : Group) (ds : List Nat) : Prop where
  rest : h.ctx = { g.ctx with regs := h.ctx.regs, slices := h.ctx.slices }
  regs : ∀ v, v ∉ ds → h.ctx.reg v = g.ctx.reg v
  gang : c.xir = false → h.ctx.slices = stepSlices g.ctx.slices c.slices false
  word : c.xir = true → g.status = .ready → ∀ q, g.ctx.xirOf (c.slices.headD 0) = some q →
    h.ctx.slices =
      if q.pend &&& ~~~c.active = 0 then stepSlices (setXir g.ctx.slices (c.slices.headD 0) none) c.slices false
      else setXir g.ctx.slices (c.slices.headD 0) (some { q with pend := q.pend &&& ~~~c.active, done := q.done ||| c.active })

/-- A register after a write of `val` by code, bound index, shape and effective write mask: the live lanes of the mask hold the
value, the live lanes outside it what they held (R45, R47). The register keeps the shape of the result (0 uniform, 1 affine, 2
general) where the mask covers the live lanes, an affine one of stride 0 as uniform; otherwise it is general (R44, R45). -/
structure Wrote (g h : Group) (v : Nat) (code : Fmt) (ix : Nat) (k : ResK) (m : Mask) (val : Nat → Word) : Prop where
  fmt : (h.ctx.reg v).fmt = code
  bound : (h.ctx.reg v).bound = ix
  shape : shapeCode (h.ctx.reg v).shape = if g.ctx.live &&& ~~~m ≠ 0 then 2 else
    match k with
    | .uni => 0
    | .aff => if val 1 = val 0 then 0 else 1
    | .gen => 2
  lanes : ∀ l, l < 32 → hasLane g.ctx.live l = true →
    h.ctx.lane v l = if hasLane m l = true then val l else g.ctx.lane v l

/-- A bound index that may stand on a result of a code (R51), with every element that the result has in the lanes of the
mask inside the bound (R82). -/
def InBounds (bounds : List (Nat × Bound)) (ix : Nat) (code : Fmt) (m : Mask) (val : Nat → Word64) (pair : Bool := false) :
    Prop :=
  boundOk bounds ix code = true ∧
    ∀ b, boundOf bounds ix = some b → ∀ l, l < 32 → hasLane m l = true → outCount b code (val l).toNat pair = 0

/-- A single-register result in the low half of a 64-bit value. -/
def single (val : Nat → Word) : Nat → Word64 := fun l => (val l).zeroExtend 64

/-- The word completes: a next state in which register `d` of the group is written, its price is paid, and nothing else
changes but the gang's advance. -/
def WritesReg (s : State) (c : Cur) (g : Group) (i : Instr) (price d : Nat) (code : Fmt) (ix : Nat) (k : ResK) (m : Mask)
    (val : Nat → Word) : Prop :=
  ∃ t h, exec i s = .next t ∧ Kept s t c price g h ∧ CtxKept c g h [d] ∧ Wrote g h d code ix k m val

/-- The same for a pair, `d` the low half and `d` + 1 the high half (R41). -/
def WritesPair (s : State) (c : Cur) (g : Group) (i : Instr) (price d : Nat) (code : Fmt) (ix : Nat) (k : ResK) (m : Mask)
    (val : Nat → Word64) : Prop :=
  ∃ t h, exec i s = .next t ∧ Kept s t c price g h ∧ CtxKept c g h [d, d + 1] ∧
    Wrote g h d code ix k m (fun l => lo32 (val l)) ∧ Wrote g h (d + 1) code ix k m (fun l => hi32 (val l))

/-- What a word that writes mask register `d` (m1 to m7) leaves: the whole mask (R52), its price paid, and nothing else but the
gang's advance. -/
def WritesMask (s : State) (c : Cur) (g : Group) (i : Instr) (price d : Nat) (m : Mask) : Prop :=
  ∃ t h, exec i s = .next t ∧ Kept s t c price g h ∧
    h.ctx = { g.ctx with masks := h.ctx.masks, slices := stepSlices g.ctx.slices c.slices false } ∧
    ∀ k, 1 ≤ k → h.ctx.maskAt k = if k = d then m else g.ctx.maskAt k

/-- What holds of every state that a run passes through: global memory and every local store are in canonical form, and no
group and no core stands twice in its table. -/
structure Sound (s : State) : Prop where
  mem : s.mem.wf
  groups : (s.groups.map Prod.fst).Nodup
  cores : (s.cores.map Prod.fst).Nodup
  store : ∀ p ∈ s.cores, p.2.lmem.wf

end Sys2Proof.Safety
end

