-- ==== Sys2Proof/Certificates/Slice0/Obligations.lean ====
section
/-! DEFINITION. The statements about the SZ9 (`Obligations.<Name>`), with the tables of the spec's instruction rules that
they are stated with (namespace `Sys2Proof.Spec`): written from the rules, over words and integers, apart from the
meanings of the machine. -/

namespace Sys2Proof.Spec

open Sys2Proof.Machine Sys2Proof.Safety

/-! ### Integer results (R211 to R223) -/

/-- x clamped to [lo, hi], as a 32-bit pattern. -/
def clampWord (x lo hi : Int) : Word := BitVec.ofInt 32 (if x < lo then lo else if hi < x then hi else x)

/-- Quotient and remainder of R216, signed. -/
def quotS (x y : Word) : Word :=
  if y = 0 then -1 else if x = 0x80000000 ∧ y = -1 then 0x80000000 else BitVec.ofInt 32 (x.toInt.tdiv y.toInt)
def remS (x y : Word) : Word :=
  if y = 0 then x else if x = 0x80000000 ∧ y = -1 then 0 else BitVec.ofInt 32 (x.toInt - y.toInt * x.toInt.tdiv y.toInt)

/-- The field of R222: position, width at most what is left of the word. -/
def fieldN (x : Word) (pos width : Nat) : Word := (x.extractLsb' pos (min (min width 32) (32 - pos))).zeroExtend 32
def fieldS (x : Word) (pos width : Nat) : Word := (x.extractLsb' pos (min (min width 32) (32 - pos))).signExtend 32

/-- The number of 1 bits, of leading zeros and of trailing zeros among `n` bits (R221). -/
def ones (n : Nat) (bit : Nat → Bool) : Nat := ((List.range n).filter bit).length
def leading (n : Nat) (bit : Nat → Bool) : Nat := ((List.range n).find? (fun k => bit (n - 1 - k))).getD n
def trailing (n : Nat) (bit : Nat → Bool) : Nat := ((List.range n).find? bit).getD n

/-- A word with one result from registers `a` and `b` under mask operand `m`: class of the sources (R211), result code from
the first source's, value. -/
structure Bin where
  d : Nat
  a : Nat
  b : Nat
  m : Nat
  cls : Cls
  code : Fmt → Fmt
  f : Word → Word → Word

/-- The binary integer words on single registers (R215, R216, R219, R220, R222). -/
def intBinary : Instr → Option Bin
  | .iadd d a b m => some ⟨d, a, b, m, .t32, widen, fun x y => x + y⟩
  | .isub d a b m => some ⟨d, a, b, m, .t32, widen, fun x y => x - y⟩
  | .imulLo d a b m => some ⟨d, a, b, m, .t32, widen, fun x y => x * y⟩
  | .imulHiS32 d a b m => some ⟨d, a, b, m, .s32, fun _ => .s32, fun x y => BitVec.ofInt 32 (x.toInt * y.toInt / 2 ^ 32)⟩
  | .imulHiN32 d a b m => some ⟨d, a, b, m, .n32, fun _ => .n32, fun x y => BitVec.ofNat 32 (x.toNat * y.toNat / 2 ^ 32)⟩
  | .iminS32 d a b m => some ⟨d, a, b, m, .s32, fun _ => .s32, fun x y => if x.slt y then x else y⟩
  | .iminN32 d a b m => some ⟨d, a, b, m, .n32, fun _ => .n32, fun x y => if x.ult y then x else y⟩
  | .imaxS32 d a b m => some ⟨d, a, b, m, .s32, fun _ => .s32, fun x y => if x.slt y then y else x⟩
  | .imaxN32 d a b m => some ⟨d, a, b, m, .n32, fun _ => .n32, fun x y => if x.ult y then y else x⟩
  | .idivS32 d a b m => some ⟨d, a, b, m, .s32, fun _ => .s32, quotS⟩
  | .idivN32 d a b m => some ⟨d, a, b, m, .n32, fun _ => .n32, fun x y => if y = 0 then -1 else x / y⟩
  | .iremS32 d a b m => some ⟨d, a, b, m, .s32, fun _ => .s32, remS⟩
  | .iremN32 d a b m => some ⟨d, a, b, m, .n32, fun _ => .n32, fun x y => if y = 0 then x else x % y⟩
  | .iaddSatS32 d a b m => some ⟨d, a, b, m, .s32, fun _ => .s32, fun x y => clampWord (x.toInt + y.toInt) (-(2 ^ 31)) (2 ^ 31 - 1)⟩
  | .iaddSatN32 d a b m => some ⟨d, a, b, m, .n32, fun _ => .n32, fun x y => clampWord (x.toNat + y.toNat : Int) 0 (2 ^ 32 - 1)⟩
  | .isubSatS32 d a b m => some ⟨d, a, b, m, .s32, fun _ => .s32, fun x y => clampWord (x.toInt - y.toInt) (-(2 ^ 31)) (2 ^ 31 - 1)⟩
  | .isubSatN32 d a b m => some ⟨d, a, b, m, .n32, fun _ => .n32, fun x y => clampWord ((x.toNat : Int) - y.toNat) 0 (2 ^ 32 - 1)⟩
  | .and_ d a b m => some ⟨d, a, b, m, .t32, widen, fun x y => x &&& y⟩
  | .or_ d a b m => some ⟨d, a, b, m, .t32, widen, fun x y => x ||| y⟩
  | .xor_ d a b m => some ⟨d, a, b, m, .t32, widen, fun x y => x ^^^ y⟩
  | .andn d a b m => some ⟨d, a, b, m, .t32, widen, fun x y => x &&& ~~~y⟩
  | .orn d a b m => some ⟨d, a, b, m, .t32, widen, fun x y => x ||| ~~~y⟩
  | .shl d a b m => some ⟨d, a, b, m, .t32, widen, fun x y => x <<< (y.toNat % 32)⟩
  | .shrN d a b m => some ⟨d, a, b, m, .t32, widen, fun x y => x >>> (y.toNat % 32)⟩
  | .shrS d a b m => some ⟨d, a, b, m, .t32, widen, fun x y => x.sshiftRight (y.toNat % 32)⟩
  | .rotl d a b m => some ⟨d, a, b, m, .t32, widen, fun x y => x.rotateLeft (y.toNat % 32)⟩
  | .bfeN d a b m => some ⟨d, a, b, m, .t32, fun _ => .n32, fun x y => fieldN x (y.toNat % 32) (y.toNat / 32 % 64)⟩
  | .bfeS d a b m => some ⟨d, a, b, m, .t32, fun _ => .s32, fun x y => fieldS x (y.toNat % 32) (y.toNat / 32 % 64)⟩
  | _ => none

/-- A word with one result from register `a`. -/
structure Un where
  d : Nat
  a : Nat
  m : Nat
  cls : Cls
  code : Fmt → Fmt
  f : Word → Word

/-- The unary integer words on single registers, the immediate shifts and bit fields among them (R215, R219 to R222). -/
def intUnary : Instr → Option Un
  | .iabsS32 d a m => some ⟨d, a, m, .s32, fun _ => .s32, fun x => if x.slt 0 then -x else x⟩
  | .ineg d a m => some ⟨d, a, m, .t32, widen, fun x => -x⟩
  | .not_ d a m => some ⟨d, a, m, .t32, widen, fun x => ~~~x⟩
  | .popc d a m => some ⟨d, a, m, .t32, fun _ => .n32, fun x => BitVec.ofNat 32 (ones 32 x.getLsbD)⟩
  | .clz d a m => some ⟨d, a, m, .t32, fun _ => .n32, fun x => BitVec.ofNat 32 (leading 32 x.getLsbD)⟩
  | .ctz d a m => some ⟨d, a, m, .t32, fun _ => .n32, fun x => BitVec.ofNat 32 (trailing 32 x.getLsbD)⟩
  | .brev d a m => some ⟨d, a, m, .t32, widen, fun x => x.reverse⟩
  | .shlImm d a m k => some ⟨d, a, m, .t32, widen, fun x => x <<< k⟩
  | .shrNImm d a m k => some ⟨d, a, m, .t32, widen, fun x => x >>> k⟩
  | .shrSImm d a m k => some ⟨d, a, m, .t32, widen, fun x => x.sshiftRight k⟩
  | .rotlImm d a m k => some ⟨d, a, m, .t32, widen, fun x => x.rotateLeft k⟩
  | .bfeNImm d a m w p => some ⟨d, a, m, .t32, fun _ => .n32, fun x => fieldN x p w⟩
  | .bfeSImm d a m w p => some ⟨d, a, m, .t32, fun _ => .s32, fun x => fieldS x p w⟩
  | _ => none

/-- The 32-bit immediate of a word: its 12-bit field sign-extended, or the field below the 20 bits of a pending wide
immediate (R176, R182). -/
def immediate (h : Hints) (i : Nat) : Word :=
  match h.wide with
  | some e => BitVec.ofNat 32 (e * 2 ^ 12 + i)
  | none => (BitVec.ofNat 12 i).signExtend 32

/-- The immediate forms: source, if any, and value from source and immediate (R217). -/
structure Imm where
  d : Nat
  a : Option Nat
  m : Nat
  i : Nat
  f : Word → Word → Word

def intImmediate : Instr → Option Imm
  | .mov d m i => some ⟨d, none, m, i, fun _ y => y⟩
  | .iaddImm d a m i => some ⟨d, some a, m, i, fun x y => x + y⟩
  | .imulLoImm d a m i => some ⟨d, some a, m, i, fun x y => x * y⟩
  | .andImm d a m i => some ⟨d, some a, m, i, fun x y => x &&& y⟩
  | .orImm d a m i => some ⟨d, some a, m, i, fun x y => x ||| y⟩
  | .xorImm d a m i => some ⟨d, some a, m, i, fun x y => x ^^^ y⟩
  | _ => none

/-- A field of `x` put into `old` (R223): the low bits of `x` over bits [pos + w − 1 : pos]. -/
def insertField (old x : Word) (pos width : Nat) : Word :=
  let m := BitVec.ofNat 32 ((2 ^ min width (32 - pos) - 1) * 2 ^ pos)
  (old &&& ~~~m) ||| ((x <<< pos) &&& m)

/-- A result on a pair of registers from two sources that are pairs or single registers. -/
structure Wide where
  d : Nat
  a : Nat
  b : Nat
  m : Nat
  ca : Cls
  cb : Cls
  code : Fmt → Fmt
  f : Word64 → Word64 → Word64

/-- A source as 64 bits: a pair, or a single register zero-extended. -/
def value (c : Ctx) (k : Cls) (v l : Nat) : Word64 := if k.wide then c.lane64 v l else (c.lane v l).zeroExtend 64

/-- The words with a pair result (R215, R220). -/
def intWide : Instr → Option Wide
  | .iadd64 d a b m => some ⟨d, a, b, m, .t64, .t64, widen, fun x y => x + y⟩
  | .isub64 d a b m => some ⟨d, a, b, m, .t64, .t64, widen, fun x y => x - y⟩
  | .imulLo64 d a b m => some ⟨d, a, b, m, .t64, .t64, widen, fun x y => x * y⟩
  | .imulWideS32 d a b m =>
    some ⟨d, a, b, m, .s32, .s32, fun _ => .s64, fun x y => (x.truncate 32).signExtend 64 * (y.truncate 32).signExtend 64⟩
  | .imulWideN32 d a b m => some ⟨d, a, b, m, .n32, .n32, fun _ => .n64, fun x y => x * y⟩
  | .iminS64 d a b m => some ⟨d, a, b, m, .s64, .s64, fun _ => .s64, fun x y => if x.slt y then x else y⟩
  | .iminN64 d a b m => some ⟨d, a, b, m, .n64, .n64, fun _ => .n64, fun x y => if x.ult y then x else y⟩
  | .imaxS64 d a b m => some ⟨d, a, b, m, .s64, .s64, fun _ => .s64, fun x y => if x.slt y then y else x⟩
  | .imaxN64 d a b m => some ⟨d, a, b, m, .n64, .n64, fun _ => .n64, fun x y => if x.ult y then y else x⟩
  | .shl64 d a b m => some ⟨d, a, b, m, .t64, .t32, widen, fun x y => x <<< (y.toNat % 64)⟩
  | .shrN64 d a b m => some ⟨d, a, b, m, .t64, .t32, widen, fun x y => x >>> (y.toNat % 64)⟩
  | .shrS64 d a b m => some ⟨d, a, b, m, .t64, .t32, widen, fun x y => x.sshiftRight (y.toNat % 64)⟩
  | _ => none

/-! ### Masks and selection (R224 to R226, R241) -/

/-- a < b by the type of icmp: signed for s, unsigned for n, on 32 or on 64 bits. -/
def less : IntTy → Word64 → Word64 → Bool
  | .s32, x, y => (x.truncate 32).slt (y.truncate 32)
  | .n32, x, y => (x.truncate 32).ult (y.truncate 32)
  | .s64, x, y => x.slt y
  | .n64, x, y => x.ult y

/-- A condition of icmp (R224). -/
def intCond (t : IntTy) (x y : Word64) : CmpCond → Bool
  | .eq => x == y
  | .ne => x != y
  | .lt => less t x y
  | .gt => less t y x
  | .le => !less t y x
  | .ge => !less t x y

/-- The class that a type of icmp names. -/
def typeClass : IntTy → Cls
  | .s32 => .s32
  | .n32 => .n32
  | .s64 => .s64
  | .n64 => .n64

/-- A condition of fcmp (R241). -/
def floatCond (x y : Val) : FCond → Bool
  | .un => x.isNan || y.isNan
  | .ord => !(x.isNan || y.isNan)
  | .ne => x.isNan || y.isNan || x.cmp y != .eq
  | .eq => !(x.isNan || y.isNan) && x.cmp y == .eq
  | .lt => !(x.isNan || y.isNan) && x.cmp y == .lt
  | .gt => !(x.isNan || y.isNan) && x.cmp y == .gt
  | .le => !(x.isNan || y.isNan) && (x.cmp y == .lt || x.cmp y == .eq)
  | .ge => !(x.isNan || y.isNan) && (x.cmp y == .gt || x.cmp y == .eq)

/-- The format that a type of fcmp or fun names. -/
def floatFmt : FFmt → Fmt
  | .f32 => .f32
  | .f16 => .f16
  | .bf16 => .bf16

/-- The words that combine mask registers: destination and result from the value of each mask register (R226). -/
def maskWord : Instr → Option (Nat × ((Nat → Mask) → Mask))
  | .mand d a b => some (d, fun r => r a &&& r b)
  | .mor d a b => some (d, fun r => r a ||| r b)
  | .mxor d a b => some (d, fun r => r a ^^^ r b)
  | .mandn d a b => some (d, fun r => r a &&& ~~~r b)
  | .mnot d a => some (d, fun r => ~~~r a)
  | .mmov d a => some (d, fun r => r a)
  | _ => none

/-- The words that read a mask register into a vector register: destination and value in lane l (R226). -/
def maskReader : Instr → Option (Nat × ((Nat → Mask) → Nat → Word))
  | .mpop d a => some (d, fun r _ => BitVec.ofNat 32 (ones 32 (r a).getLsbD))
  | .mfirst d a => some (d, fun r _ => BitVec.ofNat 32 (trailing 32 (r a).getLsbD))
  | .mtov d a => some (d, fun r l => if hasLane (r a) l then 1 else 0)
  | _ => none

/-! ### Float results (R234 to R240) -/

/-- The format that a format of fbin names. -/
def binFmt : FBinFmt → Fmt
  | .f32 => .f32
  | .f16 => .f16
  | .bf16 => .bf16
  | .f16x2 => .f16x2
  | .bf16x2 => .bf16x2

/-- An operation on elements applied to registers of a format (R234): f32 whole, the scalar 16-bit formats on bits [15:0],
the packed formats on both halves. -/
def onElements (f : Fmt) (op : Fmt → List Nat → Nat) (v : List Word) : Word :=
  let low := v.map (fun x => x.toNat % 2 ^ 16)
  let high := v.map (fun x => x.toNat / 2 ^ 16)
  BitVec.ofNat 32 (match f with
    | .f16x2 => op .f16 low + 2 ^ 16 * op .f16 high
    | .bf16x2 => op .bf16 low + 2 ^ 16 * op .bf16 high
    | .f32 => op .f32 (v.map BitVec.toNat)
    | f => op f low)

/-- Whether element `a` lies below element `b`, −0 below +0. -/
def below (e : Fmt) (a b : Nat) : Bool :=
  (decodeElem e a).cmp (decodeElem e b) == .lt
    || ((decodeElem e a).cmp (decodeElem e b) == .eq && (decodeElem e a).neg)

/-- The lesser or the greater of two elements (R235). -/
def pick (e : Fmt) (greater : Bool) (a b : Nat) : Nat :=
  if (decodeElem e a).isNan then (if (decodeElem e b).isNan then nanCode e else b)
  else if (decodeElem e b).isNan then a
  else if greater then (if below e a b then b else a)
  else if (decodeElem e b).cmp (decodeElem e a) == .lt then b
  else if (decodeElem e a).cmp (decodeElem e b) == .eq && !(decodeElem e a).neg then b
  else a

/-- |a| with a sign; the canonical NaN for a NaN (R235). -/
def signed (e : Fmt) (a : Nat) (neg : Bool) : Nat :=
  if (decodeElem e a).isNan then nanCode e else a % 2 ^ (elemBits e - 1) + (if neg then 2 ^ (elemBits e - 1) else 0)

/-- A float word with two sources: registers, format, and the result on one element under a mode (R235, R238). -/
structure FBin where
  d : Nat
  a : Nat
  b : Nat
  m : Nat
  f : Fmt
  op : Rnd → Fmt → Nat → Nat → Nat

/-- The float words with two sources; every result is exact and rounded once (R238). -/
def floatBinary : Instr → Option FBin
  | .fadd d a b m f => some ⟨d, a, b, m, binFmt f, fun r e x y => roundTo e r 0 false ((decodeElem e x).add r (decodeElem e y))⟩
  | .fsub d a b m f =>
    some ⟨d, a, b, m, binFmt f, fun r e x y => roundTo e r 0 false ((decodeElem e x).add r (decodeElem e y).negate)⟩
  | .fmul d a b m f => some ⟨d, a, b, m, binFmt f, fun r e x y => roundTo e r 0 false ((decodeElem e x).mul (decodeElem e y))⟩
  | .fdiv d a b m f => some ⟨d, a, b, m, binFmt f, fun r e x y => roundTo e r 0 false ((decodeElem e x).div (decodeElem e y))⟩
  | .fmin d a b m f => some ⟨d, a, b, m, binFmt f, fun _ e x y => pick e false x y⟩
  | .fmax d a b m f => some ⟨d, a, b, m, binFmt f, fun _ e x y => pick e true x y⟩
  | .fcopysign d a b m f => some ⟨d, a, b, m, binFmt f, fun _ e x y => signed e x (y.testBit (elemBits e - 1))⟩
  | _ => none

/-- A real rounded to an integral value, its sign kept (R239). -/
def integralOf (r : Rnd) : Val → Val
  | .real neg m e _ => .real neg (roundInt r neg m e) 0 false
  | v => v

/-- A float word with one source. -/
structure FUn where
  d : Nat
  a : Nat
  m : Nat
  f : Fmt
  op : Rnd → Fmt → Nat → Nat

/-- The float words with one source. The functions of R239 that no finite sum of powers of two gives are taken from their
evaluation `evalFun`, rounded once by `roundEval`; where that evaluation does not decide a rounding the value is free (log
entry 9). -/
def floatUnary : Instr → Option FUn
  | .fneg d a m f => some ⟨d, a, m, floatFmt f, fun _ e x => signed e x (!x.testBit (elemBits e - 1))⟩
  | .fabs d a m f => some ⟨d, a, m, floatFmt f, fun _ e x => signed e x false⟩
  | .frcp d a m f => some ⟨d, a, m, floatFmt f, fun r e x => roundTo e r 0 false ((Val.ofInt 1).div (decodeElem e x))⟩
  | .ffloor d a m f => some ⟨d, a, m, floatFmt f, fun r e x => roundTo e r 0 false (integralOf .rd (decodeElem e x))⟩
  | .fceil d a m f => some ⟨d, a, m, floatFmt f, fun r e x => roundTo e r 0 false (integralOf .ru (decodeElem e x))⟩
  | .ftrunc d a m f => some ⟨d, a, m, floatFmt f, fun r e x => roundTo e r 0 false (integralOf .rz (decodeElem e x))⟩
  | .frint d a m f => some ⟨d, a, m, floatFmt f, fun r e x => roundTo e r 0 false (integralOf r (decodeElem e x))⟩
  | .fsqrt d a m f => some ⟨d, a, m, floatFmt f, fun r e x => roundEval e r 2 x (evalFun .sqrt r (decodeElem e x))⟩
  | .frsq d a m f => some ⟨d, a, m, floatFmt f, fun r e x => roundEval e r 4 x (evalFun .rsq r (decodeElem e x))⟩
  | .fexp2 d a m f => some ⟨d, a, m, floatFmt f, fun r e x => roundEval e r 5 x (evalFun .exp2 r (decodeElem e x))⟩
  | .flog2 d a m f => some ⟨d, a, m, floatFmt f, fun r e x => roundEval e r 6 x (evalFun .log2 r (decodeElem e x))⟩
  | .fsin d a m f => some ⟨d, a, m, floatFmt f, fun r e x => roundEval e r 7 x (evalFun .sin r (decodeElem e x))⟩
  | .fcos d a m f => some ⟨d, a, m, floatFmt f, fun r e x => roundEval e r 8 x (evalFun .cos r (decodeElem e x))⟩
  | .ftanh d a m f => some ⟨d, a, m, floatFmt f, fun r e x => roundEval e r 9 x (evalFun .tanh r (decodeElem e x))⟩
  | .fsigm d a m f => some ⟨d, a, m, floatFmt f, fun r e x => roundEval e r 10 x (evalFun .sigm r (decodeElem e x))⟩
  | _ => none

/-- The fused words: registers and format (R240). -/
def floatFused : Instr → Option (Nat × Nat × Nat × Nat × Nat × Fmt)
  | .ffmaF32 d a b c m => some (d, a, b, c, m, .f32)
  | .ffmaF16x2 d a b c m => some (d, a, b, c, m, .f16x2)
  | .ffmaBf16x2 d a b c m => some (d, a, b, c, m, .bf16x2)
  | _ => none

/-- The mode of a float operation (R69, R235): Mode(), with RNE for stochastic. -/
def plainMode (x : Iss) : Rnd := if x.mode = .rs then .rn else x.mode

/-! ### Conversions (R69, R71, R243 to R245) -/

/-- The LFSR after n steps. -/
def lfsr (seed : Word) : Nat → Word
  | 0 => seed
  | n + 1 => lfsrStep (lfsr seed n)

/-- The mode of a conversion: stochastic only where it narrows (R69). -/
def convertMode (x : Iss) (d : Fmt) : Rnd :=
  if [Fmt.f16, .bf16, .e4m3, .ta8, .ta6, .f16x2, .bf16x2, .e4m3x4, .ta8x4, .ta6x4].contains d then x.mode else plainMode x

/-- An integer result placed in a register or a pair (R48). -/
def intElem (d : Fmt) (y : Int) : Word64 :=
  match d with
  | .s8 => (BitVec.ofInt 8 y).signExtend 64
  | .s16 => (BitVec.ofInt 16 y).signExtend 64
  | .n8 => (BitVec.ofInt 8 y).zeroExtend 64
  | .n16 => (BitVec.ofInt 16 y).zeroExtend 64
  | .s64 | .n64 => BitVec.ofInt 64 y
  | _ => (BitVec.ofInt 32 y).zeroExtend 64

/-- The integer that a register or pair of an integer code holds (R243). -/
def intSource (s : Fmt) (a : Word64) : Int :=
  match s with
  | .s8 | .s16 | .s32 => (a.truncate 32).toInt
  | .s64 => a.toInt
  | _ => a.toNat

/-- An integer clamped to the range of a format. -/
def clampTo (d : Fmt) (y : Int) : Int := if y < (intRange d).1 then (intRange d).1 else if (intRange d).2 < y then (intRange d).2 else y

/-- The element values that a lane of a conversion converts, in the order of its result (R244). -/
def convElems (packing : Bool) (s : Fmt) (a : Word64) : List Val :=
  if packing then elemVals s (a.toNat % 2 ^ 32) ++ elemVals s (a.toNat / 2 ^ 32) else elemVals s a.toNat

/-- Element codes placed in a register, and from there on in the next register (R48, R244). -/
def placeAll (d : Fmt) (codes : List Nat) : Nat :=
  let ps := (elemsOf d).1
  (codes.zipIdx.map (fun p => p.1 * 2 ^ (ps.getD (p.2 % ps.length) 0 + 32 * (p.2 / ps.length)))).sum

/-- A lane of a conversion; `draw k` are the LFSR bits of its element k (R71). -/
def convertLane (packing : Bool) (d s : Fmt) (sat : Bool) (r : Rnd) (draw : Nat → Nat) (a : Word64) : Word64 :=
  if d.isInt then
    intElem d (if s.isInt then (if sat then clampTo d (intSource s a) else intSource s a) else toInt d r (decodeElem s a.toNat))
  else
    BitVec.ofNat 64 (placeAll d ((convElems packing s a).zipIdx.map (fun p => roundTo (elemsOf d).2.2 r (draw p.2) sat p.1)))

/-- |x| of a value. -/
def magnitude : Val → Val
  | .real _ m e st => .real false m e st
  | .inf _ => .inf false
  | .nan => .nan

/-- The greatest of some magnitudes; 0 of none. -/
def greatest (xs : List Val) : Val := xs.foldr (fun x g => if x.cmp g = .gt then x else g) (Val.zero false)

/-- The scale code of eight values in a narrow format (R68): 255 where one is no real, 127 for zeros, else t + 127 with t from the
greatest magnitude M = m × 2^e, whose leading bit has the weight 2^top. -/
def scaleCode (f : Fmt) (xs : List Val) : Nat :=
  if xs.any (fun x => match x with
    | .real .. => false
    | _ => true) then 255
  else
    match greatest (xs.map magnitude) with
    | .real _ m e _ =>
      let top : Int := (m.log2 : Int) + e
      let above := fun (t : Int) (g : Nat) => (Val.real false m (e - t) false).cmp (Val.ofInt g) = .gt
      let t := match f with
        | .e4m3 => if above (top - 8) 448 then top - 7 else top - 8
        | .s8 => if above (top - 6) 127 then top - 5 else top - 6
        | _ => top
      if m = 0 then 127 else ((if t < -127 then -127 else if 127 < t then 127 else t) + 127).toNat
    | _ => 255

/-- The lanes of a mask below l. -/
def rankIn (m : Mask) (l : Nat) : Nat := ((List.range l).filter (fun k => hasLane m k)).length

/-- The form of a conversion: packing, a pair as source, a pair as destination (R242, R244). -/
def isPacking (d s : Fmt) : Bool := cvtKind d s false == some .pack
def pairSource (d s : Fmt) : Bool := isPacking d s || s.isWide
def pairResult (d s : Fmt) : Bool := cvtKind d s false == some .unpack || d.isWide

/-- Elements that a lane of a conversion into a float format steps the LFSR for. -/
def elementsPerLane (d s : Fmt) : Nat :=
  if isPacking d s || pairResult d s then (if (elemsOf d).1.length = 1 then 2 else (elemsOf d).1.length * (if isPacking d s then 1 else 2))
  else 1

/-! ### Lane exchange (R247 to R252) -/

/-- Src(va, k): an exited lane and a lane past 31 read 0. -/
def source (c : Ctx) (a k : Nat) : Word := if k < 32 ∧ hasLane c.live k = true then c.lane a k else 0

/-- Source class, result code, start and operation of a scan (R252). -/
def scanRule : ScanOp → Cls × Fmt × Word × (Rnd → Word → Word → Word)
  | .addN32 => (.t32, .n32, 0, fun _ x y => x + y)
  | .minS32 => (.s32, .s32, 0x7FFFFFFF, fun _ x y => if x.slt y then x else y)
  | .maxS32 => (.s32, .s32, 0x80000000, fun _ x y => if x.slt y then y else x)
  | .minN32 => (.n32, .n32, 0xFFFFFFFF, fun _ x y => if x.ult y then x else y)
  | .maxN32 => (.n32, .n32, 0, fun _ x y => if x.ult y then y else x)
  | .addF32 => (.is .f32, .f32, 0,
      fun r x y => BitVec.ofNat 32 (roundTo .f32 r 0 false ((decodeElem .f32 x.toNat).add r (decodeElem .f32 y.toNat))))
  | .minF32 => (.is .f32, .f32, 0x7F800000, fun _ x y => BitVec.ofNat 32 (pick .f32 false x.toNat y.toNat))
  | .maxF32 => (.is .f32, .f32, 0xFF800000, fun _ x y => BitVec.ofNat 32 (pick .f32 true x.toNat y.toNat))

/-- The fold of a scan over the lanes of a mask below n, in ascending order (R252). -/
def scanTo (op : Word → Word → Word) (start : Word) (v : Nat → Word) (m : Mask) (n : Nat) : Word :=
  ((List.range n).filter (fun k => hasLane m k)).foldl (fun acc k => op acc (v k)) start

/-! ### Shapes and prices (R44, R158 to R161, R213, R236, R260, R280, R301) -/

/-- The row of R44 under which a word's result falls. -/
inductive Row | plain | sum | product | shift
  deriving DecidableEq, Repr

def rowOf : Instr → Row
  | .iadd .. | .isub .. | .iaddImm .. => .sum
  | .imulLo .. | .imulLoImm .. => .product
  | .shl .. | .shlImm .. => .shift
  | _ => .plain

/-- The shape of a lane-independent result before its mask (R44); inside an xir it is general (R254). -/
def shapeOf (xir : Bool) (row : Row) (srcs : List Shape) : ResK :=
  if xir then .gen
  else if srcs.all Shape.isUniform then .uni
  else
    match row with
    | .plain => .gen
    | .sum => if srcs.all Shape.isCompact then .aff else .gen
    | .product => if srcs.all Shape.isCompact && decide ((srcs.filter (fun x => !x.isUniform)).length ≤ 1) then .aff else .gen
    | .shift => if (srcs.take 1).all Shape.isCompact && (srcs.drop 1).all Shape.isUniform then .aff else .gen

/-- The general and the uniform price of a word in grains; one price twice where it has no uniform price. -/
def price : Instr → Nat × Nat
  | .imulLo .. | .imulHiS32 .. | .imulHiN32 .. | .imulLoImm .. | .imad .. => (4, 2)
  | .idivS32 .. | .idivN32 .. | .iremS32 .. | .iremN32 .. => (16, 8)
  | .iadd64 .. | .isub64 .. | .iminS64 .. | .iminN64 .. | .imaxS64 .. | .imaxN64 .. | .shl64 .. | .shrN64 .. | .shrS64 ..
  | .popc64 .. | .clz64 .. => (4, 2)
  | .imulLo64 .. | .imulWideS32 .. | .imulWideN32 .. => (8, 4)
  | .icmp _ _ _ t _ => if t = .s64 ∨ t = .n64 then (4, 2) else (2, 1)
  | .mand .. | .mor .. | .mxor .. | .mandn .. | .mnot .. | .mmov .. | .mpop .. | .mfirst .. | .join => (1, 1)
  | .mtov .. | .br .. | .call .. | .regang .. | .fcmp .. | .ballot .. | .bcast .. => (2, 2)
  | .jmp .. | .calli .. | .ret .. => (4, 4)
  | .fadd _ _ _ _ f | .fsub _ _ _ _ f | .fmul _ _ _ _ f | .fmin _ _ _ _ f | .fmax _ _ _ _ f | .fcopysign _ _ _ _ f =>
    if f = .f16x2 ∨ f = .bf16x2 then (3, 3) else (2, 2)
  | .fdiv _ _ _ _ f => if f = .f16x2 ∨ f = .bf16x2 then (12, 12) else (8, 8)
  | .fneg .. | .fabs .. | .ffloor .. | .fceil .. | .ftrunc .. | .frint .. => (2, 2)
  | .fsqrt .. | .frcp .. | .frsq .. | .fexp2 .. | .flog2 .. | .fsin .. | .fcos .. | .ftanh .. | .fsigm .. => (8, 8)
  | .ffmaF32 .. => (3, 3)
  | .ffmaF16x2 .. | .ffmaBf16x2 .. | .cvtBlk .. | .shfl .. => (4, 4)
  | .cvt _ _ s _ _ d => if cvtKind d s false = some .element then (2, 2) else (3, 3)
  | .xchg .. => (3, 3)
  | .scan _ _ _ o | .scanx _ _ _ o => if o = .addF32 ∨ o = .minF32 ∨ o = .maxF32 then (8, 8) else (6, 6)
  | .xir .. => (0, 0)
  | .ldL _ _ _ z _ | .stL _ _ _ z _ => if z = .n64 then (5, 5) else (3, 3)
  | .ldG _ _ _ z _ _ | .stG _ _ _ z _ _ => if z = .n64 then (16, 16) else (8, 8)
  | .lkld .. | .stul .. | .tlook .. => (4, 4)
  | .tset .. => (2, 2)
  | .rgnOpen .. | .rgnClose .. | .cpy .. => (16, 16)
  | .atomLd _ _ _ _ t => if t = .s64 ∨ t = .n64 then (16, 16) else (8, 8)
  | .atomAdd _ _ _ _ _ t | .atomMin _ _ _ _ _ t | .atomMax _ _ _ _ _ t => if t = .s64 ∨ t = .n64 then (20, 20) else (12, 12)
  | .atomCas _ _ _ _ _ t => if t = .n64 then (20, 20) else (12, 12)
  | .atomAnd .. | .atomOr .. | .atomXor .. | .atomExch .. | .atomFadd .. | .atomFmin .. | .atomFmax .. => (12, 12)
  | .red _ _ _ _ _ t => if t = .s64 ∨ t = .n64 then (16, 16) else (10, 10)
  | .cbat | .wait .. | .waitb .. | .exit => (1, 1)
  | .fenceAcq c | .fenceRel c | .fenceAr c =>
    match c with
    | .grp | .crew => (1, 1)
    | .coh => (2, 2)
    | .dev => (4, 4)
    | .span | .sys => (8, 8)
  | .txb .. | .txc | .trap .. | .brk | .tret | .pint .. => (4, 4)
  | .txo .. | .txr | .txe | .setc .. | .barCrew | .barCoh | .macq .. | .mrel .. => (2, 2)
  | .mmq _ k _ _ _ | .mmqByp _ k _ _ _ => (256 * (k + 1), 256 * (k + 1))
  | .mgld .. | .mdrain .. | .mdrainByp .. => (32, 32)
  | .mdrainState .. => (64, 64)
  | .mscan .. => (384, 384)
  | .hintWide .. | .hintMext | .hintRnd .. | .hintBnd .. | .hintYield .. | .hintKeep .. | .hintEvict .. | .bbc .. | .hintFuse ..
  | .hintNoahead .. | .hintAdv .. => (1, 1)
  | _ => (2, 1)

/-- The price at which a word issues whose sources are some registers and whose result has a shape under a mask (R158). -/
def cost (i : Instr) (g : Group) (srcs : List Nat) (m : Mask) (k : ResK) : Nat :=
  if srcs.all (fun v => (g.ctx.reg v).shape.isCompact) = true ∧ g.ctx.live &&& ~~~m = 0 ∧ k ≠ .gen then (price i).2 else (price i).1

/-- The same for a word with a mask result, which counts as uniform (R213). -/
def maskCost (i : Instr) (g : Group) (srcs : List Nat) : Nat :=
  if srcs.all (fun v => (g.ctx.reg v).shape.isCompact) = true then (price i).2 else (price i).1

/-- The shape of the result of a lane-independent word with some source registers (R44). -/
def resultOf (i : Instr) (c : Cur) (g : Group) (srcs : List Nat) : ResK :=
  shapeOf c.xir (rowOf i) (srcs.map (fun v => (g.ctx.reg v).shape))

/-- A lane-independent word with some source registers completes: its result in register `d`, by shape, at its price. -/
def Result (s : State) (c : Cur) (g : Group) (i : Instr) (srcs : List Nat) (d : Nat) (code : Fmt) (ix : Nat) (m : Mask)
    (val : Nat → Word) : Prop :=
  WritesReg s c g i (cost i g srcs m (resultOf i c g srcs)) d code ix (resultOf i c g srcs) m val

/-! ### Bounds on 32-bit results (R57, R82, R83) -/

/-- The integer that 32 bits of code s32 or n32 hold. -/
def intOf (f : Fmt) (x : Word) : Int := if f = .s32 then x.toInt else x.toNat

/-- A result outside the bound of its code (R82). -/
def outside (b : Bound) (x : Word) : Bool :=
  decide (intOf b.fmt x < intOf b.fmt (lo32 b.low) ∨ intOf b.fmt (lo32 b.high) < intOf b.fmt x)

/-- The result as a clamp leaves it (R83): every integer of 32 bits is a value of its format. -/
def clamped (b : Bound) (x : Word) : Word :=
  if intOf b.fmt (lo32 b.high) < intOf b.fmt x then lo32 b.high
  else if intOf b.fmt x < intOf b.fmt (lo32 b.low) then lo32 b.low else x

/-- The same for an f32 value: a NaN is out of bounds, and a clamp takes it to the low end (R82, R83). -/
def outsideF32 (b : Bound) (x : Word) : Bool :=
  let v := decodeElem .f32 x.toNat
  v.isNan || (decodeElem .f32 (lo32 b.low).toNat).cmp v == .gt || v.cmp (decodeElem .f32 (lo32 b.high).toNat) == .gt
def clampedF32 (b : Bound) (x : Word) : Word :=
  let v := decodeElem .f32 x.toNat
  if outsideF32 b x = false then x
  else if v.isNan = false ∧ v.cmp (decodeElem .f32 (lo32 b.high).toNat) = .gt then lo32 b.high
  else lo32 b.low

/-! ### Control flow (R13 to R18, R139, R227 to R233) -/

/-- Whether an active lane takes a branch (R227). -/
def takes (k : BrCond) (act m : Mask) (l : Nat) : Bool :=
  match k with
  | .always => true
  | .t => hasLane m l
  | .f => !hasLane m l
  | .any => act &&& m != 0
  | .all => act &&& ~~~m == 0
  | .none => act &&& m == 0

/-- The target of a branch word: PC + 4 × SignExt(off, 19) (R228). -/
def target (pc o : Nat) : Nat := (BitVec.ofNat 64 pc + (BitVec.ofNat 19 o).signExtend 64 * 4).toNat

/-- A slice at a conditional branch that `tk` of its lanes take (R13). -/
def branched (x : Slice) (tk : BitVec 4) (target fall : Nat) : Slice :=
  let push : Slice := { x with pc := target, cur := tk, stack := .path fall (x.cur &&& ~~~tk) :: .merge x.cur Option.none :: x.stack }
  if x.cur &&& ~~~tk = 0 then { x with pc := target }
  else if tk = 0 then { x with pc := fall }
  else
    match x.stack with
    | .path p m :: r => if p = fall then { x with pc := target, cur := tk, stack := .path p (m ||| (x.cur &&& ~~~tk)) :: r } else push
    | _ => push

/-- The lanes of slice i that name a target. -/
def naming (tgt : Nat → Nat) (i : Nat) (cur : BitVec 4) (u : Nat) : BitVec 4 :=
  cur &&& sliceBits (maskOf (fun l => tgt l == u)) i

/-- A slice at a branch with a target per lane, its distinct targets in ascending order of the lowest lane naming each (R14). -/
def spread (tgt : Nat → Nat) (i : Nat) (x : Slice) : Slice :=
  match targetsOf tgt (lanesOf (sliceMask x.cur i)) with
  | [] => x
  | [u] => { x with pc := u }
  | u :: us =>
    { x with pc := u, cur := naming tgt i x.cur u,
             stack := us.map (fun w => .path w (naming tgt i x.cur w)) ++ .merge x.cur Option.none :: x.stack }

/-- A slice at join; a path entry without a live lane is left by R17 (R16). -/
def joined (live : BitVec 4) (x : Slice) : Slice :=
  match x.stack with
  | [] => { x with pc := x.pc + 4 }
  | .merge m _ :: r => { x with pc := x.pc + 4, cur := m &&& live, stack := r }
  | .path p m :: r =>
    if m &&& live = 0 then unwind live x (setResume (x.pc + 4) r)
    else { x with pc := p, cur := m &&& live, stack := setResume (x.pc + 4) r }

/-- Whether the top entry of every slice of a gang is a path entry with a PC. -/
def topPaths (sl : List Slice) (members : List Nat) (pc : Nat) : Bool :=
  members.all (fun j => match sl[j]? with
    | some y => (match y.stack with
      | .path p _ :: _ => p == pc
      | _ => false)
    | none => false)

/-- A slice of a gang in a live attempt at a conditional branch that the lanes `taken` of the gang's lanes `act` take: the slices
go in step, by a common entry or with two entries each, though a slice may have no lane on one side (R139). -/
def branchedInStep (sl : List Slice) (members : List Nat) (act taken : Mask) (target fall i : Nat) (x : Slice) : Slice :=
  let go := x.cur &&& sliceBits taken i
  let stay := x.cur &&& ~~~sliceBits taken i
  let push : Slice := { x with pc := target, cur := go, stack := .path fall stay :: .merge x.cur Option.none :: x.stack }
  if taken = 0 then { x with pc := fall }
  else if act &&& ~~~taken = 0 then { x with pc := target }
  else if topPaths sl members fall = true then
    match x.stack with
    | .path p m :: r => { x with pc := target, cur := go, stack := .path p (m ||| stay) :: r }
    | _ => push
  else push

/-- A slice of such a gang at a branch with a target per lane: the targets are those of the whole gang, each slice pushes its own
lanes of each, possibly none (R139). -/
def spreadInStep (tgt : Nat → Nat) (act : Mask) (i : Nat) (x : Slice) : Slice :=
  match targetsOf tgt (lanesOf act) with
  | [] => x
  | [u] => { x with pc := u }
  | u :: us =>
    { x with pc := u, cur := naming tgt i x.cur u,
             stack := us.map (fun w => .path w (naming tgt i x.cur w)) ++ .merge x.cur Option.none :: x.stack }

/-- A slice of such a gang at join: an entry without a lane is popped like any other (R139). -/
def joinedInStep (live : BitVec 4) (x : Slice) : Slice :=
  match x.stack with
  | [] => { x with pc := x.pc + 4 }
  | .merge m _ :: r => { x with pc := x.pc + 4, cur := m &&& live, stack := r }
  | .path p m :: r => { x with pc := p, cur := m &&& live, stack := setResume (x.pc + 4) r }

/-- The slices of a gang changed, their pending hints consumed (R181), the gang parted by next PC (R18). -/
def follow (sl : List Slice) (members : List Nat) (f : Nat → Slice → Slice) : List Slice :=
  repart (onSlices sl members (fun i x => { f i x with hints := .none })) members

/-- The same inside a live attempt, where the gang does not part (R139). -/
def followInStep (sl : List Slice) (members : List Nat) (f : Nat → Slice → Slice) : List Slice :=
  onSlices sl members (fun i x => { f i x with hints := .none })

/-- Every slice of a gang holds at most 16 entries after a change (R15). -/
def Fits (sl : List Slice) (members : List Nat) (f : Nat → Slice → Slice) : Prop :=
  ∀ i ∈ members, ∀ x, sl[i]? = some x → (f i x).stack.length ≤ 16

/-- The slices of the gang of a word after a branch: by `apart` outside an attempt, by `inStep` in one; and no stack overflows. -/
def goes (c : Cur) (g : Group) (apart inStep : Nat → Slice → Slice) : List Slice :=
  if g.tx.isNone = true then follow g.ctx.slices c.slices apart else followInStep g.ctx.slices c.slices inStep
def Goes (c : Cur) (g : Group) (apart inStep : Nat → Slice → Slice) : Prop :=
  (g.tx = none → Fits g.ctx.slices c.slices apart) ∧ (g.tx ≠ none → Fits g.ctx.slices c.slices inStep)

/-- Targets that may be gone to (R232): aligned, of 56 bits, on pages that are ready to be read. -/
def Reachable (s : State) (g : Group) (ts : List Nat) : Prop :=
  (∀ u ∈ ts, u % 4 = 0 ∧ u < 2 ^ 56) ∧ s.probe g false .read (ts.map (fun u => (u, 4))) = .ready

/-- The word completes: a control transfer that leaves the context `k` and ends the group's speculation entries (R346). -/
def Turns (s : State) (c : Cur) (g : Group) (i : Instr) (k : Ctx) : Prop :=
  ∃ t h, exec i s = .next t ∧ Kept s t c (price i).1 { g with specs := [] } h ∧ h.ctx = k

/-- The gang of the word waits as `w` says from this cycle on, each of its slices marked; its pending hints stay while it waits
(R185); the group waits when no gang of it runs (R33). -/
def Waits (s : State) (c : Cur) (g : Group) (i : Instr) (w : GangWait) (mark : Slice → Slice) : Prop :=
  ∃ t h, exec i s = .next t ∧
    Kept s t c (price i).1 { g with status := h.status, wait := h.wait, waitStart := h.waitStart } h ∧
    h.ctx = { g.ctx with slices := onSlices g.ctx.slices c.slices (fun _ y => mark { y with wait := w, since := s.cycle }) } ∧
    h.status = (if h.ctx.slices.any (fun y => !y.fin && y.wait == .run) then .ready else .waiting) ∧
    (h.status = .waiting → h.wait = .gangs)

/-! ### Ends of attempts (R143 to R145) -/

/-- The live attempt of a word's group has ended without its writes: memory and registers are as before, the slices that have not
finished stand at `pc` with the lanes of txb that are still live, their stacks cut back to their depths at txb. -/
structure AttemptEnds (s t : State) (c : Cur) (g : Group) (a : Tx) (pc : Nat) (h : Group) : Prop where
  group : t.group c.core c.frame = some h
  tx : h.tx = none
  regs : h.ctx.regs = g.ctx.regs ∧ h.ctx.masks = g.ctx.masks
  slices : ∀ i : Nat, h.ctx.slices[i]? = g.ctx.slices[i]?.map (fun x => if x.fin = true then x else
    { x with stack := x.stack.drop (x.stack.length - a.depths.getD i 0), cur := sliceBits (a.lanes &&& g.ctx.live) i, pc := pc,
             hints := .none, wait := .run, xir := none, quarters := 0 })
  mem : ∀ x, t.mem.read x = s.mem.read x

/-- It has ended by a persistent abort: at Lfail, its stamp released, the cause and the persist bit in c.txstat. -/
def Failed (s t : State) (c : Cur) (g : Group) (a : Tx) (cause : Nat) : Prop :=
  ∃ h, AttemptEnds s t c g a a.lfail h ∧ h.lastStamp = none ∧
    (a.layers.length ≤ 5 → a.restarts < 256 → h.ctx.txstat.toNat % 32 = cause + 16 ∧ h.ctx.txstat.getLsbD 16 = false)

/-- It has ended by a transient abort: at its txb, its stamp kept with one more restart. -/
def Restarts (s t : State) (c : Cur) (g : Group) (a : Tx) (cause : Nat) : Prop :=
  ∃ h, AttemptEnds s t c g a a.pc h ∧ h.lastStamp = some (a.stamp, min (a.restarts + 1) 255, a.pc) ∧
    h.ctx.txstat.toNat % 16 = cause ∧ h.ctx.txstat.getLsbD 16 = false

/-! ### Memory words (R256 to R271, R112) -/

/-- The mask field of a memory word, whether an attempt may hold it (R140) and whether an xir may (R208). -/
def memoryWord : Instr → Option (Option Nat × Bool × Bool)
  | .ldG _ _ m _ c _ | .stG _ _ m _ c _ => some (some m, c.isNone, c.isNone)
  | .ldL _ _ m _ _ => some (some m, true, true)
  | .stL _ _ m _ _ => some (some m, false, true)
  | .lkld _ _ m _ _ | .stul _ _ m _ _ => some (some m, false, false)
  | .tlook _ _ m => some (some m, true, false)
  | .atomAdd .. | .atomMin .. | .atomMax .. | .atomAnd .. | .atomOr .. | .atomXor .. | .atomExch .. | .atomCas ..
  | .atomFadd .. | .atomFmin .. | .atomFmax .. | .red .. | .atomLd .. => some (none, false, false)
  | _ => none

/-- A byte of memory at `a` after bytes are written from `at_` up: a byte where no memory die stands is lost (R90; log
entry 96). -/
def putByte (at_ : Nat) (bs : List Byte) (a : Nat) (old : Byte) : Byte :=
  if at_ ≤ a ∧ a < at_ + bs.length ∧ populated a 1 = true then bs.getD (a - at_) 0 else old

/-- A byte as it is read; where no memory die stands it is free (R90; log entry 96). -/
def seenByte (mem : Nat → Byte) (a : Nat) : Byte := if populated a 1 = true then mem a else Config.voidByte a

/-- The bytes read from `a` up. -/
def seen (mem : Nat → Byte) (a n : Nat) : List Byte := (List.range n).map (fun i => seenByte mem (a + i))

/-- No crew of the group is relaunchable: what it stores goes to memory at once (R435). -/
def Direct (s : State) (g : Group) : Prop := (s.crewOf g).any Crew.relaunchable = false

/-- The core's translation cache lacks no entry that some ranges of a group's addresses need (R95). -/
def Cached (s : State) (core : Nat) (g : Group) (rs : List (Nat × Nat)) : Prop :=
  ∀ k ∈ (s.core core).missed, k.1 = s.aspaceOf g → ∀ p, (s.space k.1).page k.2 = some p →
    ∀ r ∈ rs, meets p.va (pageBytes p.size) r.1 r.2 = false

/-- The lanes' addresses pass their checks: global ones aligned, ready at the probe and translated, local ones in the store,
aligned and, for lkld and stul, not in the cohort form (R93, R95, R96, R105, R257). -/
def Addressed (s : State) (x : Iss) (f : MemForm) (caps : List (List Word)) (m : Mask) : Prop :=
  (f.global = true → Cached s x.core x.g ((lanesOf m).map (fun l => ((globalAddr f caps l).toNat, f.size)))) ∧
  ∀ l, l < 32 → hasLane m l = true →
    (f.global = true → globalAddr f caps l % (f.size : Int) = 0 ∧ s.probeLane x f (globalAddr f caps l) = .ready) ∧
    (f.global = false → f.look = false → s.localAt x.g (localAddr f caps l) ≠ .bad ∧ localAddr f caps l % f.size = 0 ∧
      (f.lock = true → localAddr f caps l / 2 ^ 21 % 2 = 0))

/-- A byte of a space (0 global, core + 1 local) after the lanes of a mask have stored `size` bytes each, ascending. -/
def byteAfter (spot : Nat → Option (Nat × Nat)) (size : Nat) (data : Nat → Nat) (m : Mask) (space a : Nat) (old : Byte) : Byte :=
  (lanesOf m).foldl (fun b l =>
    match spot l with
    | some (0, p) => if space = 0 then putByte p (leBytes (data l) size) a b else b
    | some (k + 1, p) => if space = k + 1 ∧ p ≤ a ∧ a < p + size then (leBytes (data l) size).getD (a - p) 0 else b
    | none => b) old

/-- Read-modify-writes of lanes in order on a memory: the memory after them and the values they found (R270). -/
def atomics (op : AOp) (size : Nat) (sgn : Bool) (pa data new : Nat → Nat) : List Nat → (Nat → Byte) → (Nat → Byte) × (Nat → Nat)
  | [], m => (m, fun _ => 0)
  | l :: ls, m =>
    let old := ofLe (seen m (pa l) size)
    let m1 := match rmw op size sgn old (data l) (new l) with
      | some x => fun a => putByte (pa l) (leBytes x size) a (m a)
      | none => m
    let r := atomics op size sgn pa data new ls m1
    (r.1, fun k => if k = l then old else r.2 k)

/-- An address of memory outside the ring of the error log, in which a logged event puts its entry (R439). -/
def OffLog (s : State) (a : Nat) : Prop := a < s.errlog.base ∨ s.errlog.base + 64 * 2 ^ (s.errlog.size + 4) ≤ a

/-- The byte that a crew's buffered writes leave at an address of memory (R435). -/
def bufferedByte (s : State) (b : List BufEntry) (a : Nat) : Byte :=
  if populated a 1 = true then (bufOverlay (seenByte s.mem.read) b []).over a (s.mem.read a) else s.mem.read a

/-- The buffer of crew n holds some entries more within its limits: 16,384 lines of its own, 262,144 of its compute die (R435). -/
def BufferRoom (s : State) (n : Nat) (k : Crew) (es : List BufEntry) : Prop :=
  (bufLines (k.buffer ++ es)).length ≤ 16384 ∧
  (bufLines (k.buffer ++ es)).length + ((s.crews.filter (fun p => p.1 != n && dieOf p.2.core == dieOf k.core)).map
    (fun p => (bufLines p.2.buffer).length)).sum ≤ 262144

/-- A crew whose buffered writes may go to memory: they carry the generation of its space (R91), none of its buffered
read-modify-writes reads poison (R434). -/
def MayCommit (s : State) (k : Crew) : Prop := (∀ x, k.bufGen = some x → x.1 = s.crewGen k) ∧ s.metRed k.buffer [] = none

/-- A crew has committed early (R436): relaunchable no longer, its buffer empty; in memory stands what it had buffered, with
`more` behind it; outside the ring of the error log, which has an entry of kind 8. -/
def CommittedEarly (s t : State) (n : Nat) (k : Crew) (more : List BufEntry) : Prop :=
  (∃ j, t.crew n = some j ∧ j.relaunchable = false ∧ j.buffer = [] ∧ j.regions = k.regions) ∧
  ∀ a, OffLog s a → t.mem.read a = bufferedByte s (k.buffer ++ more) a

/-- A tracked access may be performed: its attempt is live, its addresses pass their checks and lie on pages of no scope wider than
the device (R140, R141). -/
structure Tracked (s : State) (c : Cur) (g : Group) (i : Instr) (f : MemForm) (m : Nat) (a : Tx) : Prop where
  form : memForm i = some f
  word : ∃ xir, memoryWord i = some (some m, true, xir) ∧ Issues s c g i (memDesc f (some m) true xir) 20
  kind : f.global = true ∧ f.atom = none
  tx : g.tx = some a
  codes : memCodesOk i f g.ctx = true
  placed : Addressed s (s.issOf c g) f (capture g.ctx f) ((s.issOf c g).eff (some m))
  scope : ∀ l, l < 32 → hasLane ((s.issOf c g).eff (some m)) l = true →
    s.scopeAt (s.aspaceOf g) (globalAddr f (capture g.ctx f) l).toNat = 0

/-- The physical address of a lane of a global access of a word, and the lines that its lanes touch. -/
def lanePa (s : State) (c : Cur) (g : Group) (f : MemForm) (l : Nat) : Nat :=
  s.transOf c.core c.frame g (globalAddr f (capture g.ctx f) l).toNat
def lineSet (s : State) (c : Cur) (g : Group) (f : MemForm) (e : Mask) : List Nat :=
  dedup ((lanesOf e).map (fun l => linesOf (lanePa s c g f l) f.size)).flatten

/-- A byte that an attempt has written, in its innermost layer that holds one (R142, R147). -/
def buffered (a : Tx) (x : Nat) : Option Byte := a.layers.findSome? (fun y => y.writes.find x)

/-- The live attempts of other groups. -/
def Others (s : State) (c : Cur) (P : Tx → Prop) : Prop := ∀ p ∈ s.groups, p.1 ≠ gkey c.core c.frame → ∀ u, p.2.tx = some u → P u

/-- Every other group keeps its registers and mask registers. -/
def Bystanders (s t : State) (core frame : Nat) : Prop :=
  ∀ k x, k ≠ gkey core frame → tfind s.groups k = some x →
    ∃ y, tfind t.groups k = some y ∧ y.ctx.regs = x.ctx.regs ∧ y.ctx.masks = x.ctx.masks

/-- An operation leaves its group: out of the queue, out of its counter (R112). -/
def left (g : Group) (op : MemOp) (load : Bool) : Group :=
  let n := if load then g.modCounts op.id (· - 1) id id id else g.modCounts op.id id (· - 1) id id
  { n with ops := g.ops.filter (fun o => o.id != op.id) }

/-- An operation is out of its group's queue; the others stand in it as before, but for what they kept to return to where a write
has ended an attempt of the group itself. -/
def OpsWithout (g h : Group) (op : MemOp) : Prop :=
  let rest := g.ops.filter (fun o => o.id != op.id)
  h.ops.map (fun o => { o with snap := none }) = rest.map (fun o => { o with snap := none }) ∧ (g.tx = none → h.ops = rest)

/-- The quantum buffer after a .quan add of a lane (R128): most recently used first; the partial joins the crew's entry of
the address and size, with the generation and address of its first add (R91); a new entry in a full buffer sends the oldest one
out. -/
def quanJoin (q : List QEntry) (pa crew : Nat) (ty : IntTy) (v quantum gen va : Nat) (made : Origin) : List QEntry :=
  let same := fun (e : QEntry) => e.addr = pa ∧ e.crew = crew ∧ e.flushing = false ∧ IntTy_size e.ty = IntTy_size ty
  let first := q.find? (fun e => decide (same e))
  let rest := q.filter (fun e => !decide (same e))
  let old := (first.map (fun e => e.sum.toNat)).getD 0
  let bits := 8 * IntTy_size ty
  let sum := (old + v) % 2 ^ bits
  let size := if IntTy_signed ty then (if 2 ^ (bits - 1) ≤ sum then 2 ^ bits - sum else sum) else sum
  let due := decide (quantum ≤ size)
  let waiting := rest.filter (fun e => !e.flushing)
  let full := first.isNone && decide (32 ≤ waiting.length)
  ⟨pa, crew, ty, (first.map QEntry.gen).getD gen, (first.map QEntry.va).getD va, BitVec.ofNat 64 sum, made, due, due⟩ ::
    rest.map (fun e => if full ∧ some e = waiting.getLast? then { e with flushing := true } else e)

/-- A word with one price that completes: the state `s1`, the group `g1` in it, what an issue leaves besides. -/
def Becomes (s : State) (c : Cur) (i : Instr) (s1 : State) (g1 : Group) : Prop :=
  ∃ t h, exec i s = .next t ∧ Kept s1 t c (price i).1 g1 h ∧ h.ctx = g1.ctx

/-- A context whose gang has gone on to the word at PC + 4, its pending hints consumed. -/
def onward (c : Cur) (k : Ctx) : Ctx := { k with slices := stepSlices k.slices c.slices false }

/-! ### Copies, waits, fences, transactions (R101 to R103, R112, R113, R128, R137 to R150, R273 to R277) -/

/-- A tag table after tset (R99, R100): in ascending lane order, a lane's slot, counted from the crew's first, takes the low
56 bits of its pair. -/
def tagAfter (k : Ctx) (base a b : Nat) (m : Mask) (slot : Nat) (old : Word64) : Word64 :=
  (lanesOf m).foldl (fun v l =>
    if base + (k.lane a l).toNat = slot then BitVec.ofNat 64 ((k.lane64 b l).toNat % 2 ^ 56) else v) old

/-- The state with one more copy operation of a cluster, under a new number; a chuck slot that it fills is not valid until
it has completed (R109, R110). -/
def withCopy (s : State) (cl : Nat) (o : CopyOp) : State :=
  let fills := fun (h : Chuck) => { h with valid := false, filling := h.filling + 1 }
  let s := { s with nextId := s.nextId + 1 }.modCluster cl (fun k => { k with copies := k.copies ++ [o] })
  match o.dst with
  | .chuck d n => s.modCluster d (fun k => { k with chuck := Sys2Proof.Machine.tset k.chuck n (fills (tget k.chuck n .init)) })
  | _ => s

/-- The group with that copy counted in cp and put in the open batch; what its walks have read of the addresses copied is used
no more (R112, R113, R346). -/
def copied (s : State) (g : Group) (o : CopyOp) : Group :=
  { g with cp := g.cp + 1, openOps := g.openOps ++ [s.nextId], specs := g.specs.filter (fun e => !o.covers e.1 e.2.2) }

/-- The bytes of the descriptor that rgn.open or cpy names, its 64-byte pieces each by their own translation (R88, R89, R257,
R272). -/
def descriptor (s : State) (c : Cur) (g : Group) (a size : Nat) : List Byte :=
  let va := (g.ctx.lane64 a ((lowest c.active).getD 0)).toNat
  ((List.range ((size + 63) / 64)).map (fun k =>
    s.viewBytes c.core g (s.transOf c.core c.frame g (va + 64 * k)) (min 64 (size - 64 * k)))).flatten

/-- That descriptor may be read: a pair, aligned, ready at the probe and translated (R93, R95, R257), and no older access of the
lanes that writes its bytes or acquires is still to be performed (R116, R120). -/
def DescriptorReady (s : State) (c : Cur) (g : Group) (a size align : Nat) : Prop :=
  let va := (g.ctx.lane64 a ((lowest c.active).getD 0)).toNat
  sourceOk g.ctx a .t64 = true ∧ va % align = 0 ∧ Cached s c.core g [(va, size)] ∧
  (∀ k, 64 * k < size →
    descPending s (s.issOf c g) (s.transOf c.core c.frame g (va + 64 * k)) (min 64 (size - 64 * k)) = false) ∧
  s.probeSpan (s.issOf c g) .read [((va : Int), size)] = .ready

/-- A copy descriptor of at least one element passes the checks of R273. -/
def CopyReady (s : State) (c : Cur) (g : Group) (d : CopyDesc) : Prop :=
  let x := s.issOf c g
  let sspan := strideSpan d.esize d.extents d.sstride
  let dspan := strideSpan d.esize d.extents d.dstride
  let at_ := fun (r : Int × Nat) => (r.1.toNat, r.2)
  d.malformed = false ∧ d.total ≠ 0 ∧
  (d.skind = 2 → d.sbase < x.chuckCount) ∧ (d.dkind = 2 → d.dbase < x.chuckCount) ∧
  (d.skind = 1 → localEndBad s x d.sbase sspan d.esize = false) ∧
  (d.dkind = 1 → localEndBad s x d.dbase dspan d.esize = false) ∧
  (d.skind ≠ 2 → d.sbase % d.esize = 0) ∧ (d.dkind ≠ 2 → d.dbase % d.esize = 0) ∧
  (d.skind = 0 → s.probeSpan x .read (endRange d.sbase sspan d.esize) = .ready ∧
    Cached s c.core g ((endRange d.sbase sspan d.esize).map at_)) ∧
  (d.dkind = 0 → s.probeSpan x .write (endRange d.dbase dspan d.esize) = .ready ∧
    Cached s c.core g ((endRange d.dbase dspan d.esize).map at_))

/-- The gang that issues is the one that its lowest slice names. -/
def IsGang (c : Cur) (g : Group) : Prop := gangSlices g (c.slices.headD 0) = c.slices

/-- A word that waits (R33, R112, R113): where what it waits for has come, the gang goes on; otherwise the group waits at the
word, its pending hints kept until the wait ends (R185). -/
def WaitsFor (s : State) (c : Cur) (g : Group) (i : Instr) (w : Wait) (come : Prop) : Prop :=
  (come → Becomes s c i s { g with status := .ready, wait := .none, waitStart := s.cycle, ctx := onward c g.ctx }) ∧
  (¬ come → Becomes s c i s
    { g with status := .waiting, wait := w, waitStart := s.cycle })

/-- Adds performed on a memory one after another: entries of the quantum buffer (R128). -/
def addsPerformed : List QEntry → (Nat → Byte) → Nat → Byte
  | [], m => m
  | e :: r, m =>
    let n := IntTy_size e.ty
    let sum := (ofLe (seen m e.addr n) + e.sum.toNat) % 2 ^ (8 * n)
    addsPerformed r (fun a => putByte e.addr (leBytes sum n) a (m a))

/-- The parts of a fence: scope, acquire, release. -/
def fenceOf : Instr → Option (Scope × Bool × Bool)
  | .fenceAcq c => some (c, true, false)
  | .fenceRel c => some (c, false, true)
  | .fenceAr c => some (c, true, true)
  | _ => none

/-! ### Control registers (R56, R303, R304, R312, R313) -/

/-- The core's bucket after a word whose result is uniform and costs one grain when it covers the live lanes, two otherwise
(R158, R161). -/
def levelAfter (s : State) (c : Cur) (g : Group) : Nat :=
  ((s.charge c.core (if covers g.ctx.live c.active = true then 1 else 2)).core c.core).level

/-- What getc reads in lane l (R26, R56, R303). -/
def controlValue (s : State) (c : Cur) (g : Group) (l : Nat) : CReg → Nat
  | .wid => g.wid.toNat / 2 ^ 32 * 2 ^ 32 + (g.wid.toNat + l) % 2 ^ 32
  | .lane => l
  | .slice => l / 4
  | .gang => bitSet c.slices
  | .where_ => c.core
  | .time => s.time
  | .tokens => levelAfter s c g
  | .charge => s.power.charge
  | .allow => s.power.flux * s.power.area * 2048 / 2100 * (s.cluster (c.core / 4)).m / 256
  | .txstat => g.ctx.txstat.toNat
  | .bflag => g.ctx.bflag.toNat
  | .quantum => g.ctx.quantum.toNat
  | .batch => g.ctx.batch.toNat
  | .round => g.ctx.round
  | .seed => g.ctx.seed.toNat

/-- The code of what getc reads. -/
def controlFmt : CReg → Fmt
  | .wid => .b32
  | .time => .n64
  | _ => .n32

/-- A control register set (R56, R304); c.seed takes 1 for 0. -/
def controlSet (k : Ctx) (w : Word) : CReg → Ctx
  | .bflag => { k with bflag := w }
  | .quantum => { k with quantum := w }
  | .round => { k with round := w.toNat }
  | .seed => { k with seed := if w = 0 then 1 else w }
  | _ => k

/-- What ebud reads by selector (R312). -/
def budgetValue (s : State) (c : Cur) (g : Group) : Nat → Nat
  | 0 => levelAfter s c g
  | 1 => s.power.cap
  | 2 => s.power.rate
  | 3 => (s.die (c.core / 64)).latched
  | 4 => s.power.flux * s.power.area * 2048 / 2100
  | 5 => s.power.ivPackage
  | 6 => s.power.grant
  | 7 => s.power.next
  | 8 => g.tokenWait
  | 9 => s.power.ivCore % 2 ^ 32
  | _ => s.power.ivIntent

/-- Fixed steps without what one declaration put into them: `size` of the first step of its start and its interval, which goes
where nothing of it is left (R313). -/
def stepWithout (start made size : Nat) : List (Nat × Nat × Nat) → List (Nat × Nat × Nat)
  | [] => []
  | (a, n, m) :: r =>
    if a = start ∧ m = made then (if size < n then (a, n - size, m) :: r else r) else (a, n, m) :: stepWithout start made size r

/-! ### Matrix words and hints (R180 to R186, R278 to R297) -/

/-- A register write of the hints: the gang goes on with its pending hints changed. -/
def hinted (c : Cur) (g : Group) (f : Hints → Hints) : Ctx :=
  { g.ctx with slices := repart (onSlices g.ctx.slices c.slices (fun _ y => { y with pc := y.pc + 4, hints := f y.hints })) c.slices }

/-- A binding hint: whether it is pending already, and what it leaves pending (R181 to R184). -/
def bindingHint : Instr → Option ((Hints → Prop) × (Hints → Hints))
  | .hintWide w => some (fun h => h.wide ≠ none, fun h => { h with wide := some w })
  | .hintMext => some (fun h => h.mext = true, fun h => { h with mext := true })
  | .hintRnd r => some (fun h => h.rnd ≠ none, fun h => { h with rnd := some r })
  | .hintBnd i => some (fun h => h.bnd ≠ none, fun h => { h with bnd := some i })
  | _ => none

/-- What an advisory hint leaves in its group besides (R58, R180, R186). -/
def advisoryHint : Instr → Option (Group → Group)
  | .hintYield n => some (fun g => { g with yield := n })
  | .hintKeep k r => some (fun g => keepReg g k r)
  | .hintEvict r => some (fun g => { g with cache := g.cache.filter (fun e => e.1 != r) })
  | .hintFuse w => some (fun g => { g with fuse := some w })
  | .hintNoahead f => some (fun g => { g with ctx := { g.ctx with noahead := f } })
  | .hintAdv _ _ => some id
  | _ => none

/-- A hint may issue (R180, R181): it is implemented, outside an xir, and its core can pay a grain and holds for no other group
(R164). -/
structure HintIssues (s : State) (c : Cur) (g : Group) (i : Instr) : Prop where
  cur : s.cur = some c
  group : s.group c.core c.frame = some g
  form : i.wf = true
  feature : s.implements i = true
  xir : c.xir = false
  bound : boundPending g (s.boundsOf g) = false
  hold : ∀ f, s.holder c.core = some f → f = c.frame
  pay : s.canPay c.core 1 = true

/-- Where an operation's operand lies in local store: in range, aligned to 16 bytes (R281). -/
def PlaceReady (s : State) (x : Iss) (a n : Nat) (place : Option (Nat × Nat)) : Prop :=
  (n = 0 → place = none) ∧ (n ≠ 0 → mxPlace s x a n = some place ∧ a % 16 = 0)

/-- A matrix operation of quarter q may enter its unit (R278, R281 to R286, R290, R292): the group owns its benches, which
stand in the core and are not frozen, the slot holds data, formats agree, the operand is in place, tl, table and replay
part have room; a drain under a bound that traps begins with its benches idle, and no element fails it at the last quarter. -/
def EntersMatrix (s : State) (x : Iss) (k : MxKind) (b q : Nat) (va : Option Nat) (a : Nat) (place : Option (Nat × Nat)) : Prop :=
  (∀ m ∈ mxBenches k b, (∀ e ∈ x.g.benchCtx, e.1 ≠ m) ∧ (s.bench x.core m).frozen = false) ∧
  mxState s x k b q false = none ∧ mxFilling s x k = false ∧ mxFormatBad s x k va q = false ∧
  PlaceReady s x a (mxBytes k) place ∧ x.g.tl < 15 ∧
  (mxTabled k = true → (s.cluster (clusterOf x.core)).table.length < 64) ∧ replayLoad s x < 32 ∧
  (∀ bd, drainBound s x k b = some bd → bd.mode = .trap →
    (quartersDone x = 0 → ∀ m ∈ mxBenches k b, s.benchWritten x.core x.frame m = false) ∧
    ((∀ m ∈ activeQuarters x.act, m = q ∨ (quartersDone x).testBit m = true) →
      ∀ m ∈ activeQuarters x.act, quarterFails s x k b m bd = false))

/-- The fusion window of a request (R286): that of the group's pending hint for the first quarter of an mmq, where 0 stands for
32, the same for its other quarters; 32 for an mgld (log entry 37). -/
def window (c : Cur) (x : Iss) (g : Group) (k : MxKind) : Nat :=
  match k with
  | .mul _ _ _ _ =>
    if quartersDone x = 0 then (if g.fuse.getD 0 = 0 then 32 else g.fuse.getD 0)
    else ((g.ctx.slices[c.slices.headD 0]?).map Slice.window).getD 32
  | _ => 32

/-- The group after an operation of quarter q has entered (R278): counted in tl, the quarter noted with its window; after its
last quarter the gang goes on. An mmq has used up the hint of its window (R186). Under stochastic mode a drain steps the LFSR. -/
def quarterIssued (c : Cur) (x : Iss) (g : Group) (k : MxKind) (q : Nat) : Group :=
  let lead := c.slices.headD 0
  let done := g.ctx.quartersOf lead ||| 2 ^ q
  let last := byQuarters k = false ∨ ∀ n ∈ activeQuarters c.active, done.testBit n = true
  let note := fun n w => { g.ctx with seed := lfsr g.ctx.seed (drainSteps x k),
                                      slices := setWindow (setQuarters g.ctx.slices lead n) lead w }
  let h := { g with tl := g.tl + 1, fuse := (match k with
    | .mul _ _ _ _ => none
    | _ => g.fuse) }
  if last then { h with ctx := onward c (note 0 0) } else { h with ctx := note done (window c x g k) }

/-! ### Traps (R377, R381 to R388) -/

/-- A group in the handler of a trap (R385): its live lanes stand at the handler's first word with empty stacks, v2 and v3
hold the frame's address and v4 the cause; the trapped context `k` is kept with its counters, every operation not yet
performed is a valid entry of the replay part. -/
structure Handled (g h : Group) (k : Ctx) (entry : Nat) (tr : Trapped) : Prop where
  mode : h.inHandler = true ∧ h.status = .ready ∧ h.wait = .none ∧ h.handler = some tr ∧ h.ops = [] ∧ h.replay = []
  saved : tr.ctx = k ∧ tr.ld = g.ld ∧ tr.st = g.st ∧ tr.cp = g.cp ∧ tr.tl = g.tl ∧ tr.openOps = g.openOps ∧
    tr.batches = g.batches
  counters : h.ld = 0 ∧ h.st = 0 ∧ h.cp = 0 ∧ h.tl = 0 ∧ h.openOps = [] ∧ h.batches = []
  held : ∀ o ∈ g.ops, o.early = false → ∃ r ∈ tr.replay, r.op = o ∧ r.valid = true
  slices : h.ctx.slices.length = k.slices.length ∧ ∀ i y, h.ctx.slices[i]? = some y →
    y.pc = entry ∧ y.cur = sliceBits k.live i ∧ y.stack = [] ∧ y.hints = .none ∧ y.wait = .run ∧
      y.fin = decide (sliceBits k.live i = 0) ∧ y.xir = none ∧ y.quarters = 0
  regs : ∀ v, v ≠ 2 → v ≠ 3 → v ≠ 4 → h.ctx.reg v = k.reg v
  args : ∀ l, h.ctx.lane 2 l = BitVec.ofNat 32 Config.frameVa ∧ h.ctx.lane 3 l = BitVec.ofNat 32 (Config.frameVa / 2 ^ 32) ∧
    h.ctx.lane 4 l = BitVec.ofNat 32 (tr.info.cause + tr.info.sub * 2 ^ 16)
  rest : h.ctx = { k with slices := h.ctx.slices, regs := h.ctx.regs }

/-- The frame in memory (R381, R382, R384): trap record, fixed part and register part from its first byte, the bench part behind
them, the replay part at the offset given, every other byte as before. -/
def FrameWritten (s t : State) (core frame : Nat) (head benches : List Byte) (off : Nat) (rs : List Replay) : Prop :=
  let base := s.frameAddr core frame
  ∀ a, t.mem.read a = putByte (base + off) (replayPart rs) a
    (putByte (base + head.length) benches a (putByte base head a (s.mem.read a)))

/-- A software trap: cause and subcause (R310, R454); brk stops at the debugger where the launch enables it. -/
def softCause (s : State) (g : Group) : Instr → Option (Nat × Nat)
  | .trap n => some (18, n)
  | .brk => some (if debugOn (s.launchOf g) = true then 33 else 19, 0)
  | _ => none

/-! ### Copies, ends of waits, walks (R20, R94, R110, R113, R151, R152, R283, R306, R344, R450, R451) -/

/-- A byte at `a` after the elements of a copy have been written in order: each element has a place and its bytes. -/
def afterElems (es : List (Nat × List Byte)) (a : Nat) (old : Byte) : Byte :=
  es.foldl (fun b e => if e.1 ≤ a ∧ a < e.1 + e.2.length then e.2.getD (a - e.1) 0 else b) old

/-- The elements of a copy with their bytes as its source holds them, by linear number and displacement at the
destination (R274). -/
def copyElems (s : State) (o : CopyOp) : List (Nat × Int × List Byte) :=
  o.moves.map (fun m => (m.1, m.2.2, (s.copyRead o m.1 m.2.1).1))

/-- Nothing holds the destination of a copy: no guard of an older matrix request on a byte of it, no request that reads its slot
(R109, R291). -/
def Unheld (s : State) (cl : Nat) (o : CopyOp) : Prop :=
  match o.dst with
  | .loc (some (c, p)) => ∀ m ∈ o.moves, s.guarded cl o.guards c ((p : Int) + m.2.2).toNat o.esize = false
  | .chuck c k => s.slotRead c k = false
  | _ => True

/-- The bytes that a copy operation reads from global memory hold no poison. -/
def CleanSource (s : State) (o : CopyOp) : Prop :=
  ∀ va, o.src = .global va → ∀ m ∈ o.moves, s.poisonedAt (s.copyPa o ((va : Int) + m.2.1)) o.esize = false

/-- A slot of a core that a fill or write-back covers (R103). -/
def CoversSlot (o : CopyOp) (core x : Nat) : Prop :=
  ∃ p k v, k ∈ o.wbSlots ∧ x = p / 1024 + k ∧
    (o.src = .global v ∧ o.dst = .loc (some (core, p)) ∨ o.src = .loc (some (core, p)) ∧ o.dst = .global v)

/-- Group numbers name one group each. -/
def OneEach (s : State) : Prop := (s.groups.map Prod.fst).Nodup

/-- A slice that waits at a regang with set k (R20). -/
def AtRegang (k : Nat) (y : Slice) : Prop := y.fin = false ∧ y.wait = .regang k

/-- A slice that waits at the barrier of a crew, or of a cohort (R306). -/
def AtBarrier (coh : Bool) (y : Slice) : Prop := y.fin = false ∧ y.wait = if coh = true then .cohBar else .crewBar

/-- A slice at the release of a barrier: one that waits goes on, and the arrival mark is cleared. -/
def released (coh : Bool) (y : Slice) : Slice :=
  let z := if y.fin = false ∧ y.wait = (if coh = true then GangWait.cohBar else .crewBar) then
      { y with pc := y.pc + 4, wait := .run, hints := .none } else y
  if coh = true then { z with arrCoh := false } else { z with arrCrew := false }

/-- A crew has arrived at a barrier: it has retired, or it lives and each of its groups has every slice arrived or
finished, and is not parked or in a handler (R34, R306, R308). -/
def CrewArrived (s : State) (coh : Bool) (n : Nat) : Prop :=
  ∃ k, s.crew n = some k ∧ (k.retired = true ∨ k.killed = false ∧ ∀ p ∈ s.groups, p.2.crew = n → p.2.status ≠ .retired →
    p.2.handler = none ∧ p.2.status ≠ .parked ∧
    ∀ y ∈ p.2.ctx.slices, y.fin = true ∨ (if coh = true then y.arrCoh else y.arrCrew) = true)

/-- Everything that instructions see is as before: memory, local stores, contexts of groups. -/
def SameState (s t : State) : Prop :=
  (∀ a, t.mem.read a = s.mem.read a) ∧ (∀ n a, (t.core n).lmem.read a = (s.core n).lmem.read a) ∧
  ∀ k x, tfind s.groups k = some x → ∃ y, tfind t.groups k = some y ∧ y.ctx = x.ctx ∧ y.status = x.status ∧ y.ops = x.ops

/-- Only bytes of a ring have changed in memory; local stores, registers, mask registers and what is in flight are as before. -/
def InRing (s t : State) (r : Ring) : Prop :=
  (∀ a, a < r.base ∨ r.base + r.bytes ≤ a → t.mem.read a = s.mem.read a) ∧
  (∀ n a, (t.core n).lmem.read a = (s.core n).lmem.read a) ∧
  ∀ k x, tfind s.groups k = some x → ∃ y, tfind t.groups k = some y ∧ y.ctx.regs = x.ctx.regs ∧ y.ctx.masks = x.ctx.masks ∧
    y.ops = x.ops

/-! ### Traps that events take, kills and teardown (R36, R369, R375, R378 to R380, R384, R387, R437) -/

/-- A trap of a group outside handler mode has been taken with the context `k` (R384, R385). Its frame is written: the trap record
with where the replay part stands, the save area of `k` (R355, R356, R382), the benches where no handler runs (R357), and a
replay entry for everything the group has issued and not performed, oldest first (R383). A launch with a trap entry and a need of
six registers runs its handler, but not for causes 7, 20 and 32 up; otherwise the group parks. The replay part stands behind the
bench part's place: the model's choice, log entry 11. -/
def TrapTaken (s t : State) (core frame : Nat) (g : Group) (k : Ctx) (info : TrapInfo) (w : Launch) : Prop :=
  let handles := w.trapOff ≠ none ∧ info.cause ≠ 7 ∧ info.cause ≠ 20 ∧ info.cause < 32 ∧ 6 ≤ g.ctx.need
  let own := { g with ctx := k }
  let off := s.replayOff core frame own k
  let head := recordBytes info false (decide handles) off w.seq g.wid s.time ++
    s.saveHead core frame own k (info.pc, info.lanes) false (decide (¬ handles))
  let rs := s.heldEntries core frame g false ++ g.replay
  FrameWritten s t core frame head (if handles then [] else benchPart (allBenches (s.core core) frame g)) off rs ∧
  ∃ h tr, t.group core frame = some h ∧ tr.info = info ∧ tr.image = head ∧ tr.replay = rs ∧
    (∀ e, w.trapOff = some e → handles → Handled g h k (w.code + 512 + e) tr) ∧
    (¬ handles → h.status = .parked ∧ h.inHandler = false ∧ h.handler = some tr ∧ tr.ctx = k ∧ h.ctx = k ∧ h.ops = [] ∧
      h.park = some (if 32 ≤ info.cause ∧ info.cause ≤ 36 then info.cause - 30 else 1)) ∧
    Bystanders s t core frame

/-- The trap record of a word (R382): inside an xir it names the xir's lanes, and the faulting word's (R255). -/
def recordOf (c : Cur) (g : Group) (e : Mask) (cause sub : Nat) (fault : Mask) : TrapInfo :=
  match c.xir, g.ctx.xirOf (c.slices.headD 0) with
  | true, some q => ⟨cause, sub, c.pc, q.pend ||| q.done, c.active, c.word, 0, false⟩
  | _, _ => ⟨cause, sub, c.pc, e, fault, c.word, 0, false⟩

/-- A group that may take a trap at once: outside handler mode and any attempt, no granted pass of it running, no store of its
core early. -/
structure MayTrap (s : State) (core frame : Nat) (g : Group) (w : Launch) : Prop where
  mode : g.inHandler = false
  attempt : g.tx = none
  pass : s.passRuns core frame = false
  early : s.earlyOps core = []
  launch : s.launchOf g = some w
  need : g.ctx.need ≤ 64

/-- A group that a frame has been taken back into (R9, R387, R388): its context with the edits, without the lanes that have exited
since, gangs parted by PC, the valid entries to re-inject and to check again, the counters of what is still in flight. -/
def Returned (g h : Group) (tr : Trapped) (k : Ctx) (rs : List Replay) : Prop :=
  let c := k.keepLive g.ctx.live
  h.ctx = { c with slices := partEdited c.slices } ∧ h.ctx.live = k.live &&& g.ctx.live ∧
  (k.live &&& g.ctx.live = k.live → c = k) ∧ h.inHandler = false ∧ h.handler = none ∧ h.status = .ready ∧
  h.replay = (rs.filter Replay.valid).map (fun r => { r with check := true }) ∧
  ((∀ r ∈ rs, r.valid = true) → h.ld = g.ld + tr.ld ∧ h.st = g.st + tr.st ∧ h.cp = g.cp + tr.cp ∧ h.tl = g.tl + tr.tl)

/-- The frame of a group as it stands in memory, with its edits (R387). -/
def frameOf (s : State) (core frame : Nat) (g : Group) (tr : Trapped) : Option (Ctx × List Replay) :=
  readFrame (fun off n => seen s.mem.read (s.frameAddr core frame + off) n) tr
    (if tr.benches = true then benchPart (allBenches (s.core core) frame g) else [])
    (s.features.testBit 13)

/-- Command number n of a queue comes before number `seq` and is no launch that still runs (R362, R369): by enabling of the queue,
which a number holds above bit 64, then by sequence number (R361). -/
def EarlierCommand (s : State) (q seq n : Nat) : Prop :=
  (n / 2 ^ 64 < seq / 2 ^ 64 ∨ n / 2 ^ 64 = seq / 2 ^ 64 ∧ 2 ^ 63 ≤ (n + 2 ^ 64 - seq % 2 ^ 64) % 2 ^ 64) ∧
  ∀ p ∈ s.launches, p.2.queue = q → p.2.seq = n → p.2.complete = true

/-- No group of a crew stands in its frames any longer. -/
def GroupsGone (t : State) (n : Nat) (k : Crew) : Prop := ∀ f ∈ k.frames, ∀ g, t.group k.core f = some g → g.crew ≠ n

/-- A vector raised (R399): left pending while its entry is masked, else sent over the link of its queue, one above 255 over
every trained link. -/
def Raised (s t : State) (v : Nat) : Prop :=
  if (tget s.msixTable v [0, 0, 0, 1]).getD 3 1 % 2 = 1 then v ∈ t.msixPending
  else ∀ l, (if v < 256 then l = s.linkRoute / 2 ^ (v / 2) % 2 else l ∈ s.hostLinks) → .msix l v ∈ t.out

/-- A queue that has been torn down (R369): the error and the sequence number stand in its status, nothing waits, the rest of
its ring is passed over, its launches are over with their crews killed, and of the commands that had started only earlier ones
go on, but for unpins all of them; vector 2q + 1 is raised. Where the host has asked the queue to stop, it reads as stopped once
nothing of it goes on (R455). -/
def TornDown (s t : State) (q err seq : Nat) : Prop :=
  let x := s.queue q
  (t.queue q).error = err ∧ (t.queue q).down = true ∧ (t.queue q).errseq = seq % 2 ^ 64 ∧ Raised s t (2 * q + 1) ∧
  ((t.queue q).stopped = true ↔ x.stop = true ∧ (t.queue q).busy = []) ∧
  (∀ n ∈ (t.queue q).busy, n ∈ x.busy ∧ EarlierCommand s q seq n) ∧
  (∀ n ∈ x.busy, EarlierCommand s q seq n → n ∈ (t.queue q).busy ∨ ∃ u ∈ x.unpins, u.1 = n) ∧
  (t.queue q).waiting = none ∧ (t.queue q).head = x.tail % x.entries ∧
  (∀ n l, s.launch n = some l → l.queue = q → ∃ m, t.launch n = some m ∧ m.complete = true ∧ (l.complete = false → m.killed = true)) ∧
  ∀ n k l, s.crew n = some k → s.launch k.launch = some l → l.queue = q → l.complete = false → k.retired = false →
    k.killed = false → (∃ j, t.crew n = some j ∧ j.killed = true) ∧ GroupsGone t n k

/-- A group has waited, slept or stood in a regang for more than `wd` cycles, `lead` naming the gang at whose instruction
(R40). -/
def WaitsTooLong (g : Group) (wd now lead : Nat) : Prop :=
  let first := fun (p : Slice → Bool) => (g.ctx.slices.find? (fun x => !x.fin && p x)).map Slice.gang
  let regang := first (fun x => match x.wait with
    | .regang _ => decide (wd < now - x.since)
    | _ => false)
  match g.status with
  | .sleeping => wd < now - g.waitStart ∧ lead = (g.ctx.liveSlices.head?).getD 0
  | .waiting =>
    if wd < now - g.waitStart then
      lead = if g.wait = .gangs then (first (fun x => x.wait != .run)).getD g.lastGang else g.lastGang
    else regang = some lead
  | .ready => regang = some lead
  | _ => False

/-- The uncommitted crews of a cohort killed, and the cohort waiting for its relaunch (R437). -/
def RelaunchDue (s t : State) (n : Nat) (co : Cohort) : Prop :=
  (∃ x, tfind t.cohorts n = some x ∧ x.relaunch = some
    ((co.crews.filter (fun r => (s.crew r.2).any (fun y => !y.retired))).map Prod.fst, co.cluster)) ∧
  ∀ r ∈ co.crews, ∀ y, s.crew r.2 = some y → y.retired = false → y.killed = false →
    (∃ z, t.crew r.2 = some z ∧ z.killed = true) ∧ GroupsGone t r.2 y

/-- A slot of a core lies in an open region of a crew that stands there (R103). -/
def InOpenRegion (s : State) (core slot : Nat) : Prop :=
  ∃ p ∈ s.crews, p.2.core = core ∧ p.2.killed = false ∧ ∃ r ∈ p.2.regions,
    p.2.base / 1024 + r.2.lslot ≤ slot ∧ slot < p.2.base / 1024 + r.2.lslot + r.2.nslot

/-! ### Banks, frames, the matrix engine, placement (R10, R22, R39, R42, R153 to R155, R284, R287 to R297, R372, R390 to R393) -/

/-- A group stands in a slot of the active bank, of the shadow bank. -/
def InActive (g : Group) : Prop := ∃ n, n < 16 ∧ g.place = .active n
def InShadow (g : Group) : Prop := ∃ n, n < 16 ∧ g.place = .shadow n

/-- A group that has left its slot (R155, R390): no attempt is live in it, and with nothing in flight its registers and masks
are as before. -/
def LeftSlot (g h : Group) : Prop := h.tx = none ∧ (g.ops = [] → h.ctx.regs = g.ctx.regs ∧ h.ctx.masks = g.ctx.masks)

/-- The benches that a group owns. -/
def owned (s : State) (core f : Nat) : List Nat := (List.range 4).filter (fun n => (s.bench core n).owner == some f)

/-- Both benches of an affine pair have the same owner, and none that a group owns stands in a frame of it. -/
def OwnsPairs (s : State) (core f : Nat) (g : Group) : Prop :=
  (∀ n, n < 4 → (s.bench core n).owner = some f → (s.bench core n).affine = true →
    ∀ m, m / 2 = n / 2 → (s.bench core m).owner = some f ∧ (s.bench core m).affine = true) ∧
  ∀ e ∈ g.benchCtx, (s.bench core e.1).owner ≠ some f

/-- A byte after the benches of a group that an earlier save has put into its frame stand at their places in a new one, whose bench
part begins at `base` and holds the benches `all` (R357). -/
def benchesAway (base : Nat) (all : List (Nat × Bench × PairState)) (g : Group) (a : Nat) (old : Byte) : Byte :=
  g.benchCtx.foldl (fun v e => putByte (base + benchOffset all e.1) (benchBytes e.1 e.2.1 e.2.2) a v) old

/-- The choice of an eviction (R39): a sleeper that has slept longest, or, while none sleeps, a group parked for pages that
has been so longest. -/
def LongestStopped (s : State) (core f : Nat) (g : Group) : Prop :=
  InActive g ∧ (∀ e x, e < 32 → e ≠ f → s.group core e = some x → InActive x → x.status = g.status → g.waitStart < x.waitStart) ∧
  (g.status = .sleeping ∨ g.status = .parkedPages ∧
    ∀ e x, e < 32 → s.group core e = some x → InActive x → x.status ≠ .sleeping)

/-- Element e, and the scale code of block b, in a row of 144 bytes (R55); the 16-bit formats have no scales. -/
def chunkElem (f : MxFmt) (row : List Byte) (e : Nat) : Val :=
  let x := ofLe row
  match f with
  | .ta8 => decodeElem .ta8 (x / 2 ^ (8 * e) % 2 ^ 8)
  | .e4m3 => decodeElem .e4m3 (x / 2 ^ (8 * e) % 2 ^ 8)
  | .s8 => Val.ofInt (signExt (x / 2 ^ (8 * e)) 8)
  | .ta6 => decodeElem .ta6 (x / 2 ^ (6 * e) % 2 ^ 6)
  | .bf16 => decodeElem .bf16 (x / 2 ^ (16 * e) % 2 ^ 16)
  | .f16 => decodeElem .f16 (x / 2 ^ (16 * e) % 2 ^ 16)
def chunkScale (f : MxFmt) (row : List Byte) (b : Nat) : Option Nat :=
  match f with
  | .bf16 | .f16 => none
  | .ta6 => some (ofLe row / 2 ^ (8 * (120 + b)) % 2 ^ 8)
  | _ => some (ofLe row / 2 ^ (8 * (128 + b)) % 2 ^ 8)

/-- The window position P (R78). -/
def chunkWindow : MxFmt → Int
  | .ta8 | .e4m3 | .s8 => 23
  | .ta6 => 31
  | .bf16 | .f16 => 48

/-- The products of a block of eight elements, their exact sum, and the block's Eb, if it has one (R78, R79). -/
def blockProducts (f : MxFmt) (a b : List Byte) (j : Nat) : List Val :=
  (List.range 8).map (fun e => (chunkElem f a (8 * j + e)).mul (chunkElem f b (8 * j + e)))
def blockSum (f : MxFmt) (a b : List Byte) (j : Nat) : Val :=
  (blockProducts f a b j).foldl (fun x p => x.add .rn p) (Val.zero false)
def blockExp (f : MxFmt) (a b : List Byte) (j : Nat) : Option Int :=
  match chunkScale f a j, chunkScale f b j with
  | some x, some y => some ((x : Int) - 127 + (y - 127))
  | _, _ => ((blockProducts f a b j).filterMap (fun p => match p with
      | .real _ m e _ => if m = 0 then none else some ((m.log2 : Int) + e)
      | _ => none)).max?

/-- The integer nearest a value in the direction of zero (TruncZ of R79). -/
def truncated : Val → Int
  | .real neg m e _ =>
    let n : Nat := if 0 ≤ e then m * 2 ^ e.toNat else m / 2 ^ (-e).toNat
    if neg = true then -n else n
  | _ => 0

/-- The f32 code of the chunk C of a row and a column, of which K elements take part (R79). -/
def chunk (f : MxFmt) (K : Nat) (a b : List Byte) : Nat :=
  let blocks := List.range (K / 8)
  let products := (blocks.map (blockProducts f a b)).flatten
  let infinite := fun (neg : Bool) => products.contains (.inf neg)
  if blocks.any (fun j => chunkScale f a j == some 255 || chunkScale f b j == some 255) ∨
      products.any Val.isNan = true ∨ infinite true = true ∧ infinite false = true then nanCode .f32
  else if infinite false = true then 0x7F800000
  else if infinite true = true then 0xFF800000
  else
    match (blocks.filterMap (blockExp f a b)).max? with
    | none => 0
    | some top =>
      let P := chunkWindow f
      let W := (blocks.map (fun j => match blockExp f a b j with
        | some e => truncated ((blockSum f a b j).scale ((if chunkScale f a j = none then 0 else e) + (P - top)))
        | none => 0)).sum
      roundTo .f32 .rn 0 false ((Val.ofInt W).scale (top - P))

/-- Element (row, column) of an mmq or mgld quarter after its pass, at place `ix` of it (R79, R296): the old one with the chunk's
value added in f32, or the gain, with one code for a NaN. -/
def quarterElem (s : State) (cl : Nat) (r : Req) (ix i j : Nat) : Word :=
  let tile := s.passTile r ix
  if r.gload = true then
    let x := fieldAt tile (4 * (256 * i + j)) 4
    BitVec.ofNat 32 (if (decodeElem .f32 x).isNan = true then nanCode .f32 else x)
  else
    let C := chunk r.fmt (mxDepth r.fmt * (r.k + 1) / 4) ((tile.drop (144 * i)).take 144)
      ((tget (s.cluster cl).chuck r.slot .init).bytes.bytes (144 * j) 144)
    let x := (s.bench r.core r.bench).elem (32 * r.quarter + i) j
    BitVec.ofNat 32 (roundTo .f32 .rn 0 false ((decodeElem .f32 x.toNat).add .rn (decodeElem .f32 C)))

/-- FlushG of a gain, and whether it flushes a nonzero one (R298). -/
def flushed (g : Word) : Word := if g.toNat / 2 ^ 23 % 2 ^ 8 = 0 then g &&& 0x80000000 else g
def flushes (g : Word) : Bool := decide (g.toNat / 2 ^ 23 % 2 ^ 8 = 0 ∧ g.toNat % 2 ^ 23 ≠ 0)

/-- Compose of two maps (gain, offset), the second after the first, and whether it flushes a gain (R298). -/
def gainProduct (g2 g1 : Word) : Word :=
  BitVec.ofNat 32 (roundTo .f32 .rn 0 false ((decodeElem .f32 (flushed g2).toNat).mul (decodeElem .f32 (flushed g1).toNat)))
def composed (p2 p1 : Word × Word) : Word × Word :=
  (flushed (gainProduct p2.1 p1.1), BitVec.ofNat 32 (roundTo .f32 .rn 0 false
    (((decodeElem .f32 (flushed p2.1).toNat).mul (decodeElem .f32 p1.2.toNat)).add .rn (decodeElem .f32 p2.2.toNat))))
def composeFlushes (p2 p1 : Word × Word) : Bool := flushes p2.1 || flushes p1.1 || flushes (gainProduct p2.1 p1.1)

/-- The rows of a column after the first n stages of a scan (R297). -/
def scanRows (P : Nat → Word × Word) : Nat → Nat → Word × Word
  | 0, i => P i
  | n + 1, i => if 2 ^ n ≤ i then composed (scanRows P n i) (scanRows P n (i - 2 ^ n)) else scanRows P n i

/-- Whether a scan of a column flushes a gain, in a stage or with the carry. -/
def ScanFlushes (P : Nat → Word × Word) (carry : Word × Word) : Prop :=
  (∃ n i, n < 7 ∧ i < 128 ∧ 2 ^ n ≤ i ∧ composeFlushes (scanRows P n i) (scanRows P n (i - 2 ^ n)) = true) ∨
  ∃ i, i < 128 ∧ composeFlushes (scanRows P 7 i) carry = true

/-- A row of a drained tile (R55, R293): element codes, scale codes. -/
def tileRow (f : MxFmt) (codes scales : List Nat) : List Byte :=
  match f with
  | .ta6 => leBytes ((codes.zipIdx.map (fun p => p.1 * 2 ^ (6 * p.2))).sum) 120 ++ (scales.map (fun c => leBytes c 1)).flatten ++ zeros 4
  | .bf16 | .f16 => (codes.map (fun x => leBytes x 2)).flatten ++ zeros 16
  | _ => (codes.map (fun x => leBytes x 1)).flatten ++ (scales.map (fun c => leBytes c 1)).flatten

/-- Segment `g` of a row whose f32 columns are `el`, converted (R68, R69, R292, R293): elements g·D up; past column 255 zeros under
the scale code 127. `draw` gives the LFSR bits of a column. -/
def drainedRow (f : MxFmt) (r : Rnd) (sat : Bool) (draw : Nat → Nat) (el : Nat → Val) (g : Nat) : List Byte :=
  let D := mxDepth f
  let scale := fun b => if 256 ≤ g * D + 8 * b then 127
    else scaleCode (mxElem f) ((List.range 8).map (fun k => el (g * D + 8 * b + k)))
  let scaled := fun e => if scale (e / 8) = 255 then Val.nan else (el (g * D + e)).scale (127 - (scale (e / 8) : Int))
  let code := fun e =>
    if 256 ≤ g * D + e then 0
    else match f with
      | .bf16 | .f16 => roundTo (mxElem f) r (draw (g * D + e)) sat (el (g * D + e))
      | .s8 => (toInt .s8 r (scaled e) % 2 ^ 8).toNat
      | _ => roundTo (mxElem f) r (draw (g * D + e)) sat (scaled e)
  tileRow f ((List.range D).map code) ((List.range (D / 8)).map scale)

/-- The columns that a drain converts: all, or those of the segment of an mdrain.byp (R292, R294). -/
def drainColumns (d : Drain) : List Nat :=
  match drainMx d.fmt with
  | some f => if d.kind = 2 then (List.range 256).filter (fun j => j / mxDepth f = d.seg) else List.range 256
  | none => List.range 256

/-- The elements that a drain checks, rows ascending and columns ascending within a row (R292). -/
def drainElems (d : Drain) (bn : Bench) : List Word :=
  ((List.range 32).map (fun i => (drainColumns d).map (fun j => bn.elem (32 * d.quarter + i) j))).flatten

/-- The bytes of a drained quarter (R292 to R294): an element out of a clamp-mode bound is clamped first; under stochastic mode the
LFSR steps once for each element that is converted into another format than s8. -/
def drained (d : Drain) (bn : Bench) (bd : Option Bound) : List Byte :=
  let x := fun i j =>
    match bd with
    | some b => if b.mode = BoundMode.clamp then clampedF32 b (bn.elem (32 * d.quarter + i) j) else bn.elem (32 * d.quarter + i) j
    | none => bn.elem (32 * d.quarter + i) j
  match drainMx d.fmt with
  | none => ((List.range 32).map (fun i => ((List.range 256).map (fun j => leBytes (x i j).toNat 4)).flatten)).flatten
  | some f =>
    let cols := drainColumns d
    let draw := fun i j => if d.rnd = .rs then (lfsr d.seed (cols.length * i + (j - cols.headD 0) + 1)).toNat % 2 ^ 16 else 0
    let seg := fun g => ((List.range 32).map (fun i =>
      drainedRow f d.rnd d.sat (draw i) (fun j => decodeElem .f32 (x i j).toNat) g)).flatten
    if d.kind = 2 then seg d.seg else ((List.range ((256 + mxDepth f - 1) / mxDepth f)).map seg).flatten

/-- Events that a drain counts in c.bflag (R57, R83). -/
def drainCount (d : Drain) (bn : Bench) (bd : Option Bound) : Nat :=
  match bd with
  | some b => if b.mode = .trap then 0 else ((drainElems d bn).filter (outsideF32 b)).length
  | none => 0

/-- The carry with which column j of a scan chunk begins (R297). -/
def carryIn (isNew : Bool) (p : PairState) (j : Nat) : Word × Word :=
  if isNew = true then (0x3F800000, 0) else tget p.carry j (0x3F800000, 0)

/-- A group's matrix operations leave tl; its registers stay. -/
def TlDown (s t : State) (core frame n : Nat) : Prop :=
  ∀ g, s.group core frame = some g → g.inHandler = false →
    ∃ h, t.group core frame = some h ∧ h.tl = g.tl - n ∧ h.ctx.regs = g.ctx.regs

/-- A context at a launch (R10, R23, R26, R42, R56): lanes below N0 live, every slice at the first instruction word in one
gang with an empty stack, registers uniform 0 of code b32 without a bound, masks 0, c.seed the low half of the WID with
bit 0 set, c.quantum the launch's, the other registers 0. -/
structure AtLaunch (l : Launch) (wid : Nat) (c : Ctx) : Prop where
  need : c.need = l.regs
  live : ∀ k, k < 32 → (hasLane c.live k = true ↔ k < l.n0)
  slices : c.slices.length = 8 ∧ ∀ (i : Nat) (y : Slice), c.slices[i]? = some y → y.pc = l.code + 512 ∧
    y.cur = sliceBits c.live i ∧ y.stack = [] ∧ y.hints = .none ∧ y.gang = 0 ∧ y.wait = .run ∧
    y.fin = decide (sliceBits c.live i = 0) ∧ y.xir = none ∧ y.quarters = 0
  regs : ∀ v, c.reg v = ⟨.uniform 0, .b32, 0, 0⟩
  masks : ∀ k, 1 ≤ k → k < 8 → c.maskAt k = 0
  seed : c.seed = BitVec.ofNat 32 wid ||| 1
  rest : c.round = 0 ∧ c.bflag = 0 ∧ c.quantum = BitVec.ofNat 32 l.quantum ∧ c.batch = 0 ∧ c.txstat = 0

/-- Crew number n stands on a core of a cluster with a rank and a count of relaunches, its groups ready at their launch. -/
def Placed (t : State) (ln : Nat) (l : Launch) (f3 cl n rank relaunches : Nat) : Prop :=
  ∃ k, t.crew n = some k ∧ k.launch = ln ∧ k.f3 = f3 ∧ k.rank = rank ∧ k.core / 4 = cl ∧ k.relaunches = relaunches ∧
    k.retired = false ∧ k.killed = false ∧ k.buffer = [] ∧ k.regions = [] ∧ k.frames.length = l.n1 ∧
    ∀ j, j < l.n1 → ∃ f g, k.frames[j]? = some f ∧ f < 32 ∧ t.group k.core f = some g ∧ g.crew = n ∧ g.f1 = j ∧ InActive g ∧
      g.status = .ready ∧ g.ops = [] ∧ g.handler = none ∧ g.wid = BitVec.ofNat 64 (l.wid j rank f3) ∧
      AtLaunch l (l.wid j rank f3) g.ctx

/-! ### Retirement (R35, R103, R125, R128, R314, R416, R435) -/

/-- The write-back of a region that its crew's retirement closes: the slots that a close writes back (R103). -/
def closing (s : State) (n : Nat) (k : Crew) (r : Region) : CopyOp :=
  { id := 0, core := k.core, frame := 0, crew := n, src := .loc (some (k.core, k.base + 1024 * r.lslot)), dst := .global r.gbase,
    esize := 1, extents := [1024], sstride := [1], dstride := [1], after := [], started := true, gen := s.crewGen k, pc := 0,
    word := 0, lanes := 0, guards := [],
    wbSlots := (List.range r.nslot).filter (fun x =>
      r.wb == 2 || r.wb == 1 && (s.core k.core).rdirty.contains (k.base / 1024 + r.lslot + x)) }

/-- The regions that a crew has open, in ascending order of their numbers. -/
def openRegions (k : Crew) : List Region :=
  ((List.range 16).map (fun d => (k.regions.filter (fun p => p.1 == d)).map Prod.snd)).flatten

/-- The bytes that the write-back of a region puts at the physical addresses of its window. -/
def closingBytes (s : State) (n : Nat) (k : Crew) (r : Region) : List (Nat × List Byte) :=
  let o := closing s n k r
  if o.wbSlots = [] then [] else (copyElems s o).map (fun e => (s.copyPa o ((r.gbase : Int) + e.2.1), e.2.2))

/-- The partials that a crew still holds in its core's quantum buffer (R128). -/
def partials (s : State) (n : Nat) (k : Crew) : List QEntry := (s.core k.core).qbuf.filter (fun e => e.crew == n)

/-- The counts of a launch that cores still hold, as the adds that put them into its array (R314, R358). -/
def countsHeld (s : State) (ln : Nat) (w : Launch) : List QEntry :=
  (s.cores.map (fun p => (p.2.bbc.filter (fun e => e.1 == ln)).map (fun e =>
    (⟨s.counterPa w e.2.1, 0, .n64, 0, 0, BitVec.ofNat 64 e.2.2, ⟨0, 0, 0, 0⟩, false, false⟩ : QEntry)))).flatten

/-- What a relaunchable crew's retirement puts behind its buffered writes: its partials, then the write-backs of its regions (R435). -/
def lateEntries (s : State) (n : Nat) (k : Crew) : List BufEntry :=
  if k.relaunchable = true then
    (partials s n k).map (fun e => .red e.addr .add e.ty e.sum e.made) ++
    ((openRegions k).filter (fun r => decide ((closing s n k r).wbSlots ≠ []))).map (fun r =>
      .bytes ((closingBytes s n k r).foldl (fun w e => Overlay.write w e.1 e.2) []))
  else []

/-- Memory when a crew has retired: of one that is not relaunchable the partials and write-backs stand first; then come the
launch's block counts, then what the crew had buffered. -/
def memoryRetired (s : State) (n : Nat) (k : Crew) (w : Launch) : Nat → Byte :=
  let m0 := s.mem.read
  let m1 := if k.relaunchable = true then m0 else fun a =>
    if populated a 1 = true then
      afterElems ((openRegions k).map (closingBytes s n k)).flatten a (addsPerformed (partials s n k) m0 a)
    else m0 a
  let m2 := addsPerformed (countsHeld s k.launch w) m1
  fun a => if populated a 1 = true then (bufOverlay (seenByte m2) (k.buffer ++ lateEntries s n k) []).over a (m2 a) else m2 a

/-- A crew that may retire: it has no group left; its regions are numbered and lie apart; nothing of it is of an old generation
(R91) and none of its adds would read poison (R434); what it still buffers has room (R435); no store of its core is early. -/
structure MayRetire (s : State) (n : Nat) (k : Crew) (w : Launch) : Prop where
  crew : s.crew n = some k ∧ k.retired = false ∧ k.killed = false ∧ s.groupsOf n = []
  launch : s.launch k.launch = some w
  cores : (s.cores.map Prod.fst).Nodup
  regions : (∀ p ∈ k.regions, p.1 < 16) ∧ (k.regions.map Prod.fst).Nodup ∧ k.regions.Pairwise (fun p q =>
    p.2.lslot + p.2.nslot ≤ q.2.lslot ∨ q.2.lslot + q.2.nslot ≤ p.2.lslot)
  partials : ∀ e ∈ partials s n k, e.gen = s.crewGen k ∧ (k.relaunchable = false → s.poisonedAt e.addr (IntTy_size e.ty) = false)
  buffer : (∀ x, k.bufGen = some x → x.1 = s.crewGen k) ∧ s.metRed (k.buffer ++ lateEntries s n k) [] = none
  room : BufferRoom s n k (lateEntries s n k)
  early : s.earlyOps k.core = []

/-- A crew that has retired: nothing of it is buffered, open or counted any longer, and the launch whose last cohort it ends is
complete (R35, R363). -/
def Retired (s t : State) (n : Nat) (k : Crew) : Prop :=
  (∃ j, t.crew n = some j ∧ j.retired = true ∧ j.buffer = [] ∧ j.regions = []) ∧ (∀ e ∈ (t.core k.core).qbuf, e.crew ≠ n) ∧
  (∀ p ∈ t.cores, ∀ e ∈ p.2.bbc, e.1 ≠ k.launch) ∧
  ∀ m co w, s.cohortOf n = some (m, co) → tfind s.cohorts m = some co → co.done = false →
    (∀ r ∈ co.crews, r.2 ≠ n → (s.crew r.2).any Crew.retired = true) → s.launch co.launch = some w →
    ∃ v, t.launch co.launch = some v ∧ v.retiredCohorts = w.retiredCohorts + 1 ∧
      (w.retiredCohorts + 1 < w.n3 → v.complete = w.complete) ∧
      (w.n3 ≤ w.retiredCohorts + 1 → v.complete = true ∧ w.seq ∉ (t.queue w.queue).busy)

/-! ### Commands (R361 to R372, R404, R405) -/

/-- The next command of a queue is of a kind, carries the expected sequence number, keeps R363, and starts nothing that R362
holds back. -/
def NextCommand (s : State) (q kind : Nat) (e : List Byte) : Prop :=
  s.nextEntry q = some e ∧ fieldAt e 0 1 = kind ∧
  ((s.queue q).expect = none ∨ (s.queue q).expect = some (fieldAt e 8 8)) ∧ entryBad e = false ∧
  (kind = 6 ∨ fieldAt e 1 1 = 1 → (s.queue q).busy = [])

/-- The state in which that command has been fetched: the head stands one further, the next number is expected. -/
def fetched (s : State) (q : Nat) (e : List Byte) : State := s.takeEntry q (fieldAt e 8 8)

/-- A command stands among those of its queue that have started and are not complete. -/
def Started (t : State) (q : Nat) (e : List Byte) : Prop := t.number q (fieldAt e 8 8) ∈ (t.queue q).busy

/-- A copy's target pages may be filled: no launch lists one that is ready (R366). -/
def CopyMayStart (s : State) (q va n : Nat) (out : Bool) : Prop :=
  n ≠ 0 ∧ s.pinOk q (s.queue q).aspace va n (fun p => if out = true then p.r else p.w) = true ∧
  (out = false → s.copyInBusy (s.queue q).aspace va n = false) ∧ s.linkRoute / 2 ^ q % 2 ∈ s.hostLinks

/-- A prologue that has completed, or that still lacks the exchange of a peer among those given (R371). -/
def StillAwaited (s : State) (xs : List (Nat × Nat × Nat)) (u : SpanTable) : Prop :=
  u.complete = true ∨ ∃ d ∈ s.peersOf u, (u.ident, d.1, d.2) ∉ xs

/-- The header of a flit (R409): destination, source, virtual channel, kind, span identity, sequence number, valid bytes. -/
def flitHead (dx dy sx sy vc kind span seq valid : Nat) : List Byte :=
  leBytes (dx % 1024 + 2 ^ 10 * (dy % 512) + 2 ^ 19 * (sx % 1024) + 2 ^ 29 * (sy % 512) + 2 ^ 38 * (vc % 4) + 2 ^ 40 * (kind % 32) +
    2 ^ 48 * (span % 2 ^ 32) + 2 ^ 80 * (seq % 2 ^ 32) + 2 ^ 112 * (valid % 256)) 16

/-- The bytes at the physical pieces of a range, in order. -/
def piecesRead (mem : Nat → Byte) (ps : List (Nat × Nat)) : List Byte := (ps.map (fun p => seen mem p.1 p.2)).flatten

/-- A memory byte after bytes have been written at the physical pieces of a range, in order. -/
def piecesByte : List (Nat × Nat) → List Byte → Nat → Byte → Byte
  | [], _, _, old => old
  | p :: r, bs, a, old => piecesByte r (bs.drop p.2) a (putByte p.1 (bs.take p.2) a old)

/-! ### Collectives, power, fabric, host (R397 to R452, R162, R164) -/

/-- An entry of the error log (R439, R440): written at the head with vector 256, or counted as lost in a full ring. -/
def Logged (s t : State) (e : LogEntry) : Prop :=
  let r := s.errlog
  let n := 2 ^ (r.size + 4)
  let used := (r.head + 2 ^ 32 - r.tail) % 2 ^ 32
  let at_ := r.base + 64 * (r.head % n)
  (n ≤ used → t.errlog = { r with lost := min (r.lost + 1) 0xFFFFFFFF } ∧ ∀ a, t.mem.read a = s.mem.read a) ∧
  (used < n → t.errlog = { r with head := (r.head + 1) % 2 ^ 32 } ∧ Raised s t 256 ∧
    ∀ a, t.mem.read a = putByte at_ (logBytes e s.time) a (s.mem.read a))

/-- The element of a collective's buffer that position `i` of arriving data stands for (R418). -/
def elemPos (r : CollRec) (d : Contribution) (i : Nat) : Nat := d.chunk * r.csize + d.offset + i * r.esize

/-- A collective that has an ident, its binding, and something that has arrived for it and may be used (R413, R418). -/
def Runs (s : State) (ident : Nat) (c : Coll) (b : Binding) : Prop :=
  s.collNamed ident = some c ∧ s.collOf c.launch = some c ∧ s.binding ident = some b

/-- The one thing that waits in staging can be used in this cycle; the completion of another collective, `j`, which does not run, is
looked at. -/
structure Due (s : State) (x : Staged) (a : Arrival) (c : Coll) (b : Binding) (j : Nat) : Prop where
  alone : s.staged = [x] ∧ x.item = a ∧ x.poison = [] ∧ x.cycle < s.cycle
  own : x.own = none ∨ x.own = some c.launch
  runs : Runs s a.ident c b
  usable : s.usable a = true
  other : s.collNamed j = none

/-- An element with a contribution taken into it: the first stands as it is, a later one is combined (R418). -/
def taken (c : CollRec) (old : Option RedElem) (pos x : Nat) : RedElem :=
  match old with
  | some e => combine c e (firstElem c pos x)
  | none => firstElem c pos x

/-- A row of the device that has found no result row at its destination: the next overflow row holds it, or it is dropped (R420). -/
def Overflowed (s t : State) (c : Coll) (b : Binding) (e : Coll) (r : Sys2Proof.Row) : Prop :=
  (b.ovfrows ≤ c.overflow → e.dropped = c.dropped + 1 ∧ ∀ a, t.mem.read a = s.mem.read a) ∧
  ∀ ps, c.overflow < b.ovfrows → 4 ≤ r.data.length →
    s.pieces b.aspace (b.ovf + c.overflow * c.rec_.arg0) r.data.length = some ps → e.overflow = c.overflow + 1 ∧
    ∀ a, t.mem.read a = piecesByte ps (leBytes (s.myRank b) 4 ++ r.data.drop 4) a (s.mem.read a)

/-- The fields of a completion record behind its status (R421). -/
def recordFields (c : Coll) (time : Nat) : List Byte :=
  leBytes c.error 4 ++ zeros 4 ++ leBytes (c.bytes / c.rec_.esize) 8 ++ leBytes c.saturated 8 ++ leBytes c.landed 4 ++
  leBytes c.overflow 4 ++ leBytes c.dropped 4 ++ zeros 4 ++ leBytes time 8 ++ zeros 8

/-- The allowance of a cluster at a temperature (R425). -/
def allowanceAt (soft hard temp : Nat) : Nat :=
  if temp ≤ soft then 16 else if hard ≤ temp then 0 else (hard - temp) * 16 / (hard - soft)

/-- Whether a physical range may be reached through the memory window (R398): the context region, or the heap of a present
memory die outside retired frames. -/
def WindowReaches (s : State) (pa n : Nat) : Prop := s.reachable true pa n = true

/-- The mailbox after a command (R444): state 2 with code 0, or state 3 with the code of the failure. -/
def answered (m : Mbox) (code : Nat) : Mbox := { m with state := if code = 0 then 2 else 3, code := code }

end Sys2Proof.Spec

open Sys2Proof Sys2Proof.Machine Sys2Proof.Safety

/-- R215 to R220, R222, R223: a binary or unary integer word, an immediate form (mov has code b32), imad and bfi write their
result when they issue; bfi puts a field of va into vd, whose code the result has. R44, R45, R158 to R162: the result has the
shape that its sources give it, and the word its price. R51, R57, R82, R83, R378: a result out of bounds, as the binary words show:
under a flag-mode bound it is written and counted in c.bflag, under a clamp-mode bound clamped and counted, and under a trap-mode
bound nothing is written and the bound-violation trap is taken with the lanes that fail. -/
def Obligations.IntegerResults : Prop :=
  (∀ (i : Instr) (r : Spec.Bin), Spec.intBinary i = some r → ∀ (s : State) (c : Cur) (g : Group),
     Issues s c g i { srcs := [r.a, r.b], dsts := [r.d], ms := some r.m, inXir := true } 16 →
     sourceOk g.ctx r.a r.cls = true → sourceOk g.ctx r.b r.cls = true →
     let x := s.issOf c g
     let code := r.code (g.ctx.reg r.a).fmt
     let val := fun l => r.f (g.ctx.lane r.a l) (g.ctx.lane r.b l)
     InBounds (s.boundsOf g) (x.resultIndex (some r.a) code) code (x.eff (some r.m)) (single val) →
     Spec.Result s c g i [r.a, r.b] r.d code (x.resultIndex (some r.a) code) (x.eff (some r.m)) val) ∧
  (∀ (i : Instr) (r : Spec.Un), Spec.intUnary i = some r → ∀ (s : State) (c : Cur) (g : Group),
     Issues s c g i { srcs := [r.a], dsts := [r.d], ms := some r.m, inXir := true } 16 →
     sourceOk g.ctx r.a r.cls = true →
     let x := s.issOf c g
     let code := r.code (g.ctx.reg r.a).fmt
     let val := fun l => r.f (g.ctx.lane r.a l)
     InBounds (s.boundsOf g) (x.resultIndex (some r.a) code) code (x.eff (some r.m)) (single val) →
     Spec.Result s c g i [r.a] r.d code (x.resultIndex (some r.a) code) (x.eff (some r.m)) val) ∧
  (∀ (i : Instr) (r : Spec.Imm), Spec.intImmediate i = some r → ∀ (s : State) (c : Cur) (g : Group),
     Issues s c g i { srcs := r.a.toList, dsts := [r.d], ms := some r.m, wideOk := true, inXir := true } 16 →
     (∀ v, r.a = some v → sourceOk g.ctx v .t32 = true) →
     let x := s.issOf c g
     let code := (r.a.map (fun v => widen (g.ctx.reg v).fmt)).getD .b32
     let val := fun l => r.f ((r.a.map (fun v => g.ctx.lane v l)).getD 0) (Spec.immediate x.hints r.i)
     InBounds (s.boundsOf g) (x.resultIndex r.a code) code (x.eff (some r.m)) (single val) →
     Spec.Result s c g i r.a.toList r.d code (x.resultIndex r.a code) (x.eff (some r.m)) val) ∧
  (∀ (d a b e m : Nat) (s : State) (c : Cur) (g : Group),
    Issues s c g (.imad d a b e m) { srcs := [a, b, e], dsts := [d], ms := some m, inXir := true } 16 →
    sourceOk g.ctx a .t32 = true → sourceOk g.ctx b .t32 = true → sourceOk g.ctx e .t32 = true →
    let x := s.issOf c g
    let code := widen (g.ctx.reg a).fmt
    let val := fun l => g.ctx.lane a l * g.ctx.lane b l + g.ctx.lane e l
    InBounds (s.boundsOf g) (x.resultIndex (some a) code) code (x.eff (some m)) (single val) →
    Spec.Result s c g (.imad d a b e m) [a, b, e] d code (x.resultIndex (some a) code) (x.eff (some m)) val) ∧
  (∀ (d a m w p : Nat) (s : State) (c : Cur) (g : Group),
    Issues s c g (.bfi d a m w p) { srcs := [a, d], dsts := [d], ms := some m, inXir := true } 16 →
    sourceOk g.ctx a .t32 = true → sourceOk g.ctx d .t32 = true →
    let x := s.issOf c g
    let code := widen (g.ctx.reg d).fmt
    let val := fun l => Spec.insertField (g.ctx.lane d l) (g.ctx.lane a l) p w
    InBounds (s.boundsOf g) (x.resultIndex (some a) code) code (x.eff (some m)) (single val) →
    Spec.Result s c g (.bfi d a m w p) [a, d] d code (x.resultIndex (some a) code) (x.eff (some m)) val) ∧
  (∀ (i : Instr) (r : Spec.Bin), Spec.intBinary i = some r → ∀ (s : State) (c : Cur) (g : Group) (b : Bound),
     Issues s c g i { srcs := [r.a, r.b], dsts := [r.d], ms := some r.m, inXir := true } 16 →
     sourceOk g.ctx r.a r.cls = true → sourceOk g.ctx r.b r.cls = true →
     let x := s.issOf c g
     let code := r.code (g.ctx.reg r.a).fmt
     let val := fun l => r.f (g.ctx.lane r.a l) (g.ctx.lane r.b l)
     let ix := x.resultIndex (some r.a) code
     let e := x.eff (some r.m)
     boundOf (s.boundsOf g) ix = some b → b.fmt = code → code = .s32 ∨ code = .n32 →
     let k := Spec.resultOf i c g [r.a, r.b]
     let out := fun l => hasLane e l && Spec.outside b (val l)
     let outs := (List.range 32).filter out
     (b.mode ≠ .trap →
       ∃ t h, exec i s = .next t ∧ Kept s t c (Spec.cost i g [r.a, r.b] e k) g h ∧
         CtxKept c g { h with ctx := { h.ctx with bflag := g.ctx.bflag } } [r.d] ∧
         h.ctx.bflag.toNat = min (g.ctx.bflag.toNat + outs.length) 0xFFFFFFFF ∧
         if b.mode = .clamp ∧ outs ≠ [] then
           Wrote g h r.d code ix (if k = .uni then .uni else .gen) e (fun l => Spec.clamped b (val l))
         else Wrote g h r.d code ix k e val) ∧
     (b.mode = .trap → outs ≠ [] → ∀ w, Spec.MayTrap s c.core c.frame g w →
       ∃ t, exec i s = .next t ∧ Spec.TrapTaken s t c.core c.frame g g.ctx (Spec.recordOf c g e 10 ix (maskOf out)) w))

/-- R215, R220, R221: a word with a pair result that issues writes both halves; popc.64 and clz.64 count over a pair and write
one register of code n32. -/
def Obligations.IntegerPairResults : Prop :=
  (∀ (i : Instr) (r : Spec.Wide), Spec.intWide i = some r → ∀ (s : State) (c : Cur) (g : Group),
     Issues s c g i { srcs := sourceRegs r.a r.ca ++ sourceRegs r.b r.cb, dsts := [r.d, r.d + 1], ms := some r.m, inXir := true } 16 →
     sourceOk g.ctx r.a r.ca = true → sourceOk g.ctx r.b r.cb = true →
     let x := s.issOf c g
     let code := r.code (g.ctx.reg r.a).fmt
     let val := fun l => r.f (Spec.value g.ctx r.ca r.a l) (Spec.value g.ctx r.cb r.b l)
     InBounds (s.boundsOf g) (x.resultIndex (some r.a) code) code (x.eff (some r.m)) val true →
     let srcs := sourceRegs r.a r.ca ++ sourceRegs r.b r.cb
     let k := Spec.resultOf i c g srcs
     WritesPair s c g i (Spec.cost i g srcs (x.eff (some r.m)) k) r.d code (x.resultIndex (some r.a) code) k (x.eff (some r.m)) val) ∧
  (∀ (d a m : Nat) (s : State) (c : Cur) (g : Group), sourceOk g.ctx a .t64 = true →
     let x := s.issOf c g
     (let val := fun l => BitVec.ofNat 32 (Spec.ones 64 (g.ctx.lane64 a l).getLsbD)
      Issues s c g (.popc64 d a m) { srcs := [a, a + 1], dsts := [d], ms := some m, inXir := true } 16 →
      InBounds (s.boundsOf g) (x.resultIndex (some a) .n32) .n32 (x.eff (some m)) (single val) →
      Spec.Result s c g (.popc64 d a m) [a, a + 1] d .n32 (x.resultIndex (some a) .n32) (x.eff (some m)) val) ∧
     (let val := fun l => BitVec.ofNat 32 (Spec.leading 64 (g.ctx.lane64 a l).getLsbD)
      Issues s c g (.clz64 d a m) { srcs := [a, a + 1], dsts := [d], ms := some m, inXir := true } 16 →
      InBounds (s.boundsOf g) (x.resultIndex (some a) .n32) .n32 (x.eff (some m)) (single val) →
      Spec.Result s c g (.clz64 d a m) [a, a + 1] d .n32 (x.resultIndex (some a) .n32) (x.eff (some m)) val))

/-- R224, R241: icmp and fcmp write the whole mask: a bit for each active lane where the condition holds. -/
def Obligations.Comparisons : Prop :=
  (∀ (d a b : Nat) (t : IntTy) (k : CmpCond) (s : State) (c : Cur) (g : Group),
    Issues s c g (.icmp d a b t k) { srcs := sourceRegs a (Spec.typeClass t) ++ sourceRegs b (Spec.typeClass t) } 16 →
    sourceOk g.ctx a (Spec.typeClass t) = true → sourceOk g.ctx b (Spec.typeClass t) = true →
    WritesMask s c g (.icmp d a b t k)
      (Spec.maskCost (.icmp d a b t k) g (sourceRegs a (Spec.typeClass t) ++ sourceRegs b (Spec.typeClass t))) d (maskOf (fun l => hasLane c.active l &&
      Spec.intCond t (Spec.value g.ctx (Spec.typeClass t) a l) (Spec.value g.ctx (Spec.typeClass t) b l) k))) ∧
  (∀ (d a b : Nat) (t : FFmt) (k : FCond) (s : State) (c : Cur) (g : Group),
    Issues s c g (.fcmp d a b t k) { srcs := [a, b] } 16 →
    (g.ctx.reg a).fmt = Spec.floatFmt t → (g.ctx.reg b).fmt = Spec.floatFmt t →
    WritesMask s c g (.fcmp d a b t k) 2 d (maskOf (fun l => hasLane c.active l &&
      Spec.floatCond (decodeElem (Spec.floatFmt t) (g.ctx.lane a l).toNat)
        (decodeElem (Spec.floatFmt t) (g.ctx.lane b l).toNat) k)))

/-- R226, R248: the mask operations, vtom and ballot write a whole mask register; mpop, mfirst and mtov write a register of
code n32 under Active(). A mask operand 0 reads Active(). -/
def Obligations.MaskWords : Prop :=
  (∀ (i : Instr) (d : Nat) (f : (Nat → Mask) → Mask), Spec.maskWord i = some (d, f) → ∀ (s : State) (c : Cur) (g : Group),
    Issues s c g i {} 16 →
    WritesMask s c g i 1 d (f (fun k => if k = 0 then c.active else g.ctx.maskAt k))) ∧
  (∀ (d a : Nat) (s : State) (c : Cur) (g : Group),
    Issues s c g (.vtom d a) { srcs := [a] } 16 → sourceOk g.ctx a .t32 = true →
    WritesMask s c g (.vtom d a) (Spec.maskCost (.vtom d a) g [a]) d (maskOf (fun l => hasLane c.active l && g.ctx.lane a l != 0))) ∧
  (∀ (d a : Nat) (s : State) (c : Cur) (g : Group),
    Issues s c g (.ballot d a) { srcs := [a], reads := some (fun x _ _ => x.g.ctx.live) } 16 → sourceOk g.ctx a .t32 = true →
    WritesMask s c g (.ballot d a) 2 d (maskOf (fun l => hasLane g.ctx.live l && Spec.source g.ctx a l != 0))) ∧
  (∀ (i : Instr) (d : Nat) (f : (Nat → Mask) → Nat → Word), Spec.maskReader i = some (d, f) →
    ∀ (s : State) (c : Cur) (g : Group), Issues s c g i { dsts := [d] } 16 →
    let ix := (s.issOf c g).resultIndex none .n32
    let val := f (fun k => if k = 0 then c.active else g.ctx.maskAt k)
    InBounds (s.boundsOf g) ix .n32 c.active (single val) →
    let kind := match i with
      | .mtov .. => ResK.gen
      | _ => .uni
    WritesReg s c g i (Spec.price i).1 d .n32 ix kind c.active val)

/-- R44, R225: sel copies a where the bit of mc is 1 and b otherwise; both carry one code, not s64 or n64. The result is
uniform where every live lane takes one uniform source. -/
def Obligations.Selection : Prop :=
  ∀ (d a b k m : Nat) (s : State) (c : Cur) (g : Group),
    Issues s c g (.sel d a b k m) { srcs := [a, b], dsts := [d], ms := some m, inXir := true } 16 →
    (g.ctx.reg a).fmt = (g.ctx.reg b).fmt → (g.ctx.reg a).fmt.isWide = false →
    let x := s.issOf c g
    let code := (g.ctx.reg a).fmt
    let val := fun l => if hasLane (if k = 0 then c.active else g.ctx.maskAt k) l = true then g.ctx.lane a l else g.ctx.lane b l
    (∀ l, hasLane c.active l = true → hasLane g.ctx.live l = true) →
    InBounds (s.boundsOf g) (x.resultIndex (some a) code) code (x.eff (some m)) (single val) →
    let mc := if k = 0 then c.active else g.ctx.maskAt k
    let kind := if c.xir = false ∧ ((g.ctx.reg a).shape.isUniform = true ∧ g.ctx.live &&& ~~~mc = 0 ∨
        (g.ctx.reg b).shape.isUniform = true ∧ g.ctx.live &&& mc = 0) then ResK.uni else .gen
    WritesReg s c g (.sel d a b k m) (Spec.cost (.sel d a b k m) g [a, b] (x.eff (some m)) kind) d code
      (x.resultIndex (some a) code) kind (x.eff (some m)) val

/-- R234, R235, R238: a float word with two sources of its format writes its results, each exact and rounded once. -/
def Obligations.FloatBinaryResults : Prop :=
  ∀ (i : Instr) (r : Spec.FBin), Spec.floatBinary i = some r → ∀ (s : State) (c : Cur) (g : Group),
    Issues s c g i { srcs := [r.a, r.b], dsts := [r.d], ms := some r.m, inXir := true } 16 →
    (g.ctx.reg r.a).fmt = r.f → (g.ctx.reg r.b).fmt = r.f →
    let x := s.issOf c g
    let val := fun l => Spec.onElements r.f (fun e v => r.op (Spec.plainMode x) e (v.getD 0 0) (v.getD 1 0))
      [g.ctx.lane r.a l, g.ctx.lane r.b l]
    InBounds (s.boundsOf g) (x.resultIndex (some r.a) r.f) r.f (x.eff (some r.m)) (single val) →
    Spec.Result s c g i [r.a, r.b] r.d r.f (x.resultIndex (some r.a) r.f) (x.eff (some r.m)) val

/-- R234, R235, R239: a float word with one source of its format writes its result. A transcendental is the exact value rounded
once as far as the model evaluates it, and else a free value: the model's choice, log entry 9. -/
def Obligations.FloatUnaryResults : Prop :=
  ∀ (i : Instr) (r : Spec.FUn), Spec.floatUnary i = some r → ∀ (s : State) (c : Cur) (g : Group),
    Issues s c g i { srcs := [r.a], dsts := [r.d], ms := some r.m, inXir := true } 16 →
    (g.ctx.reg r.a).fmt = r.f →
    let x := s.issOf c g
    let val := fun l => Spec.onElements r.f (fun e v => r.op (Spec.plainMode x) e (v.getD 0 0)) [g.ctx.lane r.a l]
    InBounds (s.boundsOf g) (x.resultIndex (some r.a) r.f) r.f (x.eff (some r.m)) (single val) →
    Spec.Result s c g i [r.a] r.d r.f (x.resultIndex (some r.a) r.f) (x.eff (some r.m)) val

/-- R234, R235, R240: ffma gives a × b + c, computed exactly and rounded once. -/
def Obligations.FusedMultiplyAdd : Prop :=
  ∀ (i : Instr) (d a b e m : Nat) (f : Fmt), Spec.floatFused i = some (d, a, b, e, m, f) →
    ∀ (s : State) (c : Cur) (g : Group),
    Issues s c g i { srcs := [a, b, e], dsts := [d], ms := some m, inXir := true } 16 →
    (g.ctx.reg a).fmt = f → (g.ctx.reg b).fmt = f → (g.ctx.reg e).fmt = f →
    let x := s.issOf c g
    let r := Spec.plainMode x
    let val := fun l => Spec.onElements f (fun k v => roundTo k r 0 false
        (((decodeElem k (v.getD 0 0)).mul (decodeElem k (v.getD 1 0))).add r (decodeElem k (v.getD 2 0))))
      [g.ctx.lane a l, g.ctx.lane b l, g.ctx.lane e l]
    InBounds (s.boundsOf g) (x.resultIndex (some a) f) f (x.eff (some m)) (single val) →
    Spec.Result s c g i [a, b, e] d f (x.resultIndex (some a) f) (x.eff (some m)) val

/-- R69, R71, R243, R244: a conversion in element, packing or unpacking form writes its result. Under stochastic mode the
LFSR steps once for each element, by lane and within a lane by element, and c.seed is its state after the last. R67, R68,
R71, R245: the block form writes the elements of each quarter under one scale into vd and the four scale codes into vd + 1,
which has code e8x4 and bound index 0. -/
def Obligations.Conversions : Prop :=
  (∀ (v a : Nat) (sf : Fmt) (m : Nat) (sat : Bool) (df : Fmt) (s : State) (c : Cur) (g : Group),
     let wide := Spec.pairResult df sf
     let src := if Spec.pairSource df sf = true then [a, a + 1] else [a]
     let ds := if wide = true then [v, v + 1] else [v]
     Issues s c g (.cvt v a sf m sat df) { srcs := src, dsts := ds, ms := some m, inXir := true } 16 →
     (∀ w ∈ src, (g.ctx.reg w).fmt = sf) →
     let x := s.issOf c g
     let r := Spec.convertMode x df
     let e := x.eff (some m)
     let ix := x.resultIndex (some a) df
     let n := Spec.elementsPerLane df sf
     let val := fun l => Spec.convertLane (Spec.isPacking df sf) df sf sat r
       (fun k => if r = .rs then (Spec.lfsr g.ctx.seed (n * Spec.rankIn e l + k + 1)).toNat % 2 ^ 16 else 0)
       (if Spec.pairSource df sf = true then g.ctx.lane64 a l else (g.ctx.lane a l).zeroExtend 64)
     InBounds (s.boundsOf g) ix df e (if wide = true then val else single (fun l => lo32 (val l))) wide →
     let kind := if r = .rs then ResK.gen else Spec.shapeOf c.xir .plain (src.map (fun w => (g.ctx.reg w).shape))
     ∃ t h, exec (.cvt v a sf m sat df) s = .next t ∧ Kept s t c (Spec.price (.cvt v a sf m sat df)).1 g h ∧
       CtxKept c g { h with ctx := { h.ctx with seed := g.ctx.seed } } ds ∧
       h.ctx.seed = (if r = .rs then Spec.lfsr g.ctx.seed (n * Spec.rankIn e 32) else g.ctx.seed) ∧
       Wrote g h v df ix kind e (fun l => lo32 (val l)) ∧
       (wide = true → Wrote g h (v + 1) df ix kind e (fun l => hi32 (val l)))) ∧
  (∀ (v a : Nat) (sf : Fmt) (m : Nat) (sat : Bool) (df : Fmt) (s : State) (c : Cur) (g : Group),
     Issues s c g (.cvtBlk v a sf m sat df) { srcs := [a], dsts := [v, v + 1], ms := some m, inXir := true } 16 →
     (g.ctx.reg a).fmt = .f32 →
     let x := s.issOf c g
     let r := Spec.convertMode x df
     let e := x.eff (some m)
     let ix := x.resultIndex (some a) df
     let elem := fun l => if hasLane e l = true then decodeElem .f32 (g.ctx.lane a l).toNat else Val.zero false
     let scale := fun q => Spec.scaleCode df ((List.range 8).map (fun j => elem (8 * q + j)))
     let val := fun l =>
       let y := if scale (l / 8) = 255 then Val.nan else (elem l).scale (127 - (scale (l / 8) : Int))
       if df = .s8 then (Spec.intElem .s8 (toInt .s8 r y)).truncate 32
       else BitVec.ofNat 32 (roundTo df r (if r = .rs then (Spec.lfsr g.ctx.seed (Spec.rankIn e l + 1)).toNat % 2 ^ 16 else 0) sat y)
     InBounds (s.boundsOf g) ix df e (single val) →
     ∃ t h, exec (.cvtBlk v a sf m sat df) s = .next t ∧ Kept s t c 4 g h ∧
       CtxKept c g { h with ctx := { h.ctx with seed := g.ctx.seed } } [v, v + 1] ∧
       h.ctx.seed = (if r = .rs ∧ df ≠ .s8 then Spec.lfsr g.ctx.seed (Spec.rankIn e 32) else g.ctx.seed) ∧
       Wrote g h v df ix .gen e val ∧
       Wrote g h (v + 1) .e8x4 0 .gen e (fun _ =>
         BitVec.ofNat 32 (scale 0 + 2 ^ 8 * scale 1 + 2 ^ 16 * scale 2 + 2 ^ 24 * scale 3)))

/-- R44, R246: tag copies the bits of va with a new code and bound index, and its shape, but that a pair is never affine; a
pending bound-override hint replaces the index. That a pair whose halves carry different codes raises no trap is the model's
choice, log entry 134. -/
def Obligations.TagCopies : Prop :=
  ∀ (d a m i : Nat) (f : Fmt) (s : State) (c : Cur) (g : Group),
    let regs := fun v => if f.isWide = true then [v, v + 1] else [v]
    Issues s c g (.tag d a m i f) { srcs := regs a, dsts := regs d, ms := some m, inXir := true } 16 →
    let x := s.issOf c g
    let ix := x.hints.bnd.getD i
    let e := x.eff (some m)
    InBounds (s.boundsOf g) ix f e (if f.isWide = true then g.ctx.lane64 a else single (g.ctx.lane a)) f.isWide →
    let shapes := (regs a).map (fun v => (g.ctx.reg v).shape)
    let kind := if c.xir = true then ResK.gen else if shapes.all Shape.isUniform = true then .uni
      else if f.isWide = false ∧ shapes.all Shape.isCompact = true then .aff else .gen
    ∃ t h, exec (.tag d a m i f) s = .next t ∧ Kept s t c (Spec.cost (.tag d a m i f) g (regs a) e kind) g h ∧
      CtxKept c g h (regs d) ∧
      Wrote g h d f ix kind e (g.ctx.lane a) ∧ (f.isWide = true → Wrote g h (d + 1) f ix kind e (g.ctx.lane (a + 1)))

/-- R44, R247, R249 to R251: a lane exchange writes what the lane it names reads in va; a lane of xchg names l XOR the low five
bits of b, a lane of shfl names b itself and takes vc where that is past 31. -/
def Obligations.LaneExchange : Prop :=
  (∀ (d a b m : Nat) (s : State) (c : Cur) (g : Group) (lead : Nat),
    Issues s c g (.bcast d a b m)
      { srcs := [a, b], dsts := [d], ms := some m, reads := some (fun x p _ => bcastReads b x p) } 16 →
    (g.ctx.reg a).fmt.isWide = false → sourceOk g.ctx b .t32 = true →
    hasLane c.active lead = true → (∀ l, l < lead → hasLane c.active l = false) →
    let x := s.issOf c g
    let code := (g.ctx.reg a).fmt
    let val := fun _ => Spec.source g.ctx a (g.ctx.lane b lead).toNat
    InBounds (s.boundsOf g) (x.resultIndex (some a) code) code (x.eff (some m)) (single val) →
    WritesReg s c g (.bcast d a b m) 2 d code (x.resultIndex (some a) code) .uni (x.eff (some m)) val) ∧
  (∀ (d a b m : Nat) (s : State) (c : Cur) (g : Group),
    Issues s c g (.xchg d a b m)
      { srcs := [a, b], dsts := [d], ms := some m, reads := some (exchangeReads m (xchgLane b)) } 16 →
    (g.ctx.reg a).fmt.isWide = false → sourceOk g.ctx b .t32 = true →
    let x := s.issOf c g
    let code := (g.ctx.reg a).fmt
    let val := fun l => Spec.source g.ctx a (Nat.xor l ((g.ctx.lane b l).toNat % 32))
    InBounds (s.boundsOf g) (x.resultIndex (some a) code) code (x.eff (some m)) (single val) →
    WritesReg s c g (.xchg d a b m) 3 d code (x.resultIndex (some a) code) .gen (x.eff (some m)) val) ∧
  (∀ (d a b e m : Nat) (s : State) (c : Cur) (g : Group),
    Issues s c g (.shfl d a b e m)
      { srcs := [a, b, e], dsts := [d], ms := some m,
        reads := some (exchangeReads m (fun x l => (x.g.ctx.lane b l).toNat)) } 16 →
    (g.ctx.reg a).fmt.isWide = false → (g.ctx.reg e).fmt = (g.ctx.reg a).fmt → sourceOk g.ctx b .t32 = true →
    let x := s.issOf c g
    let code := (g.ctx.reg a).fmt
    let val := fun l => if (g.ctx.lane b l).toNat < 32 then Spec.source g.ctx a (g.ctx.lane b l).toNat else g.ctx.lane e l
    InBounds (s.boundsOf g) (x.resultIndex (some a) code) code (x.eff (some m)) (single val) →
    WritesReg s c g (.shfl d a b e m) 4 d code (x.resultIndex (some a) code) .gen (x.eff (some m)) val)

/-- R252: scan gives each lane of the mask the fold of the lanes of the mask up to it, scanx of those below it. -/
def Obligations.Scans : Prop :=
  ∀ (exclusive : Bool) (d a m : Nat) (o : ScanOp) (s : State) (c : Cur) (g : Group),
    let i := if exclusive = true then Instr.scanx d a m o else Instr.scan d a m o
    Issues s c g i { srcs := [a], dsts := [d], ms := some m } 16 →
    sourceOk g.ctx a (Spec.scanRule o).1 = true →
    let x := s.issOf c g
    let code := (Spec.scanRule o).2.1
    let e := x.eff (some m)
    let val := fun l => Spec.scanTo ((Spec.scanRule o).2.2.2 (Spec.plainMode x)) (Spec.scanRule o).2.2.1 (g.ctx.lane a) e
      (if exclusive = true then l else l + 1)
    InBounds (s.boundsOf g) (x.resultIndex (some a) code) code e (single val) →
    WritesReg s c g i (Spec.price i).1 d code (x.resultIndex (some a) code) .gen e val

/-- R13, R15, R18, R227, R228: br. Each slice of the gang goes where its lanes go, pushing or folding where
they disagree, and the gang parts by next PC. Inside an attempt the slices turn in step (R139). R229: call is br with the
link PC + 4 written into v2 and v3 for the taking lanes, code n64; no lane takes it, nothing is written. -/
def Obligations.BranchAndCall : Prop :=
  (∀ (k : BrCond) (m o : Nat) (s : State) (c : Cur) (g : Group), Issues s c g (.br k m o) {} 16 →
     let taken := maskOf (fun l => hasLane c.active l &&
       Spec.takes k c.active (if m = 0 then c.active else g.ctx.maskAt m) l)
     let dest := Spec.target c.pc o
     let turn := fun i x => Spec.branched x (sliceBits taken i &&& x.cur) dest (c.pc + 4)
     let inStep := Spec.branchedInStep g.ctx.slices c.slices c.active taken dest (c.pc + 4)
     Spec.Reachable s g (if taken = 0 then [] else [dest]) → Spec.Goes c g turn inStep →
     Spec.Turns s c g (.br k m o) { g.ctx with slices := Spec.goes c g turn inStep }) ∧
  (∀ (k : BrCond) (m o : Nat) (s : State) (c : Cur) (g : Group), Issues s c g (.call k m o) { dsts := [2, 3] } 16 →
     let taken := maskOf (fun l => hasLane c.active l &&
       Spec.takes k c.active (if m = 0 then c.active else g.ctx.maskAt m) l)
     let dest := Spec.target c.pc o
     let turn := fun i x => Spec.branched x (sliceBits taken i &&& x.cur) dest (c.pc + 4)
     let inStep := Spec.branchedInStep g.ctx.slices c.slices c.active taken dest (c.pc + 4)
     let ix := (s.issOf c g).hints.bnd.getD 0
     let link : Word64 := BitVec.ofNat 64 (c.pc + 4)
     Spec.Reachable s g (if taken = 0 then [] else [dest]) →
     (taken ≠ 0 → InBounds (s.boundsOf g) ix .n64 taken (fun _ => link) true) →
     Spec.Goes c g turn inStep →
     ∃ t h, exec (.call k m o) s = .next t ∧ Kept s t c 2 { g with specs := [] } h ∧
       h.ctx = { g.ctx with regs := h.ctx.regs, slices := Spec.goes c g turn inStep } ∧
       (∀ v, v ≠ 2 → v ≠ 3 → h.ctx.reg v = g.ctx.reg v) ∧
       (taken = 0 → ∀ v, h.ctx.reg v = g.ctx.reg v) ∧
       (taken ≠ 0 → Wrote g h 2 .n64 ix .uni taken (fun _ => lo32 link) ∧ Wrote g h 3 .n64 ix .uni taken (fun _ => hi32 link)))

/-- R16, R17, R230: join outside an attempt, and inside one where it pops no entry pushed before txb; where it would, the attempt
ends at Lfail with cause 13 (R139, R143). -/
def Obligations.JoinWord : Prop :=
  ∀ (s : State) (c : Cur) (g : Group), Issues s c g .join {} 16 →
    (g.tx = none → Spec.Turns s c g .join
      { g.ctx with slices := Spec.follow g.ctx.slices c.slices (fun i x => Spec.joined (sliceBits g.ctx.live i) x) }) ∧
    ∀ a, g.tx = some a →
      let older := ∃ i ∈ c.slices, ∃ y, g.ctx.slices[i]? = some y ∧ y.stack ≠ [] ∧ y.stack.length ≤ a.depths.getD i 0
      (¬ older → Spec.Turns s c g .join
        { g.ctx with slices := Spec.followInStep g.ctx.slices c.slices (fun i x => Spec.joinedInStep (sliceBits g.ctx.live i) x) }) ∧
      (older → ∃ t, exec .join s = .next t ∧ Spec.Failed s t c g a 13)

/-- R14, R18, R139, R231, R232: jmp and ret go to the target of each lane in the pair va, and calli writes the link PC + 4 into the
pair vd as well; the targets are read before the link is written. -/
def Obligations.IndirectTransfers : Prop :=
  ∀ (a : Nat) (link : Option Nat) (i : Instr) (s : State) (c : Cur) (g : Group),
    (link = none ∧ (i = .jmp a ∨ i = .ret a)) ∨ (∃ d, link = some d ∧ i = .calli d a) →
    Issues s c g i { srcs := [a, a + 1], dsts := (link.map (fun d => [d, d + 1])).getD [] } 16 →
    sourceOk g.ctx a .t64 = true →
    let tgt := fun l => (g.ctx.lane64 a l).toNat
    let ix := (s.issOf c g).hints.bnd.getD 0
    let value : Word64 := BitVec.ofNat 64 (c.pc + 4)
    Spec.Reachable s g (targetsOf tgt (lanesOf c.active)) →
    (link ≠ none → InBounds (s.boundsOf g) ix .n64 c.active (fun _ => value) true) →
    Spec.Goes c g (Spec.spread tgt) (Spec.spreadInStep tgt c.active) →
    ∃ t h, exec i s = .next t ∧ Kept s t c 4 { g with specs := [] } h ∧
      h.ctx = { g.ctx with regs := h.ctx.regs, slices := Spec.goes c g (Spec.spread tgt) (Spec.spreadInStep tgt c.active) } ∧
      (∀ v, (∀ d, link = some d → v ≠ d ∧ v ≠ d + 1) → h.ctx.reg v = g.ctx.reg v) ∧
      (∀ d, link = some d →
        Wrote g h d .n64 ix .uni c.active (fun _ => lo32 value) ∧
        Wrote g h (d + 1) .n64 ix .uni c.active (fun _ => hi32 value))

/-- R20, R233, R306: regang with an empty set goes on; with a set, and at a barrier, the gang waits at the instruction, marked
as arrived at a barrier. The group waits when none of its gangs runs. A barrier word held until the older accesses of its lanes
are performed: the model's choice, log entry 30. -/
def Obligations.GangWaits : Prop :=
  (∀ (s : State) (c : Cur) (g : Group), Issues s c g (.regang 0) { inTx := false } 16 →
    ∃ t h, exec (.regang 0) s = .next t ∧ Kept s t c 2 g h ∧
      h.ctx = { g.ctx with slices := stepSlices g.ctx.slices c.slices false }) ∧
  (∀ (k : Nat) (s : State) (c : Cur) (g : Group), k ≠ 0 → Issues s c g (.regang k) { inTx := false } 16 →
    g.status = .ready → Spec.Waits s c g (.regang k) (.regang k) id) ∧
  (∀ (s : State) (c : Cur) (g : Group), Issues s c g .barCrew { inTx := false } 16 → g.status = .ready →
    arrivalPending (s.issOf c g) = false → Spec.Waits s c g .barCrew .crewBar (fun y => { y with arrCrew := true })) ∧
  (∀ (s : State) (c : Cur) (g : Group), Issues s c g .barCoh { inTx := false } 16 → g.status = .ready →
    arrivalPending (s.issOf c g) = false → s.earlyOps c.core = [] → Spec.Waits s c g .barCoh .cohBar (fun y => { y with arrCoh := true }))

/-- R17, R35, R309: exit takes the active lanes out of the live mask, each slice of the gang goes on by R17, and the group
becomes retiring when no lane is left. -/
def Obligations.ExitWord : Prop :=
  ∀ (s : State) (c : Cur) (g : Group), Issues s c g .exit { inTx := false } 16 → g.status = .ready →
    let live := g.ctx.live &&& ~~~c.active
    ∃ t h, exec .exit s = .next t ∧
      Kept s t c 1 { g with status := h.status, wait := h.wait, waitStart := h.waitStart } h ∧
      h.ctx = { g.ctx with live := live, slices := repart (onSlices g.ctx.slices c.slices
        (fun i y => unwind (sliceBits live i) { y with hints := .none } y.stack)) c.slices } ∧
      h.status = (if live = 0 then .retiring
        else if h.ctx.slices.any (fun y => !y.fin && y.wait == .run) then .ready else .waiting)

/-- R112, R256 to R266, R269, R271, R377: a memory word outside an attempt enters the queue of its group with its operands
as they stand, is counted in ld or st, and writes no register; lkld takes its lock bits. A result of the speculation buffer
may stand for its access (R346). -/
def Obligations.MemoryWordsEnterTheQueue : Prop :=
  ∀ (i : Instr) (f : MemForm) (ms : Option Nat) (inTx inXir : Bool), memForm i = some f →
    Spec.memoryWord i = some (ms, inTx, inXir) → ∀ (s : State) (c : Cur) (g : Group),
    Issues s c g i (memDesc f ms inTx inXir) 20 →
    let x := s.issOf c g
    let e := x.eff ms
    let caps := capture g.ctx f
    (f.global = true → g.tx = none) →
    memCodesOk i f g.ctx = true → Spec.Addressed s x f caps e →
    (f.load = true → boundOk (s.boundsOf g) (x.hints.bnd.getD 0) f.fmt = true) →
    (f.load = false → f.atom = none →
      InBounds (s.boundsOf g) (g.ctx.reg (f.data.headD 0)).bound (g.ctx.reg (f.data.headD 0)).fmt e (storedVal f caps)) →
    (f.lock = true → f.load = true → (∀ b ∈ (s.core c.core).locks, b.2 ≠ c.frame) ∧
      lockBlocked s x (lockBits s g f caps e) = false) →
    (if f.load = true then g.ld else g.st) < 63 → replayLoad s x < 32 →
    (f.load = true → f.atom ≠ none → Spec.Direct s g) →
    ∃ t h op, exec i s = .next t ∧
      Kept ({ s with fresh := s.fresh + 1, nextId := s.nextId + 1 }.modCore c.core (fun k =>
          if f.lock = true ∧ f.load = true then
            { k with locks := k.locks ++ (lockBits s g f caps e).map (fun b => (b, c.frame)) }
          else k)) t c (Spec.price i).1
        { g with ops := g.ops ++ [op], specs := dropSpecs g.specs f caps e, held := [],
                 ld := g.ld + (if f.load = true then 1 else 0), st := g.st + (if f.load = true then 0 else 1) } h ∧
      CtxKept c g h [] ∧
      op = { id := s.nextId, ins := i, word := (encode i).getD c.word, pc := c.pc, lanes := e, wmask := e, hints := x.hints,
             caps := caps, outs := op.outs, gen := (s.space (s.aspaceOf g)).gen, early := false, spec := op.spec,
             xir := if c.xir = true then g.ctx.xirOf (c.slices.headD 0) else none, again := false, quantum := g.ctx.quantum,
             events := 0, snap := if f.load = true ∨ f.atom ≠ none ∨ f.lock = true then some g.ctx else none } ∧
      (f.load = true ∨ f.atom ≠ none → op.outs = caps) ∧
      (∀ l, l < 32 → hasLane e l = true → dataOf f op.outs l = dataOf f caps l) ∧
      (f.use ≠ some .spec → op.spec = none)

/-- R47, R107, R112, R258, R262, R264 to R266: LOAD_COMPLETE of a load, an lkld or a tlook writes its register from the
bytes its lanes see, and nothing of memory changes. A lane sees memory where neither its crew's buffer, nor an early
store, nor a line of the L1 stands before it. -/
def Obligations.LoadsWriteBack : Prop :=
  (∀ (s : State) (core frame : Nat) (g : Group) (op : MemOp) (f : MemForm), s.group core frame = some g →
    findOp g op.id true = some op → memForm op.ins = some f → f.atom = none →
    s.opReady core frame g op = true → s.genOk g op = true →
    let s1 := if f.global = true ∧ (f.acq.map Scope_wide).getD false = true then s.clearL1 core else s
    let val := fun l => placeLoaded f (
      if f.look = true then s.lookup g (capWide op.caps 0 l)
      else if hasLane op.lanes l = true then
        match s.opSpot core frame g f op.caps l with
        | some (0, a) => ofLe (s1.viewBytes core g a f.size)
        | some (k + 1, p) => ofLe ((List.range f.size).map (fun i => (s.core k).lmem.read (p + i)))
        | none => 0
      else 0)
    let ix := op.hints.bnd.getD 0
    let g1 := (Spec.left g op true).recheck
    s1.loadPoison core frame g f op = none →
    InBounds (s.boundsOf g) ix f.fmt op.wmask val (f.dstRegs.length == 2) →
    ∃ t h, exec (.loadComplete core frame op.id) s = .next t ∧ t.group core frame = some h ∧
      t = { s with groups := t.groups, cores := t.cores } ∧
      (∀ k, k ≠ gkey core frame → tfind t.groups k = tfind s.groups k) ∧
      (∀ n, t.core n = { s.core n with l1 := (t.core n).l1 } ∧ (n ≠ core → t.core n = s.core n)) ∧
      h = { g1 with ctx := { g1.ctx with regs := h.ctx.regs }, cache := h.cache, ops := h.ops } ∧
      h.ops.map (fun o => { o with snap := none }) = g1.ops.map (fun o => { o with snap := none }) ∧
      (∀ v, v ∉ f.dstRegs → h.ctx.reg v = g.ctx.reg v) ∧
      Wrote g h f.dst f.fmt ix .gen op.wmask (fun l => lo32 (val l)) ∧
      (f.dstRegs.length = 2 → Wrote g h (f.dst + 1) f.fmt ix .gen op.wmask (fun l => hi32 (val l)))) ∧
  (∀ (s : State) (core : Nat) (g : Group) (a n : Nat), (∀ k, s.crewOf g = some k → k.buffer = []) →
    (∀ p ∈ s.groupsOn core, ∀ o ∈ p.2.ops, o.early = false) →
    (∀ p ∈ (s.core core).l1, ∀ i, i < n → p.1 ≠ (a + i) / 64) →
    s.viewBytes core g a n = Spec.seen s.mem.read a n)

/-- R103, R112, R262, R264, R265: STORE_ACCEPT of a store or stul of a crew that is not relaunchable puts the bytes of its lanes,
in ascending lane order, where they lie; every other byte of memory and of every local store is as before. A slot of an open
region that is written becomes dirty. stul then frees its lock bits. R125, R435, R436: a global store of a relaunchable crew goes
into its buffer, and memory stays as it was; one that finds no room commits the crew early and then goes to memory. -/
def Obligations.StoresPerformed : Prop :=
  (∀ (s : State) (core frame : Nat) (g : Group) (op : MemOp) (f : MemForm), s.group core frame = some g →
    findOp g op.id false = some op → memForm op.ins = some f → f.atom = none →
    s.opReady core frame g op = true → s.genOk g op = true → Spec.Direct s g →
    (f.lock = true → s.loadPoison core frame g f op = none) →
    let spot := s.opSpot core frame g f op.caps
    let data := dataOf f op.outs
    ∃ t h, exec (.storeAccept core frame op.id) s = .next t ∧ t.group core frame = some h ∧
      (∀ a, t.mem.read a = Spec.byteAfter spot f.size data op.lanes 0 a (s.mem.read a)) ∧
      (∀ n a, (t.core n).lmem.read a = Spec.byteAfter spot f.size data op.lanes (n + 1) a ((s.core n).lmem.read a)) ∧
      (∀ n x, x ∈ (t.core n).rdirty ↔ x ∈ (s.core n).rdirty ∨ Spec.InOpenRegion s n x ∧
        ∃ l p, l < 32 ∧ hasLane op.lanes l = true ∧ spot l = some (n + 1, p) ∧ 1024 * x < p + f.size ∧ p < 1024 * x + 1024) ∧
      (f.lock = true → ∀ b, b ∈ (t.core core).locks ↔ b ∈ (s.core core).locks ∧
        ¬ (b.2 = frame ∧ ∃ l k p, l < 32 ∧ hasLane op.lanes l = true ∧ spot l = some (k, p) ∧ b.1 = lockBit p)) ∧
      Spec.OpsWithout g h op ∧ h.st = (Spec.left g op false).st ∧
      h.ctx.regs = g.ctx.regs ∧ h.ctx.masks = g.ctx.masks ∧ Spec.Bystanders s t core frame) ∧
  (∀ (s : State) (core frame : Nat) (g : Group) (op : MemOp) (f : MemForm) (k : Crew), s.group core frame = some g →
    findOp g op.id false = some op → memForm op.ins = some f → f.atom = none → f.global = true → f.lock = false →
    s.opReady core frame g op = true → s.genOk g op = true → g.inHandler = false → s.crew g.crew = some k →
    k.relaunchable = true →
    let pa := fun l => s.transOf core frame g (globalAddr f op.caps l).toNat
    let entry := fun l => BufEntry.bytes (ocells (pa l) (leBytes (dataOf f op.outs l) f.size))
    let es := (lanesOf op.lanes).map entry
    (Spec.BufferRoom s g.crew k es →
      ∃ t h j, exec (.storeAccept core frame op.id) s = .next t ∧ t.group core frame = some h ∧ t.mem = s.mem ∧
        t.crew g.crew = some j ∧ j = { k with buffer := k.buffer ++ es, bufGen := j.bufGen, bufPoison := j.bufPoison } ∧
        (∀ l, lowest op.lanes = some l → j.bufGen = some (k.bufGen.getD (op.gen, (globalAddr f op.caps l).toNat))) ∧
        h.ops = g.ops.filter (fun o => o.id != op.id) ∧ h.st = (Spec.left g op false).st ∧
        h.ctx.regs = g.ctx.regs ∧ Spec.Bystanders s t core frame) ∧
    (∀ l, lanesOf op.lanes = [l] → ¬ Spec.BufferRoom s g.crew k es → s.commitWaits g.crew core op.id = false →
      Spec.MayCommit s k →
      ∃ t h, exec (.storeAccept core frame op.id) s = .next t ∧ t.group core frame = some h ∧
        Spec.CommittedEarly s t g.crew k es ∧ Spec.OpsWithout g h op ∧
        h.ctx.regs = g.ctx.regs ∧ Spec.Bystanders s t core frame))

/-- R108, R112, R270: a returning atomic of a crew that is not relaunchable, and a red, act on memory lane by lane in ascending
order at their completion; the atomic's register receives what each lane found. What an atomic leaves whose results fail a
trap-mode bound is the model's choice, log entry 93, and is not stated here. R125, R435, R436: a red of a relaunchable crew goes
into its buffer as an operation; a returning atomic commits such a crew early when it issues, and then enters the queue. -/
def Obligations.AtomicsPerformed : Prop :=
  (∀ (s : State) (core frame : Nat) (g : Group) (op : MemOp) (f : MemForm) (a : AOp), s.group core frame = some g →
    findOp g op.id f.load = some op → memForm op.ins = some f → f.atom = some a → f.use ≠ some .quan →
    s.opReady core frame g op = true → s.genOk g op = true → Spec.Direct s g → op.spec = none →
    let r := Spec.atomics a f.size f.sgn (fun l => s.transOf core frame g (globalAddr f op.caps l).toNat) (dataOf f op.outs)
      (casNew f op.outs) (lanesOf op.lanes) s.mem.read
    let val := fun l => placeLoaded f (r.2 l)
    let ix := op.hints.bnd.getD 0
    (f.load = true →
      let s1 := if (f.acq.map Scope_wide).getD false = true then s.clearL1 core else s
      s1.loadPoison core frame g f op = none →
      InBounds (s.boundsOf g) ix f.fmt op.wmask val (f.dstRegs.length == 2) →
      ∃ t h, exec (.loadComplete core frame op.id) s = .next t ∧ t.group core frame = some h ∧
        (∀ x, t.mem.read x = r.1 x) ∧ Spec.OpsWithout g h op ∧ h.ld = (Spec.left g op true).ld ∧
        (∀ v, v ∉ f.dstRegs → h.ctx.reg v = g.ctx.reg v) ∧
        Wrote g h f.dst f.fmt ix .gen op.wmask (fun l => lo32 (val l)) ∧
        (f.dstRegs.length = 2 → Wrote g h (f.dst + 1) f.fmt ix .gen op.wmask (fun l => hi32 (val l))) ∧
        Spec.Bystanders s t core frame) ∧
    (f.load = false → s.loadPoison core frame g f op = none →
      ∃ t h, exec (.storeAccept core frame op.id) s = .next t ∧ t.group core frame = some h ∧
        (∀ x, t.mem.read x = r.1 x) ∧ Spec.OpsWithout g h op ∧ h.st = (Spec.left g op false).st ∧
        h.ctx.regs = g.ctx.regs ∧ Spec.Bystanders s t core frame)) ∧
  (∀ (s : State) (core frame : Nat) (g : Group) (op : MemOp) (f : MemForm) (o : RedOp) (a b : Nat) (sc : Scope) (u : Use)
    (ty : IntTy) (k : Crew), s.group core frame = some g → op.ins = .red o a b sc u ty → findOp g op.id false = some op →
    memForm op.ins = some f → f.use ≠ some .quan → s.opReady core frame g op = true → s.genOk g op = true →
    s.crew g.crew = some k → k.relaunchable = true →
    let pa := fun l => s.transOf core frame g (globalAddr f op.caps l).toNat
    let es := (lanesOf op.lanes).map (fun l =>
      BufEntry.red (pa l) o ty (BitVec.ofNat 64 (dataOf f op.outs l)) ⟨frame, op.pc, op.word, 1#32 <<< l⟩)
    Spec.BufferRoom s g.crew k es →
    ∃ t h j, exec (.storeAccept core frame op.id) s = .next t ∧ t.group core frame = some h ∧ t.mem = s.mem ∧
      t.crew g.crew = some j ∧ j = { k with buffer := k.buffer ++ es, bufGen := j.bufGen, bufPoison := j.bufPoison } ∧
      h.ops = g.ops.filter (fun o => o.id != op.id) ∧ h.st = (Spec.left g op false).st ∧
      h.ctx.regs = g.ctx.regs ∧ Spec.Bystanders s t core frame) ∧
  (∀ (i : Instr) (f : MemForm) (s : State) (c : Cur) (g : Group) (k : Crew), memForm i = some f → f.atom ≠ none → f.load = true →
    Issues s c g i (memDesc f none false false) 20 → s.crewOf g = some k → k.relaunchable = true →
    let e := (s.issOf c g).eff none
    let caps := capture g.ctx f
    memCodesOk i f g.ctx = true → Spec.Addressed s (s.issOf c g) f caps e →
    boundOk (s.boundsOf g) ((s.issOf c g).hints.bnd.getD 0) f.fmt = true → g.ld < 63 → replayLoad s (s.issOf c g) < 32 →
    s.commitWaits g.crew c.core s.nextId = false → Spec.MayCommit s k →
    ∃ t h op, exec i s = .next t ∧ t.group c.core c.frame = some h ∧ Spec.CommittedEarly s t g.crew k [] ∧
      h.ops = g.ops ++ [op] ∧ op.ins = i ∧ op.caps = caps ∧ op.lanes = e ∧ op.pc = c.pc ∧ h.ld = g.ld + 1 ∧ CtxKept c g h [] ∧
      Spec.Bystanders s t c.core c.frame)

/-- R91, R108, R128: a red with .quan leaves memory as it was and joins the core's quantum buffer lane by lane, under the
threshold that it issued with; QUANTUM_FLUSH performs an entry on its way as an add on memory, and no L1 keeps its line. An
entry of an old generation is rejected: its queue is torn down with error 13. R379, R434: one that meets poison is consumed by
its group (what consumes it is the model's choice, log entry 112). -/
def Obligations.QuantumBuffer : Prop :=
  (∀ (s : State) (core frame : Nat) (g : Group) (op : MemOp) (a b : Nat) (sc : Scope) (ty : IntTy), s.group core frame = some g →
    op.ins = .red .add a b sc .quan ty → findOp g op.id false = some op →
    s.opReady core frame g op = true → s.genOk g op = true →
    ∀ f, memForm op.ins = some f →
    ∃ t h, exec (.storeAccept core frame op.id) s = .next t ∧ t.group core frame = some h ∧ t.mem = s.mem ∧
      (t.core core).qbuf = (lanesOf op.lanes).foldl (fun q l =>
        Spec.quanJoin q (s.transOf core frame g (globalAddr f op.caps l).toNat) g.crew ty (dataOf f op.outs l)
          op.quantum.toNat op.gen (globalAddr f op.caps l).toNat ⟨frame, op.pc, op.word, 1#32 <<< l⟩) (s.core core).qbuf ∧
      h.ops = g.ops.filter (fun o => o.id != op.id) ∧ h.st = (Spec.left g op false).st ∧ h.ctx.regs = g.ctx.regs) ∧
  (∀ (s : State) (core ix : Nat) (e : QEntry) (k : Crew), (s.core core).qbuf[ix]? = some e → e.flushing = true →
    s.crew e.crew = some k → k.relaunchable = false → e.gen = s.crewGen k → s.poisonedAt e.addr (IntTy_size e.ty) = false →
    let n := IntTy_size e.ty
    let sum := (ofLe (Spec.seen s.mem.read e.addr n) + e.sum.toNat) % 2 ^ (8 * n)
    ∃ t, exec (.quantumFlush core ix) s = .next t ∧ (t.core core).qbuf = (s.core core).qbuf.eraseIdx ix ∧
      (∀ c p, p ∈ (t.core c).l1 → p.1 ∉ linesOf e.addr n) ∧
      ∀ a, t.mem.read a = Spec.putByte e.addr (leBytes sum n) a (s.mem.read a)) ∧
  (∀ (s : State) (core ix : Nat) (e : QEntry) (k : Crew) (g : Group), (s.core core).qbuf[ix]? = some e → e.flushing = true →
    s.crew e.crew = some k → k.relaunchable = false → e.gen = s.crewGen k → s.poisonedAt e.addr (IntTy_size e.ty) = true →
    s.group core e.made.frame = some g → g.crew = e.crew → g.status ≠ .retired → g.poisoned = none →
    ∃ t h, exec (.quantumFlush core ix) s = .next t ∧ (t.core core).qbuf = (s.core core).qbuf.eraseIdx ix ∧ t.mem = s.mem ∧
      t.group core e.made.frame = some h ∧
      h.poisoned = some (⟨20, 0, e.made.pc, e.made.lanes, e.made.lanes, e.made.word, e.addr / 32 * 32, false⟩, s.nextId, none)) ∧
  (∀ (s : State) (core ix : Nat) (e : QEntry) (k : Crew) (w : Launch), (s.core core).qbuf[ix]? = some e → e.flushing = true →
    s.crew e.crew = some k → s.flushWaits e.crew core = false → e.gen ≠ s.crewGen k → s.launch k.launch = some w → (s.queue w.queue).down = false →
    ∃ t, exec (.quantumFlush core ix) s = .next t ∧ Spec.TornDown s t w.queue 13 w.seq)

/-- R253 to R255: xir takes the words of its lanes and runs none of them itself; an xir with no lane left goes on, whatever code
va carries where it is resumed. Resumed, it keeps the lanes done and takes the words of the others again. That a resumed xir takes its words again is the model's choice,
log entry 15. -/
def Obligations.XirTakesItsWords : Prop :=
  ∀ (a m : Nat) (s : State) (c : Cur) (g : Group), Issues s c g (.xir a m)
      { srcs := [a], ms := some m, noHints := true,
        reads := some (fun x _ l => if hasLane (xirStart x m).pend l then oneLane l else 0) } 0 →
    let lead := c.slices.headD 0
    let words := (List.range 32).map (fun l => g.ctx.lane a l)
    let old := g.ctx.xirOf lead
    let q : Xir := match old with
      | some q => { q with pend := q.pend &&& g.ctx.live, words := words }
      | none => ⟨c.pc, (s.issOf c g).eff (some m), 0, words⟩
    ((g.ctx.reg a).fmt = .b32 ∨ (g.ctx.reg a).fmt = .n32 ∨ old ≠ none ∧ q.pend = 0) →
    let k := if q.pend = 0 then Spec.onward c { g.ctx with slices := setXir g.ctx.slices lead none }
      else { g.ctx with slices := setXir g.ctx.slices lead (some q) }
    exec (.xir a m) s = .next (s.setGroup c.core c.frame { g with ctx := k })

/-- R99, R100, R101 to R103, R266 to R268, R434: tset writes the tag table, and the tags that it writes are poisoned no longer;
rgn.open makes a region with clean slots and starts its
fill; rgn.close ends it and starts the write-back of its slots, all of them or the dirty ones. -/
def Obligations.TagAndRegionWords : Prop :=
  (∀ (a b m : Nat) (s : State) (c : Cur) (g : Group) (k : Crew) (w : Launch),
    Issues s c g (.tset a b m) { srcs := [a, b, b + 1], ms := some m, inTx := false } 2 →
    sourceOk g.ctx a .t32 = true → sourceOk g.ctx b .t64 = true → s.crewOf g = some k → s.launchOf g = some w →
    let e := (s.issOf c g).eff (some m)
    (∀ l, l < 32 → hasLane e l = true → (g.ctx.lane a l).toNat < w.lbytes / 1024) →
    ∃ t h, exec (.tset a b m) s = .next t ∧
      Kept (s.modCore c.core (fun y => { y with tags := (t.core c.core).tags, tpoison := (t.core c.core).tpoison })) t c 2 g h ∧
      h.ctx = Spec.onward c g.ctx ∧
      (∀ n, n ∈ (t.core c.core).tpoison ↔ n ∈ (s.core c.core).tpoison ∧
        ∀ l, l < 32 → hasLane e l = true → k.base / 1024 + (g.ctx.lane a l).toNat ≠ n) ∧
      ∀ n, t.tagAt c.core n = Spec.tagAfter g.ctx (k.base / 1024) a b e n (s.tagAt c.core n)) ∧
  (∀ (a d : Nat) (s : State) (c : Cur) (g : Group) (k : Crew) (w : Launch),
    Issues s c g (.rgnOpen a d) { srcs := [a, a + 1], inTx := false } 16 →
    Spec.DescriptorReady s c g a 16 16 → localPending g c.active = false → s.crewOf g = some k → s.launchOf g = some w →
    let r := (readRegion (Spec.descriptor s c g a 16)).1
    let span := [((r.gbase : Int), 1024 * r.nslot)]
    regionBad k w.lbytes d r (readRegion (Spec.descriptor s c g a 16)).2 = false →
    (r.fill = true → s.probeSpan (s.issOf c g) .read span = .ready ∧ copyFull s (s.issOf c g) = false) →
    (r.wb ≠ 0 → s.probeSpan (s.issOf c g) .write span = .ready) →
    (r.fill = true ∨ r.wb ≠ 0 → Spec.Cached s c.core g [(r.gbase, 1024 * r.nslot)]) →
    let slots := (List.range r.nslot).map (fun n => k.base / 1024 + r.lslot + n)
    let s1 := (s.modCrew g.crew (fun y => { y with regions := y.regions ++ [(d, r)] })).modCore k.core
      (fun y => { y with rdirty := y.rdirty.filter (fun n => !slots.contains n) })
    let o : CopyOp :=
      { id := s.nextId, core := c.core, frame := c.frame, crew := g.crew, src := .global r.gbase,
        dst := .loc (some (k.core, k.base + 1024 * r.lslot)), esize := 1, extents := [1024], sstride := [1], dstride := [1],
        after := forkOps g c.active, started := false, gen := (s.space w.aspace).gen, pc := c.pc, word := c.word,
        lanes := c.active, guards := s.readers (c.core / 4), wbSlots := List.range r.nslot }
    (r.fill = false → Spec.Becomes s c (.rgnOpen a d) s1 { g with ctx := Spec.onward c g.ctx }) ∧
    (r.fill = true → Spec.Becomes s c (.rgnOpen a d) (Spec.withCopy s1 (c.core / 4) o)
      { Spec.copied s g o with ctx := Spec.onward c g.ctx })) ∧
  (∀ (d : Nat) (s : State) (c : Cur) (g : Group) (k : Crew) (r : Region),
    Issues s c g (.rgnClose d) { inTx := false } 16 →
    s.crewOf g = some k → k.regions.find? (fun p => p.1 == d) = some (d, r) →
    (r.wb ≠ 0 → localPending g c.active = false) →
    let slots := (List.range r.nslot).filter (fun n =>
      r.wb == 2 || r.wb == 1 && (s.core k.core).rdirty.contains (k.base / 1024 + r.lslot + n))
    let s1 := s.modCrew g.crew (fun y => { y with regions := y.regions.filter (fun p => p.1 != d) })
    let o : CopyOp :=
      { id := s.nextId, core := c.core, frame := c.frame, crew := g.crew,
        src := .loc (some (k.core, k.base + 1024 * r.lslot)), dst := .global r.gbase, esize := 1, extents := [1024],
        sstride := [1], dstride := [1], after := forkOps g c.active, started := false,
        gen := (s.space (s.aspaceOf g)).gen, pc := c.pc, word := c.word, lanes := c.active,
        guards := s.readers (c.core / 4), wbSlots := slots }
    (slots = [] → Spec.Becomes s c (.rgnClose d) s1 { g with ctx := Spec.onward c g.ctx }) ∧
    (slots ≠ [] → copyFull s (s.issOf c g) = false → Spec.Becomes s c (.rgnClose d) (Spec.withCopy s1 (c.core / 4) o)
      { Spec.copied s g o with ctx := Spec.onward c g.ctx }))

/-- R109, R110, R112, R113, R131, R272 to R274: cpy reads its descriptor, checks it, and adds one copy operation with the
generation of its space, behind the older loads of the group and the older accesses of its lanes; a copy of nothing passes every
check but the first and adds none. -/
def Obligations.CopyWord : Prop :=
  ∀ (a : Nat) (s : State) (c : Cur) (g : Group), Issues s c g (.cpy a) { srcs := [a, a + 1], inTx := false } 16 →
    Spec.DescriptorReady s c g a 128 64 →
    let d := readDesc (Spec.descriptor s c g a 128)
    let x := s.issOf c g
    let o : CopyOp :=
      { id := s.nextId, core := c.core, frame := c.frame, crew := g.crew, src := endOf s x d.skind d.sbase,
        dst := endOf s x d.dkind d.dbase, esize := d.esize, extents := d.extents, sstride := d.sstride,
        dstride := d.dstride, after := forkOps g c.active, started := false, gen := (s.space (s.aspaceOf g)).gen, pc := c.pc,
        word := c.word, lanes := c.active, guards := s.readers (c.core / 4), wbSlots := [] }
    (d.malformed = false → d.total = 0 → Spec.Becomes s c (.cpy a) s { g with ctx := Spec.onward c g.ctx }) ∧
    (Spec.CopyReady s c g d → copyFull s x = false → Spec.Becomes s c (.cpy a) (Spec.withCopy s (c.core / 4) o)
      { Spec.copied s g o with ctx := Spec.onward c g.ctx })

/-- R112, R113, R275: cbat closes the open batch under the next number; wait goes on once ld, st, cp and tl are at most its
limits, waitb once every batch up to its number is complete, and the group waits till then. -/
def Obligations.BatchesAndWaits : Prop :=
  (∀ (s : State) (c : Cur) (g : Group), Issues s c g .cbat { inTx := false } 1 → g.batches.length < 16 →
    Spec.Becomes s c .cbat s { g with
      batches := (if g.openOps = [] then g.batches else g.batches ++ [(g.ctx.batch + 1, g.openOps)]), openOps := [],
      ctx := Spec.onward c { g.ctx with batch := g.ctx.batch + 1 } }) ∧
  (∀ (l st tl cp : Nat) (s : State) (c : Cur) (g : Group), Issues s c g (.wait l st tl cp) {} 1 →
    Spec.IsGang c g →
    Spec.WaitsFor s c g (.wait l st tl cp) (.counters l st cp tl) (g.ld ≤ l ∧ g.st ≤ st ∧ g.cp ≤ cp ∧ g.tl ≤ tl)) ∧
  (∀ (n : Nat) (s : State) (c : Cur) (g : Group), Issues s c g (.waitb n) { wideOk := true, inTx := false } 1 →
    Spec.IsGang c g →
    let k : Word := match (s.issOf c g).hints.wide with
      | some e => BitVec.ofNat 32 (e * 2 ^ 12 + n)
      | none => BitVec.ofNat 32 n
    (k - g.ctx.batch = 0 ∨ 2 ^ 31 ≤ (k - g.ctx.batch).toNat) →
    Spec.WaitsFor s c g (.waitb n) (.batch k) (∀ b ∈ g.batches, 2 ^ 31 ≤ (k - b.1).toNat))

/-- R118 to R122, R124, R128, R276: a fence goes on once what it orders is done. Its acquire part of cohort scope or wider drops
the core's L1; with both parts no L1 keeps a line that memory has passed by; its release part of device scope or wider performs
the core's quantum buffer. That this is done in the step of the fence is the model's choice, log entry 19. -/
def Obligations.Fences : Prop :=
  ∀ (i : Instr) (sc : Scope) (acq rel : Bool), Spec.fenceOf i = some (sc, acq, rel) → ∀ (s : State) (c : Cur) (g : Group),
    Issues s c g i { inTx := false } 8 →
    (acq = true → readsPending g c.active = false) →
    (rel = true → releasePending s c.core c.frame g c.active sc = false) →
    let drops := acq = true ∧ Scope_wide sc = true
    let flushes := rel = true ∧ Scope_dev sc = true
    (¬ flushes ∨ (s.core c.core).qbuf = [] →
      let s1 := s.modCore c.core (fun y => { y with l1 := if drops then [] else y.l1 })
      Spec.Becomes s c i (if drops ∧ rel = true then s1.freshen else s1)
        { g with ctx := Spec.onward c g.ctx }) ∧
    (flushes → (∀ e ∈ (s.core c.core).qbuf, (∃ k, s.crew e.crew = some k ∧ k.relaunchable = false ∧ e.gen = s.crewGen k) ∧
        s.poisonedAt e.addr (IntTy_size e.ty) = false) →
      ∃ t h, exec i s = .next t ∧ t.group c.core c.frame = some h ∧ h.ctx = Spec.onward c g.ctx ∧
        (t.core c.core).qbuf = [] ∧ (drops → (t.core c.core).l1 = []) ∧
        (∀ a, t.mem.read a = Spec.addsPerformed (s.core c.core).qbuf s.mem.read a) ∧ Spec.Bystanders s t c.core c.frame)

/-- R137 to R139, R148, R277: txb begins an attempt, its stamp kept after a transient abort at the same txb; txo adds an
alternative, txe merges the innermost one into the layer below, txr drops it and goes to its target. In the base layer txr
sleeps on the read lines at the txb (R149, R150). txc of an attempt that is older than every one it conflicts with ends it and
performs its writes, and those others end (R143, R146). A global load in an attempt joins its lines to the read set, reads what the
attempt has buffered before memory, and ends younger attempts that have written them; a global store joins its innermost layer, and
memory stays as it was. The attempt ends instead where an older one has written a line that it reads (cause 1), where a set exceeds
its capacity (3 and 4), and where the access touches a page of span or system scope (7) (R140 to R142, R146). That txb waits for every
operation of its group, and the order at txc, are the model's choices, log entries 20 and 21. -/
def Obligations.Transactions : Prop :=
  (∀ (o : Nat) (s : State) (c : Cur) (g : Group), Issues s c g (.txb o) { inTx := false } 4 →
    wholeGang (s.issOf c g) = true → s.attempts c.core < 4 → g.ops = [] →
    let kept := match g.lastStamp with
      | some (st, n, pc) => if pc = c.pc then some (st, n) else none
      | none => none
    let depths := g.ctx.slices.map (fun y => y.stack.length)
    Spec.Becomes s c (.txb o)
      ({ s with stamp := s.stamp + (if kept = none then 1 else 0) }.modCore c.core (fun y => { y with l1 := [] }))
      { g with tx := some { lanes := c.active, depths := depths, lfail := Spec.target c.pc o, pc := c.pc,
                            stamp := (kept.getD (s.stamp, 0)).1, restarts := (kept.getD (s.stamp, 0)).2, reads := [],
                            gen := none, layers := [⟨0, c.active, depths, []⟩] },
               lastStamp := none, ctx := Spec.onward c { g.ctx with txstat := g.ctx.txstat ||| 0x10000 } }) ∧
  (∀ (o : Nat) (s : State) (c : Cur) (g : Group) (x : Tx), Issues s c g (.txo o) {} 2 → g.tx = some x →
    x.layers.length < 5 →
    Spec.Becomes s c (.txo o) s { g with
      tx := some { x with layers := ⟨Spec.target c.pc o, c.active, g.ctx.slices.map (fun y => y.stack.length), []⟩ :: x.layers },
      ctx := Spec.onward c g.ctx }) ∧
  (∀ (s : State) (c : Cur) (g : Group) (x : Tx) (top below : Layer) (r : List Layer), Issues s c g .txe {} 2 →
    g.tx = some x → x.layers = top :: below :: r →
    Spec.Becomes s c .txe s { g with
      tx := some { x with layers := { below with writes := Overlay.merge below.writes top.writes } :: r },
      ctx := Spec.onward c g.ctx }) ∧
  (∀ (s : State) (c : Cur) (g : Group) (x : Tx) (top below : Layer) (r : List Layer), Issues s c g .txr {} 2 →
    g.tx = some x → x.layers = top :: below :: r →
    Spec.Becomes s c .txr s { g with
      tx := some { x with layers := below :: r },
      ctx := { g.ctx with slices := endSlices g.ctx.slices top.depths (top.lanes &&& g.ctx.live) top.lelse true } }) ∧
  (∀ (s : State) (c : Cur) (g : Group) (x : Tx) (base : Layer), Issues s c g .txr {} 2 →
    g.tx = some x → x.layers = [base] → x.reads ≠ [] →
    ∃ t h, exec .txr s = .next t ∧ t.group c.core c.frame = some h ∧ h.status = .sleeping ∧ h.tx = none ∧ t.mem = s.mem ∧
      h.wake.watch = x.reads ∧ (∀ ln ∈ x.reads, h.wake.hits ln = true) ∧ h.ctx.regs = g.ctx.regs ∧
      h.ctx.slices = endSlices g.ctx.slices x.depths (x.lanes &&& g.ctx.live) x.pc true) ∧
  (∀ (s : State) (c : Cur) (g : Group) (x : Tx), Issues s c g .txc {} 4 → g.tx = some x →
    x.layers.length ≤ 5 → x.restarts < 256 →
    releasePending s c.core c.frame g c.active .dev = false → (s.core c.core).qbuf = [] → Spec.Direct s g →
    (∀ p ∈ s.groups, p.1 ≠ gkey c.core c.frame → ∀ u, p.2.tx = some u → (∃ ln ∈ writeLines x, u.touches ln = true) →
      x.stamp ≤ u.stamp) →
    (∀ e, x.gen = some e → e.1 = (s.space (s.aspaceOf g)).gen) →
    ∃ t h, exec .txc s = .next t ∧ t.group c.core c.frame = some h ∧ h.tx = none ∧ h.lastStamp = none ∧
      h.ctx.regs = g.ctx.regs ∧
      h.ctx.slices = endSlices g.ctx.slices x.depths (x.lanes &&& g.ctx.live) (c.pc + 4) true ∧
      h.ctx.txstat.toNat % 32 = 0 ∧ h.ctx.txstat.getLsbD 16 = false ∧
      (∀ a, t.mem.read a = match x.writes.find a with
        | some b => Spec.putByte a [b] a (s.mem.read a)
        | none => s.mem.read a) ∧
      (∀ p ∈ t.groups, p.1 ≠ gkey c.core c.frame → ∀ u, p.2.tx = some u → ∀ ln ∈ writeLines x, u.touches ln = false) ∧
      Spec.Bystanders s t c.core c.frame) ∧
  (∀ (i : Instr) (f : MemForm) (m : Nat) (s : State) (c : Cur) (g : Group) (a : Tx), Spec.Tracked s c g i f m a → f.load = true →
    let e := (s.issOf c g).eff (some m)
    let ix := (s.issOf c g).hints.bnd.getD 0
    let lines := Spec.lineSet s c g f e
    let reads := a.reads ++ lines.filter (fun ln => !a.reads.contains ln)
    let older := fun (u : Tx) => (∃ ln ∈ lines, u.wrote ln = true) → a.stamp ≤ u.stamp
    let byte := fun x => match Spec.buffered a x with
      | some b => b
      | none => Spec.seenByte s.mem.read x
    let val := fun l => placeLoaded f
      (if hasLane e l = true then ofLe ((List.range f.size).map (fun k => byte (Spec.lanePa s c g f l + k))) else 0)
    boundOk (s.boundsOf g) ix f.fmt = true →
    (¬ Spec.Others s c older → ∃ t, exec i s = .next t ∧ Spec.Restarts s t c g a 1) ∧
    (Spec.Others s c older → 512 < reads.length → ∃ t, exec i s = .next t ∧ Spec.Failed s t c g a 3) ∧
    (Spec.Others s c older → reads.length ≤ 512 → (writeLines a).length ≤ 64 → (∀ k, s.crewOf g = some k → k.buffer = []) →
      s.earlyOps c.core = [] →
      (∀ l, l < 32 → hasLane e l = true → ∀ k, k < f.size → s.crewPoisonAt g (Spec.lanePa s c g f l + k) 1 = false) →
      InBounds (s.boundsOf g) ix f.fmt e val (f.dstRegs.length == 2) →
      ∃ t h, exec i s = .next t ∧ t.group c.core c.frame = some h ∧ h.tx = some { a with reads := reads } ∧
        Charged s t c.core (Spec.price i).1 ∧ CtxKept c g h f.dstRegs ∧ Wrote g h f.dst f.fmt ix .gen e (fun l => lo32 (val l)) ∧
        (f.dstRegs.length = 2 → Wrote g h (f.dst + 1) f.fmt ix .gen e (fun l => hi32 (val l))) ∧
        h.ld = g.ld ∧ h.ops = g.ops ∧ t.mem = s.mem ∧ Spec.Others t c (fun u => ∀ ln ∈ lines, u.wrote ln = false) ∧
        Spec.Bystanders s t c.core c.frame)) ∧
  (∀ (i : Instr) (f : MemForm) (m : Nat) (s : State) (c : Cur) (g : Group) (a : Tx) (top : Layer) (r : List Layer),
    Spec.Tracked s c g i f m a → f.load = false → a.layers = top :: r →
    let e := (s.issOf c g).eff (some m)
    let caps := capture g.ctx f
    let lines := Spec.lineSet s c g f e
    let full := 64 < (dedup (writeLines a ++ lines)).length
    let byte := fun (o : Option Byte) x => (lanesOf e).foldl (fun o l =>
      if Spec.lanePa s c g f l ≤ x ∧ x < Spec.lanePa s c g f l + f.size then
        some ((leBytes (dataOf f caps l) f.size).getD (x - Spec.lanePa s c g f l) 0) else o) o
    a.reads.length ≤ 512 →
    InBounds (s.boundsOf g) (g.ctx.reg (f.data.headD 0)).bound (g.ctx.reg (f.data.headD 0)).fmt e (storedVal f caps) →
    (full → ∃ t, exec i s = .next t ∧ Spec.Failed s t c g a 4) ∧
    (¬ full → ∃ t h b w, exec i s = .next t ∧ b = { a with layers := { top with writes := w } :: r, gen := b.gen } ∧
      Kept s t c (Spec.price i).1 { g with tx := some b } h ∧ CtxKept c g h [] ∧
      (∀ x, w.find x = byte (top.writes.find x) x) ∧
      ∀ l, lowest e = some l → b.gen = some (a.gen.getD ((s.space (s.aspaceOf g)).gen, (globalAddr f caps l).toNat)))) ∧
  (∀ (i : Instr) (f : MemForm) (m l : Nat) (s : State) (c : Cur) (g : Group) (a : Tx), memForm i = some f → f.global = true →
    (∃ xir, Spec.memoryWord i = some (some m, true, xir) ∧ Issues s c g i (memDesc f (some m) true xir) 20) → g.tx = some a →
    let e := (s.issOf c g).eff (some m)
    memCodesOk i f g.ctx = true → Spec.Addressed s (s.issOf c g) f (capture g.ctx f) e →
    (f.load = true → boundOk (s.boundsOf g) ((s.issOf c g).hints.bnd.getD 0) f.fmt = true) →
    (f.load = false → boundOk (s.boundsOf g) (g.ctx.reg (f.data.headD 0)).bound (g.ctx.reg (f.data.headD 0)).fmt = true) →
    l < 32 → hasLane e l = true → s.scopeAt (s.aspaceOf g) (globalAddr f (capture g.ctx f) l).toNat ≠ 0 →
    ∃ t, exec i s = .next t ∧ Spec.Failed s t c g a 7)

/-- R26, R56, R168, R303, R312: getc and ebud write what their register or selector holds, for the active lanes. -/
def Obligations.ControlReads : Prop :=
  (∀ (d : Nat) (n : CReg) (s : State) (c : Cur) (g : Group),
    let ds := if n.isWide = true then [d, d + 1] else [d]
    Issues s c g (.getc d n) { dsts := ds } 2 → (n = .bflag → eventsPending s (s.issOf c g) = false) →
    let ix := (s.issOf c g).resultIndex none (Spec.controlFmt n)
    let val := fun l => BitVec.ofNat 64 (Spec.controlValue s c g l n)
    InBounds (s.boundsOf g) ix (Spec.controlFmt n) c.active val n.isWide →
    let kind := match n with
      | .wid | .lane => ResK.aff
      | .slice => .gen
      | _ => .uni
    let cost := if g.ctx.live &&& ~~~c.active = 0 ∧ kind ≠ .gen then 1 else 2
    ∃ t h, exec (.getc d n) s = .next t ∧ Kept s t c cost g h ∧ CtxKept c g h ds ∧
      Wrote g h d (Spec.controlFmt n) ix kind c.active (fun l => lo32 (val l)) ∧
      (n.isWide = true → Wrote g h (d + 1) (Spec.controlFmt n) ix kind c.active (fun l => hi32 (val l)))) ∧
  (∀ (d n : Nat) (s : State) (c : Cur) (g : Group), Issues s c g (.ebud d n) { dsts := [d], inTx := false } 2 →
    let ix := (s.issOf c g).resultIndex none .n32
    let val := fun _ : Nat => BitVec.ofNat 32 (min (Spec.budgetValue s c g n) 0xFFFFFFFF)
    InBounds (s.boundsOf g) ix .n32 c.active (single val) →
    WritesReg s c g (.ebud d n) (if g.ctx.live &&& ~~~c.active = 0 then 1 else 2) d .n32 ix .uni c.active val)

/-- R56, R304, R313: setc sets its register to the value of the lowest active lane; pint declares a rise of the package's
power, or withdraws what the group has declared and the device has not announced: declarations that are not fixed yet, and its
part of fixed steps of which no peer was told (log entry 68). -/
def Obligations.ControlWrites : Prop :=
  (∀ (d lead : Nat) (n : CReg) (s : State) (c : Cur) (g : Group), Issues s c g (.setc d n) { srcs := [d], inTx := false } 2 →
    sourceOk g.ctx d .t32 = true → hasLane c.active lead = true → (∀ l, l < lead → hasLane c.active l = false) →
    let w := g.ctx.lane d lead
    (n = .round → w.toNat < 4 ∨ w.toNat = 4 ∧ s.features.testBit 13 = true) →
    (n = .bflag → eventsPending s (s.issOf c g) = false) →
    Spec.Becomes s c (.setc d n) s { g with ctx := Spec.onward c (Spec.controlSet g.ctx w n) }) ∧
  (∀ (d lead : Nat) (s : State) (c : Cur) (g : Group), Issues s c g (.pint d) { srcs := [d], inTx := false } 4 →
    sourceOk g.ctx d .t32 = true → hasLane c.active lead = true → (∀ l, l < lead → hasLane c.active l = false) →
    let w := (g.ctx.lane d lead).toNat
    let rise := w % 2 ^ 12
    let ahead := w / 2 ^ 12
    1 ≤ ahead → ahead < 2 ^ 12 →
    let p := s.power
    let own := g.crew * 16 + g.f1
    let mine := p.quiet.filter (fun x => x.2.2.1 == some own)
    let power := if rise = 0 then
        { p with decls := p.decls.filter (fun d => d.2.2.2 != some own), quiet := p.quiet.filter (fun x => x.2.2.1 != some own),
                 steps := mine.foldl (fun l x => Spec.stepWithout x.1 x.2.1 x.2.2.2 l) p.steps }
      else { p with decls := p.decls ++ [(p.ivCore + ahead, rise * 20480 / 21, p.ivCore, some own)] }
    Spec.Becomes s c (.pint d) { s with power := power } { g with ctx := Spec.onward c g.ctx })

/-- R278 to R286, R289 to R297: an operation of a matrix word, one for each quarter with an active lane or one for the group,
enters the reservation table or the cluster's drains, and is counted in tl; an mmq fixes the format of its slot. -/
def Obligations.MatrixWordsEnter : Prop :=
  ∀ (i : Instr) (k : MxKind) (b : Nat) (va : Option Nat), mxIns i = some (k, b, va) → ∀ (s : State) (c : Cur) (g : Group),
    let x := s.issOf c g
    Issues s c g i { srcs := va.toList, inTx := false, chuck := match k with
      | .mul _ sl _ _ => some sl
      | _ => none } (mxPrice k) →
    ∀ (q : Nat), (byQuarters k = true → (activeQuarters c.active).find? (fun n => !(quartersDone x).testBit n) = some q) →
    (byQuarters k = false → q = 0) →
    let lead := (lowest (if byQuarters k = true then c.active &&& quarterMask q else c.active)).getD 0
    let a := ((va.map (fun v => g.ctx.lane v lead)).getD 0).toNat
    ∀ (place : Option (Nat × Nat)), Spec.EntersMatrix s x k b q va a place →
    let y := s.cluster (c.core / 4)
    ∃ t h, exec i s = .next t ∧
      Kept { s with nextId := s.nextId + 1, clusters := t.clusters } t c (mxPrice k) (Spec.quarterIssued c x g k q) h ∧
      h.ctx = (Spec.quarterIssued c x g k q).ctx ∧ (∀ n, n ≠ c.core / 4 → t.cluster n = s.cluster n) ∧
      match k with
      | .mul kc sl f byp =>
        ∃ r, t.cluster (c.core / 4) = { y with table := y.table ++ [r], age := y.age + 1, chuck := (t.cluster (c.core / 4)).chuck } ∧
          (∀ n, tget (t.cluster (c.core / 4)).chuck n .init =
            if n = s.slotOf x sl then { tget y.chuck n Chuck.init with fmt := some f } else tget y.chuck n .init) ∧
          r.core = c.core ∧ r.frame = c.frame ∧ r.quarter = q ∧ r.bench = b ∧ r.bypass = byp ∧ r.k = kc ∧ r.fmt = f ∧
          r.slot = s.slotOf x sl ∧ r.base = place ∧ r.scan = false ∧ r.gload = false ∧ r.age = y.age ∧ r.window = Spec.window c x g k ∧
          r.prio = s.recordPrio g ∧ r.op.ins = i ∧ r.op.lanes = c.active ∧ r.op.pc = c.pc ∧ r.killed = none
      | .gload =>
        ∃ r, t.cluster (c.core / 4) = { y with table := y.table ++ [r], age := y.age + 1 } ∧ r.core = c.core ∧
          r.frame = c.frame ∧ r.quarter = q ∧ r.bench = b ∧ r.gload = true ∧ r.base = place ∧ r.age = y.age ∧
          r.window = 32 ∧ r.prio = s.recordPrio g ∧ r.op.ins = i
      | .scan n e =>
        ∃ r, t.cluster (c.core / 4) = { y with table := y.table ++ [r], age := y.age + 1 } ∧ r.core = c.core ∧
          r.frame = c.frame ∧ r.bench = b ∧ r.scan = true ∧ r.isNew = n ∧ r.clrf = e ∧ r.age = y.age ∧
          r.prio = s.recordPrio g ∧ r.op.ins = i
      | .drain f sat =>
        ∃ d, t.cluster (c.core / 4) = { y with drains := y.drains ++ [d] } ∧ d.core = c.core ∧ d.frame = c.frame ∧
          d.bench = b ∧ d.kind = 0 ∧ d.quarter = q ∧ d.fmt = f ∧ d.sat = sat ∧ d.target = place ∧ d.rnd = x.mode ∧
          d.seed = g.ctx.seed ∧ d.op.ins = i
      | .state =>
        ∃ d, t.cluster (c.core / 4) = { y with drains := y.drains ++ [d] } ∧ d.core = c.core ∧ d.frame = c.frame ∧
          d.bench = b ∧ d.kind = 1 ∧ d.target = place ∧ d.op.ins = i
      | .bypass f sat sg =>
        ∃ d, t.cluster (c.core / 4) = { y with drains := y.drains ++ [d] } ∧ d.core = c.core ∧ d.frame = c.frame ∧
          d.bench = b ∧ d.kind = 2 ∧ d.quarter = q ∧ d.fmt = mxDrain f ∧ d.sat = sat ∧ d.seg = sg ∧ d.rnd = x.mode ∧
          d.seed = g.ctx.seed ∧ d.op.ins = i

/-- R283, R284: macq takes a bench, or a pair, that nobody owns or queues for, with its bound and, with .clr, its start values;
otherwise the group waits in the owner queue, its pending hints kept. The pair state starts anew with .clr or where an affine
flag changes. mrel gives it up, at once where no operation of the group on it is left.
BENCH_HANDOVER: a free bench, or pair, that no group returns for goes to the head of its owner queue with what the request asked for, and the wait of that
group ends; with nobody in the queue it has no owner. Which groups of an owner queue count is the model's choice, log entry 31. -/
def Obligations.BenchOwnership : Prop :=
  (∀ (b ix : Nat) (clr aff : Bool) (s : State) (c : Cur) (g : Group), Issues s c g (.macq b clr ix aff) { inTx := false } 2 →
    let bs := if aff = true then [b, b + 1] else [b]
    let bd := (s.issOf c g).hints.bnd.getD ix
    g.inHandler = false →
    (∀ n ∈ bs, (∀ e ∈ g.benchCtx, e.1 ≠ n) ∧ ownsBench s (s.issOf c g) n = false ∧ ∀ q ∈ (s.bench c.core n).queue, q.1 ≠ c.frame) →
    boundOk (s.boundsOf g) bd .f32 = true →
    ((∀ n ∈ bs, s.benchFree c.core n = true ∧ s.benchQueued c.core n = false) →
      ∃ t h, exec (.macq b clr ix aff) s = .next t ∧ h.ctx = Spec.onward c g.ctx ∧
        Kept (s.modCore c.core (fun y => { y with benches := (t.core c.core).benches, pairs := (t.core c.core).pairs })) t c 2 g h ∧
        (∀ n, n ∉ bs → t.bench c.core n = s.bench c.core n) ∧
        (∀ n ∈ bs, (t.bench c.core n).owner = some c.frame ∧ (t.bench c.core n).releasing = false ∧
          (t.bench c.core n).affine = aff ∧ (t.bench c.core n).bound = bd ∧
          (t.bench c.core n).bypass = [none, none, none, none] ∧
          ∀ row col, (t.bench c.core n).elem row col =
            if clr = false then (s.bench c.core n).elem row col
            else if aff = true ∧ n % 2 = 0 then 0x3F800000 else 0) ∧
        (t.core c.core).pairs.getD (b / 2) .init =
          if (∀ n ∈ bs, (s.bench c.core n).affine = aff) ∧ ¬ (aff = true ∧ clr = true) then
            (s.core c.core).pairs.getD (b / 2) .init
          else .init) ∧
    ((∃ n ∈ bs, s.benchFree c.core n = false ∨ s.benchQueued c.core n = true) →
      Spec.Becomes s c (.macq b clr ix aff)
        ({ s with nextId := s.nextId + 1 }.modBench c.core b (fun y =>
          { y with queue := insertOwner (c.frame, aff, clr, bd, s.recordPrio g, s.nextId) y.queue }))
        { g with status := .waiting, wait := .bench b, waitStart := s.cycle })) ∧
  (∀ (b : Nat) (s : State) (c : Cur) (g : Group), Issues s c g (.mrel b) { inTx := false } 2 →
    let aff := (s.bench c.core b).affine
    let bs := if aff = true then [b, b + 1] else [b]
    (∀ e ∈ g.benchCtx, e.1 ≠ b) → ownsBench s (s.issOf c g) b = true → (aff = true → b % 2 = 0) →
    (∀ n ∈ bs, (s.bench c.core n).frozen = false) →
    ∃ t h, exec (.mrel b) s = .next t ∧ h.ctx = Spec.onward c g.ctx ∧
      Kept (s.modCore c.core (fun y => { y with benches := (t.core c.core).benches })) t c 2 g h ∧
      (∀ n, n ∉ bs → t.bench c.core n = s.bench c.core n) ∧
      ∀ n ∈ bs, t.bench c.core n =
        if s.benchBusy c.core c.frame n = true then { s.bench c.core n with releasing := true }
        else { s.bench c.core n with owner := none, bypass := [none, none, none, none] }) ∧
  (∀ (s : State) (core b f bd prio age : Nat) (aff clr : Bool) (rest : List (Nat × Bool × Bool × Nat × Nat × Nat)) (g : Group),
    s.returning core b = none → s.queueOf core b = (f, aff, clr, bd, prio, age) :: rest → (∀ n ∈ pairOf b aff, s.benchFree core n = true) →
    (aff = true ∨ pairHead s core b = false) → s.group core f = some g →
    ∃ t h, exec (.benchHandover core b) s = .next t ∧ t.group core f = some h ∧
      h = { g with status := .ready, wait := .none,
                   ctx := { g.ctx with slices := stepSlices g.ctx.slices (gangSlices g g.lastGang) false } } ∧
      t = { s with groups := t.groups, cores := t.cores } ∧
      (∀ n, n ∉ pairOf b aff → t.bench core n = s.bench core n) ∧
      ∀ n ∈ pairOf b aff, (t.bench core n).owner = some f ∧ (t.bench core n).releasing = false ∧
        (t.bench core n).affine = aff ∧ (t.bench core n).bound = bd ∧ (∀ q ∈ (t.bench core n).queue, q.1 ≠ f) ∧
        ∀ row col, (t.bench core n).elem row col =
          if clr = false then (s.bench core n).elem row col else if aff = true ∧ n % 2 = 0 then 0x3F800000 else 0) ∧
  (∀ (s : State) (core b : Nat), s.returning core b = none → s.queueOf core b = [] → s.benchFree core b = true →
    ∃ t, exec (.benchHandover core b) s = .next t ∧ (t.bench core b).owner = none ∧ (t.bench core b).releasing = false ∧
      (∀ row col, (t.bench core b).elem row col = (s.bench core b).elem row col) ∧ ∀ n, n ≠ b → t.bench core n = s.bench core n)

/-- R58, R180 to R186: a binding hint stands pending at the next word, beside the hints already pending; an advisory hint
changes only what it advises. Neither consumes a pending hint. R180, R314, R456: bbc of a launch that counts blocks adds its
lanes to the counter's entry in the core's cache; a miss in a full cache performs the entry used longest ago. A launch that
does not count leaves everything but the gang. -/
def Obligations.HintWords : Prop :=
  (∀ (i : Instr) (pending : Hints → Prop) (f : Hints → Hints), Spec.bindingHint i = some (pending, f) →
    ∀ (s : State) (c : Cur) (g : Group), Spec.HintIssues s c g i → ¬ pending (s.issOf c g).hints →
    Spec.Becomes s c i s { g with ctx := Spec.hinted c g f }) ∧
  (∀ (i : Instr) (f : Group → Group), Spec.advisoryHint i = some f → ∀ (s : State) (c : Cur) (g : Group),
    Spec.HintIssues s c g i →
    ∃ t h, exec i s = .next t ∧ Kept s t c 1 (f g) h ∧ h.ctx = Spec.hinted c (f g) id ∧ h.cache = (f g).cache) ∧
  (∀ (n : Nat) (s : State) (c : Cur) (g : Group), Spec.HintIssues s c g (.bbc n) →
     let counts := fun (k : Crew) (w : Launch) => s.crewOf g = some k ∧ s.launchOf g = some w ∧ w.flags.testBit 2 = true ∧ n < w.nblocks
     ((∀ k w, ¬ counts k w) → Spec.Becomes s c (.bbc n) s { g with ctx := Spec.hinted c g id }) ∧
     (∀ k w, counts k w →
       let old := (s.core c.core).bbc
       let mine := fun (e : Nat × Nat × Nat) => decide (e.1 = k.launch ∧ e.2.1 = n)
       let had := ((old.find? mine).map (fun e => e.2.2)).getD 0
       let now := had + ((List.range 32).filter (fun l => hasLane c.active l)).length
       ((old.find? mine ≠ none ∨ old.length < 128) →
         Spec.Becomes s c (.bbc n)
           (s.modCore c.core (fun y => { y with bbc := (k.launch, n, now) :: old.filter (fun e => !mine e) }))
           { g with ctx := Spec.hinted c g id }) ∧
       (old.find? mine = none → 128 ≤ old.length → ∀ e, old.getLast? = some e → ∀ v, s.launch e.1 = some v →
         let pa := ((s.space v.aspace).pa (v.counters + 8 * e.2.1)).getD (2 ^ 41)
         let sum := (ofLe (Spec.seen s.mem.read pa 8) + e.2.2) % 2 ^ 64
         ∃ t, exec (.bbc n) s = .next t ∧ (t.core c.core).bbc = (k.launch, n, now) :: old.dropLast ∧
           (∀ a, t.mem.read a = Spec.putByte pa (leBytes sum 8) a (s.mem.read a)) ∧
           ∀ x ln, ln ∈ linesOf pa 8 → ∀ y ∈ (t.core x).l1, y.1 ≠ ln)))

/-- R310, R377, R381 to R385, R454: trap and brk outside handler mode write the group's frame, with PC + 4 as where it resumes.
A launch with a trap entry and a need of six registers runs its handler; a debugger stop, or a group without a handler, parks.
While a granted pass still runs for the group, the trap is due. Their charge and the resume of a debugger stop are the model's choices, log entries 26 and 27. -/
def Obligations.SoftwareTraps : Prop :=
  ∀ (i : Instr) (s : State) (c : Cur) (g : Group) (cause sub : Nat) (w : Launch), Spec.softCause s g i = some (cause, sub) →
    Issues s c g i { inTx := false } 4 →
    let info : TrapInfo := ⟨cause, sub, c.pc, c.active, 0, c.word, 0, false⟩
    (Spec.MayTrap s c.core c.frame g w →
      ∃ t, exec i s = .next t ∧ Spec.TrapTaken s t c.core c.frame g (Spec.onward c g.ctx) info w) ∧
    (g.inHandler = false → s.passRuns c.core c.frame = true →
      ∃ t h, exec i s = .next t ∧ t.group c.core c.frame = some h ∧ h.due = some info ∧ h.ctx = Spec.onward c g.ctx ∧
        h.ops = g.ops ∧ t.mem = s.mem)

/-- R311, R382, R387, R388: tret of the whole gang in handler mode takes the frame as it stands: the context it holds comes
back, with the counters of what is still in flight, and the valid replay entries are to be re-injected. Outside handler mode the
group parks. What tret does outside handler mode is the model's choice, log entry 45. -/
def Obligations.TrapReturn : Prop :=
  (∀ (s : State) (c : Cur) (g : Group) (tr : Trapped) (k : Ctx) (rs : List Replay), Issues s c g .tret { inTx := false } 4 →
    g.inHandler = true → g.handler = some tr → g.ops = [] → wholeGang (s.issOf c g) = true →
    Spec.frameOf s c.core c.frame g tr = some (k, rs) →
    ∃ t h, exec .tret s = .next t ∧ t.group c.core c.frame = some h ∧ t.mem = s.mem ∧ Spec.Returned g h tr k rs) ∧
  (∀ (s : State) (c : Cur) (g : Group), Issues s c g .tret { inTx := false } 4 → g.inHandler = false → g.handler = none →
    g.ops = [] → s.earlyOps c.core = [] →
    ∃ t h, exec .tret s = .next t ∧ t.group c.core c.frame = some h ∧ t.mem = s.mem ∧ h.status = .parked ∧
      h.park = some 4 ∧ h.ctx = g.ctx)

/-- R103, R109, R110, R113, R131, R274: COPY_START starts a copy once what it forks after has been performed, no earlier write-back
of its bytes is left, and no store of the core is early; COPY_COMPLETE moves every element of a
started copy to its destination, global, local or chuck, and takes it out of cp and its batch. A slot of an open region that it
writes becomes dirty, one that a fill or write-back covers becomes clean. A poisoned source is logged: the bytes of the error log's
ring are left out then. All elements move in one step: the model's choice, log entry 41. -/
def Obligations.CopiesMoveBytes : Prop :=
  (∀ (s : State) (cl op : Nat) (o : CopyOp) (g : Group), (s.cluster cl).copies.find? (fun x => x.id == op) = some o →
    o.started = false → s.group o.core o.frame = some g → g.poisoned = none → (∀ x ∈ g.ops, x.id ∉ o.after) →
    (∀ r ∈ g.replay, r.op.id ∉ o.after) → (∀ h, g.handler = some h → ∀ r ∈ h.replay, r.op.id ∉ o.after) →
    s.earlyOps o.core = [] →
    (o.isBack = true → ∀ p ∈ s.clusters, ∀ w ∈ p.2.copies, w.id < o.id → w.isBack = true → s.copySpace w = s.copySpace o →
      ∀ a ∈ w.backRanges, ∀ b ∈ o.backRanges, meets a.1 a.2 b.1 b.2 = false) →
    exec (.copyStart cl op) s = .next (s.setCluster cl { s.cluster cl with
      copies := (s.cluster cl).copies.map (fun x => if x.id = op then { x with started := true } else x) })) ∧
  (∀ (s : State) (cl op : Nat) (o : CopyOp), (s.cluster cl).copies.find? (fun x => x.id == op) = some o →
    o.started = true → s.copyGenOk o = true → (s.crew o.crew).any Crew.relaunchable = false → Spec.Unheld s cl o →
    let es := Spec.copyElems s o
    ∃ t, exec (.copyComplete cl op) s = .next t ∧ (∀ x ∈ (t.cluster cl).copies, x.id ≠ op) ∧
      (∀ a, Spec.OffLog s a ∨ Spec.CleanSource s o → t.mem.read a = match o.dst with
        | .global va =>
          if populated a 1 = true then
            Spec.afterElems (es.map (fun e => (s.copyPa o ((va : Int) + e.2.1), e.2.2))) a (s.mem.read a)
          else s.mem.read a
        | _ => s.mem.read a) ∧
      (∀ n a, (t.core n).lmem.read a = match o.dst with
        | .loc (some (c, p)) =>
          if n = c then Spec.afterElems (es.map (fun e => (((p : Int) + e.2.1).toNat, e.2.2))) a ((s.core n).lmem.read a)
          else (s.core n).lmem.read a
        | _ => (s.core n).lmem.read a) ∧
      (∀ n x, x ∈ (t.core n).rdirty ↔ ¬ Spec.CoversSlot o n x ∧ (x ∈ (s.core n).rdirty ∨ Spec.InOpenRegion s n x ∧
        ∃ p, o.dst = .loc (some (n, p)) ∧ ∃ m ∈ o.moves, 0 < o.esize ∧ 1024 * x < ((p : Int) + m.2.2).toNat + o.esize ∧
          ((p : Int) + m.2.2).toNat < 1024 * x + 1024)) ∧
      (∀ c k, o.dst = .chuck c k → (tget (t.cluster c).chuck k .init).valid = true ∧
        ∀ a, (tget (t.cluster c).chuck k .init).bytes.read a =
          Spec.afterElems (es.map (fun e => (o.esize * e.1, e.2.2))) a ((tget (s.cluster c).chuck k .init).bytes.read a)) ∧
      (∀ g, s.group o.core o.frame = some g → g.crew = o.crew → g.inHandler = false →
        ∃ h, t.group o.core o.frame = some h ∧ h.cp = g.cp - 1 ∧ op ∉ h.openOps ∧ ∀ b ∈ h.batches, op ∉ b.2))

/-- R94, R151, R152: PAGES_READY, WAKE and SPURIOUS_WAKE make a stopped group ready: the first when none of its pages is
staging, with its PC at the stopped instruction; a sleeper at its txb with cause 11 and an empty wake set. R20, R34, R306 to
R308: BARRIER_RELEASE lets every gang that waits go on when every crew of the barrier has arrived, and the phase advances; a
cohort's leaves no stale line in the L1s of its cores (R120);
REGANG_MERGE joins the gangs of a set once each of its slices waits there or has finished. -/
def Obligations.WaitsEnd : Prop :=
  (∀ (s : State) (core frame : Nat) (g : Group), s.group core frame = some g → g.status = .parkedPages →
    (∀ va ∈ g.pages, ∀ p, (s.space (s.aspaceOf g)).page va = some p → s.staging (s.aspaceOf g) p = false) →
    exec (.pagesReady core frame) s = .next (s.setGroup core frame { g with status := .ready, pages := [] })) ∧
  (∀ (i : Instr) (s : State) (core frame : Nat) (g : Group), s.group core frame = some g → g.status = .sleeping →
    (i = .wake core frame ∧ g.wake.marked = true ∨ i = .spuriousWake core frame) →
    ∃ t h, exec i s = .next t ∧ t.group core frame = some h ∧ t = { s with groups := t.groups, counters := t.counters } ∧
      (∀ k, k ≠ gkey core frame → tfind t.groups k = tfind s.groups k) ∧
      h = { g with status := .ready, wait := .none, wake := .none, ctx := { g.ctx with txstat := h.ctx.txstat } } ∧
      h.ctx.txstat.toNat = g.ctx.txstat.toNat / 16 * 16 + 11) ∧
  ((∀ (s : State) (crew : Nat) (coh : Bool), let cs := s.barrierCrews crew coh
     (∃ p ∈ s.groups, p.2.crew ∈ cs ∧ p.2.status ≠ .retired ∧ ∃ y ∈ p.2.ctx.slices, Spec.AtBarrier coh y) →
     (∀ n ∈ cs, Spec.CrewArrived s coh n) →
     ∃ t, exec (.barrierRelease crew coh) s = .next t ∧ (∀ a, t.mem.read a = s.mem.read a) ∧
       (∀ k g, tfind s.groups k = some g → ∃ h, tfind t.groups k = some h ∧
         if g.crew ∈ cs ∧ g.status ≠ .retired then
           h = { g with ctx := { g.ctx with slices := g.ctx.slices.map (Spec.released coh) }, status := h.status, wait := h.wait } ∧
           ((∃ y ∈ g.ctx.slices, Spec.AtBarrier coh y) → g.status = .waiting → g.wait = .gangs →
             h.status = .ready ∧ h.wait = .none)
         else h = g) ∧
       (coh = true → ∀ n ∈ cs, ∀ k, s.crew n = some k → (t.core k.core).l1 = []) ∧
       ∀ n k, s.crew n = some k → t.crew n = some
         (if coh = true then { k with phaseCoh := k.phaseCoh + cs.count n } else { k with phaseCrew := k.phaseCrew + cs.count n })) ∧
   (∀ (s : State) (core frame pc k : Nat) (g : Group), s.group core frame = some g →
     (∃ (i : Nat) (y : Slice), i < 8 ∧ g.ctx.slices[i]? = some y ∧ Spec.AtRegang k y ∧ y.pc = pc) →
     (∀ (i j : Nat) (y : Slice), g.ctx.slices[i]? = some y → Spec.AtRegang j y → j = k ∧ y.pc = pc) →
     (∀ (i : Nat) (y : Slice), i < 8 → k.testBit i = true → g.ctx.slices[i]? = some y → y.fin = true ∨ y.wait = .regang k) →
     let leads := ((List.range 8).filter (fun i => k.testBit i && atRegang g.ctx.slices pc k i)).map (fun i =>
       (g.ctx.slices[i]?.map Slice.gang).getD i)
     ∃ t h, exec (.regangMerge core frame) s = .next t ∧ t.group core frame = some h ∧ t = { s with groups := t.groups } ∧
       (∀ n, n ≠ gkey core frame → tfind t.groups n = tfind s.groups n) ∧
       h = { g with ctx := { g.ctx with slices := h.ctx.slices }, status := h.status, wait := h.wait } ∧
       (g.status = .waiting → g.wait = .gangs → h.status = .ready) ∧
       ∀ (i : Nat) (y : Slice), g.ctx.slices[i]? = some y → ∃ z, h.ctx.slices[i]? = some z ∧ (¬ Spec.AtRegang k y → z = y) ∧
         (Spec.AtRegang k y → z = { y with pc := pc + 4, wait := .run, hints := .none,
                                           gang := if y.gang ∈ leads then leads.foldl min 8 else y.gang })))

/-- R344, R345, R347, R450, R451: a run-ahead walk treats one word in a cycle and changes its private copy and its group's
speculation entries, nothing that an instruction sees; a walk over nothing held is given up. A sample is taken once the core's
offers and walks of the cycle are over. A survey tick starts the counters
anew. Written, it changes memory in its ring only, and no register; dropped, it is counted. A sample steps its core's LFSR, sets
the next one, and writes in its ring only. -/
def Obligations.ObserversLeaveTheMachine : Prop :=
  (∀ (s : State) (core frame : Nat) (g : Group), s.group core frame = some g → s.heldOn core frame g = none →
    exec (.runAhead core frame) s = .next (s.setGroup core frame { g with ahead := none })) ∧
  (∀ (s : State) (core frame pc : Nat) (act : Mask) (ds : List Nat) (g : Group), s.group core frame = some g →
    s.heldOn core frame g = some (pc, act, ds) → s.walkOk core frame g = true →
    let w := g.ahead.getD (g.ctx, pc + 4, 0, act, pendingRegs g ++ ds)
    w.2.2.1 < 32 →
    ∃ t h w', exec (.runAhead core frame) s = .next t ∧ Spec.SameState s t ∧ t.group core frame = some h ∧
      h = { g with ahead := some w', specs := h.specs } ∧ (w'.2.2.1 = w.2.2.1 + 1 ∨ w'.2.2.1 = 33) ∧
      portOf g.place + 4 ∈ (t.core core).ports ∧ 8 + frame ∈ (t.core core).ports) ∧
  (∀ (s : State), s.cycle % 2 ^ s.surveyK = 0 → s.surveyLast ≠ s.cycle →
    let n := s.tickRecords.length
    ∃ t, exec .surveyTick s = .next t ∧ t.counters = [] ∧ t.surveyLast = s.cycle ∧ t.power.kinds = [0, 0, 0, 0] ∧
      (s.surveyOn = false → Spec.SameState s t ∧ t.survey = s.survey) ∧
      (s.surveyOn = true → s.survey.fits n = true →
        t.survey = { s.survey with head := (s.survey.head + n) % s.survey.bytes } ∧ t.surveyLostMark = false ∧
        (s.survey.head % 64 = 0 → Spec.InRing s t s.survey)) ∧
      (s.surveyOn = true → s.survey.fits n = false → Spec.SameState s t ∧ t.surveyLostMark = true ∧
        t.survey = { s.survey with lost := min (s.survey.lost + 1) 0xFFFFFFFF })) ∧
  (∀ (s : State) (core : Nat), s.sampleOn = true → (s.core core).nextSample ≤ s.cycle → s.offersOver core = true →
    s.walkDue core = false →
    let y := lfsrStep (s.core core).lfsr
    ∃ t, exec (.sample core) s = .next t ∧ (t.core core).lfsr = y ∧
      (t.core core).nextSample = s.cycle + 2 ^ (s.sampleJ - 1) + y.toNat % 2 ^ s.sampleJ ∧
      (t.sample.head = s.sample.head → Spec.SameState s t) ∧
      (s.sample.head % 64 = 0 → Spec.InRing s t s.sample))

/-- R40, R377, R378, R380, R384: TAKE_TRAP takes a trap raised at write-back, once no granted pass runs for its group;
WATCHDOG_EXPIRY parks a group that has waited, slept or stood in a regang longer than its queue allows, with cause 32 at the
instruction that waits, its wake set cleared, and takes it out of every owner queue. -/
def Obligations.TrapsTakenByEvents : Prop :=
  (∀ (s : State) (core frame n : Nat) (g : Group) (w : Launch) (info : TrapInfo), s.group core frame = some g →
    g.due = some info → g.place = .active n → g.poisoned = none → Spec.MayTrap s core frame g w → info.cause ≠ 7 →
    ∃ t, exec (.takeTrap core frame) s = .next t ∧ Spec.TrapTaken s t core frame g g.ctx info w) ∧
  (∀ (s : State) (core frame : Nat) (g : Group) (t : TrapInfo), s.group core frame = some g → g.due = some t →
    s.passRuns core frame = true → exec (.takeTrap core frame) s = .next s) ∧
  (∀ (s : State) (core frame n lead : Nat) (g : Group) (w : Launch), s.group core frame = some g → g.place = .active n →
    Spec.MayTrap s core frame g w → g.due = none → (s.queue w.queue).watchdog ≠ 0 →
    Spec.WaitsTooLong g (65536 * (s.queue w.queue).watchdog) s.cycle lead →
    let pc := (g.ctx.slices[lead]?.map Slice.pc).getD 0
    let txstat := if g.status = .sleeping then BitVec.ofNat 32 (g.ctx.txstat.toNat / 16 * 16 + 14) else g.ctx.txstat
    let k := { g.ctx with slices := g.ctx.slices.map (fun x => { x with wait := .run }), txstat := txstat }
    ∃ t, exec (.watchdogExpiry core frame) s = .next t ∧
      Spec.TrapTaken s t core frame { g with status := .ready, wake := .none } k
        ⟨32, 0, pc, gangLanes g.ctx.slices (gangOf g.ctx.slices lead), 0, s.fetchWord w pc, 0, false⟩ w ∧
      ∀ b ∈ (t.core core).benches, ∀ q ∈ b.queue, q.1 ≠ frame)

/-- R91, R369, R379, R437: a consumed uncorrectable error kills the crew: its cohort waits for a relaunch where every crew of
it that has not committed is relaunchable and has been relaunched fewer than three times, and the queue is torn down with
error 14 where this crew is not; an access with another generation than its space's tears it down with error 13. -/
def Obligations.ErrorsKill : Prop :=
  (∀ (s : State) (core frame n at_ : Nat) (left : Option Ctx) (g : Group) (k : Crew) (co : Cohort) (w : Launch)
    (info : TrapInfo), s.group core frame = some g → g.poisoned = some (info, at_, left) → info.cause = 20 → info.sub ≠ 1 →
    g.tx = none → s.earlyOps core = [] → s.passRuns core frame = false → s.crewOf g = some k → s.launch k.launch = some w → s.cohortOf g.crew = some (n, co) →
    tfind s.cohorts n = some co → k.retired = false → k.killed = false → w.flags.testBit 1 = false →
    ((∀ r ∈ co.crews, ∀ y, s.crew r.2 = some y → y.retired = true ∨ y.relaunchable = true ∧ y.relaunches < 3) →
      ∃ t, exec (.uncorrectableConsumed core frame) s = .next t ∧ Spec.RelaunchDue s t n co) ∧
    (k.relaunchable = false → (s.queue w.queue).down = false →
      ∃ t, exec (.uncorrectableConsumed core frame) s = .next t ∧ Spec.TornDown s t w.queue 14 w.seq)) ∧
  (∀ (s : State) (core frame id : Nat) (g : Group) (o : MemOp) (k : Crew) (w : Launch), s.group core frame = some g →
    g.ops.find? (fun x => x.id == id) = some o → s.genOk g o = false → s.crewOf g = some k → s.launch k.launch = some w →
    (s.queue w.queue).down = false →
    ∃ t, exec (.generationReject core frame id) s = .next t ∧ Spec.TornDown s t w.queue 13 w.seq) ∧
  (∀ (s : State) (core frame id : Nat) (g : Group) (o : CopyOp) (k : Crew) (w : Launch), s.group core frame = some g →
    g.ops.find? (fun x => x.id == id) = none → (s.cluster (core / 4)).copies.find? (fun x => x.id == id) = some o →
    o.started = true → s.copyGenOk o = false → s.crew o.crew = some k → s.launch k.launch = some w →
    (s.queue w.queue).down = false →
    ∃ t, exec (.generationReject core frame id) s = .next t ∧ Spec.TornDown s t w.queue 13 w.seq)

/-- R359, R375: PARK_RECORD_WRITE puts the 32 bytes of a parked group's record at the first free index and raises vector 2q;
each answer takes its record: action 0 lets the group go on as tret does, action 1 kills its crew, action 2 tears the queue down
with error 17; the record of a group that retired in its handler is answered by 0 or 1 with no other effect. A new ring receives the unanswered records from its start. A resume in handler mode continues the handler: the
model's choice, log entry 13. -/
def Obligations.ParkRecords : Prop :=
  (∀ (s : State) (core frame code k : Nat) (g : Group) (w : Launch), s.group core frame = some g → g.park = some code →
    s.launchOf g = some w →
    let q := s.queue w.queue
    let n := q.parkN
    let ix := (q.phead % n + k) % n
    q.unanswered.length < n → k ≤ q.unanswered.length → (∀ u ∈ q.unanswered, u.1 ≠ ix) →
    (∀ j, j < k → ∃ u ∈ q.unanswered, u.1 = (q.phead % n + j) % n) →
    let bs := leBytes w.seq 8 ++ leBytes g.wid.toNat 8 ++ leBytes code 4 ++ leBytes core 4 ++ leBytes (s.frameAddr core frame) 8
    ∃ t, exec (.parkRecordWrite core frame) s = .next t ∧
      (∀ a, t.mem.read a = Spec.putByte (q.park + 32 * ix) bs a (s.mem.read a)) ∧
      t.queue w.queue = { q with unanswered := q.unanswered ++ [(ix, core, frame, bs)], phead := (ix + 1) % n } ∧
      Spec.Raised s t (2 * w.queue) ∧
      (g.status = .retired → t.group core frame = none) ∧
      (g.status ≠ .retired → ∃ h, t.group core frame = some h ∧ h.park = none ∧ h.ctx.regs = g.ctx.regs)) ∧
  (∀ (s : State) (q r core frame : Nat) (bs : List Byte) (g : Group),
    (s.queue q).unanswered.find? (fun u => u.1 == r) = some (r, core, frame, bs) → fieldAt bs 16 4 ≠ 6 →
    s.group core frame = some g → g.status = .parked →
    let rest := { s.queue q with unanswered := (s.queue q).unanswered.filter (fun u => u.1 != r) }
    (g.inHandler = true → exec (.parkResume q r) s =
      .next ((s.setQueue q rest).setGroup core frame { g with status := .ready, park := none })) ∧
    (g.inHandler = false → g.handler = none → exec (.parkResume q r) s =
      .next ((s.setQueue q rest).setGroup core frame { g with status := .ready, wait := .none, park := none })) ∧
    (∀ tr k rs, g.inHandler = false → g.handler = some tr → Spec.frameOf s core frame g tr = some (k, rs) →
      ∃ t h, exec (.parkResume q r) s = .next t ∧ t.group core frame = some h ∧ t.queue q = rest ∧
        (∀ a, t.mem.read a = s.mem.read a) ∧ Spec.Returned g h tr k rs) ∧
    (∀ n co k w, s.crewOf g = some k → s.launch k.launch = some w → s.cohortOf g.crew = some (n, co) →
      tfind s.cohorts n = some co → k.retired = false → k.killed = false →
      (w.flags % 2 = 1 → ∃ t, exec (.parkKillCrew q r) s = .next t ∧ Spec.RelaunchDue s t n co) ∧
      (w.flags % 2 = 0 → (s.queue w.queue).down = false →
        ∃ t, exec (.parkKillCrew q r) s = .next t ∧ Spec.TornDown s t w.queue 14 w.seq)) ∧
    (∀ k w, core < Config.cores → (s.queue q).down = false → s.crewOf g = some k → s.launch k.launch = some w → w.queue = q →
      w.seq % 2 ^ 64 = fieldAt bs 0 8 → w.complete = false →
      (∀ p ∈ s.launches, p.2.queue = q → p.2.seq % 2 ^ 64 = fieldAt bs 0 8 → p.2.complete = false → p.2.seq = w.seq) →
      ∃ t, exec (.parkKillLaunch q r) s = .next t ∧ Spec.TornDown s t q 17 w.seq)) ∧
  (∀ (s : State) (q r core frame : Nat) (bs : List Byte),
    (s.queue q).unanswered.find? (fun u => u.1 == r) = some (r, core, frame, bs) → fieldAt bs 16 4 = 6 →
    ∀ i, i = .parkResume q r ∨ i = .parkKillCrew q r → exec i s = .next (s.setQueue q
      { s.queue q with unanswered := (s.queue q).unanswered.filter (fun u => u.1 != r) })) ∧
  (∀ (s : State) (q v : Nat), let x := s.queue q
    let base := v % 2 ^ 41 / 64 * 64
    let n := 2 ^ (min (v / 2 ^ 48 % 16) 14 + 2)
    x.unanswered.length ≤ n → (∀ u ∈ x.unanswered, u.2.2.2.length = 32) →
    ∃ t, exec (.queueParkWrite q v) s = .next t ∧
      t.queue q = { x with park := base, parkSize := v / 2 ^ 48 % 16, phead := x.unanswered.length % n,
                           unanswered := x.unanswered.mapIdx (fun i u => (i, u.2)) } ∧
      ∀ a, t.mem.read a = Spec.putByte base (x.unanswered.map (fun u => u.2.2.2)).flatten a (s.mem.read a))

/-- R22, R155, R390, R391, R393: an ordered swap exchanges the banks of a core for 48 cycles and leaves the outgoing groups to
be spilled; after them each spill puts a context into its frame, then a bench, or a pair, into its owner's; the report ends the
swap. A swap waits for the start of a cycle of its core and for a place in the report ring. Of a context in handler mode the handler
area is written, of a parked one nothing (R464). A fill puts the
first saved group into the shadow bank. The order of the spills and the time of the report are the model's choices, log entries
32, 55 and 58. -/
def Obligations.BankSwaps : Prop :=
  (∀ (s : State) (core : Nat), Spec.OneEach s → (s.core core).swap = none → s.swapOrdered core = true →
    (s.core core).ports = [] → (s.core core).issued = [] → (s.core core).refilled = false →
    (s.preempt.head + 2 ^ 32 - s.preempt.tail) % 2 ^ 32 < 2 ^ (s.preempt.size + 2) →
    let out := (s.activeOn core).map (fun h => h.2.1)
    ∃ t, exec (.shadowBankSwap core) s = .next t ∧ (t.core core).preempt = false ∧ (t.core core).hold = none ∧
      (t.core core).swap = some ⟨s.time, s.cycle + 48, out, out, false⟩ ∧
      ∀ f g, f < 32 → s.group core f = some g →
        (∀ n, n < 16 → g.place = .active n → ∃ h, t.group core f = some h ∧ h.place = .shadow n ∧ Spec.LeftSlot g h) ∧
        (∀ n, n < 16 → g.place = .shadow n → ∃ h, t.group core f = some h ∧ h.place = .active n ∧ h.ctx.regs = g.ctx.regs)) ∧
  (∀ (s : State) (core f : Nat) (w : Swap) (rest : List Nat) (g : Group), (s.core core).swap = some w → w.spilling = f :: rest →
    w.until_ ≤ s.cycle → s.group core f = some g → g.ops = [] → g.handler = none →
    let base := s.frameAddr core f
    let head := s.saveHead core f g g.ctx (2 ^ 56, 0) false true
    ∃ t h, exec (.spill core) s = .next t ∧ t.group core f = some h ∧ h.place = .frame ∧ h.ctx.regs = g.ctx.regs ∧
      (t.core core).swap = some { w with spilling := rest } ∧
      ∀ a, t.mem.read a = Spec.benchesAway (base + 256 + head.length) (allBenches (s.core core) f g) g a
        (Spec.putByte (base + s.replayOff core f g g.ctx) (replayPart g.replay) a
          (Spec.putByte (base + 256) head a (s.mem.read a)))) ∧
  (∀ (s : State) (core f : Nat) (w : Swap) (rest : List Nat) (g : Group) (tr : Trapped), (s.core core).swap = some w →
    w.spilling = f :: rest → w.until_ ≤ s.cycle → s.group core f = some g → g.ops = [] → g.handler = some tr →
    ∃ t h, exec (.spill core) s = .next t ∧ t.group core f = some h ∧ h.place = .frame ∧ h.ctx.regs = g.ctx.regs ∧
      h.handler = some tr ∧ (t.core core).swap = some { w with spilling := rest } ∧
      ∀ a, t.mem.read a = if g.inHandler = true then
          Spec.putByte (s.frameAddr core f + 645120) (s.saveHead core f g g.ctx (2 ^ 56, 0) true false) a (s.mem.read a)
        else s.mem.read a) ∧
  (∀ (s : State) (core b f : Nat) (w : Swap) (g : Group), Spec.OneEach s → (s.core core).swap = some w → w.spilling = [] →
    w.until_ ≤ s.cycle → b < 4 → (s.bench core b).frozen = true → (∀ n, n < b → (s.bench core n).frozen = false) →
    (∀ n, n < 4 → (s.bench core n).frozen = true → s.benchRuns core n = false) → (s.bench core b).owner = some f → f < 32 →
    s.group core f = some g → ¬ Spec.InActive g →
    let ns := if (s.bench core b).affine = true then [b / 2 * 2, b / 2 * 2 + 1] else [b]
    ∃ t h, exec (.spill core) s = .next t ∧ t.group core f = some h ∧ h.ctx.regs = g.ctx.regs ∧
      h.benchCtx = g.benchCtx ++ ns.map (fun n => (n, s.bench core n, (s.core core).pairs.getD (n / 2) .init)) ∧
      (∀ n ∈ ns, (t.bench core n).frozen = false) ∧
      (g.handler = none → ∀ a, t.mem.read a = ns.foldl (fun v n =>
        Spec.putByte (s.frameAddr core f + 2304 + (regPart g.ctx).length + benchOffset (allBenches (s.core core) f g) n)
          (benchBytes n (s.bench core n) ((s.core core).pairs.getD (n / 2) .init)) a v) (s.mem.read a)) ∧
      ((∀ p ∈ s.activeOn core, ∀ e ∈ p.2.2.benchCtx, e.1 ∉ ns) → ∀ n ∈ ns, (t.bench core n).owner = none)) ∧
  (∀ (s : State) (core : Nat) (w : Swap), (s.core core).swap = some w → w.until_ ≤ s.cycle → w.spilling = [] →
    (∀ b ∈ (s.core core).benches, b.frozen = false) → (s.core core).qbuf = [] → s.earlyOps core = [] →
    let r := s.preempt
    let n := 2 ^ (r.size + 2)
    (r.head + 2 ^ 32 - r.tail) % 2 ^ 32 < n →
    let bs := leBytes core 4 ++ leBytes ((w.outgoing.map (fun f => 2 ^ f)).sum) 4 ++ leBytes w.start 8 ++ leBytes s.time 8 ++ zeros 40
    ∃ t, exec (.savedContextReport core) s = .next t ∧ (t.core core).swap = none ∧
      t.preempt = { r with head := (r.head + 1) % 2 ^ 32 } ∧ Spec.Raised s t 257 ∧
      ∀ a, t.mem.read a = Spec.putByte (r.base + 64 * (r.head % n)) bs a (s.mem.read a)) ∧
  (∀ (s : State) (core k : Nat) (p : Nat × Group) (rest : List (Nat × Group)), Spec.OneEach s → (s.core core).swap = none →
    s.savedOn core = p :: rest → (freeSlots (s.shadowOn core)).head? = some k →
    rowsHeld (s.shadowOn core) + p.2.ctx.need ≤ s.rows →
    ∃ t, exec (.shadowBankFill core) s = .next t ∧ t = { s with groups := t.groups } ∧ Spec.SameState s t ∧
      t.group core p.1 = some { p.2 with place := .shadow k }) ∧
  (∀ (s : State) (core : Nat), core < Config.cores →
    exec (.preemptCmd core) s = .next (s.setCore core { s.core core with preempt := true }))

/-- R39, R94, R153, R355 to R357, R382: EVICTION takes the slot of the longest sleeper, or of the group longest parked for pages,
when a group that would be ready has none, or not the rows that it needs; its save area, with its benches and its ungranted requests
and drains in the replay part, stands in its frame then, of a context in handler mode its handler area. GROUP_RESTORE gives such a group, or one that a swap has saved, a free slot, and it is ready. Which group is taken or restored among
several that may be, and what is in flight, are the model's choices, log entries 32 and 95. -/
def Obligations.EvictionAndRestore : Prop :=
  (∀ (s : State) (core f : Nat) (g : Group), Spec.OneEach s → f < 32 → s.group core f = some g → Spec.LongestStopped s core f g →
    (∀ (e : Nat × Group) r, s.slotless core = e :: r → freeSlots (s.activeOn core) = [] ∨
      s.rows < rowsHeld (s.activeOn core) + e.2.ctx.need) → s.slotless core ≠ [] → (s.core core).swap = none → g.ops = [] →
    (∀ n, n < 4 → (s.bench core n).owner = some f → s.benchRuns core n = false) →
    ∃ t h, exec (.eviction core) s = .next t ∧ t.group core f = some h ∧ h.status = .evicted ∧ h.place = .frame ∧
      Spec.LeftSlot g h ∧
      (let own := { g.leave with replay := s.heldEntries core f g true ++ g.replay }
       let base := s.frameAddr core f
       let head := s.saveHead core f own own.ctx (2 ^ 56, 0) false true
       let all := allBenches (s.core core) f g
       g.handler = none → g.inHandler = false → Spec.OwnsPairs s core f g →
       h.replay = own.replay ∧ h.benchCtx = g.benchCtx ++ (Spec.owned s core f).map (s.core core).benchOf ∧
       ∀ a, t.mem.read a = (Spec.owned s core f).foldl (fun v n =>
           Spec.putByte (base + 256 + head.length + benchOffset all n)
             (benchBytes n (s.bench core n) ((s.core core).pairs.getD (n / 2) .init)) a v)
         (Spec.benchesAway (base + 256 + head.length) all g a
           (Spec.putByte (base + s.replayOff core f own own.ctx) (replayPart own.replay) a
             (Spec.putByte (base + 256) head a (s.mem.read a))))) ∧
      (∀ tr, g.handler = some tr → Spec.owned s core f = [] → ∀ a, t.mem.read a = if g.inHandler = true then
          Spec.putByte (s.frameAddr core f + 645120) (s.saveHead core f g.leave g.leave.ctx (2 ^ 56, 0) true false) a (s.mem.read a)
        else s.mem.read a)) ∧
  (∀ (s : State) (core f k : Nat) (g : Group), Spec.OneEach s → f < 32 → s.group core f = some g →
    (g.status = .evicted ∧ s.wouldBeReady g = true ∨ g.status = .ready ∧ g.place = .frame ∧ (s.core core).swap = none) →
    (∀ p ∈ s.slotless core, p.1 = f) → (freeSlots (s.activeOn core)).head? = some k →
    s.swapping core = false → rowsHeld (s.activeOn core) + g.ctx.need ≤ s.rows →
    ∃ t h, exec (.groupRestore core) s = .next t ∧ t.group core f = some h ∧ h.status = .ready ∧ h.place = .active k ∧
      h.ctx.regs = g.ctx.regs ∧ (g.status = .evicted → h.pages = []) ∧
      (g.status = .evicted → g.pages = [] → h.wake = .none ∧ h.ctx.txstat.toNat = g.ctx.txstat.toNat / 16 * 16 + 11))

/-- R79, R285 to R288, R296, R297, R299: an idle engine grants the first eligible request, by priority and age, that no local
access of its lanes holds, with up to 15 more of its fusion key, each behind only such older operations on its bench as are in
the pass; at its end a pass adds the chunk of every column into the rows of each quarter, and a scan chunk composes the
columns of its pair in order. R292 to R295: a drain that nothing holds writes the converted quarter, or the pair state, at its
target in local store, or fills the bypass buffer of its quarter, counts the bound events of its elements in c.bflag, and leaves
tl. A drain is done in one step, and its roundings start from states taken at issue: the model's choices, log entries 38 and 40. -/
def Obligations.MatrixEngine : Prop :=
  (∀ (s : State) (cl : Nat), let k := s.cluster cl
    k.pass = none → (∃ r ∈ s.forked k, reqEligible k s.cycle r = true) →
    ∃ t r ms, exec (.matrixGrant cl) s = .next t ∧ t = { s with clusters := t.clusters } ∧ r ∈ s.forked k ∧
      reqEligible k s.cycle r = true ∧
      (∀ x ∈ s.forked k, reqEligible k s.cycle x = true → x.prio < r.prio ∨ x.prio = r.prio ∧ r.age ≤ x.age) ∧
      ms.length ≤ 15 ∧
      (∀ m ∈ ms, m ∈ s.forked k ∧ sameKey r m = true ∧ m.op.id ≠ r.op.id ∧
        (∀ d ∈ k.drains, d.core = m.core → d.frame = m.frame → d.id < m.op.id → shareBench d.op.ins m.op.ins = false) ∧
        ∀ x ∈ k.table, x.core = m.core → x.frame = m.frame → x.op.id < m.op.id → shareBench x.op.ins m.op.ins = true →
          ∃ y ∈ r :: ms, y.op.id = x.op.id) ∧
      (ms.length < 15 → r.scan = false → r.gload = false → ∀ m ∈ s.forked k, sameKey r m = true → m.op.id ≠ r.op.id →
        (∀ d ∈ k.drains, d.core = m.core → d.frame = m.frame → d.id < m.op.id → shareBench d.op.ins m.op.ins = false) →
        (∀ x ∈ k.table, x.core = m.core → x.frame = m.frame → x.op.id < m.op.id → shareBench x.op.ins m.op.ins = true →
          x.op.id = r.op.id ∨ ∃ y ∈ ms, y.op.id = x.op.id ∧ reqBefore y m = true) → m ∈ ms) ∧
      t.cluster cl = { k with table := k.table.filter (fun x => x.op.id ∉ (r :: ms).map (fun m => m.op.id)),
                              pass := some ⟨(r :: ms).map (fun m => { m with tile := s.tileBytes m }), r.scan,
                                s.cycle + if r.scan = true then 296 else 16 + 32 * (1 + ms.length)⟩ }) ∧
  (∀ (s : State) (cl : Nat) (p : Pass), (s.cluster cl).pass = some p → p.scan = false → p.retire ≤ s.cycle →
    p.reqs.Pairwise (fun a b => ¬ (a.core = b.core ∧ a.bench = b.bench ∧ a.quarter = b.quarter)) →
    ∃ t, exec (.passRetire cl) s = .next t ∧ (t.cluster cl).pass = none ∧ (∀ a, t.mem.read a = s.mem.read a) ∧
      (∀ core frame, Spec.TlDown s t core frame
        (p.reqs.filter (fun r => r.core == core && r.frame == frame && r.killed.isNone)).length) ∧
      ∀ (ix : Nat) (r : Req), p.reqs[ix]? = some r → r.killed = none → s.quarterPoison cl r = none → ∀ i j, i < 32 → j < 256 →
        (t.bench r.core r.bench).elem (32 * r.quarter + i) j = Spec.quarterElem s cl r ix i j) ∧
  (∀ (s : State) (cl : Nat) (r : Req) (rs : List Req) (at_ : Nat), (s.cluster cl).pass = some ⟨r :: rs, true, at_⟩ →
    at_ ≤ s.cycle → r.killed = none → (s.bench r.core r.bench).poison = [] → (s.bench r.core (r.bench + 1)).poison = [] →
    let p := (s.core r.core).pairs.getD (r.bench / 2) .init
    (p.poison = true → r.isNew = true ∧ r.clrf = true) →
    let P := fun j i => ((s.bench r.core r.bench).elem i j, (s.bench r.core (r.bench + 1)).elem i j)
    let row := fun j i => Spec.composed (Spec.scanRows (P j) 7 i) (Spec.carryIn r.isNew p j)
    ∃ t, exec (.scanRetire cl) s = .next t ∧ (t.cluster cl).pass = none ∧ Spec.TlDown s t r.core r.frame 1 ∧
      (∀ i j, i < 128 → j < 256 →
        (t.bench r.core r.bench).elem i j = (row j i).1 ∧ (t.bench r.core (r.bench + 1)).elem i j = (row j i).2) ∧
      let p' := (t.core r.core).pairs.getD (r.bench / 2) .init
      p'.count = ((if r.isNew = true then 0 else p.count) + 1) % 2 ^ 16 ∧
      ∀ j, j < 256 → Spec.carryIn false p' j = row j 127 ∧
        (j ∈ p'.flags ↔ r.clrf = false ∧ j ∈ p.flags ∨ Spec.ScanFlushes (P j) (Spec.carryIn r.isNew p j))) ∧
  (∀ (s : State) (cl op : Nat) (d : Drain) (g : Group), (s.cluster cl).drains.find? (fun x => x.id == op) = some d →
     s.drainReady cl d = true → s.group d.core d.frame = some g →
     let bn := s.bench d.core d.bench
     let bd := boundOf (s.boundsOf g) bn.bound
     let stores := fun (t : State) (c p : Nat) (bs : List Byte) =>
       (∀ n a, (t.core n).lmem.read a =
         if n = c ∧ p ≤ a ∧ a < p + bs.length then bs.getD (a - p) 0 else (s.core n).lmem.read a) ∧
       ∀ n x, x ∈ (t.core n).rdirty ↔ x ∈ (s.core n).rdirty ∨
         n = c ∧ Spec.InOpenRegion s n x ∧ 1024 * x < p + bs.length ∧ p < 1024 * x + 1024
     (d.kind = 1 → ((s.core d.core).pairs.getD (d.bench / 2) .init).poison = false → ∀ c p, d.target = some (c, p) →
       ∃ t, exec (.drainComplete cl op) s = .next t ∧ (∀ x ∈ (t.cluster cl).drains, x.id ≠ op) ∧
         Spec.TlDown s t d.core d.frame 1 ∧ stores t c p (pairBytes ((s.core d.core).pairs.getD (d.bench / 2) .init))) ∧
     (d.kind ≠ 1 → bn.poison = [] → (∀ b, bd = some b → b.fmt = .f32 ∧
         (decodeElem .f32 (lo32 b.low).toNat).isNan = false ∧ (decodeElem .f32 (lo32 b.high).toNat).isNan = false) →
       (∃ b va sat, (∃ f, d.kind = 0 ∧ mxIns d.op.ins = some (.drain f sat, b, va)) ∨
         ∃ f, d.kind = 2 ∧ d.fmt = mxDrain f ∧ d.seg * mxDepth f < 256 ∧ mxIns d.op.ins = some (.bypass f sat d.seg, b, va)) →
       ∃ t h, exec (.drainComplete cl op) s = .next t ∧ (∀ x ∈ (t.cluster cl).drains, x.id ≠ op) ∧
         Spec.TlDown s t d.core d.frame 1 ∧ t.group d.core d.frame = some h ∧
         h.ctx.bflag.toNat = min (g.ctx.bflag.toNat + Spec.drainCount d bn bd) 0xFFFFFFFF ∧
         (d.kind ≠ 2 → ∀ c p, d.target = some (c, p) → stores t c p (Spec.drained d bn bd)) ∧
         (d.kind = 2 → ∀ f, drainMx d.fmt = some f →
           (t.bench d.core d.bench).bypass[d.quarter]? = some (some (f, Spec.drained d bn bd)))))

/-- R28 to R32, R42, R309, R372, R373, R437: COHORT_ADMIT places the next cohort of the launch that comes first on an admitting
cluster of greatest allowance, every crew and group as at a launch; CREW_RELAUNCH places the uncommitted crews again under their
ranks, on another cluster than the one struck whenever another admits them. A cohort that the energy rule alone keeps from a cluster is noted, and
where none can be admitted that is all. What is admitted waits for a boundary of the interval that is due (R422, R459). What a context holds at a launch where the spec is
silent is the model's choice, log entry 3. -/
def Obligations.CohortsPlaced : Prop :=
  (∀ (s : State) (pick : Nat), s.cycle / 2048 ≤ s.power.ivCore → s.firstLaunch s.dispatchable = none →
    ∃ t, exec (.cohortAdmit pick) s = .next t ∧ t = { s with dies := t.dies } ∧
      ∀ d, t.die d = { s.die d with refused := (t.die d).refused } ∧ ∀ x ∈ (s.die d).refused, x ∈ (t.die d).refused) ∧
  (∀ (s : State) (pick n c : Nat) (l : Launch), s.cycle / 2048 ≤ s.power.ivCore → (n, l) ∈ s.launches → l.killed = false →
    l.complete = false → s.relaunchOf n = none → l.next < l.n3 → l.energy ≠ 0 → c < Config.clusters →
    (s.coresFor c l l.n2).isSome = true → s.forecastOk c (n, l.next) l l.n2 = false →
    ∃ t, exec (.cohortAdmit pick) s = .next t ∧ (n, l.next) ∈ (t.die (c / 16)).refused) ∧
  (∀ (s : State) (pick n : Nat) (l : Launch), s.cycle / 2048 ≤ s.power.ivCore →
    s.firstLaunch s.dispatchable = some (n, l) → s.launch n = some l →
    ∃ t co, exec (.cohortAdmit pick) s = .next t ∧ tfind t.cohorts s.nextCohort = some co ∧
      t.launch n = some { l with next := l.next + 1 } ∧ s.admits (n, l.next) l l.n2 co.cluster = true ∧
      (∀ c, c < Config.clusters → s.admits (n, l.next) l l.n2 c = true → s.allow c ≤ s.allow co.cluster) ∧
      co.launch = n ∧ co.f3 = l.next ∧ co.relaunch = none ∧ co.done = false ∧ co.slots.length = l.chuck ∧
      co.crews = (List.range l.n2).map (fun r => (r, s.nextCrew + r)) ∧
      ∀ r, r < l.n2 → Spec.Placed t n l l.next co.cluster (s.nextCrew + r) r 0) ∧
  (∀ (s : State) (pick n m struck : Nat) (l : Launch) (co : Cohort) (ranks : List Nat), s.cycle / 2048 ≤ s.power.ivCore →
    s.firstLaunch s.relaunchable = some (n, l) → s.relaunchOf n = some (m, co) → co.relaunch = some (ranks, struck) →
    let times := fun r => (((co.crews.find? (fun x => x.1 == r)).bind (fun x => s.crew x.2)).elim 1 (fun c => c.relaunches + 1))
    ∃ t new, exec (.crewRelaunch pick) s = .next t ∧ tfind t.cohorts m = some new ∧ new.relaunch = none ∧ new.f3 = co.f3 ∧
      s.admits (n, co.f3) l ranks.length new.cluster = true ∧
      ((∃ c, c < Config.clusters ∧ c ≠ struck ∧ s.admits (n, co.f3) l ranks.length c = true) → new.cluster ≠ struck) ∧
      new.crews = ranks.mapIdx (fun i r => (r, s.nextCrew + i)) ∧
      ∀ i r, ranks[i]? = some r → Spec.Placed t n l co.f3 new.cluster (s.nextCrew + i) r (times r))

/-- R35, R103, R125, R128, R309, R314, R416, R435: a group with no live lane and nothing outstanding leaves its slot, locks and
benches, one in handler mode with park cause 6. A crew without groups performs its partials, writes its open regions back, puts the
launch's block counts into their array and commits its store buffer; a collective's chunk fires then: it goes to its owner, or with a
result, or row by row, to its peers, and one that has fired before is error 3. The crew retires, and the launch whose last cohort it
ends is complete. The order of partials and write-backs, and that the counts of the launch's other crews go with them, are the model's choices, log
entry 139. -/
def Obligations.Retirement : Prop :=
  (∀ (s : State) (core frame : Nat) (g : Group), s.group core frame = some g → g.status = .retiring →
    s.settled core frame g = true →
    ∃ t, exec (.groupRetire core frame) s = .next t ∧ (∀ a, t.mem.read a = s.mem.read a) ∧
      (g.inHandler = false → t.group core frame = none) ∧
      (g.inHandler = true → t.group core frame = some { g with status := .retired, place := .frame, park := some 6 }) ∧
      (∀ k, k ≠ gkey core frame → tfind t.groups k = tfind s.groups k) ∧
      (∀ b, b ∈ (t.core core).locks ↔ b ∈ (s.core core).locks ∧ b.2 ≠ frame) ∧
      ∀ b ∈ (t.core core).benches, b.owner ≠ some frame ∧ ∀ q ∈ b.queue, q.1 ≠ frame) ∧
  (∀ (s : State) (n : Nat) (k : Crew) (w : Launch), Spec.MayRetire s n k w → s.collOf k.launch = none →
    ∃ t, exec (.crewRetire n) s = .next t ∧ Spec.Retired s t n k ∧ ∀ a, t.mem.read a = Spec.memoryRetired s n k w a) ∧
  (∀ (s : State) (n : Nat) (k : Crew) (w : Launch) (c : Coll) (b : Binding), Spec.MayRetire s n k w → s.collOf k.launch = some c →
    s.binding c.rec_.ident = some b → c.ident = c.rec_.ident → s.collNamed c.ident = some c → w.killed = false →
    (∀ p ∈ s.others b, s.peerUp b p = true) →
    let chunk := w.wid 0 k.rank k.f3 / 2 ^ c.rec_.cshift % c.rec_.nchunk
    (c.fired.contains chunk = true → ∃ t e, exec (.crewRetire n) s = .next t ∧ Spec.Retired s t n k ∧ t.collOf k.launch = some e ∧
      e.error = (if c.error = 0 then 3 else c.error) ∧ e.fired = c.fired ∧ ∀ a, t.mem.read a = Spec.memoryRetired s n k w a) ∧
    (c.fired.contains chunk = false → (c.fired = [] → s.collFault w c.rec_ b = none) →
      ∀ ps, s.pieces w.aspace (c.rec_.src + chunk * c.rec_.csize) c.rec_.csize = some ps →
      (∀ x ∈ s.poison, ∀ p ∈ ps, meets p.1 p.2 (32 * x) 32 = false) → (∀ x ∈ k.bufPoison, ∀ p ∈ ps, meets p.1 p.2 (32 * x) 32 = false) →
      (∀ e ∈ k.regions, ∀ m ∈ (Spec.closing s n k e.2).moves, (s.copyRead (Spec.closing s n k e.2) m.1 m.2.1).2 = false) →
      let bs := Spec.piecesRead (Spec.memoryRetired s n k w) ps
      let me := s.myRank b
      let item := fun result data => Arrival.data ⟨c.ident, me, chunk, 0, result, [], true, false, data⟩
      ∃ t e, exec (.crewRetire n) s = .next t ∧ Spec.Retired s t n k ∧ t.collOf k.launch = some e ∧ chunk ∈ e.fired ∧
        (c.rec_.kind ≤ 1 → chunk % b.size = me → ⟨s.cycle, some k.launch, item false bs, []⟩ ∈ t.staged) ∧
        (c.rec_.kind ≤ 1 → chunk % b.size ∈ s.others b →
          (chunk % b.size, item false bs, false) ∈ e.sending ∧ .coll (chunk % b.size) (item false bs) ∈ t.out) ∧
        (c.rec_.kind = 2 ∨ c.rec_.kind = 4 ∧ me = c.rec_.arg0 → ∀ p ∈ s.others b,
          (p, item true bs, false) ∈ e.sending ∧ .coll p (item true bs) ∈ t.out) ∧
        (c.rec_.kind = 3 ∨ c.rec_.kind = 4 ∧ me ≠ c.rec_.arg0 → ∀ p ∈ s.others b,
          (p, item true [], false) ∈ e.sending ∧ .coll p (item true []) ∈ t.out) ∧
        (c.rec_.kind = 3 → ∀ i, (i + 1) * c.rec_.arg0 ≤ bs.length → 0 < c.rec_.arg0 →
          let row := (bs.drop (i * c.rec_.arg0)).take c.rec_.arg0
          let r := Arrival.row ⟨c.ident, me, chunk, row⟩
          (fieldAt row 0 4 = me → fieldAt row 0 4 < b.size → ⟨s.cycle, some k.launch, r, []⟩ ∈ t.staged) ∧
          (fieldAt row 0 4 ∈ s.others b → (fieldAt row 0 4, r, false) ∈ e.sending ∧ .coll (fieldAt row 0 4) r ∈ t.out)) ∧
        (c.rec_.kind ≠ 2 → (c.rec_.kind = 4 → me ≠ c.rec_.arg0) → ∀ a, t.mem.read a = Spec.memoryRetired s n k w a) ∧
        ∀ qs, let slot := if c.rec_.kind = 2 then me * c.rec_.nchunk + chunk else chunk
          c.rec_.kind = 2 ∨ c.rec_.kind = 4 ∧ me = c.rec_.arg0 → slot ∉ c.settled →
          s.pieces c.aspace (c.rec_.dst + slot * c.rec_.csize) bs.length = some qs →
          ∀ a, t.mem.read a = Spec.piecesByte qs bs a (Spec.memoryRetired s n k w a)))

/-- R359, R369, R455: a doorbell sets the tail; a write of the low half of QUEUE_CTL sets the priority, and the address space
while the queue is not enabled; enabling clears the status and accepts any next number, apart from those still in flight (R361); a write of QUEUE_BASE resets the
head; DBG_STOP holds the queue, which reads as stopped once what it had started is complete. -/
def Obligations.QueueRegisters : Prop :=
  ∀ (s : State) (q v : Nat), let x := s.queue q
    let low := { x with priority := v / 2 ^ 4 % 2 ^ 8, aspace := if x.enable = true then x.aspace else v / 2 ^ 12 % 2 ^ 10 }
    exec (.queueDoorbell q v) s = .next (s.setQueue q { x with tail := v % 2 ^ 32 }) ∧
    exec (.queueEnable q v) s =
      .next (s.setQueue q { low with enable := true, error := 0, down := false, expect := none, epoch := x.epoch + 1 }) ∧
    exec (.queueDisable q v) s = .next (s.setQueue q { low with enable := false }) ∧
    exec (.queueBaseWrite q v) s = .next (s.setQueue q { x with base := v % 2 ^ 41 / 64 * 64, head := 0 }) ∧
    exec (.dbgStopClear q) s = .next (s.setQueue q { x with stop := false, stopped := false }) ∧
    (let now := decide (x.busy = [] ∧ x.waiting = none)
     exec (.dbgStopSet q) s = .next (s.setQueue q { x with stop := true, stopped := now }))

/-- R87, R91, R92, R362 to R366, R413: map installs a table with the next generation, and where it replaces one every translation
cache drops the entries of the space; pin and unpin change the queue's pins, an unpin whole pages;
signal stores or adds at its object; a wait command holds its queue until its object has reached the value;
bind_collective enters a binding, or removes one, once no launch uses its ident, and one that breaks a rule of R413 tears its queue
down. An entry without the sequence number that the queue expects, or one that breaks R363, tears it down too. -/
def Obligations.MemoryCommands : Prop :=
  (∀ (s : State) (q : Nat) (e : List Byte) (ps : List PageMap), Spec.NextCommand s q 10 e →
    let s1 := Spec.fetched s q e
    let asp := (s.queue q).aspace
    s1.readTable (fieldAt e 16 8) (fieldAt e 24 4) = some ps → (∀ p ∈ s.cores, s.earlyOps p.1 = []) →
    ∃ t, exec (.map q) s = .next t ∧ t = { s1 with aspaces := t.aspaces, cores := t.cores } ∧
      (tfind s.aspaces asp = none → t.cores = s.cores) ∧
      (tfind s.aspaces asp ≠ none → t.cores = s.cores.map (fun c => (c.1, { c.2 with
        missed := c.2.missed.filter (fun m => m.1 != asp) ++ ps.map (fun p => (asp, p.va)) }))) ∧
      (t.space (s.queue q).aspace).pages = ps ∧
      (t.space (s.queue q).aspace).gen = (match tfind s.aspaces (s.queue q).aspace with
        | some a => (a.gen + 1) % 2 ^ 16
        | none => 0) ∧
      ∀ n, n ≠ (s.queue q).aspace → t.space n = s.space n) ∧
  (∀ (s : State) (q : Nat) (e : List Byte) (rs : List Range), Spec.NextCommand s q 2 e →
    let s1 := Spec.fetched s q e
    let asp := (s.queue q).aspace
    s1.readRanges asp (fieldAt e 16 8) (fieldAt e 24 4) = some (some rs) → (∀ r ∈ rs, s1.pinnable asp r = true) →
    coverWindow rs = false →
    exec (.pin q) s = .next (s1.setQueue q { s1.queue q with
      pins := (s.queue q).pins ++ rs.map (fun r => (asp, r.start, r.pages)) })) ∧
  (∀ (s : State) (q : Nat) (e : List Byte) (rs : List Range), Spec.NextCommand s q 3 e → (s.queue q).unpins = [] →
    let s1 := Spec.fetched s q e
    let asp := (s.queue q).aspace
    let us := rs.map (fun r => (r.start, r.pages))
    s1.readRanges asp (fieldAt e 16 8) (fieldAt e 24 4) = some (some rs) → coverWindow rs = false →
    ∃ t, exec (.unpin q) s = .next t ∧ t = { s1 with queues := t.queues } ∧
      (s1.listed asp us = true → Spec.Started t q e ∧ (t.queue q).pins = (s.queue q).pins ∧
        (t.queue q).unpins = [(s.number q (fieldAt e 8 8), asp, us)]) ∧
      (s1.listed asp us = false → ¬ Spec.Started t q e ∧ (t.queue q).unpins = [] ∧
        (t.queue q).pins = us.foldl (s1.unpinRange asp) (s.queue q).pins ∧
        ∀ p ∈ (s.space asp).pages, (∃ r ∈ us, meets p.va (pageBytes p.size) r.1 (r.2 * 4096) = true) →
          (t.queue q).holds asp p = false)) ∧
  (∀ (s : State) (q pa : Nat) (e : List Byte), Spec.NextCommand s q 6 e → fieldAt e 32 1 ≤ 1 →
    let s1 := Spec.fetched s q e
    s1.object q (fieldAt e 16 8) = some pa →
    let v := if fieldAt e 32 1 = 1 then (ofLe (Spec.seen s.mem.read pa 8) + fieldAt e 24 8) % 2 ^ 64 else fieldAt e 24 8
    ∃ t, exec (.signal q) s = .next t ∧ (∀ a, t.mem.read a = Spec.putByte pa (leBytes v 8) a (s.mem.read a)) ∧
      t.queue q = s1.queue q ∧ ∀ n, ∀ l ∈ (t.core n).l1, l.1 * 64 + 64 ≤ pa ∨ pa + 8 ≤ l.1 * 64) ∧
  (∀ (s : State) (q pa : Nat) (e : List Byte), Spec.NextCommand s q 7 e → (s.queue q).waiting = none →
    let s1 := Spec.fetched s q e
    s1.object q (fieldAt e 16 8) = some pa →
    ∃ t, exec (.waitCommand q) s = .next t ∧ t = { s1 with queues := t.queues } ∧
      (t.queue q).waiting = if fieldAt e 24 8 ≤ ofLe (Spec.seen s.mem.read pa 8) then none
        else some (s.number q (fieldAt e 8 8), pa, fieldAt e 24 8)) ∧
  (∀ (s : State) (q seq pa v : Nat), (s.queue q).waiting = some (seq, pa, v) →
    ∃ t, exec (.waitCommand q) s = .next t ∧ t = { s with queues := t.queues } ∧
      (t.queue q).waiting = if v ≤ ofLe (Spec.seen s.mem.read pa 8) then none else (s.queue q).waiting) ∧
  (∀ (s : State) (q : Nat) (e bs : List Byte) (b : Binding), Spec.NextCommand s q 8 e → s.dueBind q = none →
    let s1 := Spec.fetched s q e
    let rest := fun (l : List Binding) => l.filter (fun (x : Binding) => x.ident != b.ident)
    let held := rest (s.binds.foldl (fun l x => rebind l x.2.2) s.bindings)
    s1.readVirt (s.queue q).aspace (fieldAt e 16 8) 64 = some bs → readBinding bs q (s.queue q).aspace = some b →
    let table := ∃ u ∈ s.spans, u.queue = q ∧ u.complete = true ∧ u.x ≤ b.px ∧ b.px + b.pw ≤ u.x + u.n4 ∧ u.y ≤ b.py ∧
      b.py + b.ph ≤ u.y + u.n5
    let inside := inRect b.px b.py b.pw b.ph s.coordX s.coordY = true ∧ (1 < b.pw * b.ph → table)
    let room := held.length < 64 ∧ (held.map Binding.staging).sum + b.staging ≤ 4194304
    (b.pw = 0 ∨ inside ∧ room →
      (s1.bindingBusy b.ident = false → exec (.bindCollective q) s = .next { s1 with
        bindings := if b.pw = 0 then rest s.bindings else b :: rest s.bindings }) ∧
      (s1.bindingBusy b.ident = true → ∃ t, exec (.bindCollective q) s = .next t ∧ Spec.Started t q e ∧
        t.bindings = s.bindings ∧ t.binds = s.binds ++ [(q, s.number q (fieldAt e 8 8), b)])) ∧
    (b.pw ≠ 0 → ¬ inside → ∃ t, exec (.bindCollective q) s = .next t ∧ Spec.TornDown s1 t q 15 (s.number q (fieldAt e 8 8))) ∧
    (b.pw ≠ 0 → inside → ¬ room →
      ∃ t, exec (.bindCollective q) s = .next t ∧ Spec.TornDown s1 t q 7 (s.number q (fieldAt e 8 8)))) ∧
  (∀ (s : State) (q : Nat) (e : List Byte), Spec.NextCommand s q 8 e → s.dueBind q = none →
    let s1 := Spec.fetched s q e
    let d := s1.readVirt (s.queue q).aspace (fieldAt e 16 8) 64
    (d = none → ∃ t, exec (.bindCollective q) s = .next t ∧ Spec.TornDown s1 t q 10 (s.number q (fieldAt e 8 8))) ∧
    (∀ bs, d = some bs → readBinding bs q (s.queue q).aspace = none →
      ∃ t, exec (.bindCollective q) s = .next t ∧ Spec.TornDown s1 t q 2 (s.number q (fieldAt e 8 8)))) ∧
  (∀ (s : State) (q : Nat) (x : Nat × Nat × Binding), s.dueBind q = some x →
    ∃ t, exec (.bindCollective q) s = .next t ∧ x ∉ t.binds ∧ x.2.1 ∉ (t.queue q).busy ∧
      (∀ b, b.ident ≠ x.2.2.ident → (b ∈ t.bindings ↔ b ∈ s.bindings)) ∧
      ∀ b, b.ident = x.2.2.ident → (b ∈ t.bindings ↔ b = x.2.2 ∧ b.pw ≠ 0)) ∧
  (∀ (i : Instr) (s : State) (q kind seq : Nat) (e : List Byte),
    (i, kind) ∈ [(Instr.launch q, 1), (.pin q, 2), (.unpin q, 3), (.copyIn q, 4), (.copyOut q, 5), (.signal q, 6),
      (.waitCommand q, 7), (.bindCollective q, 8), (.spanPrologue q, 9), (.map q, 10)] →
    s.nextEntry q = some e → fieldAt e 0 1 = kind → (kind = 8 → s.dueBind q = none) →
    ((s.queue q).expect = some seq → fieldAt e 8 8 ≠ seq →
      ∃ t, exec i s = .next t ∧ Spec.TornDown (Spec.fetched s q e) t q 1 (s.number q (fieldAt e 8 8))) ∧
    ((∀ x, (s.queue q).expect = some x → fieldAt e 8 8 = x) → entryBad e = true →
      ∃ t, exec i s = .next t ∧ Spec.TornDown (Spec.fetched s q e) t q 2 (s.number q (fieldAt e 8 8))))

/-- R91, R108, R362, R366, R404, R405, R434: copy-in and copy-out start a DMA copy over the queue's link, which stays incomplete; its
end writes the range, of which no L1 keeps a line, or sends it out, and completes the command; a piece may move before; poisoned bytes
leave as poisoned data. A copy that a remap has overtaken is rejected with error 13. A link that goes down fails the copies on it. -/
def Obligations.HostCopies : Prop :=
  (∀ (out : Bool) (s : State) (q : Nat) (e : List Byte), Spec.NextCommand s q (if out = true then 5 else 4) e →
    let s1 := Spec.fetched s q e
    let va := fieldAt e 24 8
    let n := fieldAt e 32 8
    Spec.CopyMayStart s1 q va n out →
    let d : Dma := { id := s.nextId, queue := q, seq := s.number q (fieldAt e 8 8), out := out, sys := fieldAt e 16 8, va := va,
                     aspace := (s.queue q).aspace, len := n, link := s.linkRoute / 2 ^ q % 2,
                     pieces := (s1.pieces (s.queue q).aspace va n).getD [], moved := [],
                     gen := (s.space (s.queue q).aspace).gen }
    exec (if out = true then .copyOut q else .copyIn q) s =
      .next { s1 with nextId := s.nextId + 1, dmas := s.dmas ++ [d],
                      queues := tset s1.queues q { s1.queue q with busy := (s.queue q).busy ++ [s.number q (fieldAt e 8 8)] } }) ∧
  (∀ (s : State) (op ix : Nat) (d : Dma) (bs : List Byte), s.dmas.find? (fun x => x.id == op) = some d →
    d.gen = (s.space d.aspace).gen → 4096 * ix < d.len → ix ∉ d.moved →
    let n := min 4096 (d.len - 4096 * ix)
    let ps := cutPieces d.pieces (4096 * ix) n
    ∃ t, exec (.dmaCopyComplete op (.piece ix bs)) s = .next t ∧
      t.dmas.find? (fun x => x.id == op) = some { d with moved := ix :: d.moved } ∧
      (d.out = false → (∀ a, t.mem.read a = Spec.piecesByte ps (padTo bs n) a (s.mem.read a)) ∧
        ∀ c, ∀ l ∈ (t.core c).l1, ∀ p ∈ ps, l.1 ∉ linesOf p.1 p.2) ∧
      (d.out = true → .copyOut d.link (d.sys + 4096 * ix) (Spec.piecesRead s.mem.read ps) ∈ t.out ∧
        ((∃ x ∈ s.poison, ∃ p ∈ ps, meets p.1 p.2 (x * 32) 32 = true) → .poisonedData ∈ t.out) ∧
        ∀ a, Spec.OffLog s a → t.mem.read a = s.mem.read a)) ∧
  (∀ (s : State) (op : Nat) (d : Dma) (bs : List Byte), s.dmas.find? (fun x => x.id == op) = some d →
    d.gen = (s.space d.aspace).gen →
    ∃ t, exec (.dmaCopyComplete op (.data bs)) s = .next t ∧ (∀ x ∈ t.dmas, x.id ≠ op) ∧ d.seq ∉ (t.queue d.queue).busy ∧
      (d.out = false → ∀ a, t.mem.read a = d.rest.foldl (fun v r =>
        Spec.piecesByte (cutPieces d.pieces r.1 r.2) (padTo ((bs.drop r.1).take r.2) r.2) a v) (s.mem.read a)) ∧
      (d.moved = [] → (d.pieces.map Prod.snd).sum = d.len →
        (d.out = false → ∀ a, t.mem.read a = Spec.piecesByte d.pieces (padTo bs d.len) a (s.mem.read a)) ∧
        (d.out = true → .copyOut d.link d.sys (Spec.piecesRead s.mem.read d.pieces) ∈ t.out))) ∧
  (∀ (s : State) (op : Nat) (d : Dma), s.dmas.find? (fun x => x.id == op) = some d → (s.queue d.queue).down = false →
    ((d.gen = (s.space d.aspace).gen →
      ∃ t, exec (.dmaCopyComplete op .failed) s = .next t ∧ (∀ x ∈ t.dmas, x.id ≠ op) ∧ (t.queue d.queue).down = true ∧
        (t.queue d.queue).error = 11 ∧ (d.out = false → (d.aspace, d.va, d.len) ∈ t.failedStaging)) ∧
     (d.gen ≠ (s.space d.aspace).gen → ∀ w,
      ∃ t, exec (.dmaCopyComplete op w) s = .next t ∧ (∀ x ∈ t.dmas, x.id ≠ op) ∧ (t.queue d.queue).down = true ∧
        (t.queue d.queue).error = 13 ∧ ((∀ n, s.earlyOps n = []) → ∀ a, Spec.OffLog s a → t.mem.read a = s.mem.read a)))) ∧
  (∀ (s : State) (n : Nat), ∃ t, exec (.hostLinkDown n) s = .next t ∧ n ∉ t.hostLinks ∧ (∀ d ∈ t.dmas, d.link ≠ n) ∧
    ∀ d ∈ s.dmas, d.link = n → (t.queue d.queue).down = true)

/-- R363, R367 to R371, R373, R414: a launch whose record passes the checks enters among those to be dispatched and stays
incomplete, and one that fails tears its queue down with its error; a span prologue tells its peers and ends when every peer has
been heard, each exchange counted once; one whose table is refused, or whose first hops are no longer usable then, fails with error
15 (R411, R460). A span launch uses its queue's latest table to its end. Which error some malformed launches have, and the channel of
the device's own flits, are the model's choices, log entries 103, 110 and 135. -/
def Obligations.LaunchesAndPrologues : Prop :=
  (∀ (s : State) (q : Nat) (e : List Byte), Spec.NextCommand s q 1 e →
    let s1 := Spec.fetched s q e
    let r : LaunchRec := ⟨(s1.readVirt (s.queue q).aspace (fieldAt e 16 8) 256).getD []⟩
    (r.flag 6 = true → s1.bindingBusy (r.at 0x70 4) = false) →
    (∀ n, s1.checkLaunch q (fieldAt e 16 8) = .error n →
      ∃ t, exec (.launch q) s = .next t ∧ Spec.TornDown s1 t q n (s.number q (fieldAt e 8 8))) ∧
    (∀ r ws bs h object, s1.checkLaunch q (fieldAt e 16 8) = .ok (r, ws, bs, h, object) →
      ∃ t l, exec (.launch q) s = .next t ∧ Spec.Started t q e ∧ t.launch s.nextLaunch = some l ∧
        l.queue = q ∧ l.seq = s.number q (fieldAt e 8 8) ∧ (r.flag 7 = true → l.table = (s.queue q).span) ∧
        t.colls = s.colls ++ (if r.flag 6 = true then [startColl s.nextLaunch q (s.queue q).aspace r.coll] else []) ∧ l.aspace = (s.queue q).aspace ∧ l.code = r.at 0 8 ∧ l.priority = r.at 0x0D 1 ∧
        [l.n0, l.n1, l.n2, l.n3, l.n4, l.n5] = r.counts ∧ l.regs = r.at 0x20 1 ∧ l.benches = r.at 0x21 1 ∧
        l.chuck = r.at 0x22 2 ∧ l.lbytes = r.at 0x24 4 ∧ l.quantum = r.at 0x28 4 ∧ l.energy = r.at 0x2C 4 ∧ l.wset = ws ∧
        l.bounds = bs ∧ l.trapOff = (if r.flag 8 = true then some (r.at 0x50 4) else none) ∧ l.next = 0 ∧
        (∀ i, 4 * i < object.length → l.snapshot[i]? = some (BitVec.ofNat 32 (fieldAt object (4 * i) 4))) ∧
        l.killed = false ∧ l.complete = false ∧ t.power.decls = s.power.decls ++ (if l.energy = 0 then [] else
          [(s.power.ivCore + 1, l.energy * min (l.n2 * l.n3) (128 * l.n2 * s1.cohortsPerCluster r), s.power.ivCore, none)]) ∧
        ∀ a, t.mem.read a = s.mem.read a)) ∧
  (∀ (s : State) (q : Nat) (e : List Byte) (sp : SpanTable), Spec.NextCommand s q 9 e →
    let s1 := Spec.fetched s q e
    let num := s.number q (fieldAt e 8 8)
    s1.readSpan q num (fieldAt e 16 8) (fieldAt e 24 4) = some sp → (∀ u ∈ s.spans, u.queue = q → u.seq ≠ num) →
    (∀ u ∈ s.spans, Spec.StillAwaited s s.exchanges u) →
    let peers := s.peersOf sp
    (∀ d ∈ peers, s.mgmtPort d.1 d.2 < 32 ∧ (s.port (s.mgmtPort d.1 d.2)).up = true) →
    ∃ t, exec (.spanPrologue q) s = .next t ∧ (t.queue q).span = some num ∧
      (∀ d ∈ peers, .flit (s.mgmtPort d.1 d.2) (Spec.flitHead d.1 d.2 s.coordX s.coordY 2 5 sp.ident (s.nextSeq (d.1, d.2, 2)) 0)
        (zeros 224) ∈ t.out) ∧
      ((∃ d ∈ peers, (sp.ident, d.1, d.2) ∉ s.exchanges) → Spec.Started t q e ∧ t.prologueFor q (fun _ => true) = false) ∧
      ((∀ d ∈ peers, (sp.ident, d.1, d.2) ∈ s.exchanges) → ¬ Spec.Started t q e ∧ t.prologueFor q (fun _ => true) = true)) ∧
  (∀ (s : State) (q : Nat) (e : List Byte), Spec.NextCommand s q 9 e →
    (Spec.fetched s q e).readSpan q (s.number q (fieldAt e 8 8)) (fieldAt e 16 8) (fieldAt e 24 4) = none →
    ∃ t, exec (.spanPrologue q) s = .next t ∧ Spec.TornDown (Spec.fetched s q e) t q 15 (s.number q (fieldAt e 8 8))) ∧
  (∀ (s : State) (sx sy id : Nat), let xs := (id, sx, sy) :: s.exchanges
    ((∀ u ∈ s.spans, Spec.StillAwaited s xs u) →
      exec (.prologueExchangeReceive sx sy id) s = .next { s with exchanges := xs }) ∧
    ∀ sp ∈ s.spans, ¬ Spec.StillAwaited s xs sp → (∀ u ∈ s.spans, u ≠ sp → Spec.StillAwaited s xs u ∧ (u.queue, u.seq) ≠ (sp.queue, sp.seq)) →
      s.spans.Nodup →
      let own := s.coordX - sp.x + sp.n4 * (s.coordY - sp.y)
      (s.hopsOk own sp.hops = true → ∃ t, exec (.prologueExchangeReceive sx sy id) s = .next t ∧ sp.seq ∉ (t.queue sp.queue).busy ∧
        { sp with heard := s.peersOf sp, complete := true } ∈ t.spans ∧
        ∀ d ∈ s.peersOf sp, t.exchanges.count (sp.ident, d.1, d.2) + 1 = xs.count (sp.ident, d.1, d.2)) ∧
      (s.hopsOk own sp.hops = false → (s.queue sp.queue).down = false →
        ∃ t, exec (.prologueExchangeReceive sx sy id) s = .next t ∧ Spec.TornDown s t sp.queue 15 sp.seq ∧ sp ∉ t.spans))

/-- R413, R416 to R421: arriving data and rows go into staging, or are refused where they cannot be used and the quota is full. What an
earlier cycle brought is used once it can be, in the order of the cycles and in one cycle in that of the ranks: a result lands in its
slot, a contribution, the device's own too, is combined into the elements of its chunk and lands when every peer's has come; rows take
the next result row or go back, the device's own to its overflow region. A
refused sending goes out again; a returned row goes to the overflow region; a missing chunk is error 4; the completion record
ends the collective. The staging quota, what is staged, when it is used and what a chunk given up leaves are the model's choices, log
entries 59 to 63. -/
def Obligations.CollectiveEvents : Prop :=
  (∀ (i : Instr) (a : Arrival) (s : State),
    ((∃ d, a = .data d ∧ i = .collectiveDataReceive d) ∨ ∃ r, a = .row r ∧ i = .alltoallRowReceive r) →
    (s.usable a = true ∨ s.quotaUsed a.ident + a.bytes ≤ s.quota a.ident →
      ∃ t, exec i s = .next t ∧ t = { s with staged := s.staged ++ [⟨s.cycle, none, a, []⟩], counters := t.counters }) ∧
    (s.usable a = false → s.quota a.ident < s.quotaUsed a.ident + a.bytes →
      (∀ b, s.binding a.ident = some b → s.peerUp b a.rank = true) →
      ∃ t, exec i s = .next t ∧ t.staged = s.staged ∧ t.out = .collRefused a.ident a.rank a.chunk :: s.out ∧ t.mem = s.mem ∧
        t.colls = s.colls)) ∧
  (∀ (s : State) (x : Staged) (d : Contribution) (c : Coll) (b : Binding) (j : Nat) (ps : List (Nat × Nat)),
    Spec.Due s x (.data d) c b j → d.agree = true → d.poisoned = false → d.result = true → d.data ≠ [] →
    c.slot d.rank d.chunk ∉ c.settled →
    s.pieces c.aspace (c.rec_.dst + c.slot d.rank d.chunk * c.rec_.csize + d.offset) d.data.length = some ps →
    ∃ t e, exec (.collectiveComplete j) s = .next t ∧ t.collOf c.launch = some e ∧ t.staged = [] ∧
      (∀ a, t.mem.read a = Spec.piecesByte ps d.data a (s.mem.read a)) ∧ e.bytes = c.bytes + d.data.length ∧
      e.saturated = c.saturated + (d.sat.filter id).length ∧ (d.rank, d.chunk) ∈ e.peerFired) ∧
  (∀ (s : State) (x : Staged) (d : Contribution) (c : Coll) (b : Binding) (j : Nat), Spec.Due s x (.data d) c b j →
    d.agree = true → d.poisoned = false → d.result = false → c.rec_.kind ≤ 1 → d.chunk ∉ c.settled →
    let es := c.rec_.esize
    let n := d.data.length / es
    let now := fun i => Spec.taken c.rec_ (c.acc.find? (fun a => a.pos == Spec.elemPos c.rec_ d i)) (Spec.elemPos c.rec_ d i)
      (fieldAt d.data (i * es) es)
    ((∀ i, i < n → (now i).count < b.size) →
      ∃ t e, exec (.collectiveComplete j) s = .next t ∧ t.collOf c.launch = some e ∧ (∀ a, t.mem.read a = s.mem.read a) ∧
        t.staged = [] ∧ ∀ i, i < n → e.acc.find? (fun a => a.pos == Spec.elemPos c.rec_ d i) = some (now i)) ∧
    (∀ ps, 0 < n → (∀ i, i < n → b.size ≤ (now i).count) → (c.rec_.kind = 0 → ∀ p ∈ s.others b, s.peerUp b p = true) →
      s.pieces c.aspace (c.rec_.dst + d.chunk * c.rec_.csize + d.offset) (n * es) = some ps →
      let bs := ((List.range n).map (fun i => leBytes (narrow c.rec_ (now i)).1 es)).flatten
      ∃ t e, exec (.collectiveComplete j) s = .next t ∧ t.collOf c.launch = some e ∧ t.staged = [] ∧
        (∀ a, t.mem.read a = Spec.piecesByte ps bs a (s.mem.read a)) ∧ e.bytes = c.bytes + n * es ∧
        e.saturated = c.saturated + ((List.range n).filter (fun i => (narrow c.rec_ (now i)).2)).length)) ∧
  (∀ (s : State) (x : Staged) (d : Contribution) (c : Coll) (b : Binding) (j : Nat), Spec.Due s x (.data d) c b j →
    d.agree = false ∨ d.poisoned = true → c.rec_.kind ≠ 0 →
    ∃ t e, exec (.collectiveComplete j) s = .next t ∧ t.collOf c.launch = some e ∧ t.staged = [] ∧
      e.error = (if c.error = 0 then (if d.agree = true then 5 else 2) else c.error) ∧ ∀ a, t.mem.read a = s.mem.read a) ∧
  (∀ (s : State) (x : Staged) (r : Row) (c : Coll) (b : Binding) (j : Nat), Spec.Due s x (.row r) c b j →
    (c.rec_.arg1 ≤ c.landed → x.own = none → s.peerUp b r.rank = true →
      ∃ t e, exec (.collectiveComplete j) s = .next t ∧ t.collOf c.launch = some e ∧ e.landed = c.landed ∧ t.staged = [] ∧
        t.out = .rowBack r :: s.out ∧ ∀ a, t.mem.read a = s.mem.read a) ∧
    (c.rec_.arg1 ≤ c.landed → x.own = some c.launch →
      ∃ t e, exec (.collectiveComplete j) s = .next t ∧ t.collOf c.launch = some e ∧ e.landed = c.landed ∧ t.staged = [] ∧
        Spec.Overflowed s t c b e r) ∧
    (∀ ps, c.landed < c.rec_.arg1 → 4 ≤ r.data.length →
      s.pieces c.aspace (c.rec_.dst + c.landed * c.rec_.arg0) r.data.length = some ps →
      ∃ t e, exec (.collectiveComplete j) s = .next t ∧ t.collOf c.launch = some e ∧ e.landed = c.landed + 1 ∧ t.staged = [] ∧
        ∀ a, t.mem.read a = Spec.piecesByte ps (leBytes r.rank 4 ++ r.data.drop 4) a (s.mem.read a))) ∧
  (∀ (s : State) (x y : Staged) (r q : Row) (c : Coll) (b : Binding) (j : Nat) (ps : List (Nat × Nat)),
    s.staged = [x, y] ∨ s.staged = [y, x] → x.item = .row r → y.item = .row q → r ≠ q → x.own = none → y.own = none →
    x.poison = [] → y.poison = [] → x.cycle < s.cycle → y.cycle < s.cycle →
    x.cycle < y.cycle ∨ x.cycle = y.cycle ∧ r.rank < q.rank → r.ident = q.ident → Spec.Runs s r.ident c b → s.collNamed j = none →
    s.usable (.row r) = true → s.usable (.row q) = true → c.landed + 1 = c.rec_.arg1 → 4 ≤ r.data.length →
    s.pieces c.aspace (c.rec_.dst + c.landed * c.rec_.arg0) r.data.length = some ps → s.peerUp b q.rank = true →
    ∃ t e, exec (.collectiveComplete j) s = .next t ∧ t.collOf c.launch = some e ∧ e.landed = c.landed + 1 ∧ t.staged = [] ∧
      t.out = .rowBack q :: s.out ∧
      ∀ a, t.mem.read a = Spec.piecesByte ps (leBytes r.rank 4 ++ r.data.drop 4) a (s.mem.read a)) ∧
  (∀ (s : State) (r : Row) (c : Coll) (b : Binding), Spec.Runs s r.ident c b → (∃ x ∈ c.sending, x.2.1 = .row r) →
    ∃ t e, exec (.rowReturn r) s = .next t ∧ t.collOf c.launch = some e ∧ e.sending.length + 1 = c.sending.length ∧
      Spec.Overflowed s t c b e r) ∧
  (∀ (s : State) (ident rank chunk : Nat) (c : Coll) (a : Arrival), s.collNamed ident = some c →
    s.collOf c.launch = some c →
    c.sending.find? (fun x => x.1 == rank && x.2.1.chunk == chunk && !x.2.2) = some (rank, a, false) →
    (∀ b, s.binding ident = some b → s.peerUp b rank = true) →
    ∃ t e, exec (.collectiveRefusal ident rank chunk) s = .next t ∧ t.out = .coll rank a :: s.out ∧
      t.collOf c.launch = some e ∧ e.sending = c.sending.erase (rank, a, false) ++ [(rank, a, false)]) ∧
  (∀ (s : State) (ident rank chunk : Nat), s.collNamed ident = none ∨ s.binding ident = none →
    exec (.chunkMissingReceive ident rank chunk) s =
      .next { s with staged := s.staged ++ [⟨s.cycle, none, .missing ident rank chunk, []⟩] }) ∧
  (∀ (s : State) (ident rank chunk : Nat) (c : Coll) (b : Binding), Spec.Runs s ident c b →
    ∃ t e, exec (.chunkMissingReceive ident rank chunk) s = .next t ∧ t.collOf c.launch = some e ∧
      e.error = (if c.error = 0 then 4 else c.error) ∧ (rank, chunk) ∈ e.peerFired ∧
      (c.lands b.size (s.myRank b) rank chunk = true → c.slot rank chunk ∈ e.settled) ∧ ∀ a, t.mem.read a = s.mem.read a) ∧
  (∀ (s : State) (ident : Nat) (c : Coll) (b : Binding) (ps qs : List (Nat × Nat)), (∀ x ∈ s.staged, s.cycle ≤ x.cycle) →
    Spec.Runs s ident c b → s.collOver c b = true → s.pieces c.aspace (c.rec_.recAddr + 8) 56 = some ps →
    s.pieces c.aspace c.rec_.recAddr 8 = some qs →
    ∃ t, exec (.collectiveComplete ident) s = .next t ∧ (∀ x ∈ t.colls, x.launch ≠ c.launch) ∧
      ∀ a, t.mem.read a = Spec.piecesByte qs (leBytes (if c.error = 0 then 1 else 2) 8) a
        (Spec.piecesByte ps (Spec.recordFields c s.time) a (s.mem.read a)))

/-- R162, R164, R422, R425 to R431: the refill of a core bucket, the hold for the oldest of the groups that have waited 64
cycles for tokens, the draw of backfill with its scrub reads, the winder's boundary of a device with no steps planned, and a
peer's claim. The demand of an interval, the band about the balance, how many sectors a cycle scrubs and which claim a flit
replaces are the model's choices, log entries 67, 69, 70 and 108. -/
def Obligations.PowerEvents : Prop :=
  (∀ (s : State) (core : Nat), core < Config.cores → (s.core core).refilled = false → s.offersOver core = true →
    s.walkDue core = false →
    let p := s.power
    let c := s.core core
    let d := s.die (core / 64)
    let k := s.cluster (core / 4)
    let want := min p.rate (p.cap - c.level)
    let r := min (min want d.bucket) (s.allow (core / 4) * 16 - k.taken)
    let level := min (c.level + r + c.rebate) p.cap
    let dies := tset s.dies (core / 64)
      { d with bucket := min (d.bucket - r + (c.level + r + c.rebate - level)) (p.dcap * 16) }
    ∃ t, exec (.coreBucketRefill core) s = .next t ∧ t = { s with
      cores := tset s.cores core { c with level := level, rebate := 0, refilled := true }, dies := dies,
      clusters := tset s.clusters (core / 4) { k with taken := k.taken + r },
      power := { p with refused := p.refused + (want - r) }, groups := t.groups } ∧
      ∀ n g, tfind s.groups n = some g → tfind t.groups n =
        some (if n / 32 = core ∧ c.level ≤ p.cap / 2 then { g with ahead := g.ahead.map Walk.over } else g)) ∧
  (∀ (s : State) (core : Nat), (s.core core).refilled = true → s.holder core = none →
    (∃ h ∈ s.activeOn core, h.2.2.status = .ready ∧ 64 ≤ h.2.2.tokenWait) →
    ∃ t h, exec (.fairnessHold core) s = .next t ∧ Spec.SameState s t ∧ h ∈ s.activeOn core ∧ h.2.2.status = .ready ∧
      64 ≤ h.2.2.tokenWait ∧ t.core core = { s.core core with hold := some h.2.1 } ∧
      ∀ x ∈ s.activeOn core, x.2.2.status = .ready → 64 ≤ x.2.2.tokenWait → s.ageOf h.2.2 ≤ s.ageOf x.2.2) ∧
  (∀ (s : State) (found : Scrub), s.power.on = true →
    let p := s.power
    let left := p.grant * (s.cycle - p.ivStart + 1) / 128 - p.drawn
    let x := min (left - min (16 * (p.capacity - p.stored.getD p.capacity)) left - p.absorbing) p.bucket
    ∃ t, exec (.backfillDraw found) s = .next t ∧
      t.power = { p with bucket := p.bucket - x, absorbing := p.absorbing + x, kinds := t.power.kinds,
                         scrubAt := t.power.scrubAt } ∧
      t.power.kinds.sum = p.kinds.sum + x ∧
      (found = .none → (p.scrub = false ∨ x = 0) → t = { s with power := t.power }) ∧
      ∀ n, n < 12 → 0 < x → p.scrub = true → (s.heaps[n]?.any Heap.present) = true →
        let sector := n * 2 ^ 32 + p.scrubAt.getD n 0
        t.power.scrubAt.getD n 0 = (p.scrubAt.getD n 0 + 1) % (Config.dieBytes / 32) ∧
        (found = .uncorrectable sector → sector ∈ t.poison)) ∧
  (∀ (s : State) (m : Measure), s.power.ivCore < s.cycle / 2048 → s.power.on = true → s.power.pending = [] →
    s.power.decls = [] → s.power.steps = [] → s.power.running = none → s.power.enable = false →
    let p := s.power
    let demand := (p.drawn + s.shortfall + p.refused) / 16
    let up := max 1 p.up * 2048 / 21
    let down := max 1 p.down * 2048 / 21
    let most := p.most * 20480 / 21
    ∃ t, exec (.winderBoundary m) s = .next t ∧ t.power.ivCore = p.ivCore + 1 ∧ t.power.ivStart = s.cycle ∧
      t.power.drawn = 0 ∧ t.power.absorbing = 0 ∧ t.power.refused = 0 ∧ t.power.absorbed = p.absorbing / 16 ∧
      t.power.demand = demand ∧
      (let limit := if demand - p.grant ≤ up ∨ t.power.charge < p.floor then p.grant + up else p.grant
       t.power.grant = max (p.grant - down) (min (min demand limit) most)) ∧
      t.power.decls = (if p.grant + up < demand then [(p.ivCore + 2, demand - p.grant, p.ivCore + 1, none)] else []) ∧
      t.power.next = max (t.power.grant - down)
        (min (if t.power.decls = [] ∨ t.power.charge < p.floor then t.power.grant + up else t.power.grant) most) ∧
      t.power.charge ≤ p.capacity ∧
      (∀ c, c < Config.clusters → (t.cluster c).taken = 0 ∧ (t.cluster c).temp = m.clusterTemp.getD c (s.cluster c).temp ∧
        (t.cluster c).m = Spec.allowanceAt p.soft p.hard (t.cluster c).temp) ∧
      (∀ d, d < Config.dies → (t.die d).refilled = 0 ∧ (t.die d).forecast = 0 ∧
        (t.die d).bucket = min (s.die d).bucket (p.dcap * 16)) ∧
      Spec.SameState s t) ∧
  (∀ (s : State) (sx sy start delta made : Nat), s.power.isPeer sx sy = false →
    exec (.intentClaimReceive sx sy start delta made) s = .next s) ∧
  (∀ (s : State) (sx sy start delta made : Nat), s.power.isPeer sx sy = true → let p := s.power
    let rest := p.claims.filter (fun c => ¬ (c.1 = sy ∧ c.2.1 = sx ∧ c.2.2.2 = made))
    let claims := if p.ivCore < start ∧ delta ≠ 0 then rest ++ [(sy, sx, start, made)] else rest
    ∃ t, exec (.intentClaimReceive sx sy start delta made) s = .next t ∧ t.power.claims = claims ∧ Spec.SameState s t ∧
      (p.enable = false → t = { s with power := { p with claims := claims } }) ∧
      ∀ at_ size a, p.enable = true → p.steps = [(at_, size, a)] →
        let lower := (claims.filter (fun c => c.2.2.1 = at_)).filter (fun c =>
          c.2.2.2 < a ∨ c.2.2.2 = a ∧ (c.1 < s.coordY ∨ c.1 = s.coordY ∧ c.2.1 < s.coordX))
        (lower.length < max 1 p.k ∨ at_ ≤ p.ivCore → t.power.steps = p.steps) ∧
        (max 1 p.k ≤ lower.length → p.ivCore < at_ → ∃ next, t.power.steps = [(next, size, a)] ∧ at_ < next ∧
          ∀ j, at_ < j → j < next → max 1 p.k ≤ (claims.filter (fun c => c.2.2.1 = j)).length))

/-- R371, R407 to R411, R421, R440: time synchronisation, with the time base steered by one tick in 4,096, forwarding, route
failures, port statistics, links. A port that goes down fails the prologues that wait for a peer behind it (log entry 121). The
channel of the device's own flits and the layout of their bodies are the model's choices, log entry 110. -/
def Obligations.FabricEvents : Prop :=
  (∀ (s : State) (port : Nat), port < 32 → (s.port port).up = true →
    let seq := s.nextSeq (s.coordX, s.coordY, 2)
    ∃ t, exec (.timeSyncSend port) s = .next t ∧ t = { s with out := t.out, counters := t.counters, flitSeq := t.flitSeq } ∧
      t.out = .flit port (Spec.flitHead s.coordX s.coordY s.coordX s.coordY 2 4 0 seq 8) (leBytes s.time 8 ++ zeros 216) :: s.out ∧
      t.nextSeq (s.coordX, s.coordY, 2) = (seq + 1) % 2 ^ 32) ∧
  (∀ (s : State) (port time : Nat), ∃ t, exec (.timeSyncReceive port time) s = .next t ∧
    t = { s with counters := t.counters, timeDebt := if s.leadsToCorner port = true then (time : Int) - s.time else s.timeDebt }) ∧
  (∀ (s : State), let t := s.advanceTime
    (s.timeFrac + 10 < 21 → t = { s with timeFrac := s.timeFrac + 10 }) ∧
    (21 ≤ s.timeFrac + 10 → t.timeFrac = s.timeFrac + 10 - 21 ∧
      (s.timeDebt = 0 ∨ s.time - s.steer < 4096 → t.time = (s.time + 1) % 2 ^ 64 ∧ t.timeDebt = s.timeDebt) ∧
      (4096 ≤ s.time - s.steer → 0 < s.timeDebt → t.time = (s.time + 2) % 2 ^ 64 ∧ t.timeDebt = s.timeDebt - 1 ∧ t.steer = s.time) ∧
      (4096 ≤ s.time - s.steer → s.timeDebt < 0 → t.time = s.time % 2 ^ 64 ∧ t.timeDebt = s.timeDebt + 1 ∧ t.steer = s.time) ∧
      (t.time / 2 ^ 20 ≠ s.time / 2 ^ 20 → ∀ p, p < 32 → (s.port p).up = true →
        ∃ n, .flit p (Spec.flitHead s.coordX s.coordY s.coordX s.coordY 2 4 0 n 8) (leBytes t.time 8 ++ zeros 216) ∈ t.out))) ∧
  (∀ (s : State) (port : Nat) (f : Flit), port < 32 →
    (flitBad f = true → exec (.flitForward port f) s =
      .next { s with ports := tset s.ports port { s.port port with errors := (s.port port).errors + 1 } }) ∧
    (flitBad f = false → (f.dx = s.coordX ∧ f.dy = s.coordY ∨ s.nextHop f = none) →
      ∃ t, exec (.flitForward port f) s = .next t ∧ t = { s with counters := t.counters }) ∧
    (flitBad f = false → ¬ (f.dx = s.coordX ∧ f.dy = s.coordY) →
      (∀ p, s.nextHop f = some (some p) → ∃ t, exec (.flitForward port f) s = .next t ∧
        t = { s with out := t.out, counters := t.counters } ∧
        t.out = .flit p (Spec.flitHead f.dx f.dy f.sx f.sy f.vc f.kind f.span f.seq f.valid) f.payload :: s.out) ∧
      (s.nextHop f = some none →
        let p := match s.spans.find? (fun x => x.ident == f.span) with
          | some x => (x.hop f.sx f.sy).getD 32
          | none => s.mgmtPort f.sx f.sy
        ∃ t, exec (.flitForward port f) s = .next t ∧ Spec.Raised s t 259 ∧ (p < 32 → (s.port p).up = true →
          .flit p (Spec.flitHead f.sx f.sy s.coordX s.coordY 2 6 f.span (s.nextSeq (f.sx, f.sy, 2)) 0) (zeros 224) ∈ t.out)))) ∧
  (∀ (s : State) (span : Nat), ∃ t, exec (.routeFailureReceive span) s = .next t ∧
    (∀ n l, s.launch n = some l → l.complete = false → l.killed = false → s.launchOver l span = true →
      (t.queue l.queue).down = true ∧ ((s.queue l.queue).down = false →
        (t.queue l.queue).error = 15 ∧ ∃ m, t.launch n = some m ∧ m.killed = true)) ∧
    (∀ u ∈ s.spans, u.complete = false → u.ident = span →
      (t.queue u.queue).down = true ∧ u.seq ∉ (t.queue u.queue).busy ∧ u ∉ t.spans) ∧
    ∀ c ∈ t.colls, (∃ p ∈ s.spans, p.ident = span ∧ p.queue = c.queue) → (s.binding c.ident).any (fun b => 1 < b.size) = true →
      c.failed = true ∧ c.error ≠ 0) ∧
  (∀ (s : State) (port : Nat) (w : PortStats), let p := s.port port
    let bit := fun (b : Prop) [Decidable b] (k : Nat) => if b then 2 ^ k else 0
    let alarm := p.alarm ||| (bit (w.height % 2 ^ 12 < p.thHeight) 0 + bit (w.width % 2 ^ 10 < p.thWidth) 1 +
      bit (p.thCerr < min w.cerr 0xFFFFFFFF) 2)
    port < 32 → p.window < s.time / 2 ^ 24 → ∃ t, exec (.portWindow port w) s = .next t ∧
      t.port port = { p with prevHeight := p.height, prevCerr := p.cerr, height := w.height % 2 ^ 12, width := w.width % 2 ^ 10,
                             worst := w.lane % 8, cerr := min w.cerr 0xFFFFFFFF, retries := min w.retries 0xFFFFFFFF,
                             alarm := alarm, window := s.time / 2 ^ 24, latched := true } ∧
      (alarm ≠ p.alarm → Spec.Raised s t 258) ∧
      (alarm = p.alarm → t.msixPending = s.msixPending ∧ t.out = s.out)) ∧
  (∀ (s : State) (port : Nat), let waits := fun (u : SpanTable) => u.complete = false ∧ ∃ d ∈ s.peersOf u, u.hop d.1 d.2 = some port
    ∃ t, exec (.portDown port) s = .next t ∧ t.port port = { s.port port with down := true, trained := false, lanes := 0 } ∧
      ((∀ u ∈ s.spans, ¬ waits u) → Spec.Logged s t { kind := 11, unit := 12 + port / 16 % 2 }) ∧
      ∀ u ∈ s.spans, waits u → (t.queue u.queue).down = true ∧ u.seq ∉ (t.queue u.queue).busy ∧ u ∉ t.spans) ∧
  (∀ (s : State) (n : Nat),
    exec (.linkTrained false n) s =
      .next { s with ports := tset s.ports n { s.port n with trained := true, down := false, lanes := 8,
                                                                 window := s.time / 2 ^ 24 } } ∧
    (n < 2 → ∃ t, exec (.linkTrained true n) s = .next t ∧ t = { s with hostLinks := t.hostLinks } ∧
      ∀ k, k ∈ t.hostLinks ↔ k = n ∨ k ∈ s.hostLinks))

/-- R397, R398, R400 to R402, R423, R434, R439 to R445, R461: what the host does to the device: register writes, the memory
window, CXL.mem, the mailbox, attestation, function-level reset and cold reset. Error codes of ill-formed accesses, mailbox
commands that end at once, the report's fields and what a reset leaves of memory are the model's choices, log entries 71 and 73
to 79. -/
def Obligations.HostEvents : Prop :=
  (∀ (s : State) (off size v : Nat),
    (writeForm off size = false → ∃ t, exec (.registerWrite off size v) s = .next t ∧
      Spec.Logged s t { kind := 10, unit := 12, addr := off }) ∧
    (writeForm off size = true → s.barOn = true → 0x40000 ≤ off → off < 0x50000 →
      exec (.registerWrite off size v) s =
        .next { s with power := { s.power with pending := s.power.pending ++ [(off - 0x40000, size, v)] } }) ∧
    (∀ q, q < 128 → s.barOn = true → off = 0x10010 + 64 * q → size = 4 →
      exec (.registerWrite off size v) s = .next (s.setQueue q { s.queue q with tail := v % 2 ^ 32 })) ∧
    (s.barOn = true → off = 0x100 → size = 8 → (s.queues.any (fun q => q.2.enable)) = true →
      exec (.registerWrite off size v) s = .next s) ∧
    (s.barOn = true → off = 0x100 → size = 8 → (s.queues.any (fun q => q.2.enable)) = false →
      exec (.registerWrite off size v) s = .next { s with contextBase := v % 2 ^ 41 / 65536 * 65536 })) ∧
  (∀ (s : State) (off n : Nat) (data : List Byte), let pa := s.memwinBase + off
    s.barOn = true →
    (windowForm off n = true → Spec.WindowReaches s pa n →
      (∀ x ∈ s.poison, meets pa n (x * 32) 32 = false) →
      exec (.memwinRead off n) s = .next { s with out := .bytes (s.mem.bytes pa n) false :: s.out }) ∧
    (windowForm off n = true → ¬ Spec.WindowReaches s pa n →
      ∃ t, exec (.memwinRead off n) s = .next t ∧ .unsupported ∈ t.out ∧
        Spec.Logged s t { kind := 12, unit := pa / 2 ^ 37 % 16, addr := pa }) ∧
    (windowForm off data.length = true → Spec.WindowReaches s pa data.length →
      ∃ t, exec (.memwinWrite off data) s = .next t ∧
        ∀ a, t.mem.read a = if pa ≤ a ∧ a < pa + data.length then data.getD (a - pa) 0 else s.mem.read a) ∧
    (windowForm off data.length = true → ¬ Spec.WindowReaches s pa data.length →
      ∃ t, exec (.memwinWrite off data) s = .next t ∧ Spec.Logged s t { kind := 12, unit := pa / 2 ^ 37 % 16, addr := pa })) ∧
  (∀ (s : State) (pa n : Nat) (data : List Byte), s.cxl = true → 0 ∈ s.hostLinks → pa / 2 ^ 37 < 12 →
    (pa % 2 ^ 37 + n ≤ 95831457792 → s.reachable false pa n = true →
      meets pa n s.contextBase (16384 * Config.frameBytes) = false → (∀ x ∈ s.poison, meets pa n (x * 32) 32 = false) →
      exec (.hostCxlMemAccess (.read pa n)) s = .next { s with out := .bytes (s.mem.bytes pa n) false :: s.out }) ∧
    (pa % 2 ^ 37 + data.length ≤ 95831457792 → s.reachable false pa data.length = true →
      meets pa data.length s.contextBase (16384 * Config.frameBytes) = false →
      ∃ t, exec (.hostCxlMemAccess (.write pa data)) s = .next t ∧
        ∀ a, t.mem.read a = if pa ≤ a ∧ a < pa + data.length then data.getD (a - pa) 0 else s.mem.read a) ∧
    (pa % 2 ^ 37 + data.length ≤ 95831457792 → s.reachable false pa data.length = false →
      ∃ t, exec (.hostCxlMemAccess (.write pa data)) s = .next t ∧
        Spec.Logged s t { kind := 12, unit := pa / 2 ^ 37 % 16, addr := pa })) ∧
  (∀ (s : State), let m := s.mbox
    (m.arg ≤ 67108864 → exec .mboxOpen s = .next { s with mbox := Spec.answered { m with image := some (m.arg, []) } 0 }) ∧
    (67108864 < m.arg → exec .mboxOpen s = .next { s with mbox := Spec.answered m 2 }) ∧
    (∀ n bs, m.image = some (n, bs) → m.arg ≠ 0 → m.arg ≤ 32768 → bs.length + m.arg ≤ n →
      let now := { m with image := some (n, bs ++ (List.range m.arg).map (fun i => m.window.over i 0)) }
      exec .mboxAppend s = .next { s with mbox := Spec.answered now 0 }) ∧
    (m.image ≠ none → exec .mboxDiscard s = .next { s with mbox := Spec.answered { m with image := none } 0 }) ∧
    (m.image = none → exec .mboxAppend s = .next { s with mbox := Spec.answered m 1 } ∧
      exec .mboxVerifyStore s = .next { s with mbox := Spec.answered m 1 } ∧
      exec .mboxDiscard s = .next { s with mbox := Spec.answered m 1 }) ∧
    (∀ n bs, m.image = some (n, bs) → verifyCode s.minVersion n bs ≠ 0 → ∃ t, exec .mboxVerifyStore s = .next t ∧
      t.mbox = Spec.answered { m with image := none } (verifyCode s.minVersion n bs) ∧ t.stored = s.stored ∧
      Spec.Logged s t { kind := 13, unit := 15, sub := verifyCode s.minVersion n bs }) ∧
    (∀ n bs, m.image = some (n, bs) → verifyCode s.minVersion n bs = 0 → s.recovery = false → ∃ t,
      exec .mboxVerifyStore s = .next t ∧ t = { s with mbox := Spec.answered { m with image := none } 0, stored := t.stored } ∧
      ⟨fieldAt bs 4 4, fieldAt bs 8 8, (bs.drop 128).take (fieldAt bs 16 8), (bs.drop 24).take 57,
        bs.drop (128 + fieldAt bs 16 8)⟩ ∈ t.stored ∧
      ∀ i ∈ s.stored, i.kind ≠ fieldAt bs 4 4 → i ∈ t.stored)) ∧
  (∀ (s : State) (nonce : List Byte), nonce.length = 32 → 6 ≤ s.bringUp ∨ s.recovery = true →
    let is := s.images.map (fun i => (i.kind, i.version, Config.shake256 i.body))
    ∃ sg, let report := .report nonce Config.stepping s.features s.regrows is s.time sg Config.identityCert
      exec (.doeAttestation nonce) s = .next { s with out := report :: s.out }) ∧
  (∀ (s : State), ∃ t, exec .functionLevelReset s = .next t ∧ t.surveyOn = false ∧ t.sampleOn = false ∧ t.traceOn = false ∧
    t.aspaces = s.aspaces ∧ t.heaps = s.heaps ∧ t.images = s.images ∧ t.stored = s.stored ∧
    (∀ q, q < 128 → (t.queue q).enable = false ∧ (t.queue q).down = true ∧ (t.queue q).unanswered = [] ∧
      (t.queue q).error = 17) ∧
    ∀ n l, s.launch n = some l → l.queue < 128 → ∃ m, t.launch n = some m ∧ m.complete = true) ∧
  (∀ (s : State) (b : Boot), (b.romOk = false ∨ ∃ i ∈ s.stored, i.kind = 0 ∧ imageGood s.minVersion i = false) →
    ∃ t, exec (.coldReset b) s = .next t ∧ t.recovery = true ∧ t.images = [] ∧ t.hostLinks = [0] ∧ t.cxl = false ∧
      t.bringUp = State.reset.bringUp ∧ t.minVersion = s.minVersion) ∧
  (∀ (s : State) (b : Boot), b.romOk = true → b.imagesOk = true → b.memOk = true →
    (∀ i, i ∈ s.stored ∨ i ∈ b.images → imageGood s.minVersion i = true) →
    let rows := fun c => 1024 - 128 * ((List.range 8).filter (fun k => b.bankOut.contains (c, k))).length
    ∃ t, exec (.coldReset b) s = .next t ∧ t.bringUp = 7 ∧ t.recovery = false ∧ t.fatal = false ∧ t.power.on = true ∧
      t.groups = [] ∧ t.crews = [] ∧ t.launches = [] ∧ t.queues = [] ∧ t.aspaces = [] ∧ t.cycle = 0 ∧ t.time = 0 ∧
      (∀ c, c < Config.cores → t.rows ≤ rows c) ∧ (t.rows = 1024 ∨ ∃ c, c < Config.cores ∧ t.rows = rows c) ∧
      t.coresReduced = ((List.range Config.cores).filter (fun c => rows c ≠ 1024)).length ∧ t.features = 0xFFFF ∧ t.coordX = b.coordX ∧ t.coordY = b.coordY ∧ t.hostLinks = b.links ∧
      t.mgmt = b.mgmt ∧ t.contextBase = b.ctxDie * 2 ^ 37 + 0x10000000 ∧
      (∀ c, (t.core c).level = 0 ∧ (t.core c).lmem = [] ∧ ∀ n, (t.bench c n).owner = none) ∧
      (∀ p, (t.port p).trained = decide (p ∈ b.ports)) ∧ (∀ i ∈ s.stored, i ∈ t.stored) ∧
      ∀ i ∈ t.images, i ∈ t.stored ∧ i.version ≤ t.minVersion.getD i.kind 0)

/-! ### The whole machine -/

/-- R174, R190, R191: encoder and decoder agree. The word of a well-formed instruction decodes to it, with every operand,
whatever bytes follow; a word that decodes is the word of the well-formed instruction it decodes to, so no two words stand
for one instruction. -/
def Obligations.EncodeAndDecodeAgree : Prop :=
  (∀ (i : Instr) (w : Nat) (rest : List Byte), i.wf = true → encode i = some w →
    w < 2 ^ 32 ∧ decodeWord w = .ok i ∧ decode (bytesOfWord w ++ rest) = .ok (i, rest)) ∧
  (∀ (i : Instr) (w : Nat), w < 2 ^ 32 → decodeWord w = .ok i → i.wf = true ∧ encode i = some w)

/-- R190 to R207: words written out from the encodings of the spec, and words that R191 makes illegal. -/
def Obligations.WordsDecode : Prop :=
  decodeWord 0x20820001 = .ok (.iaddImm 8 8 0 1) ∧ decodeWord 0x34618401 = .ok (.shrNImm 6 6 0 1) ∧
  decodeWord 0x0C118909 = .ok (.icmp 1 6 9 .n32 .ne) ∧ decodeWord 0x40818700 = .ok (.fadd 8 6 7 0 .f32) ∧
  decodeWord 0x5840890D = .ok (.cvt 4 2 .f32 0 false .ta8) ∧ decodeWord 0x6481CB1C = .ok (.shfl 8 7 11 7 0) ∧
  decodeWord 0xD04FFFFD = .ok (.br .t 1 0x7FFFD) ∧ decodeWord 0x80708C3E = .ok (.ldG 7 2 0 .f32 none 62) ∧
  decodeWord 0xB1408C60 = .ok (.atomCas 20 2 12 .dev .unp .n32) ∧ decodeWord 0xCC000010 = .ok (.txb 16) ∧
  decodeWord 0xC0000013 = .ok (.fenceRel .dev) ∧ decodeWord 0xE0400800 = .ok (.getc 4 .time) ∧
  decodeWord 0xE41C1460 = .ok (.mmq 1 3 5 6 .ta8) ∧ decodeWord 0xFA0003FF = .ok (.hintYield 1023) ∧
  decodeWord 0x814109C0 = .error .unassigned ∧ decodeWord 0xCCC00001 = .error .unassigned

/-- R37, R232, R254, R338: a step that offers issue to a group runs the instruction that the four bytes at its PC decode to:
`exec` of it with that issue noted, then the trace. A captured word of an xir runs in the same way; a word that decodes to
nothing raises the illegal-instruction trap (R191). An event that the agenda names is `exec` of it. The bytes are those in
memory, with the word of the launch's snapshot where they agree (R338 lets a rewritten word read as either); a page whose
translation has been dropped is fetched again first (log entry 124). A cycle ends only when nothing that is due in it, no offer
and no walk or sample is left (R38, R162, R317, R344, R422, R451). The agenda is the model's field, log entry 7. -/
def Obligations.StepRunsTheDecodedInstruction : Prop :=
  (∀ (s : State) (core f a : Nat) (r : List Move) (g : Group) (c : Cur) (l : Launch) (i : Instr),
    s.agenda = .issue core :: r →
    let s0 := { s with agenda := r }
    let s1 := s0.markOffer core f
    let bs := s1.readMem a 4
    let c1 := { c with word := wordOfBytes (bs.getD 0 0) (bs.getD 1 0) (bs.getD 2 0) (bs.getD 3 0) }
    s0.offer core = some f → s1.group core f = some g → g.replay = [] → nextIssue core f g = some (c, false) →
    s1.launchOf g = some l → c.pc % 4 = 0 → c.pc < 2 ^ 56 → s1.probe g false .read [(c.pc, 4)] = .ready →
    s1.missing core (s1.aspaceOf g) [(c.pc, 4)] = [] → (s1.space l.aspace).pa c.pc = some a → (∀ w, l.snap c.pc = some w → w = c1.word) → decode bs = .ok (i, []) →
    step s = onNext (fun t => traceStep s1 { t with cur := none } (some (c1, i))) (exec i { s1 with cur := some c1 })) ∧
  (∀ (s : State) (core f : Nat) (r : List Move) (g : Group) (c : Cur) (i : Instr),
    s.agenda = .issue core :: r →
    let s0 := { s with agenda := r }
    let s1 := s0.markOffer core f
    s0.offer core = some f → s1.group core f = some g → g.replay = [] → nextIssue core f g = some (c, true) →
    decodeWord c.word = .ok i →
    step s = onNext (fun t => traceStep s1 { t with cur := none } (some (c, i))) (exec i { s1 with cur := some c })) ∧
  (∀ (s : State) (core f : Nat) (r : List Move) (g : Group) (c : Cur) (w : Nat),
    s.agenda = .issue core :: r →
    let s0 := { s with agenda := r }
    let s1 := s0.markOffer core f
    let c1 := { c with word := w }
    s0.offer core = some f → s1.group core f = some g → g.replay = [] → nextIssue core f g = some (c, false) →
    s1.fetch g c.pc = .word w →
    let s2 := s1.fetched g c.pc
    let missing := s1.missing core (s1.aspaceOf g) [(c.pc, 4)]
    (missing ≠ [] → step s = .next (s1.walkPages core f missing)) ∧
    (∀ i, missing = [] → decodeWord w = .ok i →
      step s = onNext (fun t => traceStep s2 { t with cur := none } (some (c1, i))) (exec i { s2 with cur := some c1 })) ∧
    (∀ e, missing = [] → decodeWord w = .error e → step s = .next (traceStep s2 (s2.settle (s2.issOf c1 g) {} (.trap 1 0 0 0)) none))) ∧
  (∀ (s : State) (i : Instr) (r : List Move), s.agenda = .event i :: r → encode i = none →
    step s = onNext (fun t => traceStep { s with agenda := r } t none) (exec i { s with agenda := r })) ∧
  (∀ (s : State) (core : Nat), s.agenda = [] → s.firstTimed = none → s.firstChange s.ownMoves = none →
    s.firstCommand s.busyQueues = none → s.firstOffer = some core → step s = step { s with agenda := [.issue core] }) ∧
  (∀ (s : State) (r : List Move), s.agenda = .tick :: r →
    let s0 := { s with agenda := r }
    let stays := fun t : State => { t with agenda := .tick :: t.agenda }
    (∀ t, s0.firstTimed = some t → step s = .next (stays (traceStep s0 t none))) ∧
    (∀ core, s0.firstTimed = none → s0.firstOffer = some core →
      step s = onNext stays (step { s with agenda := .issue core :: r })) ∧
    (∀ t, s0.firstTimed = none → s0.firstOffer = none → s0.firstChange s0.lateMoves = some t → step s = .next (stays t)) ∧
    (s0.firstTimed = none → s0.firstOffer = none → s0.firstChange s0.lateMoves = none → step s = .next s0.tick ∧
      s0.tick.cycle = s.cycle + 1))

/-- No instruction, command or event of the table is refused, and no step stops: from every state a step answers a next state.
That an access of the device itself to an address that no memory die populates stops nothing is the model's choice, log entry 96. -/
def Obligations.EveryStepAnswers : Prop :=
  (∀ s : State, ∃ t, step s = .next t) ∧
  (∀ (i : Instr) (s : State) (r : Refusal), exec i s ≠ .refused r) ∧
  (∀ (i : Instr) (s : State), encode i = none → ∃ t, exec i s = .next t) ∧
  (∀ (i : Instr) (s : State) (c : Cur) (g : Group), s.cur = some c → s.group c.core c.frame = some g → ∃ t, exec i s = .next t)

/-- The invariant of every step, from every state that has it: global memory and the local stores stay in canonical form, and
no group and no core comes to stand twice (R28, R98: one context for each group, one store for each core). -/
def Obligations.StepsKeepTheMachineSound : Prop :=
  ∀ (s t : State), Sound s → step s = .next t → Sound t

/-- R25, R305, R359, R381, R411, R423, R425, R439, R444 to R446: what cold reset leaves, as the host reads it where it stands in a
register. Registers whose reset value is latched from fuses, boot configuration or the board are not named. The invariant of
every step holds. -/
def Obligations.ResetState : Prop :=
  Sound State.reset ∧ State.reset.time = 0 ∧ State.reset.groups = [] ∧ State.reset.crews = [] ∧ State.reset.launches = [] ∧
  (∀ q off, (State.reset.queue q).readReg off = 0) ∧
  (∀ p off, (State.reset.port p).readReg off = if off = 0x18 then 40 + 200 * 2 ^ 12 + 0x100000 * 2 ^ 32 else 0) ∧
  State.reset.readReg 0x40000 = 32768 + 32 * 2 ^ 16 ∧
  State.reset.readReg 0x40010 = 400 + 400 * 2 ^ 12 + 3200 * 2 ^ 24 ∧ State.reset.readReg 0x40018 = 0 ∧
  State.reset.readReg 0x40020 = 7 ∧ State.reset.readReg 0x40030 = 3000000 ∧ State.reset.readReg 0x40038 = 1 + 4 * 2 ^ 8 ∧
  State.reset.readReg 0x40040 = 95 + 105 * 2 ^ 8 ∧
  (∀ off, 0x100 < off → off < 0x200 → State.reset.readReg off = 0) ∧
  (∀ off, 0x50000 ≤ off → off < 0x60000 → State.reset.readReg off = 0) ∧
  State.reset.readReg 0x60000 = 16 ∧ State.reset.readReg 0x60020 = 14 + 2 ^ 32 ∧ State.reset.readReg 0x60040 = 16 ∧
  (∀ c, (State.reset.core c).level = 0) ∧ (∀ d, (State.reset.die d).bucket = 0) ∧ State.reset.power.bucket = 0 ∧
  (∀ c a, (State.reset.core c).lmem.read a = 0) ∧ (∀ c b i j, (State.reset.bench c b).elem i j = 0)
end

