-- ==== Sys2Proof/Laws/State.lean ====
section
/-! SUPPORT. One lemma for each field of State and each update of a unit: what the update leaves (true by rfl). -/

namespace Sys2Proof.Machine

/-! ### setGroup -/

@[simp] theorem State.setGroup_cycle (s : State) (c f : Nat) (g : Group) : (s.setGroup c f g).cycle = s.cycle := rfl
@[simp] theorem State.setGroup_time (s : State) (c f : Nat) (g : Group) : (s.setGroup c f g).time = s.time := rfl
@[simp] theorem State.setGroup_timeFrac (s : State) (c f : Nat) (g : Group) : (s.setGroup c f g).timeFrac = s.timeFrac := rfl
@[simp] theorem State.setGroup_steer (s : State) (c f : Nat) (g : Group) : (s.setGroup c f g).steer = s.steer := rfl
@[simp] theorem State.setGroup_timeDebt (s : State) (c f : Nat) (g : Group) : (s.setGroup c f g).timeDebt = s.timeDebt := rfl
@[simp] theorem State.setGroup_mem (s : State) (c f : Nat) (g : Group) : (s.setGroup c f g).mem = s.mem := rfl
@[simp] theorem State.setGroup_poison (s : State) (c f : Nat) (g : Group) : (s.setGroup c f g).poison = s.poison := rfl
@[simp] theorem State.setGroup_aspaces (s : State) (c f : Nat) (g : Group) : (s.setGroup c f g).aspaces = s.aspaces := rfl
@[simp] theorem State.setGroup_dmas (s : State) (c f : Nat) (g : Group) : (s.setGroup c f g).dmas = s.dmas := rfl
@[simp] theorem State.setGroup_failedStaging (s : State) (c f : Nat) (g : Group) : (s.setGroup c f g).failedStaging = s.failedStaging := rfl
@[simp] theorem State.setGroup_stamp (s : State) (c f : Nat) (g : Group) : (s.setGroup c f g).stamp = s.stamp := rfl
@[simp] theorem State.setGroup_crews (s : State) (c f : Nat) (g : Group) : (s.setGroup c f g).crews = s.crews := rfl
@[simp] theorem State.setGroup_cohorts (s : State) (c f : Nat) (g : Group) : (s.setGroup c f g).cohorts = s.cohorts := rfl
@[simp] theorem State.setGroup_launches (s : State) (c f : Nat) (g : Group) : (s.setGroup c f g).launches = s.launches := rfl
@[simp] theorem State.setGroup_cores (s : State) (c f : Nat) (g : Group) : (s.setGroup c f g).cores = s.cores := rfl
@[simp] theorem State.setGroup_clusters (s : State) (c f : Nat) (g : Group) : (s.setGroup c f g).clusters = s.clusters := rfl
@[simp] theorem State.setGroup_dies (s : State) (c f : Nat) (g : Group) : (s.setGroup c f g).dies = s.dies := rfl
@[simp] theorem State.setGroup_nextId (s : State) (c f : Nat) (g : Group) : (s.setGroup c f g).nextId = s.nextId := rfl
@[simp] theorem State.setGroup_nextCrew (s : State) (c f : Nat) (g : Group) : (s.setGroup c f g).nextCrew = s.nextCrew := rfl
@[simp] theorem State.setGroup_nextCohort (s : State) (c f : Nat) (g : Group) : (s.setGroup c f g).nextCohort = s.nextCohort := rfl
@[simp] theorem State.setGroup_nextLaunch (s : State) (c f : Nat) (g : Group) : (s.setGroup c f g).nextLaunch = s.nextLaunch := rfl
@[simp] theorem State.setGroup_rotate (s : State) (c f : Nat) (g : Group) : (s.setGroup c f g).rotate = s.rotate := rfl
@[simp] theorem State.setGroup_features (s : State) (c f : Nat) (g : Group) : (s.setGroup c f g).features = s.features := rfl
@[simp] theorem State.setGroup_rows (s : State) (c f : Nat) (g : Group) : (s.setGroup c f g).rows = s.rows := rfl
@[simp] theorem State.setGroup_coresReduced (s : State) (c f : Nat) (g : Group) : (s.setGroup c f g).coresReduced = s.coresReduced := rfl
@[simp] theorem State.setGroup_bankOut (s : State) (c f : Nat) (g : Group) : (s.setGroup c f g).bankOut = s.bankOut := rfl
@[simp] theorem State.setGroup_contextBase (s : State) (c f : Nat) (g : Group) : (s.setGroup c f g).contextBase = s.contextBase := rfl
@[simp] theorem State.setGroup_preempt (s : State) (c f : Nat) (g : Group) : (s.setGroup c f g).preempt = s.preempt := rfl
@[simp] theorem State.setGroup_coordX (s : State) (c f : Nat) (g : Group) : (s.setGroup c f g).coordX = s.coordX := rfl
@[simp] theorem State.setGroup_coordY (s : State) (c f : Nat) (g : Group) : (s.setGroup c f g).coordY = s.coordY := rfl
@[simp] theorem State.setGroup_linkRoute (s : State) (c f : Nat) (g : Group) : (s.setGroup c f g).linkRoute = s.linkRoute := rfl
@[simp] theorem State.setGroup_memwinBase (s : State) (c f : Nat) (g : Group) : (s.setGroup c f g).memwinBase = s.memwinBase := rfl
@[simp] theorem State.setGroup_heaps (s : State) (c f : Nat) (g : Group) : (s.setGroup c f g).heaps = s.heaps := rfl
@[simp] theorem State.setGroup_queues (s : State) (c f : Nat) (g : Group) : (s.setGroup c f g).queues = s.queues := rfl
@[simp] theorem State.setGroup_ports (s : State) (c f : Nat) (g : Group) : (s.setGroup c f g).ports = s.ports := rfl
@[simp] theorem State.setGroup_msixTable (s : State) (c f : Nat) (g : Group) : (s.setGroup c f g).msixTable = s.msixTable := rfl
@[simp] theorem State.setGroup_msixPending (s : State) (c f : Nat) (g : Group) : (s.setGroup c f g).msixPending = s.msixPending := rfl
@[simp] theorem State.setGroup_power (s : State) (c f : Nat) (g : Group) : (s.setGroup c f g).power = s.power := rfl
@[simp] theorem State.setGroup_errlog (s : State) (c f : Nat) (g : Group) : (s.setGroup c f g).errlog = s.errlog := rfl
@[simp] theorem State.setGroup_mbox (s : State) (c f : Nat) (g : Group) : (s.setGroup c f g).mbox = s.mbox := rfl
@[simp] theorem State.setGroup_surveyK (s : State) (c f : Nat) (g : Group) : (s.setGroup c f g).surveyK = s.surveyK := rfl
@[simp] theorem State.setGroup_surveyOn (s : State) (c f : Nat) (g : Group) : (s.setGroup c f g).surveyOn = s.surveyOn := rfl
@[simp] theorem State.setGroup_survey (s : State) (c f : Nat) (g : Group) : (s.setGroup c f g).survey = s.survey := rfl
@[simp] theorem State.setGroup_surveyLostMark (s : State) (c f : Nat) (g : Group) : (s.setGroup c f g).surveyLostMark = s.surveyLostMark := rfl
@[simp] theorem State.setGroup_surveyLast (s : State) (c f : Nat) (g : Group) : (s.setGroup c f g).surveyLast = s.surveyLast := rfl
@[simp] theorem State.setGroup_counters (s : State) (c f : Nat) (g : Group) : (s.setGroup c f g).counters = s.counters := rfl
@[simp] theorem State.setGroup_sampleJ (s : State) (c f : Nat) (g : Group) : (s.setGroup c f g).sampleJ = s.sampleJ := rfl
@[simp] theorem State.setGroup_sampleOn (s : State) (c f : Nat) (g : Group) : (s.setGroup c f g).sampleOn = s.sampleOn := rfl
@[simp] theorem State.setGroup_sampleSeed (s : State) (c f : Nat) (g : Group) : (s.setGroup c f g).sampleSeed = s.sampleSeed := rfl
@[simp] theorem State.setGroup_sample (s : State) (c f : Nat) (g : Group) : (s.setGroup c f g).sample = s.sample := rfl
@[simp] theorem State.setGroup_traceSize (s : State) (c f : Nat) (g : Group) : (s.setGroup c f g).traceSize = s.traceSize := rfl
@[simp] theorem State.setGroup_traceOn (s : State) (c f : Nat) (g : Group) : (s.setGroup c f g).traceOn = s.traceOn := rfl
@[simp] theorem State.setGroup_traceBase (s : State) (c f : Nat) (g : Group) : (s.setGroup c f g).traceBase = s.traceBase := rfl
@[simp] theorem State.setGroup_hostLinks (s : State) (c f : Nat) (g : Group) : (s.setGroup c f g).hostLinks = s.hostLinks := rfl
@[simp] theorem State.setGroup_cxl (s : State) (c f : Nat) (g : Group) : (s.setGroup c f g).cxl = s.cxl := rfl
@[simp] theorem State.setGroup_spans (s : State) (c f : Nat) (g : Group) : (s.setGroup c f g).spans = s.spans := rfl
@[simp] theorem State.setGroup_exchanges (s : State) (c f : Nat) (g : Group) : (s.setGroup c f g).exchanges = s.exchanges := rfl
@[simp] theorem State.setGroup_mgmt (s : State) (c f : Nat) (g : Group) : (s.setGroup c f g).mgmt = s.mgmt := rfl
@[simp] theorem State.setGroup_flitSeq (s : State) (c f : Nat) (g : Group) : (s.setGroup c f g).flitSeq = s.flitSeq := rfl
@[simp] theorem State.setGroup_bindings (s : State) (c f : Nat) (g : Group) : (s.setGroup c f g).bindings = s.bindings := rfl
@[simp] theorem State.setGroup_binds (s : State) (c f : Nat) (g : Group) : (s.setGroup c f g).binds = s.binds := rfl
@[simp] theorem State.setGroup_colls (s : State) (c f : Nat) (g : Group) : (s.setGroup c f g).colls = s.colls := rfl
@[simp] theorem State.setGroup_staged (s : State) (c f : Nat) (g : Group) : (s.setGroup c f g).staged = s.staged := rfl
@[simp] theorem State.setGroup_refusedColl (s : State) (c f : Nat) (g : Group) : (s.setGroup c f g).refusedColl = s.refusedColl := rfl
@[simp] theorem State.setGroup_images (s : State) (c f : Nat) (g : Group) : (s.setGroup c f g).images = s.images := rfl
@[simp] theorem State.setGroup_stored (s : State) (c f : Nat) (g : Group) : (s.setGroup c f g).stored = s.stored := rfl
@[simp] theorem State.setGroup_minVersion (s : State) (c f : Nat) (g : Group) : (s.setGroup c f g).minVersion = s.minVersion := rfl
@[simp] theorem State.setGroup_boot (s : State) (c f : Nat) (g : Group) : (s.setGroup c f g).boot = s.boot := rfl
@[simp] theorem State.setGroup_bringUp (s : State) (c f : Nat) (g : Group) : (s.setGroup c f g).bringUp = s.bringUp := rfl
@[simp] theorem State.setGroup_recovery (s : State) (c f : Nat) (g : Group) : (s.setGroup c f g).recovery = s.recovery := rfl
@[simp] theorem State.setGroup_fatal (s : State) (c f : Nat) (g : Group) : (s.setGroup c f g).fatal = s.fatal := rfl
@[simp] theorem State.setGroup_out (s : State) (c f : Nat) (g : Group) : (s.setGroup c f g).out = s.out := rfl
@[simp] theorem State.setGroup_host (s : State) (c f : Nat) (g : Group) : (s.setGroup c f g).host = s.host := rfl
@[simp] theorem State.setGroup_agenda (s : State) (c f : Nat) (g : Group) : (s.setGroup c f g).agenda = s.agenda := rfl
@[simp] theorem State.setGroup_cur (s : State) (c f : Nat) (g : Group) : (s.setGroup c f g).cur = s.cur := rfl
@[simp] theorem State.setGroup_fresh (s : State) (c f : Nat) (g : Group) : (s.setGroup c f g).fresh = s.fresh := rfl

/-! ### delGroup -/

@[simp] theorem State.delGroup_cycle (s : State) (c f : Nat) : (s.delGroup c f).cycle = s.cycle := rfl
@[simp] theorem State.delGroup_time (s : State) (c f : Nat) : (s.delGroup c f).time = s.time := rfl
@[simp] theorem State.delGroup_timeFrac (s : State) (c f : Nat) : (s.delGroup c f).timeFrac = s.timeFrac := rfl
@[simp] theorem State.delGroup_steer (s : State) (c f : Nat) : (s.delGroup c f).steer = s.steer := rfl
@[simp] theorem State.delGroup_timeDebt (s : State) (c f : Nat) : (s.delGroup c f).timeDebt = s.timeDebt := rfl
@[simp] theorem State.delGroup_mem (s : State) (c f : Nat) : (s.delGroup c f).mem = s.mem := rfl
@[simp] theorem State.delGroup_poison (s : State) (c f : Nat) : (s.delGroup c f).poison = s.poison := rfl
@[simp] theorem State.delGroup_aspaces (s : State) (c f : Nat) : (s.delGroup c f).aspaces = s.aspaces := rfl
@[simp] theorem State.delGroup_dmas (s : State) (c f : Nat) : (s.delGroup c f).dmas = s.dmas := rfl
@[simp] theorem State.delGroup_failedStaging (s : State) (c f : Nat) : (s.delGroup c f).failedStaging = s.failedStaging := rfl
@[simp] theorem State.delGroup_stamp (s : State) (c f : Nat) : (s.delGroup c f).stamp = s.stamp := rfl
@[simp] theorem State.delGroup_crews (s : State) (c f : Nat) : (s.delGroup c f).crews = s.crews := rfl
@[simp] theorem State.delGroup_cohorts (s : State) (c f : Nat) : (s.delGroup c f).cohorts = s.cohorts := rfl
@[simp] theorem State.delGroup_launches (s : State) (c f : Nat) : (s.delGroup c f).launches = s.launches := rfl
@[simp] theorem State.delGroup_cores (s : State) (c f : Nat) : (s.delGroup c f).cores = s.cores := rfl
@[simp] theorem State.delGroup_clusters (s : State) (c f : Nat) : (s.delGroup c f).clusters = s.clusters := rfl
@[simp] theorem State.delGroup_dies (s : State) (c f : Nat) : (s.delGroup c f).dies = s.dies := rfl
@[simp] theorem State.delGroup_nextId (s : State) (c f : Nat) : (s.delGroup c f).nextId = s.nextId := rfl
@[simp] theorem State.delGroup_nextCrew (s : State) (c f : Nat) : (s.delGroup c f).nextCrew = s.nextCrew := rfl
@[simp] theorem State.delGroup_nextCohort (s : State) (c f : Nat) : (s.delGroup c f).nextCohort = s.nextCohort := rfl
@[simp] theorem State.delGroup_nextLaunch (s : State) (c f : Nat) : (s.delGroup c f).nextLaunch = s.nextLaunch := rfl
@[simp] theorem State.delGroup_rotate (s : State) (c f : Nat) : (s.delGroup c f).rotate = s.rotate := rfl
@[simp] theorem State.delGroup_features (s : State) (c f : Nat) : (s.delGroup c f).features = s.features := rfl
@[simp] theorem State.delGroup_rows (s : State) (c f : Nat) : (s.delGroup c f).rows = s.rows := rfl
@[simp] theorem State.delGroup_coresReduced (s : State) (c f : Nat) : (s.delGroup c f).coresReduced = s.coresReduced := rfl
@[simp] theorem State.delGroup_bankOut (s : State) (c f : Nat) : (s.delGroup c f).bankOut = s.bankOut := rfl
@[simp] theorem State.delGroup_contextBase (s : State) (c f : Nat) : (s.delGroup c f).contextBase = s.contextBase := rfl
@[simp] theorem State.delGroup_preempt (s : State) (c f : Nat) : (s.delGroup c f).preempt = s.preempt := rfl
@[simp] theorem State.delGroup_coordX (s : State) (c f : Nat) : (s.delGroup c f).coordX = s.coordX := rfl
@[simp] theorem State.delGroup_coordY (s : State) (c f : Nat) : (s.delGroup c f).coordY = s.coordY := rfl
@[simp] theorem State.delGroup_linkRoute (s : State) (c f : Nat) : (s.delGroup c f).linkRoute = s.linkRoute := rfl
@[simp] theorem State.delGroup_memwinBase (s : State) (c f : Nat) : (s.delGroup c f).memwinBase = s.memwinBase := rfl
@[simp] theorem State.delGroup_heaps (s : State) (c f : Nat) : (s.delGroup c f).heaps = s.heaps := rfl
@[simp] theorem State.delGroup_queues (s : State) (c f : Nat) : (s.delGroup c f).queues = s.queues := rfl
@[simp] theorem State.delGroup_ports (s : State) (c f : Nat) : (s.delGroup c f).ports = s.ports := rfl
@[simp] theorem State.delGroup_msixTable (s : State) (c f : Nat) : (s.delGroup c f).msixTable = s.msixTable := rfl
@[simp] theorem State.delGroup_msixPending (s : State) (c f : Nat) : (s.delGroup c f).msixPending = s.msixPending := rfl
@[simp] theorem State.delGroup_power (s : State) (c f : Nat) : (s.delGroup c f).power = s.power := rfl
@[simp] theorem State.delGroup_errlog (s : State) (c f : Nat) : (s.delGroup c f).errlog = s.errlog := rfl
@[simp] theorem State.delGroup_mbox (s : State) (c f : Nat) : (s.delGroup c f).mbox = s.mbox := rfl
@[simp] theorem State.delGroup_surveyK (s : State) (c f : Nat) : (s.delGroup c f).surveyK = s.surveyK := rfl
@[simp] theorem State.delGroup_surveyOn (s : State) (c f : Nat) : (s.delGroup c f).surveyOn = s.surveyOn := rfl
@[simp] theorem State.delGroup_survey (s : State) (c f : Nat) : (s.delGroup c f).survey = s.survey := rfl
@[simp] theorem State.delGroup_surveyLostMark (s : State) (c f : Nat) : (s.delGroup c f).surveyLostMark = s.surveyLostMark := rfl
@[simp] theorem State.delGroup_surveyLast (s : State) (c f : Nat) : (s.delGroup c f).surveyLast = s.surveyLast := rfl
@[simp] theorem State.delGroup_counters (s : State) (c f : Nat) : (s.delGroup c f).counters = s.counters := rfl
@[simp] theorem State.delGroup_sampleJ (s : State) (c f : Nat) : (s.delGroup c f).sampleJ = s.sampleJ := rfl
@[simp] theorem State.delGroup_sampleOn (s : State) (c f : Nat) : (s.delGroup c f).sampleOn = s.sampleOn := rfl
@[simp] theorem State.delGroup_sampleSeed (s : State) (c f : Nat) : (s.delGroup c f).sampleSeed = s.sampleSeed := rfl
@[simp] theorem State.delGroup_sample (s : State) (c f : Nat) : (s.delGroup c f).sample = s.sample := rfl
@[simp] theorem State.delGroup_traceSize (s : State) (c f : Nat) : (s.delGroup c f).traceSize = s.traceSize := rfl
@[simp] theorem State.delGroup_traceOn (s : State) (c f : Nat) : (s.delGroup c f).traceOn = s.traceOn := rfl
@[simp] theorem State.delGroup_traceBase (s : State) (c f : Nat) : (s.delGroup c f).traceBase = s.traceBase := rfl
@[simp] theorem State.delGroup_hostLinks (s : State) (c f : Nat) : (s.delGroup c f).hostLinks = s.hostLinks := rfl
@[simp] theorem State.delGroup_cxl (s : State) (c f : Nat) : (s.delGroup c f).cxl = s.cxl := rfl
@[simp] theorem State.delGroup_spans (s : State) (c f : Nat) : (s.delGroup c f).spans = s.spans := rfl
@[simp] theorem State.delGroup_exchanges (s : State) (c f : Nat) : (s.delGroup c f).exchanges = s.exchanges := rfl
@[simp] theorem State.delGroup_mgmt (s : State) (c f : Nat) : (s.delGroup c f).mgmt = s.mgmt := rfl
@[simp] theorem State.delGroup_flitSeq (s : State) (c f : Nat) : (s.delGroup c f).flitSeq = s.flitSeq := rfl
@[simp] theorem State.delGroup_bindings (s : State) (c f : Nat) : (s.delGroup c f).bindings = s.bindings := rfl
@[simp] theorem State.delGroup_binds (s : State) (c f : Nat) : (s.delGroup c f).binds = s.binds := rfl
@[simp] theorem State.delGroup_colls (s : State) (c f : Nat) : (s.delGroup c f).colls = s.colls := rfl
@[simp] theorem State.delGroup_staged (s : State) (c f : Nat) : (s.delGroup c f).staged = s.staged := rfl
@[simp] theorem State.delGroup_refusedColl (s : State) (c f : Nat) : (s.delGroup c f).refusedColl = s.refusedColl := rfl
@[simp] theorem State.delGroup_images (s : State) (c f : Nat) : (s.delGroup c f).images = s.images := rfl
@[simp] theorem State.delGroup_stored (s : State) (c f : Nat) : (s.delGroup c f).stored = s.stored := rfl
@[simp] theorem State.delGroup_minVersion (s : State) (c f : Nat) : (s.delGroup c f).minVersion = s.minVersion := rfl
@[simp] theorem State.delGroup_boot (s : State) (c f : Nat) : (s.delGroup c f).boot = s.boot := rfl
@[simp] theorem State.delGroup_bringUp (s : State) (c f : Nat) : (s.delGroup c f).bringUp = s.bringUp := rfl
@[simp] theorem State.delGroup_recovery (s : State) (c f : Nat) : (s.delGroup c f).recovery = s.recovery := rfl
@[simp] theorem State.delGroup_fatal (s : State) (c f : Nat) : (s.delGroup c f).fatal = s.fatal := rfl
@[simp] theorem State.delGroup_out (s : State) (c f : Nat) : (s.delGroup c f).out = s.out := rfl
@[simp] theorem State.delGroup_host (s : State) (c f : Nat) : (s.delGroup c f).host = s.host := rfl
@[simp] theorem State.delGroup_agenda (s : State) (c f : Nat) : (s.delGroup c f).agenda = s.agenda := rfl
@[simp] theorem State.delGroup_cur (s : State) (c f : Nat) : (s.delGroup c f).cur = s.cur := rfl
@[simp] theorem State.delGroup_fresh (s : State) (c f : Nat) : (s.delGroup c f).fresh = s.fresh := rfl

/-! ### setCore -/

@[simp] theorem State.setCore_cycle (s : State) (c : Nat) (x : Core) : (s.setCore c x).cycle = s.cycle := rfl
@[simp] theorem State.setCore_time (s : State) (c : Nat) (x : Core) : (s.setCore c x).time = s.time := rfl
@[simp] theorem State.setCore_timeFrac (s : State) (c : Nat) (x : Core) : (s.setCore c x).timeFrac = s.timeFrac := rfl
@[simp] theorem State.setCore_steer (s : State) (c : Nat) (x : Core) : (s.setCore c x).steer = s.steer := rfl
@[simp] theorem State.setCore_timeDebt (s : State) (c : Nat) (x : Core) : (s.setCore c x).timeDebt = s.timeDebt := rfl
@[simp] theorem State.setCore_mem (s : State) (c : Nat) (x : Core) : (s.setCore c x).mem = s.mem := rfl
@[simp] theorem State.setCore_poison (s : State) (c : Nat) (x : Core) : (s.setCore c x).poison = s.poison := rfl
@[simp] theorem State.setCore_aspaces (s : State) (c : Nat) (x : Core) : (s.setCore c x).aspaces = s.aspaces := rfl
@[simp] theorem State.setCore_dmas (s : State) (c : Nat) (x : Core) : (s.setCore c x).dmas = s.dmas := rfl
@[simp] theorem State.setCore_failedStaging (s : State) (c : Nat) (x : Core) : (s.setCore c x).failedStaging = s.failedStaging := rfl
@[simp] theorem State.setCore_stamp (s : State) (c : Nat) (x : Core) : (s.setCore c x).stamp = s.stamp := rfl
@[simp] theorem State.setCore_groups (s : State) (c : Nat) (x : Core) : (s.setCore c x).groups = s.groups := rfl
@[simp] theorem State.setCore_crews (s : State) (c : Nat) (x : Core) : (s.setCore c x).crews = s.crews := rfl
@[simp] theorem State.setCore_cohorts (s : State) (c : Nat) (x : Core) : (s.setCore c x).cohorts = s.cohorts := rfl
@[simp] theorem State.setCore_launches (s : State) (c : Nat) (x : Core) : (s.setCore c x).launches = s.launches := rfl
@[simp] theorem State.setCore_clusters (s : State) (c : Nat) (x : Core) : (s.setCore c x).clusters = s.clusters := rfl
@[simp] theorem State.setCore_dies (s : State) (c : Nat) (x : Core) : (s.setCore c x).dies = s.dies := rfl
@[simp] theorem State.setCore_nextId (s : State) (c : Nat) (x : Core) : (s.setCore c x).nextId = s.nextId := rfl
@[simp] theorem State.setCore_nextCrew (s : State) (c : Nat) (x : Core) : (s.setCore c x).nextCrew = s.nextCrew := rfl
@[simp] theorem State.setCore_nextCohort (s : State) (c : Nat) (x : Core) : (s.setCore c x).nextCohort = s.nextCohort := rfl
@[simp] theorem State.setCore_nextLaunch (s : State) (c : Nat) (x : Core) : (s.setCore c x).nextLaunch = s.nextLaunch := rfl
@[simp] theorem State.setCore_rotate (s : State) (c : Nat) (x : Core) : (s.setCore c x).rotate = s.rotate := rfl
@[simp] theorem State.setCore_features (s : State) (c : Nat) (x : Core) : (s.setCore c x).features = s.features := rfl
@[simp] theorem State.setCore_rows (s : State) (c : Nat) (x : Core) : (s.setCore c x).rows = s.rows := rfl
@[simp] theorem State.setCore_coresReduced (s : State) (c : Nat) (x : Core) : (s.setCore c x).coresReduced = s.coresReduced := rfl
@[simp] theorem State.setCore_bankOut (s : State) (c : Nat) (x : Core) : (s.setCore c x).bankOut = s.bankOut := rfl
@[simp] theorem State.setCore_contextBase (s : State) (c : Nat) (x : Core) : (s.setCore c x).contextBase = s.contextBase := rfl
@[simp] theorem State.setCore_preempt (s : State) (c : Nat) (x : Core) : (s.setCore c x).preempt = s.preempt := rfl
@[simp] theorem State.setCore_coordX (s : State) (c : Nat) (x : Core) : (s.setCore c x).coordX = s.coordX := rfl
@[simp] theorem State.setCore_coordY (s : State) (c : Nat) (x : Core) : (s.setCore c x).coordY = s.coordY := rfl
@[simp] theorem State.setCore_linkRoute (s : State) (c : Nat) (x : Core) : (s.setCore c x).linkRoute = s.linkRoute := rfl
@[simp] theorem State.setCore_memwinBase (s : State) (c : Nat) (x : Core) : (s.setCore c x).memwinBase = s.memwinBase := rfl
@[simp] theorem State.setCore_heaps (s : State) (c : Nat) (x : Core) : (s.setCore c x).heaps = s.heaps := rfl
@[simp] theorem State.setCore_queues (s : State) (c : Nat) (x : Core) : (s.setCore c x).queues = s.queues := rfl
@[simp] theorem State.setCore_ports (s : State) (c : Nat) (x : Core) : (s.setCore c x).ports = s.ports := rfl
@[simp] theorem State.setCore_msixTable (s : State) (c : Nat) (x : Core) : (s.setCore c x).msixTable = s.msixTable := rfl
@[simp] theorem State.setCore_msixPending (s : State) (c : Nat) (x : Core) : (s.setCore c x).msixPending = s.msixPending := rfl
@[simp] theorem State.setCore_power (s : State) (c : Nat) (x : Core) : (s.setCore c x).power = s.power := rfl
@[simp] theorem State.setCore_errlog (s : State) (c : Nat) (x : Core) : (s.setCore c x).errlog = s.errlog := rfl
@[simp] theorem State.setCore_mbox (s : State) (c : Nat) (x : Core) : (s.setCore c x).mbox = s.mbox := rfl
@[simp] theorem State.setCore_surveyK (s : State) (c : Nat) (x : Core) : (s.setCore c x).surveyK = s.surveyK := rfl
@[simp] theorem State.setCore_surveyOn (s : State) (c : Nat) (x : Core) : (s.setCore c x).surveyOn = s.surveyOn := rfl
@[simp] theorem State.setCore_survey (s : State) (c : Nat) (x : Core) : (s.setCore c x).survey = s.survey := rfl
@[simp] theorem State.setCore_surveyLostMark (s : State) (c : Nat) (x : Core) : (s.setCore c x).surveyLostMark = s.surveyLostMark := rfl
@[simp] theorem State.setCore_surveyLast (s : State) (c : Nat) (x : Core) : (s.setCore c x).surveyLast = s.surveyLast := rfl
@[simp] theorem State.setCore_counters (s : State) (c : Nat) (x : Core) : (s.setCore c x).counters = s.counters := rfl
@[simp] theorem State.setCore_sampleJ (s : State) (c : Nat) (x : Core) : (s.setCore c x).sampleJ = s.sampleJ := rfl
@[simp] theorem State.setCore_sampleOn (s : State) (c : Nat) (x : Core) : (s.setCore c x).sampleOn = s.sampleOn := rfl
@[simp] theorem State.setCore_sampleSeed (s : State) (c : Nat) (x : Core) : (s.setCore c x).sampleSeed = s.sampleSeed := rfl
@[simp] theorem State.setCore_sample (s : State) (c : Nat) (x : Core) : (s.setCore c x).sample = s.sample := rfl
@[simp] theorem State.setCore_traceSize (s : State) (c : Nat) (x : Core) : (s.setCore c x).traceSize = s.traceSize := rfl
@[simp] theorem State.setCore_traceOn (s : State) (c : Nat) (x : Core) : (s.setCore c x).traceOn = s.traceOn := rfl
@[simp] theorem State.setCore_traceBase (s : State) (c : Nat) (x : Core) : (s.setCore c x).traceBase = s.traceBase := rfl
@[simp] theorem State.setCore_hostLinks (s : State) (c : Nat) (x : Core) : (s.setCore c x).hostLinks = s.hostLinks := rfl
@[simp] theorem State.setCore_cxl (s : State) (c : Nat) (x : Core) : (s.setCore c x).cxl = s.cxl := rfl
@[simp] theorem State.setCore_spans (s : State) (c : Nat) (x : Core) : (s.setCore c x).spans = s.spans := rfl
@[simp] theorem State.setCore_exchanges (s : State) (c : Nat) (x : Core) : (s.setCore c x).exchanges = s.exchanges := rfl
@[simp] theorem State.setCore_mgmt (s : State) (c : Nat) (x : Core) : (s.setCore c x).mgmt = s.mgmt := rfl
@[simp] theorem State.setCore_flitSeq (s : State) (c : Nat) (x : Core) : (s.setCore c x).flitSeq = s.flitSeq := rfl
@[simp] theorem State.setCore_bindings (s : State) (c : Nat) (x : Core) : (s.setCore c x).bindings = s.bindings := rfl
@[simp] theorem State.setCore_binds (s : State) (c : Nat) (x : Core) : (s.setCore c x).binds = s.binds := rfl
@[simp] theorem State.setCore_colls (s : State) (c : Nat) (x : Core) : (s.setCore c x).colls = s.colls := rfl
@[simp] theorem State.setCore_staged (s : State) (c : Nat) (x : Core) : (s.setCore c x).staged = s.staged := rfl
@[simp] theorem State.setCore_refusedColl (s : State) (c : Nat) (x : Core) : (s.setCore c x).refusedColl = s.refusedColl := rfl
@[simp] theorem State.setCore_images (s : State) (c : Nat) (x : Core) : (s.setCore c x).images = s.images := rfl
@[simp] theorem State.setCore_stored (s : State) (c : Nat) (x : Core) : (s.setCore c x).stored = s.stored := rfl
@[simp] theorem State.setCore_minVersion (s : State) (c : Nat) (x : Core) : (s.setCore c x).minVersion = s.minVersion := rfl
@[simp] theorem State.setCore_boot (s : State) (c : Nat) (x : Core) : (s.setCore c x).boot = s.boot := rfl
@[simp] theorem State.setCore_bringUp (s : State) (c : Nat) (x : Core) : (s.setCore c x).bringUp = s.bringUp := rfl
@[simp] theorem State.setCore_recovery (s : State) (c : Nat) (x : Core) : (s.setCore c x).recovery = s.recovery := rfl
@[simp] theorem State.setCore_fatal (s : State) (c : Nat) (x : Core) : (s.setCore c x).fatal = s.fatal := rfl
@[simp] theorem State.setCore_out (s : State) (c : Nat) (x : Core) : (s.setCore c x).out = s.out := rfl
@[simp] theorem State.setCore_host (s : State) (c : Nat) (x : Core) : (s.setCore c x).host = s.host := rfl
@[simp] theorem State.setCore_agenda (s : State) (c : Nat) (x : Core) : (s.setCore c x).agenda = s.agenda := rfl
@[simp] theorem State.setCore_cur (s : State) (c : Nat) (x : Core) : (s.setCore c x).cur = s.cur := rfl
@[simp] theorem State.setCore_fresh (s : State) (c : Nat) (x : Core) : (s.setCore c x).fresh = s.fresh := rfl

/-! ### modCore -/

@[simp] theorem State.modCore_cycle (s : State) (c : Nat) (x : Core → Core) : (s.modCore c x).cycle = s.cycle := rfl
@[simp] theorem State.modCore_time (s : State) (c : Nat) (x : Core → Core) : (s.modCore c x).time = s.time := rfl
@[simp] theorem State.modCore_timeFrac (s : State) (c : Nat) (x : Core → Core) : (s.modCore c x).timeFrac = s.timeFrac := rfl
@[simp] theorem State.modCore_steer (s : State) (c : Nat) (x : Core → Core) : (s.modCore c x).steer = s.steer := rfl
@[simp] theorem State.modCore_timeDebt (s : State) (c : Nat) (x : Core → Core) : (s.modCore c x).timeDebt = s.timeDebt := rfl
@[simp] theorem State.modCore_mem (s : State) (c : Nat) (x : Core → Core) : (s.modCore c x).mem = s.mem := rfl
@[simp] theorem State.modCore_poison (s : State) (c : Nat) (x : Core → Core) : (s.modCore c x).poison = s.poison := rfl
@[simp] theorem State.modCore_aspaces (s : State) (c : Nat) (x : Core → Core) : (s.modCore c x).aspaces = s.aspaces := rfl
@[simp] theorem State.modCore_dmas (s : State) (c : Nat) (x : Core → Core) : (s.modCore c x).dmas = s.dmas := rfl
@[simp] theorem State.modCore_failedStaging (s : State) (c : Nat) (x : Core → Core) : (s.modCore c x).failedStaging = s.failedStaging := rfl
@[simp] theorem State.modCore_stamp (s : State) (c : Nat) (x : Core → Core) : (s.modCore c x).stamp = s.stamp := rfl
@[simp] theorem State.modCore_groups (s : State) (c : Nat) (x : Core → Core) : (s.modCore c x).groups = s.groups := rfl
@[simp] theorem State.modCore_crews (s : State) (c : Nat) (x : Core → Core) : (s.modCore c x).crews = s.crews := rfl
@[simp] theorem State.modCore_cohorts (s : State) (c : Nat) (x : Core → Core) : (s.modCore c x).cohorts = s.cohorts := rfl
@[simp] theorem State.modCore_launches (s : State) (c : Nat) (x : Core → Core) : (s.modCore c x).launches = s.launches := rfl
@[simp] theorem State.modCore_clusters (s : State) (c : Nat) (x : Core → Core) : (s.modCore c x).clusters = s.clusters := rfl
@[simp] theorem State.modCore_dies (s : State) (c : Nat) (x : Core → Core) : (s.modCore c x).dies = s.dies := rfl
@[simp] theorem State.modCore_nextId (s : State) (c : Nat) (x : Core → Core) : (s.modCore c x).nextId = s.nextId := rfl
@[simp] theorem State.modCore_nextCrew (s : State) (c : Nat) (x : Core → Core) : (s.modCore c x).nextCrew = s.nextCrew := rfl
@[simp] theorem State.modCore_nextCohort (s : State) (c : Nat) (x : Core → Core) : (s.modCore c x).nextCohort = s.nextCohort := rfl
@[simp] theorem State.modCore_nextLaunch (s : State) (c : Nat) (x : Core → Core) : (s.modCore c x).nextLaunch = s.nextLaunch := rfl
@[simp] theorem State.modCore_rotate (s : State) (c : Nat) (x : Core → Core) : (s.modCore c x).rotate = s.rotate := rfl
@[simp] theorem State.modCore_features (s : State) (c : Nat) (x : Core → Core) : (s.modCore c x).features = s.features := rfl
@[simp] theorem State.modCore_rows (s : State) (c : Nat) (x : Core → Core) : (s.modCore c x).rows = s.rows := rfl
@[simp] theorem State.modCore_coresReduced (s : State) (c : Nat) (x : Core → Core) : (s.modCore c x).coresReduced = s.coresReduced := rfl
@[simp] theorem State.modCore_bankOut (s : State) (c : Nat) (x : Core → Core) : (s.modCore c x).bankOut = s.bankOut := rfl
@[simp] theorem State.modCore_contextBase (s : State) (c : Nat) (x : Core → Core) : (s.modCore c x).contextBase = s.contextBase := rfl
@[simp] theorem State.modCore_preempt (s : State) (c : Nat) (x : Core → Core) : (s.modCore c x).preempt = s.preempt := rfl
@[simp] theorem State.modCore_coordX (s : State) (c : Nat) (x : Core → Core) : (s.modCore c x).coordX = s.coordX := rfl
@[simp] theorem State.modCore_coordY (s : State) (c : Nat) (x : Core → Core) : (s.modCore c x).coordY = s.coordY := rfl
@[simp] theorem State.modCore_linkRoute (s : State) (c : Nat) (x : Core → Core) : (s.modCore c x).linkRoute = s.linkRoute := rfl
@[simp] theorem State.modCore_memwinBase (s : State) (c : Nat) (x : Core → Core) : (s.modCore c x).memwinBase = s.memwinBase := rfl
@[simp] theorem State.modCore_heaps (s : State) (c : Nat) (x : Core → Core) : (s.modCore c x).heaps = s.heaps := rfl
@[simp] theorem State.modCore_queues (s : State) (c : Nat) (x : Core → Core) : (s.modCore c x).queues = s.queues := rfl
@[simp] theorem State.modCore_ports (s : State) (c : Nat) (x : Core → Core) : (s.modCore c x).ports = s.ports := rfl
@[simp] theorem State.modCore_msixTable (s : State) (c : Nat) (x : Core → Core) : (s.modCore c x).msixTable = s.msixTable := rfl
@[simp] theorem State.modCore_msixPending (s : State) (c : Nat) (x : Core → Core) : (s.modCore c x).msixPending = s.msixPending := rfl
@[simp] theorem State.modCore_power (s : State) (c : Nat) (x : Core → Core) : (s.modCore c x).power = s.power := rfl
@[simp] theorem State.modCore_errlog (s : State) (c : Nat) (x : Core → Core) : (s.modCore c x).errlog = s.errlog := rfl
@[simp] theorem State.modCore_mbox (s : State) (c : Nat) (x : Core → Core) : (s.modCore c x).mbox = s.mbox := rfl
@[simp] theorem State.modCore_surveyK (s : State) (c : Nat) (x : Core → Core) : (s.modCore c x).surveyK = s.surveyK := rfl
@[simp] theorem State.modCore_surveyOn (s : State) (c : Nat) (x : Core → Core) : (s.modCore c x).surveyOn = s.surveyOn := rfl
@[simp] theorem State.modCore_survey (s : State) (c : Nat) (x : Core → Core) : (s.modCore c x).survey = s.survey := rfl
@[simp] theorem State.modCore_surveyLostMark (s : State) (c : Nat) (x : Core → Core) : (s.modCore c x).surveyLostMark = s.surveyLostMark := rfl
@[simp] theorem State.modCore_surveyLast (s : State) (c : Nat) (x : Core → Core) : (s.modCore c x).surveyLast = s.surveyLast := rfl
@[simp] theorem State.modCore_counters (s : State) (c : Nat) (x : Core → Core) : (s.modCore c x).counters = s.counters := rfl
@[simp] theorem State.modCore_sampleJ (s : State) (c : Nat) (x : Core → Core) : (s.modCore c x).sampleJ = s.sampleJ := rfl
@[simp] theorem State.modCore_sampleOn (s : State) (c : Nat) (x : Core → Core) : (s.modCore c x).sampleOn = s.sampleOn := rfl
@[simp] theorem State.modCore_sampleSeed (s : State) (c : Nat) (x : Core → Core) : (s.modCore c x).sampleSeed = s.sampleSeed := rfl
@[simp] theorem State.modCore_sample (s : State) (c : Nat) (x : Core → Core) : (s.modCore c x).sample = s.sample := rfl
@[simp] theorem State.modCore_traceSize (s : State) (c : Nat) (x : Core → Core) : (s.modCore c x).traceSize = s.traceSize := rfl
@[simp] theorem State.modCore_traceOn (s : State) (c : Nat) (x : Core → Core) : (s.modCore c x).traceOn = s.traceOn := rfl
@[simp] theorem State.modCore_traceBase (s : State) (c : Nat) (x : Core → Core) : (s.modCore c x).traceBase = s.traceBase := rfl
@[simp] theorem State.modCore_hostLinks (s : State) (c : Nat) (x : Core → Core) : (s.modCore c x).hostLinks = s.hostLinks := rfl
@[simp] theorem State.modCore_cxl (s : State) (c : Nat) (x : Core → Core) : (s.modCore c x).cxl = s.cxl := rfl
@[simp] theorem State.modCore_spans (s : State) (c : Nat) (x : Core → Core) : (s.modCore c x).spans = s.spans := rfl
@[simp] theorem State.modCore_exchanges (s : State) (c : Nat) (x : Core → Core) : (s.modCore c x).exchanges = s.exchanges := rfl
@[simp] theorem State.modCore_mgmt (s : State) (c : Nat) (x : Core → Core) : (s.modCore c x).mgmt = s.mgmt := rfl
@[simp] theorem State.modCore_flitSeq (s : State) (c : Nat) (x : Core → Core) : (s.modCore c x).flitSeq = s.flitSeq := rfl
@[simp] theorem State.modCore_bindings (s : State) (c : Nat) (x : Core → Core) : (s.modCore c x).bindings = s.bindings := rfl
@[simp] theorem State.modCore_binds (s : State) (c : Nat) (x : Core → Core) : (s.modCore c x).binds = s.binds := rfl
@[simp] theorem State.modCore_colls (s : State) (c : Nat) (x : Core → Core) : (s.modCore c x).colls = s.colls := rfl
@[simp] theorem State.modCore_staged (s : State) (c : Nat) (x : Core → Core) : (s.modCore c x).staged = s.staged := rfl
@[simp] theorem State.modCore_refusedColl (s : State) (c : Nat) (x : Core → Core) : (s.modCore c x).refusedColl = s.refusedColl := rfl
@[simp] theorem State.modCore_images (s : State) (c : Nat) (x : Core → Core) : (s.modCore c x).images = s.images := rfl
@[simp] theorem State.modCore_stored (s : State) (c : Nat) (x : Core → Core) : (s.modCore c x).stored = s.stored := rfl
@[simp] theorem State.modCore_minVersion (s : State) (c : Nat) (x : Core → Core) : (s.modCore c x).minVersion = s.minVersion := rfl
@[simp] theorem State.modCore_boot (s : State) (c : Nat) (x : Core → Core) : (s.modCore c x).boot = s.boot := rfl
@[simp] theorem State.modCore_bringUp (s : State) (c : Nat) (x : Core → Core) : (s.modCore c x).bringUp = s.bringUp := rfl
@[simp] theorem State.modCore_recovery (s : State) (c : Nat) (x : Core → Core) : (s.modCore c x).recovery = s.recovery := rfl
@[simp] theorem State.modCore_fatal (s : State) (c : Nat) (x : Core → Core) : (s.modCore c x).fatal = s.fatal := rfl
@[simp] theorem State.modCore_out (s : State) (c : Nat) (x : Core → Core) : (s.modCore c x).out = s.out := rfl
@[simp] theorem State.modCore_host (s : State) (c : Nat) (x : Core → Core) : (s.modCore c x).host = s.host := rfl
@[simp] theorem State.modCore_agenda (s : State) (c : Nat) (x : Core → Core) : (s.modCore c x).agenda = s.agenda := rfl
@[simp] theorem State.modCore_cur (s : State) (c : Nat) (x : Core → Core) : (s.modCore c x).cur = s.cur := rfl
@[simp] theorem State.modCore_fresh (s : State) (c : Nat) (x : Core → Core) : (s.modCore c x).fresh = s.fresh := rfl

/-! ### setCluster -/

@[simp] theorem State.setCluster_cycle (s : State) (c : Nat) (x : Cluster) : (s.setCluster c x).cycle = s.cycle := rfl
@[simp] theorem State.setCluster_time (s : State) (c : Nat) (x : Cluster) : (s.setCluster c x).time = s.time := rfl
@[simp] theorem State.setCluster_timeFrac (s : State) (c : Nat) (x : Cluster) : (s.setCluster c x).timeFrac = s.timeFrac := rfl
@[simp] theorem State.setCluster_steer (s : State) (c : Nat) (x : Cluster) : (s.setCluster c x).steer = s.steer := rfl
@[simp] theorem State.setCluster_timeDebt (s : State) (c : Nat) (x : Cluster) : (s.setCluster c x).timeDebt = s.timeDebt := rfl
@[simp] theorem State.setCluster_mem (s : State) (c : Nat) (x : Cluster) : (s.setCluster c x).mem = s.mem := rfl
@[simp] theorem State.setCluster_poison (s : State) (c : Nat) (x : Cluster) : (s.setCluster c x).poison = s.poison := rfl
@[simp] theorem State.setCluster_aspaces (s : State) (c : Nat) (x : Cluster) : (s.setCluster c x).aspaces = s.aspaces := rfl
@[simp] theorem State.setCluster_dmas (s : State) (c : Nat) (x : Cluster) : (s.setCluster c x).dmas = s.dmas := rfl
@[simp] theorem State.setCluster_failedStaging (s : State) (c : Nat) (x : Cluster) : (s.setCluster c x).failedStaging = s.failedStaging := rfl
@[simp] theorem State.setCluster_stamp (s : State) (c : Nat) (x : Cluster) : (s.setCluster c x).stamp = s.stamp := rfl
@[simp] theorem State.setCluster_groups (s : State) (c : Nat) (x : Cluster) : (s.setCluster c x).groups = s.groups := rfl
@[simp] theorem State.setCluster_crews (s : State) (c : Nat) (x : Cluster) : (s.setCluster c x).crews = s.crews := rfl
@[simp] theorem State.setCluster_cohorts (s : State) (c : Nat) (x : Cluster) : (s.setCluster c x).cohorts = s.cohorts := rfl
@[simp] theorem State.setCluster_launches (s : State) (c : Nat) (x : Cluster) : (s.setCluster c x).launches = s.launches := rfl
@[simp] theorem State.setCluster_cores (s : State) (c : Nat) (x : Cluster) : (s.setCluster c x).cores = s.cores := rfl
@[simp] theorem State.setCluster_dies (s : State) (c : Nat) (x : Cluster) : (s.setCluster c x).dies = s.dies := rfl
@[simp] theorem State.setCluster_nextId (s : State) (c : Nat) (x : Cluster) : (s.setCluster c x).nextId = s.nextId := rfl
@[simp] theorem State.setCluster_nextCrew (s : State) (c : Nat) (x : Cluster) : (s.setCluster c x).nextCrew = s.nextCrew := rfl
@[simp] theorem State.setCluster_nextCohort (s : State) (c : Nat) (x : Cluster) : (s.setCluster c x).nextCohort = s.nextCohort := rfl
@[simp] theorem State.setCluster_nextLaunch (s : State) (c : Nat) (x : Cluster) : (s.setCluster c x).nextLaunch = s.nextLaunch := rfl
@[simp] theorem State.setCluster_rotate (s : State) (c : Nat) (x : Cluster) : (s.setCluster c x).rotate = s.rotate := rfl
@[simp] theorem State.setCluster_features (s : State) (c : Nat) (x : Cluster) : (s.setCluster c x).features = s.features := rfl
@[simp] theorem State.setCluster_rows (s : State) (c : Nat) (x : Cluster) : (s.setCluster c x).rows = s.rows := rfl
@[simp] theorem State.setCluster_coresReduced (s : State) (c : Nat) (x : Cluster) : (s.setCluster c x).coresReduced = s.coresReduced := rfl
@[simp] theorem State.setCluster_bankOut (s : State) (c : Nat) (x : Cluster) : (s.setCluster c x).bankOut = s.bankOut := rfl
@[simp] theorem State.setCluster_contextBase (s : State) (c : Nat) (x : Cluster) : (s.setCluster c x).contextBase = s.contextBase := rfl
@[simp] theorem State.setCluster_preempt (s : State) (c : Nat) (x : Cluster) : (s.setCluster c x).preempt = s.preempt := rfl
@[simp] theorem State.setCluster_coordX (s : State) (c : Nat) (x : Cluster) : (s.setCluster c x).coordX = s.coordX := rfl
@[simp] theorem State.setCluster_coordY (s : State) (c : Nat) (x : Cluster) : (s.setCluster c x).coordY = s.coordY := rfl
@[simp] theorem State.setCluster_linkRoute (s : State) (c : Nat) (x : Cluster) : (s.setCluster c x).linkRoute = s.linkRoute := rfl
@[simp] theorem State.setCluster_memwinBase (s : State) (c : Nat) (x : Cluster) : (s.setCluster c x).memwinBase = s.memwinBase := rfl
@[simp] theorem State.setCluster_heaps (s : State) (c : Nat) (x : Cluster) : (s.setCluster c x).heaps = s.heaps := rfl
@[simp] theorem State.setCluster_queues (s : State) (c : Nat) (x : Cluster) : (s.setCluster c x).queues = s.queues := rfl
@[simp] theorem State.setCluster_ports (s : State) (c : Nat) (x : Cluster) : (s.setCluster c x).ports = s.ports := rfl
@[simp] theorem State.setCluster_msixTable (s : State) (c : Nat) (x : Cluster) : (s.setCluster c x).msixTable = s.msixTable := rfl
@[simp] theorem State.setCluster_msixPending (s : State) (c : Nat) (x : Cluster) : (s.setCluster c x).msixPending = s.msixPending := rfl
@[simp] theorem State.setCluster_power (s : State) (c : Nat) (x : Cluster) : (s.setCluster c x).power = s.power := rfl
@[simp] theorem State.setCluster_errlog (s : State) (c : Nat) (x : Cluster) : (s.setCluster c x).errlog = s.errlog := rfl
@[simp] theorem State.setCluster_mbox (s : State) (c : Nat) (x : Cluster) : (s.setCluster c x).mbox = s.mbox := rfl
@[simp] theorem State.setCluster_surveyK (s : State) (c : Nat) (x : Cluster) : (s.setCluster c x).surveyK = s.surveyK := rfl
@[simp] theorem State.setCluster_surveyOn (s : State) (c : Nat) (x : Cluster) : (s.setCluster c x).surveyOn = s.surveyOn := rfl
@[simp] theorem State.setCluster_survey (s : State) (c : Nat) (x : Cluster) : (s.setCluster c x).survey = s.survey := rfl
@[simp] theorem State.setCluster_surveyLostMark (s : State) (c : Nat) (x : Cluster) : (s.setCluster c x).surveyLostMark = s.surveyLostMark := rfl
@[simp] theorem State.setCluster_surveyLast (s : State) (c : Nat) (x : Cluster) : (s.setCluster c x).surveyLast = s.surveyLast := rfl
@[simp] theorem State.setCluster_counters (s : State) (c : Nat) (x : Cluster) : (s.setCluster c x).counters = s.counters := rfl
@[simp] theorem State.setCluster_sampleJ (s : State) (c : Nat) (x : Cluster) : (s.setCluster c x).sampleJ = s.sampleJ := rfl
@[simp] theorem State.setCluster_sampleOn (s : State) (c : Nat) (x : Cluster) : (s.setCluster c x).sampleOn = s.sampleOn := rfl
@[simp] theorem State.setCluster_sampleSeed (s : State) (c : Nat) (x : Cluster) : (s.setCluster c x).sampleSeed = s.sampleSeed := rfl
@[simp] theorem State.setCluster_sample (s : State) (c : Nat) (x : Cluster) : (s.setCluster c x).sample = s.sample := rfl
@[simp] theorem State.setCluster_traceSize (s : State) (c : Nat) (x : Cluster) : (s.setCluster c x).traceSize = s.traceSize := rfl
@[simp] theorem State.setCluster_traceOn (s : State) (c : Nat) (x : Cluster) : (s.setCluster c x).traceOn = s.traceOn := rfl
@[simp] theorem State.setCluster_traceBase (s : State) (c : Nat) (x : Cluster) : (s.setCluster c x).traceBase = s.traceBase := rfl
@[simp] theorem State.setCluster_hostLinks (s : State) (c : Nat) (x : Cluster) : (s.setCluster c x).hostLinks = s.hostLinks := rfl
@[simp] theorem State.setCluster_cxl (s : State) (c : Nat) (x : Cluster) : (s.setCluster c x).cxl = s.cxl := rfl
@[simp] theorem State.setCluster_spans (s : State) (c : Nat) (x : Cluster) : (s.setCluster c x).spans = s.spans := rfl
@[simp] theorem State.setCluster_exchanges (s : State) (c : Nat) (x : Cluster) : (s.setCluster c x).exchanges = s.exchanges := rfl
@[simp] theorem State.setCluster_mgmt (s : State) (c : Nat) (x : Cluster) : (s.setCluster c x).mgmt = s.mgmt := rfl
@[simp] theorem State.setCluster_flitSeq (s : State) (c : Nat) (x : Cluster) : (s.setCluster c x).flitSeq = s.flitSeq := rfl
@[simp] theorem State.setCluster_bindings (s : State) (c : Nat) (x : Cluster) : (s.setCluster c x).bindings = s.bindings := rfl
@[simp] theorem State.setCluster_binds (s : State) (c : Nat) (x : Cluster) : (s.setCluster c x).binds = s.binds := rfl
@[simp] theorem State.setCluster_colls (s : State) (c : Nat) (x : Cluster) : (s.setCluster c x).colls = s.colls := rfl
@[simp] theorem State.setCluster_staged (s : State) (c : Nat) (x : Cluster) : (s.setCluster c x).staged = s.staged := rfl
@[simp] theorem State.setCluster_refusedColl (s : State) (c : Nat) (x : Cluster) : (s.setCluster c x).refusedColl = s.refusedColl := rfl
@[simp] theorem State.setCluster_images (s : State) (c : Nat) (x : Cluster) : (s.setCluster c x).images = s.images := rfl
@[simp] theorem State.setCluster_stored (s : State) (c : Nat) (x : Cluster) : (s.setCluster c x).stored = s.stored := rfl
@[simp] theorem State.setCluster_minVersion (s : State) (c : Nat) (x : Cluster) : (s.setCluster c x).minVersion = s.minVersion := rfl
@[simp] theorem State.setCluster_boot (s : State) (c : Nat) (x : Cluster) : (s.setCluster c x).boot = s.boot := rfl
@[simp] theorem State.setCluster_bringUp (s : State) (c : Nat) (x : Cluster) : (s.setCluster c x).bringUp = s.bringUp := rfl
@[simp] theorem State.setCluster_recovery (s : State) (c : Nat) (x : Cluster) : (s.setCluster c x).recovery = s.recovery := rfl
@[simp] theorem State.setCluster_fatal (s : State) (c : Nat) (x : Cluster) : (s.setCluster c x).fatal = s.fatal := rfl
@[simp] theorem State.setCluster_out (s : State) (c : Nat) (x : Cluster) : (s.setCluster c x).out = s.out := rfl
@[simp] theorem State.setCluster_host (s : State) (c : Nat) (x : Cluster) : (s.setCluster c x).host = s.host := rfl
@[simp] theorem State.setCluster_agenda (s : State) (c : Nat) (x : Cluster) : (s.setCluster c x).agenda = s.agenda := rfl
@[simp] theorem State.setCluster_cur (s : State) (c : Nat) (x : Cluster) : (s.setCluster c x).cur = s.cur := rfl
@[simp] theorem State.setCluster_fresh (s : State) (c : Nat) (x : Cluster) : (s.setCluster c x).fresh = s.fresh := rfl

/-! ### modCluster -/

@[simp] theorem State.modCluster_cycle (s : State) (c : Nat) (x : Cluster → Cluster) : (s.modCluster c x).cycle = s.cycle := rfl
@[simp] theorem State.modCluster_time (s : State) (c : Nat) (x : Cluster → Cluster) : (s.modCluster c x).time = s.time := rfl
@[simp] theorem State.modCluster_timeFrac (s : State) (c : Nat) (x : Cluster → Cluster) : (s.modCluster c x).timeFrac = s.timeFrac := rfl
@[simp] theorem State.modCluster_steer (s : State) (c : Nat) (x : Cluster → Cluster) : (s.modCluster c x).steer = s.steer := rfl
@[simp] theorem State.modCluster_timeDebt (s : State) (c : Nat) (x : Cluster → Cluster) : (s.modCluster c x).timeDebt = s.timeDebt := rfl
@[simp] theorem State.modCluster_mem (s : State) (c : Nat) (x : Cluster → Cluster) : (s.modCluster c x).mem = s.mem := rfl
@[simp] theorem State.modCluster_poison (s : State) (c : Nat) (x : Cluster → Cluster) : (s.modCluster c x).poison = s.poison := rfl
@[simp] theorem State.modCluster_aspaces (s : State) (c : Nat) (x : Cluster → Cluster) : (s.modCluster c x).aspaces = s.aspaces := rfl
@[simp] theorem State.modCluster_dmas (s : State) (c : Nat) (x : Cluster → Cluster) : (s.modCluster c x).dmas = s.dmas := rfl
@[simp] theorem State.modCluster_failedStaging (s : State) (c : Nat) (x : Cluster → Cluster) : (s.modCluster c x).failedStaging = s.failedStaging := rfl
@[simp] theorem State.modCluster_stamp (s : State) (c : Nat) (x : Cluster → Cluster) : (s.modCluster c x).stamp = s.stamp := rfl
@[simp] theorem State.modCluster_groups (s : State) (c : Nat) (x : Cluster → Cluster) : (s.modCluster c x).groups = s.groups := rfl
@[simp] theorem State.modCluster_crews (s : State) (c : Nat) (x : Cluster → Cluster) : (s.modCluster c x).crews = s.crews := rfl
@[simp] theorem State.modCluster_cohorts (s : State) (c : Nat) (x : Cluster → Cluster) : (s.modCluster c x).cohorts = s.cohorts := rfl
@[simp] theorem State.modCluster_launches (s : State) (c : Nat) (x : Cluster → Cluster) : (s.modCluster c x).launches = s.launches := rfl
@[simp] theorem State.modCluster_cores (s : State) (c : Nat) (x : Cluster → Cluster) : (s.modCluster c x).cores = s.cores := rfl
@[simp] theorem State.modCluster_dies (s : State) (c : Nat) (x : Cluster → Cluster) : (s.modCluster c x).dies = s.dies := rfl
@[simp] theorem State.modCluster_nextId (s : State) (c : Nat) (x : Cluster → Cluster) : (s.modCluster c x).nextId = s.nextId := rfl
@[simp] theorem State.modCluster_nextCrew (s : State) (c : Nat) (x : Cluster → Cluster) : (s.modCluster c x).nextCrew = s.nextCrew := rfl
@[simp] theorem State.modCluster_nextCohort (s : State) (c : Nat) (x : Cluster → Cluster) : (s.modCluster c x).nextCohort = s.nextCohort := rfl
@[simp] theorem State.modCluster_nextLaunch (s : State) (c : Nat) (x : Cluster → Cluster) : (s.modCluster c x).nextLaunch = s.nextLaunch := rfl
@[simp] theorem State.modCluster_rotate (s : State) (c : Nat) (x : Cluster → Cluster) : (s.modCluster c x).rotate = s.rotate := rfl
@[simp] theorem State.modCluster_features (s : State) (c : Nat) (x : Cluster → Cluster) : (s.modCluster c x).features = s.features := rfl
@[simp] theorem State.modCluster_rows (s : State) (c : Nat) (x : Cluster → Cluster) : (s.modCluster c x).rows = s.rows := rfl
@[simp] theorem State.modCluster_coresReduced (s : State) (c : Nat) (x : Cluster → Cluster) : (s.modCluster c x).coresReduced = s.coresReduced := rfl
@[simp] theorem State.modCluster_bankOut (s : State) (c : Nat) (x : Cluster → Cluster) : (s.modCluster c x).bankOut = s.bankOut := rfl
@[simp] theorem State.modCluster_contextBase (s : State) (c : Nat) (x : Cluster → Cluster) : (s.modCluster c x).contextBase = s.contextBase := rfl
@[simp] theorem State.modCluster_preempt (s : State) (c : Nat) (x : Cluster → Cluster) : (s.modCluster c x).preempt = s.preempt := rfl
@[simp] theorem State.modCluster_coordX (s : State) (c : Nat) (x : Cluster → Cluster) : (s.modCluster c x).coordX = s.coordX := rfl
@[simp] theorem State.modCluster_coordY (s : State) (c : Nat) (x : Cluster → Cluster) : (s.modCluster c x).coordY = s.coordY := rfl
@[simp] theorem State.modCluster_linkRoute (s : State) (c : Nat) (x : Cluster → Cluster) : (s.modCluster c x).linkRoute = s.linkRoute := rfl
@[simp] theorem State.modCluster_memwinBase (s : State) (c : Nat) (x : Cluster → Cluster) : (s.modCluster c x).memwinBase = s.memwinBase := rfl
@[simp] theorem State.modCluster_heaps (s : State) (c : Nat) (x : Cluster → Cluster) : (s.modCluster c x).heaps = s.heaps := rfl
@[simp] theorem State.modCluster_queues (s : State) (c : Nat) (x : Cluster → Cluster) : (s.modCluster c x).queues = s.queues := rfl
@[simp] theorem State.modCluster_ports (s : State) (c : Nat) (x : Cluster → Cluster) : (s.modCluster c x).ports = s.ports := rfl
@[simp] theorem State.modCluster_msixTable (s : State) (c : Nat) (x : Cluster → Cluster) : (s.modCluster c x).msixTable = s.msixTable := rfl
@[simp] theorem State.modCluster_msixPending (s : State) (c : Nat) (x : Cluster → Cluster) : (s.modCluster c x).msixPending = s.msixPending := rfl
@[simp] theorem State.modCluster_power (s : State) (c : Nat) (x : Cluster → Cluster) : (s.modCluster c x).power = s.power := rfl
@[simp] theorem State.modCluster_errlog (s : State) (c : Nat) (x : Cluster → Cluster) : (s.modCluster c x).errlog = s.errlog := rfl
@[simp] theorem State.modCluster_mbox (s : State) (c : Nat) (x : Cluster → Cluster) : (s.modCluster c x).mbox = s.mbox := rfl
@[simp] theorem State.modCluster_surveyK (s : State) (c : Nat) (x : Cluster → Cluster) : (s.modCluster c x).surveyK = s.surveyK := rfl
@[simp] theorem State.modCluster_surveyOn (s : State) (c : Nat) (x : Cluster → Cluster) : (s.modCluster c x).surveyOn = s.surveyOn := rfl
@[simp] theorem State.modCluster_survey (s : State) (c : Nat) (x : Cluster → Cluster) : (s.modCluster c x).survey = s.survey := rfl
@[simp] theorem State.modCluster_surveyLostMark (s : State) (c : Nat) (x : Cluster → Cluster) : (s.modCluster c x).surveyLostMark = s.surveyLostMark := rfl
@[simp] theorem State.modCluster_surveyLast (s : State) (c : Nat) (x : Cluster → Cluster) : (s.modCluster c x).surveyLast = s.surveyLast := rfl
@[simp] theorem State.modCluster_counters (s : State) (c : Nat) (x : Cluster → Cluster) : (s.modCluster c x).counters = s.counters := rfl
@[simp] theorem State.modCluster_sampleJ (s : State) (c : Nat) (x : Cluster → Cluster) : (s.modCluster c x).sampleJ = s.sampleJ := rfl
@[simp] theorem State.modCluster_sampleOn (s : State) (c : Nat) (x : Cluster → Cluster) : (s.modCluster c x).sampleOn = s.sampleOn := rfl
@[simp] theorem State.modCluster_sampleSeed (s : State) (c : Nat) (x : Cluster → Cluster) : (s.modCluster c x).sampleSeed = s.sampleSeed := rfl
@[simp] theorem State.modCluster_sample (s : State) (c : Nat) (x : Cluster → Cluster) : (s.modCluster c x).sample = s.sample := rfl
@[simp] theorem State.modCluster_traceSize (s : State) (c : Nat) (x : Cluster → Cluster) : (s.modCluster c x).traceSize = s.traceSize := rfl
@[simp] theorem State.modCluster_traceOn (s : State) (c : Nat) (x : Cluster → Cluster) : (s.modCluster c x).traceOn = s.traceOn := rfl
@[simp] theorem State.modCluster_traceBase (s : State) (c : Nat) (x : Cluster → Cluster) : (s.modCluster c x).traceBase = s.traceBase := rfl
@[simp] theorem State.modCluster_hostLinks (s : State) (c : Nat) (x : Cluster → Cluster) : (s.modCluster c x).hostLinks = s.hostLinks := rfl
@[simp] theorem State.modCluster_cxl (s : State) (c : Nat) (x : Cluster → Cluster) : (s.modCluster c x).cxl = s.cxl := rfl
@[simp] theorem State.modCluster_spans (s : State) (c : Nat) (x : Cluster → Cluster) : (s.modCluster c x).spans = s.spans := rfl
@[simp] theorem State.modCluster_exchanges (s : State) (c : Nat) (x : Cluster → Cluster) : (s.modCluster c x).exchanges = s.exchanges := rfl
@[simp] theorem State.modCluster_mgmt (s : State) (c : Nat) (x : Cluster → Cluster) : (s.modCluster c x).mgmt = s.mgmt := rfl
@[simp] theorem State.modCluster_flitSeq (s : State) (c : Nat) (x : Cluster → Cluster) : (s.modCluster c x).flitSeq = s.flitSeq := rfl
@[simp] theorem State.modCluster_bindings (s : State) (c : Nat) (x : Cluster → Cluster) : (s.modCluster c x).bindings = s.bindings := rfl
@[simp] theorem State.modCluster_binds (s : State) (c : Nat) (x : Cluster → Cluster) : (s.modCluster c x).binds = s.binds := rfl
@[simp] theorem State.modCluster_colls (s : State) (c : Nat) (x : Cluster → Cluster) : (s.modCluster c x).colls = s.colls := rfl
@[simp] theorem State.modCluster_staged (s : State) (c : Nat) (x : Cluster → Cluster) : (s.modCluster c x).staged = s.staged := rfl
@[simp] theorem State.modCluster_refusedColl (s : State) (c : Nat) (x : Cluster → Cluster) : (s.modCluster c x).refusedColl = s.refusedColl := rfl
@[simp] theorem State.modCluster_images (s : State) (c : Nat) (x : Cluster → Cluster) : (s.modCluster c x).images = s.images := rfl
@[simp] theorem State.modCluster_stored (s : State) (c : Nat) (x : Cluster → Cluster) : (s.modCluster c x).stored = s.stored := rfl
@[simp] theorem State.modCluster_minVersion (s : State) (c : Nat) (x : Cluster → Cluster) : (s.modCluster c x).minVersion = s.minVersion := rfl
@[simp] theorem State.modCluster_boot (s : State) (c : Nat) (x : Cluster → Cluster) : (s.modCluster c x).boot = s.boot := rfl
@[simp] theorem State.modCluster_bringUp (s : State) (c : Nat) (x : Cluster → Cluster) : (s.modCluster c x).bringUp = s.bringUp := rfl
@[simp] theorem State.modCluster_recovery (s : State) (c : Nat) (x : Cluster → Cluster) : (s.modCluster c x).recovery = s.recovery := rfl
@[simp] theorem State.modCluster_fatal (s : State) (c : Nat) (x : Cluster → Cluster) : (s.modCluster c x).fatal = s.fatal := rfl
@[simp] theorem State.modCluster_out (s : State) (c : Nat) (x : Cluster → Cluster) : (s.modCluster c x).out = s.out := rfl
@[simp] theorem State.modCluster_host (s : State) (c : Nat) (x : Cluster → Cluster) : (s.modCluster c x).host = s.host := rfl
@[simp] theorem State.modCluster_agenda (s : State) (c : Nat) (x : Cluster → Cluster) : (s.modCluster c x).agenda = s.agenda := rfl
@[simp] theorem State.modCluster_cur (s : State) (c : Nat) (x : Cluster → Cluster) : (s.modCluster c x).cur = s.cur := rfl
@[simp] theorem State.modCluster_fresh (s : State) (c : Nat) (x : Cluster → Cluster) : (s.modCluster c x).fresh = s.fresh := rfl

/-! ### modDie -/

@[simp] theorem State.modDie_cycle (s : State) (d : Nat) (x : Die → Die) : (s.modDie d x).cycle = s.cycle := rfl
@[simp] theorem State.modDie_time (s : State) (d : Nat) (x : Die → Die) : (s.modDie d x).time = s.time := rfl
@[simp] theorem State.modDie_timeFrac (s : State) (d : Nat) (x : Die → Die) : (s.modDie d x).timeFrac = s.timeFrac := rfl
@[simp] theorem State.modDie_steer (s : State) (d : Nat) (x : Die → Die) : (s.modDie d x).steer = s.steer := rfl
@[simp] theorem State.modDie_timeDebt (s : State) (d : Nat) (x : Die → Die) : (s.modDie d x).timeDebt = s.timeDebt := rfl
@[simp] theorem State.modDie_mem (s : State) (d : Nat) (x : Die → Die) : (s.modDie d x).mem = s.mem := rfl
@[simp] theorem State.modDie_poison (s : State) (d : Nat) (x : Die → Die) : (s.modDie d x).poison = s.poison := rfl
@[simp] theorem State.modDie_aspaces (s : State) (d : Nat) (x : Die → Die) : (s.modDie d x).aspaces = s.aspaces := rfl
@[simp] theorem State.modDie_dmas (s : State) (d : Nat) (x : Die → Die) : (s.modDie d x).dmas = s.dmas := rfl
@[simp] theorem State.modDie_failedStaging (s : State) (d : Nat) (x : Die → Die) : (s.modDie d x).failedStaging = s.failedStaging := rfl
@[simp] theorem State.modDie_stamp (s : State) (d : Nat) (x : Die → Die) : (s.modDie d x).stamp = s.stamp := rfl
@[simp] theorem State.modDie_groups (s : State) (d : Nat) (x : Die → Die) : (s.modDie d x).groups = s.groups := rfl
@[simp] theorem State.modDie_crews (s : State) (d : Nat) (x : Die → Die) : (s.modDie d x).crews = s.crews := rfl
@[simp] theorem State.modDie_cohorts (s : State) (d : Nat) (x : Die → Die) : (s.modDie d x).cohorts = s.cohorts := rfl
@[simp] theorem State.modDie_launches (s : State) (d : Nat) (x : Die → Die) : (s.modDie d x).launches = s.launches := rfl
@[simp] theorem State.modDie_cores (s : State) (d : Nat) (x : Die → Die) : (s.modDie d x).cores = s.cores := rfl
@[simp] theorem State.modDie_clusters (s : State) (d : Nat) (x : Die → Die) : (s.modDie d x).clusters = s.clusters := rfl
@[simp] theorem State.modDie_nextId (s : State) (d : Nat) (x : Die → Die) : (s.modDie d x).nextId = s.nextId := rfl
@[simp] theorem State.modDie_nextCrew (s : State) (d : Nat) (x : Die → Die) : (s.modDie d x).nextCrew = s.nextCrew := rfl
@[simp] theorem State.modDie_nextCohort (s : State) (d : Nat) (x : Die → Die) : (s.modDie d x).nextCohort = s.nextCohort := rfl
@[simp] theorem State.modDie_nextLaunch (s : State) (d : Nat) (x : Die → Die) : (s.modDie d x).nextLaunch = s.nextLaunch := rfl
@[simp] theorem State.modDie_rotate (s : State) (d : Nat) (x : Die → Die) : (s.modDie d x).rotate = s.rotate := rfl
@[simp] theorem State.modDie_features (s : State) (d : Nat) (x : Die → Die) : (s.modDie d x).features = s.features := rfl
@[simp] theorem State.modDie_rows (s : State) (d : Nat) (x : Die → Die) : (s.modDie d x).rows = s.rows := rfl
@[simp] theorem State.modDie_coresReduced (s : State) (d : Nat) (x : Die → Die) : (s.modDie d x).coresReduced = s.coresReduced := rfl
@[simp] theorem State.modDie_bankOut (s : State) (d : Nat) (x : Die → Die) : (s.modDie d x).bankOut = s.bankOut := rfl
@[simp] theorem State.modDie_contextBase (s : State) (d : Nat) (x : Die → Die) : (s.modDie d x).contextBase = s.contextBase := rfl
@[simp] theorem State.modDie_preempt (s : State) (d : Nat) (x : Die → Die) : (s.modDie d x).preempt = s.preempt := rfl
@[simp] theorem State.modDie_coordX (s : State) (d : Nat) (x : Die → Die) : (s.modDie d x).coordX = s.coordX := rfl
@[simp] theorem State.modDie_coordY (s : State) (d : Nat) (x : Die → Die) : (s.modDie d x).coordY = s.coordY := rfl
@[simp] theorem State.modDie_linkRoute (s : State) (d : Nat) (x : Die → Die) : (s.modDie d x).linkRoute = s.linkRoute := rfl
@[simp] theorem State.modDie_memwinBase (s : State) (d : Nat) (x : Die → Die) : (s.modDie d x).memwinBase = s.memwinBase := rfl
@[simp] theorem State.modDie_heaps (s : State) (d : Nat) (x : Die → Die) : (s.modDie d x).heaps = s.heaps := rfl
@[simp] theorem State.modDie_queues (s : State) (d : Nat) (x : Die → Die) : (s.modDie d x).queues = s.queues := rfl
@[simp] theorem State.modDie_ports (s : State) (d : Nat) (x : Die → Die) : (s.modDie d x).ports = s.ports := rfl
@[simp] theorem State.modDie_msixTable (s : State) (d : Nat) (x : Die → Die) : (s.modDie d x).msixTable = s.msixTable := rfl
@[simp] theorem State.modDie_msixPending (s : State) (d : Nat) (x : Die → Die) : (s.modDie d x).msixPending = s.msixPending := rfl
@[simp] theorem State.modDie_power (s : State) (d : Nat) (x : Die → Die) : (s.modDie d x).power = s.power := rfl
@[simp] theorem State.modDie_errlog (s : State) (d : Nat) (x : Die → Die) : (s.modDie d x).errlog = s.errlog := rfl
@[simp] theorem State.modDie_mbox (s : State) (d : Nat) (x : Die → Die) : (s.modDie d x).mbox = s.mbox := rfl
@[simp] theorem State.modDie_surveyK (s : State) (d : Nat) (x : Die → Die) : (s.modDie d x).surveyK = s.surveyK := rfl
@[simp] theorem State.modDie_surveyOn (s : State) (d : Nat) (x : Die → Die) : (s.modDie d x).surveyOn = s.surveyOn := rfl
@[simp] theorem State.modDie_survey (s : State) (d : Nat) (x : Die → Die) : (s.modDie d x).survey = s.survey := rfl
@[simp] theorem State.modDie_surveyLostMark (s : State) (d : Nat) (x : Die → Die) : (s.modDie d x).surveyLostMark = s.surveyLostMark := rfl
@[simp] theorem State.modDie_surveyLast (s : State) (d : Nat) (x : Die → Die) : (s.modDie d x).surveyLast = s.surveyLast := rfl
@[simp] theorem State.modDie_counters (s : State) (d : Nat) (x : Die → Die) : (s.modDie d x).counters = s.counters := rfl
@[simp] theorem State.modDie_sampleJ (s : State) (d : Nat) (x : Die → Die) : (s.modDie d x).sampleJ = s.sampleJ := rfl
@[simp] theorem State.modDie_sampleOn (s : State) (d : Nat) (x : Die → Die) : (s.modDie d x).sampleOn = s.sampleOn := rfl
@[simp] theorem State.modDie_sampleSeed (s : State) (d : Nat) (x : Die → Die) : (s.modDie d x).sampleSeed = s.sampleSeed := rfl
@[simp] theorem State.modDie_sample (s : State) (d : Nat) (x : Die → Die) : (s.modDie d x).sample = s.sample := rfl
@[simp] theorem State.modDie_traceSize (s : State) (d : Nat) (x : Die → Die) : (s.modDie d x).traceSize = s.traceSize := rfl
@[simp] theorem State.modDie_traceOn (s : State) (d : Nat) (x : Die → Die) : (s.modDie d x).traceOn = s.traceOn := rfl
@[simp] theorem State.modDie_traceBase (s : State) (d : Nat) (x : Die → Die) : (s.modDie d x).traceBase = s.traceBase := rfl
@[simp] theorem State.modDie_hostLinks (s : State) (d : Nat) (x : Die → Die) : (s.modDie d x).hostLinks = s.hostLinks := rfl
@[simp] theorem State.modDie_cxl (s : State) (d : Nat) (x : Die → Die) : (s.modDie d x).cxl = s.cxl := rfl
@[simp] theorem State.modDie_spans (s : State) (d : Nat) (x : Die → Die) : (s.modDie d x).spans = s.spans := rfl
@[simp] theorem State.modDie_exchanges (s : State) (d : Nat) (x : Die → Die) : (s.modDie d x).exchanges = s.exchanges := rfl
@[simp] theorem State.modDie_mgmt (s : State) (d : Nat) (x : Die → Die) : (s.modDie d x).mgmt = s.mgmt := rfl
@[simp] theorem State.modDie_flitSeq (s : State) (d : Nat) (x : Die → Die) : (s.modDie d x).flitSeq = s.flitSeq := rfl
@[simp] theorem State.modDie_bindings (s : State) (d : Nat) (x : Die → Die) : (s.modDie d x).bindings = s.bindings := rfl
@[simp] theorem State.modDie_binds (s : State) (d : Nat) (x : Die → Die) : (s.modDie d x).binds = s.binds := rfl
@[simp] theorem State.modDie_colls (s : State) (d : Nat) (x : Die → Die) : (s.modDie d x).colls = s.colls := rfl
@[simp] theorem State.modDie_staged (s : State) (d : Nat) (x : Die → Die) : (s.modDie d x).staged = s.staged := rfl
@[simp] theorem State.modDie_refusedColl (s : State) (d : Nat) (x : Die → Die) : (s.modDie d x).refusedColl = s.refusedColl := rfl
@[simp] theorem State.modDie_images (s : State) (d : Nat) (x : Die → Die) : (s.modDie d x).images = s.images := rfl
@[simp] theorem State.modDie_stored (s : State) (d : Nat) (x : Die → Die) : (s.modDie d x).stored = s.stored := rfl
@[simp] theorem State.modDie_minVersion (s : State) (d : Nat) (x : Die → Die) : (s.modDie d x).minVersion = s.minVersion := rfl
@[simp] theorem State.modDie_boot (s : State) (d : Nat) (x : Die → Die) : (s.modDie d x).boot = s.boot := rfl
@[simp] theorem State.modDie_bringUp (s : State) (d : Nat) (x : Die → Die) : (s.modDie d x).bringUp = s.bringUp := rfl
@[simp] theorem State.modDie_recovery (s : State) (d : Nat) (x : Die → Die) : (s.modDie d x).recovery = s.recovery := rfl
@[simp] theorem State.modDie_fatal (s : State) (d : Nat) (x : Die → Die) : (s.modDie d x).fatal = s.fatal := rfl
@[simp] theorem State.modDie_out (s : State) (d : Nat) (x : Die → Die) : (s.modDie d x).out = s.out := rfl
@[simp] theorem State.modDie_host (s : State) (d : Nat) (x : Die → Die) : (s.modDie d x).host = s.host := rfl
@[simp] theorem State.modDie_agenda (s : State) (d : Nat) (x : Die → Die) : (s.modDie d x).agenda = s.agenda := rfl
@[simp] theorem State.modDie_cur (s : State) (d : Nat) (x : Die → Die) : (s.modDie d x).cur = s.cur := rfl
@[simp] theorem State.modDie_fresh (s : State) (d : Nat) (x : Die → Die) : (s.modDie d x).fresh = s.fresh := rfl

/-! ### setQueue -/

@[simp] theorem State.setQueue_cycle (s : State) (q : Nat) (x : Queue) : (s.setQueue q x).cycle = s.cycle := rfl
@[simp] theorem State.setQueue_time (s : State) (q : Nat) (x : Queue) : (s.setQueue q x).time = s.time := rfl
@[simp] theorem State.setQueue_timeFrac (s : State) (q : Nat) (x : Queue) : (s.setQueue q x).timeFrac = s.timeFrac := rfl
@[simp] theorem State.setQueue_steer (s : State) (q : Nat) (x : Queue) : (s.setQueue q x).steer = s.steer := rfl
@[simp] theorem State.setQueue_timeDebt (s : State) (q : Nat) (x : Queue) : (s.setQueue q x).timeDebt = s.timeDebt := rfl
@[simp] theorem State.setQueue_mem (s : State) (q : Nat) (x : Queue) : (s.setQueue q x).mem = s.mem := rfl
@[simp] theorem State.setQueue_poison (s : State) (q : Nat) (x : Queue) : (s.setQueue q x).poison = s.poison := rfl
@[simp] theorem State.setQueue_aspaces (s : State) (q : Nat) (x : Queue) : (s.setQueue q x).aspaces = s.aspaces := rfl
@[simp] theorem State.setQueue_dmas (s : State) (q : Nat) (x : Queue) : (s.setQueue q x).dmas = s.dmas := rfl
@[simp] theorem State.setQueue_failedStaging (s : State) (q : Nat) (x : Queue) : (s.setQueue q x).failedStaging = s.failedStaging := rfl
@[simp] theorem State.setQueue_stamp (s : State) (q : Nat) (x : Queue) : (s.setQueue q x).stamp = s.stamp := rfl
@[simp] theorem State.setQueue_groups (s : State) (q : Nat) (x : Queue) : (s.setQueue q x).groups = s.groups := rfl
@[simp] theorem State.setQueue_crews (s : State) (q : Nat) (x : Queue) : (s.setQueue q x).crews = s.crews := rfl
@[simp] theorem State.setQueue_cohorts (s : State) (q : Nat) (x : Queue) : (s.setQueue q x).cohorts = s.cohorts := rfl
@[simp] theorem State.setQueue_launches (s : State) (q : Nat) (x : Queue) : (s.setQueue q x).launches = s.launches := rfl
@[simp] theorem State.setQueue_cores (s : State) (q : Nat) (x : Queue) : (s.setQueue q x).cores = s.cores := rfl
@[simp] theorem State.setQueue_clusters (s : State) (q : Nat) (x : Queue) : (s.setQueue q x).clusters = s.clusters := rfl
@[simp] theorem State.setQueue_dies (s : State) (q : Nat) (x : Queue) : (s.setQueue q x).dies = s.dies := rfl
@[simp] theorem State.setQueue_nextId (s : State) (q : Nat) (x : Queue) : (s.setQueue q x).nextId = s.nextId := rfl
@[simp] theorem State.setQueue_nextCrew (s : State) (q : Nat) (x : Queue) : (s.setQueue q x).nextCrew = s.nextCrew := rfl
@[simp] theorem State.setQueue_nextCohort (s : State) (q : Nat) (x : Queue) : (s.setQueue q x).nextCohort = s.nextCohort := rfl
@[simp] theorem State.setQueue_nextLaunch (s : State) (q : Nat) (x : Queue) : (s.setQueue q x).nextLaunch = s.nextLaunch := rfl
@[simp] theorem State.setQueue_rotate (s : State) (q : Nat) (x : Queue) : (s.setQueue q x).rotate = s.rotate := rfl
@[simp] theorem State.setQueue_features (s : State) (q : Nat) (x : Queue) : (s.setQueue q x).features = s.features := rfl
@[simp] theorem State.setQueue_rows (s : State) (q : Nat) (x : Queue) : (s.setQueue q x).rows = s.rows := rfl
@[simp] theorem State.setQueue_coresReduced (s : State) (q : Nat) (x : Queue) : (s.setQueue q x).coresReduced = s.coresReduced := rfl
@[simp] theorem State.setQueue_bankOut (s : State) (q : Nat) (x : Queue) : (s.setQueue q x).bankOut = s.bankOut := rfl
@[simp] theorem State.setQueue_contextBase (s : State) (q : Nat) (x : Queue) : (s.setQueue q x).contextBase = s.contextBase := rfl
@[simp] theorem State.setQueue_preempt (s : State) (q : Nat) (x : Queue) : (s.setQueue q x).preempt = s.preempt := rfl
@[simp] theorem State.setQueue_coordX (s : State) (q : Nat) (x : Queue) : (s.setQueue q x).coordX = s.coordX := rfl
@[simp] theorem State.setQueue_coordY (s : State) (q : Nat) (x : Queue) : (s.setQueue q x).coordY = s.coordY := rfl
@[simp] theorem State.setQueue_linkRoute (s : State) (q : Nat) (x : Queue) : (s.setQueue q x).linkRoute = s.linkRoute := rfl
@[simp] theorem State.setQueue_memwinBase (s : State) (q : Nat) (x : Queue) : (s.setQueue q x).memwinBase = s.memwinBase := rfl
@[simp] theorem State.setQueue_heaps (s : State) (q : Nat) (x : Queue) : (s.setQueue q x).heaps = s.heaps := rfl
@[simp] theorem State.setQueue_ports (s : State) (q : Nat) (x : Queue) : (s.setQueue q x).ports = s.ports := rfl
@[simp] theorem State.setQueue_msixTable (s : State) (q : Nat) (x : Queue) : (s.setQueue q x).msixTable = s.msixTable := rfl
@[simp] theorem State.setQueue_msixPending (s : State) (q : Nat) (x : Queue) : (s.setQueue q x).msixPending = s.msixPending := rfl
@[simp] theorem State.setQueue_power (s : State) (q : Nat) (x : Queue) : (s.setQueue q x).power = s.power := rfl
@[simp] theorem State.setQueue_errlog (s : State) (q : Nat) (x : Queue) : (s.setQueue q x).errlog = s.errlog := rfl
@[simp] theorem State.setQueue_mbox (s : State) (q : Nat) (x : Queue) : (s.setQueue q x).mbox = s.mbox := rfl
@[simp] theorem State.setQueue_surveyK (s : State) (q : Nat) (x : Queue) : (s.setQueue q x).surveyK = s.surveyK := rfl
@[simp] theorem State.setQueue_surveyOn (s : State) (q : Nat) (x : Queue) : (s.setQueue q x).surveyOn = s.surveyOn := rfl
@[simp] theorem State.setQueue_survey (s : State) (q : Nat) (x : Queue) : (s.setQueue q x).survey = s.survey := rfl
@[simp] theorem State.setQueue_surveyLostMark (s : State) (q : Nat) (x : Queue) : (s.setQueue q x).surveyLostMark = s.surveyLostMark := rfl
@[simp] theorem State.setQueue_surveyLast (s : State) (q : Nat) (x : Queue) : (s.setQueue q x).surveyLast = s.surveyLast := rfl
@[simp] theorem State.setQueue_counters (s : State) (q : Nat) (x : Queue) : (s.setQueue q x).counters = s.counters := rfl
@[simp] theorem State.setQueue_sampleJ (s : State) (q : Nat) (x : Queue) : (s.setQueue q x).sampleJ = s.sampleJ := rfl
@[simp] theorem State.setQueue_sampleOn (s : State) (q : Nat) (x : Queue) : (s.setQueue q x).sampleOn = s.sampleOn := rfl
@[simp] theorem State.setQueue_sampleSeed (s : State) (q : Nat) (x : Queue) : (s.setQueue q x).sampleSeed = s.sampleSeed := rfl
@[simp] theorem State.setQueue_sample (s : State) (q : Nat) (x : Queue) : (s.setQueue q x).sample = s.sample := rfl
@[simp] theorem State.setQueue_traceSize (s : State) (q : Nat) (x : Queue) : (s.setQueue q x).traceSize = s.traceSize := rfl
@[simp] theorem State.setQueue_traceOn (s : State) (q : Nat) (x : Queue) : (s.setQueue q x).traceOn = s.traceOn := rfl
@[simp] theorem State.setQueue_traceBase (s : State) (q : Nat) (x : Queue) : (s.setQueue q x).traceBase = s.traceBase := rfl
@[simp] theorem State.setQueue_hostLinks (s : State) (q : Nat) (x : Queue) : (s.setQueue q x).hostLinks = s.hostLinks := rfl
@[simp] theorem State.setQueue_cxl (s : State) (q : Nat) (x : Queue) : (s.setQueue q x).cxl = s.cxl := rfl
@[simp] theorem State.setQueue_spans (s : State) (q : Nat) (x : Queue) : (s.setQueue q x).spans = s.spans := rfl
@[simp] theorem State.setQueue_exchanges (s : State) (q : Nat) (x : Queue) : (s.setQueue q x).exchanges = s.exchanges := rfl
@[simp] theorem State.setQueue_mgmt (s : State) (q : Nat) (x : Queue) : (s.setQueue q x).mgmt = s.mgmt := rfl
@[simp] theorem State.setQueue_flitSeq (s : State) (q : Nat) (x : Queue) : (s.setQueue q x).flitSeq = s.flitSeq := rfl
@[simp] theorem State.setQueue_bindings (s : State) (q : Nat) (x : Queue) : (s.setQueue q x).bindings = s.bindings := rfl
@[simp] theorem State.setQueue_binds (s : State) (q : Nat) (x : Queue) : (s.setQueue q x).binds = s.binds := rfl
@[simp] theorem State.setQueue_colls (s : State) (q : Nat) (x : Queue) : (s.setQueue q x).colls = s.colls := rfl
@[simp] theorem State.setQueue_staged (s : State) (q : Nat) (x : Queue) : (s.setQueue q x).staged = s.staged := rfl
@[simp] theorem State.setQueue_refusedColl (s : State) (q : Nat) (x : Queue) : (s.setQueue q x).refusedColl = s.refusedColl := rfl
@[simp] theorem State.setQueue_images (s : State) (q : Nat) (x : Queue) : (s.setQueue q x).images = s.images := rfl
@[simp] theorem State.setQueue_stored (s : State) (q : Nat) (x : Queue) : (s.setQueue q x).stored = s.stored := rfl
@[simp] theorem State.setQueue_minVersion (s : State) (q : Nat) (x : Queue) : (s.setQueue q x).minVersion = s.minVersion := rfl
@[simp] theorem State.setQueue_boot (s : State) (q : Nat) (x : Queue) : (s.setQueue q x).boot = s.boot := rfl
@[simp] theorem State.setQueue_bringUp (s : State) (q : Nat) (x : Queue) : (s.setQueue q x).bringUp = s.bringUp := rfl
@[simp] theorem State.setQueue_recovery (s : State) (q : Nat) (x : Queue) : (s.setQueue q x).recovery = s.recovery := rfl
@[simp] theorem State.setQueue_fatal (s : State) (q : Nat) (x : Queue) : (s.setQueue q x).fatal = s.fatal := rfl
@[simp] theorem State.setQueue_out (s : State) (q : Nat) (x : Queue) : (s.setQueue q x).out = s.out := rfl
@[simp] theorem State.setQueue_host (s : State) (q : Nat) (x : Queue) : (s.setQueue q x).host = s.host := rfl
@[simp] theorem State.setQueue_agenda (s : State) (q : Nat) (x : Queue) : (s.setQueue q x).agenda = s.agenda := rfl
@[simp] theorem State.setQueue_cur (s : State) (q : Nat) (x : Queue) : (s.setQueue q x).cur = s.cur := rfl
@[simp] theorem State.setQueue_fresh (s : State) (q : Nat) (x : Queue) : (s.setQueue q x).fresh = s.fresh := rfl

/-! ### modQueue -/

@[simp] theorem State.modQueue_cycle (s : State) (q : Nat) (x : Queue → Queue) : (s.modQueue q x).cycle = s.cycle := rfl
@[simp] theorem State.modQueue_time (s : State) (q : Nat) (x : Queue → Queue) : (s.modQueue q x).time = s.time := rfl
@[simp] theorem State.modQueue_timeFrac (s : State) (q : Nat) (x : Queue → Queue) : (s.modQueue q x).timeFrac = s.timeFrac := rfl
@[simp] theorem State.modQueue_steer (s : State) (q : Nat) (x : Queue → Queue) : (s.modQueue q x).steer = s.steer := rfl
@[simp] theorem State.modQueue_timeDebt (s : State) (q : Nat) (x : Queue → Queue) : (s.modQueue q x).timeDebt = s.timeDebt := rfl
@[simp] theorem State.modQueue_mem (s : State) (q : Nat) (x : Queue → Queue) : (s.modQueue q x).mem = s.mem := rfl
@[simp] theorem State.modQueue_poison (s : State) (q : Nat) (x : Queue → Queue) : (s.modQueue q x).poison = s.poison := rfl
@[simp] theorem State.modQueue_aspaces (s : State) (q : Nat) (x : Queue → Queue) : (s.modQueue q x).aspaces = s.aspaces := rfl
@[simp] theorem State.modQueue_dmas (s : State) (q : Nat) (x : Queue → Queue) : (s.modQueue q x).dmas = s.dmas := rfl
@[simp] theorem State.modQueue_failedStaging (s : State) (q : Nat) (x : Queue → Queue) : (s.modQueue q x).failedStaging = s.failedStaging := rfl
@[simp] theorem State.modQueue_stamp (s : State) (q : Nat) (x : Queue → Queue) : (s.modQueue q x).stamp = s.stamp := rfl
@[simp] theorem State.modQueue_groups (s : State) (q : Nat) (x : Queue → Queue) : (s.modQueue q x).groups = s.groups := rfl
@[simp] theorem State.modQueue_crews (s : State) (q : Nat) (x : Queue → Queue) : (s.modQueue q x).crews = s.crews := rfl
@[simp] theorem State.modQueue_cohorts (s : State) (q : Nat) (x : Queue → Queue) : (s.modQueue q x).cohorts = s.cohorts := rfl
@[simp] theorem State.modQueue_launches (s : State) (q : Nat) (x : Queue → Queue) : (s.modQueue q x).launches = s.launches := rfl
@[simp] theorem State.modQueue_cores (s : State) (q : Nat) (x : Queue → Queue) : (s.modQueue q x).cores = s.cores := rfl
@[simp] theorem State.modQueue_clusters (s : State) (q : Nat) (x : Queue → Queue) : (s.modQueue q x).clusters = s.clusters := rfl
@[simp] theorem State.modQueue_dies (s : State) (q : Nat) (x : Queue → Queue) : (s.modQueue q x).dies = s.dies := rfl
@[simp] theorem State.modQueue_nextId (s : State) (q : Nat) (x : Queue → Queue) : (s.modQueue q x).nextId = s.nextId := rfl
@[simp] theorem State.modQueue_nextCrew (s : State) (q : Nat) (x : Queue → Queue) : (s.modQueue q x).nextCrew = s.nextCrew := rfl
@[simp] theorem State.modQueue_nextCohort (s : State) (q : Nat) (x : Queue → Queue) : (s.modQueue q x).nextCohort = s.nextCohort := rfl
@[simp] theorem State.modQueue_nextLaunch (s : State) (q : Nat) (x : Queue → Queue) : (s.modQueue q x).nextLaunch = s.nextLaunch := rfl
@[simp] theorem State.modQueue_rotate (s : State) (q : Nat) (x : Queue → Queue) : (s.modQueue q x).rotate = s.rotate := rfl
@[simp] theorem State.modQueue_features (s : State) (q : Nat) (x : Queue → Queue) : (s.modQueue q x).features = s.features := rfl
@[simp] theorem State.modQueue_rows (s : State) (q : Nat) (x : Queue → Queue) : (s.modQueue q x).rows = s.rows := rfl
@[simp] theorem State.modQueue_coresReduced (s : State) (q : Nat) (x : Queue → Queue) : (s.modQueue q x).coresReduced = s.coresReduced := rfl
@[simp] theorem State.modQueue_bankOut (s : State) (q : Nat) (x : Queue → Queue) : (s.modQueue q x).bankOut = s.bankOut := rfl
@[simp] theorem State.modQueue_contextBase (s : State) (q : Nat) (x : Queue → Queue) : (s.modQueue q x).contextBase = s.contextBase := rfl
@[simp] theorem State.modQueue_preempt (s : State) (q : Nat) (x : Queue → Queue) : (s.modQueue q x).preempt = s.preempt := rfl
@[simp] theorem State.modQueue_coordX (s : State) (q : Nat) (x : Queue → Queue) : (s.modQueue q x).coordX = s.coordX := rfl
@[simp] theorem State.modQueue_coordY (s : State) (q : Nat) (x : Queue → Queue) : (s.modQueue q x).coordY = s.coordY := rfl
@[simp] theorem State.modQueue_linkRoute (s : State) (q : Nat) (x : Queue → Queue) : (s.modQueue q x).linkRoute = s.linkRoute := rfl
@[simp] theorem State.modQueue_memwinBase (s : State) (q : Nat) (x : Queue → Queue) : (s.modQueue q x).memwinBase = s.memwinBase := rfl
@[simp] theorem State.modQueue_heaps (s : State) (q : Nat) (x : Queue → Queue) : (s.modQueue q x).heaps = s.heaps := rfl
@[simp] theorem State.modQueue_ports (s : State) (q : Nat) (x : Queue → Queue) : (s.modQueue q x).ports = s.ports := rfl
@[simp] theorem State.modQueue_msixTable (s : State) (q : Nat) (x : Queue → Queue) : (s.modQueue q x).msixTable = s.msixTable := rfl
@[simp] theorem State.modQueue_msixPending (s : State) (q : Nat) (x : Queue → Queue) : (s.modQueue q x).msixPending = s.msixPending := rfl
@[simp] theorem State.modQueue_power (s : State) (q : Nat) (x : Queue → Queue) : (s.modQueue q x).power = s.power := rfl
@[simp] theorem State.modQueue_errlog (s : State) (q : Nat) (x : Queue → Queue) : (s.modQueue q x).errlog = s.errlog := rfl
@[simp] theorem State.modQueue_mbox (s : State) (q : Nat) (x : Queue → Queue) : (s.modQueue q x).mbox = s.mbox := rfl
@[simp] theorem State.modQueue_surveyK (s : State) (q : Nat) (x : Queue → Queue) : (s.modQueue q x).surveyK = s.surveyK := rfl
@[simp] theorem State.modQueue_surveyOn (s : State) (q : Nat) (x : Queue → Queue) : (s.modQueue q x).surveyOn = s.surveyOn := rfl
@[simp] theorem State.modQueue_survey (s : State) (q : Nat) (x : Queue → Queue) : (s.modQueue q x).survey = s.survey := rfl
@[simp] theorem State.modQueue_surveyLostMark (s : State) (q : Nat) (x : Queue → Queue) : (s.modQueue q x).surveyLostMark = s.surveyLostMark := rfl
@[simp] theorem State.modQueue_surveyLast (s : State) (q : Nat) (x : Queue → Queue) : (s.modQueue q x).surveyLast = s.surveyLast := rfl
@[simp] theorem State.modQueue_counters (s : State) (q : Nat) (x : Queue → Queue) : (s.modQueue q x).counters = s.counters := rfl
@[simp] theorem State.modQueue_sampleJ (s : State) (q : Nat) (x : Queue → Queue) : (s.modQueue q x).sampleJ = s.sampleJ := rfl
@[simp] theorem State.modQueue_sampleOn (s : State) (q : Nat) (x : Queue → Queue) : (s.modQueue q x).sampleOn = s.sampleOn := rfl
@[simp] theorem State.modQueue_sampleSeed (s : State) (q : Nat) (x : Queue → Queue) : (s.modQueue q x).sampleSeed = s.sampleSeed := rfl
@[simp] theorem State.modQueue_sample (s : State) (q : Nat) (x : Queue → Queue) : (s.modQueue q x).sample = s.sample := rfl
@[simp] theorem State.modQueue_traceSize (s : State) (q : Nat) (x : Queue → Queue) : (s.modQueue q x).traceSize = s.traceSize := rfl
@[simp] theorem State.modQueue_traceOn (s : State) (q : Nat) (x : Queue → Queue) : (s.modQueue q x).traceOn = s.traceOn := rfl
@[simp] theorem State.modQueue_traceBase (s : State) (q : Nat) (x : Queue → Queue) : (s.modQueue q x).traceBase = s.traceBase := rfl
@[simp] theorem State.modQueue_hostLinks (s : State) (q : Nat) (x : Queue → Queue) : (s.modQueue q x).hostLinks = s.hostLinks := rfl
@[simp] theorem State.modQueue_cxl (s : State) (q : Nat) (x : Queue → Queue) : (s.modQueue q x).cxl = s.cxl := rfl
@[simp] theorem State.modQueue_spans (s : State) (q : Nat) (x : Queue → Queue) : (s.modQueue q x).spans = s.spans := rfl
@[simp] theorem State.modQueue_exchanges (s : State) (q : Nat) (x : Queue → Queue) : (s.modQueue q x).exchanges = s.exchanges := rfl
@[simp] theorem State.modQueue_mgmt (s : State) (q : Nat) (x : Queue → Queue) : (s.modQueue q x).mgmt = s.mgmt := rfl
@[simp] theorem State.modQueue_flitSeq (s : State) (q : Nat) (x : Queue → Queue) : (s.modQueue q x).flitSeq = s.flitSeq := rfl
@[simp] theorem State.modQueue_bindings (s : State) (q : Nat) (x : Queue → Queue) : (s.modQueue q x).bindings = s.bindings := rfl
@[simp] theorem State.modQueue_binds (s : State) (q : Nat) (x : Queue → Queue) : (s.modQueue q x).binds = s.binds := rfl
@[simp] theorem State.modQueue_colls (s : State) (q : Nat) (x : Queue → Queue) : (s.modQueue q x).colls = s.colls := rfl
@[simp] theorem State.modQueue_staged (s : State) (q : Nat) (x : Queue → Queue) : (s.modQueue q x).staged = s.staged := rfl
@[simp] theorem State.modQueue_refusedColl (s : State) (q : Nat) (x : Queue → Queue) : (s.modQueue q x).refusedColl = s.refusedColl := rfl
@[simp] theorem State.modQueue_images (s : State) (q : Nat) (x : Queue → Queue) : (s.modQueue q x).images = s.images := rfl
@[simp] theorem State.modQueue_stored (s : State) (q : Nat) (x : Queue → Queue) : (s.modQueue q x).stored = s.stored := rfl
@[simp] theorem State.modQueue_minVersion (s : State) (q : Nat) (x : Queue → Queue) : (s.modQueue q x).minVersion = s.minVersion := rfl
@[simp] theorem State.modQueue_boot (s : State) (q : Nat) (x : Queue → Queue) : (s.modQueue q x).boot = s.boot := rfl
@[simp] theorem State.modQueue_bringUp (s : State) (q : Nat) (x : Queue → Queue) : (s.modQueue q x).bringUp = s.bringUp := rfl
@[simp] theorem State.modQueue_recovery (s : State) (q : Nat) (x : Queue → Queue) : (s.modQueue q x).recovery = s.recovery := rfl
@[simp] theorem State.modQueue_fatal (s : State) (q : Nat) (x : Queue → Queue) : (s.modQueue q x).fatal = s.fatal := rfl
@[simp] theorem State.modQueue_out (s : State) (q : Nat) (x : Queue → Queue) : (s.modQueue q x).out = s.out := rfl
@[simp] theorem State.modQueue_host (s : State) (q : Nat) (x : Queue → Queue) : (s.modQueue q x).host = s.host := rfl
@[simp] theorem State.modQueue_agenda (s : State) (q : Nat) (x : Queue → Queue) : (s.modQueue q x).agenda = s.agenda := rfl
@[simp] theorem State.modQueue_cur (s : State) (q : Nat) (x : Queue → Queue) : (s.modQueue q x).cur = s.cur := rfl
@[simp] theorem State.modQueue_fresh (s : State) (q : Nat) (x : Queue → Queue) : (s.modQueue q x).fresh = s.fresh := rfl

/-! ### modPort -/

@[simp] theorem State.modPort_cycle (s : State) (p : Nat) (x : Port → Port) : (s.modPort p x).cycle = s.cycle := rfl
@[simp] theorem State.modPort_time (s : State) (p : Nat) (x : Port → Port) : (s.modPort p x).time = s.time := rfl
@[simp] theorem State.modPort_timeFrac (s : State) (p : Nat) (x : Port → Port) : (s.modPort p x).timeFrac = s.timeFrac := rfl
@[simp] theorem State.modPort_steer (s : State) (p : Nat) (x : Port → Port) : (s.modPort p x).steer = s.steer := rfl
@[simp] theorem State.modPort_timeDebt (s : State) (p : Nat) (x : Port → Port) : (s.modPort p x).timeDebt = s.timeDebt := rfl
@[simp] theorem State.modPort_mem (s : State) (p : Nat) (x : Port → Port) : (s.modPort p x).mem = s.mem := rfl
@[simp] theorem State.modPort_poison (s : State) (p : Nat) (x : Port → Port) : (s.modPort p x).poison = s.poison := rfl
@[simp] theorem State.modPort_aspaces (s : State) (p : Nat) (x : Port → Port) : (s.modPort p x).aspaces = s.aspaces := rfl
@[simp] theorem State.modPort_dmas (s : State) (p : Nat) (x : Port → Port) : (s.modPort p x).dmas = s.dmas := rfl
@[simp] theorem State.modPort_failedStaging (s : State) (p : Nat) (x : Port → Port) : (s.modPort p x).failedStaging = s.failedStaging := rfl
@[simp] theorem State.modPort_stamp (s : State) (p : Nat) (x : Port → Port) : (s.modPort p x).stamp = s.stamp := rfl
@[simp] theorem State.modPort_groups (s : State) (p : Nat) (x : Port → Port) : (s.modPort p x).groups = s.groups := rfl
@[simp] theorem State.modPort_crews (s : State) (p : Nat) (x : Port → Port) : (s.modPort p x).crews = s.crews := rfl
@[simp] theorem State.modPort_cohorts (s : State) (p : Nat) (x : Port → Port) : (s.modPort p x).cohorts = s.cohorts := rfl
@[simp] theorem State.modPort_launches (s : State) (p : Nat) (x : Port → Port) : (s.modPort p x).launches = s.launches := rfl
@[simp] theorem State.modPort_cores (s : State) (p : Nat) (x : Port → Port) : (s.modPort p x).cores = s.cores := rfl
@[simp] theorem State.modPort_clusters (s : State) (p : Nat) (x : Port → Port) : (s.modPort p x).clusters = s.clusters := rfl
@[simp] theorem State.modPort_dies (s : State) (p : Nat) (x : Port → Port) : (s.modPort p x).dies = s.dies := rfl
@[simp] theorem State.modPort_nextId (s : State) (p : Nat) (x : Port → Port) : (s.modPort p x).nextId = s.nextId := rfl
@[simp] theorem State.modPort_nextCrew (s : State) (p : Nat) (x : Port → Port) : (s.modPort p x).nextCrew = s.nextCrew := rfl
@[simp] theorem State.modPort_nextCohort (s : State) (p : Nat) (x : Port → Port) : (s.modPort p x).nextCohort = s.nextCohort := rfl
@[simp] theorem State.modPort_nextLaunch (s : State) (p : Nat) (x : Port → Port) : (s.modPort p x).nextLaunch = s.nextLaunch := rfl
@[simp] theorem State.modPort_rotate (s : State) (p : Nat) (x : Port → Port) : (s.modPort p x).rotate = s.rotate := rfl
@[simp] theorem State.modPort_features (s : State) (p : Nat) (x : Port → Port) : (s.modPort p x).features = s.features := rfl
@[simp] theorem State.modPort_rows (s : State) (p : Nat) (x : Port → Port) : (s.modPort p x).rows = s.rows := rfl
@[simp] theorem State.modPort_coresReduced (s : State) (p : Nat) (x : Port → Port) : (s.modPort p x).coresReduced = s.coresReduced := rfl
@[simp] theorem State.modPort_bankOut (s : State) (p : Nat) (x : Port → Port) : (s.modPort p x).bankOut = s.bankOut := rfl
@[simp] theorem State.modPort_contextBase (s : State) (p : Nat) (x : Port → Port) : (s.modPort p x).contextBase = s.contextBase := rfl
@[simp] theorem State.modPort_preempt (s : State) (p : Nat) (x : Port → Port) : (s.modPort p x).preempt = s.preempt := rfl
@[simp] theorem State.modPort_coordX (s : State) (p : Nat) (x : Port → Port) : (s.modPort p x).coordX = s.coordX := rfl
@[simp] theorem State.modPort_coordY (s : State) (p : Nat) (x : Port → Port) : (s.modPort p x).coordY = s.coordY := rfl
@[simp] theorem State.modPort_linkRoute (s : State) (p : Nat) (x : Port → Port) : (s.modPort p x).linkRoute = s.linkRoute := rfl
@[simp] theorem State.modPort_memwinBase (s : State) (p : Nat) (x : Port → Port) : (s.modPort p x).memwinBase = s.memwinBase := rfl
@[simp] theorem State.modPort_heaps (s : State) (p : Nat) (x : Port → Port) : (s.modPort p x).heaps = s.heaps := rfl
@[simp] theorem State.modPort_queues (s : State) (p : Nat) (x : Port → Port) : (s.modPort p x).queues = s.queues := rfl
@[simp] theorem State.modPort_msixTable (s : State) (p : Nat) (x : Port → Port) : (s.modPort p x).msixTable = s.msixTable := rfl
@[simp] theorem State.modPort_msixPending (s : State) (p : Nat) (x : Port → Port) : (s.modPort p x).msixPending = s.msixPending := rfl
@[simp] theorem State.modPort_power (s : State) (p : Nat) (x : Port → Port) : (s.modPort p x).power = s.power := rfl
@[simp] theorem State.modPort_errlog (s : State) (p : Nat) (x : Port → Port) : (s.modPort p x).errlog = s.errlog := rfl
@[simp] theorem State.modPort_mbox (s : State) (p : Nat) (x : Port → Port) : (s.modPort p x).mbox = s.mbox := rfl
@[simp] theorem State.modPort_surveyK (s : State) (p : Nat) (x : Port → Port) : (s.modPort p x).surveyK = s.surveyK := rfl
@[simp] theorem State.modPort_surveyOn (s : State) (p : Nat) (x : Port → Port) : (s.modPort p x).surveyOn = s.surveyOn := rfl
@[simp] theorem State.modPort_survey (s : State) (p : Nat) (x : Port → Port) : (s.modPort p x).survey = s.survey := rfl
@[simp] theorem State.modPort_surveyLostMark (s : State) (p : Nat) (x : Port → Port) : (s.modPort p x).surveyLostMark = s.surveyLostMark := rfl
@[simp] theorem State.modPort_surveyLast (s : State) (p : Nat) (x : Port → Port) : (s.modPort p x).surveyLast = s.surveyLast := rfl
@[simp] theorem State.modPort_counters (s : State) (p : Nat) (x : Port → Port) : (s.modPort p x).counters = s.counters := rfl
@[simp] theorem State.modPort_sampleJ (s : State) (p : Nat) (x : Port → Port) : (s.modPort p x).sampleJ = s.sampleJ := rfl
@[simp] theorem State.modPort_sampleOn (s : State) (p : Nat) (x : Port → Port) : (s.modPort p x).sampleOn = s.sampleOn := rfl
@[simp] theorem State.modPort_sampleSeed (s : State) (p : Nat) (x : Port → Port) : (s.modPort p x).sampleSeed = s.sampleSeed := rfl
@[simp] theorem State.modPort_sample (s : State) (p : Nat) (x : Port → Port) : (s.modPort p x).sample = s.sample := rfl
@[simp] theorem State.modPort_traceSize (s : State) (p : Nat) (x : Port → Port) : (s.modPort p x).traceSize = s.traceSize := rfl
@[simp] theorem State.modPort_traceOn (s : State) (p : Nat) (x : Port → Port) : (s.modPort p x).traceOn = s.traceOn := rfl
@[simp] theorem State.modPort_traceBase (s : State) (p : Nat) (x : Port → Port) : (s.modPort p x).traceBase = s.traceBase := rfl
@[simp] theorem State.modPort_hostLinks (s : State) (p : Nat) (x : Port → Port) : (s.modPort p x).hostLinks = s.hostLinks := rfl
@[simp] theorem State.modPort_cxl (s : State) (p : Nat) (x : Port → Port) : (s.modPort p x).cxl = s.cxl := rfl
@[simp] theorem State.modPort_spans (s : State) (p : Nat) (x : Port → Port) : (s.modPort p x).spans = s.spans := rfl
@[simp] theorem State.modPort_exchanges (s : State) (p : Nat) (x : Port → Port) : (s.modPort p x).exchanges = s.exchanges := rfl
@[simp] theorem State.modPort_mgmt (s : State) (p : Nat) (x : Port → Port) : (s.modPort p x).mgmt = s.mgmt := rfl
@[simp] theorem State.modPort_flitSeq (s : State) (p : Nat) (x : Port → Port) : (s.modPort p x).flitSeq = s.flitSeq := rfl
@[simp] theorem State.modPort_bindings (s : State) (p : Nat) (x : Port → Port) : (s.modPort p x).bindings = s.bindings := rfl
@[simp] theorem State.modPort_binds (s : State) (p : Nat) (x : Port → Port) : (s.modPort p x).binds = s.binds := rfl
@[simp] theorem State.modPort_colls (s : State) (p : Nat) (x : Port → Port) : (s.modPort p x).colls = s.colls := rfl
@[simp] theorem State.modPort_staged (s : State) (p : Nat) (x : Port → Port) : (s.modPort p x).staged = s.staged := rfl
@[simp] theorem State.modPort_refusedColl (s : State) (p : Nat) (x : Port → Port) : (s.modPort p x).refusedColl = s.refusedColl := rfl
@[simp] theorem State.modPort_images (s : State) (p : Nat) (x : Port → Port) : (s.modPort p x).images = s.images := rfl
@[simp] theorem State.modPort_stored (s : State) (p : Nat) (x : Port → Port) : (s.modPort p x).stored = s.stored := rfl
@[simp] theorem State.modPort_minVersion (s : State) (p : Nat) (x : Port → Port) : (s.modPort p x).minVersion = s.minVersion := rfl
@[simp] theorem State.modPort_boot (s : State) (p : Nat) (x : Port → Port) : (s.modPort p x).boot = s.boot := rfl
@[simp] theorem State.modPort_bringUp (s : State) (p : Nat) (x : Port → Port) : (s.modPort p x).bringUp = s.bringUp := rfl
@[simp] theorem State.modPort_recovery (s : State) (p : Nat) (x : Port → Port) : (s.modPort p x).recovery = s.recovery := rfl
@[simp] theorem State.modPort_fatal (s : State) (p : Nat) (x : Port → Port) : (s.modPort p x).fatal = s.fatal := rfl
@[simp] theorem State.modPort_out (s : State) (p : Nat) (x : Port → Port) : (s.modPort p x).out = s.out := rfl
@[simp] theorem State.modPort_host (s : State) (p : Nat) (x : Port → Port) : (s.modPort p x).host = s.host := rfl
@[simp] theorem State.modPort_agenda (s : State) (p : Nat) (x : Port → Port) : (s.modPort p x).agenda = s.agenda := rfl
@[simp] theorem State.modPort_cur (s : State) (p : Nat) (x : Port → Port) : (s.modPort p x).cur = s.cur := rfl
@[simp] theorem State.modPort_fresh (s : State) (p : Nat) (x : Port → Port) : (s.modPort p x).fresh = s.fresh := rfl

/-! ### setCrew -/

@[simp] theorem State.setCrew_cycle (s : State) (c : Nat) (x : Crew) : (s.setCrew c x).cycle = s.cycle := rfl
@[simp] theorem State.setCrew_time (s : State) (c : Nat) (x : Crew) : (s.setCrew c x).time = s.time := rfl
@[simp] theorem State.setCrew_timeFrac (s : State) (c : Nat) (x : Crew) : (s.setCrew c x).timeFrac = s.timeFrac := rfl
@[simp] theorem State.setCrew_steer (s : State) (c : Nat) (x : Crew) : (s.setCrew c x).steer = s.steer := rfl
@[simp] theorem State.setCrew_timeDebt (s : State) (c : Nat) (x : Crew) : (s.setCrew c x).timeDebt = s.timeDebt := rfl
@[simp] theorem State.setCrew_mem (s : State) (c : Nat) (x : Crew) : (s.setCrew c x).mem = s.mem := rfl
@[simp] theorem State.setCrew_poison (s : State) (c : Nat) (x : Crew) : (s.setCrew c x).poison = s.poison := rfl
@[simp] theorem State.setCrew_aspaces (s : State) (c : Nat) (x : Crew) : (s.setCrew c x).aspaces = s.aspaces := rfl
@[simp] theorem State.setCrew_dmas (s : State) (c : Nat) (x : Crew) : (s.setCrew c x).dmas = s.dmas := rfl
@[simp] theorem State.setCrew_failedStaging (s : State) (c : Nat) (x : Crew) : (s.setCrew c x).failedStaging = s.failedStaging := rfl
@[simp] theorem State.setCrew_stamp (s : State) (c : Nat) (x : Crew) : (s.setCrew c x).stamp = s.stamp := rfl
@[simp] theorem State.setCrew_groups (s : State) (c : Nat) (x : Crew) : (s.setCrew c x).groups = s.groups := rfl
@[simp] theorem State.setCrew_cohorts (s : State) (c : Nat) (x : Crew) : (s.setCrew c x).cohorts = s.cohorts := rfl
@[simp] theorem State.setCrew_launches (s : State) (c : Nat) (x : Crew) : (s.setCrew c x).launches = s.launches := rfl
@[simp] theorem State.setCrew_cores (s : State) (c : Nat) (x : Crew) : (s.setCrew c x).cores = s.cores := rfl
@[simp] theorem State.setCrew_clusters (s : State) (c : Nat) (x : Crew) : (s.setCrew c x).clusters = s.clusters := rfl
@[simp] theorem State.setCrew_dies (s : State) (c : Nat) (x : Crew) : (s.setCrew c x).dies = s.dies := rfl
@[simp] theorem State.setCrew_nextId (s : State) (c : Nat) (x : Crew) : (s.setCrew c x).nextId = s.nextId := rfl
@[simp] theorem State.setCrew_nextCrew (s : State) (c : Nat) (x : Crew) : (s.setCrew c x).nextCrew = s.nextCrew := rfl
@[simp] theorem State.setCrew_nextCohort (s : State) (c : Nat) (x : Crew) : (s.setCrew c x).nextCohort = s.nextCohort := rfl
@[simp] theorem State.setCrew_nextLaunch (s : State) (c : Nat) (x : Crew) : (s.setCrew c x).nextLaunch = s.nextLaunch := rfl
@[simp] theorem State.setCrew_rotate (s : State) (c : Nat) (x : Crew) : (s.setCrew c x).rotate = s.rotate := rfl
@[simp] theorem State.setCrew_features (s : State) (c : Nat) (x : Crew) : (s.setCrew c x).features = s.features := rfl
@[simp] theorem State.setCrew_rows (s : State) (c : Nat) (x : Crew) : (s.setCrew c x).rows = s.rows := rfl
@[simp] theorem State.setCrew_coresReduced (s : State) (c : Nat) (x : Crew) : (s.setCrew c x).coresReduced = s.coresReduced := rfl
@[simp] theorem State.setCrew_bankOut (s : State) (c : Nat) (x : Crew) : (s.setCrew c x).bankOut = s.bankOut := rfl
@[simp] theorem State.setCrew_contextBase (s : State) (c : Nat) (x : Crew) : (s.setCrew c x).contextBase = s.contextBase := rfl
@[simp] theorem State.setCrew_preempt (s : State) (c : Nat) (x : Crew) : (s.setCrew c x).preempt = s.preempt := rfl
@[simp] theorem State.setCrew_coordX (s : State) (c : Nat) (x : Crew) : (s.setCrew c x).coordX = s.coordX := rfl
@[simp] theorem State.setCrew_coordY (s : State) (c : Nat) (x : Crew) : (s.setCrew c x).coordY = s.coordY := rfl
@[simp] theorem State.setCrew_linkRoute (s : State) (c : Nat) (x : Crew) : (s.setCrew c x).linkRoute = s.linkRoute := rfl
@[simp] theorem State.setCrew_memwinBase (s : State) (c : Nat) (x : Crew) : (s.setCrew c x).memwinBase = s.memwinBase := rfl
@[simp] theorem State.setCrew_heaps (s : State) (c : Nat) (x : Crew) : (s.setCrew c x).heaps = s.heaps := rfl
@[simp] theorem State.setCrew_queues (s : State) (c : Nat) (x : Crew) : (s.setCrew c x).queues = s.queues := rfl
@[simp] theorem State.setCrew_ports (s : State) (c : Nat) (x : Crew) : (s.setCrew c x).ports = s.ports := rfl
@[simp] theorem State.setCrew_msixTable (s : State) (c : Nat) (x : Crew) : (s.setCrew c x).msixTable = s.msixTable := rfl
@[simp] theorem State.setCrew_msixPending (s : State) (c : Nat) (x : Crew) : (s.setCrew c x).msixPending = s.msixPending := rfl
@[simp] theorem State.setCrew_power (s : State) (c : Nat) (x : Crew) : (s.setCrew c x).power = s.power := rfl
@[simp] theorem State.setCrew_errlog (s : State) (c : Nat) (x : Crew) : (s.setCrew c x).errlog = s.errlog := rfl
@[simp] theorem State.setCrew_mbox (s : State) (c : Nat) (x : Crew) : (s.setCrew c x).mbox = s.mbox := rfl
@[simp] theorem State.setCrew_surveyK (s : State) (c : Nat) (x : Crew) : (s.setCrew c x).surveyK = s.surveyK := rfl
@[simp] theorem State.setCrew_surveyOn (s : State) (c : Nat) (x : Crew) : (s.setCrew c x).surveyOn = s.surveyOn := rfl
@[simp] theorem State.setCrew_survey (s : State) (c : Nat) (x : Crew) : (s.setCrew c x).survey = s.survey := rfl
@[simp] theorem State.setCrew_surveyLostMark (s : State) (c : Nat) (x : Crew) : (s.setCrew c x).surveyLostMark = s.surveyLostMark := rfl
@[simp] theorem State.setCrew_surveyLast (s : State) (c : Nat) (x : Crew) : (s.setCrew c x).surveyLast = s.surveyLast := rfl
@[simp] theorem State.setCrew_counters (s : State) (c : Nat) (x : Crew) : (s.setCrew c x).counters = s.counters := rfl
@[simp] theorem State.setCrew_sampleJ (s : State) (c : Nat) (x : Crew) : (s.setCrew c x).sampleJ = s.sampleJ := rfl
@[simp] theorem State.setCrew_sampleOn (s : State) (c : Nat) (x : Crew) : (s.setCrew c x).sampleOn = s.sampleOn := rfl
@[simp] theorem State.setCrew_sampleSeed (s : State) (c : Nat) (x : Crew) : (s.setCrew c x).sampleSeed = s.sampleSeed := rfl
@[simp] theorem State.setCrew_sample (s : State) (c : Nat) (x : Crew) : (s.setCrew c x).sample = s.sample := rfl
@[simp] theorem State.setCrew_traceSize (s : State) (c : Nat) (x : Crew) : (s.setCrew c x).traceSize = s.traceSize := rfl
@[simp] theorem State.setCrew_traceOn (s : State) (c : Nat) (x : Crew) : (s.setCrew c x).traceOn = s.traceOn := rfl
@[simp] theorem State.setCrew_traceBase (s : State) (c : Nat) (x : Crew) : (s.setCrew c x).traceBase = s.traceBase := rfl
@[simp] theorem State.setCrew_hostLinks (s : State) (c : Nat) (x : Crew) : (s.setCrew c x).hostLinks = s.hostLinks := rfl
@[simp] theorem State.setCrew_cxl (s : State) (c : Nat) (x : Crew) : (s.setCrew c x).cxl = s.cxl := rfl
@[simp] theorem State.setCrew_spans (s : State) (c : Nat) (x : Crew) : (s.setCrew c x).spans = s.spans := rfl
@[simp] theorem State.setCrew_exchanges (s : State) (c : Nat) (x : Crew) : (s.setCrew c x).exchanges = s.exchanges := rfl
@[simp] theorem State.setCrew_mgmt (s : State) (c : Nat) (x : Crew) : (s.setCrew c x).mgmt = s.mgmt := rfl
@[simp] theorem State.setCrew_flitSeq (s : State) (c : Nat) (x : Crew) : (s.setCrew c x).flitSeq = s.flitSeq := rfl
@[simp] theorem State.setCrew_bindings (s : State) (c : Nat) (x : Crew) : (s.setCrew c x).bindings = s.bindings := rfl
@[simp] theorem State.setCrew_binds (s : State) (c : Nat) (x : Crew) : (s.setCrew c x).binds = s.binds := rfl
@[simp] theorem State.setCrew_colls (s : State) (c : Nat) (x : Crew) : (s.setCrew c x).colls = s.colls := rfl
@[simp] theorem State.setCrew_staged (s : State) (c : Nat) (x : Crew) : (s.setCrew c x).staged = s.staged := rfl
@[simp] theorem State.setCrew_refusedColl (s : State) (c : Nat) (x : Crew) : (s.setCrew c x).refusedColl = s.refusedColl := rfl
@[simp] theorem State.setCrew_images (s : State) (c : Nat) (x : Crew) : (s.setCrew c x).images = s.images := rfl
@[simp] theorem State.setCrew_stored (s : State) (c : Nat) (x : Crew) : (s.setCrew c x).stored = s.stored := rfl
@[simp] theorem State.setCrew_minVersion (s : State) (c : Nat) (x : Crew) : (s.setCrew c x).minVersion = s.minVersion := rfl
@[simp] theorem State.setCrew_boot (s : State) (c : Nat) (x : Crew) : (s.setCrew c x).boot = s.boot := rfl
@[simp] theorem State.setCrew_bringUp (s : State) (c : Nat) (x : Crew) : (s.setCrew c x).bringUp = s.bringUp := rfl
@[simp] theorem State.setCrew_recovery (s : State) (c : Nat) (x : Crew) : (s.setCrew c x).recovery = s.recovery := rfl
@[simp] theorem State.setCrew_fatal (s : State) (c : Nat) (x : Crew) : (s.setCrew c x).fatal = s.fatal := rfl
@[simp] theorem State.setCrew_out (s : State) (c : Nat) (x : Crew) : (s.setCrew c x).out = s.out := rfl
@[simp] theorem State.setCrew_host (s : State) (c : Nat) (x : Crew) : (s.setCrew c x).host = s.host := rfl
@[simp] theorem State.setCrew_agenda (s : State) (c : Nat) (x : Crew) : (s.setCrew c x).agenda = s.agenda := rfl
@[simp] theorem State.setCrew_cur (s : State) (c : Nat) (x : Crew) : (s.setCrew c x).cur = s.cur := rfl
@[simp] theorem State.setCrew_fresh (s : State) (c : Nat) (x : Crew) : (s.setCrew c x).fresh = s.fresh := rfl

/-! ### emit -/

@[simp] theorem State.emit_cycle (s : State) (o : Out) : (s.emit o).cycle = s.cycle := rfl
@[simp] theorem State.emit_time (s : State) (o : Out) : (s.emit o).time = s.time := rfl
@[simp] theorem State.emit_timeFrac (s : State) (o : Out) : (s.emit o).timeFrac = s.timeFrac := rfl
@[simp] theorem State.emit_steer (s : State) (o : Out) : (s.emit o).steer = s.steer := rfl
@[simp] theorem State.emit_timeDebt (s : State) (o : Out) : (s.emit o).timeDebt = s.timeDebt := rfl
@[simp] theorem State.emit_mem (s : State) (o : Out) : (s.emit o).mem = s.mem := rfl
@[simp] theorem State.emit_poison (s : State) (o : Out) : (s.emit o).poison = s.poison := rfl
@[simp] theorem State.emit_aspaces (s : State) (o : Out) : (s.emit o).aspaces = s.aspaces := rfl
@[simp] theorem State.emit_dmas (s : State) (o : Out) : (s.emit o).dmas = s.dmas := rfl
@[simp] theorem State.emit_failedStaging (s : State) (o : Out) : (s.emit o).failedStaging = s.failedStaging := rfl
@[simp] theorem State.emit_stamp (s : State) (o : Out) : (s.emit o).stamp = s.stamp := rfl
@[simp] theorem State.emit_groups (s : State) (o : Out) : (s.emit o).groups = s.groups := rfl
@[simp] theorem State.emit_crews (s : State) (o : Out) : (s.emit o).crews = s.crews := rfl
@[simp] theorem State.emit_cohorts (s : State) (o : Out) : (s.emit o).cohorts = s.cohorts := rfl
@[simp] theorem State.emit_launches (s : State) (o : Out) : (s.emit o).launches = s.launches := rfl
@[simp] theorem State.emit_cores (s : State) (o : Out) : (s.emit o).cores = s.cores := rfl
@[simp] theorem State.emit_clusters (s : State) (o : Out) : (s.emit o).clusters = s.clusters := rfl
@[simp] theorem State.emit_dies (s : State) (o : Out) : (s.emit o).dies = s.dies := rfl
@[simp] theorem State.emit_nextId (s : State) (o : Out) : (s.emit o).nextId = s.nextId := rfl
@[simp] theorem State.emit_nextCrew (s : State) (o : Out) : (s.emit o).nextCrew = s.nextCrew := rfl
@[simp] theorem State.emit_nextCohort (s : State) (o : Out) : (s.emit o).nextCohort = s.nextCohort := rfl
@[simp] theorem State.emit_nextLaunch (s : State) (o : Out) : (s.emit o).nextLaunch = s.nextLaunch := rfl
@[simp] theorem State.emit_rotate (s : State) (o : Out) : (s.emit o).rotate = s.rotate := rfl
@[simp] theorem State.emit_features (s : State) (o : Out) : (s.emit o).features = s.features := rfl
@[simp] theorem State.emit_rows (s : State) (o : Out) : (s.emit o).rows = s.rows := rfl
@[simp] theorem State.emit_coresReduced (s : State) (o : Out) : (s.emit o).coresReduced = s.coresReduced := rfl
@[simp] theorem State.emit_bankOut (s : State) (o : Out) : (s.emit o).bankOut = s.bankOut := rfl
@[simp] theorem State.emit_contextBase (s : State) (o : Out) : (s.emit o).contextBase = s.contextBase := rfl
@[simp] theorem State.emit_preempt (s : State) (o : Out) : (s.emit o).preempt = s.preempt := rfl
@[simp] theorem State.emit_coordX (s : State) (o : Out) : (s.emit o).coordX = s.coordX := rfl
@[simp] theorem State.emit_coordY (s : State) (o : Out) : (s.emit o).coordY = s.coordY := rfl
@[simp] theorem State.emit_linkRoute (s : State) (o : Out) : (s.emit o).linkRoute = s.linkRoute := rfl
@[simp] theorem State.emit_memwinBase (s : State) (o : Out) : (s.emit o).memwinBase = s.memwinBase := rfl
@[simp] theorem State.emit_heaps (s : State) (o : Out) : (s.emit o).heaps = s.heaps := rfl
@[simp] theorem State.emit_queues (s : State) (o : Out) : (s.emit o).queues = s.queues := rfl
@[simp] theorem State.emit_ports (s : State) (o : Out) : (s.emit o).ports = s.ports := rfl
@[simp] theorem State.emit_msixTable (s : State) (o : Out) : (s.emit o).msixTable = s.msixTable := rfl
@[simp] theorem State.emit_msixPending (s : State) (o : Out) : (s.emit o).msixPending = s.msixPending := rfl
@[simp] theorem State.emit_power (s : State) (o : Out) : (s.emit o).power = s.power := rfl
@[simp] theorem State.emit_errlog (s : State) (o : Out) : (s.emit o).errlog = s.errlog := rfl
@[simp] theorem State.emit_mbox (s : State) (o : Out) : (s.emit o).mbox = s.mbox := rfl
@[simp] theorem State.emit_surveyK (s : State) (o : Out) : (s.emit o).surveyK = s.surveyK := rfl
@[simp] theorem State.emit_surveyOn (s : State) (o : Out) : (s.emit o).surveyOn = s.surveyOn := rfl
@[simp] theorem State.emit_survey (s : State) (o : Out) : (s.emit o).survey = s.survey := rfl
@[simp] theorem State.emit_surveyLostMark (s : State) (o : Out) : (s.emit o).surveyLostMark = s.surveyLostMark := rfl
@[simp] theorem State.emit_surveyLast (s : State) (o : Out) : (s.emit o).surveyLast = s.surveyLast := rfl
@[simp] theorem State.emit_counters (s : State) (o : Out) : (s.emit o).counters = s.counters := rfl
@[simp] theorem State.emit_sampleJ (s : State) (o : Out) : (s.emit o).sampleJ = s.sampleJ := rfl
@[simp] theorem State.emit_sampleOn (s : State) (o : Out) : (s.emit o).sampleOn = s.sampleOn := rfl
@[simp] theorem State.emit_sampleSeed (s : State) (o : Out) : (s.emit o).sampleSeed = s.sampleSeed := rfl
@[simp] theorem State.emit_sample (s : State) (o : Out) : (s.emit o).sample = s.sample := rfl
@[simp] theorem State.emit_traceSize (s : State) (o : Out) : (s.emit o).traceSize = s.traceSize := rfl
@[simp] theorem State.emit_traceOn (s : State) (o : Out) : (s.emit o).traceOn = s.traceOn := rfl
@[simp] theorem State.emit_traceBase (s : State) (o : Out) : (s.emit o).traceBase = s.traceBase := rfl
@[simp] theorem State.emit_hostLinks (s : State) (o : Out) : (s.emit o).hostLinks = s.hostLinks := rfl
@[simp] theorem State.emit_cxl (s : State) (o : Out) : (s.emit o).cxl = s.cxl := rfl
@[simp] theorem State.emit_spans (s : State) (o : Out) : (s.emit o).spans = s.spans := rfl
@[simp] theorem State.emit_exchanges (s : State) (o : Out) : (s.emit o).exchanges = s.exchanges := rfl
@[simp] theorem State.emit_mgmt (s : State) (o : Out) : (s.emit o).mgmt = s.mgmt := rfl
@[simp] theorem State.emit_flitSeq (s : State) (o : Out) : (s.emit o).flitSeq = s.flitSeq := rfl
@[simp] theorem State.emit_bindings (s : State) (o : Out) : (s.emit o).bindings = s.bindings := rfl
@[simp] theorem State.emit_binds (s : State) (o : Out) : (s.emit o).binds = s.binds := rfl
@[simp] theorem State.emit_colls (s : State) (o : Out) : (s.emit o).colls = s.colls := rfl
@[simp] theorem State.emit_staged (s : State) (o : Out) : (s.emit o).staged = s.staged := rfl
@[simp] theorem State.emit_refusedColl (s : State) (o : Out) : (s.emit o).refusedColl = s.refusedColl := rfl
@[simp] theorem State.emit_images (s : State) (o : Out) : (s.emit o).images = s.images := rfl
@[simp] theorem State.emit_stored (s : State) (o : Out) : (s.emit o).stored = s.stored := rfl
@[simp] theorem State.emit_minVersion (s : State) (o : Out) : (s.emit o).minVersion = s.minVersion := rfl
@[simp] theorem State.emit_boot (s : State) (o : Out) : (s.emit o).boot = s.boot := rfl
@[simp] theorem State.emit_bringUp (s : State) (o : Out) : (s.emit o).bringUp = s.bringUp := rfl
@[simp] theorem State.emit_recovery (s : State) (o : Out) : (s.emit o).recovery = s.recovery := rfl
@[simp] theorem State.emit_fatal (s : State) (o : Out) : (s.emit o).fatal = s.fatal := rfl
@[simp] theorem State.emit_host (s : State) (o : Out) : (s.emit o).host = s.host := rfl
@[simp] theorem State.emit_agenda (s : State) (o : Out) : (s.emit o).agenda = s.agenda := rfl
@[simp] theorem State.emit_cur (s : State) (o : Out) : (s.emit o).cur = s.cur := rfl
@[simp] theorem State.emit_fresh (s : State) (o : Out) : (s.emit o).fresh = s.fresh := rfl

/-! ### count -/

@[simp] theorem State.count_cycle (s : State) (u w n : Nat) : (s.count u w n).cycle = s.cycle := rfl
@[simp] theorem State.count_time (s : State) (u w n : Nat) : (s.count u w n).time = s.time := rfl
@[simp] theorem State.count_timeFrac (s : State) (u w n : Nat) : (s.count u w n).timeFrac = s.timeFrac := rfl
@[simp] theorem State.count_steer (s : State) (u w n : Nat) : (s.count u w n).steer = s.steer := rfl
@[simp] theorem State.count_timeDebt (s : State) (u w n : Nat) : (s.count u w n).timeDebt = s.timeDebt := rfl
@[simp] theorem State.count_mem (s : State) (u w n : Nat) : (s.count u w n).mem = s.mem := rfl
@[simp] theorem State.count_poison (s : State) (u w n : Nat) : (s.count u w n).poison = s.poison := rfl
@[simp] theorem State.count_aspaces (s : State) (u w n : Nat) : (s.count u w n).aspaces = s.aspaces := rfl
@[simp] theorem State.count_dmas (s : State) (u w n : Nat) : (s.count u w n).dmas = s.dmas := rfl
@[simp] theorem State.count_failedStaging (s : State) (u w n : Nat) : (s.count u w n).failedStaging = s.failedStaging := rfl
@[simp] theorem State.count_stamp (s : State) (u w n : Nat) : (s.count u w n).stamp = s.stamp := rfl
@[simp] theorem State.count_groups (s : State) (u w n : Nat) : (s.count u w n).groups = s.groups := rfl
@[simp] theorem State.count_crews (s : State) (u w n : Nat) : (s.count u w n).crews = s.crews := rfl
@[simp] theorem State.count_cohorts (s : State) (u w n : Nat) : (s.count u w n).cohorts = s.cohorts := rfl
@[simp] theorem State.count_launches (s : State) (u w n : Nat) : (s.count u w n).launches = s.launches := rfl
@[simp] theorem State.count_cores (s : State) (u w n : Nat) : (s.count u w n).cores = s.cores := rfl
@[simp] theorem State.count_clusters (s : State) (u w n : Nat) : (s.count u w n).clusters = s.clusters := rfl
@[simp] theorem State.count_dies (s : State) (u w n : Nat) : (s.count u w n).dies = s.dies := rfl
@[simp] theorem State.count_nextId (s : State) (u w n : Nat) : (s.count u w n).nextId = s.nextId := rfl
@[simp] theorem State.count_nextCrew (s : State) (u w n : Nat) : (s.count u w n).nextCrew = s.nextCrew := rfl
@[simp] theorem State.count_nextCohort (s : State) (u w n : Nat) : (s.count u w n).nextCohort = s.nextCohort := rfl
@[simp] theorem State.count_nextLaunch (s : State) (u w n : Nat) : (s.count u w n).nextLaunch = s.nextLaunch := rfl
@[simp] theorem State.count_rotate (s : State) (u w n : Nat) : (s.count u w n).rotate = s.rotate := rfl
@[simp] theorem State.count_features (s : State) (u w n : Nat) : (s.count u w n).features = s.features := rfl
@[simp] theorem State.count_rows (s : State) (u w n : Nat) : (s.count u w n).rows = s.rows := rfl
@[simp] theorem State.count_coresReduced (s : State) (u w n : Nat) : (s.count u w n).coresReduced = s.coresReduced := rfl
@[simp] theorem State.count_bankOut (s : State) (u w n : Nat) : (s.count u w n).bankOut = s.bankOut := rfl
@[simp] theorem State.count_contextBase (s : State) (u w n : Nat) : (s.count u w n).contextBase = s.contextBase := rfl
@[simp] theorem State.count_preempt (s : State) (u w n : Nat) : (s.count u w n).preempt = s.preempt := rfl
@[simp] theorem State.count_coordX (s : State) (u w n : Nat) : (s.count u w n).coordX = s.coordX := rfl
@[simp] theorem State.count_coordY (s : State) (u w n : Nat) : (s.count u w n).coordY = s.coordY := rfl
@[simp] theorem State.count_linkRoute (s : State) (u w n : Nat) : (s.count u w n).linkRoute = s.linkRoute := rfl
@[simp] theorem State.count_memwinBase (s : State) (u w n : Nat) : (s.count u w n).memwinBase = s.memwinBase := rfl
@[simp] theorem State.count_heaps (s : State) (u w n : Nat) : (s.count u w n).heaps = s.heaps := rfl
@[simp] theorem State.count_queues (s : State) (u w n : Nat) : (s.count u w n).queues = s.queues := rfl
@[simp] theorem State.count_ports (s : State) (u w n : Nat) : (s.count u w n).ports = s.ports := rfl
@[simp] theorem State.count_msixTable (s : State) (u w n : Nat) : (s.count u w n).msixTable = s.msixTable := rfl
@[simp] theorem State.count_msixPending (s : State) (u w n : Nat) : (s.count u w n).msixPending = s.msixPending := rfl
@[simp] theorem State.count_power (s : State) (u w n : Nat) : (s.count u w n).power = s.power := rfl
@[simp] theorem State.count_errlog (s : State) (u w n : Nat) : (s.count u w n).errlog = s.errlog := rfl
@[simp] theorem State.count_mbox (s : State) (u w n : Nat) : (s.count u w n).mbox = s.mbox := rfl
@[simp] theorem State.count_surveyK (s : State) (u w n : Nat) : (s.count u w n).surveyK = s.surveyK := rfl
@[simp] theorem State.count_surveyOn (s : State) (u w n : Nat) : (s.count u w n).surveyOn = s.surveyOn := rfl
@[simp] theorem State.count_survey (s : State) (u w n : Nat) : (s.count u w n).survey = s.survey := rfl
@[simp] theorem State.count_surveyLostMark (s : State) (u w n : Nat) : (s.count u w n).surveyLostMark = s.surveyLostMark := rfl
@[simp] theorem State.count_surveyLast (s : State) (u w n : Nat) : (s.count u w n).surveyLast = s.surveyLast := rfl
@[simp] theorem State.count_sampleJ (s : State) (u w n : Nat) : (s.count u w n).sampleJ = s.sampleJ := rfl
@[simp] theorem State.count_sampleOn (s : State) (u w n : Nat) : (s.count u w n).sampleOn = s.sampleOn := rfl
@[simp] theorem State.count_sampleSeed (s : State) (u w n : Nat) : (s.count u w n).sampleSeed = s.sampleSeed := rfl
@[simp] theorem State.count_sample (s : State) (u w n : Nat) : (s.count u w n).sample = s.sample := rfl
@[simp] theorem State.count_traceSize (s : State) (u w n : Nat) : (s.count u w n).traceSize = s.traceSize := rfl
@[simp] theorem State.count_traceOn (s : State) (u w n : Nat) : (s.count u w n).traceOn = s.traceOn := rfl
@[simp] theorem State.count_traceBase (s : State) (u w n : Nat) : (s.count u w n).traceBase = s.traceBase := rfl
@[simp] theorem State.count_hostLinks (s : State) (u w n : Nat) : (s.count u w n).hostLinks = s.hostLinks := rfl
@[simp] theorem State.count_cxl (s : State) (u w n : Nat) : (s.count u w n).cxl = s.cxl := rfl
@[simp] theorem State.count_spans (s : State) (u w n : Nat) : (s.count u w n).spans = s.spans := rfl
@[simp] theorem State.count_exchanges (s : State) (u w n : Nat) : (s.count u w n).exchanges = s.exchanges := rfl
@[simp] theorem State.count_mgmt (s : State) (u w n : Nat) : (s.count u w n).mgmt = s.mgmt := rfl
@[simp] theorem State.count_flitSeq (s : State) (u w n : Nat) : (s.count u w n).flitSeq = s.flitSeq := rfl
@[simp] theorem State.count_bindings (s : State) (u w n : Nat) : (s.count u w n).bindings = s.bindings := rfl
@[simp] theorem State.count_binds (s : State) (u w n : Nat) : (s.count u w n).binds = s.binds := rfl
@[simp] theorem State.count_colls (s : State) (u w n : Nat) : (s.count u w n).colls = s.colls := rfl
@[simp] theorem State.count_staged (s : State) (u w n : Nat) : (s.count u w n).staged = s.staged := rfl
@[simp] theorem State.count_refusedColl (s : State) (u w n : Nat) : (s.count u w n).refusedColl = s.refusedColl := rfl
@[simp] theorem State.count_images (s : State) (u w n : Nat) : (s.count u w n).images = s.images := rfl
@[simp] theorem State.count_stored (s : State) (u w n : Nat) : (s.count u w n).stored = s.stored := rfl
@[simp] theorem State.count_minVersion (s : State) (u w n : Nat) : (s.count u w n).minVersion = s.minVersion := rfl
@[simp] theorem State.count_boot (s : State) (u w n : Nat) : (s.count u w n).boot = s.boot := rfl
@[simp] theorem State.count_bringUp (s : State) (u w n : Nat) : (s.count u w n).bringUp = s.bringUp := rfl
@[simp] theorem State.count_recovery (s : State) (u w n : Nat) : (s.count u w n).recovery = s.recovery := rfl
@[simp] theorem State.count_fatal (s : State) (u w n : Nat) : (s.count u w n).fatal = s.fatal := rfl
@[simp] theorem State.count_out (s : State) (u w n : Nat) : (s.count u w n).out = s.out := rfl
@[simp] theorem State.count_host (s : State) (u w n : Nat) : (s.count u w n).host = s.host := rfl
@[simp] theorem State.count_agenda (s : State) (u w n : Nat) : (s.count u w n).agenda = s.agenda := rfl
@[simp] theorem State.count_cur (s : State) (u w n : Nat) : (s.count u w n).cur = s.cur := rfl
@[simp] theorem State.count_fresh (s : State) (u w n : Nat) : (s.count u w n).fresh = s.fresh := rfl

/-! ### putMem -/

@[simp] theorem State.putMem_cycle (s : State) (a : Nat) (b : List Byte) : (s.putMem a b).cycle = s.cycle := rfl
@[simp] theorem State.putMem_time (s : State) (a : Nat) (b : List Byte) : (s.putMem a b).time = s.time := rfl
@[simp] theorem State.putMem_timeFrac (s : State) (a : Nat) (b : List Byte) : (s.putMem a b).timeFrac = s.timeFrac := rfl
@[simp] theorem State.putMem_steer (s : State) (a : Nat) (b : List Byte) : (s.putMem a b).steer = s.steer := rfl
@[simp] theorem State.putMem_timeDebt (s : State) (a : Nat) (b : List Byte) : (s.putMem a b).timeDebt = s.timeDebt := rfl
@[simp] theorem State.putMem_aspaces (s : State) (a : Nat) (b : List Byte) : (s.putMem a b).aspaces = s.aspaces := rfl
@[simp] theorem State.putMem_dmas (s : State) (a : Nat) (b : List Byte) : (s.putMem a b).dmas = s.dmas := rfl
@[simp] theorem State.putMem_failedStaging (s : State) (a : Nat) (b : List Byte) : (s.putMem a b).failedStaging = s.failedStaging := rfl
@[simp] theorem State.putMem_stamp (s : State) (a : Nat) (b : List Byte) : (s.putMem a b).stamp = s.stamp := rfl
@[simp] theorem State.putMem_groups (s : State) (a : Nat) (b : List Byte) : (s.putMem a b).groups = s.groups := rfl
@[simp] theorem State.putMem_crews (s : State) (a : Nat) (b : List Byte) : (s.putMem a b).crews = s.crews := rfl
@[simp] theorem State.putMem_cohorts (s : State) (a : Nat) (b : List Byte) : (s.putMem a b).cohorts = s.cohorts := rfl
@[simp] theorem State.putMem_launches (s : State) (a : Nat) (b : List Byte) : (s.putMem a b).launches = s.launches := rfl
@[simp] theorem State.putMem_cores (s : State) (a : Nat) (b : List Byte) : (s.putMem a b).cores = s.cores := rfl
@[simp] theorem State.putMem_clusters (s : State) (a : Nat) (b : List Byte) : (s.putMem a b).clusters = s.clusters := rfl
@[simp] theorem State.putMem_dies (s : State) (a : Nat) (b : List Byte) : (s.putMem a b).dies = s.dies := rfl
@[simp] theorem State.putMem_nextId (s : State) (a : Nat) (b : List Byte) : (s.putMem a b).nextId = s.nextId := rfl
@[simp] theorem State.putMem_nextCrew (s : State) (a : Nat) (b : List Byte) : (s.putMem a b).nextCrew = s.nextCrew := rfl
@[simp] theorem State.putMem_nextCohort (s : State) (a : Nat) (b : List Byte) : (s.putMem a b).nextCohort = s.nextCohort := rfl
@[simp] theorem State.putMem_nextLaunch (s : State) (a : Nat) (b : List Byte) : (s.putMem a b).nextLaunch = s.nextLaunch := rfl
@[simp] theorem State.putMem_rotate (s : State) (a : Nat) (b : List Byte) : (s.putMem a b).rotate = s.rotate := rfl
@[simp] theorem State.putMem_features (s : State) (a : Nat) (b : List Byte) : (s.putMem a b).features = s.features := rfl
@[simp] theorem State.putMem_rows (s : State) (a : Nat) (b : List Byte) : (s.putMem a b).rows = s.rows := rfl
@[simp] theorem State.putMem_coresReduced (s : State) (a : Nat) (b : List Byte) : (s.putMem a b).coresReduced = s.coresReduced := rfl
@[simp] theorem State.putMem_bankOut (s : State) (a : Nat) (b : List Byte) : (s.putMem a b).bankOut = s.bankOut := rfl
@[simp] theorem State.putMem_contextBase (s : State) (a : Nat) (b : List Byte) : (s.putMem a b).contextBase = s.contextBase := rfl
@[simp] theorem State.putMem_preempt (s : State) (a : Nat) (b : List Byte) : (s.putMem a b).preempt = s.preempt := rfl
@[simp] theorem State.putMem_coordX (s : State) (a : Nat) (b : List Byte) : (s.putMem a b).coordX = s.coordX := rfl
@[simp] theorem State.putMem_coordY (s : State) (a : Nat) (b : List Byte) : (s.putMem a b).coordY = s.coordY := rfl
@[simp] theorem State.putMem_linkRoute (s : State) (a : Nat) (b : List Byte) : (s.putMem a b).linkRoute = s.linkRoute := rfl
@[simp] theorem State.putMem_memwinBase (s : State) (a : Nat) (b : List Byte) : (s.putMem a b).memwinBase = s.memwinBase := rfl
@[simp] theorem State.putMem_heaps (s : State) (a : Nat) (b : List Byte) : (s.putMem a b).heaps = s.heaps := rfl
@[simp] theorem State.putMem_queues (s : State) (a : Nat) (b : List Byte) : (s.putMem a b).queues = s.queues := rfl
@[simp] theorem State.putMem_ports (s : State) (a : Nat) (b : List Byte) : (s.putMem a b).ports = s.ports := rfl
@[simp] theorem State.putMem_msixTable (s : State) (a : Nat) (b : List Byte) : (s.putMem a b).msixTable = s.msixTable := rfl
@[simp] theorem State.putMem_msixPending (s : State) (a : Nat) (b : List Byte) : (s.putMem a b).msixPending = s.msixPending := rfl
@[simp] theorem State.putMem_power (s : State) (a : Nat) (b : List Byte) : (s.putMem a b).power = s.power := rfl
@[simp] theorem State.putMem_errlog (s : State) (a : Nat) (b : List Byte) : (s.putMem a b).errlog = s.errlog := rfl
@[simp] theorem State.putMem_mbox (s : State) (a : Nat) (b : List Byte) : (s.putMem a b).mbox = s.mbox := rfl
@[simp] theorem State.putMem_surveyK (s : State) (a : Nat) (b : List Byte) : (s.putMem a b).surveyK = s.surveyK := rfl
@[simp] theorem State.putMem_surveyOn (s : State) (a : Nat) (b : List Byte) : (s.putMem a b).surveyOn = s.surveyOn := rfl
@[simp] theorem State.putMem_survey (s : State) (a : Nat) (b : List Byte) : (s.putMem a b).survey = s.survey := rfl
@[simp] theorem State.putMem_surveyLostMark (s : State) (a : Nat) (b : List Byte) : (s.putMem a b).surveyLostMark = s.surveyLostMark := rfl
@[simp] theorem State.putMem_surveyLast (s : State) (a : Nat) (b : List Byte) : (s.putMem a b).surveyLast = s.surveyLast := rfl
@[simp] theorem State.putMem_counters (s : State) (a : Nat) (b : List Byte) : (s.putMem a b).counters = s.counters := rfl
@[simp] theorem State.putMem_sampleJ (s : State) (a : Nat) (b : List Byte) : (s.putMem a b).sampleJ = s.sampleJ := rfl
@[simp] theorem State.putMem_sampleOn (s : State) (a : Nat) (b : List Byte) : (s.putMem a b).sampleOn = s.sampleOn := rfl
@[simp] theorem State.putMem_sampleSeed (s : State) (a : Nat) (b : List Byte) : (s.putMem a b).sampleSeed = s.sampleSeed := rfl
@[simp] theorem State.putMem_sample (s : State) (a : Nat) (b : List Byte) : (s.putMem a b).sample = s.sample := rfl
@[simp] theorem State.putMem_traceSize (s : State) (a : Nat) (b : List Byte) : (s.putMem a b).traceSize = s.traceSize := rfl
@[simp] theorem State.putMem_traceOn (s : State) (a : Nat) (b : List Byte) : (s.putMem a b).traceOn = s.traceOn := rfl
@[simp] theorem State.putMem_traceBase (s : State) (a : Nat) (b : List Byte) : (s.putMem a b).traceBase = s.traceBase := rfl
@[simp] theorem State.putMem_hostLinks (s : State) (a : Nat) (b : List Byte) : (s.putMem a b).hostLinks = s.hostLinks := rfl
@[simp] theorem State.putMem_cxl (s : State) (a : Nat) (b : List Byte) : (s.putMem a b).cxl = s.cxl := rfl
@[simp] theorem State.putMem_spans (s : State) (a : Nat) (b : List Byte) : (s.putMem a b).spans = s.spans := rfl
@[simp] theorem State.putMem_exchanges (s : State) (a : Nat) (b : List Byte) : (s.putMem a b).exchanges = s.exchanges := rfl
@[simp] theorem State.putMem_mgmt (s : State) (a : Nat) (b : List Byte) : (s.putMem a b).mgmt = s.mgmt := rfl
@[simp] theorem State.putMem_flitSeq (s : State) (a : Nat) (b : List Byte) : (s.putMem a b).flitSeq = s.flitSeq := rfl
@[simp] theorem State.putMem_bindings (s : State) (a : Nat) (b : List Byte) : (s.putMem a b).bindings = s.bindings := rfl
@[simp] theorem State.putMem_binds (s : State) (a : Nat) (b : List Byte) : (s.putMem a b).binds = s.binds := rfl
@[simp] theorem State.putMem_colls (s : State) (a : Nat) (b : List Byte) : (s.putMem a b).colls = s.colls := rfl
@[simp] theorem State.putMem_staged (s : State) (a : Nat) (b : List Byte) : (s.putMem a b).staged = s.staged := rfl
@[simp] theorem State.putMem_refusedColl (s : State) (a : Nat) (b : List Byte) : (s.putMem a b).refusedColl = s.refusedColl := rfl
@[simp] theorem State.putMem_images (s : State) (a : Nat) (b : List Byte) : (s.putMem a b).images = s.images := rfl
@[simp] theorem State.putMem_stored (s : State) (a : Nat) (b : List Byte) : (s.putMem a b).stored = s.stored := rfl
@[simp] theorem State.putMem_minVersion (s : State) (a : Nat) (b : List Byte) : (s.putMem a b).minVersion = s.minVersion := rfl
@[simp] theorem State.putMem_boot (s : State) (a : Nat) (b : List Byte) : (s.putMem a b).boot = s.boot := rfl
@[simp] theorem State.putMem_bringUp (s : State) (a : Nat) (b : List Byte) : (s.putMem a b).bringUp = s.bringUp := rfl
@[simp] theorem State.putMem_recovery (s : State) (a : Nat) (b : List Byte) : (s.putMem a b).recovery = s.recovery := rfl
@[simp] theorem State.putMem_fatal (s : State) (a : Nat) (b : List Byte) : (s.putMem a b).fatal = s.fatal := rfl
@[simp] theorem State.putMem_out (s : State) (a : Nat) (b : List Byte) : (s.putMem a b).out = s.out := rfl
@[simp] theorem State.putMem_host (s : State) (a : Nat) (b : List Byte) : (s.putMem a b).host = s.host := rfl
@[simp] theorem State.putMem_agenda (s : State) (a : Nat) (b : List Byte) : (s.putMem a b).agenda = s.agenda := rfl
@[simp] theorem State.putMem_cur (s : State) (a : Nat) (b : List Byte) : (s.putMem a b).cur = s.cur := rfl
@[simp] theorem State.putMem_fresh (s : State) (a : Nat) (b : List Byte) : (s.putMem a b).fresh = s.fresh := rfl

/-! ### countCore -/

@[simp] theorem State.countCore_cycle (s : State) (u w n : Nat) : (s.countCore u w n).cycle = s.cycle := rfl
@[simp] theorem State.countCore_time (s : State) (u w n : Nat) : (s.countCore u w n).time = s.time := rfl
@[simp] theorem State.countCore_timeFrac (s : State) (u w n : Nat) : (s.countCore u w n).timeFrac = s.timeFrac := rfl
@[simp] theorem State.countCore_steer (s : State) (u w n : Nat) : (s.countCore u w n).steer = s.steer := rfl
@[simp] theorem State.countCore_timeDebt (s : State) (u w n : Nat) : (s.countCore u w n).timeDebt = s.timeDebt := rfl
@[simp] theorem State.countCore_mem (s : State) (u w n : Nat) : (s.countCore u w n).mem = s.mem := rfl
@[simp] theorem State.countCore_poison (s : State) (u w n : Nat) : (s.countCore u w n).poison = s.poison := rfl
@[simp] theorem State.countCore_aspaces (s : State) (u w n : Nat) : (s.countCore u w n).aspaces = s.aspaces := rfl
@[simp] theorem State.countCore_dmas (s : State) (u w n : Nat) : (s.countCore u w n).dmas = s.dmas := rfl
@[simp] theorem State.countCore_failedStaging (s : State) (u w n : Nat) : (s.countCore u w n).failedStaging = s.failedStaging := rfl
@[simp] theorem State.countCore_stamp (s : State) (u w n : Nat) : (s.countCore u w n).stamp = s.stamp := rfl
@[simp] theorem State.countCore_groups (s : State) (u w n : Nat) : (s.countCore u w n).groups = s.groups := rfl
@[simp] theorem State.countCore_crews (s : State) (u w n : Nat) : (s.countCore u w n).crews = s.crews := rfl
@[simp] theorem State.countCore_cohorts (s : State) (u w n : Nat) : (s.countCore u w n).cohorts = s.cohorts := rfl
@[simp] theorem State.countCore_launches (s : State) (u w n : Nat) : (s.countCore u w n).launches = s.launches := rfl
@[simp] theorem State.countCore_cores (s : State) (u w n : Nat) : (s.countCore u w n).cores = s.cores := rfl
@[simp] theorem State.countCore_clusters (s : State) (u w n : Nat) : (s.countCore u w n).clusters = s.clusters := rfl
@[simp] theorem State.countCore_dies (s : State) (u w n : Nat) : (s.countCore u w n).dies = s.dies := rfl
@[simp] theorem State.countCore_nextId (s : State) (u w n : Nat) : (s.countCore u w n).nextId = s.nextId := rfl
@[simp] theorem State.countCore_nextCrew (s : State) (u w n : Nat) : (s.countCore u w n).nextCrew = s.nextCrew := rfl
@[simp] theorem State.countCore_nextCohort (s : State) (u w n : Nat) : (s.countCore u w n).nextCohort = s.nextCohort := rfl
@[simp] theorem State.countCore_nextLaunch (s : State) (u w n : Nat) : (s.countCore u w n).nextLaunch = s.nextLaunch := rfl
@[simp] theorem State.countCore_rotate (s : State) (u w n : Nat) : (s.countCore u w n).rotate = s.rotate := rfl
@[simp] theorem State.countCore_features (s : State) (u w n : Nat) : (s.countCore u w n).features = s.features := rfl
@[simp] theorem State.countCore_rows (s : State) (u w n : Nat) : (s.countCore u w n).rows = s.rows := rfl
@[simp] theorem State.countCore_coresReduced (s : State) (u w n : Nat) : (s.countCore u w n).coresReduced = s.coresReduced := rfl
@[simp] theorem State.countCore_bankOut (s : State) (u w n : Nat) : (s.countCore u w n).bankOut = s.bankOut := rfl
@[simp] theorem State.countCore_contextBase (s : State) (u w n : Nat) : (s.countCore u w n).contextBase = s.contextBase := rfl
@[simp] theorem State.countCore_preempt (s : State) (u w n : Nat) : (s.countCore u w n).preempt = s.preempt := rfl
@[simp] theorem State.countCore_coordX (s : State) (u w n : Nat) : (s.countCore u w n).coordX = s.coordX := rfl
@[simp] theorem State.countCore_coordY (s : State) (u w n : Nat) : (s.countCore u w n).coordY = s.coordY := rfl
@[simp] theorem State.countCore_linkRoute (s : State) (u w n : Nat) : (s.countCore u w n).linkRoute = s.linkRoute := rfl
@[simp] theorem State.countCore_memwinBase (s : State) (u w n : Nat) : (s.countCore u w n).memwinBase = s.memwinBase := rfl
@[simp] theorem State.countCore_heaps (s : State) (u w n : Nat) : (s.countCore u w n).heaps = s.heaps := rfl
@[simp] theorem State.countCore_queues (s : State) (u w n : Nat) : (s.countCore u w n).queues = s.queues := rfl
@[simp] theorem State.countCore_ports (s : State) (u w n : Nat) : (s.countCore u w n).ports = s.ports := rfl
@[simp] theorem State.countCore_msixTable (s : State) (u w n : Nat) : (s.countCore u w n).msixTable = s.msixTable := rfl
@[simp] theorem State.countCore_msixPending (s : State) (u w n : Nat) : (s.countCore u w n).msixPending = s.msixPending := rfl
@[simp] theorem State.countCore_power (s : State) (u w n : Nat) : (s.countCore u w n).power = s.power := rfl
@[simp] theorem State.countCore_errlog (s : State) (u w n : Nat) : (s.countCore u w n).errlog = s.errlog := rfl
@[simp] theorem State.countCore_mbox (s : State) (u w n : Nat) : (s.countCore u w n).mbox = s.mbox := rfl
@[simp] theorem State.countCore_surveyK (s : State) (u w n : Nat) : (s.countCore u w n).surveyK = s.surveyK := rfl
@[simp] theorem State.countCore_surveyOn (s : State) (u w n : Nat) : (s.countCore u w n).surveyOn = s.surveyOn := rfl
@[simp] theorem State.countCore_survey (s : State) (u w n : Nat) : (s.countCore u w n).survey = s.survey := rfl
@[simp] theorem State.countCore_surveyLostMark (s : State) (u w n : Nat) : (s.countCore u w n).surveyLostMark = s.surveyLostMark := rfl
@[simp] theorem State.countCore_surveyLast (s : State) (u w n : Nat) : (s.countCore u w n).surveyLast = s.surveyLast := rfl
@[simp] theorem State.countCore_sampleJ (s : State) (u w n : Nat) : (s.countCore u w n).sampleJ = s.sampleJ := rfl
@[simp] theorem State.countCore_sampleOn (s : State) (u w n : Nat) : (s.countCore u w n).sampleOn = s.sampleOn := rfl
@[simp] theorem State.countCore_sampleSeed (s : State) (u w n : Nat) : (s.countCore u w n).sampleSeed = s.sampleSeed := rfl
@[simp] theorem State.countCore_sample (s : State) (u w n : Nat) : (s.countCore u w n).sample = s.sample := rfl
@[simp] theorem State.countCore_traceSize (s : State) (u w n : Nat) : (s.countCore u w n).traceSize = s.traceSize := rfl
@[simp] theorem State.countCore_traceOn (s : State) (u w n : Nat) : (s.countCore u w n).traceOn = s.traceOn := rfl
@[simp] theorem State.countCore_traceBase (s : State) (u w n : Nat) : (s.countCore u w n).traceBase = s.traceBase := rfl
@[simp] theorem State.countCore_hostLinks (s : State) (u w n : Nat) : (s.countCore u w n).hostLinks = s.hostLinks := rfl
@[simp] theorem State.countCore_cxl (s : State) (u w n : Nat) : (s.countCore u w n).cxl = s.cxl := rfl
@[simp] theorem State.countCore_spans (s : State) (u w n : Nat) : (s.countCore u w n).spans = s.spans := rfl
@[simp] theorem State.countCore_exchanges (s : State) (u w n : Nat) : (s.countCore u w n).exchanges = s.exchanges := rfl
@[simp] theorem State.countCore_mgmt (s : State) (u w n : Nat) : (s.countCore u w n).mgmt = s.mgmt := rfl
@[simp] theorem State.countCore_flitSeq (s : State) (u w n : Nat) : (s.countCore u w n).flitSeq = s.flitSeq := rfl
@[simp] theorem State.countCore_bindings (s : State) (u w n : Nat) : (s.countCore u w n).bindings = s.bindings := rfl
@[simp] theorem State.countCore_binds (s : State) (u w n : Nat) : (s.countCore u w n).binds = s.binds := rfl
@[simp] theorem State.countCore_colls (s : State) (u w n : Nat) : (s.countCore u w n).colls = s.colls := rfl
@[simp] theorem State.countCore_staged (s : State) (u w n : Nat) : (s.countCore u w n).staged = s.staged := rfl
@[simp] theorem State.countCore_refusedColl (s : State) (u w n : Nat) : (s.countCore u w n).refusedColl = s.refusedColl := rfl
@[simp] theorem State.countCore_images (s : State) (u w n : Nat) : (s.countCore u w n).images = s.images := rfl
@[simp] theorem State.countCore_stored (s : State) (u w n : Nat) : (s.countCore u w n).stored = s.stored := rfl
@[simp] theorem State.countCore_minVersion (s : State) (u w n : Nat) : (s.countCore u w n).minVersion = s.minVersion := rfl
@[simp] theorem State.countCore_boot (s : State) (u w n : Nat) : (s.countCore u w n).boot = s.boot := rfl
@[simp] theorem State.countCore_bringUp (s : State) (u w n : Nat) : (s.countCore u w n).bringUp = s.bringUp := rfl
@[simp] theorem State.countCore_recovery (s : State) (u w n : Nat) : (s.countCore u w n).recovery = s.recovery := rfl
@[simp] theorem State.countCore_fatal (s : State) (u w n : Nat) : (s.countCore u w n).fatal = s.fatal := rfl
@[simp] theorem State.countCore_out (s : State) (u w n : Nat) : (s.countCore u w n).out = s.out := rfl
@[simp] theorem State.countCore_host (s : State) (u w n : Nat) : (s.countCore u w n).host = s.host := rfl
@[simp] theorem State.countCore_agenda (s : State) (u w n : Nat) : (s.countCore u w n).agenda = s.agenda := rfl
@[simp] theorem State.countCore_cur (s : State) (u w n : Nat) : (s.countCore u w n).cur = s.cur := rfl
@[simp] theorem State.countCore_fresh (s : State) (u w n : Nat) : (s.countCore u w n).fresh = s.fresh := rfl

/-! ### modGroup -/

@[simp] theorem State.modGroup_cycle (s : State) (c f : Nat) (x : Group → Group) : (s.modGroup c f x).cycle = s.cycle := by
  unfold State.modGroup; split <;> rfl
@[simp] theorem State.modGroup_time (s : State) (c f : Nat) (x : Group → Group) : (s.modGroup c f x).time = s.time := by
  unfold State.modGroup; split <;> rfl
@[simp] theorem State.modGroup_timeFrac (s : State) (c f : Nat) (x : Group → Group) : (s.modGroup c f x).timeFrac = s.timeFrac := by
  unfold State.modGroup; split <;> rfl
@[simp] theorem State.modGroup_steer (s : State) (c f : Nat) (x : Group → Group) : (s.modGroup c f x).steer = s.steer := by
  unfold State.modGroup; split <;> rfl
@[simp] theorem State.modGroup_timeDebt (s : State) (c f : Nat) (x : Group → Group) : (s.modGroup c f x).timeDebt = s.timeDebt := by
  unfold State.modGroup; split <;> rfl
@[simp] theorem State.modGroup_mem (s : State) (c f : Nat) (x : Group → Group) : (s.modGroup c f x).mem = s.mem := by
  unfold State.modGroup; split <;> rfl
@[simp] theorem State.modGroup_poison (s : State) (c f : Nat) (x : Group → Group) : (s.modGroup c f x).poison = s.poison := by
  unfold State.modGroup; split <;> rfl
@[simp] theorem State.modGroup_aspaces (s : State) (c f : Nat) (x : Group → Group) : (s.modGroup c f x).aspaces = s.aspaces := by
  unfold State.modGroup; split <;> rfl
@[simp] theorem State.modGroup_dmas (s : State) (c f : Nat) (x : Group → Group) : (s.modGroup c f x).dmas = s.dmas := by
  unfold State.modGroup; split <;> rfl
@[simp] theorem State.modGroup_failedStaging (s : State) (c f : Nat) (x : Group → Group) : (s.modGroup c f x).failedStaging = s.failedStaging := by
  unfold State.modGroup; split <;> rfl
@[simp] theorem State.modGroup_stamp (s : State) (c f : Nat) (x : Group → Group) : (s.modGroup c f x).stamp = s.stamp := by
  unfold State.modGroup; split <;> rfl
@[simp] theorem State.modGroup_crews (s : State) (c f : Nat) (x : Group → Group) : (s.modGroup c f x).crews = s.crews := by
  unfold State.modGroup; split <;> rfl
@[simp] theorem State.modGroup_cohorts (s : State) (c f : Nat) (x : Group → Group) : (s.modGroup c f x).cohorts = s.cohorts := by
  unfold State.modGroup; split <;> rfl
@[simp] theorem State.modGroup_launches (s : State) (c f : Nat) (x : Group → Group) : (s.modGroup c f x).launches = s.launches := by
  unfold State.modGroup; split <;> rfl
@[simp] theorem State.modGroup_cores (s : State) (c f : Nat) (x : Group → Group) : (s.modGroup c f x).cores = s.cores := by
  unfold State.modGroup; split <;> rfl
@[simp] theorem State.modGroup_clusters (s : State) (c f : Nat) (x : Group → Group) : (s.modGroup c f x).clusters = s.clusters := by
  unfold State.modGroup; split <;> rfl
@[simp] theorem State.modGroup_dies (s : State) (c f : Nat) (x : Group → Group) : (s.modGroup c f x).dies = s.dies := by
  unfold State.modGroup; split <;> rfl
@[simp] theorem State.modGroup_nextId (s : State) (c f : Nat) (x : Group → Group) : (s.modGroup c f x).nextId = s.nextId := by
  unfold State.modGroup; split <;> rfl
@[simp] theorem State.modGroup_nextCrew (s : State) (c f : Nat) (x : Group → Group) : (s.modGroup c f x).nextCrew = s.nextCrew := by
  unfold State.modGroup; split <;> rfl
@[simp] theorem State.modGroup_nextCohort (s : State) (c f : Nat) (x : Group → Group) : (s.modGroup c f x).nextCohort = s.nextCohort := by
  unfold State.modGroup; split <;> rfl
@[simp] theorem State.modGroup_nextLaunch (s : State) (c f : Nat) (x : Group → Group) : (s.modGroup c f x).nextLaunch = s.nextLaunch := by
  unfold State.modGroup; split <;> rfl
@[simp] theorem State.modGroup_rotate (s : State) (c f : Nat) (x : Group → Group) : (s.modGroup c f x).rotate = s.rotate := by
  unfold State.modGroup; split <;> rfl
@[simp] theorem State.modGroup_features (s : State) (c f : Nat) (x : Group → Group) : (s.modGroup c f x).features = s.features := by
  unfold State.modGroup; split <;> rfl
@[simp] theorem State.modGroup_rows (s : State) (c f : Nat) (x : Group → Group) : (s.modGroup c f x).rows = s.rows := by
  unfold State.modGroup; split <;> rfl
@[simp] theorem State.modGroup_coresReduced (s : State) (c f : Nat) (x : Group → Group) : (s.modGroup c f x).coresReduced = s.coresReduced := by
  unfold State.modGroup; split <;> rfl
@[simp] theorem State.modGroup_bankOut (s : State) (c f : Nat) (x : Group → Group) : (s.modGroup c f x).bankOut = s.bankOut := by
  unfold State.modGroup; split <;> rfl
@[simp] theorem State.modGroup_contextBase (s : State) (c f : Nat) (x : Group → Group) : (s.modGroup c f x).contextBase = s.contextBase := by
  unfold State.modGroup; split <;> rfl
@[simp] theorem State.modGroup_preempt (s : State) (c f : Nat) (x : Group → Group) : (s.modGroup c f x).preempt = s.preempt := by
  unfold State.modGroup; split <;> rfl
@[simp] theorem State.modGroup_coordX (s : State) (c f : Nat) (x : Group → Group) : (s.modGroup c f x).coordX = s.coordX := by
  unfold State.modGroup; split <;> rfl
@[simp] theorem State.modGroup_coordY (s : State) (c f : Nat) (x : Group → Group) : (s.modGroup c f x).coordY = s.coordY := by
  unfold State.modGroup; split <;> rfl
@[simp] theorem State.modGroup_linkRoute (s : State) (c f : Nat) (x : Group → Group) : (s.modGroup c f x).linkRoute = s.linkRoute := by
  unfold State.modGroup; split <;> rfl
@[simp] theorem State.modGroup_memwinBase (s : State) (c f : Nat) (x : Group → Group) : (s.modGroup c f x).memwinBase = s.memwinBase := by
  unfold State.modGroup; split <;> rfl
@[simp] theorem State.modGroup_heaps (s : State) (c f : Nat) (x : Group → Group) : (s.modGroup c f x).heaps = s.heaps := by
  unfold State.modGroup; split <;> rfl
@[simp] theorem State.modGroup_queues (s : State) (c f : Nat) (x : Group → Group) : (s.modGroup c f x).queues = s.queues := by
  unfold State.modGroup; split <;> rfl
@[simp] theorem State.modGroup_ports (s : State) (c f : Nat) (x : Group → Group) : (s.modGroup c f x).ports = s.ports := by
  unfold State.modGroup; split <;> rfl
@[simp] theorem State.modGroup_msixTable (s : State) (c f : Nat) (x : Group → Group) : (s.modGroup c f x).msixTable = s.msixTable := by
  unfold State.modGroup; split <;> rfl
@[simp] theorem State.modGroup_msixPending (s : State) (c f : Nat) (x : Group → Group) : (s.modGroup c f x).msixPending = s.msixPending := by
  unfold State.modGroup; split <;> rfl
@[simp] theorem State.modGroup_power (s : State) (c f : Nat) (x : Group → Group) : (s.modGroup c f x).power = s.power := by
  unfold State.modGroup; split <;> rfl
@[simp] theorem State.modGroup_errlog (s : State) (c f : Nat) (x : Group → Group) : (s.modGroup c f x).errlog = s.errlog := by
  unfold State.modGroup; split <;> rfl
@[simp] theorem State.modGroup_mbox (s : State) (c f : Nat) (x : Group → Group) : (s.modGroup c f x).mbox = s.mbox := by
  unfold State.modGroup; split <;> rfl
@[simp] theorem State.modGroup_surveyK (s : State) (c f : Nat) (x : Group → Group) : (s.modGroup c f x).surveyK = s.surveyK := by
  unfold State.modGroup; split <;> rfl
@[simp] theorem State.modGroup_surveyOn (s : State) (c f : Nat) (x : Group → Group) : (s.modGroup c f x).surveyOn = s.surveyOn := by
  unfold State.modGroup; split <;> rfl
@[simp] theorem State.modGroup_survey (s : State) (c f : Nat) (x : Group → Group) : (s.modGroup c f x).survey = s.survey := by
  unfold State.modGroup; split <;> rfl
@[simp] theorem State.modGroup_surveyLostMark (s : State) (c f : Nat) (x : Group → Group) : (s.modGroup c f x).surveyLostMark = s.surveyLostMark := by
  unfold State.modGroup; split <;> rfl
@[simp] theorem State.modGroup_surveyLast (s : State) (c f : Nat) (x : Group → Group) : (s.modGroup c f x).surveyLast = s.surveyLast := by
  unfold State.modGroup; split <;> rfl
@[simp] theorem State.modGroup_counters (s : State) (c f : Nat) (x : Group → Group) : (s.modGroup c f x).counters = s.counters := by
  unfold State.modGroup; split <;> rfl
@[simp] theorem State.modGroup_sampleJ (s : State) (c f : Nat) (x : Group → Group) : (s.modGroup c f x).sampleJ = s.sampleJ := by
  unfold State.modGroup; split <;> rfl
@[simp] theorem State.modGroup_sampleOn (s : State) (c f : Nat) (x : Group → Group) : (s.modGroup c f x).sampleOn = s.sampleOn := by
  unfold State.modGroup; split <;> rfl
@[simp] theorem State.modGroup_sampleSeed (s : State) (c f : Nat) (x : Group → Group) : (s.modGroup c f x).sampleSeed = s.sampleSeed := by
  unfold State.modGroup; split <;> rfl
@[simp] theorem State.modGroup_sample (s : State) (c f : Nat) (x : Group → Group) : (s.modGroup c f x).sample = s.sample := by
  unfold State.modGroup; split <;> rfl
@[simp] theorem State.modGroup_traceSize (s : State) (c f : Nat) (x : Group → Group) : (s.modGroup c f x).traceSize = s.traceSize := by
  unfold State.modGroup; split <;> rfl
@[simp] theorem State.modGroup_traceOn (s : State) (c f : Nat) (x : Group → Group) : (s.modGroup c f x).traceOn = s.traceOn := by
  unfold State.modGroup; split <;> rfl
@[simp] theorem State.modGroup_traceBase (s : State) (c f : Nat) (x : Group → Group) : (s.modGroup c f x).traceBase = s.traceBase := by
  unfold State.modGroup; split <;> rfl
@[simp] theorem State.modGroup_hostLinks (s : State) (c f : Nat) (x : Group → Group) : (s.modGroup c f x).hostLinks = s.hostLinks := by
  unfold State.modGroup; split <;> rfl
@[simp] theorem State.modGroup_cxl (s : State) (c f : Nat) (x : Group → Group) : (s.modGroup c f x).cxl = s.cxl := by
  unfold State.modGroup; split <;> rfl
@[simp] theorem State.modGroup_spans (s : State) (c f : Nat) (x : Group → Group) : (s.modGroup c f x).spans = s.spans := by
  unfold State.modGroup; split <;> rfl
@[simp] theorem State.modGroup_exchanges (s : State) (c f : Nat) (x : Group → Group) : (s.modGroup c f x).exchanges = s.exchanges := by
  unfold State.modGroup; split <;> rfl
@[simp] theorem State.modGroup_mgmt (s : State) (c f : Nat) (x : Group → Group) : (s.modGroup c f x).mgmt = s.mgmt := by
  unfold State.modGroup; split <;> rfl
@[simp] theorem State.modGroup_flitSeq (s : State) (c f : Nat) (x : Group → Group) : (s.modGroup c f x).flitSeq = s.flitSeq := by
  unfold State.modGroup; split <;> rfl
@[simp] theorem State.modGroup_bindings (s : State) (c f : Nat) (x : Group → Group) : (s.modGroup c f x).bindings = s.bindings := by
  unfold State.modGroup; split <;> rfl
@[simp] theorem State.modGroup_binds (s : State) (c f : Nat) (x : Group → Group) : (s.modGroup c f x).binds = s.binds := by
  unfold State.modGroup; split <;> rfl
@[simp] theorem State.modGroup_colls (s : State) (c f : Nat) (x : Group → Group) : (s.modGroup c f x).colls = s.colls := by
  unfold State.modGroup; split <;> rfl
@[simp] theorem State.modGroup_staged (s : State) (c f : Nat) (x : Group → Group) : (s.modGroup c f x).staged = s.staged := by
  unfold State.modGroup; split <;> rfl
@[simp] theorem State.modGroup_refusedColl (s : State) (c f : Nat) (x : Group → Group) : (s.modGroup c f x).refusedColl = s.refusedColl := by
  unfold State.modGroup; split <;> rfl
@[simp] theorem State.modGroup_images (s : State) (c f : Nat) (x : Group → Group) : (s.modGroup c f x).images = s.images := by
  unfold State.modGroup; split <;> rfl
@[simp] theorem State.modGroup_stored (s : State) (c f : Nat) (x : Group → Group) : (s.modGroup c f x).stored = s.stored := by
  unfold State.modGroup; split <;> rfl
@[simp] theorem State.modGroup_minVersion (s : State) (c f : Nat) (x : Group → Group) : (s.modGroup c f x).minVersion = s.minVersion := by
  unfold State.modGroup; split <;> rfl
@[simp] theorem State.modGroup_boot (s : State) (c f : Nat) (x : Group → Group) : (s.modGroup c f x).boot = s.boot := by
  unfold State.modGroup; split <;> rfl
@[simp] theorem State.modGroup_bringUp (s : State) (c f : Nat) (x : Group → Group) : (s.modGroup c f x).bringUp = s.bringUp := by
  unfold State.modGroup; split <;> rfl
@[simp] theorem State.modGroup_recovery (s : State) (c f : Nat) (x : Group → Group) : (s.modGroup c f x).recovery = s.recovery := by
  unfold State.modGroup; split <;> rfl
@[simp] theorem State.modGroup_fatal (s : State) (c f : Nat) (x : Group → Group) : (s.modGroup c f x).fatal = s.fatal := by
  unfold State.modGroup; split <;> rfl
@[simp] theorem State.modGroup_out (s : State) (c f : Nat) (x : Group → Group) : (s.modGroup c f x).out = s.out := by
  unfold State.modGroup; split <;> rfl
@[simp] theorem State.modGroup_host (s : State) (c f : Nat) (x : Group → Group) : (s.modGroup c f x).host = s.host := by
  unfold State.modGroup; split <;> rfl
@[simp] theorem State.modGroup_agenda (s : State) (c f : Nat) (x : Group → Group) : (s.modGroup c f x).agenda = s.agenda := by
  unfold State.modGroup; split <;> rfl
@[simp] theorem State.modGroup_cur (s : State) (c f : Nat) (x : Group → Group) : (s.modGroup c f x).cur = s.cur := by
  unfold State.modGroup; split <;> rfl
@[simp] theorem State.modGroup_fresh (s : State) (c f : Nat) (x : Group → Group) : (s.modGroup c f x).fresh = s.fresh := by
  unfold State.modGroup; split <;> rfl

/-! ### modCrew -/

@[simp] theorem State.modCrew_cycle (s : State) (c : Nat) (x : Crew → Crew) : (s.modCrew c x).cycle = s.cycle := by
  unfold State.modCrew; split <;> rfl
@[simp] theorem State.modCrew_time (s : State) (c : Nat) (x : Crew → Crew) : (s.modCrew c x).time = s.time := by
  unfold State.modCrew; split <;> rfl
@[simp] theorem State.modCrew_timeFrac (s : State) (c : Nat) (x : Crew → Crew) : (s.modCrew c x).timeFrac = s.timeFrac := by
  unfold State.modCrew; split <;> rfl
@[simp] theorem State.modCrew_steer (s : State) (c : Nat) (x : Crew → Crew) : (s.modCrew c x).steer = s.steer := by
  unfold State.modCrew; split <;> rfl
@[simp] theorem State.modCrew_timeDebt (s : State) (c : Nat) (x : Crew → Crew) : (s.modCrew c x).timeDebt = s.timeDebt := by
  unfold State.modCrew; split <;> rfl
@[simp] theorem State.modCrew_mem (s : State) (c : Nat) (x : Crew → Crew) : (s.modCrew c x).mem = s.mem := by
  unfold State.modCrew; split <;> rfl
@[simp] theorem State.modCrew_poison (s : State) (c : Nat) (x : Crew → Crew) : (s.modCrew c x).poison = s.poison := by
  unfold State.modCrew; split <;> rfl
@[simp] theorem State.modCrew_aspaces (s : State) (c : Nat) (x : Crew → Crew) : (s.modCrew c x).aspaces = s.aspaces := by
  unfold State.modCrew; split <;> rfl
@[simp] theorem State.modCrew_dmas (s : State) (c : Nat) (x : Crew → Crew) : (s.modCrew c x).dmas = s.dmas := by
  unfold State.modCrew; split <;> rfl
@[simp] theorem State.modCrew_failedStaging (s : State) (c : Nat) (x : Crew → Crew) : (s.modCrew c x).failedStaging = s.failedStaging := by
  unfold State.modCrew; split <;> rfl
@[simp] theorem State.modCrew_stamp (s : State) (c : Nat) (x : Crew → Crew) : (s.modCrew c x).stamp = s.stamp := by
  unfold State.modCrew; split <;> rfl
@[simp] theorem State.modCrew_groups (s : State) (c : Nat) (x : Crew → Crew) : (s.modCrew c x).groups = s.groups := by
  unfold State.modCrew; split <;> rfl
@[simp] theorem State.modCrew_cohorts (s : State) (c : Nat) (x : Crew → Crew) : (s.modCrew c x).cohorts = s.cohorts := by
  unfold State.modCrew; split <;> rfl
@[simp] theorem State.modCrew_launches (s : State) (c : Nat) (x : Crew → Crew) : (s.modCrew c x).launches = s.launches := by
  unfold State.modCrew; split <;> rfl
@[simp] theorem State.modCrew_cores (s : State) (c : Nat) (x : Crew → Crew) : (s.modCrew c x).cores = s.cores := by
  unfold State.modCrew; split <;> rfl
@[simp] theorem State.modCrew_clusters (s : State) (c : Nat) (x : Crew → Crew) : (s.modCrew c x).clusters = s.clusters := by
  unfold State.modCrew; split <;> rfl
@[simp] theorem State.modCrew_dies (s : State) (c : Nat) (x : Crew → Crew) : (s.modCrew c x).dies = s.dies := by
  unfold State.modCrew; split <;> rfl
@[simp] theorem State.modCrew_nextId (s : State) (c : Nat) (x : Crew → Crew) : (s.modCrew c x).nextId = s.nextId := by
  unfold State.modCrew; split <;> rfl
@[simp] theorem State.modCrew_nextCrew (s : State) (c : Nat) (x : Crew → Crew) : (s.modCrew c x).nextCrew = s.nextCrew := by
  unfold State.modCrew; split <;> rfl
@[simp] theorem State.modCrew_nextCohort (s : State) (c : Nat) (x : Crew → Crew) : (s.modCrew c x).nextCohort = s.nextCohort := by
  unfold State.modCrew; split <;> rfl
@[simp] theorem State.modCrew_nextLaunch (s : State) (c : Nat) (x : Crew → Crew) : (s.modCrew c x).nextLaunch = s.nextLaunch := by
  unfold State.modCrew; split <;> rfl
@[simp] theorem State.modCrew_rotate (s : State) (c : Nat) (x : Crew → Crew) : (s.modCrew c x).rotate = s.rotate := by
  unfold State.modCrew; split <;> rfl
@[simp] theorem State.modCrew_features (s : State) (c : Nat) (x : Crew → Crew) : (s.modCrew c x).features = s.features := by
  unfold State.modCrew; split <;> rfl
@[simp] theorem State.modCrew_rows (s : State) (c : Nat) (x : Crew → Crew) : (s.modCrew c x).rows = s.rows := by
  unfold State.modCrew; split <;> rfl
@[simp] theorem State.modCrew_coresReduced (s : State) (c : Nat) (x : Crew → Crew) : (s.modCrew c x).coresReduced = s.coresReduced := by
  unfold State.modCrew; split <;> rfl
@[simp] theorem State.modCrew_bankOut (s : State) (c : Nat) (x : Crew → Crew) : (s.modCrew c x).bankOut = s.bankOut := by
  unfold State.modCrew; split <;> rfl
@[simp] theorem State.modCrew_contextBase (s : State) (c : Nat) (x : Crew → Crew) : (s.modCrew c x).contextBase = s.contextBase := by
  unfold State.modCrew; split <;> rfl
@[simp] theorem State.modCrew_preempt (s : State) (c : Nat) (x : Crew → Crew) : (s.modCrew c x).preempt = s.preempt := by
  unfold State.modCrew; split <;> rfl
@[simp] theorem State.modCrew_coordX (s : State) (c : Nat) (x : Crew → Crew) : (s.modCrew c x).coordX = s.coordX := by
  unfold State.modCrew; split <;> rfl
@[simp] theorem State.modCrew_coordY (s : State) (c : Nat) (x : Crew → Crew) : (s.modCrew c x).coordY = s.coordY := by
  unfold State.modCrew; split <;> rfl
@[simp] theorem State.modCrew_linkRoute (s : State) (c : Nat) (x : Crew → Crew) : (s.modCrew c x).linkRoute = s.linkRoute := by
  unfold State.modCrew; split <;> rfl
@[simp] theorem State.modCrew_memwinBase (s : State) (c : Nat) (x : Crew → Crew) : (s.modCrew c x).memwinBase = s.memwinBase := by
  unfold State.modCrew; split <;> rfl
@[simp] theorem State.modCrew_heaps (s : State) (c : Nat) (x : Crew → Crew) : (s.modCrew c x).heaps = s.heaps := by
  unfold State.modCrew; split <;> rfl
@[simp] theorem State.modCrew_queues (s : State) (c : Nat) (x : Crew → Crew) : (s.modCrew c x).queues = s.queues := by
  unfold State.modCrew; split <;> rfl
@[simp] theorem State.modCrew_ports (s : State) (c : Nat) (x : Crew → Crew) : (s.modCrew c x).ports = s.ports := by
  unfold State.modCrew; split <;> rfl
@[simp] theorem State.modCrew_msixTable (s : State) (c : Nat) (x : Crew → Crew) : (s.modCrew c x).msixTable = s.msixTable := by
  unfold State.modCrew; split <;> rfl
@[simp] theorem State.modCrew_msixPending (s : State) (c : Nat) (x : Crew → Crew) : (s.modCrew c x).msixPending = s.msixPending := by
  unfold State.modCrew; split <;> rfl
@[simp] theorem State.modCrew_power (s : State) (c : Nat) (x : Crew → Crew) : (s.modCrew c x).power = s.power := by
  unfold State.modCrew; split <;> rfl
@[simp] theorem State.modCrew_errlog (s : State) (c : Nat) (x : Crew → Crew) : (s.modCrew c x).errlog = s.errlog := by
  unfold State.modCrew; split <;> rfl
@[simp] theorem State.modCrew_mbox (s : State) (c : Nat) (x : Crew → Crew) : (s.modCrew c x).mbox = s.mbox := by
  unfold State.modCrew; split <;> rfl
@[simp] theorem State.modCrew_surveyK (s : State) (c : Nat) (x : Crew → Crew) : (s.modCrew c x).surveyK = s.surveyK := by
  unfold State.modCrew; split <;> rfl
@[simp] theorem State.modCrew_surveyOn (s : State) (c : Nat) (x : Crew → Crew) : (s.modCrew c x).surveyOn = s.surveyOn := by
  unfold State.modCrew; split <;> rfl
@[simp] theorem State.modCrew_survey (s : State) (c : Nat) (x : Crew → Crew) : (s.modCrew c x).survey = s.survey := by
  unfold State.modCrew; split <;> rfl
@[simp] theorem State.modCrew_surveyLostMark (s : State) (c : Nat) (x : Crew → Crew) : (s.modCrew c x).surveyLostMark = s.surveyLostMark := by
  unfold State.modCrew; split <;> rfl
@[simp] theorem State.modCrew_surveyLast (s : State) (c : Nat) (x : Crew → Crew) : (s.modCrew c x).surveyLast = s.surveyLast := by
  unfold State.modCrew; split <;> rfl
@[simp] theorem State.modCrew_counters (s : State) (c : Nat) (x : Crew → Crew) : (s.modCrew c x).counters = s.counters := by
  unfold State.modCrew; split <;> rfl
@[simp] theorem State.modCrew_sampleJ (s : State) (c : Nat) (x : Crew → Crew) : (s.modCrew c x).sampleJ = s.sampleJ := by
  unfold State.modCrew; split <;> rfl
@[simp] theorem State.modCrew_sampleOn (s : State) (c : Nat) (x : Crew → Crew) : (s.modCrew c x).sampleOn = s.sampleOn := by
  unfold State.modCrew; split <;> rfl
@[simp] theorem State.modCrew_sampleSeed (s : State) (c : Nat) (x : Crew → Crew) : (s.modCrew c x).sampleSeed = s.sampleSeed := by
  unfold State.modCrew; split <;> rfl
@[simp] theorem State.modCrew_sample (s : State) (c : Nat) (x : Crew → Crew) : (s.modCrew c x).sample = s.sample := by
  unfold State.modCrew; split <;> rfl
@[simp] theorem State.modCrew_traceSize (s : State) (c : Nat) (x : Crew → Crew) : (s.modCrew c x).traceSize = s.traceSize := by
  unfold State.modCrew; split <;> rfl
@[simp] theorem State.modCrew_traceOn (s : State) (c : Nat) (x : Crew → Crew) : (s.modCrew c x).traceOn = s.traceOn := by
  unfold State.modCrew; split <;> rfl
@[simp] theorem State.modCrew_traceBase (s : State) (c : Nat) (x : Crew → Crew) : (s.modCrew c x).traceBase = s.traceBase := by
  unfold State.modCrew; split <;> rfl
@[simp] theorem State.modCrew_hostLinks (s : State) (c : Nat) (x : Crew → Crew) : (s.modCrew c x).hostLinks = s.hostLinks := by
  unfold State.modCrew; split <;> rfl
@[simp] theorem State.modCrew_cxl (s : State) (c : Nat) (x : Crew → Crew) : (s.modCrew c x).cxl = s.cxl := by
  unfold State.modCrew; split <;> rfl
@[simp] theorem State.modCrew_spans (s : State) (c : Nat) (x : Crew → Crew) : (s.modCrew c x).spans = s.spans := by
  unfold State.modCrew; split <;> rfl
@[simp] theorem State.modCrew_exchanges (s : State) (c : Nat) (x : Crew → Crew) : (s.modCrew c x).exchanges = s.exchanges := by
  unfold State.modCrew; split <;> rfl
@[simp] theorem State.modCrew_mgmt (s : State) (c : Nat) (x : Crew → Crew) : (s.modCrew c x).mgmt = s.mgmt := by
  unfold State.modCrew; split <;> rfl
@[simp] theorem State.modCrew_flitSeq (s : State) (c : Nat) (x : Crew → Crew) : (s.modCrew c x).flitSeq = s.flitSeq := by
  unfold State.modCrew; split <;> rfl
@[simp] theorem State.modCrew_bindings (s : State) (c : Nat) (x : Crew → Crew) : (s.modCrew c x).bindings = s.bindings := by
  unfold State.modCrew; split <;> rfl
@[simp] theorem State.modCrew_binds (s : State) (c : Nat) (x : Crew → Crew) : (s.modCrew c x).binds = s.binds := by
  unfold State.modCrew; split <;> rfl
@[simp] theorem State.modCrew_colls (s : State) (c : Nat) (x : Crew → Crew) : (s.modCrew c x).colls = s.colls := by
  unfold State.modCrew; split <;> rfl
@[simp] theorem State.modCrew_staged (s : State) (c : Nat) (x : Crew → Crew) : (s.modCrew c x).staged = s.staged := by
  unfold State.modCrew; split <;> rfl
@[simp] theorem State.modCrew_refusedColl (s : State) (c : Nat) (x : Crew → Crew) : (s.modCrew c x).refusedColl = s.refusedColl := by
  unfold State.modCrew; split <;> rfl
@[simp] theorem State.modCrew_images (s : State) (c : Nat) (x : Crew → Crew) : (s.modCrew c x).images = s.images := by
  unfold State.modCrew; split <;> rfl
@[simp] theorem State.modCrew_stored (s : State) (c : Nat) (x : Crew → Crew) : (s.modCrew c x).stored = s.stored := by
  unfold State.modCrew; split <;> rfl
@[simp] theorem State.modCrew_minVersion (s : State) (c : Nat) (x : Crew → Crew) : (s.modCrew c x).minVersion = s.minVersion := by
  unfold State.modCrew; split <;> rfl
@[simp] theorem State.modCrew_boot (s : State) (c : Nat) (x : Crew → Crew) : (s.modCrew c x).boot = s.boot := by
  unfold State.modCrew; split <;> rfl
@[simp] theorem State.modCrew_bringUp (s : State) (c : Nat) (x : Crew → Crew) : (s.modCrew c x).bringUp = s.bringUp := by
  unfold State.modCrew; split <;> rfl
@[simp] theorem State.modCrew_recovery (s : State) (c : Nat) (x : Crew → Crew) : (s.modCrew c x).recovery = s.recovery := by
  unfold State.modCrew; split <;> rfl
@[simp] theorem State.modCrew_fatal (s : State) (c : Nat) (x : Crew → Crew) : (s.modCrew c x).fatal = s.fatal := by
  unfold State.modCrew; split <;> rfl
@[simp] theorem State.modCrew_out (s : State) (c : Nat) (x : Crew → Crew) : (s.modCrew c x).out = s.out := by
  unfold State.modCrew; split <;> rfl
@[simp] theorem State.modCrew_host (s : State) (c : Nat) (x : Crew → Crew) : (s.modCrew c x).host = s.host := by
  unfold State.modCrew; split <;> rfl
@[simp] theorem State.modCrew_agenda (s : State) (c : Nat) (x : Crew → Crew) : (s.modCrew c x).agenda = s.agenda := by
  unfold State.modCrew; split <;> rfl
@[simp] theorem State.modCrew_cur (s : State) (c : Nat) (x : Crew → Crew) : (s.modCrew c x).cur = s.cur := by
  unfold State.modCrew; split <;> rfl
@[simp] theorem State.modCrew_fresh (s : State) (c : Nat) (x : Crew → Crew) : (s.modCrew c x).fresh = s.fresh := by
  unfold State.modCrew; split <;> rfl

/-! ### modLaunch -/

@[simp] theorem State.modLaunch_cycle (s : State) (c : Nat) (x : Launch → Launch) : (s.modLaunch c x).cycle = s.cycle := by
  unfold State.modLaunch; split <;> rfl
@[simp] theorem State.modLaunch_time (s : State) (c : Nat) (x : Launch → Launch) : (s.modLaunch c x).time = s.time := by
  unfold State.modLaunch; split <;> rfl
@[simp] theorem State.modLaunch_timeFrac (s : State) (c : Nat) (x : Launch → Launch) : (s.modLaunch c x).timeFrac = s.timeFrac := by
  unfold State.modLaunch; split <;> rfl
@[simp] theorem State.modLaunch_steer (s : State) (c : Nat) (x : Launch → Launch) : (s.modLaunch c x).steer = s.steer := by
  unfold State.modLaunch; split <;> rfl
@[simp] theorem State.modLaunch_timeDebt (s : State) (c : Nat) (x : Launch → Launch) : (s.modLaunch c x).timeDebt = s.timeDebt := by
  unfold State.modLaunch; split <;> rfl
@[simp] theorem State.modLaunch_mem (s : State) (c : Nat) (x : Launch → Launch) : (s.modLaunch c x).mem = s.mem := by
  unfold State.modLaunch; split <;> rfl
@[simp] theorem State.modLaunch_poison (s : State) (c : Nat) (x : Launch → Launch) : (s.modLaunch c x).poison = s.poison := by
  unfold State.modLaunch; split <;> rfl
@[simp] theorem State.modLaunch_aspaces (s : State) (c : Nat) (x : Launch → Launch) : (s.modLaunch c x).aspaces = s.aspaces := by
  unfold State.modLaunch; split <;> rfl
@[simp] theorem State.modLaunch_dmas (s : State) (c : Nat) (x : Launch → Launch) : (s.modLaunch c x).dmas = s.dmas := by
  unfold State.modLaunch; split <;> rfl
@[simp] theorem State.modLaunch_failedStaging (s : State) (c : Nat) (x : Launch → Launch) : (s.modLaunch c x).failedStaging = s.failedStaging := by
  unfold State.modLaunch; split <;> rfl
@[simp] theorem State.modLaunch_stamp (s : State) (c : Nat) (x : Launch → Launch) : (s.modLaunch c x).stamp = s.stamp := by
  unfold State.modLaunch; split <;> rfl
@[simp] theorem State.modLaunch_groups (s : State) (c : Nat) (x : Launch → Launch) : (s.modLaunch c x).groups = s.groups := by
  unfold State.modLaunch; split <;> rfl
@[simp] theorem State.modLaunch_crews (s : State) (c : Nat) (x : Launch → Launch) : (s.modLaunch c x).crews = s.crews := by
  unfold State.modLaunch; split <;> rfl
@[simp] theorem State.modLaunch_cohorts (s : State) (c : Nat) (x : Launch → Launch) : (s.modLaunch c x).cohorts = s.cohorts := by
  unfold State.modLaunch; split <;> rfl
@[simp] theorem State.modLaunch_cores (s : State) (c : Nat) (x : Launch → Launch) : (s.modLaunch c x).cores = s.cores := by
  unfold State.modLaunch; split <;> rfl
@[simp] theorem State.modLaunch_clusters (s : State) (c : Nat) (x : Launch → Launch) : (s.modLaunch c x).clusters = s.clusters := by
  unfold State.modLaunch; split <;> rfl
@[simp] theorem State.modLaunch_dies (s : State) (c : Nat) (x : Launch → Launch) : (s.modLaunch c x).dies = s.dies := by
  unfold State.modLaunch; split <;> rfl
@[simp] theorem State.modLaunch_nextId (s : State) (c : Nat) (x : Launch → Launch) : (s.modLaunch c x).nextId = s.nextId := by
  unfold State.modLaunch; split <;> rfl
@[simp] theorem State.modLaunch_nextCrew (s : State) (c : Nat) (x : Launch → Launch) : (s.modLaunch c x).nextCrew = s.nextCrew := by
  unfold State.modLaunch; split <;> rfl
@[simp] theorem State.modLaunch_nextCohort (s : State) (c : Nat) (x : Launch → Launch) : (s.modLaunch c x).nextCohort = s.nextCohort := by
  unfold State.modLaunch; split <;> rfl
@[simp] theorem State.modLaunch_nextLaunch (s : State) (c : Nat) (x : Launch → Launch) : (s.modLaunch c x).nextLaunch = s.nextLaunch := by
  unfold State.modLaunch; split <;> rfl
@[simp] theorem State.modLaunch_rotate (s : State) (c : Nat) (x : Launch → Launch) : (s.modLaunch c x).rotate = s.rotate := by
  unfold State.modLaunch; split <;> rfl
@[simp] theorem State.modLaunch_features (s : State) (c : Nat) (x : Launch → Launch) : (s.modLaunch c x).features = s.features := by
  unfold State.modLaunch; split <;> rfl
@[simp] theorem State.modLaunch_rows (s : State) (c : Nat) (x : Launch → Launch) : (s.modLaunch c x).rows = s.rows := by
  unfold State.modLaunch; split <;> rfl
@[simp] theorem State.modLaunch_coresReduced (s : State) (c : Nat) (x : Launch → Launch) : (s.modLaunch c x).coresReduced = s.coresReduced := by
  unfold State.modLaunch; split <;> rfl
@[simp] theorem State.modLaunch_bankOut (s : State) (c : Nat) (x : Launch → Launch) : (s.modLaunch c x).bankOut = s.bankOut := by
  unfold State.modLaunch; split <;> rfl
@[simp] theorem State.modLaunch_contextBase (s : State) (c : Nat) (x : Launch → Launch) : (s.modLaunch c x).contextBase = s.contextBase := by
  unfold State.modLaunch; split <;> rfl
@[simp] theorem State.modLaunch_preempt (s : State) (c : Nat) (x : Launch → Launch) : (s.modLaunch c x).preempt = s.preempt := by
  unfold State.modLaunch; split <;> rfl
@[simp] theorem State.modLaunch_coordX (s : State) (c : Nat) (x : Launch → Launch) : (s.modLaunch c x).coordX = s.coordX := by
  unfold State.modLaunch; split <;> rfl
@[simp] theorem State.modLaunch_coordY (s : State) (c : Nat) (x : Launch → Launch) : (s.modLaunch c x).coordY = s.coordY := by
  unfold State.modLaunch; split <;> rfl
@[simp] theorem State.modLaunch_linkRoute (s : State) (c : Nat) (x : Launch → Launch) : (s.modLaunch c x).linkRoute = s.linkRoute := by
  unfold State.modLaunch; split <;> rfl
@[simp] theorem State.modLaunch_memwinBase (s : State) (c : Nat) (x : Launch → Launch) : (s.modLaunch c x).memwinBase = s.memwinBase := by
  unfold State.modLaunch; split <;> rfl
@[simp] theorem State.modLaunch_heaps (s : State) (c : Nat) (x : Launch → Launch) : (s.modLaunch c x).heaps = s.heaps := by
  unfold State.modLaunch; split <;> rfl
@[simp] theorem State.modLaunch_queues (s : State) (c : Nat) (x : Launch → Launch) : (s.modLaunch c x).queues = s.queues := by
  unfold State.modLaunch; split <;> rfl
@[simp] theorem State.modLaunch_ports (s : State) (c : Nat) (x : Launch → Launch) : (s.modLaunch c x).ports = s.ports := by
  unfold State.modLaunch; split <;> rfl
@[simp] theorem State.modLaunch_msixTable (s : State) (c : Nat) (x : Launch → Launch) : (s.modLaunch c x).msixTable = s.msixTable := by
  unfold State.modLaunch; split <;> rfl
@[simp] theorem State.modLaunch_msixPending (s : State) (c : Nat) (x : Launch → Launch) : (s.modLaunch c x).msixPending = s.msixPending := by
  unfold State.modLaunch; split <;> rfl
@[simp] theorem State.modLaunch_power (s : State) (c : Nat) (x : Launch → Launch) : (s.modLaunch c x).power = s.power := by
  unfold State.modLaunch; split <;> rfl
@[simp] theorem State.modLaunch_errlog (s : State) (c : Nat) (x : Launch → Launch) : (s.modLaunch c x).errlog = s.errlog := by
  unfold State.modLaunch; split <;> rfl
@[simp] theorem State.modLaunch_mbox (s : State) (c : Nat) (x : Launch → Launch) : (s.modLaunch c x).mbox = s.mbox := by
  unfold State.modLaunch; split <;> rfl
@[simp] theorem State.modLaunch_surveyK (s : State) (c : Nat) (x : Launch → Launch) : (s.modLaunch c x).surveyK = s.surveyK := by
  unfold State.modLaunch; split <;> rfl
@[simp] theorem State.modLaunch_surveyOn (s : State) (c : Nat) (x : Launch → Launch) : (s.modLaunch c x).surveyOn = s.surveyOn := by
  unfold State.modLaunch; split <;> rfl
@[simp] theorem State.modLaunch_survey (s : State) (c : Nat) (x : Launch → Launch) : (s.modLaunch c x).survey = s.survey := by
  unfold State.modLaunch; split <;> rfl
@[simp] theorem State.modLaunch_surveyLostMark (s : State) (c : Nat) (x : Launch → Launch) : (s.modLaunch c x).surveyLostMark = s.surveyLostMark := by
  unfold State.modLaunch; split <;> rfl
@[simp] theorem State.modLaunch_surveyLast (s : State) (c : Nat) (x : Launch → Launch) : (s.modLaunch c x).surveyLast = s.surveyLast := by
  unfold State.modLaunch; split <;> rfl
@[simp] theorem State.modLaunch_counters (s : State) (c : Nat) (x : Launch → Launch) : (s.modLaunch c x).counters = s.counters := by
  unfold State.modLaunch; split <;> rfl
@[simp] theorem State.modLaunch_sampleJ (s : State) (c : Nat) (x : Launch → Launch) : (s.modLaunch c x).sampleJ = s.sampleJ := by
  unfold State.modLaunch; split <;> rfl
@[simp] theorem State.modLaunch_sampleOn (s : State) (c : Nat) (x : Launch → Launch) : (s.modLaunch c x).sampleOn = s.sampleOn := by
  unfold State.modLaunch; split <;> rfl
@[simp] theorem State.modLaunch_sampleSeed (s : State) (c : Nat) (x : Launch → Launch) : (s.modLaunch c x).sampleSeed = s.sampleSeed := by
  unfold State.modLaunch; split <;> rfl
@[simp] theorem State.modLaunch_sample (s : State) (c : Nat) (x : Launch → Launch) : (s.modLaunch c x).sample = s.sample := by
  unfold State.modLaunch; split <;> rfl
@[simp] theorem State.modLaunch_traceSize (s : State) (c : Nat) (x : Launch → Launch) : (s.modLaunch c x).traceSize = s.traceSize := by
  unfold State.modLaunch; split <;> rfl
@[simp] theorem State.modLaunch_traceOn (s : State) (c : Nat) (x : Launch → Launch) : (s.modLaunch c x).traceOn = s.traceOn := by
  unfold State.modLaunch; split <;> rfl
@[simp] theorem State.modLaunch_traceBase (s : State) (c : Nat) (x : Launch → Launch) : (s.modLaunch c x).traceBase = s.traceBase := by
  unfold State.modLaunch; split <;> rfl
@[simp] theorem State.modLaunch_hostLinks (s : State) (c : Nat) (x : Launch → Launch) : (s.modLaunch c x).hostLinks = s.hostLinks := by
  unfold State.modLaunch; split <;> rfl
@[simp] theorem State.modLaunch_cxl (s : State) (c : Nat) (x : Launch → Launch) : (s.modLaunch c x).cxl = s.cxl := by
  unfold State.modLaunch; split <;> rfl
@[simp] theorem State.modLaunch_spans (s : State) (c : Nat) (x : Launch → Launch) : (s.modLaunch c x).spans = s.spans := by
  unfold State.modLaunch; split <;> rfl
@[simp] theorem State.modLaunch_exchanges (s : State) (c : Nat) (x : Launch → Launch) : (s.modLaunch c x).exchanges = s.exchanges := by
  unfold State.modLaunch; split <;> rfl
@[simp] theorem State.modLaunch_mgmt (s : State) (c : Nat) (x : Launch → Launch) : (s.modLaunch c x).mgmt = s.mgmt := by
  unfold State.modLaunch; split <;> rfl
@[simp] theorem State.modLaunch_flitSeq (s : State) (c : Nat) (x : Launch → Launch) : (s.modLaunch c x).flitSeq = s.flitSeq := by
  unfold State.modLaunch; split <;> rfl
@[simp] theorem State.modLaunch_bindings (s : State) (c : Nat) (x : Launch → Launch) : (s.modLaunch c x).bindings = s.bindings := by
  unfold State.modLaunch; split <;> rfl
@[simp] theorem State.modLaunch_binds (s : State) (c : Nat) (x : Launch → Launch) : (s.modLaunch c x).binds = s.binds := by
  unfold State.modLaunch; split <;> rfl
@[simp] theorem State.modLaunch_colls (s : State) (c : Nat) (x : Launch → Launch) : (s.modLaunch c x).colls = s.colls := by
  unfold State.modLaunch; split <;> rfl
@[simp] theorem State.modLaunch_staged (s : State) (c : Nat) (x : Launch → Launch) : (s.modLaunch c x).staged = s.staged := by
  unfold State.modLaunch; split <;> rfl
@[simp] theorem State.modLaunch_refusedColl (s : State) (c : Nat) (x : Launch → Launch) : (s.modLaunch c x).refusedColl = s.refusedColl := by
  unfold State.modLaunch; split <;> rfl
@[simp] theorem State.modLaunch_images (s : State) (c : Nat) (x : Launch → Launch) : (s.modLaunch c x).images = s.images := by
  unfold State.modLaunch; split <;> rfl
@[simp] theorem State.modLaunch_stored (s : State) (c : Nat) (x : Launch → Launch) : (s.modLaunch c x).stored = s.stored := by
  unfold State.modLaunch; split <;> rfl
@[simp] theorem State.modLaunch_minVersion (s : State) (c : Nat) (x : Launch → Launch) : (s.modLaunch c x).minVersion = s.minVersion := by
  unfold State.modLaunch; split <;> rfl
@[simp] theorem State.modLaunch_boot (s : State) (c : Nat) (x : Launch → Launch) : (s.modLaunch c x).boot = s.boot := by
  unfold State.modLaunch; split <;> rfl
@[simp] theorem State.modLaunch_bringUp (s : State) (c : Nat) (x : Launch → Launch) : (s.modLaunch c x).bringUp = s.bringUp := by
  unfold State.modLaunch; split <;> rfl
@[simp] theorem State.modLaunch_recovery (s : State) (c : Nat) (x : Launch → Launch) : (s.modLaunch c x).recovery = s.recovery := by
  unfold State.modLaunch; split <;> rfl
@[simp] theorem State.modLaunch_fatal (s : State) (c : Nat) (x : Launch → Launch) : (s.modLaunch c x).fatal = s.fatal := by
  unfold State.modLaunch; split <;> rfl
@[simp] theorem State.modLaunch_out (s : State) (c : Nat) (x : Launch → Launch) : (s.modLaunch c x).out = s.out := by
  unfold State.modLaunch; split <;> rfl
@[simp] theorem State.modLaunch_host (s : State) (c : Nat) (x : Launch → Launch) : (s.modLaunch c x).host = s.host := by
  unfold State.modLaunch; split <;> rfl
@[simp] theorem State.modLaunch_agenda (s : State) (c : Nat) (x : Launch → Launch) : (s.modLaunch c x).agenda = s.agenda := by
  unfold State.modLaunch; split <;> rfl
@[simp] theorem State.modLaunch_cur (s : State) (c : Nat) (x : Launch → Launch) : (s.modLaunch c x).cur = s.cur := by
  unfold State.modLaunch; split <;> rfl
@[simp] theorem State.modLaunch_fresh (s : State) (c : Nat) (x : Launch → Launch) : (s.modLaunch c x).fresh = s.fresh := by
  unfold State.modLaunch; split <;> rfl

/-! ### modCohort -/

@[simp] theorem State.modCohort_cycle (s : State) (c : Nat) (x : Cohort → Cohort) : (s.modCohort c x).cycle = s.cycle := by
  unfold State.modCohort; split <;> rfl
@[simp] theorem State.modCohort_time (s : State) (c : Nat) (x : Cohort → Cohort) : (s.modCohort c x).time = s.time := by
  unfold State.modCohort; split <;> rfl
@[simp] theorem State.modCohort_timeFrac (s : State) (c : Nat) (x : Cohort → Cohort) : (s.modCohort c x).timeFrac = s.timeFrac := by
  unfold State.modCohort; split <;> rfl
@[simp] theorem State.modCohort_steer (s : State) (c : Nat) (x : Cohort → Cohort) : (s.modCohort c x).steer = s.steer := by
  unfold State.modCohort; split <;> rfl
@[simp] theorem State.modCohort_timeDebt (s : State) (c : Nat) (x : Cohort → Cohort) : (s.modCohort c x).timeDebt = s.timeDebt := by
  unfold State.modCohort; split <;> rfl
@[simp] theorem State.modCohort_mem (s : State) (c : Nat) (x : Cohort → Cohort) : (s.modCohort c x).mem = s.mem := by
  unfold State.modCohort; split <;> rfl
@[simp] theorem State.modCohort_poison (s : State) (c : Nat) (x : Cohort → Cohort) : (s.modCohort c x).poison = s.poison := by
  unfold State.modCohort; split <;> rfl
@[simp] theorem State.modCohort_aspaces (s : State) (c : Nat) (x : Cohort → Cohort) : (s.modCohort c x).aspaces = s.aspaces := by
  unfold State.modCohort; split <;> rfl
@[simp] theorem State.modCohort_dmas (s : State) (c : Nat) (x : Cohort → Cohort) : (s.modCohort c x).dmas = s.dmas := by
  unfold State.modCohort; split <;> rfl
@[simp] theorem State.modCohort_failedStaging (s : State) (c : Nat) (x : Cohort → Cohort) : (s.modCohort c x).failedStaging = s.failedStaging := by
  unfold State.modCohort; split <;> rfl
@[simp] theorem State.modCohort_stamp (s : State) (c : Nat) (x : Cohort → Cohort) : (s.modCohort c x).stamp = s.stamp := by
  unfold State.modCohort; split <;> rfl
@[simp] theorem State.modCohort_groups (s : State) (c : Nat) (x : Cohort → Cohort) : (s.modCohort c x).groups = s.groups := by
  unfold State.modCohort; split <;> rfl
@[simp] theorem State.modCohort_crews (s : State) (c : Nat) (x : Cohort → Cohort) : (s.modCohort c x).crews = s.crews := by
  unfold State.modCohort; split <;> rfl
@[simp] theorem State.modCohort_launches (s : State) (c : Nat) (x : Cohort → Cohort) : (s.modCohort c x).launches = s.launches := by
  unfold State.modCohort; split <;> rfl
@[simp] theorem State.modCohort_cores (s : State) (c : Nat) (x : Cohort → Cohort) : (s.modCohort c x).cores = s.cores := by
  unfold State.modCohort; split <;> rfl
@[simp] theorem State.modCohort_clusters (s : State) (c : Nat) (x : Cohort → Cohort) : (s.modCohort c x).clusters = s.clusters := by
  unfold State.modCohort; split <;> rfl
@[simp] theorem State.modCohort_dies (s : State) (c : Nat) (x : Cohort → Cohort) : (s.modCohort c x).dies = s.dies := by
  unfold State.modCohort; split <;> rfl
@[simp] theorem State.modCohort_nextId (s : State) (c : Nat) (x : Cohort → Cohort) : (s.modCohort c x).nextId = s.nextId := by
  unfold State.modCohort; split <;> rfl
@[simp] theorem State.modCohort_nextCrew (s : State) (c : Nat) (x : Cohort → Cohort) : (s.modCohort c x).nextCrew = s.nextCrew := by
  unfold State.modCohort; split <;> rfl
@[simp] theorem State.modCohort_nextCohort (s : State) (c : Nat) (x : Cohort → Cohort) : (s.modCohort c x).nextCohort = s.nextCohort := by
  unfold State.modCohort; split <;> rfl
@[simp] theorem State.modCohort_nextLaunch (s : State) (c : Nat) (x : Cohort → Cohort) : (s.modCohort c x).nextLaunch = s.nextLaunch := by
  unfold State.modCohort; split <;> rfl
@[simp] theorem State.modCohort_rotate (s : State) (c : Nat) (x : Cohort → Cohort) : (s.modCohort c x).rotate = s.rotate := by
  unfold State.modCohort; split <;> rfl
@[simp] theorem State.modCohort_features (s : State) (c : Nat) (x : Cohort → Cohort) : (s.modCohort c x).features = s.features := by
  unfold State.modCohort; split <;> rfl
@[simp] theorem State.modCohort_rows (s : State) (c : Nat) (x : Cohort → Cohort) : (s.modCohort c x).rows = s.rows := by
  unfold State.modCohort; split <;> rfl
@[simp] theorem State.modCohort_coresReduced (s : State) (c : Nat) (x : Cohort → Cohort) : (s.modCohort c x).coresReduced = s.coresReduced := by
  unfold State.modCohort; split <;> rfl
@[simp] theorem State.modCohort_bankOut (s : State) (c : Nat) (x : Cohort → Cohort) : (s.modCohort c x).bankOut = s.bankOut := by
  unfold State.modCohort; split <;> rfl
@[simp] theorem State.modCohort_contextBase (s : State) (c : Nat) (x : Cohort → Cohort) : (s.modCohort c x).contextBase = s.contextBase := by
  unfold State.modCohort; split <;> rfl
@[simp] theorem State.modCohort_preempt (s : State) (c : Nat) (x : Cohort → Cohort) : (s.modCohort c x).preempt = s.preempt := by
  unfold State.modCohort; split <;> rfl
@[simp] theorem State.modCohort_coordX (s : State) (c : Nat) (x : Cohort → Cohort) : (s.modCohort c x).coordX = s.coordX := by
  unfold State.modCohort; split <;> rfl
@[simp] theorem State.modCohort_coordY (s : State) (c : Nat) (x : Cohort → Cohort) : (s.modCohort c x).coordY = s.coordY := by
  unfold State.modCohort; split <;> rfl
@[simp] theorem State.modCohort_linkRoute (s : State) (c : Nat) (x : Cohort → Cohort) : (s.modCohort c x).linkRoute = s.linkRoute := by
  unfold State.modCohort; split <;> rfl
@[simp] theorem State.modCohort_memwinBase (s : State) (c : Nat) (x : Cohort → Cohort) : (s.modCohort c x).memwinBase = s.memwinBase := by
  unfold State.modCohort; split <;> rfl
@[simp] theorem State.modCohort_heaps (s : State) (c : Nat) (x : Cohort → Cohort) : (s.modCohort c x).heaps = s.heaps := by
  unfold State.modCohort; split <;> rfl
@[simp] theorem State.modCohort_queues (s : State) (c : Nat) (x : Cohort → Cohort) : (s.modCohort c x).queues = s.queues := by
  unfold State.modCohort; split <;> rfl
@[simp] theorem State.modCohort_ports (s : State) (c : Nat) (x : Cohort → Cohort) : (s.modCohort c x).ports = s.ports := by
  unfold State.modCohort; split <;> rfl
@[simp] theorem State.modCohort_msixTable (s : State) (c : Nat) (x : Cohort → Cohort) : (s.modCohort c x).msixTable = s.msixTable := by
  unfold State.modCohort; split <;> rfl
@[simp] theorem State.modCohort_msixPending (s : State) (c : Nat) (x : Cohort → Cohort) : (s.modCohort c x).msixPending = s.msixPending := by
  unfold State.modCohort; split <;> rfl
@[simp] theorem State.modCohort_power (s : State) (c : Nat) (x : Cohort → Cohort) : (s.modCohort c x).power = s.power := by
  unfold State.modCohort; split <;> rfl
@[simp] theorem State.modCohort_errlog (s : State) (c : Nat) (x : Cohort → Cohort) : (s.modCohort c x).errlog = s.errlog := by
  unfold State.modCohort; split <;> rfl
@[simp] theorem State.modCohort_mbox (s : State) (c : Nat) (x : Cohort → Cohort) : (s.modCohort c x).mbox = s.mbox := by
  unfold State.modCohort; split <;> rfl
@[simp] theorem State.modCohort_surveyK (s : State) (c : Nat) (x : Cohort → Cohort) : (s.modCohort c x).surveyK = s.surveyK := by
  unfold State.modCohort; split <;> rfl
@[simp] theorem State.modCohort_surveyOn (s : State) (c : Nat) (x : Cohort → Cohort) : (s.modCohort c x).surveyOn = s.surveyOn := by
  unfold State.modCohort; split <;> rfl
@[simp] theorem State.modCohort_survey (s : State) (c : Nat) (x : Cohort → Cohort) : (s.modCohort c x).survey = s.survey := by
  unfold State.modCohort; split <;> rfl
@[simp] theorem State.modCohort_surveyLostMark (s : State) (c : Nat) (x : Cohort → Cohort) : (s.modCohort c x).surveyLostMark = s.surveyLostMark := by
  unfold State.modCohort; split <;> rfl
@[simp] theorem State.modCohort_surveyLast (s : State) (c : Nat) (x : Cohort → Cohort) : (s.modCohort c x).surveyLast = s.surveyLast := by
  unfold State.modCohort; split <;> rfl
@[simp] theorem State.modCohort_counters (s : State) (c : Nat) (x : Cohort → Cohort) : (s.modCohort c x).counters = s.counters := by
  unfold State.modCohort; split <;> rfl
@[simp] theorem State.modCohort_sampleJ (s : State) (c : Nat) (x : Cohort → Cohort) : (s.modCohort c x).sampleJ = s.sampleJ := by
  unfold State.modCohort; split <;> rfl
@[simp] theorem State.modCohort_sampleOn (s : State) (c : Nat) (x : Cohort → Cohort) : (s.modCohort c x).sampleOn = s.sampleOn := by
  unfold State.modCohort; split <;> rfl
@[simp] theorem State.modCohort_sampleSeed (s : State) (c : Nat) (x : Cohort → Cohort) : (s.modCohort c x).sampleSeed = s.sampleSeed := by
  unfold State.modCohort; split <;> rfl
@[simp] theorem State.modCohort_sample (s : State) (c : Nat) (x : Cohort → Cohort) : (s.modCohort c x).sample = s.sample := by
  unfold State.modCohort; split <;> rfl
@[simp] theorem State.modCohort_traceSize (s : State) (c : Nat) (x : Cohort → Cohort) : (s.modCohort c x).traceSize = s.traceSize := by
  unfold State.modCohort; split <;> rfl
@[simp] theorem State.modCohort_traceOn (s : State) (c : Nat) (x : Cohort → Cohort) : (s.modCohort c x).traceOn = s.traceOn := by
  unfold State.modCohort; split <;> rfl
@[simp] theorem State.modCohort_traceBase (s : State) (c : Nat) (x : Cohort → Cohort) : (s.modCohort c x).traceBase = s.traceBase := by
  unfold State.modCohort; split <;> rfl
@[simp] theorem State.modCohort_hostLinks (s : State) (c : Nat) (x : Cohort → Cohort) : (s.modCohort c x).hostLinks = s.hostLinks := by
  unfold State.modCohort; split <;> rfl
@[simp] theorem State.modCohort_cxl (s : State) (c : Nat) (x : Cohort → Cohort) : (s.modCohort c x).cxl = s.cxl := by
  unfold State.modCohort; split <;> rfl
@[simp] theorem State.modCohort_spans (s : State) (c : Nat) (x : Cohort → Cohort) : (s.modCohort c x).spans = s.spans := by
  unfold State.modCohort; split <;> rfl
@[simp] theorem State.modCohort_exchanges (s : State) (c : Nat) (x : Cohort → Cohort) : (s.modCohort c x).exchanges = s.exchanges := by
  unfold State.modCohort; split <;> rfl
@[simp] theorem State.modCohort_mgmt (s : State) (c : Nat) (x : Cohort → Cohort) : (s.modCohort c x).mgmt = s.mgmt := by
  unfold State.modCohort; split <;> rfl
@[simp] theorem State.modCohort_flitSeq (s : State) (c : Nat) (x : Cohort → Cohort) : (s.modCohort c x).flitSeq = s.flitSeq := by
  unfold State.modCohort; split <;> rfl
@[simp] theorem State.modCohort_bindings (s : State) (c : Nat) (x : Cohort → Cohort) : (s.modCohort c x).bindings = s.bindings := by
  unfold State.modCohort; split <;> rfl
@[simp] theorem State.modCohort_binds (s : State) (c : Nat) (x : Cohort → Cohort) : (s.modCohort c x).binds = s.binds := by
  unfold State.modCohort; split <;> rfl
@[simp] theorem State.modCohort_colls (s : State) (c : Nat) (x : Cohort → Cohort) : (s.modCohort c x).colls = s.colls := by
  unfold State.modCohort; split <;> rfl
@[simp] theorem State.modCohort_staged (s : State) (c : Nat) (x : Cohort → Cohort) : (s.modCohort c x).staged = s.staged := by
  unfold State.modCohort; split <;> rfl
@[simp] theorem State.modCohort_refusedColl (s : State) (c : Nat) (x : Cohort → Cohort) : (s.modCohort c x).refusedColl = s.refusedColl := by
  unfold State.modCohort; split <;> rfl
@[simp] theorem State.modCohort_images (s : State) (c : Nat) (x : Cohort → Cohort) : (s.modCohort c x).images = s.images := by
  unfold State.modCohort; split <;> rfl
@[simp] theorem State.modCohort_stored (s : State) (c : Nat) (x : Cohort → Cohort) : (s.modCohort c x).stored = s.stored := by
  unfold State.modCohort; split <;> rfl
@[simp] theorem State.modCohort_minVersion (s : State) (c : Nat) (x : Cohort → Cohort) : (s.modCohort c x).minVersion = s.minVersion := by
  unfold State.modCohort; split <;> rfl
@[simp] theorem State.modCohort_boot (s : State) (c : Nat) (x : Cohort → Cohort) : (s.modCohort c x).boot = s.boot := by
  unfold State.modCohort; split <;> rfl
@[simp] theorem State.modCohort_bringUp (s : State) (c : Nat) (x : Cohort → Cohort) : (s.modCohort c x).bringUp = s.bringUp := by
  unfold State.modCohort; split <;> rfl
@[simp] theorem State.modCohort_recovery (s : State) (c : Nat) (x : Cohort → Cohort) : (s.modCohort c x).recovery = s.recovery := by
  unfold State.modCohort; split <;> rfl
@[simp] theorem State.modCohort_fatal (s : State) (c : Nat) (x : Cohort → Cohort) : (s.modCohort c x).fatal = s.fatal := by
  unfold State.modCohort; split <;> rfl
@[simp] theorem State.modCohort_out (s : State) (c : Nat) (x : Cohort → Cohort) : (s.modCohort c x).out = s.out := by
  unfold State.modCohort; split <;> rfl
@[simp] theorem State.modCohort_host (s : State) (c : Nat) (x : Cohort → Cohort) : (s.modCohort c x).host = s.host := by
  unfold State.modCohort; split <;> rfl
@[simp] theorem State.modCohort_agenda (s : State) (c : Nat) (x : Cohort → Cohort) : (s.modCohort c x).agenda = s.agenda := by
  unfold State.modCohort; split <;> rfl
@[simp] theorem State.modCohort_cur (s : State) (c : Nat) (x : Cohort → Cohort) : (s.modCohort c x).cur = s.cur := by
  unfold State.modCohort; split <;> rfl
@[simp] theorem State.modCohort_fresh (s : State) (c : Nat) (x : Cohort → Cohort) : (s.modCohort c x).fresh = s.fresh := by
  unfold State.modCohort; split <;> rfl

/-! ### Units read after an update of other units -/

@[simp] theorem State.core_setGroup (s : State) (c f : Nat) (g : Group) (j : Nat) : (s.setGroup c f g).core j = s.core j := rfl
@[simp] theorem State.cluster_setGroup (s : State) (c f : Nat) (g : Group) (j : Nat) : (s.setGroup c f g).cluster j = s.cluster j := rfl
@[simp] theorem State.die_setGroup (s : State) (c f : Nat) (g : Group) (j : Nat) : (s.setGroup c f g).die j = s.die j := rfl
@[simp] theorem State.queue_setGroup (s : State) (c f : Nat) (g : Group) (j : Nat) : (s.setGroup c f g).queue j = s.queue j := rfl
@[simp] theorem State.port_setGroup (s : State) (c f : Nat) (g : Group) (j : Nat) : (s.setGroup c f g).port j = s.port j := rfl
@[simp] theorem State.crew_setGroup (s : State) (c f : Nat) (g : Group) (j : Nat) : (s.setGroup c f g).crew j = s.crew j := rfl
@[simp] theorem State.launch_setGroup (s : State) (c f : Nat) (g : Group) (j : Nat) : (s.setGroup c f g).launch j = s.launch j := rfl
@[simp] theorem State.space_setGroup (s : State) (c f : Nat) (g : Group) (j : Nat) : (s.setGroup c f g).space j = s.space j := rfl
@[simp] theorem State.core_delGroup (s : State) (c f : Nat) (j : Nat) : (s.delGroup c f).core j = s.core j := rfl
@[simp] theorem State.cluster_delGroup (s : State) (c f : Nat) (j : Nat) : (s.delGroup c f).cluster j = s.cluster j := rfl
@[simp] theorem State.die_delGroup (s : State) (c f : Nat) (j : Nat) : (s.delGroup c f).die j = s.die j := rfl
@[simp] theorem State.queue_delGroup (s : State) (c f : Nat) (j : Nat) : (s.delGroup c f).queue j = s.queue j := rfl
@[simp] theorem State.port_delGroup (s : State) (c f : Nat) (j : Nat) : (s.delGroup c f).port j = s.port j := rfl
@[simp] theorem State.crew_delGroup (s : State) (c f : Nat) (j : Nat) : (s.delGroup c f).crew j = s.crew j := rfl
@[simp] theorem State.launch_delGroup (s : State) (c f : Nat) (j : Nat) : (s.delGroup c f).launch j = s.launch j := rfl
@[simp] theorem State.space_delGroup (s : State) (c f : Nat) (j : Nat) : (s.delGroup c f).space j = s.space j := rfl
@[simp] theorem State.group_setCore (s : State) (c : Nat) (x : Core) (j k : Nat) : (s.setCore c x).group j k = s.group j k := rfl
@[simp] theorem State.cluster_setCore (s : State) (c : Nat) (x : Core) (j : Nat) : (s.setCore c x).cluster j = s.cluster j := rfl
@[simp] theorem State.die_setCore (s : State) (c : Nat) (x : Core) (j : Nat) : (s.setCore c x).die j = s.die j := rfl
@[simp] theorem State.queue_setCore (s : State) (c : Nat) (x : Core) (j : Nat) : (s.setCore c x).queue j = s.queue j := rfl
@[simp] theorem State.port_setCore (s : State) (c : Nat) (x : Core) (j : Nat) : (s.setCore c x).port j = s.port j := rfl
@[simp] theorem State.crew_setCore (s : State) (c : Nat) (x : Core) (j : Nat) : (s.setCore c x).crew j = s.crew j := rfl
@[simp] theorem State.launch_setCore (s : State) (c : Nat) (x : Core) (j : Nat) : (s.setCore c x).launch j = s.launch j := rfl
@[simp] theorem State.space_setCore (s : State) (c : Nat) (x : Core) (j : Nat) : (s.setCore c x).space j = s.space j := rfl
@[simp] theorem State.group_modCore (s : State) (c : Nat) (x : Core → Core) (j k : Nat) : (s.modCore c x).group j k = s.group j k := rfl
@[simp] theorem State.cluster_modCore (s : State) (c : Nat) (x : Core → Core) (j : Nat) : (s.modCore c x).cluster j = s.cluster j := rfl
@[simp] theorem State.die_modCore (s : State) (c : Nat) (x : Core → Core) (j : Nat) : (s.modCore c x).die j = s.die j := rfl
@[simp] theorem State.queue_modCore (s : State) (c : Nat) (x : Core → Core) (j : Nat) : (s.modCore c x).queue j = s.queue j := rfl
@[simp] theorem State.port_modCore (s : State) (c : Nat) (x : Core → Core) (j : Nat) : (s.modCore c x).port j = s.port j := rfl
@[simp] theorem State.crew_modCore (s : State) (c : Nat) (x : Core → Core) (j : Nat) : (s.modCore c x).crew j = s.crew j := rfl
@[simp] theorem State.launch_modCore (s : State) (c : Nat) (x : Core → Core) (j : Nat) : (s.modCore c x).launch j = s.launch j := rfl
@[simp] theorem State.space_modCore (s : State) (c : Nat) (x : Core → Core) (j : Nat) : (s.modCore c x).space j = s.space j := rfl
@[simp] theorem State.group_setCluster (s : State) (c : Nat) (x : Cluster) (j k : Nat) : (s.setCluster c x).group j k = s.group j k := rfl
@[simp] theorem State.core_setCluster (s : State) (c : Nat) (x : Cluster) (j : Nat) : (s.setCluster c x).core j = s.core j := rfl
@[simp] theorem State.die_setCluster (s : State) (c : Nat) (x : Cluster) (j : Nat) : (s.setCluster c x).die j = s.die j := rfl
@[simp] theorem State.queue_setCluster (s : State) (c : Nat) (x : Cluster) (j : Nat) : (s.setCluster c x).queue j = s.queue j := rfl
@[simp] theorem State.port_setCluster (s : State) (c : Nat) (x : Cluster) (j : Nat) : (s.setCluster c x).port j = s.port j := rfl
@[simp] theorem State.crew_setCluster (s : State) (c : Nat) (x : Cluster) (j : Nat) : (s.setCluster c x).crew j = s.crew j := rfl
@[simp] theorem State.launch_setCluster (s : State) (c : Nat) (x : Cluster) (j : Nat) : (s.setCluster c x).launch j = s.launch j := rfl
@[simp] theorem State.space_setCluster (s : State) (c : Nat) (x : Cluster) (j : Nat) : (s.setCluster c x).space j = s.space j := rfl
@[simp] theorem State.group_modCluster (s : State) (c : Nat) (x : Cluster → Cluster) (j k : Nat) : (s.modCluster c x).group j k = s.group j k := rfl
@[simp] theorem State.core_modCluster (s : State) (c : Nat) (x : Cluster → Cluster) (j : Nat) : (s.modCluster c x).core j = s.core j := rfl
@[simp] theorem State.die_modCluster (s : State) (c : Nat) (x : Cluster → Cluster) (j : Nat) : (s.modCluster c x).die j = s.die j := rfl
@[simp] theorem State.queue_modCluster (s : State) (c : Nat) (x : Cluster → Cluster) (j : Nat) : (s.modCluster c x).queue j = s.queue j := rfl
@[simp] theorem State.port_modCluster (s : State) (c : Nat) (x : Cluster → Cluster) (j : Nat) : (s.modCluster c x).port j = s.port j := rfl
@[simp] theorem State.crew_modCluster (s : State) (c : Nat) (x : Cluster → Cluster) (j : Nat) : (s.modCluster c x).crew j = s.crew j := rfl
@[simp] theorem State.launch_modCluster (s : State) (c : Nat) (x : Cluster → Cluster) (j : Nat) : (s.modCluster c x).launch j = s.launch j := rfl
@[simp] theorem State.space_modCluster (s : State) (c : Nat) (x : Cluster → Cluster) (j : Nat) : (s.modCluster c x).space j = s.space j := rfl
@[simp] theorem State.group_modDie (s : State) (d : Nat) (x : Die → Die) (j k : Nat) : (s.modDie d x).group j k = s.group j k := rfl
@[simp] theorem State.core_modDie (s : State) (d : Nat) (x : Die → Die) (j : Nat) : (s.modDie d x).core j = s.core j := rfl
@[simp] theorem State.cluster_modDie (s : State) (d : Nat) (x : Die → Die) (j : Nat) : (s.modDie d x).cluster j = s.cluster j := rfl
@[simp] theorem State.queue_modDie (s : State) (d : Nat) (x : Die → Die) (j : Nat) : (s.modDie d x).queue j = s.queue j := rfl
@[simp] theorem State.port_modDie (s : State) (d : Nat) (x : Die → Die) (j : Nat) : (s.modDie d x).port j = s.port j := rfl
@[simp] theorem State.crew_modDie (s : State) (d : Nat) (x : Die → Die) (j : Nat) : (s.modDie d x).crew j = s.crew j := rfl
@[simp] theorem State.launch_modDie (s : State) (d : Nat) (x : Die → Die) (j : Nat) : (s.modDie d x).launch j = s.launch j := rfl
@[simp] theorem State.space_modDie (s : State) (d : Nat) (x : Die → Die) (j : Nat) : (s.modDie d x).space j = s.space j := rfl
@[simp] theorem State.group_setQueue (s : State) (q : Nat) (x : Queue) (j k : Nat) : (s.setQueue q x).group j k = s.group j k := rfl
@[simp] theorem State.core_setQueue (s : State) (q : Nat) (x : Queue) (j : Nat) : (s.setQueue q x).core j = s.core j := rfl
@[simp] theorem State.cluster_setQueue (s : State) (q : Nat) (x : Queue) (j : Nat) : (s.setQueue q x).cluster j = s.cluster j := rfl
@[simp] theorem State.die_setQueue (s : State) (q : Nat) (x : Queue) (j : Nat) : (s.setQueue q x).die j = s.die j := rfl
@[simp] theorem State.port_setQueue (s : State) (q : Nat) (x : Queue) (j : Nat) : (s.setQueue q x).port j = s.port j := rfl
@[simp] theorem State.crew_setQueue (s : State) (q : Nat) (x : Queue) (j : Nat) : (s.setQueue q x).crew j = s.crew j := rfl
@[simp] theorem State.launch_setQueue (s : State) (q : Nat) (x : Queue) (j : Nat) : (s.setQueue q x).launch j = s.launch j := rfl
@[simp] theorem State.space_setQueue (s : State) (q : Nat) (x : Queue) (j : Nat) : (s.setQueue q x).space j = s.space j := rfl
@[simp] theorem State.group_modQueue (s : State) (q : Nat) (x : Queue → Queue) (j k : Nat) : (s.modQueue q x).group j k = s.group j k := rfl
@[simp] theorem State.core_modQueue (s : State) (q : Nat) (x : Queue → Queue) (j : Nat) : (s.modQueue q x).core j = s.core j := rfl
@[simp] theorem State.cluster_modQueue (s : State) (q : Nat) (x : Queue → Queue) (j : Nat) : (s.modQueue q x).cluster j = s.cluster j := rfl
@[simp] theorem State.die_modQueue (s : State) (q : Nat) (x : Queue → Queue) (j : Nat) : (s.modQueue q x).die j = s.die j := rfl
@[simp] theorem State.port_modQueue (s : State) (q : Nat) (x : Queue → Queue) (j : Nat) : (s.modQueue q x).port j = s.port j := rfl
@[simp] theorem State.crew_modQueue (s : State) (q : Nat) (x : Queue → Queue) (j : Nat) : (s.modQueue q x).crew j = s.crew j := rfl
@[simp] theorem State.launch_modQueue (s : State) (q : Nat) (x : Queue → Queue) (j : Nat) : (s.modQueue q x).launch j = s.launch j := rfl
@[simp] theorem State.space_modQueue (s : State) (q : Nat) (x : Queue → Queue) (j : Nat) : (s.modQueue q x).space j = s.space j := rfl
@[simp] theorem State.group_modPort (s : State) (p : Nat) (x : Port → Port) (j k : Nat) : (s.modPort p x).group j k = s.group j k := rfl
@[simp] theorem State.core_modPort (s : State) (p : Nat) (x : Port → Port) (j : Nat) : (s.modPort p x).core j = s.core j := rfl
@[simp] theorem State.cluster_modPort (s : State) (p : Nat) (x : Port → Port) (j : Nat) : (s.modPort p x).cluster j = s.cluster j := rfl
@[simp] theorem State.die_modPort (s : State) (p : Nat) (x : Port → Port) (j : Nat) : (s.modPort p x).die j = s.die j := rfl
@[simp] theorem State.queue_modPort (s : State) (p : Nat) (x : Port → Port) (j : Nat) : (s.modPort p x).queue j = s.queue j := rfl
@[simp] theorem State.crew_modPort (s : State) (p : Nat) (x : Port → Port) (j : Nat) : (s.modPort p x).crew j = s.crew j := rfl
@[simp] theorem State.launch_modPort (s : State) (p : Nat) (x : Port → Port) (j : Nat) : (s.modPort p x).launch j = s.launch j := rfl
@[simp] theorem State.space_modPort (s : State) (p : Nat) (x : Port → Port) (j : Nat) : (s.modPort p x).space j = s.space j := rfl
@[simp] theorem State.group_setCrew (s : State) (c : Nat) (x : Crew) (j k : Nat) : (s.setCrew c x).group j k = s.group j k := rfl
@[simp] theorem State.core_setCrew (s : State) (c : Nat) (x : Crew) (j : Nat) : (s.setCrew c x).core j = s.core j := rfl
@[simp] theorem State.cluster_setCrew (s : State) (c : Nat) (x : Crew) (j : Nat) : (s.setCrew c x).cluster j = s.cluster j := rfl
@[simp] theorem State.die_setCrew (s : State) (c : Nat) (x : Crew) (j : Nat) : (s.setCrew c x).die j = s.die j := rfl
@[simp] theorem State.queue_setCrew (s : State) (c : Nat) (x : Crew) (j : Nat) : (s.setCrew c x).queue j = s.queue j := rfl
@[simp] theorem State.port_setCrew (s : State) (c : Nat) (x : Crew) (j : Nat) : (s.setCrew c x).port j = s.port j := rfl
@[simp] theorem State.launch_setCrew (s : State) (c : Nat) (x : Crew) (j : Nat) : (s.setCrew c x).launch j = s.launch j := rfl
@[simp] theorem State.space_setCrew (s : State) (c : Nat) (x : Crew) (j : Nat) : (s.setCrew c x).space j = s.space j := rfl
@[simp] theorem State.group_emit (s : State) (o : Out) (j k : Nat) : (s.emit o).group j k = s.group j k := rfl
@[simp] theorem State.core_emit (s : State) (o : Out) (j : Nat) : (s.emit o).core j = s.core j := rfl
@[simp] theorem State.cluster_emit (s : State) (o : Out) (j : Nat) : (s.emit o).cluster j = s.cluster j := rfl
@[simp] theorem State.die_emit (s : State) (o : Out) (j : Nat) : (s.emit o).die j = s.die j := rfl
@[simp] theorem State.queue_emit (s : State) (o : Out) (j : Nat) : (s.emit o).queue j = s.queue j := rfl
@[simp] theorem State.port_emit (s : State) (o : Out) (j : Nat) : (s.emit o).port j = s.port j := rfl
@[simp] theorem State.crew_emit (s : State) (o : Out) (j : Nat) : (s.emit o).crew j = s.crew j := rfl
@[simp] theorem State.launch_emit (s : State) (o : Out) (j : Nat) : (s.emit o).launch j = s.launch j := rfl
@[simp] theorem State.space_emit (s : State) (o : Out) (j : Nat) : (s.emit o).space j = s.space j := rfl
@[simp] theorem State.group_count (s : State) (u w n : Nat) (j k : Nat) : (s.count u w n).group j k = s.group j k := rfl
@[simp] theorem State.core_count (s : State) (u w n : Nat) (j : Nat) : (s.count u w n).core j = s.core j := rfl
@[simp] theorem State.cluster_count (s : State) (u w n : Nat) (j : Nat) : (s.count u w n).cluster j = s.cluster j := rfl
@[simp] theorem State.die_count (s : State) (u w n : Nat) (j : Nat) : (s.count u w n).die j = s.die j := rfl
@[simp] theorem State.queue_count (s : State) (u w n : Nat) (j : Nat) : (s.count u w n).queue j = s.queue j := rfl
@[simp] theorem State.port_count (s : State) (u w n : Nat) (j : Nat) : (s.count u w n).port j = s.port j := rfl
@[simp] theorem State.crew_count (s : State) (u w n : Nat) (j : Nat) : (s.count u w n).crew j = s.crew j := rfl
@[simp] theorem State.launch_count (s : State) (u w n : Nat) (j : Nat) : (s.count u w n).launch j = s.launch j := rfl
@[simp] theorem State.space_count (s : State) (u w n : Nat) (j : Nat) : (s.count u w n).space j = s.space j := rfl
@[simp] theorem State.group_putMem (s : State) (a : Nat) (b : List Byte) (j k : Nat) : (s.putMem a b).group j k = s.group j k := rfl
@[simp] theorem State.core_putMem (s : State) (a : Nat) (b : List Byte) (j : Nat) : (s.putMem a b).core j = s.core j := rfl
@[simp] theorem State.cluster_putMem (s : State) (a : Nat) (b : List Byte) (j : Nat) : (s.putMem a b).cluster j = s.cluster j := rfl
@[simp] theorem State.die_putMem (s : State) (a : Nat) (b : List Byte) (j : Nat) : (s.putMem a b).die j = s.die j := rfl
@[simp] theorem State.queue_putMem (s : State) (a : Nat) (b : List Byte) (j : Nat) : (s.putMem a b).queue j = s.queue j := rfl
@[simp] theorem State.port_putMem (s : State) (a : Nat) (b : List Byte) (j : Nat) : (s.putMem a b).port j = s.port j := rfl
@[simp] theorem State.crew_putMem (s : State) (a : Nat) (b : List Byte) (j : Nat) : (s.putMem a b).crew j = s.crew j := rfl
@[simp] theorem State.launch_putMem (s : State) (a : Nat) (b : List Byte) (j : Nat) : (s.putMem a b).launch j = s.launch j := rfl
@[simp] theorem State.space_putMem (s : State) (a : Nat) (b : List Byte) (j : Nat) : (s.putMem a b).space j = s.space j := rfl
@[simp] theorem State.group_countCore (s : State) (u w n : Nat) (j k : Nat) : (s.countCore u w n).group j k = s.group j k := rfl
@[simp] theorem State.core_countCore (s : State) (u w n : Nat) (j : Nat) : (s.countCore u w n).core j = s.core j := rfl
@[simp] theorem State.cluster_countCore (s : State) (u w n : Nat) (j : Nat) : (s.countCore u w n).cluster j = s.cluster j := rfl
@[simp] theorem State.die_countCore (s : State) (u w n : Nat) (j : Nat) : (s.countCore u w n).die j = s.die j := rfl
@[simp] theorem State.queue_countCore (s : State) (u w n : Nat) (j : Nat) : (s.countCore u w n).queue j = s.queue j := rfl
@[simp] theorem State.port_countCore (s : State) (u w n : Nat) (j : Nat) : (s.countCore u w n).port j = s.port j := rfl
@[simp] theorem State.crew_countCore (s : State) (u w n : Nat) (j : Nat) : (s.countCore u w n).crew j = s.crew j := rfl
@[simp] theorem State.launch_countCore (s : State) (u w n : Nat) (j : Nat) : (s.countCore u w n).launch j = s.launch j := rfl
@[simp] theorem State.space_countCore (s : State) (u w n : Nat) (j : Nat) : (s.countCore u w n).space j = s.space j := rfl
@[simp] theorem State.core_modGroup (s : State) (c f : Nat) (x : Group → Group) (j : Nat) : (s.modGroup c f x).core j = s.core j := by
  unfold State.modGroup; split <;> rfl
@[simp] theorem State.cluster_modGroup (s : State) (c f : Nat) (x : Group → Group) (j : Nat) : (s.modGroup c f x).cluster j = s.cluster j := by
  unfold State.modGroup; split <;> rfl
@[simp] theorem State.die_modGroup (s : State) (c f : Nat) (x : Group → Group) (j : Nat) : (s.modGroup c f x).die j = s.die j := by
  unfold State.modGroup; split <;> rfl
@[simp] theorem State.queue_modGroup (s : State) (c f : Nat) (x : Group → Group) (j : Nat) : (s.modGroup c f x).queue j = s.queue j := by
  unfold State.modGroup; split <;> rfl
@[simp] theorem State.port_modGroup (s : State) (c f : Nat) (x : Group → Group) (j : Nat) : (s.modGroup c f x).port j = s.port j := by
  unfold State.modGroup; split <;> rfl
@[simp] theorem State.crew_modGroup (s : State) (c f : Nat) (x : Group → Group) (j : Nat) : (s.modGroup c f x).crew j = s.crew j := by
  unfold State.modGroup; split <;> rfl
@[simp] theorem State.launch_modGroup (s : State) (c f : Nat) (x : Group → Group) (j : Nat) : (s.modGroup c f x).launch j = s.launch j := by
  unfold State.modGroup; split <;> rfl
@[simp] theorem State.space_modGroup (s : State) (c f : Nat) (x : Group → Group) (j : Nat) : (s.modGroup c f x).space j = s.space j := by
  unfold State.modGroup; split <;> rfl
@[simp] theorem State.group_modCrew (s : State) (c : Nat) (x : Crew → Crew) (j k : Nat) : (s.modCrew c x).group j k = s.group j k := by
  unfold State.modCrew; split <;> rfl
@[simp] theorem State.core_modCrew (s : State) (c : Nat) (x : Crew → Crew) (j : Nat) : (s.modCrew c x).core j = s.core j := by
  unfold State.modCrew; split <;> rfl
@[simp] theorem State.cluster_modCrew (s : State) (c : Nat) (x : Crew → Crew) (j : Nat) : (s.modCrew c x).cluster j = s.cluster j := by
  unfold State.modCrew; split <;> rfl
@[simp] theorem State.die_modCrew (s : State) (c : Nat) (x : Crew → Crew) (j : Nat) : (s.modCrew c x).die j = s.die j := by
  unfold State.modCrew; split <;> rfl
@[simp] theorem State.queue_modCrew (s : State) (c : Nat) (x : Crew → Crew) (j : Nat) : (s.modCrew c x).queue j = s.queue j := by
  unfold State.modCrew; split <;> rfl
@[simp] theorem State.port_modCrew (s : State) (c : Nat) (x : Crew → Crew) (j : Nat) : (s.modCrew c x).port j = s.port j := by
  unfold State.modCrew; split <;> rfl
@[simp] theorem State.launch_modCrew (s : State) (c : Nat) (x : Crew → Crew) (j : Nat) : (s.modCrew c x).launch j = s.launch j := by
  unfold State.modCrew; split <;> rfl
@[simp] theorem State.space_modCrew (s : State) (c : Nat) (x : Crew → Crew) (j : Nat) : (s.modCrew c x).space j = s.space j := by
  unfold State.modCrew; split <;> rfl
@[simp] theorem State.group_modLaunch (s : State) (c : Nat) (x : Launch → Launch) (j k : Nat) : (s.modLaunch c x).group j k = s.group j k := by
  unfold State.modLaunch; split <;> rfl
@[simp] theorem State.core_modLaunch (s : State) (c : Nat) (x : Launch → Launch) (j : Nat) : (s.modLaunch c x).core j = s.core j := by
  unfold State.modLaunch; split <;> rfl
@[simp] theorem State.cluster_modLaunch (s : State) (c : Nat) (x : Launch → Launch) (j : Nat) : (s.modLaunch c x).cluster j = s.cluster j := by
  unfold State.modLaunch; split <;> rfl
@[simp] theorem State.die_modLaunch (s : State) (c : Nat) (x : Launch → Launch) (j : Nat) : (s.modLaunch c x).die j = s.die j := by
  unfold State.modLaunch; split <;> rfl
@[simp] theorem State.queue_modLaunch (s : State) (c : Nat) (x : Launch → Launch) (j : Nat) : (s.modLaunch c x).queue j = s.queue j := by
  unfold State.modLaunch; split <;> rfl
@[simp] theorem State.port_modLaunch (s : State) (c : Nat) (x : Launch → Launch) (j : Nat) : (s.modLaunch c x).port j = s.port j := by
  unfold State.modLaunch; split <;> rfl
@[simp] theorem State.crew_modLaunch (s : State) (c : Nat) (x : Launch → Launch) (j : Nat) : (s.modLaunch c x).crew j = s.crew j := by
  unfold State.modLaunch; split <;> rfl
@[simp] theorem State.space_modLaunch (s : State) (c : Nat) (x : Launch → Launch) (j : Nat) : (s.modLaunch c x).space j = s.space j := by
  unfold State.modLaunch; split <;> rfl
@[simp] theorem State.group_modCohort (s : State) (c : Nat) (x : Cohort → Cohort) (j k : Nat) : (s.modCohort c x).group j k = s.group j k := by
  unfold State.modCohort; split <;> rfl
@[simp] theorem State.core_modCohort (s : State) (c : Nat) (x : Cohort → Cohort) (j : Nat) : (s.modCohort c x).core j = s.core j := by
  unfold State.modCohort; split <;> rfl
@[simp] theorem State.cluster_modCohort (s : State) (c : Nat) (x : Cohort → Cohort) (j : Nat) : (s.modCohort c x).cluster j = s.cluster j := by
  unfold State.modCohort; split <;> rfl
@[simp] theorem State.die_modCohort (s : State) (c : Nat) (x : Cohort → Cohort) (j : Nat) : (s.modCohort c x).die j = s.die j := by
  unfold State.modCohort; split <;> rfl
@[simp] theorem State.queue_modCohort (s : State) (c : Nat) (x : Cohort → Cohort) (j : Nat) : (s.modCohort c x).queue j = s.queue j := by
  unfold State.modCohort; split <;> rfl
@[simp] theorem State.port_modCohort (s : State) (c : Nat) (x : Cohort → Cohort) (j : Nat) : (s.modCohort c x).port j = s.port j := by
  unfold State.modCohort; split <;> rfl
@[simp] theorem State.crew_modCohort (s : State) (c : Nat) (x : Cohort → Cohort) (j : Nat) : (s.modCohort c x).crew j = s.crew j := by
  unfold State.modCohort; split <;> rfl
@[simp] theorem State.launch_modCohort (s : State) (c : Nat) (x : Cohort → Cohort) (j : Nat) : (s.modCohort c x).launch j = s.launch j := by
  unfold State.modCohort; split <;> rfl
@[simp] theorem State.space_modCohort (s : State) (c : Nat) (x : Cohort → Cohort) (j : Nat) : (s.modCohort c x).space j = s.space j := by
  unfold State.modCohort; split <;> rfl
@[simp] theorem State.launchOf_setGroup (s : State) (c f : Nat) (g : Group) (h : Group) : (s.setGroup c f g).launchOf h = s.launchOf h := rfl
@[simp] theorem State.boundsOf_setGroup (s : State) (c f : Nat) (g : Group) (h : Group) : (s.setGroup c f g).boundsOf h = s.boundsOf h := rfl
@[simp] theorem State.launchOf_delGroup (s : State) (c f : Nat) (h : Group) : (s.delGroup c f).launchOf h = s.launchOf h := rfl
@[simp] theorem State.boundsOf_delGroup (s : State) (c f : Nat) (h : Group) : (s.delGroup c f).boundsOf h = s.boundsOf h := rfl
@[simp] theorem State.launchOf_setCore (s : State) (c : Nat) (x : Core) (g : Group) : (s.setCore c x).launchOf g = s.launchOf g := rfl
@[simp] theorem State.boundsOf_setCore (s : State) (c : Nat) (x : Core) (g : Group) : (s.setCore c x).boundsOf g = s.boundsOf g := rfl
@[simp] theorem State.launchOf_modCore (s : State) (c : Nat) (x : Core → Core) (g : Group) : (s.modCore c x).launchOf g = s.launchOf g := rfl
@[simp] theorem State.boundsOf_modCore (s : State) (c : Nat) (x : Core → Core) (g : Group) : (s.modCore c x).boundsOf g = s.boundsOf g := rfl
@[simp] theorem State.launchOf_setCluster (s : State) (c : Nat) (x : Cluster) (g : Group) : (s.setCluster c x).launchOf g = s.launchOf g := rfl
@[simp] theorem State.boundsOf_setCluster (s : State) (c : Nat) (x : Cluster) (g : Group) : (s.setCluster c x).boundsOf g = s.boundsOf g := rfl
@[simp] theorem State.launchOf_modCluster (s : State) (c : Nat) (x : Cluster → Cluster) (g : Group) : (s.modCluster c x).launchOf g = s.launchOf g := rfl
@[simp] theorem State.boundsOf_modCluster (s : State) (c : Nat) (x : Cluster → Cluster) (g : Group) : (s.modCluster c x).boundsOf g = s.boundsOf g := rfl
@[simp] theorem State.launchOf_modDie (s : State) (d : Nat) (x : Die → Die) (g : Group) : (s.modDie d x).launchOf g = s.launchOf g := rfl
@[simp] theorem State.boundsOf_modDie (s : State) (d : Nat) (x : Die → Die) (g : Group) : (s.modDie d x).boundsOf g = s.boundsOf g := rfl
@[simp] theorem State.launchOf_setQueue (s : State) (q : Nat) (x : Queue) (g : Group) : (s.setQueue q x).launchOf g = s.launchOf g := rfl
@[simp] theorem State.boundsOf_setQueue (s : State) (q : Nat) (x : Queue) (g : Group) : (s.setQueue q x).boundsOf g = s.boundsOf g := rfl
@[simp] theorem State.launchOf_modQueue (s : State) (q : Nat) (x : Queue → Queue) (g : Group) : (s.modQueue q x).launchOf g = s.launchOf g := rfl
@[simp] theorem State.boundsOf_modQueue (s : State) (q : Nat) (x : Queue → Queue) (g : Group) : (s.modQueue q x).boundsOf g = s.boundsOf g := rfl
@[simp] theorem State.launchOf_modPort (s : State) (p : Nat) (x : Port → Port) (g : Group) : (s.modPort p x).launchOf g = s.launchOf g := rfl
@[simp] theorem State.boundsOf_modPort (s : State) (p : Nat) (x : Port → Port) (g : Group) : (s.modPort p x).boundsOf g = s.boundsOf g := rfl
@[simp] theorem State.launchOf_emit (s : State) (o : Out) (g : Group) : (s.emit o).launchOf g = s.launchOf g := rfl
@[simp] theorem State.boundsOf_emit (s : State) (o : Out) (g : Group) : (s.emit o).boundsOf g = s.boundsOf g := rfl
@[simp] theorem State.launchOf_count (s : State) (u w n : Nat) (g : Group) : (s.count u w n).launchOf g = s.launchOf g := rfl
@[simp] theorem State.boundsOf_count (s : State) (u w n : Nat) (g : Group) : (s.count u w n).boundsOf g = s.boundsOf g := rfl
@[simp] theorem State.launchOf_putMem (s : State) (a : Nat) (b : List Byte) (g : Group) : (s.putMem a b).launchOf g = s.launchOf g := rfl
@[simp] theorem State.boundsOf_putMem (s : State) (a : Nat) (b : List Byte) (g : Group) : (s.putMem a b).boundsOf g = s.boundsOf g := rfl
@[simp] theorem State.launchOf_countCore (s : State) (u w n : Nat) (g : Group) : (s.countCore u w n).launchOf g = s.launchOf g := rfl
@[simp] theorem State.boundsOf_countCore (s : State) (u w n : Nat) (g : Group) : (s.countCore u w n).boundsOf g = s.boundsOf g := rfl

end Sys2Proof.Machine
end

