-- ==== Sys2Proof/Laws/Tables.lean ====
section
/-! SUPPORT. Tables and lists by number, and the units of State read after an update of the same kind of unit. -/

namespace Sys2Proof.Machine

theorem tfind_tset {α : Type} (t : Tbl α) (n m : Nat) (v : α) : tfind (tset t n v) m = if n = m then some v else tfind t m := by
  induction t with
  | nil => by_cases h : n = m <;> simp [tset, tfind, h]
  | cons p r ih =>
    obtain ⟨k, w⟩ := p
    by_cases hk : k = n
    · subst hk
      by_cases h : k = m <;> simp [tset, tfind, h]
    · simp only [tset, hk, if_false, tfind, ih]
      by_cases h : n = m
      · subst h; simp [hk]
      · by_cases g : k = m <;> simp [h, g]

@[simp] theorem tfind_tset_same {α : Type} (t : Tbl α) (n : Nat) (v : α) : tfind (tset t n v) n = some v := by simp [tfind_tset]

theorem tfind_tset_ne {α : Type} (t : Tbl α) {n m : Nat} (v : α) (h : n ≠ m) : tfind (tset t n v) m = tfind t m := by
  simp [tfind_tset, h]

theorem tget_tset {α : Type} (t : Tbl α) (n m : Nat) (v d : α) : tget (tset t n v) m d = if n = m then v else tget t m d := by
  unfold tget; rw [tfind_tset]; split <;> rfl

@[simp] theorem tget_tset_same {α : Type} (t : Tbl α) (n : Nat) (v d : α) : tget (tset t n v) n d = v := by simp [tget_tset]

theorem tset_tset_same {α : Type} (t : Tbl α) (n : Nat) (v w : α) : tset (tset t n v) n w = tset t n w := by
  induction t with
  | nil => simp [tset]
  | cons p r ih =>
    obtain ⟨k, x⟩ := p
    by_cases h : k = n <;> simp [tset, h, ih]

/-! ### Lists with an entry set -/

theorem getD_pset {α : Type} (d : α) (l : List α) (n m : Nat) (v : α) :
    (pset d l n v).getD m d = if n = m then v else l.getD m d := by
  induction n generalizing l m with
  | zero => cases l <;> cases m <;> simp [pset]
  | succ n ih =>
    cases l with
    | nil =>
      cases m with
      | zero => simp [pset]
      | succ m => simpa [pset] using ih [] m
    | cons x r =>
      cases m with
      | zero => simp [pset]
      | succ m => simpa [pset] using ih r m

@[simp] theorem Ctx.reg_setReg (c : Ctx) (v w : Nat) (r : VReg) : (c.setReg v r).reg w = if v = w then r else c.reg w := by
  unfold Ctx.reg Ctx.setReg; exact getD_pset _ _ _ _ _

theorem Ctx.maskAt_setMask (c : Ctx) (k j : Nat) (x : Mask) :
    (c.setMask k x).maskAt j = if k - 1 = j - 1 then x else c.maskAt j := by
  unfold Ctx.maskAt Ctx.setMask; exact getD_pset _ _ _ _ _

/-! ### Units after an update of their own kind -/

theorem gkey_inj {c f c' f' : Nat} (hf : f < 32) (hf' : f' < 32) : gkey c f = gkey c' f' ↔ c = c' ∧ f = f' := by
  unfold gkey; omega

theorem State.group_setGroup (s : State) (c f c' f' : Nat) (g : Group) :
    (s.setGroup c f g).group c' f' = if gkey c f = gkey c' f' then some g else s.group c' f' := by
  simp [State.group, State.setGroup, tfind_tset]

@[simp] theorem State.group_setGroup_same (s : State) (c f : Nat) (g : Group) : (s.setGroup c f g).group c f = some g := by
  simp [State.group_setGroup]

theorem State.group_modGroup_same (s : State) (c f : Nat) (h : Group → Group) :
    (s.modGroup c f h).group c f = (s.group c f).map h := by
  unfold State.modGroup; cases e : s.group c f <;> simp [e]

theorem State.modGroup_some {s : State} {c f : Nat} {g : Group} (h : Group → Group) (e : s.group c f = some g) :
    s.modGroup c f h = s.setGroup c f (h g) := by
  unfold State.modGroup; rw [e]

theorem State.find_modGroup (s : State) (c f k : Nat) (h : Group → Group) (hk : k ≠ gkey c f) :
    tfind (s.modGroup c f h).groups k = tfind s.groups k := by
  unfold State.modGroup; split
  · exact tfind_tset_ne _ _ (Ne.symm hk)
  · rfl

@[simp] theorem State.core_setCore_same (s : State) (c : Nat) (x : Core) : (s.setCore c x).core c = x := by
  simp [State.core, State.setCore]

theorem State.core_setCore (s : State) (c n : Nat) (x : Core) : (s.setCore c x).core n = if c = n then x else s.core n := by
  simp [State.core, State.setCore, tget_tset]

theorem State.core_modCore (s : State) (c n : Nat) (f : Core → Core) :
    (s.modCore c f).core n = if c = n then f (s.core c) else s.core n := State.core_setCore s c n _

@[simp] theorem State.core_modCore_same (s : State) (c : Nat) (f : Core → Core) : (s.modCore c f).core c = f (s.core c) := by
  simp [State.core_modCore]

theorem State.cluster_setCluster (s : State) (c n : Nat) (x : Cluster) :
    (s.setCluster c x).cluster n = if c = n then x else s.cluster n := by
  simp [State.cluster, State.setCluster, tget_tset]

theorem State.cluster_modCluster (s : State) (c n : Nat) (f : Cluster → Cluster) :
    (s.modCluster c f).cluster n = if c = n then f (s.cluster c) else s.cluster n := State.cluster_setCluster s c n _

theorem State.die_modDie (s : State) (d n : Nat) (f : Die → Die) :
    (s.modDie d f).die n = if d = n then f (s.die d) else s.die n := by
  simp [State.die, State.modDie, tget_tset]

theorem State.queue_setQueue (s : State) (q n : Nat) (x : Queue) :
    (s.setQueue q x).queue n = if q = n then x else s.queue n := by
  simp [State.queue, State.setQueue, tget_tset]

@[simp] theorem State.queue_setQueue_same (s : State) (q : Nat) (x : Queue) : (s.setQueue q x).queue q = x := by
  simp [State.queue_setQueue]

theorem State.queue_modQueue (s : State) (q n : Nat) (f : Queue → Queue) :
    (s.modQueue q f).queue n = if q = n then f (s.queue q) else s.queue n := State.queue_setQueue s q n _

theorem State.port_modPort (s : State) (p n : Nat) (f : Port → Port) :
    (s.modPort p f).port n = if p = n then f (s.port p) else s.port n := by
  simp [State.port, State.modPort, tget_tset]

end Sys2Proof.Machine
end

