-- ==== Sys2Proof/Laws/Memory.lean ====
section
/-! SUPPORT. Memory: what a read finds after a write, and the canonical form that every memory operation keeps. -/

namespace Sys2Proof.Machine

theorem cells_lower (a : Nat) (bs : List Byte) : ∀ c ∈ cells a bs, a ≤ c.1 ∧ c.1 < a + bs.length ∧ c.2 ≠ 0 := by
  induction bs generalizing a with
  | nil => simp [cells]
  | cons b r ih =>
    intro c hc
    simp only [cells] at hc
    split at hc
    · obtain ⟨h1, h2, h3⟩ := ih (a + 1) c hc; exact ⟨by omega, by simp only [List.length_cons]; omega, h3⟩
    · rename_i hb
      rcases List.mem_cons.mp hc with rfl | h
      · exact ⟨Nat.le_refl _, by simp, hb⟩
      · obtain ⟨h1, h2, h3⟩ := ih (a + 1) c h; exact ⟨by omega, by simp only [List.length_cons]; omega, h3⟩

theorem cells_pairwise (a : Nat) (bs : List Byte) : (cells a bs).Pairwise (fun x y => x.1 < y.1) := by
  induction bs generalizing a with
  | nil => simp [cells]
  | cons b r ih =>
    simp only [cells]
    split
    · exact ih _
    · refine List.Pairwise.cons ?_ (ih _)
      intro c hc
      have := cells_lower (a + 1) r c hc
      omega

/-- A write keeps the canonical form. -/
theorem Memory.write_wf (m : Memory) (a : Nat) (bs : List Byte) (h : m.wf) : (m.write a bs).wf := by
  obtain ⟨hp, hz⟩ := h
  refine ⟨?_, ?_⟩
  · unfold Memory.write
    refine List.pairwise_append.mpr ⟨List.pairwise_append.mpr ⟨hp.filter _, cells_pairwise a bs, ?_⟩, hp.filter _, ?_⟩
    · intro x hx y hy
      have h1 := (List.mem_filter.mp hx).2
      have h2 := (cells_lower a bs y hy).1
      simp only [decide_eq_true_eq] at h1; omega
    · intro x hx y hy
      have h2 := (List.mem_filter.mp hy).2
      simp only [decide_eq_true_eq] at h2
      rcases List.mem_append.mp hx with hx | hx
      · have h1 := (List.mem_filter.mp hx).2
        simp only [decide_eq_true_eq] at h1; omega
      · have h1 := (cells_lower a bs x hx).2.1
        omega
  · intro c hc
    unfold Memory.write at hc
    rcases List.mem_append.mp hc with hc | hc
    · rcases List.mem_append.mp hc with hc | hc
      · exact hz c (List.mem_filter.mp hc).1
      · exact (cells_lower a bs c hc).2.2
    · exact hz c (List.mem_filter.mp hc).1

theorem Memory.read_none (m : Memory) (a : Nat) (h : ∀ c ∈ m, c.1 ≠ a) : m.read a = 0 := by
  induction m with
  | nil => rfl
  | cons c r ih =>
    obtain ⟨k, b⟩ := c
    have hk : k ≠ a := h (k, b) (by simp)
    have : Memory.read ((k, b) :: r) a = Memory.read r a := by simp [Memory.read, hk]
    rw [this]; exact ih (fun c hc => h c (by simp [hc]))

theorem Memory.read_append (m n : Memory) (a : Nat) :
    Memory.read (m ++ n) a = if m.any (fun c => c.1 == a) then m.read a else n.read a := by
  induction m with
  | nil => simp
  | cons c r ih =>
    obtain ⟨k, b⟩ := c
    by_cases h : k = a
    · simp [Memory.read, h]
    · simp [Memory.read, h, ih]

theorem Memory.read_filter (m : Memory) (p : Nat → Bool) (a : Nat) (h : p a = true) :
    Memory.read (m.filter (fun c => p c.1)) a = m.read a := by
  induction m with
  | nil => rfl
  | cons c r ih =>
    obtain ⟨k, b⟩ := c
    by_cases hk : k = a
    · subst hk; simp [h, Memory.read]
    · by_cases hp : p k = true
      · simp [hp, Memory.read, hk, ih]
      · simp [hp, Memory.read, hk, ih]

theorem Memory.read_cells (a : Nat) (bs : List Byte) (i : Nat) : Memory.read (cells a bs) (a + i) = bs.getD i 0 := by
  induction bs generalizing a i with
  | nil => simp [cells, Memory.read]
  | cons b r ih =>
    cases i with
    | zero =>
      simp only [cells, Nat.add_zero, List.getD_cons_zero]
      split
      · rename_i hb; subst hb
        exact Memory.read_none _ _ (fun c hc => by have := (cells_lower (a + 1) r c hc).1; omega)
      · simp [Memory.read]
    | succ i =>
      have e : a + (i + 1) = (a + 1) + i := by omega
      simp only [cells, List.getD_cons_succ]
      split
      · rw [e]; exact ih (a + 1) i
      · have : Memory.read ((a, b) :: cells (a + 1) r) (a + (i + 1)) = Memory.read (cells (a + 1) r) (a + (i + 1)) := by
          simp [Memory.read]
        rw [this, e]; exact ih (a + 1) i

theorem any_key_filter (m : Memory) (p : Nat → Bool) (a : Nat) (h : p a = false) :
    (m.filter (fun c => p c.1)).any (fun c => c.1 == a) = false := by
  simp only [List.any_eq_false, List.mem_filter, beq_iff_eq]
  rintro c ⟨-, hp⟩ e
  rw [e, h] at hp; cases hp

/-- A read after a write: the byte written, or what stood there. -/
theorem Memory.read_write (m : Memory) (a : Nat) (bs : List Byte) (x : Nat) :
    Memory.read (m.write a bs) x = if a ≤ x ∧ x < a + bs.length then bs.getD (x - a) 0 else m.read x := by
  unfold Memory.write
  by_cases h1 : x < a
  · have hn : ¬ (a ≤ x ∧ x < a + bs.length) := by omega
    rw [if_neg hn, List.append_assoc, Memory.read_append]
    split
    · exact Memory.read_filter m (fun k => decide (k < a)) x (by simpa using h1)
    · rename_i hany
      have h0 : Memory.read m x = 0 := by
        rw [← Memory.read_filter m (fun k => decide (k < a)) x (by simpa using h1)]
        refine Memory.read_none _ _ (fun c hc e => hany ?_)
        exact List.any_eq_true.mpr ⟨c, hc, by simp [e]⟩
      rw [h0]
      refine Memory.read_none _ _ (fun c hc e => ?_)
      rcases List.mem_append.mp hc with hc | hc
      · have := (cells_lower a bs c hc).1; omega
      · have := (List.mem_filter.mp hc).2; simp only [decide_eq_true_eq] at this; omega
  · have f1 : (m.filter (fun c => decide (c.1 < a))).any (fun c => c.1 == x) = false :=
      any_key_filter m (fun k => decide (k < a)) x (by simpa using h1)
    rw [List.append_assoc, Memory.read_append, f1]
    simp only [Bool.false_eq_true, if_false]
    by_cases h2 : x < a + bs.length
    · rw [if_pos ⟨by omega, h2⟩, Memory.read_append]
      have e : x = a + (x - a) := by omega
      split
      · have := Memory.read_cells a bs (x - a)
        rwa [← e] at this
      · rename_i hany
        have hz : bs.getD (x - a) 0 = 0 := by
          rw [← Memory.read_cells a bs (x - a), ← e]
          refine Memory.read_none _ _ (fun c hc e => hany ?_)
          exact List.any_eq_true.mpr ⟨c, hc, by simp [e]⟩
        rw [hz]
        refine Memory.read_none _ _ (fun c hc e => ?_)
        have := (List.mem_filter.mp hc).2; simp only [decide_eq_true_eq] at this; omega
    · have hn : ¬ (a ≤ x ∧ x < a + bs.length) := by omega
      rw [if_neg hn, Memory.read_append]
      have f2 : (cells a bs).any (fun c => c.1 == x) = false := by
        simp only [List.any_eq_false, beq_iff_eq]
        intro c hc e
        have := (cells_lower a bs c hc).2.1; omega
      rw [f2]
      simp only [Bool.false_eq_true, if_false]
      exact Memory.read_filter m (fun k => decide (a + bs.length ≤ k)) x (by simp; omega)

/-- A run of bytes reads byte by byte. -/
theorem Memory.bytes_eq (m : Memory) (a n : Nat) : m.bytes a n = (List.range n).map (fun i => m.read (a + i)) := by
  unfold Memory.bytes
  refine List.map_congr_left (fun i hi => ?_)
  have := List.mem_range.mp hi
  exact Memory.read_filter m (fun k => decide (a ≤ k) && decide (k < a + n)) (a + i) (by simp; omega)

/-- Memory after reset has the canonical form. -/
theorem reset_mem_wf : State.reset.mem.wf := by decide

/-- Bytes put where memory dies stand keep the canonical form; what falls beside them is lost. -/
theorem Memory.put_wf {m : Memory} (a : Nat) (bs : List Byte) (h : m.wf) : (m.put a bs).wf := by
  unfold Memory.put
  split
  · exact Memory.write_wf m a bs h
  · generalize bs.mapIdx (fun i b => (a + i, b)) = cs
    induction cs generalizing m with
    | nil => exact h
    | cons c r ih =>
      rw [List.foldl_cons]
      split
      · exact ih (Memory.write_wf m c.1 [c.2] h)
      · exact ih h

/-- Where memory dies stand, putting bytes is the plain write. -/
theorem Memory.put_populated {m : Memory} {a : Nat} {bs : List Byte} (h : populated a bs.length = true) :
    m.put a bs = m.write a bs := by
  unfold Memory.put; rw [if_pos h]

/-- A performed write changes memory as `Memory.put` does. -/
@[simp] theorem State.perform_mem (s : State) (a : Nat) (bs : List Byte) : (s.perform a bs).mem = s.mem.put a bs := rfl

/-- Bytes put into memory keep the canonical form. -/
theorem State.putMem_wf (s : State) (a : Nat) (bs : List Byte) (h : s.mem.wf) : (s.putMem a bs).mem.wf :=
  Memory.put_wf a bs h

theorem State.perform_wf (s : State) (a : Nat) (bs : List Byte) (h : s.mem.wf) : (s.perform a bs).mem.wf :=
  Memory.put_wf a bs h

/-- Each byte of a populated range is populated. -/
theorem populated_byte {a n x : Nat} (h : populated a n = true) (h1 : a ≤ x) (h2 : x < a + n) : populated x 1 = true := by
  unfold populated at *
  simp only [Bool.and_eq_true, decide_eq_true_eq, Config.dieBytes] at *
  omega

/-- A read after bytes are put: the byte put, where a memory die stands, or what stood there. -/
theorem Memory.read_put (m : Memory) (a : Nat) (bs : List Byte) (x : Nat) :
    (m.put a bs).read x = if a ≤ x ∧ x < a + bs.length ∧ populated x 1 = true then bs.getD (x - a) 0 else m.read x := by
  unfold Memory.put
  split
  · rename_i h
    rw [Memory.read_write]
    by_cases hx : a ≤ x ∧ x < a + bs.length
    · rw [if_pos hx, if_pos ⟨hx.1, hx.2, populated_byte h hx.1 hx.2⟩]
    · rw [if_neg hx, if_neg (fun e => hx ⟨e.1, e.2.1⟩)]
  · rename_i h; clear h
    induction bs generalizing m a with
    | nil => simp; intro h; omega
    | cons b r ih =>
      rw [List.mapIdx_cons, List.foldl_cons]
      have e : (r.mapIdx fun i b => (a + (i + 1), b)) = r.mapIdx fun i b => (a + 1 + i, b) := by
        simp only [Nat.add_comm, Nat.add_left_comm]
      simp only [Nat.add_zero, e]
      rw [ih]
      by_cases hx : x = a
      · subst hx
        have : ¬ (x + 1 ≤ x ∧ x < x + 1 + r.length ∧ populated x 1 = true) := by omega
        rw [if_neg this]
        by_cases hp : populated x 1 = true
        · simp [hp, Memory.read_write]
        · simp [hp]
      · have hr : Memory.read (if populated a 1 = true then m.write a [b] else m) x = m.read x := by
          split
          · rw [Memory.read_write, if_neg]; simp; omega
          · rfl
        rw [hr]
        by_cases hx2 : a + 1 ≤ x ∧ x < a + 1 + r.length ∧ populated x 1 = true
        · rw [if_pos hx2, if_pos ⟨by omega, by simp; omega, hx2.2.2⟩]
          have : x - a = (x - (a + 1)) + 1 := by omega
          rw [this, List.getD_cons_succ]
        · rw [if_neg hx2, if_neg]
          rintro ⟨p, q, s⟩; simp at q; exact hx2 ⟨by omega, by omega, s⟩

end Sys2Proof.Machine
end

