-- ==== Sys2Proof/Laws/Issue.lean ====
section
/-! SUPPORT. The issue of a word: what `issueWord` answers once the checks of R179 pass, what the charge and the marks of
issue change, and what a write of a result leaves in the registers. Proofs about single words cite these lemmas. -/

namespace Sys2Proof.Machine

open Sys2Proof.Safety

/-! ### The gate -/

theorem interlocked_false (x : Iss) (rs : List Nat) (h : ∀ v ∈ rs, v ∉ pendingRegs x.g)
    (hb : boundPending x.g x.bounds = false) : interlocked x rs = false := by
  simp only [interlocked, Bool.or_eq_false_iff, List.any_eq_false]
  exact ⟨fun v hv => by simpa using h v hv, hb⟩

/-- Once a word may issue, its own checks decide. -/
theorem gate_own {s : State} {c : Cur} {g : Group} {i : Instr} {d : Desc} {p : Nat} (h : Issues s c g i d p)
    (own : Iss → Verdict) : s.gate (s.issOf c g) i d own = own (s.issOf c g) := by
  have h1 : s.illegal (s.issOf c g) i d = false := by
    have hw := h.wide
    have hm := h.mext
    have hl := h.lane
    have hn := h.noHint
    have hx : (s.issOf c g).xir = c.xir := rfl
    simp only [State.illegal, h.form, h.feature, hx]
    cases e1 : (s.issOf c g).hints.wide <;> cases e2 : (s.issOf c g).hints.mext <;> cases e3 : c.xir <;>
      cases e4 : d.ms <;> simp_all
  have h2 : ((s.issOf c g).g.tx.isSome && !d.inTx) = false := by
    have := h.attempt
    have hg : (s.issOf c g).g = g := rfl
    rw [hg]
    cases e : g.tx <;> simp_all
  have h3 : (d.srcs ++ d.dsts).any (fun v => (s.issOf c g).g.ctx.need ≤ v) = false := by
    simp only [List.any_eq_false, decide_eq_true_eq, Nat.not_le]
    exact fun v hv => h.need v hv
  have h4 : d.chuck.any (fun k => (s.issOf c g).chuckCount ≤ k) = false := by
    have := h.chuck
    cases e : d.chuck with
    | none => rfl
    | some k => simpa using this k e
  have h5 := interlocked_false (s.issOf c g) (d.srcs ++ d.dsts) h.ready h.bound
  simp only [State.gate, h1, h2, h3, h4, h5, Bool.false_eq_true, if_false]

/-- A word that may issue does what its own verdict says. -/
theorem issueWord_own {s : State} {c : Cur} {g : Group} {i : Instr} {d : Desc} {p : Nat} (h : Issues s c g i d p)
    (own : Iss → Verdict) : issueWord i d own s = .next (s.settle (s.issOf c g) d (own (s.issOf c g))) := by
  unfold issueWord
  rw [h.cur]
  simp only [h.group, gate_own h own]

/-! ### The charge and the marks of issue -/

/-- A core that has paid a price, with the survey counters of an issue (R161, R162, R450). -/
def State.paid (s : State) (core price : Nat) : State :=
  ((s.charge core price).countCore core 0 1).countCore core 1 price

@[simp] theorem State.charge_groups (s : State) (core p : Nat) : (s.charge core p).groups = s.groups := by
  unfold State.charge; dsimp only; split <;> simp

@[simp] theorem State.charge_group (s : State) (core p a b : Nat) : (s.charge core p).group a b = s.group a b := by
  simp [State.group]

@[simp] theorem State.charge_mem (s : State) (core p : Nat) : (s.charge core p).mem = s.mem := by
  unfold State.charge; dsimp only; split <;> simp

theorem State.charge_rest (s : State) (core p : Nat) :
    s.charge core p = { s with cores := (s.charge core p).cores, dies := (s.charge core p).dies } := by
  unfold State.charge; dsimp only; split <;> rfl

theorem State.charge_core (s : State) (core p n : Nat) :
    (s.charge core p).core n = if core = n then { s.core n with level := ((s.charge core p).core n).level } else s.core n := by
  unfold State.charge; dsimp only
  split
  · simp only [State.core_modCore]
    by_cases h : core = n
    · subst h; simp
    · simp [h]
  · have e : ∀ f : Die → Die, ((s.modCore core (fun c => { c with level := 0 })).modDie (dieOf core) f).core n
        = (s.modCore core (fun c => { c with level := 0 })).core n := fun _ => rfl
    rw [e, State.core_modCore]
    by_cases h : core = n
    · subst h; simp
    · simp [h]

theorem State.charge_die (s : State) (core p n : Nat) :
    (s.charge core p).die n = { s.die n with bucket := ((s.charge core p).die n).bucket } := by
  unfold State.charge; dsimp only
  split
  · rfl
  · rw [State.die_modDie]
    split
    · rename_i h; subst h; rfl
    · rfl

/-- What the charge of a price takes (R161, R162). -/
theorem charge_charged (s : State) (core p : Nat) : Charged s (s.charge core p) core p := by
  have hc := State.charge_core s core p core
  unfold State.charge
  refine ⟨fun h => ?_, fun h => ?_⟩
  · dsimp only; rw [if_pos h]
    refine ⟨by simp, fun n => rfl⟩
  · dsimp only; rw [if_neg (Nat.not_le.mpr h)]
    refine ⟨?_, fun n => ?_⟩
    · have e : ∀ f : Die → Die, ((s.modCore core (fun c => { c with level := 0 })).modDie (dieOf core) f).core core
        = (s.modCore core (fun c => { c with level := 0 })).core core := fun _ => rfl
      rw [e]; simp
    · rw [State.die_modDie]
      by_cases e : dieOf core = n
      · subst e; simp [State.die_modCore]
      · rw [if_neg e, if_neg (fun h => e h.symm)]; rfl

theorem State.paid_eq (s : State) (core p : Nat) :
    s.paid core p = { s.charge core p with counters := (s.paid core p).counters } := rfl

@[simp] theorem State.paid_group (s : State) (core p a b : Nat) : (s.paid core p).group a b = s.group a b :=
  State.charge_group s core p a b

/-- The marks of an issue keep the group's context. -/
theorem State.markIssued_group {s : State} {x : Iss} {g : Group} (h : s.group x.core x.frame = some g) :
    (s.markIssued x).group x.core x.frame =
      some { g with tokenWait := 0, lastGang := x.slices.headD 0, ahead := none,
                    relock := if g.relock = some x.pc && !g.inHandler then none else g.relock } := by
  unfold State.markIssued
  rw [State.group_modGroup_same]
  have : ∀ f, (s.modCore x.core f).group x.core x.frame = s.group x.core x.frame := fun _ => rfl
  rw [this, h]; rfl

theorem State.markIssued_groups (s : State) (x : Iss) (k : Nat) (h : k ≠ gkey x.core x.frame) :
    tfind (s.markIssued x).groups k = tfind s.groups k := by
  unfold State.markIssued
  rw [State.find_modGroup _ _ _ _ _ h]; rfl

theorem State.modGroup_rest (s : State) (c f : Nat) (h : Group → Group) :
    s.modGroup c f h = { s with groups := (s.modGroup c f h).groups } := by
  unfold State.modGroup; split <;> rfl

theorem State.markIssued_rest (s : State) (x : Iss) :
    s.markIssued x = { s with groups := (s.markIssued x).groups, cores := (s.markIssued x).cores } := by
  unfold State.markIssued
  rw [State.modGroup_rest]; rfl

theorem State.markIssued_core (s : State) (x : Iss) (n : Nat) :
    (s.markIssued x).core n = if x.core = n then
      { s.core n with ports := ((s.markIssued x).core n).ports, issued := ((s.markIssued x).core n).issued,
                      hold := ((s.markIssued x).core n).hold } else s.core n := by
  have e : (s.markIssued x).core n = (s.modCore x.core (fun c =>
    { c with ports := portOf x.g.place :: c.ports, issued := (portOf x.g.place, x.frame, x.pc, x.word) :: c.issued,
             hold := if c.hold = some x.frame then none else c.hold })).core n := by
    unfold State.markIssued State.core; simp
  rw [e, State.core_modCore]
  by_cases h : x.core = n
  · subst h; simp
  · simp [h]

/-! ### Poisoned sources -/

theorem poison_fold (g : Group) (l : List Nat) (m : Mask) (h : ∀ v ∈ l, (g.ctx.reg v).poison = 0) :
    l.foldl (fun m v => m ||| (g.ctx.reg v).poison) m = m := by
  induction l generalizing m with
  | nil => rfl
  | cons v r ih =>
    simp only [List.foldl_cons, h v (by simp)]
    rw [ih _ (fun w hw => h w (by simp [hw]))]
    simp

theorem poisonRead_zero {x : Iss} {d : Desc} (h : ∀ v ∈ d.srcs, (x.g.ctx.reg v).poison = 0) : x.poisonRead d = 0 := by
  unfold Iss.poisonRead
  cases d.reads with
  | none =>
    show (d.srcs.foldl _ 0) &&& _ = 0
    rw [poison_fold x.g d.srcs 0 h]; simp
  | some r =>
    have e : ∀ l, (d.srcs.zipIdx.any (fun p => (x.g.ctx.reg p.1).poison &&& r x p.2 l != 0)) = false := by
      intro l
      rw [List.any_eq_false]
      intro p hp
      have := h p.1 (List.fst_mem_of_mem_zipIdx hp)
      simp [this]
    simp only [e, Bool.and_false]
    rfl

/-- The xir's progress after a word of its lanes (R254); nothing for other words. -/
def State.laneDone (s : State) (x : Iss) : State :=
  if x.xir then
    s.modGroup x.core x.frame (fun g =>
      if g.status == .ready && g.inHandler == x.g.inHandler then { g with ctx := xirDone g.ctx x.slices x.act } else g)
  else s

/-- A word that may issue and whose verdict is to go: its effect stands on the paid and marked state. -/
theorem issueWord_go {s : State} {c : Cur} {g : Group} {i : Instr} {d : Desc} {p : Nat} (h : Issues s c g i d p)
    {own : Iss → Verdict} {q : Nat} {e : State → State} (hv : own (s.issOf c g) = .go q e) (hq : q ≤ p) :
    issueWord i d own s =
      .next (((e ((s.paid c.core q).markIssued (s.issOf c g))).touchRegs (s.issOf c g) (d.srcs ++ d.dsts)).laneDone (s.issOf c g)) := by
  rw [issueWord_own h own, hv]
  have hc : s.mayPay (s.issOf c g) q = true := by
    unfold State.mayPay
    have e1 : (s.issOf c g).core = c.core := rfl
    have e2 : (s.issOf c g).frame = c.frame := rfl
    rw [e1, e2, h.pay q hq, Bool.and_true]
    have := h.hold
    cases hf : s.holder c.core with
    | none => rfl
    | some f => simp [this f hf]
  have hp : (s.issOf c g).poisonRead d = 0 := poisonRead_zero h.clean
  simp only [State.settle, hc, if_true, State.runWord, hp, ne_eq, not_true_eq_false, if_false]
  rfl

/-! ### The frame of an issue -/

/-- The charge and the marks of issue change only groups, cores, dies and survey counters. -/
theorem marked_rest (s : State) (core q : Nat) (x : Iss) :
    (s.paid core q).markIssued x = { s with
      groups := ((s.paid core q).markIssued x).groups, cores := ((s.paid core q).markIssued x).cores,
      dies := ((s.paid core q).markIssued x).dies, counters := ((s.paid core q).markIssued x).counters } := by
  have h1 := State.markIssued_rest (s.paid core q) x
  have h2 := State.paid_eq s core q
  have h3 := State.charge_rest s core q
  generalize (s.paid core q).markIssued x = m at h1 ⊢
  generalize s.paid core q = p at h1 h2
  generalize s.charge core q = r at h2 h3
  generalize m.groups = a at h1 ⊢
  generalize m.cores = b at h1 ⊢
  subst h1
  generalize p.counters = e at h2
  subst h2
  generalize r.cores = f at h3
  generalize r.dies = i at h3
  subst h3
  rfl

/-- A state that differs from another in its groups alone. -/
theorem rest_trans {s m t : State} (hm : m = { s with groups := m.groups, cores := m.cores, dies := m.dies, counters := m.counters })
    (hr : t = { m with groups := t.groups }) :
    t = { s with groups := t.groups, cores := t.cores, dies := t.dies, counters := t.counters } := by
  generalize t.groups = a at hr ⊢
  subst hr
  generalize m.groups = b at hm
  generalize m.cores = c at hm ⊢
  generalize m.dies = d at hm ⊢
  generalize m.counters = e at hm ⊢
  subst hm
  rfl

/-- A state changed from the paid and marked one only in the issuing group: what the issue leaves alone. -/
theorem kept_of {s t : State} {c : Cur} {g h : Group} {q : Nat}
    (hh : t.group c.core c.frame = some h)
    (hk : ∀ k, k ≠ gkey c.core c.frame →
      tfind t.groups k = tfind ((s.paid c.core q).markIssued (s.issOf c g)).groups k)
    (hr : t = { (s.paid c.core q).markIssued (s.issOf c g) with groups := t.groups })
    (ho : h = { g with ctx := h.ctx, tokenWait := 0, lastGang := h.lastGang, ahead := none, cache := h.cache,
                       relock := if g.relock = some c.pc && !g.inHandler then none else g.relock }) :
    Kept s t c q g h := by
  have hm := marked_rest s c.core q (s.issOf c g)
  have hrest := rest_trans hm hr
  have cc : t.cores = ((s.paid c.core q).markIssued (s.issOf c g)).cores := (congrArg State.cores hr :)
  have cd : t.dies = (s.charge c.core q).dies :=
    (congrArg State.dies hr :).trans (congrArg State.dies (State.markIssued_rest (s.paid c.core q) (s.issOf c g)) :)
  have hc : ∀ n, t.core n = ((s.paid c.core q).markIssued (s.issOf c g)).core n := fun n => by
    unfold State.core; rw [cc]
  have hd : ∀ n, t.die n = (s.charge c.core q).die n := fun n => by unfold State.die; rw [cd]
  have hcore : ∀ n, t.core n = if c.core = n then
      { s.core n with level := (t.core n).level, ports := (t.core n).ports, issued := (t.core n).issued, hold := (t.core n).hold }
      else s.core n := by
    intro n
    have e := State.markIssued_core (s.paid c.core q) (s.issOf c g) n
    have e2 : (s.paid c.core q).core n = (s.charge c.core q).core n := rfl
    have e3 : (s.issOf c g).core = c.core := rfl
    rw [← hc n, e2, State.charge_core, e3] at e
    generalize t.core n = tn at e ⊢
    generalize ((s.charge c.core q).core n).level = lv at e
    by_cases hn : c.core = n
    · simp only [hn, if_true] at e ⊢
      generalize tn.ports = a at e ⊢
      generalize tn.issued = b at e ⊢
      generalize tn.hold = d at e ⊢
      subst e; rfl
    · simpa only [hn, if_false] using e
  refine ⟨hh, ?_, ho, ?_, ?_, ?_, ?_, ?_, hrest⟩
  · intro k hk'
    have e1 : (s.paid c.core q).groups = s.groups := State.charge_groups s c.core q
    exact (hk k hk').trans ((State.markIssued_groups _ (s.issOf c g) k hk').trans (congrArg (fun m => tfind m k) e1))
  · have := hcore c.core; simpa using this
  · intro n hn
    have := hcore n; simpa [Ne.symm hn] using this
  · intro n
    have e := State.charge_die s c.core q n
    rwa [← hd n] at e
  · intro a
    exact congrArg (fun m : Memory => m.read a) (congrArg State.mem hrest :)
  · have hl : (t.core c.core).level = ((s.charge c.core q).core c.core).level := by
      rw [hc c.core, State.markIssued_core, if_pos (show (s.issOf c g).core = c.core from rfl)]; rfl
    have hk := charge_charged s c.core q
    exact ⟨fun h => ⟨hl.trans (hk.within h).1, fun n => (congrArg Die.bucket (hd n)).trans ((hk.within h).2 n)⟩,
      fun h => ⟨hl.trans (hk.beyond h).1, fun n => (congrArg Die.bucket (hd n)).trans ((hk.beyond h).2 n)⟩⟩

end Sys2Proof.Machine
end

