-- ==== Sys2Proof/Laws/Write.lean ====
section
/-! SUPPORT. The write of a result: shapes, bound checks that find nothing, and the lanes that a register holds
afterwards (R43 to R51, R80 to R83). -/

namespace Sys2Proof.Machine

open Sys2Proof.Safety

/-! ### Lanes of masks -/

theorem mem_lanesOf (m : Mask) (l : Nat) : l ∈ lanesOf m ↔ l < 32 ∧ hasLane m l = true := by
  simp [lanesOf, hasLane, lanes32, List.mem_filter]

theorem foldl_maskOf_getLsbD (p : Nat → Bool) (ls : List Nat) (acc : Mask) (j : Nat) (hj : j < 32) :
    (ls.foldl (fun acc l => if p l then acc ||| (1#32 <<< l) else acc) acc).getLsbD j
      = (acc.getLsbD j || ls.any (fun l => p l && l == j)) := by
  induction ls generalizing acc with
  | nil => simp
  | cons a r ih =>
    simp only [List.foldl_cons, List.any_cons]
    rw [ih]
    by_cases hp : p a = true
    · simp only [hp, if_true, Bool.true_and]
      rw [BitVec.getLsbD_or]
      have : (1#32 <<< a).getLsbD j = (a == j) := by
        rw [BitVec.getLsbD_shiftLeft]
        by_cases h : a = j
        · subst h; simp [hj]
        · rcases Nat.lt_or_ge j a with h1 | h1
          · simp [h1, h]
          · have : j - a ≠ 0 := by omega
            simp [h, hj, this]
      rw [this, Bool.or_assoc]
    · simp [hp]

/-- A mask built from a condition has exactly the lanes that satisfy it. -/
theorem hasLane_maskOf (p : Nat → Bool) (l : Nat) (h : l < 32) : hasLane (maskOf p) l = p l := by
  unfold hasLane maskOf
  rw [foldl_maskOf_getLsbD _ _ _ _ h]
  have h0 : (0 : Mask).getLsbD l = false := BitVec.getLsbD_zero
  rw [h0, Bool.false_or]
  cases hp : p l with
  | true => exact List.any_eq_true.mpr ⟨l, by simp [h], by simp [hp]⟩
  | false =>
    rw [List.any_eq_false]
    intro a _
    by_cases ha : a = l
    · subst ha; simp [hp]
    · simp [ha]

theorem maskOf_false (p : Nat → Bool) (h : ∀ l, l < 32 → p l = false) : maskOf p = 0 := by
  apply BitVec.eq_of_getLsbD_eq
  intro i hi
  have := hasLane_maskOf p i hi
  unfold hasLane at this
  rw [this, h i hi]; simp

/-- Where a mask covers the live lanes, every live lane is in it. -/
theorem hasLane_of_covers {live m : Mask} (h : covers live m = true) (l : Nat) (hl : hasLane live l = true) : hasLane m l = true := by
  have hx : live &&& ~~~m = 0 := by simpa [covers] using h
  have := congrArg (fun x => BitVec.getLsbD x l) hx
  unfold hasLane at *
  have hlt : l < 32 := by
    rcases Nat.lt_or_ge l 32 with h1 | h1
    · exact h1
    · rw [BitVec.getLsbD_of_ge _ _ h1] at hl; cases hl
  simpa [BitVec.getLsbD_and, BitVec.getLsbD_not, hl, hlt] using this

/-! ### Bound checks that find nothing -/

theorem part_le (x p w : Nat) : x / 2 ^ p % 2 ^ w * 2 ^ p ≤ x :=
  Nat.le_trans (Nat.mul_le_mul_right _ (Nat.mod_le _ _)) (Nat.div_mul_le_self x (2 ^ p))

theorem clamp_fold (b : Bound) (f : Fmt) (w x : Nat) (ps : List Nat)
    (h : ∀ p ∈ ps, inBounds b (elemVal f w (x / 2 ^ p % 2 ^ w)) = true) :
    ps.foldl (fun acc p => acc - x / 2 ^ p % 2 ^ w * 2 ^ p + clampElem b f w (x / 2 ^ p % 2 ^ w) * 2 ^ p) x = x := by
  suffices hs : ∀ acc, (∀ p, x / 2 ^ p % 2 ^ w * 2 ^ p ≤ acc) →
      ps.foldl (fun acc p => acc - x / 2 ^ p % 2 ^ w * 2 ^ p + clampElem b f w (x / 2 ^ p % 2 ^ w) * 2 ^ p) acc = acc from
    hs x (fun p => part_le x p w)
  induction ps with
  | nil => intros; rfl
  | cons p r ih =>
    intro acc ha
    have hp := h p (by simp)
    have hc : clampElem b f w (x / 2 ^ p % 2 ^ w) = x / 2 ^ p % 2 ^ w := by simp [clampElem, hp]
    simp only [List.foldl_cons, hc]
    have : acc - x / 2 ^ p % 2 ^ w * 2 ^ p + x / 2 ^ p % 2 ^ w * 2 ^ p = acc := Nat.sub_add_cancel (ha p)
    rw [this]
    exact ih (fun q hq => h q (by simp [hq])) acc ha

/-- A lane value with every element in bounds is its own clamp. -/
theorem clampLane_same (b : Bound) (fmt : Fmt) (x : Word64) (pair : Bool) (h : outCount b fmt x.toNat pair = 0) :
    clampLane b fmt x pair = x := by
  unfold outCount at h
  unfold clampLane
  generalize elemsIn pair fmt = e at h ⊢
  obtain ⟨ps, w, f⟩ := e
  simp only [List.length_eq_zero_iff, List.filter_eq_nil_iff, Bool.not_eq_true, Bool.not_eq_false'] at h
  have := clamp_fold b f w x.toNat ps (fun p hp => by simpa using h p hp)
  simp only [this, BitVec.ofNat_toNat, BitVec.setWidth_eq]

/-- A bound check that finds nothing changes nothing, counts nothing and stops nothing. -/
theorem checkLanes_inBounds {bounds : List (Nat × Bound)} {ix : Nat} {fmt : Fmt} {m : Mask} {val : Nat → Word64}
    {pair : Bool} (h : InBounds bounds ix fmt m val pair) :
    (checkLanes bounds ix fmt m val pair).changed = false ∧ (checkLanes bounds ix fmt m val pair).events = 0 ∧
      (checkLanes bounds ix fmt m val pair).bad = 0 := by
  unfold checkLanes
  cases hb : boundOf bounds ix with
  | none => exact ⟨rfl, rfl, rfl⟩
  | some b =>
    have hl : ∀ l ∈ lanesOf m, outCount b fmt (val l).toNat pair = 0 := fun l hm =>
      h.2 b hb l ((mem_lanesOf m l).mp hm).1 ((mem_lanesOf m l).mp hm).2
    have hz : ((lanesOf m).map (fun l => outCount b fmt (val l).toNat pair)).sum = 0 := by
      generalize lanesOf m = ls at hl
      induction ls with
      | nil => rfl
      | cons a r ih => simp [hl a (by simp), ih (fun l hr => hl l (by simp [hr]))]
    have hb0 : maskOf (fun l => hasLane m l && outCount b fmt (val l).toNat pair != 0) = 0 := by
      refine maskOf_false _ (fun l h32 => ?_)
      by_cases hm : hasLane m l = true
      · simp [hl l ((mem_lanesOf m l).mpr ⟨h32, hm⟩)]
      · simp [hm]
    have hc : (lanesOf m).any (fun l => clampLane b fmt (val l) pair != val l) = false := by
      rw [List.any_eq_false]
      intro l hm
      simp [clampLane_same b fmt (val l) pair (hl l hm)]
    dsimp only
    cases b.mode
    · exact ⟨rfl, hz, rfl⟩
    · exact ⟨hc, hz, rfl⟩
    · exact ⟨rfl, rfl, hb0⟩

theorem addEvents_zero (w : Word) : addEvents w 0 = w := by
  unfold addEvents
  have : min (w.toNat + 0) 0xFFFFFFFF = w.toNat := by have := w.isLt; omega
  rw [this]; simp

/-- A write whose elements all lie in bounds is the plain write. -/
theorem Ctx.write_inBounds {c : Ctx} {bounds : List (Nat × Bound)} {wide : Bool} {v : Nat} {k : ResK} {fmt : Fmt} {ix : Nat}
    {m : Mask} {val : Nat → Word64} (h : InBounds bounds ix fmt m val wide) :
    c.write bounds wide v k fmt ix m val = .ok { c.putWide wide v k fmt ix m val with bflag := c.bflag } := by
  obtain ⟨h1, h2, h3⟩ := checkLanes_inBounds h
  simp only [Ctx.write, h1, h2, h3, addEvents_zero]
  simp

/-- The write of a result with its elements in bounds, as a change of the group's context. -/
theorem State.writeResult_inBounds {s : State} {x : Iss} {g : Group} {ms : Option Nat} {wide : Bool} {d : Nat} {k : ResK}
    {fmt : Fmt} {ix : Nat} {m : Mask} {val : Nat → Word64} (hg : s.group x.core x.frame = some g)
    (h : InBounds x.bounds ix fmt m val wide) :
    s.writeResult x ms wide d k fmt ix m val =
      s.setGroup x.core x.frame
        { g with ctx := x.advance { g.ctx.putWide wide d k fmt ix m val with bflag := g.ctx.bflag } } := by
  unfold State.writeResult
  simp only [hg, Ctx.write_inBounds h]

/-! ### The lanes of a written register -/

/-- The shape that R44 computes stands for the values: all alike under uniform, in steps of one stride under affine. -/
def KindFits (k : ResK) (val : Nat → Word) : Prop :=
  (k = .uni → ∀ l, val l = val 0) ∧ (k = .aff → ∀ l, val l = val 0 + BitVec.ofNat 32 l * (val 1 - val 0))

theorem resultShape_lane {live m : Mask} {k : ResK} {new old : Nat → Word} (hk : KindFits k new) (l : Nat) (hl : l < 32)
    (hlive : hasLane live l = true) :
    (resultShape live m k new old).lane l = if hasLane m l = true then new l else old l := by
  have hgen : (Shape.general (lanes32.map (fun l => if hasLane m l = true then new l else old l))).lane l
      = if hasLane m l = true then new l else old l := by
    simp [Shape.lane, lanes32, hl]
  unfold resultShape
  dsimp only
  by_cases hc : covers live m = true
  · rw [if_pos hc, if_pos (hasLane_of_covers hc l hlive)]
    cases k with
    | uni => simp only [Shape.lane]; exact (hk.1 rfl l).symm
    | aff =>
      dsimp only
      split
      · rename_i h0
        have := hk.2 rfl l
        rw [h0] at this
        simp only [Shape.lane]; rw [this]; simp
      · simp only [Shape.lane]; exact (hk.2 rfl l).symm
    | gen => dsimp only; rw [hgen, if_pos (hasLane_of_covers hc l hlive)]
  · rw [if_neg hc, hgen]

theorem Ctx.put_other (c : Ctx) (v w : Nat) (k : ResK) (fmt : Fmt) (ix : Nat) (m : Mask) (new : Nat → Word) (h : w ≠ v) :
    (c.put v k fmt ix m new).reg w = c.reg w := by
  simp [Ctx.put, Ne.symm h]

/-- A written register: its code, its bound index and its lanes. -/
theorem Ctx.put_same {c : Ctx} {v : Nat} {k : ResK} {fmt : Fmt} {ix : Nat} {m : Mask} {new : Nat → Word} (hk : KindFits k new) :
    ((c.put v k fmt ix m new).reg v).fmt = fmt ∧ ((c.put v k fmt ix m new).reg v).bound = ix ∧
      ∀ l, l < 32 → hasLane c.live l = true →
        (c.put v k fmt ix m new).lane v l = if hasLane m l = true then new l else c.lane v l := by
  refine ⟨by simp [Ctx.put], by simp [Ctx.put], fun l hl hlive => ?_⟩
  unfold Ctx.lane
  simp only [Ctx.put, Ctx.reg_setReg, if_true]
  exact resultShape_lane hk l hl hlive

/-- The shape of a written register (R44, R45): 0 uniform, 1 affine, 2 general. -/
theorem Ctx.put_shape (c : Ctx) (v : Nat) (k : ResK) (fmt : Fmt) (ix : Nat) (m : Mask) (new : Nat → Word) :
    shapeCode ((c.put v k fmt ix m new).reg v).shape = if c.live &&& ~~~m ≠ 0 then 2 else
      match k with
      | .uni => 0
      | .aff => if new 1 = new 0 then 0 else 1
      | .gen => 2 := by
  simp only [Ctx.put, Ctx.reg_setReg, if_true, resultShape]
  by_cases h : c.live &&& ~~~m = 0
  · have hc : covers c.live m = true := by simp [covers, h]
    simp only [hc, if_true, h, ne_eq, not_true_eq_false, if_false]
    cases k with
    | uni => rfl
    | gen => rfl
    | aff =>
      have e : (new 1 - new 0 = 0) ↔ new 1 = new 0 := by rw [BitVec.sub_eq_iff_eq_add]; simp
      dsimp only
      by_cases h2 : new 1 = new 0
      · rw [if_pos (e.mpr h2), if_pos h2]; rfl
      · rw [if_neg (mt e.mp h2), if_neg h2]; rfl
  · have hc : covers c.live m = false := by simpa [covers] using h
    simp only [hc, Bool.false_eq_true, if_false, shapeCode]
    rw [if_pos h]

theorem Ctx.put_rest (c : Ctx) (v : Nat) (k : ResK) (fmt : Fmt) (ix : Nat) (m : Mask) (new : Nat → Word) :
    c.put v k fmt ix m new = { c with regs := (c.put v k fmt ix m new).regs } := rfl

theorem Ctx.putWide_rest (c : Ctx) (wide : Bool) (v : Nat) (k : ResK) (fmt : Fmt) (ix : Nat) (m : Mask) (new : Nat → Word64) :
    c.putWide wide v k fmt ix m new = { c with regs := (c.putWide wide v k fmt ix m new).regs } := by
  unfold Ctx.putWide; split <;> rfl

end Sys2Proof.Machine
end

