-- ==== Sys2Proof/Laws/Alu.lean ====
section
/-! SUPPORT. What the issue of a word that writes registers leaves, once for every such word: `issueAlu_wrote` and
`issueWord_wrote`, which the proofs about single words cite. -/

namespace Sys2Proof.Machine

open Sys2Proof.Safety

/-! ### Shapes and the values they stand for -/

theorem resultKind_uni {r : AffRule} {shapes : List Shape} (h : resultKind r shapes = .uni) :
    shapes.all Shape.isUniform = true := by
  unfold resultKind at h
  split at h
  · assumption
  · repeat' split at h
    all_goals cases h

theorem resultKind_none {shapes : List Shape} : resultKind .none shapes ≠ .aff := by
  unfold resultKind
  split <;> simp

theorem Shape.lane_uniform {s : Shape} (h : s.isUniform = true) (l : Nat) : s.lane l = s.lane 0 := by
  cases s <;> simp_all [Shape.isUniform, Shape.lane]

theorem sourceVal_uniform {c : Ctx} {v : Nat} {k : Cls} (h : ∀ w ∈ sourceRegs v k, (c.reg w).shape.isUniform = true) (l : Nat) :
    sourceVal c v k l = sourceVal c v k 0 := by
  unfold sourceVal sourceRegs at *
  split
  · rename_i hk
    simp only [hk, if_true, List.mem_cons, List.not_mem_nil, or_false, forall_eq_or_imp, forall_eq] at h
    unfold Ctx.lane64 Ctx.lane
    rw [Shape.lane_uniform h.1 l, Shape.lane_uniform h.2 l]
  · rename_i hk
    simp only [hk, Bool.false_eq_true, if_false, List.mem_cons, List.not_mem_nil, or_false, forall_eq] at h
    unfold Ctx.lane
    rw [Shape.lane_uniform h l]

theorem Alu.lane_uniform {a : Alu} {x : Iss} {c : Ctx} (h : (a.shapes c).all Shape.isUniform = true) (l : Nat) :
    a.lane x c l = a.lane x c 0 := by
  unfold Alu.lane
  have : a.srcs.map (fun p => sourceVal c p.1 p.2 l) = a.srcs.map (fun p => sourceVal c p.1 p.2 0) := by
    refine List.map_congr_left (fun p hp => sourceVal_uniform (fun w hw => ?_) l)
    rw [List.all_eq_true] at h
    exact h _ (List.mem_map.mpr ⟨w, List.mem_flatten.mpr ⟨_, List.mem_map.mpr ⟨p, hp, rfl⟩, hw⟩, rfl⟩)
  rw [this]

/-- The values that an affine shape of a word stands for go in steps of one stride. -/
def Alu.AffFits (a : Alu) (x : Iss) (c : Ctx) : Prop :=
  resultKind a.aff (a.shapes c) = .aff →
    ∀ l, lo32 (a.lane x c l) = lo32 (a.lane x c 0) + BitVec.ofNat 32 l * (lo32 (a.lane x c 1) - lo32 (a.lane x c 0))

theorem Alu.affFits_none {a : Alu} {x : Iss} {c : Ctx} (h : a.aff = .none) : a.AffFits x c := by
  intro h1; rw [h] at h1; exact absurd h1 resultKind_none

theorem Iss.kind_fits {x : Iss} {k : ResK} {val : Nat → Word} (h : KindFits k val) : KindFits (x.kind k) val := by
  unfold Iss.kind
  split
  · exact ⟨fun e => (nomatch e), fun e => (nomatch e)⟩
  · exact h

/-! ### The group after a word that changes its context -/

/-- A group of a state put twice in the same place, as the frame of an issue sees it. -/
theorem kept_of_mod {s m : State} {c : Cur} {g h : Group} {q : Nat} (hm : (s.paid c.core q).markIssued (s.issOf c g) = m)
    {u : State} (hu : ∀ k, k ≠ gkey c.core c.frame → tfind u.groups k = tfind m.groups k)
    (hr : u = { m with groups := u.groups })
    (ho : h = { g with ctx := h.ctx, tokenWait := 0, lastGang := h.lastGang, ahead := none, cache := h.cache,
                       relock := if g.relock = some c.pc && !g.inHandler then none else g.relock }) :
    Kept s (u.setGroup c.core c.frame h) c q g h := by
  subst hm
  refine kept_of (q := q) (State.group_setGroup_same _ _ _ _) (fun k hk => ?_) ?_ ho
  · exact (tfind_tset_ne _ _ (Ne.symm hk)).trans (hu k hk)
  · generalize u.groups = gs at hr
    subst hr; rfl

/-- The group after the marks of issue, a change of its context, the register cache and the xir's progress. -/
theorem effect_frame {s : State} {c : Cur} {g : Group} {q : Nat} {rs : List Nat} (hg : s.group c.core c.frame = some g)
    (k : Ctx) (e : State → State)
    (he : ∀ u h, u.group c.core c.frame = some h → h.ctx = g.ctx →
      e u = u.setGroup c.core c.frame { h with ctx := k }) :
    ∃ h, Kept s (((e ((s.paid c.core q).markIssued (s.issOf c g))).touchRegs (s.issOf c g) rs).laneDone (s.issOf c g)) c q g h ∧
      ((h.ctx = k ∧ (c.xir = true → g.status ≠ .ready)) ∨ (c.xir = true ∧ h.ctx = xirDone k c.slices c.active)) := by
  have h0 : (s.paid c.core q).group c.core c.frame = some g := by rw [State.paid_group]; exact hg
  have h1 := State.markIssued_group (s := s.paid c.core q) (x := s.issOf c g) h0
  generalize hm : (s.paid c.core q).markIssued (s.issOf c g) = m at h1 ⊢
  have h2 := he m _ h1 rfl
  rw [h2]
  have hx : (s.issOf c g).xir = c.xir := rfl
  have hcf : (s.issOf c g).core = c.core ∧ (s.issOf c g).frame = c.frame := ⟨rfl, rfl⟩
  unfold State.laneDone State.touchRegs
  rw [hx, hcf.1, hcf.2, State.modGroup_some _ (State.group_setGroup_same _ _ _ _)]
  by_cases hc : c.xir = true
  · rw [if_pos hc, State.modGroup_some _ (State.group_setGroup_same _ _ _ _)]
    by_cases hst : (g.status == .ready && g.inHandler == (s.issOf c g).g.inHandler) = true
    · rw [if_pos hst]
      refine ⟨_, kept_of_mod hm (fun n hn => ?_) rfl rfl, Or.inr ⟨hc, rfl⟩⟩
      exact (tfind_tset_ne _ _ (Ne.symm hn)).trans (tfind_tset_ne _ _ (Ne.symm hn))
    · rw [if_neg hst]
      refine ⟨_, kept_of_mod hm (fun n hn => ?_) rfl rfl, Or.inl ⟨rfl, fun _ hr => hst ?_⟩⟩
      · exact (tfind_tset_ne _ _ (Ne.symm hn)).trans (tfind_tset_ne _ _ (Ne.symm hn))
      · have e1 : (s.issOf c g).g.inHandler = g.inHandler := rfl
        rw [e1, hr]; simp
  · rw [if_neg hc]
    refine ⟨_, kept_of_mod hm (fun n hn => ?_) rfl rfl, Or.inl ⟨rfl, fun hx => absurd hx hc⟩⟩
    exact tfind_tset_ne _ _ (Ne.symm hn)

theorem xirDone_rest (k : Ctx) (sl : List Nat) (m : Mask) :
    xirDone k sl m = { k with slices := (xirDone k sl m).slices } := by
  unfold xirDone
  dsimp only
  cases e : k.xirOf (sl.headD 0) with
  | none => rfl
  | some q => dsimp only; split <;> rfl

@[simp] theorem xirDone_regs (k : Ctx) (sl : List Nat) (m : Mask) : (xirDone k sl m).regs = k.regs := by
  rw [xirDone_rest]

/-- The context frame of a word that writes registers. -/
theorem ctxKept_of {c : Cur} {g h : Group} {x : Iss} {k : Ctx} {ds : List Nat} (hx : x.xir = c.xir) (hs : x.slices = c.slices)
    (hk : k = { g.ctx with regs := k.regs }) (hr : ∀ v, v ∉ ds → k.reg v = g.ctx.reg v)
    (hh : (h.ctx = x.advance k ∧ (c.xir = true → g.status ≠ .ready)) ∨ (c.xir = true ∧ h.ctx = xirDone (x.advance k) c.slices c.active)) :
    CtxKept c g h ds := by
  have hadv : x.advance k = { k with slices := (x.advance k).slices } := by unfold Iss.advance; split <;> rfl
  have hregs : h.ctx.regs = k.regs := by
    rcases hh with ⟨e, -⟩ | ⟨-, e⟩
    · rw [e, hadv]
    · rw [e, xirDone_regs, hadv]
  refine ⟨?_, fun v hv => ?_, fun hc => ?_, fun hc hr q hq => ?_⟩
  · rcases hh with ⟨e, -⟩ | ⟨-, e⟩
    · rw [e, hadv]
      generalize (x.advance k).slices = sl
      generalize k.regs = r at hk ⊢
      subst hk; rfl
    · rw [e, xirDone_rest, hadv]
      generalize (x.advance k).slices = sl
      generalize k.regs = r at hk ⊢
      subst hk; rfl
  · rw [← hr v hv]; unfold Ctx.reg; rw [hregs]
  · have hx' : x.xir = false := by rw [hx]; exact hc
    rcases hh with ⟨e, -⟩ | ⟨hc', -⟩
    · rw [e]
      unfold Iss.advance
      rw [hx', hs]
      simp only [Bool.false_eq_true, if_false]
      generalize k.regs = r at hk
      subst hk
      rfl
    · rw [hc] at hc'; cases hc'
  · rcases hh with ⟨-, hn⟩ | ⟨-, e⟩
    · exact absurd hr (hn hc)
    · have ha : x.advance k = k := by unfold Iss.advance; rw [hx, hc]; rfl
      have hks : k.slices = g.ctx.slices := by rw [hk]
      have hkx : k.xirOf (c.slices.headD 0) = some q := by unfold Ctx.xirOf; rw [hks]; exact hq
      rw [e, ha]
      unfold xirDone
      simp only [hkx, hks]
      split <;> rfl

theorem wrote_of {c : Cur} {g h : Group} {x : Iss} {k : Ctx} {v : Nat} {code : Fmt} {ix : Nat} {r : ResK} {m : Mask} {val : Nat → Word}
    (h2 : shapeCode (k.reg v).shape = if g.ctx.live &&& ~~~m ≠ 0 then 2 else
      match r with
      | .uni => 0
      | .aff => if val 1 = val 0 then 0 else 1
      | .gen => 2)
    (h1 : (k.reg v).fmt = code ∧ (k.reg v).bound = ix ∧
      ∀ l, l < 32 → hasLane g.ctx.live l = true → k.lane v l = if hasLane m l = true then val l else g.ctx.lane v l)
    (hh : (h.ctx = x.advance k ∧ (c.xir = true → g.status ≠ .ready)) ∨ (c.xir = true ∧ h.ctx = xirDone (x.advance k) c.slices c.active)) :
    Wrote g h v code ix r m val := by
  have hregs : h.ctx.regs = k.regs := by
    have ha : (x.advance k).regs = k.regs := by unfold Iss.advance; split <;> rfl
    rcases hh with ⟨e, -⟩ | ⟨-, e⟩
    · rw [e, ha]
    · rw [e, xirDone_regs, ha]
  have hreg : ∀ w, h.ctx.reg w = k.reg w := fun w => by unfold Ctx.reg; rw [hregs]
  refine ⟨by rw [hreg]; exact h1.1, by rw [hreg]; exact h1.2.1, by rw [hreg]; exact h2, fun l hl hlive => ?_⟩
  rw [← h1.2.2 l hl hlive]
  unfold Ctx.lane; rw [hreg]

/-- The registers that a result of a word holds afterwards: one register, or the halves of a pair. -/
def WroteWide (g h : Group) (wide : Bool) (v : Nat) (code : Fmt) (ix : Nat) (k : ResK) (m : Mask) (val : Nat → Word64) :
    Prop :=
  Wrote g h v code ix k m (fun l => lo32 (val l)) ∧ (wide = true → Wrote g h (v + 1) code ix k m (fun l => hi32 (val l)))

theorem Ctx.lane_other {c d : Ctx} {w : Nat} (h : c.reg w = d.reg w) (l : Nat) : c.lane w l = d.lane w l := by
  unfold Ctx.lane; rw [h]

/-- A word that may issue and writes one result with every element in bounds: it completes, and this is what it leaves. -/
theorem issueWord_wrote {s : State} {c : Cur} {g : Group} {i : Instr} {d : Desc} {p q : Nat} (h : Issues s c g i d p)
    {own : Iss → Verdict} {ms : Option Nat} {wide : Bool} {v : Nat} {k : ResK} {code : Fmt} {ix : Nat} {m : Mask}
    {val : Nat → Word64}
    (hv : own (s.issOf c g) = .go q (fun u => u.writeResult (s.issOf c g) ms wide v k code ix m val)) (hq : q ≤ p)
    (hb : InBounds (s.boundsOf g) ix code m val wide)
    (hk : KindFits k (fun l => lo32 (val l))) (hw : wide = true → KindFits k (fun l => hi32 (val l))) :
    ∃ t h', issueWord i d own s = .next t ∧ Kept s t c q g h' ∧ CtxKept c g h' (if wide then [v, v + 1] else [v]) ∧
      WroteWide g h' wide v code ix k m val := by
  have hgo := issueWord_go h hv hq
  have hrest : ({ g.ctx.putWide wide v k code ix m val with bflag := g.ctx.bflag } : Ctx) = g.ctx.putWide wide v k code ix m val := by
    rw [Ctx.putWide_rest]
  obtain ⟨h', hkept, hctx⟩ := effect_frame (s := s) (c := c) (g := g) (q := q) (rs := d.srcs ++ d.dsts) h.group
    ((s.issOf c g).advance (g.ctx.putWide wide v k code ix m val))
    (fun u => u.writeResult (s.issOf c g) ms wide v k code ix m val)
    (fun u y hu hy => by
      rw [State.writeResult_inBounds (x := s.issOf c g) hu hb, hy, hrest]; rfl)
  refine ⟨_, h', hgo, hkept, ?_, ?_⟩
  · refine ctxKept_of (x := s.issOf c g) rfl rfl (Ctx.putWide_rest _ _ _ _ _ _ _ _) (fun w hw' => ?_) hctx
    unfold Ctx.putWide
    cases wide
    · simp only [Bool.false_eq_true, if_false, List.mem_cons, List.not_mem_nil, or_false] at hw' ⊢
      exact Ctx.put_other _ _ _ _ _ _ _ _ hw'
    · simp only [if_true, List.mem_cons, List.not_mem_nil, or_false, not_or] at hw' ⊢
      rw [Ctx.put_other _ _ _ _ _ _ _ _ hw'.2, Ctx.put_other _ _ _ _ _ _ _ _ hw'.1]
  · refine ⟨wrote_of (x := s.issOf c g) ?_ ?_ hctx, fun hwd => wrote_of (x := s.issOf c g) ?_ ?_ hctx⟩
    · unfold Ctx.putWide
      cases wide
      · exact Ctx.put_shape ..
      · simp only [if_true]
        rw [Ctx.put_other _ _ _ _ _ _ _ _ (by omega : v ≠ v + 1)]
        exact Ctx.put_shape ..
    · unfold Ctx.putWide
      cases wide
      · exact Ctx.put_same hk
      · have hne : v ≠ v + 1 := by omega
        have e := Ctx.put_other (g.ctx.put v k code ix m (fun l => lo32 (val l))) (v + 1) v k code ix m
          (fun l => hi32 (val l)) hne
        have hp := Ctx.put_same (c := g.ctx) (v := v) (fmt := code) (ix := ix) (m := m) hk
        refine ⟨?_, ?_, fun l hl hlive => ?_⟩
        · simp only [if_true]; rw [e]; exact hp.1
        · simp only [if_true]; rw [e]; exact hp.2.1
        · simp only [if_true]; rw [Ctx.lane_other e]; exact hp.2.2 l hl hlive
    · unfold Ctx.putWide
      rw [hwd]
      simp only [if_true]
      exact Ctx.put_shape ..
    · unfold Ctx.putWide
      rw [hwd]
      simp only [if_true]
      have hp := Ctx.put_same (c := g.ctx.put v k code ix m (fun l => lo32 (val l))) (v := v + 1) (fmt := code) (ix := ix)
        (m := m) (hw hwd)
      refine ⟨hp.1, hp.2.1, fun l hl hlive => ?_⟩
      rw [hp.2.2 l hl hlive]
      have hne : v + 1 ≠ v := by omega
      have e := Ctx.put_other g.ctx v (v + 1) k code ix m (fun l => lo32 (val l)) hne
      rw [Ctx.lane_other e]

/-- What the registers of a lane-independent word become (R44, R45, R47): its result in every live lane of the effective
write mask. -/
theorem issueAlu_wrote {s : State} {c : Cur} {g : Group} {i : Instr} {w : Bool} {a : Alu} {p : Nat}
    (h : Issues s c g i { srcs := a.regs, dsts := a.dsts, ms := a.ms, wideOk := w, inXir := true } p)
    (hs : a.srcs.all (fun r => sourceOk g.ctx r.1 r.2) = true) (ho : a.ok (a.srcs.map (fun r => (g.ctx.reg r.1).fmt)) = true)
    (hp : a.price.1 ≤ p ∧ a.price.2 ≤ p) (ha : a.AffFits (s.issOf c g) g.ctx) (hw : a.wide = true → a.aff = .none)
    (hb : InBounds (s.boundsOf g)
      ((s.issOf c g).resultIndex (a.srcs.head?.map Prod.fst) (a.code (a.srcs.map (fun r => (g.ctx.reg r.1).fmt))))
      (a.code (a.srcs.map (fun r => (g.ctx.reg r.1).fmt))) ((s.issOf c g).eff a.ms) (a.lane (s.issOf c g) g.ctx) a.wide) :
    ∃ t h', issueAlu i w a s = .next t ∧
      Kept s t c (shapedPrice a.price (a.shapes g.ctx) g.ctx.live ((s.issOf c g).eff a.ms)
        ((s.issOf c g).kind (resultKind a.aff (a.shapes g.ctx)))) g h' ∧ CtxKept c g h' a.dsts ∧
      WroteWide g h' a.wide a.d (a.code (a.srcs.map (fun r => (g.ctx.reg r.1).fmt)))
        ((s.issOf c g).resultIndex (a.srcs.head?.map Prod.fst) (a.code (a.srcs.map (fun r => (g.ctx.reg r.1).fmt))))
        ((s.issOf c g).kind (resultKind a.aff (a.shapes g.ctx))) ((s.issOf c g).eff a.ms) (a.lane (s.issOf c g) g.ctx) := by
  have hx : (s.issOf c g).g = g := rfl
  have hbx : (s.issOf c g).bounds = s.boundsOf g := rfl
  have huni : ∀ (f : Word64 → Word), resultKind a.aff (a.shapes g.ctx) = .uni →
      ∀ l, f (a.lane (s.issOf c g) g.ctx l) = f (a.lane (s.issOf c g) g.ctx 0) := fun f e l => by
    rw [Alu.lane_uniform (resultKind_uni e) l]
  unfold issueAlu
  refine issueWord_wrote (ms := a.ms) h (q := shapedPrice a.price (a.shapes g.ctx) g.ctx.live ((s.issOf c g).eff a.ms)
      ((s.issOf c g).kind (resultKind a.aff (a.shapes g.ctx)))) ?_ ?_ hb
    (Iss.kind_fits (x := s.issOf c g) ⟨fun e => huni lo32 e, fun e => ha e⟩)
    (fun hwd => Iss.kind_fits (x := s.issOf c g) ⟨fun e => huni hi32 e, fun e => by rw [hw hwd] at e; exact absurd e resultKind_none⟩)
  · unfold Alu.verdict
    dsimp only
    rw [hx, hbx, hs, ho, hb.1]
    simp
  · unfold shapedPrice; split <;> omega

end Sys2Proof.Machine
end

