-- ==== Sys2Proof/Laws/PerInstr.lean ====
section
/-! SUPPORT. What the word of each instruction decodes to, one lemma for each constructor of `Instr` (family `Encoding`). The
layouts of R190 first: the fields of a word that is a sum of field values at their places. -/

namespace Sys2Proof.Laws.Encoding

set_option Elab.async false
set_option linter.unusedSimpArgs false

/-- The word of a well-formed instruction decodes to the instruction; an event has no word. -/
def Statement (i : Instr) : Prop := ∀ w, i.wf = true → encode i = some w → decodeWord w = .ok i

theorem decodeWord_of {w : Nat} {i : Instr} (h : decodeRaw w = some i) (hw : i.wf = true) : decodeWord w = .ok i := by
  simp [decodeWord, h, hw]

/-! ### Bounds -/

theorem and_left {a b : Bool} (h : (a && b) = true) : a = true := (Bool.and_eq_true_iff.mp h).1

theorem and_right {a b : Bool} (h : (a && b) = true) : b = true := (Bool.and_eq_true_iff.mp h).2

theorem below {x m k : Nat} (h : decide (x < m) = true) (hk : m ≤ k) : x < k := Nat.lt_of_lt_of_le (of_decide_eq_true h) hk

theorem upTo {x m k : Nat} (h : decide (x ≤ m) = true) (hk : m < k) : x < k := Nat.lt_of_le_of_lt (of_decide_eq_true h) hk

theorem toNat_lt (b : Bool) : b.toNat < 2 := by cases b <;> decide

theorem isRegTy_lt {t : IntTy} {v : Nat} (h : isRegTy t v = true) : v < 64 := by
  unfold isRegTy at h; split at h <;> simp [isPair, isReg] at h <;> omega

theorem isRegOf_lt {f : Fmt} {v : Nat} (h : isRegOf f v = true) : v < 64 := by
  unfold isRegOf at h; split at h <;> simp [isPair, isReg] at h <;> omega

theorem isPair_lt {v : Nat} (h : isPair v = true) : v < 64 := by simp [isPair] at h; omega

theorem isReg_lt {v : Nat} (h : isReg v = true) : v < 64 := by simpa [isReg] using h

theorem isImm_lt {v : Nat} (h : isImm v = true) : v < 4096 := by simpa [isImm] using h

theorem isMs_lt {v : Nat} (h : isMs v = true) : v < 4 := by simpa [isMs] using h

theorem isMask_lt {v : Nat} (h : isMask v = true) : v < 8 := by simpa [isMask] using h

theorem isMaskDst_lt {v : Nat} (h : isMaskDst v = true) : v < 8 := by simp [isMaskDst] at h; omega

theorem segments_le (f : MxFmt) : f.segments ≤ 4 := by cases f <;> decide

theorem cvtWf_lt {v a : Nat} {s d : Fmt} {t b : Bool} (h : cvtWf v a s d t b = true) : v < 64 ∧ a < 64 := by
  unfold cvtWf at h
  split at h
  · exact absurd h Bool.false_ne_true
  · rename_i k _
    have g := and_right h
    cases k
    · exact ⟨isRegOf_lt (and_left g), isRegOf_lt (and_right g)⟩
    · exact ⟨isReg_lt (and_left g), isPair_lt (and_right g)⟩
    · exact ⟨isPair_lt (and_left g), isReg_lt (and_right g)⟩
    · exact ⟨isPair_lt (and_left g), isReg_lt (and_right g)⟩

theorem cas_lt {d a b : Nat} {s : Scope} {u : Use} {t : CasTy} (h : (Instr.atomCas d a b s u t).wf = true) :
    d < 64 ∧ a < 64 ∧ b < 64 := by
  cases t
  · have g : ((isPair a && u.casOk) && (isReg d && isPair b)) = true := h
    exact ⟨isReg_lt (and_left (and_right g)), isPair_lt (and_left (and_left g)), isPair_lt (and_right (and_right g))⟩
  · have g : ((isPair a && u.casOk) && (isPair d && isPair b && b % 4 == 0)) = true := h
    exact ⟨isPair_lt (and_left (and_left (and_right g))), isPair_lt (and_left (and_left g)),
      isPair_lt (and_right (and_left (and_right g)))⟩

theorem getc_lt {d : Nat} {n : CReg} (h : (Instr.getc d n).wf = true) : d < 64 := by
  have g : (if n.isWide then isPair d else isReg d) = true := h
  split at g
  · exact isPair_lt g
  · exact isReg_lt g

/-! ### Codes -/

theorem CmpCond.code_lt (x : CmpCond) : x.code < 8 := by cases x <;> decide
@[simp] theorem CmpCond.ofCode_code (x : CmpCond) : CmpCond.ofCode x.code = some x := by cases x <;> rfl
theorem FCond.code_lt (x : FCond) : x.code < 8 := by cases x <;> decide
@[simp] theorem FCond.ofCode_code (x : FCond) : FCond.ofCode x.code = some x := by cases x <;> rfl
theorem FBinFmt.code_lt (x : FBinFmt) : x.code < 8 := by cases x <;> decide
@[simp] theorem FBinFmt.ofCode_code (x : FBinFmt) : FBinFmt.ofCode x.code = some x := by cases x <;> rfl
theorem FFmt.code_lt (x : FFmt) : x.code < 4 := by cases x <;> decide
@[simp] theorem FFmt.ofCode_code (x : FFmt) : FFmt.ofCode x.code = some x := by cases x <;> rfl
theorem Fmt.code_lt (x : Fmt) : x.code < 32 := by cases x <;> decide
@[simp] theorem Fmt.ofCode_code (x : Fmt) : Fmt.ofCode x.code = some x := by cases x <;> rfl
theorem BrCond.code_lt (x : BrCond) : x.code < 16 := by cases x <;> decide
@[simp] theorem BrCond.ofCode_code (x : BrCond) : BrCond.ofCode x.code = some x := by cases x <;> rfl
theorem ScanOp.code_lt (x : ScanOp) : x.code < 8 := by cases x <;> decide
@[simp] theorem ScanOp.ofCode_code (x : ScanOp) : ScanOp.ofCode x.code = some x := by cases x <;> rfl
theorem Sz.code_lt (x : Sz) : x.code < 8 := by cases x <;> decide
@[simp] theorem Sz.ofCode_code (x : Sz) : Sz.ofCode x.code = some x := by cases x <;> rfl
theorem LkSz.code_lt (x : LkSz) : x.code < 8 := by cases x <;> decide
@[simp] theorem LkSz.ofCode_code (x : LkSz) : LkSz.ofCode x.code = some x := by cases x <;> rfl
theorem Scope.code_lt (x : Scope) : x.code < 8 := by cases x <;> decide
@[simp] theorem Scope.ofCode_code (x : Scope) : Scope.ofCode x.code = some x := by cases x <;> rfl
theorem Use.code_lt (x : Use) : x.code < 8 := by cases x <;> decide
@[simp] theorem Use.ofCode_code (x : Use) : Use.ofCode x.code = some x := by cases x <;> rfl
theorem CasTy.code_lt (x : CasTy) : x.code < 2 := by cases x <;> decide
@[simp] theorem CasTy.ofCode_code (x : CasTy) : CasTy.ofCode x.code = some x := by cases x <;> rfl
theorem RedOp.code_lt (x : RedOp) : x.code < 16 := by cases x <;> decide
@[simp] theorem RedOp.ofCode_code (x : RedOp) : RedOp.ofCode x.code = some x := by cases x <;> rfl
theorem MxFmt.code_lt (x : MxFmt) : x.code < 8 := by cases x <;> decide
@[simp] theorem MxFmt.ofCode_code (x : MxFmt) : MxFmt.ofCode x.code = some x := by cases x <;> rfl
theorem DrFmt.code_lt (x : DrFmt) : x.code < 8 := by cases x <;> decide
@[simp] theorem DrFmt.ofCode_code (x : DrFmt) : DrFmt.ofCode x.code = some x := by cases x <;> rfl
theorem Rnd.code_lt (x : Rnd) : x.code < 8 := by cases x <;> decide
@[simp] theorem Rnd.ofCode_code (x : Rnd) : Rnd.ofCode x.code = some x := by cases x <;> rfl
theorem CReg.code_lt (x : CReg) : x.code < 4096 := by cases x <;> decide
@[simp] theorem CReg.ofCode_code (x : CReg) : CReg.ofCode x.code = some x := by cases x <;> rfl
theorem IntTy.code_lt (x : IntTy) : x.code < 4 := by cases x <;> decide
@[simp] theorem IntTy.ofCode_code (x : IntTy) : IntTy.ofCode x.code = some x := by cases x <;> rfl
theorem IntTy.atomCode_lt (x : IntTy) : x.atomCode < 4 := by cases x <;> decide
@[simp] theorem IntTy.atomOfCode_code (x : IntTy) : IntTy.atomOfCode x.atomCode = some x := by cases x <;> rfl
theorem accessCode_lt (x : Option Scope) : accessCode x < 8 := by
  cases x with
  | none => decide
  | some s => cases s <;> decide
@[simp] theorem accessOfCode_code (x : Option Scope) : accessOfCode (accessCode x) = some x := by
  cases x <;> simp [accessOfCode, accessCode]
@[simp] theorem bitOf_toNat (b : Bool) : bitOf b.toNat = some b := by cases b <;> rfl

/-! ### Fields -/

theorem fld_first {x n y w : Nat} (e : x + 2 ^ n * y = w) (h : x < 2 ^ n) : fld w 0 n = x := by
  subst e
  simp [fld, Nat.mod_eq_of_lt h]

theorem fld_next {x n y w lo m v : Nat} (e : x + 2 ^ n * y = w) (h : x < 2 ^ n) (k : fld y lo m = v) :
    fld w (n + lo) m = v := by
  subst e k
  unfold fld
  rw [Nat.pow_add, ← Nat.div_div_eq_div_mul, Nat.add_mul_div_left _ _ (Nat.two_pow_pos n), Nat.div_eq_of_lt h, Nat.zero_add]

theorem div_next {x n y w k v : Nat} (e : x + 2 ^ n * y = w) (h : x < 2 ^ n) (d : y / 2 ^ k = v) : w / 2 ^ (n + k) = v := by
  subst e d
  rw [Nat.pow_add, ← Nat.div_div_eq_div_mul, Nat.add_mul_div_left _ _ (Nat.two_pow_pos n), Nat.div_eq_of_lt h, Nat.zero_add]

theorem fld_in {w LO N c : Nat} (h : fld w LO N = c) {lo n v : Nat} (k : Nat) (hk : LO + k = lo) (hn : k + n ≤ N)
    (hv : fld c k n = v) : fld w lo n = v := by
  subst hv hk h
  unfold fld
  rw [Nat.pow_add, ← Nat.div_div_eq_div_mul]
  obtain ⟨e, rfl⟩ := Nat.exists_eq_add_of_le hn
  rw [Nat.pow_add, Nat.pow_add, Nat.mul_assoc, Nat.mod_mul_right_div_self, Nat.mod_mul_right_mod]

theorem fld_zext {w lo n m a : Nat} (h1 : fld w lo n = a) (h2 : fld w (lo + n) m = 0) : fld w lo (n + m) = a := by
  subst h1
  unfold fld at *
  rw [Nat.pow_add, ← Nat.div_div_eq_div_mul] at h2
  rw [Nat.pow_add, Nat.mod_mul, h2, Nat.mul_zero, Nat.add_zero]

theorem fld_ne {w lo n a b : Nat} (h1 : fld w lo n = a) (h2 : fld w lo n = b) (h : a ≠ b) : False := h (h1 ▸ h2)

/-! ### Major opcodes and layouts -/

theorem raw01 {w : Nat} (h : w / 2 ^ 26 = 1) : decodeRaw w = decOp01 w := by unfold decodeRaw; rw [h]; rfl
theorem raw02 {w : Nat} (h : w / 2 ^ 26 = 2) : decodeRaw w = decOp02 w := by unfold decodeRaw; rw [h]; rfl
theorem raw03 {w : Nat} (h : w / 2 ^ 26 = 3) : decodeRaw w = decOp03 w := by unfold decodeRaw; rw [h]; rfl
theorem raw04 {w : Nat} (h : w / 2 ^ 26 = 4) : decodeRaw w = decOp04 w := by unfold decodeRaw; rw [h]; rfl
theorem raw05 {w : Nat} (h : w / 2 ^ 26 = 5) : decodeRaw w = decOp05 w := by unfold decodeRaw; rw [h]; rfl
theorem raw06 {w : Nat} (h : w / 2 ^ 26 = 6) : decodeRaw w = decOp06 w := by unfold decodeRaw; rw [h]; rfl
theorem raw07 {w : Nat} (h : w / 2 ^ 26 = 7) : decodeRaw w = decOp07 w := by unfold decodeRaw; rw [h]; rfl
theorem raw08 {w : Nat} (h : w / 2 ^ 26 = 8) : decodeRaw w = decOp08 w := by unfold decodeRaw; rw [h]; rfl
theorem raw09 {w : Nat} (h : w / 2 ^ 26 = 9) : decodeRaw w = decOp09 w := by unfold decodeRaw; rw [h]; rfl
theorem raw0A {w : Nat} (h : w / 2 ^ 26 = 10) : decodeRaw w = decOp0A w := by unfold decodeRaw; rw [h]; rfl
theorem raw0B {w : Nat} (h : w / 2 ^ 26 = 11) : decodeRaw w = decOp0B w := by unfold decodeRaw; rw [h]; rfl
theorem raw0C {w : Nat} (h : w / 2 ^ 26 = 12) : decodeRaw w = decOp0C w := by unfold decodeRaw; rw [h]; rfl
theorem raw0D {w : Nat} (h : w / 2 ^ 26 = 13) : decodeRaw w = decOp0D w := by unfold decodeRaw; rw [h]; rfl
theorem raw0E {w : Nat} (h : w / 2 ^ 26 = 14) : decodeRaw w = decOp0E w := by unfold decodeRaw; rw [h]; rfl
theorem raw0F {w : Nat} (h : w / 2 ^ 26 = 15) : decodeRaw w = decOp0F w := by unfold decodeRaw; rw [h]; rfl
theorem raw10 {w : Nat} (h : w / 2 ^ 26 = 16) : decodeRaw w = decOp10 w := by unfold decodeRaw; rw [h]; rfl
theorem raw11 {w : Nat} (h : w / 2 ^ 26 = 17) : decodeRaw w = decOp11 w := by unfold decodeRaw; rw [h]; rfl
theorem raw12 {w : Nat} (h : w / 2 ^ 26 = 18) : decodeRaw w = decOp12 w := by unfold decodeRaw; rw [h]; rfl
theorem raw13 {w : Nat} (h : w / 2 ^ 26 = 19) : decodeRaw w = decOp13 w := by unfold decodeRaw; rw [h]; rfl
theorem raw14 {w : Nat} (h : w / 2 ^ 26 = 20) : decodeRaw w = decOp14 w := by unfold decodeRaw; rw [h]; rfl
theorem raw15 {w : Nat} (h : w / 2 ^ 26 = 21) : decodeRaw w = decOp15 w := by unfold decodeRaw; rw [h]; rfl
theorem raw16 {w : Nat} (h : w / 2 ^ 26 = 22) : decodeRaw w = decOp16 w := by unfold decodeRaw; rw [h]; rfl
theorem raw17 {w : Nat} (h : w / 2 ^ 26 = 23) : decodeRaw w = decOp17 w := by unfold decodeRaw; rw [h]; rfl
theorem raw18 {w : Nat} (h : w / 2 ^ 26 = 24) : decodeRaw w = decOp18 w := by unfold decodeRaw; rw [h]; rfl
theorem raw19 {w : Nat} (h : w / 2 ^ 26 = 25) : decodeRaw w = decOp19 w := by unfold decodeRaw; rw [h]; rfl
theorem raw1A {w : Nat} (h : w / 2 ^ 26 = 26) : decodeRaw w = decOp1A w := by unfold decodeRaw; rw [h]; rfl
theorem raw20 {w : Nat} (h : w / 2 ^ 26 = 32) : decodeRaw w = decOp20 w := by unfold decodeRaw; rw [h]; rfl
theorem raw21 {w : Nat} (h : w / 2 ^ 26 = 33) : decodeRaw w = decOp21 w := by unfold decodeRaw; rw [h]; rfl
theorem raw22 {w : Nat} (h : w / 2 ^ 26 = 34) : decodeRaw w = decOp22 w := by unfold decodeRaw; rw [h]; rfl
theorem raw23 {w : Nat} (h : w / 2 ^ 26 = 35) : decodeRaw w = decOp23 w := by unfold decodeRaw; rw [h]; rfl
theorem raw24 {w : Nat} (h : w / 2 ^ 26 = 36) : decodeRaw w = decOp24 w := by unfold decodeRaw; rw [h]; rfl
theorem raw25 {w : Nat} (h : w / 2 ^ 26 = 37) : decodeRaw w = decOp25 w := by unfold decodeRaw; rw [h]; rfl
theorem raw26 {w : Nat} (h : w / 2 ^ 26 = 38) : decodeRaw w = decOp26 w := by unfold decodeRaw; rw [h]; rfl
theorem raw27 {w : Nat} (h : w / 2 ^ 26 = 39) : decodeRaw w = decOp27 w := by unfold decodeRaw; rw [h]; rfl
theorem raw28 {w : Nat} (h : w / 2 ^ 26 = 40) : decodeRaw w = decOp28 w := by unfold decodeRaw; rw [h]; rfl
theorem raw29 {w : Nat} (h : w / 2 ^ 26 = 41) : decodeRaw w = decOp29 w := by unfold decodeRaw; rw [h]; rfl
theorem raw2A {w : Nat} (h : w / 2 ^ 26 = 42) : decodeRaw w = decOp2A w := by unfold decodeRaw; rw [h]; rfl
theorem raw2B {w : Nat} (h : w / 2 ^ 26 = 43) : decodeRaw w = decOp2B w := by unfold decodeRaw; rw [h]; rfl
theorem raw2C {w : Nat} (h : w / 2 ^ 26 = 44) : decodeRaw w = decOp2C w := by unfold decodeRaw; rw [h]; rfl
theorem raw2D {w : Nat} (h : w / 2 ^ 26 = 45) : decodeRaw w = decOp2D w := by unfold decodeRaw; rw [h]; rfl
theorem raw2E {w : Nat} (h : w / 2 ^ 26 = 46) : decodeRaw w = decOp2E w := by unfold decodeRaw; rw [h]; rfl
theorem raw2F {w : Nat} (h : w / 2 ^ 26 = 47) : decodeRaw w = decOp2F w := by unfold decodeRaw; rw [h]; rfl
theorem raw30 {w : Nat} (h : w / 2 ^ 26 = 48) : decodeRaw w = decOp30 w := by unfold decodeRaw; rw [h]; rfl
theorem raw31 {w : Nat} (h : w / 2 ^ 26 = 49) : decodeRaw w = decOp31 w := by unfold decodeRaw; rw [h]; rfl
theorem raw32 {w : Nat} (h : w / 2 ^ 26 = 50) : decodeRaw w = decOp32 w := by unfold decodeRaw; rw [h]; rfl
theorem raw33 {w : Nat} (h : w / 2 ^ 26 = 51) : decodeRaw w = decOp33 w := by unfold decodeRaw; rw [h]; rfl
theorem raw34 {w : Nat} (h : w / 2 ^ 26 = 52) : decodeRaw w = decOp34 w := by unfold decodeRaw; rw [h]; rfl
theorem raw35 {w : Nat} (h : w / 2 ^ 26 = 53) : decodeRaw w = decOp35 w := by unfold decodeRaw; rw [h]; rfl
theorem raw36 {w : Nat} (h : w / 2 ^ 26 = 54) : decodeRaw w = decOp36 w := by unfold decodeRaw; rw [h]; rfl
theorem raw37 {w : Nat} (h : w / 2 ^ 26 = 55) : decodeRaw w = decOp37 w := by unfold decodeRaw; rw [h]; rfl
theorem raw38 {w : Nat} (h : w / 2 ^ 26 = 56) : decodeRaw w = decOp38 w := by unfold decodeRaw; rw [h]; rfl
theorem raw39 {w : Nat} (h : w / 2 ^ 26 = 57) : decodeRaw w = decOp39 w := by unfold decodeRaw; rw [h]; rfl
theorem raw3E {w : Nat} (h : w / 2 ^ 26 = 62) : decodeRaw w = decOp3E w := by unfold decodeRaw; rw [h]; rfl

theorem lay1 {w K x0 x1 x2 x3 : Nat} (op c0 : Nat) (h0 : x0 < 64) (h1 : x1 < 64) (h2 : x2 < 64) (h3 : x3 < 4)
    (hK : K = op * 67108864 + c0) (hc : c0 < 64)
    (e : K + x0 * 1048576 + x1 * 16384 + x2 * 256 + x3 * 64 = w) :
    w / 2 ^ 26 = op ∧ fld w 0 6 = c0 ∧ fld w 20 6 = x0 ∧ fld w 14 6 = x1 ∧ fld w 8 6 = x2 ∧ fld w 6 2 = x3 := by
  have b0 := hc
  have z : c0 + 2 ^ 6 * (x3 + 2 ^ 2 * (x2 + 2 ^ 6 * (x1 + 2 ^ 6 * (x0 + 2 ^ 6 * op)))) = w := by clear h0 h1 h2 h3 b0; subst hK e; grind
  exact ⟨div_next (k := 20) z b0 (div_next (k := 18) rfl h3 (div_next (k := 12) rfl h2 (div_next (k := 6) rfl h1 (div_next (k := 0) rfl h0 ((Nat.div_one op : op / 2 ^ 0 = op)))))),
    fld_first z b0,
    fld_next (lo := 14) z b0 (fld_next (lo := 12) rfl h3 (fld_next (lo := 6) rfl h2 (fld_next (lo := 0) rfl h1 (fld_first rfl h0)))),
    fld_next (lo := 8) z b0 (fld_next (lo := 6) rfl h3 (fld_next (lo := 0) rfl h2 (fld_first rfl h1))),
    fld_next (lo := 2) z b0 (fld_next (lo := 0) rfl h3 (fld_first rfl h2)),
    fld_next (lo := 0) z b0 (fld_first rfl h3)⟩

theorem lay2 {w K x0 x1 x2 : Nat} (op c0 c1 : Nat) (h0 : x0 < 64) (h1 : x1 < 64) (h2 : x2 < 4)
    (hK : K = op * 67108864 + c0 + c1 * 256) (hc : c0 < 64 ∧ c1 < 64)
    (e : K + x0 * 1048576 + x1 * 16384 + x2 * 64 = w) :
    w / 2 ^ 26 = op ∧ fld w 0 6 = c0 ∧ fld w 8 6 = c1 ∧ fld w 20 6 = x0 ∧ fld w 14 6 = x1 ∧ fld w 6 2 = x2 := by
  obtain ⟨b0, b1⟩ := hc
  have z : c0 + 2 ^ 6 * (x2 + 2 ^ 2 * (c1 + 2 ^ 6 * (x1 + 2 ^ 6 * (x0 + 2 ^ 6 * op)))) = w := by clear h0 h1 h2 b0 b1; subst hK e; grind
  exact ⟨div_next (k := 20) z b0 (div_next (k := 18) rfl h2 (div_next (k := 12) rfl b1 (div_next (k := 6) rfl h1 (div_next (k := 0) rfl h0 ((Nat.div_one op : op / 2 ^ 0 = op)))))),
    fld_first z b0,
    fld_next (lo := 2) z b0 (fld_next (lo := 0) rfl h2 (fld_first rfl b1)),
    fld_next (lo := 14) z b0 (fld_next (lo := 12) rfl h2 (fld_next (lo := 6) rfl b1 (fld_next (lo := 0) rfl h1 (fld_first rfl h0)))),
    fld_next (lo := 8) z b0 (fld_next (lo := 6) rfl h2 (fld_next (lo := 0) rfl b1 (fld_first rfl h1))),
    fld_next (lo := 0) z b0 (fld_first rfl h2)⟩

theorem lay3 {w K x0 x1 x2 : Nat} (op c0 : Nat) (h0 : x0 < 64) (h1 : x1 < 4) (h2 : x2 < 4096)
    (hK : K = op * 67108864 + c0 * 16384) (hc : c0 < 64)
    (e : K + x0 * 1048576 + x1 * 4096 + x2 = w) :
    w / 2 ^ 26 = op ∧ fld w 14 6 = c0 ∧ fld w 20 6 = x0 ∧ fld w 12 2 = x1 ∧ fld w 0 12 = x2 := by
  have b0 := hc
  have z : x2 + 2 ^ 12 * (x1 + 2 ^ 2 * (c0 + 2 ^ 6 * (x0 + 2 ^ 6 * op))) = w := by clear h0 h1 h2 b0; subst hK e; grind
  exact ⟨div_next (k := 14) z h2 (div_next (k := 12) rfl h1 (div_next (k := 6) rfl b0 (div_next (k := 0) rfl h0 ((Nat.div_one op : op / 2 ^ 0 = op))))),
    fld_next (lo := 2) z h2 (fld_next (lo := 0) rfl h1 (fld_first rfl b0)),
    fld_next (lo := 8) z h2 (fld_next (lo := 6) rfl h1 (fld_next (lo := 0) rfl b0 (fld_first rfl h0))),
    fld_next (lo := 0) z h2 (fld_first rfl h1),
    fld_first z h2⟩

theorem lay4 {w K x0 x1 x2 x3 : Nat} (op : Nat) (h0 : x0 < 64) (h1 : x1 < 64) (h2 : x2 < 4) (h3 : x3 < 4096)
    (hK : K = op * 67108864)
    (e : K + x0 * 1048576 + x1 * 16384 + x2 * 4096 + x3 = w) :
    w / 2 ^ 26 = op ∧ fld w 20 6 = x0 ∧ fld w 14 6 = x1 ∧ fld w 12 2 = x2 ∧ fld w 0 12 = x3 := by
  have z : x3 + 2 ^ 12 * (x2 + 2 ^ 2 * (x1 + 2 ^ 6 * (x0 + 2 ^ 6 * op))) = w := by clear h0 h1 h2 h3; subst hK e; grind
  exact ⟨div_next (k := 14) z h3 (div_next (k := 12) rfl h2 (div_next (k := 6) rfl h1 (div_next (k := 0) rfl h0 ((Nat.div_one op : op / 2 ^ 0 = op))))),
    fld_next (lo := 8) z h3 (fld_next (lo := 6) rfl h2 (fld_next (lo := 0) rfl h1 (fld_first rfl h0))),
    fld_next (lo := 2) z h3 (fld_next (lo := 0) rfl h2 (fld_first rfl h1)),
    fld_next (lo := 0) z h3 (fld_first rfl h2),
    fld_first z h3⟩

theorem lay5 {w K x0 x1 x2 x3 : Nat} (op c0 : Nat) (h0 : x0 < 64) (h1 : x1 < 64) (h2 : x2 < 4) (h3 : x3 < 32)
    (hK : K = op * 67108864 + c0 * 32) (hc : c0 < 128)
    (e : K + x0 * 1048576 + x1 * 16384 + x2 * 4096 + x3 = w) :
    w / 2 ^ 26 = op ∧ fld w 5 7 = c0 ∧ fld w 20 6 = x0 ∧ fld w 14 6 = x1 ∧ fld w 12 2 = x2 ∧ fld w 0 5 = x3 := by
  have b0 := hc
  have z : x3 + 2 ^ 5 * (c0 + 2 ^ 7 * (x2 + 2 ^ 2 * (x1 + 2 ^ 6 * (x0 + 2 ^ 6 * op)))) = w := by clear h0 h1 h2 h3 b0; subst hK e; grind
  exact ⟨div_next (k := 21) z h3 (div_next (k := 14) rfl b0 (div_next (k := 12) rfl h2 (div_next (k := 6) rfl h1 (div_next (k := 0) rfl h0 ((Nat.div_one op : op / 2 ^ 0 = op)))))),
    fld_next (lo := 0) z h3 (fld_first rfl b0),
    fld_next (lo := 15) z h3 (fld_next (lo := 8) rfl b0 (fld_next (lo := 6) rfl h2 (fld_next (lo := 0) rfl h1 (fld_first rfl h0)))),
    fld_next (lo := 9) z h3 (fld_next (lo := 2) rfl b0 (fld_next (lo := 0) rfl h2 (fld_first rfl h1))),
    fld_next (lo := 7) z h3 (fld_next (lo := 0) rfl b0 (fld_first rfl h2)),
    fld_first z h3⟩

theorem lay6 {w K x0 x1 x2 x3 x4 : Nat} (op c0 : Nat) (h0 : x0 < 64) (h1 : x1 < 64) (h2 : x2 < 4) (h3 : x3 < 64) (h4 : x4 < 32)
    (hK : K = op * 67108864 + c0 * 2048) (hc : c0 < 2)
    (e : K + x0 * 1048576 + x1 * 16384 + x2 * 4096 + x3 * 32 + x4 = w) :
    w / 2 ^ 26 = op ∧ fld w 11 1 = c0 ∧ fld w 20 6 = x0 ∧ fld w 14 6 = x1 ∧ fld w 12 2 = x2 ∧ fld w 5 6 = x3 ∧ fld w 0 5 = x4 := by
  have b0 := hc
  have z : x4 + 2 ^ 5 * (x3 + 2 ^ 6 * (c0 + 2 ^ 1 * (x2 + 2 ^ 2 * (x1 + 2 ^ 6 * (x0 + 2 ^ 6 * op))))) = w := by clear h0 h1 h2 h3 h4 b0; subst hK e; grind
  exact ⟨div_next (k := 21) z h4 (div_next (k := 15) rfl h3 (div_next (k := 14) rfl b0 (div_next (k := 12) rfl h2 (div_next (k := 6) rfl h1 (div_next (k := 0) rfl h0 ((Nat.div_one op : op / 2 ^ 0 = op))))))),
    fld_next (lo := 6) z h4 (fld_next (lo := 0) rfl h3 (fld_first rfl b0)),
    fld_next (lo := 15) z h4 (fld_next (lo := 9) rfl h3 (fld_next (lo := 8) rfl b0 (fld_next (lo := 6) rfl h2 (fld_next (lo := 0) rfl h1 (fld_first rfl h0))))),
    fld_next (lo := 9) z h4 (fld_next (lo := 3) rfl h3 (fld_next (lo := 2) rfl b0 (fld_next (lo := 0) rfl h2 (fld_first rfl h1)))),
    fld_next (lo := 7) z h4 (fld_next (lo := 1) rfl h3 (fld_next (lo := 0) rfl b0 (fld_first rfl h2))),
    fld_next (lo := 0) z h4 (fld_first rfl h3),
    fld_first z h4⟩

theorem lay7 {w K x0 x1 x2 x3 x4 : Nat} (op : Nat) (h0 : x0 < 64) (h1 : x1 < 64) (h2 : x2 < 64) (h3 : x3 < 64) (h4 : x4 < 4)
    (hK : K = op * 67108864)
    (e : K + x0 * 1048576 + x1 * 16384 + x2 * 256 + x3 * 4 + x4 = w) :
    w / 2 ^ 26 = op ∧ fld w 20 6 = x0 ∧ fld w 14 6 = x1 ∧ fld w 8 6 = x2 ∧ fld w 2 6 = x3 ∧ fld w 0 2 = x4 := by
  have z : x4 + 2 ^ 2 * (x3 + 2 ^ 6 * (x2 + 2 ^ 6 * (x1 + 2 ^ 6 * (x0 + 2 ^ 6 * op)))) = w := by clear h0 h1 h2 h3 h4; subst hK e; grind
  exact ⟨div_next (k := 24) z h4 (div_next (k := 18) rfl h3 (div_next (k := 12) rfl h2 (div_next (k := 6) rfl h1 (div_next (k := 0) rfl h0 ((Nat.div_one op : op / 2 ^ 0 = op)))))),
    fld_next (lo := 18) z h4 (fld_next (lo := 12) rfl h3 (fld_next (lo := 6) rfl h2 (fld_next (lo := 0) rfl h1 (fld_first rfl h0)))),
    fld_next (lo := 12) z h4 (fld_next (lo := 6) rfl h3 (fld_next (lo := 0) rfl h2 (fld_first rfl h1))),
    fld_next (lo := 6) z h4 (fld_next (lo := 0) rfl h3 (fld_first rfl h2)),
    fld_next (lo := 0) z h4 (fld_first rfl h3),
    fld_first z h4⟩

theorem lay8 {w K x0 x1 x2 x3 x4 : Nat} (op c0 c1 : Nat) (h0 : x0 < 8) (h1 : x1 < 64) (h2 : x2 < 64) (h3 : x3 < 8) (h4 : x4 < 8)
    (hK : K = op * 67108864 + c0 * 64 + c1 * 8388608) (hc : c0 < 4 ∧ c1 < 8)
    (e : K + x0 * 1048576 + x1 * 16384 + x2 * 256 + x3 * 8 + x4 = w) :
    w / 2 ^ 26 = op ∧ fld w 6 2 = c0 ∧ fld w 23 3 = c1 ∧ fld w 20 3 = x0 ∧ fld w 14 6 = x1 ∧ fld w 8 6 = x2 ∧ fld w 3 3 = x3 ∧ fld w 0 3 = x4 := by
  obtain ⟨b0, b1⟩ := hc
  have z : x4 + 2 ^ 3 * (x3 + 2 ^ 3 * (c0 + 2 ^ 2 * (x2 + 2 ^ 6 * (x1 + 2 ^ 6 * (x0 + 2 ^ 3 * (c1 + 2 ^ 3 * op)))))) = w := by clear h0 h1 h2 h3 h4 b0 b1; subst hK e; grind
  exact ⟨div_next (k := 23) z h4 (div_next (k := 20) rfl h3 (div_next (k := 18) rfl b0 (div_next (k := 12) rfl h2 (div_next (k := 6) rfl h1 (div_next (k := 3) rfl h0 (div_next (k := 0) rfl b1 ((Nat.div_one op : op / 2 ^ 0 = op)))))))),
    fld_next (lo := 3) z h4 (fld_next (lo := 0) rfl h3 (fld_first rfl b0)),
    fld_next (lo := 20) z h4 (fld_next (lo := 17) rfl h3 (fld_next (lo := 15) rfl b0 (fld_next (lo := 9) rfl h2 (fld_next (lo := 3) rfl h1 (fld_next (lo := 0) rfl h0 (fld_first rfl b1)))))),
    fld_next (lo := 17) z h4 (fld_next (lo := 14) rfl h3 (fld_next (lo := 12) rfl b0 (fld_next (lo := 6) rfl h2 (fld_next (lo := 0) rfl h1 (fld_first rfl h0))))),
    fld_next (lo := 11) z h4 (fld_next (lo := 8) rfl h3 (fld_next (lo := 6) rfl b0 (fld_next (lo := 0) rfl h2 (fld_first rfl h1)))),
    fld_next (lo := 5) z h4 (fld_next (lo := 2) rfl h3 (fld_next (lo := 0) rfl b0 (fld_first rfl h2))),
    fld_next (lo := 0) z h4 (fld_first rfl h3),
    fld_first z h4⟩

theorem lay9 {w K x0 x1 x2 x3 x4 : Nat} (op c0 : Nat) (h0 : x0 < 64) (h1 : x1 < 64) (h2 : x2 < 64) (h3 : x3 < 8) (h4 : x4 < 4)
    (hK : K = op * 67108864 + c0 * 32) (hc : c0 < 8)
    (e : K + x0 * 1048576 + x1 * 16384 + x2 * 256 + x3 * 4 + x4 = w) :
    w / 2 ^ 26 = op ∧ fld w 5 3 = c0 ∧ fld w 20 6 = x0 ∧ fld w 14 6 = x1 ∧ fld w 8 6 = x2 ∧ fld w 2 3 = x3 ∧ fld w 0 2 = x4 := by
  have b0 := hc
  have z : x4 + 2 ^ 2 * (x3 + 2 ^ 3 * (c0 + 2 ^ 3 * (x2 + 2 ^ 6 * (x1 + 2 ^ 6 * (x0 + 2 ^ 6 * op))))) = w := by clear h0 h1 h2 h3 h4 b0; subst hK e; grind
  exact ⟨div_next (k := 24) z h4 (div_next (k := 21) rfl h3 (div_next (k := 18) rfl b0 (div_next (k := 12) rfl h2 (div_next (k := 6) rfl h1 (div_next (k := 0) rfl h0 ((Nat.div_one op : op / 2 ^ 0 = op))))))),
    fld_next (lo := 3) z h4 (fld_next (lo := 0) rfl h3 (fld_first rfl b0)),
    fld_next (lo := 18) z h4 (fld_next (lo := 15) rfl h3 (fld_next (lo := 12) rfl b0 (fld_next (lo := 6) rfl h2 (fld_next (lo := 0) rfl h1 (fld_first rfl h0))))),
    fld_next (lo := 12) z h4 (fld_next (lo := 9) rfl h3 (fld_next (lo := 6) rfl b0 (fld_next (lo := 0) rfl h2 (fld_first rfl h1)))),
    fld_next (lo := 6) z h4 (fld_next (lo := 3) rfl h3 (fld_next (lo := 0) rfl b0 (fld_first rfl h2))),
    fld_next (lo := 0) z h4 (fld_first rfl h3),
    fld_first z h4⟩

theorem lay10 {w K x0 x1 x2 : Nat} (op c0 c1 c2 c3 : Nat) (h0 : x0 < 8) (h1 : x1 < 8) (h2 : x2 < 8)
    (hK : K = op * 67108864 + c0 + c1 * 2048 + c2 * 131072 + c3 * 8388608) (hc : c0 < 256 ∧ c1 < 8 ∧ c2 < 8 ∧ c3 < 8)
    (e : K + x0 * 1048576 + x1 * 16384 + x2 * 256 = w) :
    w / 2 ^ 26 = op ∧ fld w 0 8 = c0 ∧ fld w 11 3 = c1 ∧ fld w 17 3 = c2 ∧ fld w 23 3 = c3 ∧ fld w 20 3 = x0 ∧ fld w 14 3 = x1 ∧ fld w 8 3 = x2 := by
  obtain ⟨b0, b1, b2, b3⟩ := hc
  have z : c0 + 2 ^ 8 * (x2 + 2 ^ 3 * (c1 + 2 ^ 3 * (x1 + 2 ^ 3 * (c2 + 2 ^ 3 * (x0 + 2 ^ 3 * (c3 + 2 ^ 3 * op)))))) = w := by clear h0 h1 h2 b0 b1 b2 b3; subst hK e; grind
  exact ⟨div_next (k := 18) z b0 (div_next (k := 15) rfl h2 (div_next (k := 12) rfl b1 (div_next (k := 9) rfl h1 (div_next (k := 6) rfl b2 (div_next (k := 3) rfl h0 (div_next (k := 0) rfl b3 ((Nat.div_one op : op / 2 ^ 0 = op)))))))),
    fld_first z b0,
    fld_next (lo := 3) z b0 (fld_next (lo := 0) rfl h2 (fld_first rfl b1)),
    fld_next (lo := 9) z b0 (fld_next (lo := 6) rfl h2 (fld_next (lo := 3) rfl b1 (fld_next (lo := 0) rfl h1 (fld_first rfl b2)))),
    fld_next (lo := 15) z b0 (fld_next (lo := 12) rfl h2 (fld_next (lo := 9) rfl b1 (fld_next (lo := 6) rfl h1 (fld_next (lo := 3) rfl b2 (fld_next (lo := 0) rfl h0 (fld_first rfl b3)))))),
    fld_next (lo := 12) z b0 (fld_next (lo := 9) rfl h2 (fld_next (lo := 6) rfl b1 (fld_next (lo := 3) rfl h1 (fld_next (lo := 0) rfl b2 (fld_first rfl h0))))),
    fld_next (lo := 6) z b0 (fld_next (lo := 3) rfl h2 (fld_next (lo := 0) rfl b1 (fld_first rfl h1))),
    fld_next (lo := 0) z b0 (fld_first rfl h2)⟩

theorem lay11 {w K x0 x1 : Nat} (op c0 c1 c2 : Nat) (h0 : x0 < 8) (h1 : x1 < 8)
    (hK : K = op * 67108864 + c0 + c1 * 131072 + c2 * 8388608) (hc : c0 < 16384 ∧ c1 < 8 ∧ c2 < 8)
    (e : K + x0 * 1048576 + x1 * 16384 = w) :
    w / 2 ^ 26 = op ∧ fld w 0 14 = c0 ∧ fld w 17 3 = c1 ∧ fld w 23 3 = c2 ∧ fld w 20 3 = x0 ∧ fld w 14 3 = x1 := by
  obtain ⟨b0, b1, b2⟩ := hc
  have z : c0 + 2 ^ 14 * (x1 + 2 ^ 3 * (c1 + 2 ^ 3 * (x0 + 2 ^ 3 * (c2 + 2 ^ 3 * op)))) = w := by clear h0 h1 b0 b1 b2; subst hK e; grind
  exact ⟨div_next (k := 12) z b0 (div_next (k := 9) rfl h1 (div_next (k := 6) rfl b1 (div_next (k := 3) rfl h0 (div_next (k := 0) rfl b2 ((Nat.div_one op : op / 2 ^ 0 = op)))))),
    fld_first z b0,
    fld_next (lo := 3) z b0 (fld_next (lo := 0) rfl h1 (fld_first rfl b1)),
    fld_next (lo := 9) z b0 (fld_next (lo := 6) rfl h1 (fld_next (lo := 3) rfl b1 (fld_next (lo := 0) rfl h0 (fld_first rfl b2)))),
    fld_next (lo := 6) z b0 (fld_next (lo := 3) rfl h1 (fld_next (lo := 0) rfl b1 (fld_first rfl h0))),
    fld_next (lo := 0) z b0 (fld_first rfl h1)⟩

theorem lay12 {w K x0 x1 : Nat} (op c0 c1 : Nat) (h0 : x0 < 64) (h1 : x1 < 8)
    (hK : K = op * 67108864 + c0 + c1 * 131072) (hc : c0 < 16384 ∧ c1 < 8)
    (e : K + x0 * 1048576 + x1 * 16384 = w) :
    w / 2 ^ 26 = op ∧ fld w 0 14 = c0 ∧ fld w 17 3 = c1 ∧ fld w 20 6 = x0 ∧ fld w 14 3 = x1 := by
  obtain ⟨b0, b1⟩ := hc
  have z : c0 + 2 ^ 14 * (x1 + 2 ^ 3 * (c1 + 2 ^ 3 * (x0 + 2 ^ 6 * op))) = w := by clear h0 h1 b0 b1; subst hK e; grind
  exact ⟨div_next (k := 12) z b0 (div_next (k := 9) rfl h1 (div_next (k := 6) rfl b1 (div_next (k := 0) rfl h0 ((Nat.div_one op : op / 2 ^ 0 = op))))),
    fld_first z b0,
    fld_next (lo := 3) z b0 (fld_next (lo := 0) rfl h1 (fld_first rfl b1)),
    fld_next (lo := 6) z b0 (fld_next (lo := 3) rfl h1 (fld_next (lo := 0) rfl b1 (fld_first rfl h0))),
    fld_next (lo := 0) z b0 (fld_first rfl h1)⟩

theorem lay13 {w K x0 x1 : Nat} (op c0 c1 : Nat) (h0 : x0 < 8) (h1 : x1 < 64)
    (hK : K = op * 67108864 + c0 + c1 * 8388608) (hc : c0 < 16384 ∧ c1 < 8)
    (e : K + x0 * 1048576 + x1 * 16384 = w) :
    w / 2 ^ 26 = op ∧ fld w 0 14 = c0 ∧ fld w 23 3 = c1 ∧ fld w 20 3 = x0 ∧ fld w 14 6 = x1 := by
  obtain ⟨b0, b1⟩ := hc
  have z : c0 + 2 ^ 14 * (x1 + 2 ^ 6 * (x0 + 2 ^ 3 * (c1 + 2 ^ 3 * op))) = w := by clear h0 h1 b0 b1; subst hK e; grind
  exact ⟨div_next (k := 12) z b0 (div_next (k := 6) rfl h1 (div_next (k := 3) rfl h0 (div_next (k := 0) rfl b1 ((Nat.div_one op : op / 2 ^ 0 = op))))),
    fld_first z b0,
    fld_next (lo := 9) z b0 (fld_next (lo := 3) rfl h1 (fld_next (lo := 0) rfl h0 (fld_first rfl b1))),
    fld_next (lo := 6) z b0 (fld_next (lo := 0) rfl h1 (fld_first rfl h0)),
    fld_next (lo := 0) z b0 (fld_first rfl h1)⟩

theorem lay14 {w K x0 x1 x2 : Nat} (op : Nat) (h0 : x0 < 16) (h1 : x1 < 8) (h2 : x2 < 524288)
    (hK : K = op * 67108864)
    (e : K + x0 * 4194304 + x1 * 524288 + x2 = w) :
    w / 2 ^ 26 = op ∧ fld w 22 4 = x0 ∧ fld w 19 3 = x1 ∧ fld w 0 19 = x2 := by
  have z : x2 + 2 ^ 19 * (x1 + 2 ^ 3 * (x0 + 2 ^ 4 * op)) = w := by clear h0 h1 h2; subst hK e; grind
  exact ⟨div_next (k := 7) z h2 (div_next (k := 4) rfl h1 (div_next (k := 0) rfl h0 ((Nat.div_one op : op / 2 ^ 0 = op)))),
    fld_next (lo := 3) z h2 (fld_next (lo := 0) rfl h1 (fld_first rfl h0)),
    fld_next (lo := 0) z h2 (fld_first rfl h1),
    fld_first z h2⟩

theorem lay15 {w K : Nat} (op c0 : Nat)
    (hK : K = op * 67108864 + c0) (hc : c0 < 67108864)
    (e : K = w) :
    w / 2 ^ 26 = op ∧ fld w 0 26 = c0 := by
  have b0 := hc
  have z : c0 + 2 ^ 26 * op = w := by clear b0; subst hK e; grind
  exact ⟨div_next (k := 0) z b0 ((Nat.div_one op : op / 2 ^ 0 = op)),
    fld_first z b0⟩

theorem lay16 {w K x0 : Nat} (op c0 c1 : Nat) (h0 : x0 < 64)
    (hK : K = op * 67108864 + c0 + c1 * 1048576) (hc : c0 < 16384 ∧ c1 < 64)
    (e : K + x0 * 16384 = w) :
    w / 2 ^ 26 = op ∧ fld w 0 14 = c0 ∧ fld w 20 6 = c1 ∧ fld w 14 6 = x0 := by
  obtain ⟨b0, b1⟩ := hc
  have z : c0 + 2 ^ 14 * (x0 + 2 ^ 6 * (c1 + 2 ^ 6 * op)) = w := by clear h0 b0 b1; subst hK e; grind
  exact ⟨div_next (k := 12) z b0 (div_next (k := 6) rfl h0 (div_next (k := 0) rfl b1 ((Nat.div_one op : op / 2 ^ 0 = op)))),
    fld_first z b0,
    fld_next (lo := 6) z b0 (fld_next (lo := 0) rfl h0 (fld_first rfl b1)),
    fld_next (lo := 0) z b0 (fld_first rfl h0)⟩

theorem lay17 {w K x0 x1 : Nat} (op c0 : Nat) (h0 : x0 < 64) (h1 : x1 < 64)
    (hK : K = op * 67108864 + c0) (hc : c0 < 16384)
    (e : K + x0 * 1048576 + x1 * 16384 = w) :
    w / 2 ^ 26 = op ∧ fld w 0 14 = c0 ∧ fld w 20 6 = x0 ∧ fld w 14 6 = x1 := by
  have b0 := hc
  have z : c0 + 2 ^ 14 * (x1 + 2 ^ 6 * (x0 + 2 ^ 6 * op)) = w := by clear h0 h1 b0; subst hK e; grind
  exact ⟨div_next (k := 12) z b0 (div_next (k := 6) rfl h1 (div_next (k := 0) rfl h0 ((Nat.div_one op : op / 2 ^ 0 = op)))),
    fld_first z b0,
    fld_next (lo := 6) z b0 (fld_next (lo := 0) rfl h1 (fld_first rfl h0)),
    fld_next (lo := 0) z b0 (fld_first rfl h1)⟩

theorem lay18 {w K x0 : Nat} (op c0 : Nat) (h0 : x0 < 256)
    (hK : K = op * 67108864 + c0 * 256) (hc : c0 < 262144)
    (e : K + x0 = w) :
    w / 2 ^ 26 = op ∧ fld w 8 18 = c0 ∧ fld w 0 8 = x0 := by
  have b0 := hc
  have z : x0 + 2 ^ 8 * (c0 + 2 ^ 18 * op) = w := by clear h0 b0; subst hK e; grind
  exact ⟨div_next (k := 18) z h0 (div_next (k := 0) rfl b0 ((Nat.div_one op : op / 2 ^ 0 = op))),
    fld_next (lo := 0) z h0 (fld_first rfl b0),
    fld_first z h0⟩

theorem lay19 {w K x0 x1 x2 x3 x4 : Nat} (op c0 : Nat) (h0 : x0 < 64) (h1 : x1 < 64) (h2 : x2 < 64) (h3 : x3 < 4) (h4 : x4 < 8)
    (hK : K = op * 67108864 + c0 * 8) (hc : c0 < 8)
    (e : K + x0 * 1048576 + x1 * 16384 + x2 * 256 + x3 * 64 + x4 = w) :
    w / 2 ^ 26 = op ∧ fld w 3 3 = c0 ∧ fld w 20 6 = x0 ∧ fld w 14 6 = x1 ∧ fld w 8 6 = x2 ∧ fld w 6 2 = x3 ∧ fld w 0 3 = x4 := by
  have b0 := hc
  have z : x4 + 2 ^ 3 * (c0 + 2 ^ 3 * (x3 + 2 ^ 2 * (x2 + 2 ^ 6 * (x1 + 2 ^ 6 * (x0 + 2 ^ 6 * op))))) = w := by clear h0 h1 h2 h3 h4 b0; subst hK e; grind
  exact ⟨div_next (k := 23) z h4 (div_next (k := 20) rfl b0 (div_next (k := 18) rfl h3 (div_next (k := 12) rfl h2 (div_next (k := 6) rfl h1 (div_next (k := 0) rfl h0 ((Nat.div_one op : op / 2 ^ 0 = op))))))),
    fld_next (lo := 0) z h4 (fld_first rfl b0),
    fld_next (lo := 17) z h4 (fld_next (lo := 14) rfl b0 (fld_next (lo := 12) rfl h3 (fld_next (lo := 6) rfl h2 (fld_next (lo := 0) rfl h1 (fld_first rfl h0))))),
    fld_next (lo := 11) z h4 (fld_next (lo := 8) rfl b0 (fld_next (lo := 6) rfl h3 (fld_next (lo := 0) rfl h2 (fld_first rfl h1)))),
    fld_next (lo := 5) z h4 (fld_next (lo := 2) rfl b0 (fld_next (lo := 0) rfl h3 (fld_first rfl h2))),
    fld_next (lo := 3) z h4 (fld_next (lo := 0) rfl b0 (fld_first rfl h3)),
    fld_first z h4⟩

theorem lay20 {w K x0 x1 x2 x3 : Nat} (op c0 c1 : Nat) (h0 : x0 < 64) (h1 : x1 < 64) (h2 : x2 < 4) (h3 : x3 < 4)
    (hK : K = op * 67108864 + c0 * 4 + c1 * 256) (hc : c0 < 16 ∧ c1 < 64)
    (e : K + x0 * 1048576 + x1 * 16384 + x2 * 64 + x3 = w) :
    w / 2 ^ 26 = op ∧ fld w 2 4 = c0 ∧ fld w 8 6 = c1 ∧ fld w 20 6 = x0 ∧ fld w 14 6 = x1 ∧ fld w 6 2 = x2 ∧ fld w 0 2 = x3 := by
  obtain ⟨b0, b1⟩ := hc
  have z : x3 + 2 ^ 2 * (c0 + 2 ^ 4 * (x2 + 2 ^ 2 * (c1 + 2 ^ 6 * (x1 + 2 ^ 6 * (x0 + 2 ^ 6 * op))))) = w := by clear h0 h1 h2 h3 b0 b1; subst hK e; grind
  exact ⟨div_next (k := 24) z h3 (div_next (k := 20) rfl b0 (div_next (k := 18) rfl h2 (div_next (k := 12) rfl b1 (div_next (k := 6) rfl h1 (div_next (k := 0) rfl h0 ((Nat.div_one op : op / 2 ^ 0 = op))))))),
    fld_next (lo := 0) z h3 (fld_first rfl b0),
    fld_next (lo := 6) z h3 (fld_next (lo := 2) rfl b0 (fld_next (lo := 0) rfl h2 (fld_first rfl b1))),
    fld_next (lo := 18) z h3 (fld_next (lo := 14) rfl b0 (fld_next (lo := 12) rfl h2 (fld_next (lo := 6) rfl b1 (fld_next (lo := 0) rfl h1 (fld_first rfl h0))))),
    fld_next (lo := 12) z h3 (fld_next (lo := 8) rfl b0 (fld_next (lo := 6) rfl h2 (fld_next (lo := 0) rfl b1 (fld_first rfl h1)))),
    fld_next (lo := 4) z h3 (fld_next (lo := 0) rfl b0 (fld_first rfl h2)),
    fld_first z h3⟩

theorem lay21 {w K x0 x1 x2 x3 x4 x5 : Nat} (op c0 : Nat) (h0 : x0 < 64) (h1 : x1 < 64) (h2 : x2 < 32) (h3 : x3 < 4) (h4 : x4 < 2) (h5 : x5 < 32)
    (hK : K = op * 67108864 + c0 * 8192) (hc : c0 < 2)
    (e : K + x0 * 1048576 + x1 * 16384 + x2 * 256 + x3 * 64 + x4 * 32 + x5 = w) :
    w / 2 ^ 26 = op ∧ fld w 13 1 = c0 ∧ fld w 20 6 = x0 ∧ fld w 14 6 = x1 ∧ fld w 8 5 = x2 ∧ fld w 6 2 = x3 ∧ fld w 5 1 = x4 ∧ fld w 0 5 = x5 := by
  have b0 := hc
  have z : x5 + 2 ^ 5 * (x4 + 2 ^ 1 * (x3 + 2 ^ 2 * (x2 + 2 ^ 5 * (c0 + 2 ^ 1 * (x1 + 2 ^ 6 * (x0 + 2 ^ 6 * op)))))) = w := by clear h0 h1 h2 h3 h4 h5 b0; subst hK e; grind
  exact ⟨div_next (k := 21) z h5 (div_next (k := 20) rfl h4 (div_next (k := 18) rfl h3 (div_next (k := 13) rfl h2 (div_next (k := 12) rfl b0 (div_next (k := 6) rfl h1 (div_next (k := 0) rfl h0 ((Nat.div_one op : op / 2 ^ 0 = op)))))))),
    fld_next (lo := 8) z h5 (fld_next (lo := 7) rfl h4 (fld_next (lo := 5) rfl h3 (fld_next (lo := 0) rfl h2 (fld_first rfl b0)))),
    fld_next (lo := 15) z h5 (fld_next (lo := 14) rfl h4 (fld_next (lo := 12) rfl h3 (fld_next (lo := 7) rfl h2 (fld_next (lo := 6) rfl b0 (fld_next (lo := 0) rfl h1 (fld_first rfl h0)))))),
    fld_next (lo := 9) z h5 (fld_next (lo := 8) rfl h4 (fld_next (lo := 6) rfl h3 (fld_next (lo := 1) rfl h2 (fld_next (lo := 0) rfl b0 (fld_first rfl h1))))),
    fld_next (lo := 3) z h5 (fld_next (lo := 2) rfl h4 (fld_next (lo := 0) rfl h3 (fld_first rfl h2))),
    fld_next (lo := 1) z h5 (fld_next (lo := 0) rfl h4 (fld_first rfl h3)),
    fld_next (lo := 0) z h5 (fld_first rfl h4),
    fld_first z h5⟩

theorem lay22 {w K x0 x1 x2 x3 x4 : Nat} (op c0 : Nat) (h0 : x0 < 64) (h1 : x1 < 64) (h2 : x2 < 4) (h3 : x3 < 16) (h4 : x4 < 32)
    (hK : K = op * 67108864 + c0 * 512) (hc : c0 < 8)
    (e : K + x0 * 1048576 + x1 * 16384 + x2 * 4096 + x3 * 32 + x4 = w) :
    w / 2 ^ 26 = op ∧ fld w 9 3 = c0 ∧ fld w 20 6 = x0 ∧ fld w 14 6 = x1 ∧ fld w 12 2 = x2 ∧ fld w 5 4 = x3 ∧ fld w 0 5 = x4 := by
  have b0 := hc
  have z : x4 + 2 ^ 5 * (x3 + 2 ^ 4 * (c0 + 2 ^ 3 * (x2 + 2 ^ 2 * (x1 + 2 ^ 6 * (x0 + 2 ^ 6 * op))))) = w := by clear h0 h1 h2 h3 h4 b0; subst hK e; grind
  exact ⟨div_next (k := 21) z h4 (div_next (k := 17) rfl h3 (div_next (k := 14) rfl b0 (div_next (k := 12) rfl h2 (div_next (k := 6) rfl h1 (div_next (k := 0) rfl h0 ((Nat.div_one op : op / 2 ^ 0 = op))))))),
    fld_next (lo := 4) z h4 (fld_next (lo := 0) rfl h3 (fld_first rfl b0)),
    fld_next (lo := 15) z h4 (fld_next (lo := 11) rfl h3 (fld_next (lo := 8) rfl b0 (fld_next (lo := 6) rfl h2 (fld_next (lo := 0) rfl h1 (fld_first rfl h0))))),
    fld_next (lo := 9) z h4 (fld_next (lo := 5) rfl h3 (fld_next (lo := 2) rfl b0 (fld_next (lo := 0) rfl h2 (fld_first rfl h1)))),
    fld_next (lo := 7) z h4 (fld_next (lo := 3) rfl h3 (fld_next (lo := 0) rfl b0 (fld_first rfl h2))),
    fld_next (lo := 0) z h4 (fld_first rfl h3),
    fld_first z h4⟩

theorem lay23 {w K x0 x1 x2 x3 : Nat} (op c0 c1 : Nat) (h0 : x0 < 64) (h1 : x1 < 64) (h2 : x2 < 4) (h3 : x3 < 8)
    (hK : K = op * 67108864 + c0 * 8 + c1 * 256) (hc : c0 < 8 ∧ c1 < 64)
    (e : K + x0 * 1048576 + x1 * 16384 + x2 * 64 + x3 = w) :
    w / 2 ^ 26 = op ∧ fld w 3 3 = c0 ∧ fld w 8 6 = c1 ∧ fld w 20 6 = x0 ∧ fld w 14 6 = x1 ∧ fld w 6 2 = x2 ∧ fld w 0 3 = x3 := by
  obtain ⟨b0, b1⟩ := hc
  have z : x3 + 2 ^ 3 * (c0 + 2 ^ 3 * (x2 + 2 ^ 2 * (c1 + 2 ^ 6 * (x1 + 2 ^ 6 * (x0 + 2 ^ 6 * op))))) = w := by clear h0 h1 h2 h3 b0 b1; subst hK e; grind
  exact ⟨div_next (k := 23) z h3 (div_next (k := 20) rfl b0 (div_next (k := 18) rfl h2 (div_next (k := 12) rfl b1 (div_next (k := 6) rfl h1 (div_next (k := 0) rfl h0 ((Nat.div_one op : op / 2 ^ 0 = op))))))),
    fld_next (lo := 0) z h3 (fld_first rfl b0),
    fld_next (lo := 5) z h3 (fld_next (lo := 2) rfl b0 (fld_next (lo := 0) rfl h2 (fld_first rfl b1))),
    fld_next (lo := 17) z h3 (fld_next (lo := 14) rfl b0 (fld_next (lo := 12) rfl h2 (fld_next (lo := 6) rfl b1 (fld_next (lo := 0) rfl h1 (fld_first rfl h0))))),
    fld_next (lo := 11) z h3 (fld_next (lo := 8) rfl b0 (fld_next (lo := 6) rfl h2 (fld_next (lo := 0) rfl b1 (fld_first rfl h1)))),
    fld_next (lo := 3) z h3 (fld_next (lo := 0) rfl b0 (fld_first rfl h2)),
    fld_first z h3⟩

theorem lay24 {w K x0 x1 : Nat} (op c0 c1 c2 : Nat) (h0 : x0 < 64) (h1 : x1 < 4)
    (hK : K = op * 67108864 + c0 + c1 * 256 + c2 * 1048576) (hc : c0 < 64 ∧ c1 < 64 ∧ c2 < 64)
    (e : K + x0 * 16384 + x1 * 64 = w) :
    w / 2 ^ 26 = op ∧ fld w 0 6 = c0 ∧ fld w 8 6 = c1 ∧ fld w 20 6 = c2 ∧ fld w 14 6 = x0 ∧ fld w 6 2 = x1 := by
  obtain ⟨b0, b1, b2⟩ := hc
  have z : c0 + 2 ^ 6 * (x1 + 2 ^ 2 * (c1 + 2 ^ 6 * (x0 + 2 ^ 6 * (c2 + 2 ^ 6 * op)))) = w := by clear h0 h1 b0 b1 b2; subst hK e; grind
  exact ⟨div_next (k := 20) z b0 (div_next (k := 18) rfl h1 (div_next (k := 12) rfl b1 (div_next (k := 6) rfl h0 (div_next (k := 0) rfl b2 ((Nat.div_one op : op / 2 ^ 0 = op)))))),
    fld_first z b0,
    fld_next (lo := 2) z b0 (fld_next (lo := 0) rfl h1 (fld_first rfl b1)),
    fld_next (lo := 14) z b0 (fld_next (lo := 12) rfl h1 (fld_next (lo := 6) rfl b1 (fld_next (lo := 0) rfl h0 (fld_first rfl b2)))),
    fld_next (lo := 8) z b0 (fld_next (lo := 6) rfl h1 (fld_next (lo := 0) rfl b1 (fld_first rfl h0))),
    fld_next (lo := 0) z b0 (fld_first rfl h1)⟩

theorem lay25 {w K x0 x1 x2 x3 x4 x5 : Nat} (op : Nat) (h0 : x0 < 64) (h1 : x1 < 64) (h2 : x2 < 4) (h3 : x3 < 8) (h4 : x4 < 8) (h5 : x5 < 64)
    (hK : K = op * 67108864)
    (e : K + x0 * 1048576 + x1 * 16384 + x2 * 4096 + x3 * 512 + x4 * 64 + x5 = w) :
    w / 2 ^ 26 = op ∧ fld w 20 6 = x0 ∧ fld w 14 6 = x1 ∧ fld w 12 2 = x2 ∧ fld w 9 3 = x3 ∧ fld w 6 3 = x4 ∧ fld w 0 6 = x5 := by
  have z : x5 + 2 ^ 6 * (x4 + 2 ^ 3 * (x3 + 2 ^ 3 * (x2 + 2 ^ 2 * (x1 + 2 ^ 6 * (x0 + 2 ^ 6 * op))))) = w := by clear h0 h1 h2 h3 h4 h5; subst hK e; grind
  exact ⟨div_next (k := 20) z h5 (div_next (k := 17) rfl h4 (div_next (k := 14) rfl h3 (div_next (k := 12) rfl h2 (div_next (k := 6) rfl h1 (div_next (k := 0) rfl h0 ((Nat.div_one op : op / 2 ^ 0 = op))))))),
    fld_next (lo := 14) z h5 (fld_next (lo := 11) rfl h4 (fld_next (lo := 8) rfl h3 (fld_next (lo := 6) rfl h2 (fld_next (lo := 0) rfl h1 (fld_first rfl h0))))),
    fld_next (lo := 8) z h5 (fld_next (lo := 5) rfl h4 (fld_next (lo := 2) rfl h3 (fld_next (lo := 0) rfl h2 (fld_first rfl h1)))),
    fld_next (lo := 6) z h5 (fld_next (lo := 3) rfl h4 (fld_next (lo := 0) rfl h3 (fld_first rfl h2))),
    fld_next (lo := 3) z h5 (fld_next (lo := 0) rfl h4 (fld_first rfl h3)),
    fld_next (lo := 0) z h5 (fld_first rfl h4),
    fld_first z h5⟩

theorem lay26 {w K x0 x1 x2 x3 x4 : Nat} (op c0 : Nat) (h0 : x0 < 64) (h1 : x1 < 64) (h2 : x2 < 4) (h3 : x3 < 8) (h4 : x4 < 64)
    (hK : K = op * 67108864 + c0 * 64) (hc : c0 < 8)
    (e : K + x0 * 1048576 + x1 * 16384 + x2 * 4096 + x3 * 512 + x4 = w) :
    w / 2 ^ 26 = op ∧ fld w 6 3 = c0 ∧ fld w 20 6 = x0 ∧ fld w 14 6 = x1 ∧ fld w 12 2 = x2 ∧ fld w 9 3 = x3 ∧ fld w 0 6 = x4 := by
  have b0 := hc
  have z : x4 + 2 ^ 6 * (c0 + 2 ^ 3 * (x3 + 2 ^ 3 * (x2 + 2 ^ 2 * (x1 + 2 ^ 6 * (x0 + 2 ^ 6 * op))))) = w := by clear h0 h1 h2 h3 h4 b0; subst hK e; grind
  exact ⟨div_next (k := 20) z h4 (div_next (k := 17) rfl b0 (div_next (k := 14) rfl h3 (div_next (k := 12) rfl h2 (div_next (k := 6) rfl h1 (div_next (k := 0) rfl h0 ((Nat.div_one op : op / 2 ^ 0 = op))))))),
    fld_next (lo := 0) z h4 (fld_first rfl b0),
    fld_next (lo := 14) z h4 (fld_next (lo := 11) rfl b0 (fld_next (lo := 8) rfl h3 (fld_next (lo := 6) rfl h2 (fld_next (lo := 0) rfl h1 (fld_first rfl h0))))),
    fld_next (lo := 8) z h4 (fld_next (lo := 5) rfl b0 (fld_next (lo := 2) rfl h3 (fld_next (lo := 0) rfl h2 (fld_first rfl h1)))),
    fld_next (lo := 6) z h4 (fld_next (lo := 3) rfl b0 (fld_next (lo := 0) rfl h3 (fld_first rfl h2))),
    fld_next (lo := 3) z h4 (fld_next (lo := 0) rfl b0 (fld_first rfl h3)),
    fld_first z h4⟩

theorem lay27 {w K x0 x1 x2 : Nat} (op c0 c1 : Nat) (h0 : x0 < 64) (h1 : x1 < 64) (h2 : x2 < 4)
    (hK : K = op * 67108864 + c0 + c1 * 1048576) (hc : c0 < 64 ∧ c1 < 64)
    (e : K + x0 * 16384 + x1 * 256 + x2 * 64 = w) :
    w / 2 ^ 26 = op ∧ fld w 0 6 = c0 ∧ fld w 20 6 = c1 ∧ fld w 14 6 = x0 ∧ fld w 8 6 = x1 ∧ fld w 6 2 = x2 := by
  obtain ⟨b0, b1⟩ := hc
  have z : c0 + 2 ^ 6 * (x2 + 2 ^ 2 * (x1 + 2 ^ 6 * (x0 + 2 ^ 6 * (c1 + 2 ^ 6 * op)))) = w := by clear h0 h1 h2 b0 b1; subst hK e; grind
  exact ⟨div_next (k := 20) z b0 (div_next (k := 18) rfl h2 (div_next (k := 12) rfl h1 (div_next (k := 6) rfl h0 (div_next (k := 0) rfl b1 ((Nat.div_one op : op / 2 ^ 0 = op)))))),
    fld_first z b0,
    fld_next (lo := 14) z b0 (fld_next (lo := 12) rfl h2 (fld_next (lo := 6) rfl h1 (fld_next (lo := 0) rfl h0 (fld_first rfl b1)))),
    fld_next (lo := 8) z b0 (fld_next (lo := 6) rfl h2 (fld_next (lo := 0) rfl h1 (fld_first rfl h0))),
    fld_next (lo := 2) z b0 (fld_next (lo := 0) rfl h2 (fld_first rfl h1)),
    fld_next (lo := 0) z b0 (fld_first rfl h2)⟩

theorem lay28 {w K x0 x1 : Nat} (op c0 c1 c2 : Nat) (h0 : x0 < 64) (h1 : x1 < 16)
    (hK : K = op * 67108864 + c0 + c1 * 4096 + c2 * 1048576) (hc : c0 < 256 ∧ c1 < 4 ∧ c2 < 64)
    (e : K + x0 * 16384 + x1 * 256 = w) :
    w / 2 ^ 26 = op ∧ fld w 0 8 = c0 ∧ fld w 12 2 = c1 ∧ fld w 20 6 = c2 ∧ fld w 14 6 = x0 ∧ fld w 8 4 = x1 := by
  obtain ⟨b0, b1, b2⟩ := hc
  have z : c0 + 2 ^ 8 * (x1 + 2 ^ 4 * (c1 + 2 ^ 2 * (x0 + 2 ^ 6 * (c2 + 2 ^ 6 * op)))) = w := by clear h0 h1 b0 b1 b2; subst hK e; grind
  exact ⟨div_next (k := 18) z b0 (div_next (k := 14) rfl h1 (div_next (k := 12) rfl b1 (div_next (k := 6) rfl h0 (div_next (k := 0) rfl b2 ((Nat.div_one op : op / 2 ^ 0 = op)))))),
    fld_first z b0,
    fld_next (lo := 4) z b0 (fld_next (lo := 0) rfl h1 (fld_first rfl b1)),
    fld_next (lo := 12) z b0 (fld_next (lo := 8) rfl h1 (fld_next (lo := 6) rfl b1 (fld_next (lo := 0) rfl h0 (fld_first rfl b2)))),
    fld_next (lo := 6) z b0 (fld_next (lo := 2) rfl h1 (fld_next (lo := 0) rfl b1 (fld_first rfl h0))),
    fld_next (lo := 0) z b0 (fld_first rfl h1)⟩

theorem lay29 {w K x0 : Nat} (op c0 c1 : Nat) (h0 : x0 < 16)
    (hK : K = op * 67108864 + c0 + c1 * 4096) (hc : c0 < 256 ∧ c1 < 16384)
    (e : K + x0 * 256 = w) :
    w / 2 ^ 26 = op ∧ fld w 0 8 = c0 ∧ fld w 12 14 = c1 ∧ fld w 8 4 = x0 := by
  obtain ⟨b0, b1⟩ := hc
  have z : c0 + 2 ^ 8 * (x0 + 2 ^ 4 * (c1 + 2 ^ 14 * op)) = w := by clear h0 b0 b1; subst hK e; grind
  exact ⟨div_next (k := 18) z b0 (div_next (k := 14) rfl h0 (div_next (k := 0) rfl b1 ((Nat.div_one op : op / 2 ^ 0 = op)))),
    fld_first z b0,
    fld_next (lo := 4) z b0 (fld_next (lo := 0) rfl h0 (fld_first rfl b1)),
    fld_next (lo := 0) z b0 (fld_first rfl h0)⟩

theorem lay30 {w K x0 x1 x2 x3 x4 x5 : Nat} (op : Nat) (h0 : x0 < 64) (h1 : x1 < 64) (h2 : x2 < 64) (h3 : x3 < 8) (h4 : x4 < 8) (h5 : x5 < 4)
    (hK : K = op * 67108864)
    (e : K + x0 * 1048576 + x1 * 16384 + x2 * 256 + x3 * 32 + x4 * 4 + x5 = w) :
    w / 2 ^ 26 = op ∧ fld w 20 6 = x0 ∧ fld w 14 6 = x1 ∧ fld w 8 6 = x2 ∧ fld w 5 3 = x3 ∧ fld w 2 3 = x4 ∧ fld w 0 2 = x5 := by
  have z : x5 + 2 ^ 2 * (x4 + 2 ^ 3 * (x3 + 2 ^ 3 * (x2 + 2 ^ 6 * (x1 + 2 ^ 6 * (x0 + 2 ^ 6 * op))))) = w := by clear h0 h1 h2 h3 h4 h5; subst hK e; grind
  exact ⟨div_next (k := 24) z h5 (div_next (k := 21) rfl h4 (div_next (k := 18) rfl h3 (div_next (k := 12) rfl h2 (div_next (k := 6) rfl h1 (div_next (k := 0) rfl h0 ((Nat.div_one op : op / 2 ^ 0 = op))))))),
    fld_next (lo := 18) z h5 (fld_next (lo := 15) rfl h4 (fld_next (lo := 12) rfl h3 (fld_next (lo := 6) rfl h2 (fld_next (lo := 0) rfl h1 (fld_first rfl h0))))),
    fld_next (lo := 12) z h5 (fld_next (lo := 9) rfl h4 (fld_next (lo := 6) rfl h3 (fld_next (lo := 0) rfl h2 (fld_first rfl h1)))),
    fld_next (lo := 6) z h5 (fld_next (lo := 3) rfl h4 (fld_next (lo := 0) rfl h3 (fld_first rfl h2))),
    fld_next (lo := 3) z h5 (fld_next (lo := 0) rfl h4 (fld_first rfl h3)),
    fld_next (lo := 0) z h5 (fld_first rfl h4),
    fld_first z h5⟩

theorem lay31 {w K x0 x1 x2 x3 x4 : Nat} (op c0 : Nat) (h0 : x0 < 64) (h1 : x1 < 64) (h2 : x2 < 64) (h3 : x3 < 8) (h4 : x4 < 8)
    (hK : K = op * 67108864 + c0) (hc : c0 < 4)
    (e : K + x0 * 1048576 + x1 * 16384 + x2 * 256 + x3 * 32 + x4 * 4 = w) :
    w / 2 ^ 26 = op ∧ fld w 0 2 = c0 ∧ fld w 20 6 = x0 ∧ fld w 14 6 = x1 ∧ fld w 8 6 = x2 ∧ fld w 5 3 = x3 ∧ fld w 2 3 = x4 := by
  have b0 := hc
  have z : c0 + 2 ^ 2 * (x4 + 2 ^ 3 * (x3 + 2 ^ 3 * (x2 + 2 ^ 6 * (x1 + 2 ^ 6 * (x0 + 2 ^ 6 * op))))) = w := by clear h0 h1 h2 h3 h4 b0; subst hK e; grind
  exact ⟨div_next (k := 24) z b0 (div_next (k := 21) rfl h4 (div_next (k := 18) rfl h3 (div_next (k := 12) rfl h2 (div_next (k := 6) rfl h1 (div_next (k := 0) rfl h0 ((Nat.div_one op : op / 2 ^ 0 = op))))))),
    fld_first z b0,
    fld_next (lo := 18) z b0 (fld_next (lo := 15) rfl h4 (fld_next (lo := 12) rfl h3 (fld_next (lo := 6) rfl h2 (fld_next (lo := 0) rfl h1 (fld_first rfl h0))))),
    fld_next (lo := 12) z b0 (fld_next (lo := 9) rfl h4 (fld_next (lo := 6) rfl h3 (fld_next (lo := 0) rfl h2 (fld_first rfl h1)))),
    fld_next (lo := 6) z b0 (fld_next (lo := 3) rfl h4 (fld_next (lo := 0) rfl h3 (fld_first rfl h2))),
    fld_next (lo := 3) z b0 (fld_next (lo := 0) rfl h4 (fld_first rfl h3)),
    fld_next (lo := 0) z b0 (fld_first rfl h4)⟩

theorem lay32 {w K x0 x1 x2 x3 x4 x5 : Nat} (op c0 : Nat) (h0 : x0 < 64) (h1 : x1 < 64) (h2 : x2 < 64) (h3 : x3 < 8) (h4 : x4 < 8) (h5 : x5 < 2)
    (hK : K = op * 67108864 + c0 * 2) (hc : c0 < 2)
    (e : K + x0 * 1048576 + x1 * 16384 + x2 * 256 + x3 * 32 + x4 * 4 + x5 = w) :
    w / 2 ^ 26 = op ∧ fld w 1 1 = c0 ∧ fld w 20 6 = x0 ∧ fld w 14 6 = x1 ∧ fld w 8 6 = x2 ∧ fld w 5 3 = x3 ∧ fld w 2 3 = x4 ∧ fld w 0 1 = x5 := by
  have b0 := hc
  have z : x5 + 2 ^ 1 * (c0 + 2 ^ 1 * (x4 + 2 ^ 3 * (x3 + 2 ^ 3 * (x2 + 2 ^ 6 * (x1 + 2 ^ 6 * (x0 + 2 ^ 6 * op)))))) = w := by clear h0 h1 h2 h3 h4 h5 b0; subst hK e; grind
  exact ⟨div_next (k := 25) z h5 (div_next (k := 24) rfl b0 (div_next (k := 21) rfl h4 (div_next (k := 18) rfl h3 (div_next (k := 12) rfl h2 (div_next (k := 6) rfl h1 (div_next (k := 0) rfl h0 ((Nat.div_one op : op / 2 ^ 0 = op)))))))),
    fld_next (lo := 0) z h5 (fld_first rfl b0),
    fld_next (lo := 19) z h5 (fld_next (lo := 18) rfl b0 (fld_next (lo := 15) rfl h4 (fld_next (lo := 12) rfl h3 (fld_next (lo := 6) rfl h2 (fld_next (lo := 0) rfl h1 (fld_first rfl h0)))))),
    fld_next (lo := 13) z h5 (fld_next (lo := 12) rfl b0 (fld_next (lo := 9) rfl h4 (fld_next (lo := 6) rfl h3 (fld_next (lo := 0) rfl h2 (fld_first rfl h1))))),
    fld_next (lo := 7) z h5 (fld_next (lo := 6) rfl b0 (fld_next (lo := 3) rfl h4 (fld_next (lo := 0) rfl h3 (fld_first rfl h2)))),
    fld_next (lo := 4) z h5 (fld_next (lo := 3) rfl b0 (fld_next (lo := 0) rfl h4 (fld_first rfl h3))),
    fld_next (lo := 1) z h5 (fld_next (lo := 0) rfl b0 (fld_first rfl h4)),
    fld_first z h5⟩

theorem lay33 {w K x0 x1 x2 x3 x4 x5 : Nat} (op c0 : Nat) (h0 : x0 < 16) (h1 : x1 < 64) (h2 : x2 < 64) (h3 : x3 < 8) (h4 : x4 < 8) (h5 : x5 < 4)
    (hK : K = op * 67108864 + c0 * 16777216) (hc : c0 < 4)
    (e : K + x0 * 1048576 + x1 * 16384 + x2 * 256 + x3 * 32 + x4 * 4 + x5 = w) :
    w / 2 ^ 26 = op ∧ fld w 24 2 = c0 ∧ fld w 20 4 = x0 ∧ fld w 14 6 = x1 ∧ fld w 8 6 = x2 ∧ fld w 5 3 = x3 ∧ fld w 2 3 = x4 ∧ fld w 0 2 = x5 := by
  have b0 := hc
  have z : x5 + 2 ^ 2 * (x4 + 2 ^ 3 * (x3 + 2 ^ 3 * (x2 + 2 ^ 6 * (x1 + 2 ^ 6 * (x0 + 2 ^ 4 * (c0 + 2 ^ 2 * op)))))) = w := by clear h0 h1 h2 h3 h4 h5 b0; subst hK e; grind
  exact ⟨div_next (k := 24) z h5 (div_next (k := 21) rfl h4 (div_next (k := 18) rfl h3 (div_next (k := 12) rfl h2 (div_next (k := 6) rfl h1 (div_next (k := 2) rfl h0 (div_next (k := 0) rfl b0 ((Nat.div_one op : op / 2 ^ 0 = op)))))))),
    fld_next (lo := 22) z h5 (fld_next (lo := 19) rfl h4 (fld_next (lo := 16) rfl h3 (fld_next (lo := 10) rfl h2 (fld_next (lo := 4) rfl h1 (fld_next (lo := 0) rfl h0 (fld_first rfl b0)))))),
    fld_next (lo := 18) z h5 (fld_next (lo := 15) rfl h4 (fld_next (lo := 12) rfl h3 (fld_next (lo := 6) rfl h2 (fld_next (lo := 0) rfl h1 (fld_first rfl h0))))),
    fld_next (lo := 12) z h5 (fld_next (lo := 9) rfl h4 (fld_next (lo := 6) rfl h3 (fld_next (lo := 0) rfl h2 (fld_first rfl h1)))),
    fld_next (lo := 6) z h5 (fld_next (lo := 3) rfl h4 (fld_next (lo := 0) rfl h3 (fld_first rfl h2))),
    fld_next (lo := 3) z h5 (fld_next (lo := 0) rfl h4 (fld_first rfl h3)),
    fld_next (lo := 0) z h5 (fld_first rfl h4),
    fld_first z h5⟩

theorem lay34 {w K x0 x1 x2 x3 x4 : Nat} (op c0 : Nat) (h0 : x0 < 64) (h1 : x1 < 64) (h2 : x2 < 8) (h3 : x3 < 8) (h4 : x4 < 4)
    (hK : K = op * 67108864 + c0 * 256) (hc : c0 < 64)
    (e : K + x0 * 1048576 + x1 * 16384 + x2 * 32 + x3 * 4 + x4 = w) :
    w / 2 ^ 26 = op ∧ fld w 8 6 = c0 ∧ fld w 20 6 = x0 ∧ fld w 14 6 = x1 ∧ fld w 5 3 = x2 ∧ fld w 2 3 = x3 ∧ fld w 0 2 = x4 := by
  have b0 := hc
  have z : x4 + 2 ^ 2 * (x3 + 2 ^ 3 * (x2 + 2 ^ 3 * (c0 + 2 ^ 6 * (x1 + 2 ^ 6 * (x0 + 2 ^ 6 * op))))) = w := by clear h0 h1 h2 h3 h4 b0; subst hK e; grind
  exact ⟨div_next (k := 24) z h4 (div_next (k := 21) rfl h3 (div_next (k := 18) rfl h2 (div_next (k := 12) rfl b0 (div_next (k := 6) rfl h1 (div_next (k := 0) rfl h0 ((Nat.div_one op : op / 2 ^ 0 = op))))))),
    fld_next (lo := 6) z h4 (fld_next (lo := 3) rfl h3 (fld_next (lo := 0) rfl h2 (fld_first rfl b0))),
    fld_next (lo := 18) z h4 (fld_next (lo := 15) rfl h3 (fld_next (lo := 12) rfl h2 (fld_next (lo := 6) rfl b0 (fld_next (lo := 0) rfl h1 (fld_first rfl h0))))),
    fld_next (lo := 12) z h4 (fld_next (lo := 9) rfl h3 (fld_next (lo := 6) rfl h2 (fld_next (lo := 0) rfl b0 (fld_first rfl h1)))),
    fld_next (lo := 3) z h4 (fld_next (lo := 0) rfl h3 (fld_first rfl h2)),
    fld_next (lo := 0) z h4 (fld_first rfl h3),
    fld_first z h4⟩

theorem lay35 {w K x0 : Nat} (op c0 : Nat) (h0 : x0 < 8)
    (hK : K = op * 67108864 + c0 * 8) (hc : c0 < 8388608)
    (e : K + x0 = w) :
    w / 2 ^ 26 = op ∧ fld w 3 23 = c0 ∧ fld w 0 3 = x0 := by
  have b0 := hc
  have z : x0 + 2 ^ 3 * (c0 + 2 ^ 23 * op) = w := by clear h0 b0; subst hK e; grind
  exact ⟨div_next (k := 23) z h0 (div_next (k := 0) rfl b0 ((Nat.div_one op : op / 2 ^ 0 = op))),
    fld_next (lo := 0) z h0 (fld_first rfl b0),
    fld_first z h0⟩

theorem lay36 {w K x0 x1 x2 x3 : Nat} (op c0 : Nat) (h0 : x0 < 64) (h1 : x1 < 64) (h2 : x2 < 16) (h3 : x3 < 16)
    (hK : K = op * 67108864 + c0 * 256) (hc : c0 < 64)
    (e : K + x0 * 1048576 + x1 * 16384 + x2 * 16 + x3 = w) :
    w / 2 ^ 26 = op ∧ fld w 8 6 = c0 ∧ fld w 20 6 = x0 ∧ fld w 14 6 = x1 ∧ fld w 4 4 = x2 ∧ fld w 0 4 = x3 := by
  have b0 := hc
  have z : x3 + 2 ^ 4 * (x2 + 2 ^ 4 * (c0 + 2 ^ 6 * (x1 + 2 ^ 6 * (x0 + 2 ^ 6 * op)))) = w := by clear h0 h1 h2 h3 b0; subst hK e; grind
  exact ⟨div_next (k := 22) z h3 (div_next (k := 18) rfl h2 (div_next (k := 12) rfl b0 (div_next (k := 6) rfl h1 (div_next (k := 0) rfl h0 ((Nat.div_one op : op / 2 ^ 0 = op)))))),
    fld_next (lo := 4) z h3 (fld_next (lo := 0) rfl h2 (fld_first rfl b0)),
    fld_next (lo := 16) z h3 (fld_next (lo := 12) rfl h2 (fld_next (lo := 6) rfl b0 (fld_next (lo := 0) rfl h1 (fld_first rfl h0)))),
    fld_next (lo := 10) z h3 (fld_next (lo := 6) rfl h2 (fld_next (lo := 0) rfl b0 (fld_first rfl h1))),
    fld_next (lo := 0) z h3 (fld_first rfl h2),
    fld_first z h3⟩

theorem lay37 {w K x0 : Nat} (op c0 : Nat) (h0 : x0 < 4096)
    (hK : K = op * 67108864 + c0 * 4096) (hc : c0 < 16384)
    (e : K + x0 = w) :
    w / 2 ^ 26 = op ∧ fld w 12 14 = c0 ∧ fld w 0 12 = x0 := by
  have b0 := hc
  have z : x0 + 2 ^ 12 * (c0 + 2 ^ 14 * op) = w := by clear h0 b0; subst hK e; grind
  exact ⟨div_next (k := 14) z h0 (div_next (k := 0) rfl b0 ((Nat.div_one op : op / 2 ^ 0 = op))),
    fld_next (lo := 0) z h0 (fld_first rfl b0),
    fld_first z h0⟩

theorem lay38 {w K x0 : Nat} (op c0 : Nat) (h0 : x0 < 524288)
    (hK : K = op * 67108864 + c0 * 524288) (hc : c0 < 128)
    (e : K + x0 = w) :
    w / 2 ^ 26 = op ∧ fld w 19 7 = c0 ∧ fld w 0 19 = x0 := by
  have b0 := hc
  have z : x0 + 2 ^ 19 * (c0 + 2 ^ 7 * op) = w := by clear h0 b0; subst hK e; grind
  exact ⟨div_next (k := 7) z h0 (div_next (k := 0) rfl b0 ((Nat.div_one op : op / 2 ^ 0 = op))),
    fld_next (lo := 0) z h0 (fld_first rfl b0),
    fld_first z h0⟩

theorem lay39 {w K x0 x1 : Nat} (op c0 : Nat) (h0 : x0 < 64) (h1 : x1 < 4096)
    (hK : K = op * 67108864 + c0) (hc : c0 < 256)
    (e : K + x0 * 1048576 + x1 * 256 = w) :
    w / 2 ^ 26 = op ∧ fld w 0 8 = c0 ∧ fld w 20 6 = x0 ∧ fld w 8 12 = x1 := by
  have b0 := hc
  have z : c0 + 2 ^ 8 * (x1 + 2 ^ 12 * (x0 + 2 ^ 6 * op)) = w := by clear h0 h1 b0; subst hK e; grind
  exact ⟨div_next (k := 18) z b0 (div_next (k := 6) rfl h1 (div_next (k := 0) rfl h0 ((Nat.div_one op : op / 2 ^ 0 = op)))),
    fld_first z b0,
    fld_next (lo := 12) z b0 (fld_next (lo := 0) rfl h1 (fld_first rfl h0)),
    fld_next (lo := 0) z b0 (fld_first rfl h1)⟩

theorem lay40 {w K x0 : Nat} (op c0 c1 : Nat) (h0 : x0 < 4096)
    (hK : K = op * 67108864 + c0 + c1 * 1048576) (hc : c0 < 256 ∧ c1 < 64)
    (e : K + x0 * 256 = w) :
    w / 2 ^ 26 = op ∧ fld w 0 8 = c0 ∧ fld w 20 6 = c1 ∧ fld w 8 12 = x0 := by
  obtain ⟨b0, b1⟩ := hc
  have z : c0 + 2 ^ 8 * (x0 + 2 ^ 12 * (c1 + 2 ^ 6 * op)) = w := by clear h0 b0 b1; subst hK e; grind
  exact ⟨div_next (k := 18) z b0 (div_next (k := 6) rfl h0 (div_next (k := 0) rfl b1 ((Nat.div_one op : op / 2 ^ 0 = op)))),
    fld_first z b0,
    fld_next (lo := 12) z b0 (fld_next (lo := 0) rfl h0 (fld_first rfl b1)),
    fld_next (lo := 0) z b0 (fld_first rfl h0)⟩

theorem lay41 {w K x0 x1 : Nat} (op c0 c1 : Nat) (h0 : x0 < 64) (h1 : x1 < 16)
    (hK : K = op * 67108864 + c0 + c1 * 4096) (hc : c0 < 256 ∧ c1 < 256)
    (e : K + x0 * 1048576 + x1 * 256 = w) :
    w / 2 ^ 26 = op ∧ fld w 0 8 = c0 ∧ fld w 12 8 = c1 ∧ fld w 20 6 = x0 ∧ fld w 8 4 = x1 := by
  obtain ⟨b0, b1⟩ := hc
  have z : c0 + 2 ^ 8 * (x1 + 2 ^ 4 * (c1 + 2 ^ 8 * (x0 + 2 ^ 6 * op))) = w := by clear h0 h1 b0 b1; subst hK e; grind
  exact ⟨div_next (k := 18) z b0 (div_next (k := 14) rfl h1 (div_next (k := 6) rfl b1 (div_next (k := 0) rfl h0 ((Nat.div_one op : op / 2 ^ 0 = op))))),
    fld_first z b0,
    fld_next (lo := 4) z b0 (fld_next (lo := 0) rfl h1 (fld_first rfl b1)),
    fld_next (lo := 12) z b0 (fld_next (lo := 8) rfl h1 (fld_next (lo := 0) rfl b1 (fld_first rfl h0))),
    fld_next (lo := 0) z b0 (fld_first rfl h1)⟩

theorem lay42 {w K x0 : Nat} (op c0 : Nat) (h0 : x0 < 64)
    (hK : K = op * 67108864 + c0) (hc : c0 < 1048576)
    (e : K + x0 * 1048576 = w) :
    w / 2 ^ 26 = op ∧ fld w 0 20 = c0 ∧ fld w 20 6 = x0 := by
  have b0 := hc
  have z : c0 + 2 ^ 20 * (x0 + 2 ^ 6 * op) = w := by clear h0 b0; subst hK e; grind
  exact ⟨div_next (k := 6) z b0 (div_next (k := 0) rfl h0 ((Nat.div_one op : op / 2 ^ 0 = op))),
    fld_first z b0,
    fld_next (lo := 0) z b0 (fld_first rfl h0)⟩

theorem lay43 {w K x0 x1 x2 x3 x4 : Nat} (op c0 c1 : Nat) (h0 : x0 < 4) (h1 : x1 < 4) (h2 : x2 < 256) (h3 : x3 < 64) (h4 : x4 < 8)
    (hK : K = op * 67108864 + c0 * 8 + c1 * 4194304) (hc : c0 < 2 ∧ c1 < 16)
    (e : K + x0 * 1048576 + x1 * 262144 + x2 * 1024 + x3 * 16 + x4 = w) :
    w / 2 ^ 26 = op ∧ fld w 3 1 = c0 ∧ fld w 22 4 = c1 ∧ fld w 20 2 = x0 ∧ fld w 18 2 = x1 ∧ fld w 10 8 = x2 ∧ fld w 4 6 = x3 ∧ fld w 0 3 = x4 := by
  obtain ⟨b0, b1⟩ := hc
  have z : x4 + 2 ^ 3 * (c0 + 2 ^ 1 * (x3 + 2 ^ 6 * (x2 + 2 ^ 8 * (x1 + 2 ^ 2 * (x0 + 2 ^ 2 * (c1 + 2 ^ 4 * op)))))) = w := by clear h0 h1 h2 h3 h4 b0 b1; subst hK e; grind
  exact ⟨div_next (k := 23) z h4 (div_next (k := 22) rfl b0 (div_next (k := 16) rfl h3 (div_next (k := 8) rfl h2 (div_next (k := 6) rfl h1 (div_next (k := 4) rfl h0 (div_next (k := 0) rfl b1 ((Nat.div_one op : op / 2 ^ 0 = op)))))))),
    fld_next (lo := 0) z h4 (fld_first rfl b0),
    fld_next (lo := 19) z h4 (fld_next (lo := 18) rfl b0 (fld_next (lo := 12) rfl h3 (fld_next (lo := 4) rfl h2 (fld_next (lo := 2) rfl h1 (fld_next (lo := 0) rfl h0 (fld_first rfl b1)))))),
    fld_next (lo := 17) z h4 (fld_next (lo := 16) rfl b0 (fld_next (lo := 10) rfl h3 (fld_next (lo := 2) rfl h2 (fld_next (lo := 0) rfl h1 (fld_first rfl h0))))),
    fld_next (lo := 15) z h4 (fld_next (lo := 14) rfl b0 (fld_next (lo := 8) rfl h3 (fld_next (lo := 0) rfl h2 (fld_first rfl h1)))),
    fld_next (lo := 7) z h4 (fld_next (lo := 6) rfl b0 (fld_next (lo := 0) rfl h3 (fld_first rfl h2))),
    fld_next (lo := 1) z h4 (fld_next (lo := 0) rfl b0 (fld_first rfl h3)),
    fld_first z h4⟩

theorem lay44 {w K x0 x1 x2 x3 x4 : Nat} (op c0 c1 c2 : Nat) (h0 : x0 < 4) (h1 : x1 < 4) (h2 : x2 < 256) (h3 : x3 < 4) (h4 : x4 < 8)
    (hK : K = op * 67108864 + c0 * 8 + c1 * 64 + c2 * 4194304) (hc : c0 < 2 ∧ c1 < 16 ∧ c2 < 16)
    (e : K + x0 * 1048576 + x1 * 262144 + x2 * 1024 + x3 * 16 + x4 = w) :
    w / 2 ^ 26 = op ∧ fld w 3 1 = c0 ∧ fld w 6 4 = c1 ∧ fld w 22 4 = c2 ∧ fld w 20 2 = x0 ∧ fld w 18 2 = x1 ∧ fld w 10 8 = x2 ∧ fld w 4 2 = x3 ∧ fld w 0 3 = x4 := by
  obtain ⟨b0, b1, b2⟩ := hc
  have z : x4 + 2 ^ 3 * (c0 + 2 ^ 1 * (x3 + 2 ^ 2 * (c1 + 2 ^ 4 * (x2 + 2 ^ 8 * (x1 + 2 ^ 2 * (x0 + 2 ^ 2 * (c2 + 2 ^ 4 * op))))))) = w := by clear h0 h1 h2 h3 h4 b0 b1 b2; subst hK e; grind
  exact ⟨div_next (k := 23) z h4 (div_next (k := 22) rfl b0 (div_next (k := 20) rfl h3 (div_next (k := 16) rfl b1 (div_next (k := 8) rfl h2 (div_next (k := 6) rfl h1 (div_next (k := 4) rfl h0 (div_next (k := 0) rfl b2 ((Nat.div_one op : op / 2 ^ 0 = op))))))))),
    fld_next (lo := 0) z h4 (fld_first rfl b0),
    fld_next (lo := 3) z h4 (fld_next (lo := 2) rfl b0 (fld_next (lo := 0) rfl h3 (fld_first rfl b1))),
    fld_next (lo := 19) z h4 (fld_next (lo := 18) rfl b0 (fld_next (lo := 16) rfl h3 (fld_next (lo := 12) rfl b1 (fld_next (lo := 4) rfl h2 (fld_next (lo := 2) rfl h1 (fld_next (lo := 0) rfl h0 (fld_first rfl b2))))))),
    fld_next (lo := 17) z h4 (fld_next (lo := 16) rfl b0 (fld_next (lo := 14) rfl h3 (fld_next (lo := 10) rfl b1 (fld_next (lo := 2) rfl h2 (fld_next (lo := 0) rfl h1 (fld_first rfl h0)))))),
    fld_next (lo := 15) z h4 (fld_next (lo := 14) rfl b0 (fld_next (lo := 12) rfl h3 (fld_next (lo := 8) rfl b1 (fld_next (lo := 0) rfl h2 (fld_first rfl h1))))),
    fld_next (lo := 7) z h4 (fld_next (lo := 6) rfl b0 (fld_next (lo := 4) rfl h3 (fld_next (lo := 0) rfl b1 (fld_first rfl h2)))),
    fld_next (lo := 1) z h4 (fld_next (lo := 0) rfl b0 (fld_first rfl h3)),
    fld_first z h4⟩

theorem lay45 {w K x0 x1 : Nat} (op c0 c1 c2 : Nat) (h0 : x0 < 4) (h1 : x1 < 64)
    (hK : K = op * 67108864 + c0 + c1 * 1024 + c2 * 4194304) (hc : c0 < 16 ∧ c1 < 1024 ∧ c2 < 16)
    (e : K + x0 * 1048576 + x1 * 16 = w) :
    w / 2 ^ 26 = op ∧ fld w 0 4 = c0 ∧ fld w 10 10 = c1 ∧ fld w 22 4 = c2 ∧ fld w 20 2 = x0 ∧ fld w 4 6 = x1 := by
  obtain ⟨b0, b1, b2⟩ := hc
  have z : c0 + 2 ^ 4 * (x1 + 2 ^ 6 * (c1 + 2 ^ 10 * (x0 + 2 ^ 2 * (c2 + 2 ^ 4 * op)))) = w := by clear h0 h1 b0 b1 b2; subst hK e; grind
  exact ⟨div_next (k := 22) z b0 (div_next (k := 16) rfl h1 (div_next (k := 6) rfl b1 (div_next (k := 4) rfl h0 (div_next (k := 0) rfl b2 ((Nat.div_one op : op / 2 ^ 0 = op)))))),
    fld_first z b0,
    fld_next (lo := 6) z b0 (fld_next (lo := 0) rfl h1 (fld_first rfl b1)),
    fld_next (lo := 18) z b0 (fld_next (lo := 12) rfl h1 (fld_next (lo := 2) rfl b1 (fld_next (lo := 0) rfl h0 (fld_first rfl b2)))),
    fld_next (lo := 16) z b0 (fld_next (lo := 10) rfl h1 (fld_next (lo := 0) rfl b1 (fld_first rfl h0))),
    fld_next (lo := 0) z b0 (fld_first rfl h1)⟩

theorem lay46 {w K x0 x1 x2 : Nat} (op c0 c1 : Nat) (h0 : x0 < 4) (h1 : x1 < 2) (h2 : x2 < 2)
    (hK : K = op * 67108864 + c0 + c1 * 4194304) (hc : c0 < 262144 ∧ c1 < 16)
    (e : K + x0 * 1048576 + x1 * 524288 + x2 * 262144 = w) :
    w / 2 ^ 26 = op ∧ fld w 0 18 = c0 ∧ fld w 22 4 = c1 ∧ fld w 20 2 = x0 ∧ fld w 19 1 = x1 ∧ fld w 18 1 = x2 := by
  obtain ⟨b0, b1⟩ := hc
  have z : c0 + 2 ^ 18 * (x2 + 2 ^ 1 * (x1 + 2 ^ 1 * (x0 + 2 ^ 2 * (c1 + 2 ^ 4 * op)))) = w := by clear h0 h1 h2 b0 b1; subst hK e; grind
  exact ⟨div_next (k := 8) z b0 (div_next (k := 7) rfl h2 (div_next (k := 6) rfl h1 (div_next (k := 4) rfl h0 (div_next (k := 0) rfl b1 ((Nat.div_one op : op / 2 ^ 0 = op)))))),
    fld_first z b0,
    fld_next (lo := 4) z b0 (fld_next (lo := 3) rfl h2 (fld_next (lo := 2) rfl h1 (fld_next (lo := 0) rfl h0 (fld_first rfl b1)))),
    fld_next (lo := 2) z b0 (fld_next (lo := 1) rfl h2 (fld_next (lo := 0) rfl h1 (fld_first rfl h0))),
    fld_next (lo := 1) z b0 (fld_next (lo := 0) rfl h2 (fld_first rfl h1)),
    fld_next (lo := 0) z b0 (fld_first rfl h2)⟩

theorem lay47 {w K x0 x1 x2 x3 : Nat} (op c0 c1 c2 c3 : Nat) (h0 : x0 < 4) (h1 : x1 < 2) (h2 : x2 < 64) (h3 : x3 < 8)
    (hK : K = op * 67108864 + c0 * 8 + c1 * 1024 + c2 * 524288 + c3 * 4194304) (hc : c0 < 2 ∧ c1 < 256 ∧ c2 < 2 ∧ c3 < 16)
    (e : K + x0 * 1048576 + x1 * 262144 + x2 * 16 + x3 = w) :
    w / 2 ^ 26 = op ∧ fld w 3 1 = c0 ∧ fld w 10 8 = c1 ∧ fld w 19 1 = c2 ∧ fld w 22 4 = c3 ∧ fld w 20 2 = x0 ∧ fld w 18 1 = x1 ∧ fld w 4 6 = x2 ∧ fld w 0 3 = x3 := by
  obtain ⟨b0, b1, b2, b3⟩ := hc
  have z : x3 + 2 ^ 3 * (c0 + 2 ^ 1 * (x2 + 2 ^ 6 * (c1 + 2 ^ 8 * (x1 + 2 ^ 1 * (c2 + 2 ^ 1 * (x0 + 2 ^ 2 * (c3 + 2 ^ 4 * op))))))) = w := by clear h0 h1 h2 h3 b0 b1 b2 b3; subst hK e; grind
  exact ⟨div_next (k := 23) z h3 (div_next (k := 22) rfl b0 (div_next (k := 16) rfl h2 (div_next (k := 8) rfl b1 (div_next (k := 7) rfl h1 (div_next (k := 6) rfl b2 (div_next (k := 4) rfl h0 (div_next (k := 0) rfl b3 ((Nat.div_one op : op / 2 ^ 0 = op))))))))),
    fld_next (lo := 0) z h3 (fld_first rfl b0),
    fld_next (lo := 7) z h3 (fld_next (lo := 6) rfl b0 (fld_next (lo := 0) rfl h2 (fld_first rfl b1))),
    fld_next (lo := 16) z h3 (fld_next (lo := 15) rfl b0 (fld_next (lo := 9) rfl h2 (fld_next (lo := 1) rfl b1 (fld_next (lo := 0) rfl h1 (fld_first rfl b2))))),
    fld_next (lo := 19) z h3 (fld_next (lo := 18) rfl b0 (fld_next (lo := 12) rfl h2 (fld_next (lo := 4) rfl b1 (fld_next (lo := 3) rfl h1 (fld_next (lo := 2) rfl b2 (fld_next (lo := 0) rfl h0 (fld_first rfl b3))))))),
    fld_next (lo := 17) z h3 (fld_next (lo := 16) rfl b0 (fld_next (lo := 10) rfl h2 (fld_next (lo := 2) rfl b1 (fld_next (lo := 1) rfl h1 (fld_next (lo := 0) rfl b2 (fld_first rfl h0)))))),
    fld_next (lo := 15) z h3 (fld_next (lo := 14) rfl b0 (fld_next (lo := 8) rfl h2 (fld_next (lo := 0) rfl b1 (fld_first rfl h1)))),
    fld_next (lo := 1) z h3 (fld_next (lo := 0) rfl b0 (fld_first rfl h2)),
    fld_first z h3⟩

theorem lay48 {w K x0 x1 x2 x3 : Nat} (op c0 c1 c2 c3 : Nat) (h0 : x0 < 4) (h1 : x1 < 2) (h2 : x2 < 4) (h3 : x3 < 8)
    (hK : K = op * 67108864 + c0 * 8 + c1 * 4096 + c2 * 524288 + c3 * 4194304) (hc : c0 < 128 ∧ c1 < 64 ∧ c2 < 2 ∧ c3 < 16)
    (e : K + x0 * 1048576 + x1 * 262144 + x2 * 1024 + x3 = w) :
    w / 2 ^ 26 = op ∧ fld w 3 7 = c0 ∧ fld w 12 6 = c1 ∧ fld w 19 1 = c2 ∧ fld w 22 4 = c3 ∧ fld w 20 2 = x0 ∧ fld w 18 1 = x1 ∧ fld w 10 2 = x2 ∧ fld w 0 3 = x3 := by
  obtain ⟨b0, b1, b2, b3⟩ := hc
  have z : x3 + 2 ^ 3 * (c0 + 2 ^ 7 * (x2 + 2 ^ 2 * (c1 + 2 ^ 6 * (x1 + 2 ^ 1 * (c2 + 2 ^ 1 * (x0 + 2 ^ 2 * (c3 + 2 ^ 4 * op))))))) = w := by clear h0 h1 h2 h3 b0 b1 b2 b3; subst hK e; grind
  exact ⟨div_next (k := 23) z h3 (div_next (k := 16) rfl b0 (div_next (k := 14) rfl h2 (div_next (k := 8) rfl b1 (div_next (k := 7) rfl h1 (div_next (k := 6) rfl b2 (div_next (k := 4) rfl h0 (div_next (k := 0) rfl b3 ((Nat.div_one op : op / 2 ^ 0 = op))))))))),
    fld_next (lo := 0) z h3 (fld_first rfl b0),
    fld_next (lo := 9) z h3 (fld_next (lo := 2) rfl b0 (fld_next (lo := 0) rfl h2 (fld_first rfl b1))),
    fld_next (lo := 16) z h3 (fld_next (lo := 9) rfl b0 (fld_next (lo := 7) rfl h2 (fld_next (lo := 1) rfl b1 (fld_next (lo := 0) rfl h1 (fld_first rfl b2))))),
    fld_next (lo := 19) z h3 (fld_next (lo := 12) rfl b0 (fld_next (lo := 10) rfl h2 (fld_next (lo := 4) rfl b1 (fld_next (lo := 3) rfl h1 (fld_next (lo := 2) rfl b2 (fld_next (lo := 0) rfl h0 (fld_first rfl b3))))))),
    fld_next (lo := 17) z h3 (fld_next (lo := 10) rfl b0 (fld_next (lo := 8) rfl h2 (fld_next (lo := 2) rfl b1 (fld_next (lo := 1) rfl h1 (fld_next (lo := 0) rfl b2 (fld_first rfl h0)))))),
    fld_next (lo := 15) z h3 (fld_next (lo := 8) rfl b0 (fld_next (lo := 6) rfl h2 (fld_next (lo := 0) rfl b1 (fld_first rfl h1)))),
    fld_next (lo := 7) z h3 (fld_next (lo := 0) rfl b0 (fld_first rfl h2)),
    fld_first z h3⟩

theorem lay49 {w K x0 x1 x2 x3 : Nat} (op c0 c1 c2 : Nat) (h0 : x0 < 4) (h1 : x1 < 2) (h2 : x2 < 16) (h3 : x3 < 2)
    (hK : K = op * 67108864 + c0 * 2 + c1 * 32768 + c2 * 4194304) (hc : c0 < 512 ∧ c1 < 32 ∧ c2 < 16)
    (e : K + x0 * 1048576 + x1 * 16384 + x2 * 1024 + x3 = w) :
    w / 2 ^ 26 = op ∧ fld w 1 9 = c0 ∧ fld w 15 5 = c1 ∧ fld w 22 4 = c2 ∧ fld w 20 2 = x0 ∧ fld w 14 1 = x1 ∧ fld w 10 4 = x2 ∧ fld w 0 1 = x3 := by
  obtain ⟨b0, b1, b2⟩ := hc
  have z : x3 + 2 ^ 1 * (c0 + 2 ^ 9 * (x2 + 2 ^ 4 * (x1 + 2 ^ 1 * (c1 + 2 ^ 5 * (x0 + 2 ^ 2 * (c2 + 2 ^ 4 * op)))))) = w := by clear h0 h1 h2 h3 b0 b1 b2; subst hK e; grind
  exact ⟨div_next (k := 25) z h3 (div_next (k := 16) rfl b0 (div_next (k := 12) rfl h2 (div_next (k := 11) rfl h1 (div_next (k := 6) rfl b1 (div_next (k := 4) rfl h0 (div_next (k := 0) rfl b2 ((Nat.div_one op : op / 2 ^ 0 = op)))))))),
    fld_next (lo := 0) z h3 (fld_first rfl b0),
    fld_next (lo := 14) z h3 (fld_next (lo := 5) rfl b0 (fld_next (lo := 1) rfl h2 (fld_next (lo := 0) rfl h1 (fld_first rfl b1)))),
    fld_next (lo := 21) z h3 (fld_next (lo := 12) rfl b0 (fld_next (lo := 8) rfl h2 (fld_next (lo := 7) rfl h1 (fld_next (lo := 2) rfl b1 (fld_next (lo := 0) rfl h0 (fld_first rfl b2)))))),
    fld_next (lo := 19) z h3 (fld_next (lo := 10) rfl b0 (fld_next (lo := 6) rfl h2 (fld_next (lo := 5) rfl h1 (fld_next (lo := 0) rfl b1 (fld_first rfl h0))))),
    fld_next (lo := 13) z h3 (fld_next (lo := 4) rfl b0 (fld_next (lo := 0) rfl h2 (fld_first rfl h1))),
    fld_next (lo := 9) z h3 (fld_next (lo := 0) rfl b0 (fld_first rfl h2)),
    fld_first z h3⟩

theorem lay50 {w K x0 : Nat} (op c0 c1 : Nat) (h0 : x0 < 4)
    (hK : K = op * 67108864 + c0 + c1 * 4194304) (hc : c0 < 1048576 ∧ c1 < 16)
    (e : K + x0 * 1048576 = w) :
    w / 2 ^ 26 = op ∧ fld w 0 20 = c0 ∧ fld w 22 4 = c1 ∧ fld w 20 2 = x0 := by
  obtain ⟨b0, b1⟩ := hc
  have z : c0 + 2 ^ 20 * (x0 + 2 ^ 2 * (c1 + 2 ^ 4 * op)) = w := by clear h0 b0 b1; subst hK e; grind
  exact ⟨div_next (k := 6) z b0 (div_next (k := 4) rfl h0 (div_next (k := 0) rfl b1 ((Nat.div_one op : op / 2 ^ 0 = op)))),
    fld_first z b0,
    fld_next (lo := 2) z b0 (fld_next (lo := 0) rfl h0 (fld_first rfl b1)),
    fld_next (lo := 0) z b0 (fld_first rfl h0)⟩

theorem lay51 {w K x0 : Nat} (op c0 : Nat) (h0 : x0 < 1048576)
    (hK : K = op * 67108864 + c0 * 1048576) (hc : c0 < 64)
    (e : K + x0 = w) :
    w / 2 ^ 26 = op ∧ fld w 20 6 = c0 ∧ fld w 0 20 = x0 := by
  have b0 := hc
  have z : x0 + 2 ^ 20 * (c0 + 2 ^ 6 * op) = w := by clear h0 b0; subst hK e; grind
  exact ⟨div_next (k := 6) z h0 (div_next (k := 0) rfl b0 ((Nat.div_one op : op / 2 ^ 0 = op))),
    fld_next (lo := 0) z h0 (fld_first rfl b0),
    fld_first z h0⟩

theorem lay52 {w K x0 : Nat} (op c0 : Nat) (h0 : x0 < 16)
    (hK : K = op * 67108864 + c0 * 16) (hc : c0 < 4194304)
    (e : K + x0 = w) :
    w / 2 ^ 26 = op ∧ fld w 4 22 = c0 ∧ fld w 0 4 = x0 := by
  have b0 := hc
  have z : x0 + 2 ^ 4 * (c0 + 2 ^ 22 * op) = w := by clear h0 b0; subst hK e; grind
  exact ⟨div_next (k := 22) z h0 (div_next (k := 0) rfl b0 ((Nat.div_one op : op / 2 ^ 0 = op))),
    fld_next (lo := 0) z h0 (fld_first rfl b0),
    fld_first z h0⟩

theorem lay53 {w K x0 : Nat} (op c0 : Nat) (h0 : x0 < 1024)
    (hK : K = op * 67108864 + c0 * 1024) (hc : c0 < 65536)
    (e : K + x0 = w) :
    w / 2 ^ 26 = op ∧ fld w 10 16 = c0 ∧ fld w 0 10 = x0 := by
  have b0 := hc
  have z : x0 + 2 ^ 10 * (c0 + 2 ^ 16 * op) = w := by clear h0 b0; subst hK e; grind
  exact ⟨div_next (k := 16) z h0 (div_next (k := 0) rfl b0 ((Nat.div_one op : op / 2 ^ 0 = op))),
    fld_next (lo := 0) z h0 (fld_first rfl b0),
    fld_first z h0⟩

theorem lay54 {w K x0 x1 : Nat} (op c0 : Nat) (h0 : x0 < 2) (h1 : x1 < 64)
    (hK : K = op * 67108864 + c0 * 128) (hc : c0 < 524288)
    (e : K + x0 * 64 + x1 = w) :
    w / 2 ^ 26 = op ∧ fld w 7 19 = c0 ∧ fld w 6 1 = x0 ∧ fld w 0 6 = x1 := by
  have b0 := hc
  have z : x1 + 2 ^ 6 * (x0 + 2 ^ 1 * (c0 + 2 ^ 19 * op)) = w := by clear h0 h1 b0; subst hK e; grind
  exact ⟨div_next (k := 20) z h1 (div_next (k := 19) rfl h0 (div_next (k := 0) rfl b0 ((Nat.div_one op : op / 2 ^ 0 = op)))),
    fld_next (lo := 1) z h1 (fld_next (lo := 0) rfl h0 (fld_first rfl b0)),
    fld_next (lo := 0) z h1 (fld_first rfl h0),
    fld_first z h1⟩

theorem lay55 {w K x0 : Nat} (op c0 : Nat) (h0 : x0 < 64)
    (hK : K = op * 67108864 + c0 * 64) (hc : c0 < 1048576)
    (e : K + x0 = w) :
    w / 2 ^ 26 = op ∧ fld w 6 20 = c0 ∧ fld w 0 6 = x0 := by
  have b0 := hc
  have z : x0 + 2 ^ 6 * (c0 + 2 ^ 20 * op) = w := by clear h0 b0; subst hK e; grind
  exact ⟨div_next (k := 20) z h0 (div_next (k := 0) rfl b0 ((Nat.div_one op : op / 2 ^ 0 = op))),
    fld_next (lo := 0) z h0 (fld_first rfl b0),
    fld_first z h0⟩

theorem lay56 {w K x0 : Nat} (op c0 : Nat) (h0 : x0 < 2)
    (hK : K = op * 67108864 + c0 * 2) (hc : c0 < 33554432)
    (e : K + x0 = w) :
    w / 2 ^ 26 = op ∧ fld w 1 25 = c0 ∧ fld w 0 1 = x0 := by
  have b0 := hc
  have z : x0 + 2 ^ 1 * (c0 + 2 ^ 25 * op) = w := by clear h0 b0; subst hK e; grind
  exact ⟨div_next (k := 25) z h0 (div_next (k := 0) rfl b0 ((Nat.div_one op : op / 2 ^ 0 = op))),
    fld_next (lo := 0) z h0 (fld_first rfl b0),
    fld_first z h0⟩

theorem lay57 {w K x0 x1 : Nat} (op c0 : Nat) (h0 : x0 < 2) (h1 : x1 < 4194304)
    (hK : K = op * 67108864 + c0 * 8388608) (hc : c0 < 8)
    (e : K + x0 * 4194304 + x1 = w) :
    w / 2 ^ 26 = op ∧ fld w 23 3 = c0 ∧ fld w 22 1 = x0 ∧ fld w 0 22 = x1 := by
  have b0 := hc
  have z : x1 + 2 ^ 22 * (x0 + 2 ^ 1 * (c0 + 2 ^ 3 * op)) = w := by clear h0 h1 b0; subst hK e; grind
  exact ⟨div_next (k := 4) z h1 (div_next (k := 3) rfl h0 (div_next (k := 0) rfl b0 ((Nat.div_one op : op / 2 ^ 0 = op)))),
    fld_next (lo := 1) z h1 (fld_next (lo := 0) rfl h0 (fld_first rfl b0)),
    fld_next (lo := 0) z h1 (fld_first rfl h0),
    fld_first z h1⟩

/-! ### Words -/

theorem iadd (d : Nat) (a : Nat) (b : Nat) (m : Nat) : Statement (.iadd d a b m) := by
  intro w g h
  obtain ⟨hq, k0, x0, x1, x2, x3⟩ := lay1 1 0 (isReg_lt (and_left (and_left (and_left g)))) (isReg_lt (and_right (and_left (and_left g)))) (isReg_lt (and_right (and_left g))) (isMs_lt (and_right g)) rfl (by decide) (Option.some.inj h)
  exact decodeWord_of ((raw01 hq).trans (by simp [decOp01, k0, x3, x2, x1, x0])) g

theorem isub (d : Nat) (a : Nat) (b : Nat) (m : Nat) : Statement (.isub d a b m) := by
  intro w g h
  obtain ⟨hq, k0, x0, x1, x2, x3⟩ := lay1 1 1 (isReg_lt (and_left (and_left (and_left g)))) (isReg_lt (and_right (and_left (and_left g)))) (isReg_lt (and_right (and_left g))) (isMs_lt (and_right g)) rfl (by decide) (Option.some.inj h)
  exact decodeWord_of ((raw01 hq).trans (by simp [decOp01, k0, x3, x2, x1, x0])) g

theorem imulLo (d : Nat) (a : Nat) (b : Nat) (m : Nat) : Statement (.imulLo d a b m) := by
  intro w g h
  obtain ⟨hq, k0, x0, x1, x2, x3⟩ := lay1 1 2 (isReg_lt (and_left (and_left (and_left g)))) (isReg_lt (and_right (and_left (and_left g)))) (isReg_lt (and_right (and_left g))) (isMs_lt (and_right g)) rfl (by decide) (Option.some.inj h)
  exact decodeWord_of ((raw01 hq).trans (by simp [decOp01, k0, x3, x2, x1, x0])) g

theorem imulHiS32 (d : Nat) (a : Nat) (b : Nat) (m : Nat) : Statement (.imulHiS32 d a b m) := by
  intro w g h
  obtain ⟨hq, k0, x0, x1, x2, x3⟩ := lay1 1 3 (isReg_lt (and_left (and_left (and_left g)))) (isReg_lt (and_right (and_left (and_left g)))) (isReg_lt (and_right (and_left g))) (isMs_lt (and_right g)) rfl (by decide) (Option.some.inj h)
  exact decodeWord_of ((raw01 hq).trans (by simp [decOp01, k0, x3, x2, x1, x0])) g

theorem imulHiN32 (d : Nat) (a : Nat) (b : Nat) (m : Nat) : Statement (.imulHiN32 d a b m) := by
  intro w g h
  obtain ⟨hq, k0, x0, x1, x2, x3⟩ := lay1 1 4 (isReg_lt (and_left (and_left (and_left g)))) (isReg_lt (and_right (and_left (and_left g)))) (isReg_lt (and_right (and_left g))) (isMs_lt (and_right g)) rfl (by decide) (Option.some.inj h)
  exact decodeWord_of ((raw01 hq).trans (by simp [decOp01, k0, x3, x2, x1, x0])) g

theorem iminS32 (d : Nat) (a : Nat) (b : Nat) (m : Nat) : Statement (.iminS32 d a b m) := by
  intro w g h
  obtain ⟨hq, k0, x0, x1, x2, x3⟩ := lay1 1 5 (isReg_lt (and_left (and_left (and_left g)))) (isReg_lt (and_right (and_left (and_left g)))) (isReg_lt (and_right (and_left g))) (isMs_lt (and_right g)) rfl (by decide) (Option.some.inj h)
  exact decodeWord_of ((raw01 hq).trans (by simp [decOp01, k0, x3, x2, x1, x0])) g

theorem iminN32 (d : Nat) (a : Nat) (b : Nat) (m : Nat) : Statement (.iminN32 d a b m) := by
  intro w g h
  obtain ⟨hq, k0, x0, x1, x2, x3⟩ := lay1 1 6 (isReg_lt (and_left (and_left (and_left g)))) (isReg_lt (and_right (and_left (and_left g)))) (isReg_lt (and_right (and_left g))) (isMs_lt (and_right g)) rfl (by decide) (Option.some.inj h)
  exact decodeWord_of ((raw01 hq).trans (by simp [decOp01, k0, x3, x2, x1, x0])) g

theorem imaxS32 (d : Nat) (a : Nat) (b : Nat) (m : Nat) : Statement (.imaxS32 d a b m) := by
  intro w g h
  obtain ⟨hq, k0, x0, x1, x2, x3⟩ := lay1 1 7 (isReg_lt (and_left (and_left (and_left g)))) (isReg_lt (and_right (and_left (and_left g)))) (isReg_lt (and_right (and_left g))) (isMs_lt (and_right g)) rfl (by decide) (Option.some.inj h)
  exact decodeWord_of ((raw01 hq).trans (by simp [decOp01, k0, x3, x2, x1, x0])) g

theorem imaxN32 (d : Nat) (a : Nat) (b : Nat) (m : Nat) : Statement (.imaxN32 d a b m) := by
  intro w g h
  obtain ⟨hq, k0, x0, x1, x2, x3⟩ := lay1 1 8 (isReg_lt (and_left (and_left (and_left g)))) (isReg_lt (and_right (and_left (and_left g)))) (isReg_lt (and_right (and_left g))) (isMs_lt (and_right g)) rfl (by decide) (Option.some.inj h)
  exact decodeWord_of ((raw01 hq).trans (by simp [decOp01, k0, x3, x2, x1, x0])) g

theorem iabsS32 (d : Nat) (a : Nat) (m : Nat) : Statement (.iabsS32 d a m) := by
  intro w g h
  obtain ⟨hq, k0, k1, x0, x1, x2⟩ := lay2 1 9 0 (isReg_lt (and_left (and_left g))) (isReg_lt (and_right (and_left g))) (isMs_lt (and_right g)) rfl (by decide) (Option.some.inj h)
  exact decodeWord_of ((raw01 hq).trans (by simp [decOp01, k0, x2, k1, x1, x0])) g

theorem ineg (d : Nat) (a : Nat) (m : Nat) : Statement (.ineg d a m) := by
  intro w g h
  obtain ⟨hq, k0, k1, x0, x1, x2⟩ := lay2 1 10 0 (isReg_lt (and_left (and_left g))) (isReg_lt (and_right (and_left g))) (isMs_lt (and_right g)) rfl (by decide) (Option.some.inj h)
  exact decodeWord_of ((raw01 hq).trans (by simp [decOp01, k0, x2, k1, x1, x0])) g

theorem idivS32 (d : Nat) (a : Nat) (b : Nat) (m : Nat) : Statement (.idivS32 d a b m) := by
  intro w g h
  obtain ⟨hq, k0, x0, x1, x2, x3⟩ := lay1 1 11 (isReg_lt (and_left (and_left (and_left g)))) (isReg_lt (and_right (and_left (and_left g)))) (isReg_lt (and_right (and_left g))) (isMs_lt (and_right g)) rfl (by decide) (Option.some.inj h)
  exact decodeWord_of ((raw01 hq).trans (by simp [decOp01, k0, x3, x2, x1, x0])) g

theorem idivN32 (d : Nat) (a : Nat) (b : Nat) (m : Nat) : Statement (.idivN32 d a b m) := by
  intro w g h
  obtain ⟨hq, k0, x0, x1, x2, x3⟩ := lay1 1 12 (isReg_lt (and_left (and_left (and_left g)))) (isReg_lt (and_right (and_left (and_left g)))) (isReg_lt (and_right (and_left g))) (isMs_lt (and_right g)) rfl (by decide) (Option.some.inj h)
  exact decodeWord_of ((raw01 hq).trans (by simp [decOp01, k0, x3, x2, x1, x0])) g

theorem iremS32 (d : Nat) (a : Nat) (b : Nat) (m : Nat) : Statement (.iremS32 d a b m) := by
  intro w g h
  obtain ⟨hq, k0, x0, x1, x2, x3⟩ := lay1 1 13 (isReg_lt (and_left (and_left (and_left g)))) (isReg_lt (and_right (and_left (and_left g)))) (isReg_lt (and_right (and_left g))) (isMs_lt (and_right g)) rfl (by decide) (Option.some.inj h)
  exact decodeWord_of ((raw01 hq).trans (by simp [decOp01, k0, x3, x2, x1, x0])) g

theorem iremN32 (d : Nat) (a : Nat) (b : Nat) (m : Nat) : Statement (.iremN32 d a b m) := by
  intro w g h
  obtain ⟨hq, k0, x0, x1, x2, x3⟩ := lay1 1 14 (isReg_lt (and_left (and_left (and_left g)))) (isReg_lt (and_right (and_left (and_left g)))) (isReg_lt (and_right (and_left g))) (isMs_lt (and_right g)) rfl (by decide) (Option.some.inj h)
  exact decodeWord_of ((raw01 hq).trans (by simp [decOp01, k0, x3, x2, x1, x0])) g

theorem iaddSatS32 (d : Nat) (a : Nat) (b : Nat) (m : Nat) : Statement (.iaddSatS32 d a b m) := by
  intro w g h
  obtain ⟨hq, k0, x0, x1, x2, x3⟩ := lay1 1 16 (isReg_lt (and_left (and_left (and_left g)))) (isReg_lt (and_right (and_left (and_left g)))) (isReg_lt (and_right (and_left g))) (isMs_lt (and_right g)) rfl (by decide) (Option.some.inj h)
  exact decodeWord_of ((raw01 hq).trans (by simp [decOp01, k0, x3, x2, x1, x0])) g

theorem iaddSatN32 (d : Nat) (a : Nat) (b : Nat) (m : Nat) : Statement (.iaddSatN32 d a b m) := by
  intro w g h
  obtain ⟨hq, k0, x0, x1, x2, x3⟩ := lay1 1 17 (isReg_lt (and_left (and_left (and_left g)))) (isReg_lt (and_right (and_left (and_left g)))) (isReg_lt (and_right (and_left g))) (isMs_lt (and_right g)) rfl (by decide) (Option.some.inj h)
  exact decodeWord_of ((raw01 hq).trans (by simp [decOp01, k0, x3, x2, x1, x0])) g

theorem isubSatS32 (d : Nat) (a : Nat) (b : Nat) (m : Nat) : Statement (.isubSatS32 d a b m) := by
  intro w g h
  obtain ⟨hq, k0, x0, x1, x2, x3⟩ := lay1 1 18 (isReg_lt (and_left (and_left (and_left g)))) (isReg_lt (and_right (and_left (and_left g)))) (isReg_lt (and_right (and_left g))) (isMs_lt (and_right g)) rfl (by decide) (Option.some.inj h)
  exact decodeWord_of ((raw01 hq).trans (by simp [decOp01, k0, x3, x2, x1, x0])) g

theorem isubSatN32 (d : Nat) (a : Nat) (b : Nat) (m : Nat) : Statement (.isubSatN32 d a b m) := by
  intro w g h
  obtain ⟨hq, k0, x0, x1, x2, x3⟩ := lay1 1 19 (isReg_lt (and_left (and_left (and_left g)))) (isReg_lt (and_right (and_left (and_left g)))) (isReg_lt (and_right (and_left g))) (isMs_lt (and_right g)) rfl (by decide) (Option.some.inj h)
  exact decodeWord_of ((raw01 hq).trans (by simp [decOp01, k0, x3, x2, x1, x0])) g

theorem iadd64 (d : Nat) (a : Nat) (b : Nat) (m : Nat) : Statement (.iadd64 d a b m) := by
  intro w g h
  obtain ⟨hq, k0, x0, x1, x2, x3⟩ := lay1 1 32 (isPair_lt (and_left (and_left (and_left g)))) (isPair_lt (and_right (and_left (and_left g)))) (isPair_lt (and_right (and_left g))) (isMs_lt (and_right g)) rfl (by decide) (Option.some.inj h)
  exact decodeWord_of ((raw01 hq).trans (by simp [decOp01, k0, x3, x2, x1, x0])) g

theorem isub64 (d : Nat) (a : Nat) (b : Nat) (m : Nat) : Statement (.isub64 d a b m) := by
  intro w g h
  obtain ⟨hq, k0, x0, x1, x2, x3⟩ := lay1 1 33 (isPair_lt (and_left (and_left (and_left g)))) (isPair_lt (and_right (and_left (and_left g)))) (isPair_lt (and_right (and_left g))) (isMs_lt (and_right g)) rfl (by decide) (Option.some.inj h)
  exact decodeWord_of ((raw01 hq).trans (by simp [decOp01, k0, x3, x2, x1, x0])) g

theorem imulLo64 (d : Nat) (a : Nat) (b : Nat) (m : Nat) : Statement (.imulLo64 d a b m) := by
  intro w g h
  obtain ⟨hq, k0, x0, x1, x2, x3⟩ := lay1 1 34 (isPair_lt (and_left (and_left (and_left g)))) (isPair_lt (and_right (and_left (and_left g)))) (isPair_lt (and_right (and_left g))) (isMs_lt (and_right g)) rfl (by decide) (Option.some.inj h)
  exact decodeWord_of ((raw01 hq).trans (by simp [decOp01, k0, x3, x2, x1, x0])) g

theorem imulWideS32 (d : Nat) (a : Nat) (b : Nat) (m : Nat) : Statement (.imulWideS32 d a b m) := by
  intro w g h
  obtain ⟨hq, k0, x0, x1, x2, x3⟩ := lay1 1 35 (isPair_lt (and_left (and_left (and_left g)))) (isReg_lt (and_right (and_left (and_left g)))) (isReg_lt (and_right (and_left g))) (isMs_lt (and_right g)) rfl (by decide) (Option.some.inj h)
  exact decodeWord_of ((raw01 hq).trans (by simp [decOp01, k0, x3, x2, x1, x0])) g

theorem imulWideN32 (d : Nat) (a : Nat) (b : Nat) (m : Nat) : Statement (.imulWideN32 d a b m) := by
  intro w g h
  obtain ⟨hq, k0, x0, x1, x2, x3⟩ := lay1 1 36 (isPair_lt (and_left (and_left (and_left g)))) (isReg_lt (and_right (and_left (and_left g)))) (isReg_lt (and_right (and_left g))) (isMs_lt (and_right g)) rfl (by decide) (Option.some.inj h)
  exact decodeWord_of ((raw01 hq).trans (by simp [decOp01, k0, x3, x2, x1, x0])) g

theorem iminS64 (d : Nat) (a : Nat) (b : Nat) (m : Nat) : Statement (.iminS64 d a b m) := by
  intro w g h
  obtain ⟨hq, k0, x0, x1, x2, x3⟩ := lay1 1 37 (isPair_lt (and_left (and_left (and_left g)))) (isPair_lt (and_right (and_left (and_left g)))) (isPair_lt (and_right (and_left g))) (isMs_lt (and_right g)) rfl (by decide) (Option.some.inj h)
  exact decodeWord_of ((raw01 hq).trans (by simp [decOp01, k0, x3, x2, x1, x0])) g

theorem iminN64 (d : Nat) (a : Nat) (b : Nat) (m : Nat) : Statement (.iminN64 d a b m) := by
  intro w g h
  obtain ⟨hq, k0, x0, x1, x2, x3⟩ := lay1 1 38 (isPair_lt (and_left (and_left (and_left g)))) (isPair_lt (and_right (and_left (and_left g)))) (isPair_lt (and_right (and_left g))) (isMs_lt (and_right g)) rfl (by decide) (Option.some.inj h)
  exact decodeWord_of ((raw01 hq).trans (by simp [decOp01, k0, x3, x2, x1, x0])) g

theorem imaxS64 (d : Nat) (a : Nat) (b : Nat) (m : Nat) : Statement (.imaxS64 d a b m) := by
  intro w g h
  obtain ⟨hq, k0, x0, x1, x2, x3⟩ := lay1 1 39 (isPair_lt (and_left (and_left (and_left g)))) (isPair_lt (and_right (and_left (and_left g)))) (isPair_lt (and_right (and_left g))) (isMs_lt (and_right g)) rfl (by decide) (Option.some.inj h)
  exact decodeWord_of ((raw01 hq).trans (by simp [decOp01, k0, x3, x2, x1, x0])) g

theorem imaxN64 (d : Nat) (a : Nat) (b : Nat) (m : Nat) : Statement (.imaxN64 d a b m) := by
  intro w g h
  obtain ⟨hq, k0, x0, x1, x2, x3⟩ := lay1 1 40 (isPair_lt (and_left (and_left (and_left g)))) (isPair_lt (and_right (and_left (and_left g)))) (isPair_lt (and_right (and_left g))) (isMs_lt (and_right g)) rfl (by decide) (Option.some.inj h)
  exact decodeWord_of ((raw01 hq).trans (by simp [decOp01, k0, x3, x2, x1, x0])) g

theorem mov (d : Nat) (m : Nat) (i : Nat) : Statement (.mov d m i) := by
  intro w g h
  obtain ⟨hq, k0, x0, x1, x2⟩ := lay3 7 0 (isReg_lt (and_left (and_left g))) (isMs_lt (and_right (and_left g))) (isImm_lt (and_right g)) rfl (by decide) (Option.some.inj h)
  exact decodeWord_of ((raw07 hq).trans (by simp [decOp07, x2, x1, k0, x0])) g

theorem iaddImm (d : Nat) (a : Nat) (m : Nat) (i : Nat) : Statement (.iaddImm d a m i) := by
  intro w g h
  obtain ⟨hq, x0, x1, x2, x3⟩ := lay4 8 (isReg_lt (and_left (and_left (and_left g)))) (isReg_lt (and_right (and_left (and_left g)))) (isMs_lt (and_right (and_left g))) (isImm_lt (and_right g)) rfl (Option.some.inj h)
  exact decodeWord_of ((raw08 hq).trans (by simp [decOp08, x3, x2, x1, x0])) g

theorem imulLoImm (d : Nat) (a : Nat) (m : Nat) (i : Nat) : Statement (.imulLoImm d a m i) := by
  intro w g h
  obtain ⟨hq, x0, x1, x2, x3⟩ := lay4 9 (isReg_lt (and_left (and_left (and_left g)))) (isReg_lt (and_right (and_left (and_left g)))) (isMs_lt (and_right (and_left g))) (isImm_lt (and_right g)) rfl (Option.some.inj h)
  exact decodeWord_of ((raw09 hq).trans (by simp [decOp09, x3, x2, x1, x0])) g

theorem andImm (d : Nat) (a : Nat) (m : Nat) (i : Nat) : Statement (.andImm d a m i) := by
  intro w g h
  obtain ⟨hq, x0, x1, x2, x3⟩ := lay4 10 (isReg_lt (and_left (and_left (and_left g)))) (isReg_lt (and_right (and_left (and_left g)))) (isMs_lt (and_right (and_left g))) (isImm_lt (and_right g)) rfl (Option.some.inj h)
  exact decodeWord_of ((raw0A hq).trans (by simp [decOp0A, x3, x2, x1, x0])) g

theorem orImm (d : Nat) (a : Nat) (m : Nat) (i : Nat) : Statement (.orImm d a m i) := by
  intro w g h
  obtain ⟨hq, x0, x1, x2, x3⟩ := lay4 11 (isReg_lt (and_left (and_left (and_left g)))) (isReg_lt (and_right (and_left (and_left g)))) (isMs_lt (and_right (and_left g))) (isImm_lt (and_right g)) rfl (Option.some.inj h)
  exact decodeWord_of ((raw0B hq).trans (by simp [decOp0B, x3, x2, x1, x0])) g

theorem xorImm (d : Nat) (a : Nat) (m : Nat) (i : Nat) : Statement (.xorImm d a m i) := by
  intro w g h
  obtain ⟨hq, x0, x1, x2, x3⟩ := lay4 12 (isReg_lt (and_left (and_left (and_left g)))) (isReg_lt (and_right (and_left (and_left g)))) (isMs_lt (and_right (and_left g))) (isImm_lt (and_right g)) rfl (Option.some.inj h)
  exact decodeWord_of ((raw0C hq).trans (by simp [decOp0C, x3, x2, x1, x0])) g

theorem shlImm (d : Nat) (a : Nat) (m : Nat) (c : Nat) : Statement (.shlImm d a m c) := by
  intro w g h
  obtain ⟨hq, k0, x0, x1, x2, x3⟩ := lay5 13 0 (isReg_lt (and_left (and_left (and_left g)))) (isReg_lt (and_right (and_left (and_left g)))) (isMs_lt (and_right (and_left g))) (below (k := 32) (and_right g) (by decide)) rfl (by decide) (Option.some.inj h)
  exact decodeWord_of ((raw0D hq).trans (by simp [decOp0D, x3, k0, x2, x1, x0])) g

theorem shrNImm (d : Nat) (a : Nat) (m : Nat) (c : Nat) : Statement (.shrNImm d a m c) := by
  intro w g h
  obtain ⟨hq, k0, x0, x1, x2, x3⟩ := lay5 13 32 (isReg_lt (and_left (and_left (and_left g)))) (isReg_lt (and_right (and_left (and_left g)))) (isMs_lt (and_right (and_left g))) (below (k := 32) (and_right g) (by decide)) rfl (by decide) (Option.some.inj h)
  exact decodeWord_of ((raw0D hq).trans (by simp [decOp0D, x3, k0, x2, x1, x0])) g

theorem shrSImm (d : Nat) (a : Nat) (m : Nat) (c : Nat) : Statement (.shrSImm d a m c) := by
  intro w g h
  obtain ⟨hq, k0, x0, x1, x2, x3⟩ := lay5 13 64 (isReg_lt (and_left (and_left (and_left g)))) (isReg_lt (and_right (and_left (and_left g)))) (isMs_lt (and_right (and_left g))) (below (k := 32) (and_right g) (by decide)) rfl (by decide) (Option.some.inj h)
  exact decodeWord_of ((raw0D hq).trans (by simp [decOp0D, x3, k0, x2, x1, x0])) g

theorem rotlImm (d : Nat) (a : Nat) (m : Nat) (c : Nat) : Statement (.rotlImm d a m c) := by
  intro w g h
  obtain ⟨hq, k0, x0, x1, x2, x3⟩ := lay5 13 96 (isReg_lt (and_left (and_left (and_left g)))) (isReg_lt (and_right (and_left (and_left g)))) (isMs_lt (and_right (and_left g))) (below (k := 32) (and_right g) (by decide)) rfl (by decide) (Option.some.inj h)
  exact decodeWord_of ((raw0D hq).trans (by simp [decOp0D, x3, k0, x2, x1, x0])) g

theorem bfeNImm (d : Nat) (a : Nat) (m : Nat) (w : Nat) (p : Nat) : Statement (.bfeNImm d a m w p) := by
  intro x g h
  obtain ⟨hq, k0, x0, x1, x2, x3, x4⟩ := lay6 14 0 (isReg_lt (and_left (and_left (and_left (and_left (and_left g)))))) (isReg_lt (and_right (and_left (and_left (and_left (and_left g)))))) (isMs_lt (and_right (and_left (and_left (and_left g))))) (upTo (k := 64) (and_right (and_left g)) (by decide)) (below (k := 32) (and_right g) (by decide)) rfl (by decide) (Option.some.inj h)
  exact decodeWord_of ((raw0E hq).trans (by simp [decOp0E, x4, x3, k0, x2, x1, x0])) g

theorem bfeSImm (d : Nat) (a : Nat) (m : Nat) (w : Nat) (p : Nat) : Statement (.bfeSImm d a m w p) := by
  intro x g h
  obtain ⟨hq, k0, x0, x1, x2, x3, x4⟩ := lay6 14 1 (isReg_lt (and_left (and_left (and_left (and_left (and_left g)))))) (isReg_lt (and_right (and_left (and_left (and_left (and_left g)))))) (isMs_lt (and_right (and_left (and_left (and_left g))))) (upTo (k := 64) (and_right (and_left g)) (by decide)) (below (k := 32) (and_right g) (by decide)) rfl (by decide) (Option.some.inj h)
  exact decodeWord_of ((raw0E hq).trans (by simp [decOp0E, x4, x3, k0, x2, x1, x0])) g

theorem bfi (d : Nat) (a : Nat) (m : Nat) (w : Nat) (p : Nat) : Statement (.bfi d a m w p) := by
  intro x g h
  obtain ⟨hq, k0, x0, x1, x2, x3, x4⟩ := lay6 15 0 (isReg_lt (and_left (and_left (and_left (and_left (and_left g)))))) (isReg_lt (and_right (and_left (and_left (and_left (and_left g)))))) (isMs_lt (and_right (and_left (and_left (and_left g))))) (upTo (k := 64) (and_right (and_left g)) (by decide)) (below (k := 32) (and_right g) (by decide)) rfl (by decide) (Option.some.inj h)
  exact decodeWord_of ((raw0F hq).trans (by simp [decOp0F, x4, x3, k0, x2, x1, x0])) g

theorem imad (d : Nat) (a : Nat) (b : Nat) (c : Nat) (m : Nat) : Statement (.imad d a b c m) := by
  intro w g h
  obtain ⟨hq, x0, x1, x2, x3, x4⟩ := lay7 6 (isReg_lt (and_left (and_left (and_left (and_left g))))) (isReg_lt (and_right (and_left (and_left (and_left g))))) (isReg_lt (and_right (and_left (and_left g)))) (isReg_lt (and_right (and_left g))) (isMs_lt (and_right g)) rfl (Option.some.inj h)
  exact decodeWord_of ((raw06 hq).trans (by simp [decOp06, x4, x3, x2, x1, x0])) g

theorem and_ (d : Nat) (a : Nat) (b : Nat) (m : Nat) : Statement (.and_ d a b m) := by
  intro w g h
  obtain ⟨hq, k0, x0, x1, x2, x3⟩ := lay1 2 0 (isReg_lt (and_left (and_left (and_left g)))) (isReg_lt (and_right (and_left (and_left g)))) (isReg_lt (and_right (and_left g))) (isMs_lt (and_right g)) rfl (by decide) (Option.some.inj h)
  exact decodeWord_of ((raw02 hq).trans (by simp [decOp02, k0, x3, x2, x1, x0])) g

theorem or_ (d : Nat) (a : Nat) (b : Nat) (m : Nat) : Statement (.or_ d a b m) := by
  intro w g h
  obtain ⟨hq, k0, x0, x1, x2, x3⟩ := lay1 2 1 (isReg_lt (and_left (and_left (and_left g)))) (isReg_lt (and_right (and_left (and_left g)))) (isReg_lt (and_right (and_left g))) (isMs_lt (and_right g)) rfl (by decide) (Option.some.inj h)
  exact decodeWord_of ((raw02 hq).trans (by simp [decOp02, k0, x3, x2, x1, x0])) g

theorem xor_ (d : Nat) (a : Nat) (b : Nat) (m : Nat) : Statement (.xor_ d a b m) := by
  intro w g h
  obtain ⟨hq, k0, x0, x1, x2, x3⟩ := lay1 2 2 (isReg_lt (and_left (and_left (and_left g)))) (isReg_lt (and_right (and_left (and_left g)))) (isReg_lt (and_right (and_left g))) (isMs_lt (and_right g)) rfl (by decide) (Option.some.inj h)
  exact decodeWord_of ((raw02 hq).trans (by simp [decOp02, k0, x3, x2, x1, x0])) g

theorem andn (d : Nat) (a : Nat) (b : Nat) (m : Nat) : Statement (.andn d a b m) := by
  intro w g h
  obtain ⟨hq, k0, x0, x1, x2, x3⟩ := lay1 2 3 (isReg_lt (and_left (and_left (and_left g)))) (isReg_lt (and_right (and_left (and_left g)))) (isReg_lt (and_right (and_left g))) (isMs_lt (and_right g)) rfl (by decide) (Option.some.inj h)
  exact decodeWord_of ((raw02 hq).trans (by simp [decOp02, k0, x3, x2, x1, x0])) g

theorem orn (d : Nat) (a : Nat) (b : Nat) (m : Nat) : Statement (.orn d a b m) := by
  intro w g h
  obtain ⟨hq, k0, x0, x1, x2, x3⟩ := lay1 2 4 (isReg_lt (and_left (and_left (and_left g)))) (isReg_lt (and_right (and_left (and_left g)))) (isReg_lt (and_right (and_left g))) (isMs_lt (and_right g)) rfl (by decide) (Option.some.inj h)
  exact decodeWord_of ((raw02 hq).trans (by simp [decOp02, k0, x3, x2, x1, x0])) g

theorem not_ (d : Nat) (a : Nat) (m : Nat) : Statement (.not_ d a m) := by
  intro w g h
  obtain ⟨hq, k0, k1, x0, x1, x2⟩ := lay2 2 5 0 (isReg_lt (and_left (and_left g))) (isReg_lt (and_right (and_left g))) (isMs_lt (and_right g)) rfl (by decide) (Option.some.inj h)
  exact decodeWord_of ((raw02 hq).trans (by simp [decOp02, k0, x2, k1, x1, x0])) g

theorem shl (d : Nat) (a : Nat) (b : Nat) (m : Nat) : Statement (.shl d a b m) := by
  intro w g h
  obtain ⟨hq, k0, x0, x1, x2, x3⟩ := lay1 2 8 (isReg_lt (and_left (and_left (and_left g)))) (isReg_lt (and_right (and_left (and_left g)))) (isReg_lt (and_right (and_left g))) (isMs_lt (and_right g)) rfl (by decide) (Option.some.inj h)
  exact decodeWord_of ((raw02 hq).trans (by simp [decOp02, k0, x3, x2, x1, x0])) g

theorem shrN (d : Nat) (a : Nat) (b : Nat) (m : Nat) : Statement (.shrN d a b m) := by
  intro w g h
  obtain ⟨hq, k0, x0, x1, x2, x3⟩ := lay1 2 9 (isReg_lt (and_left (and_left (and_left g)))) (isReg_lt (and_right (and_left (and_left g)))) (isReg_lt (and_right (and_left g))) (isMs_lt (and_right g)) rfl (by decide) (Option.some.inj h)
  exact decodeWord_of ((raw02 hq).trans (by simp [decOp02, k0, x3, x2, x1, x0])) g

theorem shrS (d : Nat) (a : Nat) (b : Nat) (m : Nat) : Statement (.shrS d a b m) := by
  intro w g h
  obtain ⟨hq, k0, x0, x1, x2, x3⟩ := lay1 2 10 (isReg_lt (and_left (and_left (and_left g)))) (isReg_lt (and_right (and_left (and_left g)))) (isReg_lt (and_right (and_left g))) (isMs_lt (and_right g)) rfl (by decide) (Option.some.inj h)
  exact decodeWord_of ((raw02 hq).trans (by simp [decOp02, k0, x3, x2, x1, x0])) g

theorem rotl (d : Nat) (a : Nat) (b : Nat) (m : Nat) : Statement (.rotl d a b m) := by
  intro w g h
  obtain ⟨hq, k0, x0, x1, x2, x3⟩ := lay1 2 11 (isReg_lt (and_left (and_left (and_left g)))) (isReg_lt (and_right (and_left (and_left g)))) (isReg_lt (and_right (and_left g))) (isMs_lt (and_right g)) rfl (by decide) (Option.some.inj h)
  exact decodeWord_of ((raw02 hq).trans (by simp [decOp02, k0, x3, x2, x1, x0])) g

theorem popc (d : Nat) (a : Nat) (m : Nat) : Statement (.popc d a m) := by
  intro w g h
  obtain ⟨hq, k0, k1, x0, x1, x2⟩ := lay2 2 16 0 (isReg_lt (and_left (and_left g))) (isReg_lt (and_right (and_left g))) (isMs_lt (and_right g)) rfl (by decide) (Option.some.inj h)
  exact decodeWord_of ((raw02 hq).trans (by simp [decOp02, k0, x2, k1, x1, x0])) g

theorem clz (d : Nat) (a : Nat) (m : Nat) : Statement (.clz d a m) := by
  intro w g h
  obtain ⟨hq, k0, k1, x0, x1, x2⟩ := lay2 2 17 0 (isReg_lt (and_left (and_left g))) (isReg_lt (and_right (and_left g))) (isMs_lt (and_right g)) rfl (by decide) (Option.some.inj h)
  exact decodeWord_of ((raw02 hq).trans (by simp [decOp02, k0, x2, k1, x1, x0])) g

theorem ctz (d : Nat) (a : Nat) (m : Nat) : Statement (.ctz d a m) := by
  intro w g h
  obtain ⟨hq, k0, k1, x0, x1, x2⟩ := lay2 2 18 0 (isReg_lt (and_left (and_left g))) (isReg_lt (and_right (and_left g))) (isMs_lt (and_right g)) rfl (by decide) (Option.some.inj h)
  exact decodeWord_of ((raw02 hq).trans (by simp [decOp02, k0, x2, k1, x1, x0])) g

theorem brev (d : Nat) (a : Nat) (m : Nat) : Statement (.brev d a m) := by
  intro w g h
  obtain ⟨hq, k0, k1, x0, x1, x2⟩ := lay2 2 19 0 (isReg_lt (and_left (and_left g))) (isReg_lt (and_right (and_left g))) (isMs_lt (and_right g)) rfl (by decide) (Option.some.inj h)
  exact decodeWord_of ((raw02 hq).trans (by simp [decOp02, k0, x2, k1, x1, x0])) g

theorem bfeN (d : Nat) (a : Nat) (b : Nat) (m : Nat) : Statement (.bfeN d a b m) := by
  intro w g h
  obtain ⟨hq, k0, x0, x1, x2, x3⟩ := lay1 2 24 (isReg_lt (and_left (and_left (and_left g)))) (isReg_lt (and_right (and_left (and_left g)))) (isReg_lt (and_right (and_left g))) (isMs_lt (and_right g)) rfl (by decide) (Option.some.inj h)
  exact decodeWord_of ((raw02 hq).trans (by simp [decOp02, k0, x3, x2, x1, x0])) g

theorem bfeS (d : Nat) (a : Nat) (b : Nat) (m : Nat) : Statement (.bfeS d a b m) := by
  intro w g h
  obtain ⟨hq, k0, x0, x1, x2, x3⟩ := lay1 2 25 (isReg_lt (and_left (and_left (and_left g)))) (isReg_lt (and_right (and_left (and_left g)))) (isReg_lt (and_right (and_left g))) (isMs_lt (and_right g)) rfl (by decide) (Option.some.inj h)
  exact decodeWord_of ((raw02 hq).trans (by simp [decOp02, k0, x3, x2, x1, x0])) g

theorem shl64 (d : Nat) (a : Nat) (b : Nat) (m : Nat) : Statement (.shl64 d a b m) := by
  intro w g h
  obtain ⟨hq, k0, x0, x1, x2, x3⟩ := lay1 2 32 (isPair_lt (and_left (and_left (and_left g)))) (isPair_lt (and_right (and_left (and_left g)))) (isReg_lt (and_right (and_left g))) (isMs_lt (and_right g)) rfl (by decide) (Option.some.inj h)
  exact decodeWord_of ((raw02 hq).trans (by simp [decOp02, k0, x3, x2, x1, x0])) g

theorem shrN64 (d : Nat) (a : Nat) (b : Nat) (m : Nat) : Statement (.shrN64 d a b m) := by
  intro w g h
  obtain ⟨hq, k0, x0, x1, x2, x3⟩ := lay1 2 33 (isPair_lt (and_left (and_left (and_left g)))) (isPair_lt (and_right (and_left (and_left g)))) (isReg_lt (and_right (and_left g))) (isMs_lt (and_right g)) rfl (by decide) (Option.some.inj h)
  exact decodeWord_of ((raw02 hq).trans (by simp [decOp02, k0, x3, x2, x1, x0])) g

theorem shrS64 (d : Nat) (a : Nat) (b : Nat) (m : Nat) : Statement (.shrS64 d a b m) := by
  intro w g h
  obtain ⟨hq, k0, x0, x1, x2, x3⟩ := lay1 2 34 (isPair_lt (and_left (and_left (and_left g)))) (isPair_lt (and_right (and_left (and_left g)))) (isReg_lt (and_right (and_left g))) (isMs_lt (and_right g)) rfl (by decide) (Option.some.inj h)
  exact decodeWord_of ((raw02 hq).trans (by simp [decOp02, k0, x3, x2, x1, x0])) g

theorem popc64 (d : Nat) (a : Nat) (m : Nat) : Statement (.popc64 d a m) := by
  intro w g h
  obtain ⟨hq, k0, k1, x0, x1, x2⟩ := lay2 2 40 0 (isReg_lt (and_left (and_left g))) (isPair_lt (and_right (and_left g))) (isMs_lt (and_right g)) rfl (by decide) (Option.some.inj h)
  exact decodeWord_of ((raw02 hq).trans (by simp [decOp02, k0, x2, k1, x1, x0])) g

theorem clz64 (d : Nat) (a : Nat) (m : Nat) : Statement (.clz64 d a m) := by
  intro w g h
  obtain ⟨hq, k0, k1, x0, x1, x2⟩ := lay2 2 41 0 (isReg_lt (and_left (and_left g))) (isPair_lt (and_right (and_left g))) (isMs_lt (and_right g)) rfl (by decide) (Option.some.inj h)
  exact decodeWord_of ((raw02 hq).trans (by simp [decOp02, k0, x2, k1, x1, x0])) g

theorem icmp (d : Nat) (a : Nat) (b : Nat) (t : IntTy) (c : CmpCond) : Statement (.icmp d a b t c) := by
  intro w g h
  obtain ⟨hq, k0, k1, x0, x1, x2, x3, x4⟩ := lay8 3 0 0 (isMaskDst_lt (and_left (and_left g))) (isRegTy_lt (and_right (and_left g))) (isRegTy_lt (and_right g)) (Nat.lt_of_lt_of_le (IntTy.code_lt t) (by decide)) (CmpCond.code_lt c) rfl (by decide) (Option.some.inj h)
  exact decodeWord_of ((raw03 hq).trans (by simp [decOp03, x4, x3, k0, x2, x1, x0, k1])) g

theorem sel (d : Nat) (a : Nat) (b : Nat) (c : Nat) (m : Nat) : Statement (.sel d a b c m) := by
  intro w g h
  obtain ⟨hq, k0, x0, x1, x2, x3, x4⟩ := lay9 5 0 (isReg_lt (and_left (and_left (and_left (and_left g))))) (isReg_lt (and_right (and_left (and_left (and_left g))))) (isReg_lt (and_right (and_left (and_left g)))) (isMask_lt (and_right (and_left g))) (isMs_lt (and_right g)) rfl (by decide) (Option.some.inj h)
  exact decodeWord_of ((raw05 hq).trans (by simp [decOp05, x4, x3, k0, x2, x1, x0])) g

theorem mand (d : Nat) (a : Nat) (b : Nat) : Statement (.mand d a b) := by
  intro w g h
  obtain ⟨hq, k0, k1, k2, k3, x0, x1, x2⟩ := lay10 4 0 0 0 0 (isMaskDst_lt (and_left (and_left g))) (isMask_lt (and_right (and_left g))) (isMask_lt (and_right g)) rfl (by decide) (Option.some.inj h)
  have f0 : ¬ fld w 0 14 = 4 := fun e =>
    fld_ne (lo := 0) (n := 8) (fld_in e 0 rfl (by decide) rfl) (fld_in k0 0 rfl (by decide) rfl) (by decide)
  have f1 : ¬ fld w 0 14 = 5 := fun e =>
    fld_ne (lo := 0) (n := 8) (fld_in e 0 rfl (by decide) rfl) (fld_in k0 0 rfl (by decide) rfl) (by decide)
  have f2 : ¬ fld w 0 14 = 8 := fun e =>
    fld_ne (lo := 0) (n := 8) (fld_in e 0 rfl (by decide) rfl) (fld_in k0 0 rfl (by decide) rfl) (by decide)
  have f3 : ¬ fld w 0 14 = 9 := fun e =>
    fld_ne (lo := 0) (n := 8) (fld_in e 0 rfl (by decide) rfl) (fld_in k0 0 rfl (by decide) rfl) (by decide)
  have f4 : ¬ fld w 0 14 = 10 := fun e =>
    fld_ne (lo := 0) (n := 8) (fld_in e 0 rfl (by decide) rfl) (fld_in k0 0 rfl (by decide) rfl) (by decide)
  have f5 : ¬ fld w 0 14 = 11 := fun e =>
    fld_ne (lo := 0) (n := 8) (fld_in e 0 rfl (by decide) rfl) (fld_in k0 0 rfl (by decide) rfl) (by decide)
  have f6 : fld w 14 6 = a := fld_zext x1 (fld_in (lo := 17) (n := 3) k2 0 rfl (by decide) rfl)
  have f7 : fld w 20 6 = d := fld_zext x0 (fld_in (lo := 23) (n := 3) k3 0 rfl (by decide) rfl)
  exact decodeWord_of ((raw04 hq).trans (by simp [decOp04, k0, f0, f1, f2, f3, f4, f5, x2, k1, x1, f6, k2, x0, f7, k3])) g

theorem mor (d : Nat) (a : Nat) (b : Nat) : Statement (.mor d a b) := by
  intro w g h
  obtain ⟨hq, k0, k1, k2, k3, x0, x1, x2⟩ := lay10 4 1 0 0 0 (isMaskDst_lt (and_left (and_left g))) (isMask_lt (and_right (and_left g))) (isMask_lt (and_right g)) rfl (by decide) (Option.some.inj h)
  have f0 : ¬ fld w 0 14 = 4 := fun e =>
    fld_ne (lo := 0) (n := 8) (fld_in e 0 rfl (by decide) rfl) (fld_in k0 0 rfl (by decide) rfl) (by decide)
  have f1 : ¬ fld w 0 14 = 5 := fun e =>
    fld_ne (lo := 0) (n := 8) (fld_in e 0 rfl (by decide) rfl) (fld_in k0 0 rfl (by decide) rfl) (by decide)
  have f2 : ¬ fld w 0 14 = 8 := fun e =>
    fld_ne (lo := 0) (n := 8) (fld_in e 0 rfl (by decide) rfl) (fld_in k0 0 rfl (by decide) rfl) (by decide)
  have f3 : ¬ fld w 0 14 = 9 := fun e =>
    fld_ne (lo := 0) (n := 8) (fld_in e 0 rfl (by decide) rfl) (fld_in k0 0 rfl (by decide) rfl) (by decide)
  have f4 : ¬ fld w 0 14 = 10 := fun e =>
    fld_ne (lo := 0) (n := 8) (fld_in e 0 rfl (by decide) rfl) (fld_in k0 0 rfl (by decide) rfl) (by decide)
  have f5 : ¬ fld w 0 14 = 11 := fun e =>
    fld_ne (lo := 0) (n := 8) (fld_in e 0 rfl (by decide) rfl) (fld_in k0 0 rfl (by decide) rfl) (by decide)
  have f6 : fld w 14 6 = a := fld_zext x1 (fld_in (lo := 17) (n := 3) k2 0 rfl (by decide) rfl)
  have f7 : fld w 20 6 = d := fld_zext x0 (fld_in (lo := 23) (n := 3) k3 0 rfl (by decide) rfl)
  exact decodeWord_of ((raw04 hq).trans (by simp [decOp04, k0, f0, f1, f2, f3, f4, f5, x2, k1, x1, f6, k2, x0, f7, k3])) g

theorem mxor (d : Nat) (a : Nat) (b : Nat) : Statement (.mxor d a b) := by
  intro w g h
  obtain ⟨hq, k0, k1, k2, k3, x0, x1, x2⟩ := lay10 4 2 0 0 0 (isMaskDst_lt (and_left (and_left g))) (isMask_lt (and_right (and_left g))) (isMask_lt (and_right g)) rfl (by decide) (Option.some.inj h)
  have f0 : ¬ fld w 0 14 = 4 := fun e =>
    fld_ne (lo := 0) (n := 8) (fld_in e 0 rfl (by decide) rfl) (fld_in k0 0 rfl (by decide) rfl) (by decide)
  have f1 : ¬ fld w 0 14 = 5 := fun e =>
    fld_ne (lo := 0) (n := 8) (fld_in e 0 rfl (by decide) rfl) (fld_in k0 0 rfl (by decide) rfl) (by decide)
  have f2 : ¬ fld w 0 14 = 8 := fun e =>
    fld_ne (lo := 0) (n := 8) (fld_in e 0 rfl (by decide) rfl) (fld_in k0 0 rfl (by decide) rfl) (by decide)
  have f3 : ¬ fld w 0 14 = 9 := fun e =>
    fld_ne (lo := 0) (n := 8) (fld_in e 0 rfl (by decide) rfl) (fld_in k0 0 rfl (by decide) rfl) (by decide)
  have f4 : ¬ fld w 0 14 = 10 := fun e =>
    fld_ne (lo := 0) (n := 8) (fld_in e 0 rfl (by decide) rfl) (fld_in k0 0 rfl (by decide) rfl) (by decide)
  have f5 : ¬ fld w 0 14 = 11 := fun e =>
    fld_ne (lo := 0) (n := 8) (fld_in e 0 rfl (by decide) rfl) (fld_in k0 0 rfl (by decide) rfl) (by decide)
  have f6 : fld w 14 6 = a := fld_zext x1 (fld_in (lo := 17) (n := 3) k2 0 rfl (by decide) rfl)
  have f7 : fld w 20 6 = d := fld_zext x0 (fld_in (lo := 23) (n := 3) k3 0 rfl (by decide) rfl)
  exact decodeWord_of ((raw04 hq).trans (by simp [decOp04, k0, f0, f1, f2, f3, f4, f5, x2, k1, x1, f6, k2, x0, f7, k3])) g

theorem mandn (d : Nat) (a : Nat) (b : Nat) : Statement (.mandn d a b) := by
  intro w g h
  obtain ⟨hq, k0, k1, k2, k3, x0, x1, x2⟩ := lay10 4 3 0 0 0 (isMaskDst_lt (and_left (and_left g))) (isMask_lt (and_right (and_left g))) (isMask_lt (and_right g)) rfl (by decide) (Option.some.inj h)
  have f0 : ¬ fld w 0 14 = 4 := fun e =>
    fld_ne (lo := 0) (n := 8) (fld_in e 0 rfl (by decide) rfl) (fld_in k0 0 rfl (by decide) rfl) (by decide)
  have f1 : ¬ fld w 0 14 = 5 := fun e =>
    fld_ne (lo := 0) (n := 8) (fld_in e 0 rfl (by decide) rfl) (fld_in k0 0 rfl (by decide) rfl) (by decide)
  have f2 : ¬ fld w 0 14 = 8 := fun e =>
    fld_ne (lo := 0) (n := 8) (fld_in e 0 rfl (by decide) rfl) (fld_in k0 0 rfl (by decide) rfl) (by decide)
  have f3 : ¬ fld w 0 14 = 9 := fun e =>
    fld_ne (lo := 0) (n := 8) (fld_in e 0 rfl (by decide) rfl) (fld_in k0 0 rfl (by decide) rfl) (by decide)
  have f4 : ¬ fld w 0 14 = 10 := fun e =>
    fld_ne (lo := 0) (n := 8) (fld_in e 0 rfl (by decide) rfl) (fld_in k0 0 rfl (by decide) rfl) (by decide)
  have f5 : ¬ fld w 0 14 = 11 := fun e =>
    fld_ne (lo := 0) (n := 8) (fld_in e 0 rfl (by decide) rfl) (fld_in k0 0 rfl (by decide) rfl) (by decide)
  have f6 : fld w 14 6 = a := fld_zext x1 (fld_in (lo := 17) (n := 3) k2 0 rfl (by decide) rfl)
  have f7 : fld w 20 6 = d := fld_zext x0 (fld_in (lo := 23) (n := 3) k3 0 rfl (by decide) rfl)
  exact decodeWord_of ((raw04 hq).trans (by simp [decOp04, k0, f0, f1, f2, f3, f4, f5, x2, k1, x1, f6, k2, x0, f7, k3])) g

theorem mnot (d : Nat) (a : Nat) : Statement (.mnot d a) := by
  intro w g h
  obtain ⟨hq, k0, k1, k2, x0, x1⟩ := lay11 4 4 0 0 (isMaskDst_lt (and_left g)) (isMask_lt (and_right g)) rfl (by decide) (Option.some.inj h)
  have f0 : fld w 0 8 = 4 := fld_in k0 0 rfl (by decide) rfl
  have f1 : fld w 8 3 = 0 := fld_in k0 8 rfl (by decide) rfl
  have f2 : fld w 11 3 = 0 := fld_in k0 11 rfl (by decide) rfl
  have f3 : fld w 14 6 = a := fld_zext x1 (fld_in (lo := 17) (n := 3) k1 0 rfl (by decide) rfl)
  have f4 : fld w 20 6 = d := fld_zext x0 (fld_in (lo := 23) (n := 3) k2 0 rfl (by decide) rfl)
  exact decodeWord_of ((raw04 hq).trans (by simp [decOp04, f0, k0, f1, f2, x1, f3, k1, x0, f4, k2])) g

theorem mmov (d : Nat) (a : Nat) : Statement (.mmov d a) := by
  intro w g h
  obtain ⟨hq, k0, k1, k2, x0, x1⟩ := lay11 4 5 0 0 (isMaskDst_lt (and_left g)) (isMask_lt (and_right g)) rfl (by decide) (Option.some.inj h)
  have f0 : fld w 0 8 = 5 := fld_in k0 0 rfl (by decide) rfl
  have f1 : fld w 8 3 = 0 := fld_in k0 8 rfl (by decide) rfl
  have f2 : fld w 11 3 = 0 := fld_in k0 11 rfl (by decide) rfl
  have f3 : fld w 14 6 = a := fld_zext x1 (fld_in (lo := 17) (n := 3) k1 0 rfl (by decide) rfl)
  have f4 : fld w 20 6 = d := fld_zext x0 (fld_in (lo := 23) (n := 3) k2 0 rfl (by decide) rfl)
  exact decodeWord_of ((raw04 hq).trans (by simp [decOp04, f0, k0, f1, f2, x1, f3, k1, x0, f4, k2])) g

theorem mpop (d : Nat) (a : Nat) : Statement (.mpop d a) := by
  intro w g h
  obtain ⟨hq, k0, k1, x0, x1⟩ := lay12 4 8 0 (isReg_lt (and_left g)) (isMask_lt (and_right g)) rfl (by decide) (Option.some.inj h)
  have f0 : fld w 0 8 = 8 := fld_in k0 0 rfl (by decide) rfl
  have f1 : fld w 8 3 = 0 := fld_in k0 8 rfl (by decide) rfl
  have f2 : fld w 11 3 = 0 := fld_in k0 11 rfl (by decide) rfl
  have f3 : fld w 14 6 = a := fld_zext x1 (fld_in (lo := 17) (n := 3) k1 0 rfl (by decide) rfl)
  exact decodeWord_of ((raw04 hq).trans (by simp [decOp04, f0, k0, f1, f2, x1, f3, k1, x0])) g

theorem mfirst (d : Nat) (a : Nat) : Statement (.mfirst d a) := by
  intro w g h
  obtain ⟨hq, k0, k1, x0, x1⟩ := lay12 4 9 0 (isReg_lt (and_left g)) (isMask_lt (and_right g)) rfl (by decide) (Option.some.inj h)
  have f0 : fld w 0 8 = 9 := fld_in k0 0 rfl (by decide) rfl
  have f1 : fld w 8 3 = 0 := fld_in k0 8 rfl (by decide) rfl
  have f2 : fld w 11 3 = 0 := fld_in k0 11 rfl (by decide) rfl
  have f3 : fld w 14 6 = a := fld_zext x1 (fld_in (lo := 17) (n := 3) k1 0 rfl (by decide) rfl)
  exact decodeWord_of ((raw04 hq).trans (by simp [decOp04, f0, k0, f1, f2, x1, f3, k1, x0])) g

theorem mtov (d : Nat) (a : Nat) : Statement (.mtov d a) := by
  intro w g h
  obtain ⟨hq, k0, k1, x0, x1⟩ := lay12 4 10 0 (isReg_lt (and_left g)) (isMask_lt (and_right g)) rfl (by decide) (Option.some.inj h)
  have f0 : fld w 0 8 = 10 := fld_in k0 0 rfl (by decide) rfl
  have f1 : fld w 8 3 = 0 := fld_in k0 8 rfl (by decide) rfl
  have f2 : fld w 11 3 = 0 := fld_in k0 11 rfl (by decide) rfl
  have f3 : fld w 14 6 = a := fld_zext x1 (fld_in (lo := 17) (n := 3) k1 0 rfl (by decide) rfl)
  exact decodeWord_of ((raw04 hq).trans (by simp [decOp04, f0, k0, f1, f2, x1, f3, k1, x0])) g

theorem vtom (d : Nat) (a : Nat) : Statement (.vtom d a) := by
  intro w g h
  obtain ⟨hq, k0, k1, x0, x1⟩ := lay13 4 11 0 (isMaskDst_lt (and_left g)) (isReg_lt (and_right g)) rfl (by decide) (Option.some.inj h)
  have f0 : fld w 0 8 = 11 := fld_in k0 0 rfl (by decide) rfl
  have f1 : fld w 8 3 = 0 := fld_in k0 8 rfl (by decide) rfl
  have f2 : fld w 11 3 = 0 := fld_in k0 11 rfl (by decide) rfl
  have f3 : fld w 20 6 = d := fld_zext x0 (fld_in (lo := 23) (n := 3) k1 0 rfl (by decide) rfl)
  exact decodeWord_of ((raw04 hq).trans (by simp [decOp04, f0, k0, f1, f2, x1, x0, f3, k1])) g

theorem br (c : BrCond) (m : Nat) (o : Nat) : Statement (.br c m o) := by
  intro w g h
  obtain ⟨hq, x0, x1, x2⟩ := lay14 52 (BrCond.code_lt c) (isMask_lt (and_left (and_left g))) (below (k := 524288) (and_right (and_left g)) (by decide)) rfl (Option.some.inj h)
  exact decodeWord_of ((raw34 hq).trans (by simp [decOp34, x2, x1, x0])) g

theorem call (c : BrCond) (m : Nat) (o : Nat) : Statement (.call c m o) := by
  intro w g h
  obtain ⟨hq, x0, x1, x2⟩ := lay14 53 (BrCond.code_lt c) (isMask_lt (and_left (and_left g))) (below (k := 524288) (and_right (and_left g)) (by decide)) rfl (Option.some.inj h)
  exact decodeWord_of ((raw35 hq).trans (by simp [decOp35, x2, x1, x0])) g

theorem join : Statement .join := by
  intro w g h
  obtain ⟨hq, k0⟩ := lay15 54 0 rfl (by decide) (Option.some.inj h)
  have f0 : fld w 0 14 = 0 := fld_in k0 0 rfl (by decide) rfl
  have f1 : fld w 14 6 = 0 := fld_in k0 14 rfl (by decide) rfl
  have f2 : fld w 20 6 = 0 := fld_in k0 20 rfl (by decide) rfl
  exact decodeWord_of ((raw36 hq).trans (by simp [decOp36, f0, k0, f1, f2])) g

theorem jmp (a : Nat) : Statement (.jmp a) := by
  intro w g h
  obtain ⟨hq, k0, k1, x0⟩ := lay16 54 1 0 (isPair_lt g) rfl (by decide) (Option.some.inj h)
  have f0 : ¬ fld w 0 26 = 0 := fun e =>
    fld_ne (lo := 0) (n := 14) (fld_in e 0 rfl (by decide) rfl) (fld_in k0 0 rfl (by decide) rfl) (by decide)
  exact decodeWord_of ((raw36 hq).trans (by simp [decOp36, k0, f0, x0, k1])) g

theorem calli (d : Nat) (a : Nat) : Statement (.calli d a) := by
  intro w g h
  obtain ⟨hq, k0, x0, x1⟩ := lay17 54 2 (isPair_lt (and_left g)) (isPair_lt (and_right g)) rfl (by decide) (Option.some.inj h)
  have f0 : ¬ fld w 0 26 = 0 := fun e =>
    fld_ne (lo := 0) (n := 14) (fld_in e 0 rfl (by decide) rfl) (fld_in k0 0 rfl (by decide) rfl) (by decide)
  exact decodeWord_of ((raw36 hq).trans (by simp [decOp36, k0, f0, x1, x0])) g

theorem ret (a : Nat) : Statement (.ret a) := by
  intro w g h
  obtain ⟨hq, k0, k1, x0⟩ := lay16 54 3 0 (isPair_lt g) rfl (by decide) (Option.some.inj h)
  have f0 : ¬ fld w 0 26 = 0 := fun e =>
    fld_ne (lo := 0) (n := 14) (fld_in e 0 rfl (by decide) rfl) (fld_in k0 0 rfl (by decide) rfl) (by decide)
  exact decodeWord_of ((raw36 hq).trans (by simp [decOp36, k0, f0, x0, k1])) g

theorem regang (s : Nat) : Statement (.regang s) := by
  intro w g h
  obtain ⟨hq, k0, x0⟩ := lay18 55 0 (below (k := 256) g (by decide)) rfl (by decide) (Option.some.inj h)
  exact decodeWord_of ((raw37 hq).trans (by simp [decOp37, x0, k0])) g

theorem fadd (d : Nat) (a : Nat) (b : Nat) (m : Nat) (f : FBinFmt) : Statement (.fadd d a b m f) := by
  intro w g h
  obtain ⟨hq, k0, x0, x1, x2, x3, x4⟩ := lay19 16 0 (isReg_lt (and_left (and_left (and_left g)))) (isReg_lt (and_right (and_left (and_left g)))) (isReg_lt (and_right (and_left g))) (isMs_lt (and_right g)) (FBinFmt.code_lt f) rfl (by decide) (Option.some.inj h)
  exact decodeWord_of ((raw10 hq).trans (by simp [decOp10, x4, k0, x3, x2, x1, x0])) g

theorem fsub (d : Nat) (a : Nat) (b : Nat) (m : Nat) (f : FBinFmt) : Statement (.fsub d a b m f) := by
  intro w g h
  obtain ⟨hq, k0, x0, x1, x2, x3, x4⟩ := lay19 16 1 (isReg_lt (and_left (and_left (and_left g)))) (isReg_lt (and_right (and_left (and_left g)))) (isReg_lt (and_right (and_left g))) (isMs_lt (and_right g)) (FBinFmt.code_lt f) rfl (by decide) (Option.some.inj h)
  exact decodeWord_of ((raw10 hq).trans (by simp [decOp10, x4, k0, x3, x2, x1, x0])) g

theorem fmul (d : Nat) (a : Nat) (b : Nat) (m : Nat) (f : FBinFmt) : Statement (.fmul d a b m f) := by
  intro w g h
  obtain ⟨hq, k0, x0, x1, x2, x3, x4⟩ := lay19 16 2 (isReg_lt (and_left (and_left (and_left g)))) (isReg_lt (and_right (and_left (and_left g)))) (isReg_lt (and_right (and_left g))) (isMs_lt (and_right g)) (FBinFmt.code_lt f) rfl (by decide) (Option.some.inj h)
  exact decodeWord_of ((raw10 hq).trans (by simp [decOp10, x4, k0, x3, x2, x1, x0])) g

theorem fdiv (d : Nat) (a : Nat) (b : Nat) (m : Nat) (f : FBinFmt) : Statement (.fdiv d a b m f) := by
  intro w g h
  obtain ⟨hq, k0, x0, x1, x2, x3, x4⟩ := lay19 16 3 (isReg_lt (and_left (and_left (and_left g)))) (isReg_lt (and_right (and_left (and_left g)))) (isReg_lt (and_right (and_left g))) (isMs_lt (and_right g)) (FBinFmt.code_lt f) rfl (by decide) (Option.some.inj h)
  exact decodeWord_of ((raw10 hq).trans (by simp [decOp10, x4, k0, x3, x2, x1, x0])) g

theorem fmin (d : Nat) (a : Nat) (b : Nat) (m : Nat) (f : FBinFmt) : Statement (.fmin d a b m f) := by
  intro w g h
  obtain ⟨hq, k0, x0, x1, x2, x3, x4⟩ := lay19 16 4 (isReg_lt (and_left (and_left (and_left g)))) (isReg_lt (and_right (and_left (and_left g)))) (isReg_lt (and_right (and_left g))) (isMs_lt (and_right g)) (FBinFmt.code_lt f) rfl (by decide) (Option.some.inj h)
  exact decodeWord_of ((raw10 hq).trans (by simp [decOp10, x4, k0, x3, x2, x1, x0])) g

theorem fmax (d : Nat) (a : Nat) (b : Nat) (m : Nat) (f : FBinFmt) : Statement (.fmax d a b m f) := by
  intro w g h
  obtain ⟨hq, k0, x0, x1, x2, x3, x4⟩ := lay19 16 5 (isReg_lt (and_left (and_left (and_left g)))) (isReg_lt (and_right (and_left (and_left g)))) (isReg_lt (and_right (and_left g))) (isMs_lt (and_right g)) (FBinFmt.code_lt f) rfl (by decide) (Option.some.inj h)
  exact decodeWord_of ((raw10 hq).trans (by simp [decOp10, x4, k0, x3, x2, x1, x0])) g

theorem fcopysign (d : Nat) (a : Nat) (b : Nat) (m : Nat) (f : FBinFmt) : Statement (.fcopysign d a b m f) := by
  intro w g h
  obtain ⟨hq, k0, x0, x1, x2, x3, x4⟩ := lay19 16 6 (isReg_lt (and_left (and_left (and_left g)))) (isReg_lt (and_right (and_left (and_left g)))) (isReg_lt (and_right (and_left g))) (isMs_lt (and_right g)) (FBinFmt.code_lt f) rfl (by decide) (Option.some.inj h)
  exact decodeWord_of ((raw10 hq).trans (by simp [decOp10, x4, k0, x3, x2, x1, x0])) g

theorem fneg (d : Nat) (a : Nat) (m : Nat) (f : FFmt) : Statement (.fneg d a m f) := by
  intro w g h
  obtain ⟨hq, k0, k1, x0, x1, x2, x3⟩ := lay20 17 0 0 (isReg_lt (and_left (and_left g))) (isReg_lt (and_right (and_left g))) (isMs_lt (and_right g)) (FFmt.code_lt f) rfl (by decide) (Option.some.inj h)
  exact decodeWord_of ((raw11 hq).trans (by simp [decOp11, x3, k0, x2, k1, x1, x0])) g

theorem fabs (d : Nat) (a : Nat) (m : Nat) (f : FFmt) : Statement (.fabs d a m f) := by
  intro w g h
  obtain ⟨hq, k0, k1, x0, x1, x2, x3⟩ := lay20 17 1 0 (isReg_lt (and_left (and_left g))) (isReg_lt (and_right (and_left g))) (isMs_lt (and_right g)) (FFmt.code_lt f) rfl (by decide) (Option.some.inj h)
  exact decodeWord_of ((raw11 hq).trans (by simp [decOp11, x3, k0, x2, k1, x1, x0])) g

theorem fsqrt (d : Nat) (a : Nat) (m : Nat) (f : FFmt) : Statement (.fsqrt d a m f) := by
  intro w g h
  obtain ⟨hq, k0, k1, x0, x1, x2, x3⟩ := lay20 17 2 0 (isReg_lt (and_left (and_left g))) (isReg_lt (and_right (and_left g))) (isMs_lt (and_right g)) (FFmt.code_lt f) rfl (by decide) (Option.some.inj h)
  exact decodeWord_of ((raw11 hq).trans (by simp [decOp11, x3, k0, x2, k1, x1, x0])) g

theorem frcp (d : Nat) (a : Nat) (m : Nat) (f : FFmt) : Statement (.frcp d a m f) := by
  intro w g h
  obtain ⟨hq, k0, k1, x0, x1, x2, x3⟩ := lay20 17 3 0 (isReg_lt (and_left (and_left g))) (isReg_lt (and_right (and_left g))) (isMs_lt (and_right g)) (FFmt.code_lt f) rfl (by decide) (Option.some.inj h)
  exact decodeWord_of ((raw11 hq).trans (by simp [decOp11, x3, k0, x2, k1, x1, x0])) g

theorem frsq (d : Nat) (a : Nat) (m : Nat) (f : FFmt) : Statement (.frsq d a m f) := by
  intro w g h
  obtain ⟨hq, k0, k1, x0, x1, x2, x3⟩ := lay20 17 4 0 (isReg_lt (and_left (and_left g))) (isReg_lt (and_right (and_left g))) (isMs_lt (and_right g)) (FFmt.code_lt f) rfl (by decide) (Option.some.inj h)
  exact decodeWord_of ((raw11 hq).trans (by simp [decOp11, x3, k0, x2, k1, x1, x0])) g

theorem fexp2 (d : Nat) (a : Nat) (m : Nat) (f : FFmt) : Statement (.fexp2 d a m f) := by
  intro w g h
  obtain ⟨hq, k0, k1, x0, x1, x2, x3⟩ := lay20 17 5 0 (isReg_lt (and_left (and_left g))) (isReg_lt (and_right (and_left g))) (isMs_lt (and_right g)) (FFmt.code_lt f) rfl (by decide) (Option.some.inj h)
  exact decodeWord_of ((raw11 hq).trans (by simp [decOp11, x3, k0, x2, k1, x1, x0])) g

theorem flog2 (d : Nat) (a : Nat) (m : Nat) (f : FFmt) : Statement (.flog2 d a m f) := by
  intro w g h
  obtain ⟨hq, k0, k1, x0, x1, x2, x3⟩ := lay20 17 6 0 (isReg_lt (and_left (and_left g))) (isReg_lt (and_right (and_left g))) (isMs_lt (and_right g)) (FFmt.code_lt f) rfl (by decide) (Option.some.inj h)
  exact decodeWord_of ((raw11 hq).trans (by simp [decOp11, x3, k0, x2, k1, x1, x0])) g

theorem fsin (d : Nat) (a : Nat) (m : Nat) (f : FFmt) : Statement (.fsin d a m f) := by
  intro w g h
  obtain ⟨hq, k0, k1, x0, x1, x2, x3⟩ := lay20 17 7 0 (isReg_lt (and_left (and_left g))) (isReg_lt (and_right (and_left g))) (isMs_lt (and_right g)) (FFmt.code_lt f) rfl (by decide) (Option.some.inj h)
  exact decodeWord_of ((raw11 hq).trans (by simp [decOp11, x3, k0, x2, k1, x1, x0])) g

theorem fcos (d : Nat) (a : Nat) (m : Nat) (f : FFmt) : Statement (.fcos d a m f) := by
  intro w g h
  obtain ⟨hq, k0, k1, x0, x1, x2, x3⟩ := lay20 17 8 0 (isReg_lt (and_left (and_left g))) (isReg_lt (and_right (and_left g))) (isMs_lt (and_right g)) (FFmt.code_lt f) rfl (by decide) (Option.some.inj h)
  exact decodeWord_of ((raw11 hq).trans (by simp [decOp11, x3, k0, x2, k1, x1, x0])) g

theorem ftanh (d : Nat) (a : Nat) (m : Nat) (f : FFmt) : Statement (.ftanh d a m f) := by
  intro w g h
  obtain ⟨hq, k0, k1, x0, x1, x2, x3⟩ := lay20 17 9 0 (isReg_lt (and_left (and_left g))) (isReg_lt (and_right (and_left g))) (isMs_lt (and_right g)) (FFmt.code_lt f) rfl (by decide) (Option.some.inj h)
  exact decodeWord_of ((raw11 hq).trans (by simp [decOp11, x3, k0, x2, k1, x1, x0])) g

theorem fsigm (d : Nat) (a : Nat) (m : Nat) (f : FFmt) : Statement (.fsigm d a m f) := by
  intro w g h
  obtain ⟨hq, k0, k1, x0, x1, x2, x3⟩ := lay20 17 10 0 (isReg_lt (and_left (and_left g))) (isReg_lt (and_right (and_left g))) (isMs_lt (and_right g)) (FFmt.code_lt f) rfl (by decide) (Option.some.inj h)
  exact decodeWord_of ((raw11 hq).trans (by simp [decOp11, x3, k0, x2, k1, x1, x0])) g

theorem ffloor (d : Nat) (a : Nat) (m : Nat) (f : FFmt) : Statement (.ffloor d a m f) := by
  intro w g h
  obtain ⟨hq, k0, k1, x0, x1, x2, x3⟩ := lay20 17 11 0 (isReg_lt (and_left (and_left g))) (isReg_lt (and_right (and_left g))) (isMs_lt (and_right g)) (FFmt.code_lt f) rfl (by decide) (Option.some.inj h)
  exact decodeWord_of ((raw11 hq).trans (by simp [decOp11, x3, k0, x2, k1, x1, x0])) g

theorem fceil (d : Nat) (a : Nat) (m : Nat) (f : FFmt) : Statement (.fceil d a m f) := by
  intro w g h
  obtain ⟨hq, k0, k1, x0, x1, x2, x3⟩ := lay20 17 12 0 (isReg_lt (and_left (and_left g))) (isReg_lt (and_right (and_left g))) (isMs_lt (and_right g)) (FFmt.code_lt f) rfl (by decide) (Option.some.inj h)
  exact decodeWord_of ((raw11 hq).trans (by simp [decOp11, x3, k0, x2, k1, x1, x0])) g

theorem ftrunc (d : Nat) (a : Nat) (m : Nat) (f : FFmt) : Statement (.ftrunc d a m f) := by
  intro w g h
  obtain ⟨hq, k0, k1, x0, x1, x2, x3⟩ := lay20 17 13 0 (isReg_lt (and_left (and_left g))) (isReg_lt (and_right (and_left g))) (isMs_lt (and_right g)) (FFmt.code_lt f) rfl (by decide) (Option.some.inj h)
  exact decodeWord_of ((raw11 hq).trans (by simp [decOp11, x3, k0, x2, k1, x1, x0])) g

theorem frint (d : Nat) (a : Nat) (m : Nat) (f : FFmt) : Statement (.frint d a m f) := by
  intro w g h
  obtain ⟨hq, k0, k1, x0, x1, x2, x3⟩ := lay20 17 14 0 (isReg_lt (and_left (and_left g))) (isReg_lt (and_right (and_left g))) (isMs_lt (and_right g)) (FFmt.code_lt f) rfl (by decide) (Option.some.inj h)
  exact decodeWord_of ((raw11 hq).trans (by simp [decOp11, x3, k0, x2, k1, x1, x0])) g

theorem ffmaF32 (d : Nat) (a : Nat) (b : Nat) (c : Nat) (m : Nat) : Statement (.ffmaF32 d a b c m) := by
  intro w g h
  obtain ⟨hq, x0, x1, x2, x3, x4⟩ := lay7 19 (isReg_lt (and_left (and_left (and_left (and_left g))))) (isReg_lt (and_right (and_left (and_left (and_left g))))) (isReg_lt (and_right (and_left (and_left g)))) (isReg_lt (and_right (and_left g))) (isMs_lt (and_right g)) rfl (Option.some.inj h)
  exact decodeWord_of ((raw13 hq).trans (by simp [decOp13, x4, x3, x2, x1, x0])) g

theorem ffmaF16x2 (d : Nat) (a : Nat) (b : Nat) (c : Nat) (m : Nat) : Statement (.ffmaF16x2 d a b c m) := by
  intro w g h
  obtain ⟨hq, x0, x1, x2, x3, x4⟩ := lay7 20 (isReg_lt (and_left (and_left (and_left (and_left g))))) (isReg_lt (and_right (and_left (and_left (and_left g))))) (isReg_lt (and_right (and_left (and_left g)))) (isReg_lt (and_right (and_left g))) (isMs_lt (and_right g)) rfl (Option.some.inj h)
  exact decodeWord_of ((raw14 hq).trans (by simp [decOp14, x4, x3, x2, x1, x0])) g

theorem ffmaBf16x2 (d : Nat) (a : Nat) (b : Nat) (c : Nat) (m : Nat) : Statement (.ffmaBf16x2 d a b c m) := by
  intro w g h
  obtain ⟨hq, x0, x1, x2, x3, x4⟩ := lay7 21 (isReg_lt (and_left (and_left (and_left (and_left g))))) (isReg_lt (and_right (and_left (and_left (and_left g))))) (isReg_lt (and_right (and_left (and_left g)))) (isReg_lt (and_right (and_left g))) (isMs_lt (and_right g)) rfl (Option.some.inj h)
  exact decodeWord_of ((raw15 hq).trans (by simp [decOp15, x4, x3, x2, x1, x0])) g

theorem fcmp (d : Nat) (a : Nat) (b : Nat) (t : FFmt) (c : FCond) : Statement (.fcmp d a b t c) := by
  intro w g h
  obtain ⟨hq, k0, k1, x0, x1, x2, x3, x4⟩ := lay8 18 0 0 (isMaskDst_lt (and_left (and_left g))) (isReg_lt (and_right (and_left g))) (isReg_lt (and_right g)) (Nat.lt_of_lt_of_le (FFmt.code_lt t) (by decide)) (FCond.code_lt c) rfl (by decide) (Option.some.inj h)
  exact decodeWord_of ((raw12 hq).trans (by simp [decOp12, x4, x3, k0, x2, x1, x0, k1])) g

theorem cvt (v : Nat) (a : Nat) (s : Fmt) (m : Nat) (t : Bool) (d : Fmt) : Statement (.cvt v a s m t d) := by
  intro w g h
  obtain ⟨hq, k0, x0, x1, x2, x3, x4, x5⟩ := lay21 22 0 (cvtWf_lt (and_left g)).1 (cvtWf_lt (and_left g)).2 (Fmt.code_lt s) (isMs_lt (and_right g)) (toNat_lt t) (Fmt.code_lt d) rfl (by decide) (Option.some.inj h)
  exact decodeWord_of ((raw16 hq).trans (by simp [decOp16, x5, x4, x3, x2, k0, x1, x0])) g

theorem cvtBlk (v : Nat) (a : Nat) (s : Fmt) (m : Nat) (t : Bool) (d : Fmt) : Statement (.cvtBlk v a s m t d) := by
  intro w g h
  obtain ⟨hq, k0, x0, x1, x2, x3, x4, x5⟩ := lay21 22 1 (cvtWf_lt (and_left g)).1 (cvtWf_lt (and_left g)).2 (Fmt.code_lt s) (isMs_lt (and_right g)) (toNat_lt t) (Fmt.code_lt d) rfl (by decide) (Option.some.inj h)
  exact decodeWord_of ((raw16 hq).trans (by simp [decOp16, x5, x4, x3, x2, k0, x1, x0])) g

theorem tag (d : Nat) (a : Nat) (m : Nat) (i : Nat) (f : Fmt) : Statement (.tag d a m i f) := by
  intro w g h
  obtain ⟨hq, k0, x0, x1, x2, x3, x4⟩ := lay22 23 0 (isRegOf_lt (and_left (and_left (and_left g)))) (isRegOf_lt (and_right (and_left (and_left g)))) (isMs_lt (and_right (and_left g))) (below (k := 16) (and_right g) (by decide)) (Fmt.code_lt f) rfl (by decide) (Option.some.inj h)
  exact decodeWord_of ((raw17 hq).trans (by simp [decOp17, x4, x3, k0, x2, x1, x0])) g

theorem ballot (d : Nat) (a : Nat) : Statement (.ballot d a) := by
  intro w g h
  obtain ⟨hq, k0, k1, x0, x1⟩ := lay13 24 0 0 (isMaskDst_lt (and_left g)) (isReg_lt (and_right g)) rfl (by decide) (Option.some.inj h)
  have f0 : fld w 0 3 = 0 := fld_in k0 0 rfl (by decide) rfl
  have f1 : fld w 0 6 = 0 := fld_in k0 0 rfl (by decide) rfl
  have f2 : fld w 3 3 = 0 := fld_in k0 3 rfl (by decide) rfl
  have f3 : fld w 6 2 = 0 := fld_in k0 6 rfl (by decide) rfl
  have f4 : fld w 8 6 = 0 := fld_in k0 8 rfl (by decide) rfl
  have f5 : fld w 20 6 = d := fld_zext x0 (fld_in (lo := 23) (n := 3) k1 0 rfl (by decide) rfl)
  exact decodeWord_of ((raw18 hq).trans (by simp [decOp18, f0, f1, k0, f2, f3, f4, x1, x0, f5, k1])) g

theorem bcast (d : Nat) (a : Nat) (b : Nat) (m : Nat) : Statement (.bcast d a b m) := by
  intro w g h
  obtain ⟨hq, k0, x0, x1, x2, x3⟩ := lay1 24 1 (isReg_lt (and_left (and_left (and_left g)))) (isReg_lt (and_right (and_left (and_left g)))) (isReg_lt (and_right (and_left g))) (isMs_lt (and_right g)) rfl (by decide) (Option.some.inj h)
  have f0 : fld w 0 3 = 1 := fld_in k0 0 rfl (by decide) rfl
  have f1 : ¬ fld w 0 14 = 0 := fun e =>
    fld_ne (lo := 0) (n := 6) (fld_in e 0 rfl (by decide) rfl) (fld_in k0 0 rfl (by decide) rfl) (by decide)
  have f2 : fld w 3 3 = 0 := fld_in k0 3 rfl (by decide) rfl
  exact decodeWord_of ((raw18 hq).trans (by simp [decOp18, f0, k0, f1, f2, x3, x2, x1, x0])) g

theorem xchg (d : Nat) (a : Nat) (b : Nat) (m : Nat) : Statement (.xchg d a b m) := by
  intro w g h
  obtain ⟨hq, k0, x0, x1, x2, x3⟩ := lay1 24 2 (isReg_lt (and_left (and_left (and_left g)))) (isReg_lt (and_right (and_left (and_left g)))) (isReg_lt (and_right (and_left g))) (isMs_lt (and_right g)) rfl (by decide) (Option.some.inj h)
  have f0 : fld w 0 3 = 2 := fld_in k0 0 rfl (by decide) rfl
  have f1 : ¬ fld w 0 14 = 0 := fun e =>
    fld_ne (lo := 0) (n := 6) (fld_in e 0 rfl (by decide) rfl) (fld_in k0 0 rfl (by decide) rfl) (by decide)
  have f2 : fld w 3 3 = 0 := fld_in k0 3 rfl (by decide) rfl
  exact decodeWord_of ((raw18 hq).trans (by simp [decOp18, f0, k0, f1, f2, x3, x2, x1, x0])) g

theorem shfl (d : Nat) (a : Nat) (b : Nat) (c : Nat) (m : Nat) : Statement (.shfl d a b c m) := by
  intro w g h
  obtain ⟨hq, x0, x1, x2, x3, x4⟩ := lay7 25 (isReg_lt (and_left (and_left (and_left (and_left g))))) (isReg_lt (and_right (and_left (and_left (and_left g))))) (isReg_lt (and_right (and_left (and_left g)))) (isReg_lt (and_right (and_left g))) (isMs_lt (and_right g)) rfl (Option.some.inj h)
  exact decodeWord_of ((raw19 hq).trans (by simp [decOp19, x4, x3, x2, x1, x0])) g

theorem scan (d : Nat) (a : Nat) (m : Nat) (c : ScanOp) : Statement (.scan d a m c) := by
  intro w g h
  obtain ⟨hq, k0, k1, x0, x1, x2, x3⟩ := lay23 24 1 0 (isReg_lt (and_left (and_left g))) (isReg_lt (and_right (and_left g))) (isMs_lt (and_right g)) (ScanOp.code_lt c) rfl (by decide) (Option.some.inj h)
  have f0 : ¬ fld w 0 6 = 1 := fun e =>
    fld_ne (lo := 3) (n := 3) (fld_in e 3 rfl (by decide) rfl) (fld_in k0 0 rfl (by decide) rfl) (by decide)
  have f1 : ¬ fld w 0 6 = 2 := fun e =>
    fld_ne (lo := 3) (n := 3) (fld_in e 3 rfl (by decide) rfl) (fld_in k0 0 rfl (by decide) rfl) (by decide)
  have f2 : ¬ fld w 0 14 = 0 := fun e =>
    fld_ne (lo := 3) (n := 3) (fld_in e 3 rfl (by decide) rfl) (fld_in k0 0 rfl (by decide) rfl) (by decide)
  exact decodeWord_of ((raw18 hq).trans (by simp [decOp18, x3, f0, f1, f2, k0, x2, k1, x1, x0])) g

theorem scanx (d : Nat) (a : Nat) (m : Nat) (c : ScanOp) : Statement (.scanx d a m c) := by
  intro w g h
  obtain ⟨hq, k0, k1, x0, x1, x2, x3⟩ := lay23 24 2 0 (isReg_lt (and_left (and_left g))) (isReg_lt (and_right (and_left g))) (isMs_lt (and_right g)) (ScanOp.code_lt c) rfl (by decide) (Option.some.inj h)
  have f0 : ¬ fld w 0 6 = 1 := fun e =>
    fld_ne (lo := 3) (n := 3) (fld_in e 3 rfl (by decide) rfl) (fld_in k0 0 rfl (by decide) rfl) (by decide)
  have f1 : ¬ fld w 0 6 = 2 := fun e =>
    fld_ne (lo := 3) (n := 3) (fld_in e 3 rfl (by decide) rfl) (fld_in k0 0 rfl (by decide) rfl) (by decide)
  have f2 : ¬ fld w 0 14 = 0 := fun e =>
    fld_ne (lo := 3) (n := 3) (fld_in e 3 rfl (by decide) rfl) (fld_in k0 0 rfl (by decide) rfl) (by decide)
  exact decodeWord_of ((raw18 hq).trans (by simp [decOp18, x3, f0, f1, f2, k0, x2, k1, x1, x0])) g

theorem xir (a : Nat) (m : Nat) : Statement (.xir a m) := by
  intro w g h
  obtain ⟨hq, k0, k1, k2, x0, x1⟩ := lay24 26 0 0 0 (isReg_lt (and_left g)) (isMs_lt (and_right g)) rfl (by decide) (Option.some.inj h)
  exact decodeWord_of ((raw1A hq).trans (by simp [decOp1A, k0, x1, k1, x0, k2])) g

theorem ldG (d : Nat) (a : Nat) (m : Nat) (z : Sz) (c : Option Scope) (o : Nat) : Statement (.ldG d a m z c o) := by
  intro w g h
  obtain ⟨hq, x0, x1, x2, x3, x4, x5⟩ := lay25 32 (isRegTy_lt (and_left (and_left (and_left g)))) (isPair_lt (and_right (and_left (and_left g)))) (isMs_lt (and_right (and_left g))) (Sz.code_lt z) (accessCode_lt c) (below (k := 64) (and_right g) (by decide)) rfl (Option.some.inj h)
  exact decodeWord_of ((raw20 hq).trans (by simp [decOp20, x5, x4, x3, x2, x1, x0])) g

theorem stG (d : Nat) (a : Nat) (m : Nat) (z : Sz) (c : Option Scope) (o : Nat) : Statement (.stG d a m z c o) := by
  intro w g h
  obtain ⟨hq, x0, x1, x2, x3, x4, x5⟩ := lay25 33 (isRegTy_lt (and_left (and_left (and_left g)))) (isPair_lt (and_right (and_left (and_left g)))) (isMs_lt (and_right (and_left g))) (Sz.code_lt z) (accessCode_lt c) (below (k := 64) (and_right g) (by decide)) rfl (Option.some.inj h)
  exact decodeWord_of ((raw21 hq).trans (by simp [decOp21, x5, x4, x3, x2, x1, x0])) g

theorem ldL (d : Nat) (a : Nat) (m : Nat) (z : Sz) (o : Nat) : Statement (.ldL d a m z o) := by
  intro w g h
  obtain ⟨hq, k0, x0, x1, x2, x3, x4⟩ := lay26 34 0 (isRegTy_lt (and_left (and_left (and_left g)))) (isReg_lt (and_right (and_left (and_left g)))) (isMs_lt (and_right (and_left g))) (Sz.code_lt z) (below (k := 64) (and_right g) (by decide)) rfl (by decide) (Option.some.inj h)
  exact decodeWord_of ((raw22 hq).trans (by simp [decOp22, x4, k0, x3, x2, x1, x0])) g

theorem stL (d : Nat) (a : Nat) (m : Nat) (z : Sz) (o : Nat) : Statement (.stL d a m z o) := by
  intro w g h
  obtain ⟨hq, k0, x0, x1, x2, x3, x4⟩ := lay26 35 0 (isRegTy_lt (and_left (and_left (and_left g)))) (isReg_lt (and_right (and_left (and_left g)))) (isMs_lt (and_right (and_left g))) (Sz.code_lt z) (below (k := 64) (and_right g) (by decide)) rfl (by decide) (Option.some.inj h)
  exact decodeWord_of ((raw23 hq).trans (by simp [decOp23, x4, k0, x3, x2, x1, x0])) g

theorem lkld (d : Nat) (a : Nat) (m : Nat) (z : LkSz) (o : Nat) : Statement (.lkld d a m z o) := by
  intro w g h
  obtain ⟨hq, k0, x0, x1, x2, x3, x4⟩ := lay26 36 0 (isReg_lt (and_left (and_left (and_left g)))) (isReg_lt (and_right (and_left (and_left g)))) (isMs_lt (and_right (and_left g))) (LkSz.code_lt z) (below (k := 64) (and_right g) (by decide)) rfl (by decide) (Option.some.inj h)
  exact decodeWord_of ((raw24 hq).trans (by simp [decOp24, x4, k0, x3, x2, x1, x0])) g

theorem stul (d : Nat) (a : Nat) (m : Nat) (z : LkSz) (o : Nat) : Statement (.stul d a m z o) := by
  intro w g h
  obtain ⟨hq, k0, x0, x1, x2, x3, x4⟩ := lay26 37 0 (isReg_lt (and_left (and_left (and_left g)))) (isReg_lt (and_right (and_left (and_left g)))) (isMs_lt (and_right (and_left g))) (LkSz.code_lt z) (below (k := 64) (and_right g) (by decide)) rfl (by decide) (Option.some.inj h)
  exact decodeWord_of ((raw25 hq).trans (by simp [decOp25, x4, k0, x3, x2, x1, x0])) g

theorem tlook (d : Nat) (a : Nat) (m : Nat) : Statement (.tlook d a m) := by
  intro w g h
  obtain ⟨hq, k0, k1, x0, x1, x2⟩ := lay2 38 0 0 (isReg_lt (and_left (and_left g))) (isPair_lt (and_right (and_left g))) (isMs_lt (and_right g)) rfl (by decide) (Option.some.inj h)
  exact decodeWord_of ((raw26 hq).trans (by simp [decOp26, k0, x2, k1, x1, x0])) g

theorem tset (a : Nat) (b : Nat) (m : Nat) : Statement (.tset a b m) := by
  intro w g h
  obtain ⟨hq, k0, k1, x0, x1, x2⟩ := lay27 38 1 0 (isReg_lt (and_left (and_left g))) (isPair_lt (and_right (and_left g))) (isMs_lt (and_right g)) rfl (by decide) (Option.some.inj h)
  exact decodeWord_of ((raw26 hq).trans (by simp [decOp26, k0, x2, x1, x0, k1])) g

theorem rgnOpen (a : Nat) (d : Nat) : Statement (.rgnOpen a d) := by
  intro w g h
  obtain ⟨hq, k0, k1, k2, x0, x1⟩ := lay28 39 0 0 0 (isPair_lt (and_left g)) (below (k := 16) (and_right g) (by decide)) rfl (by decide) (Option.some.inj h)
  exact decodeWord_of ((raw27 hq).trans (by simp [decOp27, k0, x1, k1, x0, k2])) g

theorem rgnClose (d : Nat) : Statement (.rgnClose d) := by
  intro w g h
  obtain ⟨hq, k0, k1, x0⟩ := lay29 39 1 0 (below (k := 16) g (by decide)) rfl (by decide) (Option.some.inj h)
  have f0 : fld w 12 2 = 0 := fld_in k1 0 rfl (by decide) rfl
  have f1 : fld w 14 6 = 0 := fld_in k1 2 rfl (by decide) rfl
  have f2 : fld w 20 6 = 0 := fld_in k1 8 rfl (by decide) rfl
  exact decodeWord_of ((raw27 hq).trans (by simp [decOp27, k0, x0, f0, k1, f1, f2])) g

theorem atomAdd (d : Nat) (a : Nat) (b : Nat) (s : Scope) (u : Use) (t : IntTy) : Statement (.atomAdd d a b s u t) := by
  intro w g h
  obtain ⟨hq, x0, x1, x2, x3, x4, x5⟩ := lay30 40 (isRegTy_lt (and_left (and_left (and_left g)))) (isPair_lt (and_right (and_left (and_left g)))) (isRegTy_lt (and_right (and_left g))) (Scope.code_lt s) (Use.code_lt u) (IntTy.atomCode_lt t) rfl (Option.some.inj h)
  exact decodeWord_of ((raw28 hq).trans (by simp [decOp28, x5, x4, x3, x2, x1, x0])) g

theorem atomMin (d : Nat) (a : Nat) (b : Nat) (s : Scope) (u : Use) (t : IntTy) : Statement (.atomMin d a b s u t) := by
  intro w g h
  obtain ⟨hq, x0, x1, x2, x3, x4, x5⟩ := lay30 41 (isRegTy_lt (and_left (and_left (and_left g)))) (isPair_lt (and_right (and_left (and_left g)))) (isRegTy_lt (and_right (and_left g))) (Scope.code_lt s) (Use.code_lt u) (IntTy.atomCode_lt t) rfl (Option.some.inj h)
  exact decodeWord_of ((raw29 hq).trans (by simp [decOp29, x5, x4, x3, x2, x1, x0])) g

theorem atomMax (d : Nat) (a : Nat) (b : Nat) (s : Scope) (u : Use) (t : IntTy) : Statement (.atomMax d a b s u t) := by
  intro w g h
  obtain ⟨hq, x0, x1, x2, x3, x4, x5⟩ := lay30 42 (isRegTy_lt (and_left (and_left (and_left g)))) (isPair_lt (and_right (and_left (and_left g)))) (isRegTy_lt (and_right (and_left g))) (Scope.code_lt s) (Use.code_lt u) (IntTy.atomCode_lt t) rfl (Option.some.inj h)
  exact decodeWord_of ((raw2A hq).trans (by simp [decOp2A, x5, x4, x3, x2, x1, x0])) g

theorem atomAnd (d : Nat) (a : Nat) (b : Nat) (s : Scope) (u : Use) : Statement (.atomAnd d a b s u) := by
  intro w g h
  obtain ⟨hq, k0, x0, x1, x2, x3, x4⟩ := lay31 43 0 (isReg_lt (and_left (and_left (and_left g)))) (isPair_lt (and_right (and_left (and_left g)))) (isReg_lt (and_right (and_left g))) (Scope.code_lt s) (Use.code_lt u) rfl (by decide) (Option.some.inj h)
  exact decodeWord_of ((raw2B hq).trans (by simp [decOp2B, k0, x4, x3, x2, x1, x0])) g

theorem atomOr (d : Nat) (a : Nat) (b : Nat) (s : Scope) (u : Use) : Statement (.atomOr d a b s u) := by
  intro w g h
  obtain ⟨hq, k0, x0, x1, x2, x3, x4⟩ := lay31 43 1 (isReg_lt (and_left (and_left (and_left g)))) (isPair_lt (and_right (and_left (and_left g)))) (isReg_lt (and_right (and_left g))) (Scope.code_lt s) (Use.code_lt u) rfl (by decide) (Option.some.inj h)
  exact decodeWord_of ((raw2B hq).trans (by simp [decOp2B, k0, x4, x3, x2, x1, x0])) g

theorem atomXor (d : Nat) (a : Nat) (b : Nat) (s : Scope) (u : Use) : Statement (.atomXor d a b s u) := by
  intro w g h
  obtain ⟨hq, k0, x0, x1, x2, x3, x4⟩ := lay31 43 2 (isReg_lt (and_left (and_left (and_left g)))) (isPair_lt (and_right (and_left (and_left g)))) (isReg_lt (and_right (and_left g))) (Scope.code_lt s) (Use.code_lt u) rfl (by decide) (Option.some.inj h)
  exact decodeWord_of ((raw2B hq).trans (by simp [decOp2B, k0, x4, x3, x2, x1, x0])) g

theorem atomExch (d : Nat) (a : Nat) (b : Nat) (s : Scope) (u : Use) : Statement (.atomExch d a b s u) := by
  intro w g h
  obtain ⟨hq, k0, x0, x1, x2, x3, x4⟩ := lay31 43 3 (isReg_lt (and_left (and_left (and_left g)))) (isPair_lt (and_right (and_left (and_left g)))) (isReg_lt (and_right (and_left g))) (Scope.code_lt s) (Use.code_lt u) rfl (by decide) (Option.some.inj h)
  exact decodeWord_of ((raw2B hq).trans (by simp [decOp2B, k0, x4, x3, x2, x1, x0])) g

theorem atomCas (d : Nat) (a : Nat) (b : Nat) (s : Scope) (u : Use) (t : CasTy) : Statement (.atomCas d a b s u t) := by
  intro w g h
  obtain ⟨hq, k0, x0, x1, x2, x3, x4, x5⟩ := lay32 44 0 (cas_lt g).1 (cas_lt g).2.1 (cas_lt g).2.2 (Scope.code_lt s) (Use.code_lt u) (CasTy.code_lt t) rfl (by decide) (Option.some.inj h)
  exact decodeWord_of ((raw2C hq).trans (by simp [decOp2C, x5, k0, x4, x3, x2, x1, x0])) g

theorem atomFadd (d : Nat) (a : Nat) (b : Nat) (s : Scope) (u : Use) : Statement (.atomFadd d a b s u) := by
  intro w g h
  obtain ⟨hq, k0, x0, x1, x2, x3, x4⟩ := lay31 45 0 (isReg_lt (and_left (and_left (and_left g)))) (isPair_lt (and_right (and_left (and_left g)))) (isReg_lt (and_right (and_left g))) (Scope.code_lt s) (Use.code_lt u) rfl (by decide) (Option.some.inj h)
  exact decodeWord_of ((raw2D hq).trans (by simp [decOp2D, k0, x4, x3, x2, x1, x0])) g

theorem atomFmin (d : Nat) (a : Nat) (b : Nat) (s : Scope) (u : Use) : Statement (.atomFmin d a b s u) := by
  intro w g h
  obtain ⟨hq, k0, x0, x1, x2, x3, x4⟩ := lay31 45 1 (isReg_lt (and_left (and_left (and_left g)))) (isPair_lt (and_right (and_left (and_left g)))) (isReg_lt (and_right (and_left g))) (Scope.code_lt s) (Use.code_lt u) rfl (by decide) (Option.some.inj h)
  exact decodeWord_of ((raw2D hq).trans (by simp [decOp2D, k0, x4, x3, x2, x1, x0])) g

theorem atomFmax (d : Nat) (a : Nat) (b : Nat) (s : Scope) (u : Use) : Statement (.atomFmax d a b s u) := by
  intro w g h
  obtain ⟨hq, k0, x0, x1, x2, x3, x4⟩ := lay31 45 2 (isReg_lt (and_left (and_left (and_left g)))) (isPair_lt (and_right (and_left (and_left g)))) (isReg_lt (and_right (and_left g))) (Scope.code_lt s) (Use.code_lt u) rfl (by decide) (Option.some.inj h)
  exact decodeWord_of ((raw2D hq).trans (by simp [decOp2D, k0, x4, x3, x2, x1, x0])) g

theorem red (o : RedOp) (a : Nat) (b : Nat) (s : Scope) (u : Use) (t : IntTy) : Statement (.red o a b s u t) := by
  intro w g h
  obtain ⟨hq, k0, x0, x1, x2, x3, x4, x5⟩ := lay33 46 0 (RedOp.code_lt o) (isPair_lt (and_left (and_left (and_left g)))) (isRegTy_lt (and_right (and_left (and_left g)))) (Scope.code_lt s) (Use.code_lt u) (IntTy.atomCode_lt t) rfl (by decide) (Option.some.inj h)
  exact decodeWord_of ((raw2E hq).trans (by simp [decOp2E, x5, x4, x3, x2, x1, x0, k0])) g

theorem atomLd (d : Nat) (a : Nat) (s : Scope) (u : Use) (t : IntTy) : Statement (.atomLd d a s u t) := by
  intro w g h
  obtain ⟨hq, k0, x0, x1, x2, x3, x4⟩ := lay34 47 0 (isRegTy_lt (and_left (and_left g))) (isPair_lt (and_right (and_left g))) (Scope.code_lt s) (Use.code_lt u) (IntTy.atomCode_lt t) rfl (by decide) (Option.some.inj h)
  exact decodeWord_of ((raw2F hq).trans (by simp [decOp2F, x4, x3, x2, k0, x1, x0])) g

theorem cpy (a : Nat) : Statement (.cpy a) := by
  intro w g h
  obtain ⟨hq, k0, k1, x0⟩ := lay16 48 0 0 (isPair_lt g) rfl (by decide) (Option.some.inj h)
  have f0 : fld w 0 3 = 0 := fld_in k0 0 rfl (by decide) rfl
  have f1 : ¬ fld w 0 26 = 1 := fun e =>
    fld_ne (lo := 0) (n := 14) (fld_in e 0 rfl (by decide) rfl) (fld_in k0 0 rfl (by decide) rfl) (by decide)
  have f2 : ¬ fld w 3 23 = 1 := fun e =>
    fld_ne (lo := 3) (n := 11) (fld_in e 0 rfl (by decide) rfl) (fld_in k0 3 rfl (by decide) rfl) (by decide)
  have f3 : ¬ fld w 3 23 = 2 := fun e =>
    fld_ne (lo := 3) (n := 11) (fld_in e 0 rfl (by decide) rfl) (fld_in k0 3 rfl (by decide) rfl) (by decide)
  have f4 : ¬ fld w 3 23 = 3 := fun e =>
    fld_ne (lo := 3) (n := 11) (fld_in e 0 rfl (by decide) rfl) (fld_in k0 3 rfl (by decide) rfl) (by decide)
  exact decodeWord_of ((raw30 hq).trans (by simp [decOp30, f0, k0, f1, f2, f3, f4, x0, k1])) g

theorem cbat : Statement .cbat := by
  intro w g h
  obtain ⟨hq, k0⟩ := lay15 48 1 rfl (by decide) (Option.some.inj h)
  have f0 : fld w 0 3 = 1 := fld_in k0 0 rfl (by decide) rfl
  have f1 : fld w 0 14 = 1 := fld_in k0 0 rfl (by decide) rfl
  have f2 : fld w 3 23 = 0 := fld_in k0 3 rfl (by decide) rfl
  have f3 : fld w 14 6 = 0 := fld_in k0 14 rfl (by decide) rfl
  have f4 : fld w 20 6 = 0 := fld_in k0 20 rfl (by decide) rfl
  exact decodeWord_of ((raw30 hq).trans (by simp [decOp30, f0, f1, k0, f2, f3, f4])) g

theorem fenceAcq (s : Scope) : Statement (.fenceAcq s) := by
  intro w g h
  obtain ⟨hq, k0, x0⟩ := lay35 48 1 (Scope.code_lt s) rfl (by decide) (Option.some.inj h)
  have f0 : ¬ fld w 0 14 = 0 := fun e =>
    fld_ne (lo := 3) (n := 11) (fld_in e 3 rfl (by decide) rfl) (fld_in k0 0 rfl (by decide) rfl) (by decide)
  have f1 : ¬ fld w 0 26 = 1 := fun e =>
    fld_ne (lo := 3) (n := 23) (fld_in e 3 rfl (by decide) rfl) (fld_in k0 0 rfl (by decide) rfl) (by decide)
  have f2 : fld w 14 6 = 0 := fld_in k0 11 rfl (by decide) rfl
  have f3 : fld w 20 6 = 0 := fld_in k0 17 rfl (by decide) rfl
  exact decodeWord_of ((raw30 hq).trans (by simp [decOp30, x0, f0, f1, k0, f2, f3])) g

theorem fenceRel (s : Scope) : Statement (.fenceRel s) := by
  intro w g h
  obtain ⟨hq, k0, x0⟩ := lay35 48 2 (Scope.code_lt s) rfl (by decide) (Option.some.inj h)
  have f0 : ¬ fld w 0 14 = 0 := fun e =>
    fld_ne (lo := 3) (n := 11) (fld_in e 3 rfl (by decide) rfl) (fld_in k0 0 rfl (by decide) rfl) (by decide)
  have f1 : ¬ fld w 0 26 = 1 := fun e =>
    fld_ne (lo := 3) (n := 23) (fld_in e 3 rfl (by decide) rfl) (fld_in k0 0 rfl (by decide) rfl) (by decide)
  have f2 : fld w 14 6 = 0 := fld_in k0 11 rfl (by decide) rfl
  have f3 : fld w 20 6 = 0 := fld_in k0 17 rfl (by decide) rfl
  exact decodeWord_of ((raw30 hq).trans (by simp [decOp30, x0, f0, f1, k0, f2, f3])) g

theorem fenceAr (s : Scope) : Statement (.fenceAr s) := by
  intro w g h
  obtain ⟨hq, k0, x0⟩ := lay35 48 3 (Scope.code_lt s) rfl (by decide) (Option.some.inj h)
  have f0 : ¬ fld w 0 14 = 0 := fun e =>
    fld_ne (lo := 3) (n := 11) (fld_in e 3 rfl (by decide) rfl) (fld_in k0 0 rfl (by decide) rfl) (by decide)
  have f1 : ¬ fld w 0 26 = 1 := fun e =>
    fld_ne (lo := 3) (n := 23) (fld_in e 3 rfl (by decide) rfl) (fld_in k0 0 rfl (by decide) rfl) (by decide)
  have f2 : fld w 14 6 = 0 := fld_in k0 11 rfl (by decide) rfl
  have f3 : fld w 20 6 = 0 := fld_in k0 17 rfl (by decide) rfl
  exact decodeWord_of ((raw30 hq).trans (by simp [decOp30, x0, f0, f1, k0, f2, f3])) g

theorem wait (l : Nat) (s : Nat) (t : Nat) (c : Nat) : Statement (.wait l s t c) := by
  intro w g h
  obtain ⟨hq, k0, x0, x1, x2, x3⟩ := lay36 49 0 (below (k := 64) (and_left (and_left (and_left g))) (by decide)) (below (k := 64) (and_right (and_left (and_left g))) (by decide)) (below (k := 16) (and_right (and_left g)) (by decide)) (below (k := 16) (and_right g) (by decide)) rfl (by decide) (Option.some.inj h)
  exact decodeWord_of ((raw31 hq).trans (by simp [decOp31, x3, x2, k0, x1, x0])) g

theorem waitb (n : Nat) : Statement (.waitb n) := by
  intro w g h
  obtain ⟨hq, k0, x0⟩ := lay37 50 0 (isImm_lt g) rfl (by decide) (Option.some.inj h)
  exact decodeWord_of ((raw32 hq).trans (by simp [decOp32, x0, k0])) g

theorem txb (o : Nat) : Statement (.txb o) := by
  intro w g h
  obtain ⟨hq, k0, x0⟩ := lay38 51 0 (below (k := 524288) g (by decide)) rfl (by decide) (Option.some.inj h)
  have f0 : fld w 0 26 = o := fld_zext x0 (fld_in (lo := 19) (n := 7) k0 0 rfl (by decide) rfl)
  exact decodeWord_of ((raw33 hq).trans (by simp [decOp33, x0, f0, k0])) g

theorem txo (o : Nat) : Statement (.txo o) := by
  intro w g h
  obtain ⟨hq, k0, x0⟩ := lay38 51 8 (below (k := 524288) g (by decide)) rfl (by decide) (Option.some.inj h)
  have f0 : ¬ fld w 0 26 = 8388608 := fun e =>
    fld_ne (lo := 19) (n := 7) (fld_in e 19 rfl (by decide) rfl) (fld_in k0 0 rfl (by decide) rfl) (by decide)
  have f1 : ¬ fld w 0 26 = 12582912 := fun e =>
    fld_ne (lo := 19) (n := 7) (fld_in e 19 rfl (by decide) rfl) (fld_in k0 0 rfl (by decide) rfl) (by decide)
  have f2 : ¬ fld w 0 26 = 16777216 := fun e =>
    fld_ne (lo := 19) (n := 7) (fld_in e 19 rfl (by decide) rfl) (fld_in k0 0 rfl (by decide) rfl) (by decide)
  exact decodeWord_of ((raw33 hq).trans (by simp [decOp33, x0, f0, f1, f2, k0])) g

theorem txc : Statement .txc := by
  intro w g h
  obtain ⟨hq, k0⟩ := lay15 51 8388608 rfl (by decide) (Option.some.inj h)
  have f0 : fld w 0 19 = 0 := fld_in k0 0 rfl (by decide) rfl
  have f1 : fld w 19 7 = 16 := fld_in k0 19 rfl (by decide) rfl
  exact decodeWord_of ((raw33 hq).trans (by simp [decOp33, f0, k0, f1])) g

theorem txr : Statement .txr := by
  intro w g h
  obtain ⟨hq, k0⟩ := lay15 51 12582912 rfl (by decide) (Option.some.inj h)
  have f0 : fld w 0 19 = 0 := fld_in k0 0 rfl (by decide) rfl
  have f1 : fld w 19 7 = 24 := fld_in k0 19 rfl (by decide) rfl
  exact decodeWord_of ((raw33 hq).trans (by simp [decOp33, f0, k0, f1])) g

theorem txe : Statement .txe := by
  intro w g h
  obtain ⟨hq, k0⟩ := lay15 51 16777216 rfl (by decide) (Option.some.inj h)
  have f0 : fld w 0 19 = 0 := fld_in k0 0 rfl (by decide) rfl
  have f1 : fld w 19 7 = 32 := fld_in k0 19 rfl (by decide) rfl
  exact decodeWord_of ((raw33 hq).trans (by simp [decOp33, f0, k0, f1])) g

theorem getc (d : Nat) (n : CReg) : Statement (.getc d n) := by
  intro w g h
  obtain ⟨hq, k0, x0, x1⟩ := lay39 56 0 (getc_lt g) (CReg.code_lt n) rfl (by decide) (Option.some.inj h)
  have f0 : ¬ fld w 0 20 = 25 := fun e =>
    fld_ne (lo := 0) (n := 8) (fld_in e 0 rfl (by decide) rfl) (fld_in k0 0 rfl (by decide) rfl) (by decide)
  have f1 : ¬ fld w 0 26 = 8 := fun e =>
    fld_ne (lo := 0) (n := 8) (fld_in e 0 rfl (by decide) rfl) (fld_in k0 0 rfl (by decide) rfl) (by decide)
  have f2 : ¬ fld w 0 26 = 9 := fun e =>
    fld_ne (lo := 0) (n := 8) (fld_in e 0 rfl (by decide) rfl) (fld_in k0 0 rfl (by decide) rfl) (by decide)
  have f3 : ¬ fld w 0 26 = 10 := fun e =>
    fld_ne (lo := 0) (n := 8) (fld_in e 0 rfl (by decide) rfl) (fld_in k0 0 rfl (by decide) rfl) (by decide)
  have f4 : ¬ fld w 0 26 = 17 := fun e =>
    fld_ne (lo := 0) (n := 8) (fld_in e 0 rfl (by decide) rfl) (fld_in k0 0 rfl (by decide) rfl) (by decide)
  have f5 : ¬ fld w 0 26 = 18 := fun e =>
    fld_ne (lo := 0) (n := 8) (fld_in e 0 rfl (by decide) rfl) (fld_in k0 0 rfl (by decide) rfl) (by decide)
  exact decodeWord_of ((raw38 hq).trans (by simp [decOp38, k0, f0, f1, f2, f3, f4, f5, x1, x0])) g

theorem setc (d : Nat) (n : CReg) : Statement (.setc d n) := by
  intro w g h
  obtain ⟨hq, k0, x0, x1⟩ := lay39 56 1 (isReg_lt (and_left g)) (CReg.code_lt n) rfl (by decide) (Option.some.inj h)
  have f0 : ¬ fld w 0 20 = 25 := fun e =>
    fld_ne (lo := 0) (n := 8) (fld_in e 0 rfl (by decide) rfl) (fld_in k0 0 rfl (by decide) rfl) (by decide)
  have f1 : ¬ fld w 0 26 = 8 := fun e =>
    fld_ne (lo := 0) (n := 8) (fld_in e 0 rfl (by decide) rfl) (fld_in k0 0 rfl (by decide) rfl) (by decide)
  have f2 : ¬ fld w 0 26 = 9 := fun e =>
    fld_ne (lo := 0) (n := 8) (fld_in e 0 rfl (by decide) rfl) (fld_in k0 0 rfl (by decide) rfl) (by decide)
  have f3 : ¬ fld w 0 26 = 10 := fun e =>
    fld_ne (lo := 0) (n := 8) (fld_in e 0 rfl (by decide) rfl) (fld_in k0 0 rfl (by decide) rfl) (by decide)
  have f4 : ¬ fld w 0 26 = 17 := fun e =>
    fld_ne (lo := 0) (n := 8) (fld_in e 0 rfl (by decide) rfl) (fld_in k0 0 rfl (by decide) rfl) (by decide)
  have f5 : ¬ fld w 0 26 = 18 := fun e =>
    fld_ne (lo := 0) (n := 8) (fld_in e 0 rfl (by decide) rfl) (fld_in k0 0 rfl (by decide) rfl) (by decide)
  exact decodeWord_of ((raw38 hq).trans (by simp [decOp38, k0, f0, f1, f2, f3, f4, f5, x1, x0])) g

theorem exit : Statement .exit := by
  intro w g h
  obtain ⟨hq, k0⟩ := lay15 56 8 rfl (by decide) (Option.some.inj h)
  have f0 : fld w 0 8 = 8 := fld_in k0 0 rfl (by decide) rfl
  have f1 : fld w 0 20 = 8 := fld_in k0 0 rfl (by decide) rfl
  have f2 : fld w 8 4 = 0 := fld_in k0 8 rfl (by decide) rfl
  have f3 : fld w 8 12 = 0 := fld_in k0 8 rfl (by decide) rfl
  have f4 : fld w 12 8 = 0 := fld_in k0 12 rfl (by decide) rfl
  have f5 : fld w 20 6 = 0 := fld_in k0 20 rfl (by decide) rfl
  exact decodeWord_of ((raw38 hq).trans (by simp [decOp38, f0, f1, k0, f2, f3, f4, f5])) g

theorem barCrew : Statement .barCrew := by
  intro w g h
  obtain ⟨hq, k0⟩ := lay15 56 9 rfl (by decide) (Option.some.inj h)
  have f0 : fld w 0 8 = 9 := fld_in k0 0 rfl (by decide) rfl
  have f1 : fld w 0 20 = 9 := fld_in k0 0 rfl (by decide) rfl
  have f2 : fld w 8 4 = 0 := fld_in k0 8 rfl (by decide) rfl
  have f3 : fld w 8 12 = 0 := fld_in k0 8 rfl (by decide) rfl
  have f4 : fld w 12 8 = 0 := fld_in k0 12 rfl (by decide) rfl
  have f5 : fld w 20 6 = 0 := fld_in k0 20 rfl (by decide) rfl
  exact decodeWord_of ((raw38 hq).trans (by simp [decOp38, f0, f1, k0, f2, f3, f4, f5])) g

theorem barCoh : Statement .barCoh := by
  intro w g h
  obtain ⟨hq, k0⟩ := lay15 56 10 rfl (by decide) (Option.some.inj h)
  have f0 : fld w 0 8 = 10 := fld_in k0 0 rfl (by decide) rfl
  have f1 : fld w 0 20 = 10 := fld_in k0 0 rfl (by decide) rfl
  have f2 : fld w 8 4 = 0 := fld_in k0 8 rfl (by decide) rfl
  have f3 : fld w 8 12 = 0 := fld_in k0 8 rfl (by decide) rfl
  have f4 : fld w 12 8 = 0 := fld_in k0 12 rfl (by decide) rfl
  have f5 : fld w 20 6 = 0 := fld_in k0 20 rfl (by decide) rfl
  exact decodeWord_of ((raw38 hq).trans (by simp [decOp38, f0, f1, k0, f2, f3, f4, f5])) g

theorem trap (n : Nat) : Statement (.trap n) := by
  intro w g h
  obtain ⟨hq, k0, k1, x0⟩ := lay40 56 16 0 (below (k := 4096) g (by decide)) rfl (by decide) (Option.some.inj h)
  have f0 : ¬ fld w 0 20 = 25 := fun e =>
    fld_ne (lo := 0) (n := 8) (fld_in e 0 rfl (by decide) rfl) (fld_in k0 0 rfl (by decide) rfl) (by decide)
  have f1 : ¬ fld w 0 26 = 8 := fun e =>
    fld_ne (lo := 0) (n := 8) (fld_in e 0 rfl (by decide) rfl) (fld_in k0 0 rfl (by decide) rfl) (by decide)
  have f2 : ¬ fld w 0 26 = 9 := fun e =>
    fld_ne (lo := 0) (n := 8) (fld_in e 0 rfl (by decide) rfl) (fld_in k0 0 rfl (by decide) rfl) (by decide)
  have f3 : ¬ fld w 0 26 = 10 := fun e =>
    fld_ne (lo := 0) (n := 8) (fld_in e 0 rfl (by decide) rfl) (fld_in k0 0 rfl (by decide) rfl) (by decide)
  have f4 : ¬ fld w 0 26 = 17 := fun e =>
    fld_ne (lo := 0) (n := 8) (fld_in e 0 rfl (by decide) rfl) (fld_in k0 0 rfl (by decide) rfl) (by decide)
  have f5 : ¬ fld w 0 26 = 18 := fun e =>
    fld_ne (lo := 0) (n := 8) (fld_in e 0 rfl (by decide) rfl) (fld_in k0 0 rfl (by decide) rfl) (by decide)
  exact decodeWord_of ((raw38 hq).trans (by simp [decOp38, k0, f0, f1, f2, f3, f4, f5, x0, k1])) g

theorem brk : Statement .brk := by
  intro w g h
  obtain ⟨hq, k0⟩ := lay15 56 17 rfl (by decide) (Option.some.inj h)
  have f0 : fld w 0 8 = 17 := fld_in k0 0 rfl (by decide) rfl
  have f1 : fld w 0 20 = 17 := fld_in k0 0 rfl (by decide) rfl
  have f2 : fld w 8 4 = 0 := fld_in k0 8 rfl (by decide) rfl
  have f3 : fld w 8 12 = 0 := fld_in k0 8 rfl (by decide) rfl
  have f4 : fld w 12 8 = 0 := fld_in k0 12 rfl (by decide) rfl
  have f5 : fld w 20 6 = 0 := fld_in k0 20 rfl (by decide) rfl
  exact decodeWord_of ((raw38 hq).trans (by simp [decOp38, f0, f1, k0, f2, f3, f4, f5])) g

theorem tret : Statement .tret := by
  intro w g h
  obtain ⟨hq, k0⟩ := lay15 56 18 rfl (by decide) (Option.some.inj h)
  have f0 : fld w 0 8 = 18 := fld_in k0 0 rfl (by decide) rfl
  have f1 : fld w 0 20 = 18 := fld_in k0 0 rfl (by decide) rfl
  have f2 : fld w 8 4 = 0 := fld_in k0 8 rfl (by decide) rfl
  have f3 : fld w 8 12 = 0 := fld_in k0 8 rfl (by decide) rfl
  have f4 : fld w 12 8 = 0 := fld_in k0 12 rfl (by decide) rfl
  have f5 : fld w 20 6 = 0 := fld_in k0 20 rfl (by decide) rfl
  exact decodeWord_of ((raw38 hq).trans (by simp [decOp38, f0, f1, k0, f2, f3, f4, f5])) g

theorem ebud (d : Nat) (n : Nat) : Statement (.ebud d n) := by
  intro w g h
  obtain ⟨hq, k0, k1, x0, x1⟩ := lay41 56 24 0 (isReg_lt (and_left g)) (upTo (k := 16) (and_right g) (by decide)) rfl (by decide) (Option.some.inj h)
  have f0 : ¬ fld w 0 20 = 25 := fun e =>
    fld_ne (lo := 0) (n := 8) (fld_in e 0 rfl (by decide) rfl) (fld_in k0 0 rfl (by decide) rfl) (by decide)
  have f1 : ¬ fld w 0 26 = 8 := fun e =>
    fld_ne (lo := 0) (n := 8) (fld_in e 0 rfl (by decide) rfl) (fld_in k0 0 rfl (by decide) rfl) (by decide)
  have f2 : ¬ fld w 0 26 = 9 := fun e =>
    fld_ne (lo := 0) (n := 8) (fld_in e 0 rfl (by decide) rfl) (fld_in k0 0 rfl (by decide) rfl) (by decide)
  have f3 : ¬ fld w 0 26 = 10 := fun e =>
    fld_ne (lo := 0) (n := 8) (fld_in e 0 rfl (by decide) rfl) (fld_in k0 0 rfl (by decide) rfl) (by decide)
  have f4 : ¬ fld w 0 26 = 17 := fun e =>
    fld_ne (lo := 0) (n := 8) (fld_in e 0 rfl (by decide) rfl) (fld_in k0 0 rfl (by decide) rfl) (by decide)
  have f5 : ¬ fld w 0 26 = 18 := fun e =>
    fld_ne (lo := 0) (n := 8) (fld_in e 0 rfl (by decide) rfl) (fld_in k0 0 rfl (by decide) rfl) (by decide)
  have f6 : fld w 8 12 = n := fld_zext x1 (fld_in (lo := 12) (n := 8) k1 0 rfl (by decide) rfl)
  exact decodeWord_of ((raw38 hq).trans (by simp [decOp38, k0, f0, f1, f2, f3, f4, f5, x1, f6, k1, x0])) g

theorem pint (d : Nat) : Statement (.pint d) := by
  intro w g h
  obtain ⟨hq, k0, x0⟩ := lay42 56 25 (isReg_lt g) rfl (by decide) (Option.some.inj h)
  have f0 : fld w 0 8 = 25 := fld_in k0 0 rfl (by decide) rfl
  have f1 : ¬ fld w 0 26 = 8 := fun e =>
    fld_ne (lo := 0) (n := 20) (fld_in e 0 rfl (by decide) rfl) (fld_in k0 0 rfl (by decide) rfl) (by decide)
  have f2 : ¬ fld w 0 26 = 9 := fun e =>
    fld_ne (lo := 0) (n := 20) (fld_in e 0 rfl (by decide) rfl) (fld_in k0 0 rfl (by decide) rfl) (by decide)
  have f3 : ¬ fld w 0 26 = 10 := fun e =>
    fld_ne (lo := 0) (n := 20) (fld_in e 0 rfl (by decide) rfl) (fld_in k0 0 rfl (by decide) rfl) (by decide)
  have f4 : ¬ fld w 0 26 = 17 := fun e =>
    fld_ne (lo := 0) (n := 20) (fld_in e 0 rfl (by decide) rfl) (fld_in k0 0 rfl (by decide) rfl) (by decide)
  have f5 : ¬ fld w 0 26 = 18 := fun e =>
    fld_ne (lo := 0) (n := 20) (fld_in e 0 rfl (by decide) rfl) (fld_in k0 0 rfl (by decide) rfl) (by decide)
  have f6 : fld w 8 4 = 0 := fld_in k0 8 rfl (by decide) rfl
  have f7 : fld w 8 12 = 0 := fld_in k0 8 rfl (by decide) rfl
  have f8 : fld w 12 8 = 0 := fld_in k0 12 rfl (by decide) rfl
  exact decodeWord_of ((raw38 hq).trans (by simp [decOp38, f0, k0, f1, f2, f3, f4, f5, f6, f7, f8, x0])) g

theorem mmq (b : Nat) (k : Nat) (s : Nat) (a : Nat) (f : MxFmt) : Statement (.mmq b k s a f) := by
  intro w g h
  obtain ⟨hq, k0, k1, x0, x1, x2, x3, x4⟩ := lay43 57 0 0 (below (k := 4) (and_left (and_left (and_left g))) (by decide)) (below (k := 4) (and_right (and_left (and_left g))) (by decide)) (below (k := 256) (and_right (and_left g)) (by decide)) (isReg_lt (and_right g)) (MxFmt.code_lt f) rfl (by decide) (Option.some.inj h)
  have f0 : fld w 0 4 = MxFmt.code f := fld_zext x4 (fld_in (lo := 3) (n := 1) k0 0 rfl (by decide) rfl)
  exact decodeWord_of ((raw39 hq).trans (by simp [decOp39, x4, f0, k0, x3, x2, x1, x0, k1])) g

theorem mmqByp (b : Nat) (k : Nat) (s : Nat) (c : Nat) (f : MxFmt) : Statement (.mmqByp b k s c f) := by
  intro w g h
  obtain ⟨hq, k0, k1, k2, x0, x1, x2, x3, x4⟩ := lay44 57 1 0 0 (below (k := 4) (and_left (and_left (and_left g))) (by decide)) (below (k := 4) (and_right (and_left (and_left g))) (by decide)) (below (k := 256) (and_right (and_left g)) (by decide)) (below (k := 4) (and_right g) (by decide)) (MxFmt.code_lt f) rfl (by decide) (Option.some.inj h)
  have f0 : ¬ fld w 0 4 = 6 := fun e =>
    fld_ne (lo := 3) (n := 1) (fld_in e 3 rfl (by decide) rfl) (fld_in k0 0 rfl (by decide) rfl) (by decide)
  have f1 : ¬ fld w 0 4 = 7 := fun e =>
    fld_ne (lo := 3) (n := 1) (fld_in e 3 rfl (by decide) rfl) (fld_in k0 0 rfl (by decide) rfl) (by decide)
  have f2 : ¬ fld w 0 18 = 0 := fun e =>
    fld_ne (lo := 3) (n := 1) (fld_in e 3 rfl (by decide) rfl) (fld_in k0 0 rfl (by decide) rfl) (by decide)
  have f3 : ¬ fld w 0 20 = 0 := fun e =>
    fld_ne (lo := 3) (n := 1) (fld_in e 3 rfl (by decide) rfl) (fld_in k0 0 rfl (by decide) rfl) (by decide)
  have f4 : ¬ fld w 1 9 = 0 := fun e =>
    fld_ne (lo := 3) (n := 1) (fld_in e 2 rfl (by decide) rfl) (fld_in k0 0 rfl (by decide) rfl) (by decide)
  have f5 : ¬ fld w 3 7 = 0 := fun e =>
    fld_ne (lo := 3) (n := 1) (fld_in e 0 rfl (by decide) rfl) (fld_in k0 0 rfl (by decide) rfl) (by decide)
  have f6 : fld w 4 6 = c := fld_zext x3 (fld_in (lo := 6) (n := 4) k1 0 rfl (by decide) rfl)
  exact decodeWord_of ((raw39 hq).trans (by simp [decOp39, x4, f0, f1, f2, f3, f4, k0, f5, x3, f6, k1, x2, x1, x0, k2])) g

theorem mgld (b : Nat) (a : Nat) : Statement (.mgld b a) := by
  intro w g h
  obtain ⟨hq, k0, k1, k2, x0, x1⟩ := lay45 57 6 0 1 (below (k := 4) (and_left g) (by decide)) (isReg_lt (and_right g)) rfl (by decide) (Option.some.inj h)
  have f0 : fld w 0 1 = 0 := fld_in k0 0 rfl (by decide) rfl
  have f1 : fld w 0 3 = 6 := fld_in k0 0 rfl (by decide) rfl
  have f2 : ¬ fld w 0 18 = 0 := fun e =>
    fld_ne (lo := 0) (n := 4) (fld_in e 0 rfl (by decide) rfl) (fld_in k0 0 rfl (by decide) rfl) (by decide)
  have f3 : ¬ fld w 0 20 = 0 := fun e =>
    fld_ne (lo := 0) (n := 4) (fld_in e 0 rfl (by decide) rfl) (fld_in k0 0 rfl (by decide) rfl) (by decide)
  have f4 : ¬ fld w 1 9 = 0 := fun e =>
    fld_ne (lo := 1) (n := 3) (fld_in e 0 rfl (by decide) rfl) (fld_in k0 1 rfl (by decide) rfl) (by decide)
  have f5 : fld w 3 1 = 0 := fld_in k0 3 rfl (by decide) rfl
  have f6 : fld w 10 2 = 0 := fld_in k1 0 rfl (by decide) rfl
  have f7 : fld w 10 4 = 0 := fld_in k1 0 rfl (by decide) rfl
  have f8 : fld w 10 8 = 0 := fld_in k1 0 rfl (by decide) rfl
  have f9 : fld w 12 6 = 0 := fld_in k1 2 rfl (by decide) rfl
  have f10 : fld w 14 1 = 0 := fld_in k1 4 rfl (by decide) rfl
  have f11 : fld w 15 5 = 0 := fld_in k1 5 rfl (by decide) rfl
  have f12 : fld w 18 1 = 0 := fld_in k1 8 rfl (by decide) rfl
  have f13 : fld w 18 2 = 0 := fld_in k1 8 rfl (by decide) rfl
  have f14 : fld w 19 1 = 0 := fld_in k1 9 rfl (by decide) rfl
  exact decodeWord_of ((raw39 hq).trans (by simp [decOp39, f0, f1, k0, f2, f3, f4, f5, x1, f6, f7, f8, k1, f9, f10, f11, f12, f13, f14, x0, k2])) g

theorem mscan (b : Nat) (e : Bool) (n : Bool) : Statement (.mscan b e n) := by
  intro w g h
  obtain ⟨hq, k0, k1, x0, x1, x2⟩ := lay46 57 0 2 (below (k := 4) g (by decide)) (toNat_lt e) (toNat_lt n) rfl (by decide) (Option.some.inj h)
  have f0 : fld w 0 1 = 0 := fld_in k0 0 rfl (by decide) rfl
  have f1 : fld w 0 3 = 0 := fld_in k0 0 rfl (by decide) rfl
  have f2 : fld w 0 4 = 0 := fld_in k0 0 rfl (by decide) rfl
  have f3 : fld w 1 9 = 0 := fld_in k0 1 rfl (by decide) rfl
  have f4 : fld w 3 1 = 0 := fld_in k0 3 rfl (by decide) rfl
  have f5 : fld w 3 7 = 0 := fld_in k0 3 rfl (by decide) rfl
  have f6 : fld w 4 2 = 0 := fld_in k0 4 rfl (by decide) rfl
  have f7 : fld w 4 6 = 0 := fld_in k0 4 rfl (by decide) rfl
  have f8 : fld w 6 4 = 0 := fld_in k0 6 rfl (by decide) rfl
  have f9 : fld w 10 2 = 0 := fld_in k0 10 rfl (by decide) rfl
  have f10 : fld w 10 4 = 0 := fld_in k0 10 rfl (by decide) rfl
  have f11 : fld w 10 8 = 0 := fld_in k0 10 rfl (by decide) rfl
  have f12 : fld w 12 6 = 0 := fld_in k0 12 rfl (by decide) rfl
  have f13 : fld w 14 1 = 0 := fld_in k0 14 rfl (by decide) rfl
  exact decodeWord_of ((raw39 hq).trans (by simp [decOp39, f0, f1, f2, k0, f3, f4, f5, f6, f7, f8, f9, f10, f11, f12, f13, x2, x1, x0, k1])) g

theorem mdrain (b : Nat) (t : Bool) (a : Nat) (f : DrFmt) : Statement (.mdrain b t a f) := by
  intro w g h
  obtain ⟨hq, k0, k1, k2, k3, x0, x1, x2, x3⟩ := lay47 57 0 0 0 3 (below (k := 4) (and_left (and_left g)) (by decide)) (toNat_lt t) (isReg_lt (and_right (and_left g))) (DrFmt.code_lt f) rfl (by decide) (Option.some.inj h)
  have n7 : ¬ DrFmt.code f = 7 := by cases f <;> decide
  have f0 : fld w 0 4 = DrFmt.code f := fld_zext x3 (fld_in (lo := 3) (n := 1) k0 0 rfl (by decide) rfl)
  have f1 : fld w 10 2 = 0 := fld_in k1 0 rfl (by decide) rfl
  have f2 : fld w 10 4 = 0 := fld_in k1 0 rfl (by decide) rfl
  have f3 : fld w 12 6 = 0 := fld_in k1 2 rfl (by decide) rfl
  have f4 : fld w 14 1 = 0 := fld_in k1 4 rfl (by decide) rfl
  have f5 : fld w 18 2 = Bool.toNat t := fld_zext x1 (fld_in (lo := 19) (n := 1) k2 0 rfl (by decide) rfl)
  exact decodeWord_of ((raw39 hq).trans (by simp [decOp39, x3, f0, k0, x2, f1, f2, k1, f3, f4, x1, f5, k2, x0, k3, n7])) g

theorem mdrainState (b : Nat) (a : Nat) : Statement (.mdrainState b a) := by
  intro w g h
  obtain ⟨hq, k0, k1, k2, x0, x1⟩ := lay45 57 7 0 3 (below (k := 4) (and_left g) (by decide)) (isReg_lt (and_right g)) rfl (by decide) (Option.some.inj h)
  have f0 : fld w 0 1 = 1 := fld_in k0 0 rfl (by decide) rfl
  have f1 : fld w 0 3 = 7 := fld_in k0 0 rfl (by decide) rfl
  have f2 : ¬ fld w 0 18 = 0 := fun e =>
    fld_ne (lo := 0) (n := 4) (fld_in e 0 rfl (by decide) rfl) (fld_in k0 0 rfl (by decide) rfl) (by decide)
  have f3 : ¬ fld w 0 20 = 0 := fun e =>
    fld_ne (lo := 0) (n := 4) (fld_in e 0 rfl (by decide) rfl) (fld_in k0 0 rfl (by decide) rfl) (by decide)
  have f4 : ¬ fld w 1 9 = 0 := fun e =>
    fld_ne (lo := 1) (n := 3) (fld_in e 0 rfl (by decide) rfl) (fld_in k0 1 rfl (by decide) rfl) (by decide)
  have f5 : fld w 3 1 = 0 := fld_in k0 3 rfl (by decide) rfl
  have f6 : fld w 10 2 = 0 := fld_in k1 0 rfl (by decide) rfl
  have f7 : fld w 10 4 = 0 := fld_in k1 0 rfl (by decide) rfl
  have f8 : fld w 10 8 = 0 := fld_in k1 0 rfl (by decide) rfl
  have f9 : fld w 12 6 = 0 := fld_in k1 2 rfl (by decide) rfl
  have f10 : fld w 14 1 = 0 := fld_in k1 4 rfl (by decide) rfl
  have f11 : fld w 15 5 = 0 := fld_in k1 5 rfl (by decide) rfl
  have f12 : fld w 18 1 = 0 := fld_in k1 8 rfl (by decide) rfl
  have f13 : fld w 18 2 = 0 := fld_in k1 8 rfl (by decide) rfl
  have f14 : fld w 19 1 = 0 := fld_in k1 9 rfl (by decide) rfl
  exact decodeWord_of ((raw39 hq).trans (by simp [decOp39, f0, f1, k0, f2, f3, f4, f5, x1, f6, f7, f8, k1, f9, f10, f11, f12, f13, f14, x0, k2])) g

theorem mdrainByp (b : Nat) (t : Bool) (g : Nat) (f : MxFmt) : Statement (.mdrainByp b t g f) := by
  intro w hg h
  obtain ⟨hq, k0, k1, k2, k3, x0, x1, x2, x3⟩ := lay48 57 0 0 0 4 (below (k := 4) (and_left (and_left hg)) (by decide)) (toNat_lt t) (below (and_right (and_left hg)) (segments_le f)) (MxFmt.code_lt f) rfl (by decide) (Option.some.inj h)
  have f0 : fld w 0 4 = MxFmt.code f := fld_zext x3 (fld_in (lo := 3) (n := 1) k0 0 rfl (by decide) rfl)
  have f1 : fld w 3 1 = 0 := fld_in k0 0 rfl (by decide) rfl
  have f2 : fld w 4 2 = 0 := fld_in k0 1 rfl (by decide) rfl
  have f3 : fld w 4 6 = 0 := fld_in k0 1 rfl (by decide) rfl
  have f4 : fld w 6 4 = 0 := fld_in k0 3 rfl (by decide) rfl
  have f5 : fld w 10 4 = g := fld_zext x2 (fld_in (lo := 12) (n := 2) k1 0 rfl (by decide) rfl)
  have f6 : fld w 10 8 = g := fld_zext x2 (fld_in (lo := 12) (n := 6) k1 0 rfl (by decide) rfl)
  have f7 : fld w 14 1 = 0 := fld_in k1 2 rfl (by decide) rfl
  have f8 : fld w 18 2 = Bool.toNat t := fld_zext x1 (fld_in (lo := 19) (n := 1) k2 0 rfl (by decide) rfl)
  exact decodeWord_of ((raw39 hq).trans (by simp [decOp39, x3, f0, f1, k0, f2, f3, f4, x2, f5, f6, k1, f7, x1, f8, k2, x0, k3])) hg

theorem macq (b : Nat) (c : Bool) (i : Nat) (f : Bool) : Statement (.macq b c i f) := by
  intro w g h
  obtain ⟨hq, k0, k1, k2, x0, x1, x2, x3⟩ := lay49 57 0 0 5 (below (k := 4) (and_left (and_left g)) (by decide)) (toNat_lt c) (below (k := 16) (and_right (and_left g)) (by decide)) (toNat_lt f) rfl (by decide) (Option.some.inj h)
  have f0 : fld w 0 3 = Bool.toNat f := fld_zext x3 (fld_in (lo := 1) (n := 2) k0 0 rfl (by decide) rfl)
  have f1 : fld w 0 4 = Bool.toNat f := fld_zext x3 (fld_in (lo := 1) (n := 3) k0 0 rfl (by decide) rfl)
  have f2 : fld w 3 1 = 0 := fld_in k0 2 rfl (by decide) rfl
  have f3 : fld w 3 7 = 0 := fld_in k0 2 rfl (by decide) rfl
  have f4 : fld w 4 2 = 0 := fld_in k0 3 rfl (by decide) rfl
  have f5 : fld w 4 6 = 0 := fld_in k0 3 rfl (by decide) rfl
  have f6 : fld w 6 4 = 0 := fld_in k0 5 rfl (by decide) rfl
  have f7 : fld w 18 1 = 0 := fld_in k1 3 rfl (by decide) rfl
  have f8 : fld w 18 2 = 0 := fld_in k1 3 rfl (by decide) rfl
  have f9 : fld w 19 1 = 0 := fld_in k1 4 rfl (by decide) rfl
  exact decodeWord_of ((raw39 hq).trans (by simp [decOp39, x3, f0, f1, k0, f2, f3, f4, f5, f6, x2, x1, k1, f7, f8, f9, x0, k2])) g

theorem mrel (b : Nat) : Statement (.mrel b) := by
  intro w g h
  obtain ⟨hq, k0, k1, x0⟩ := lay50 57 0 6 (below (k := 4) g (by decide)) rfl (by decide) (Option.some.inj h)
  have f0 : fld w 0 1 = 0 := fld_in k0 0 rfl (by decide) rfl
  have f1 : fld w 0 3 = 0 := fld_in k0 0 rfl (by decide) rfl
  have f2 : fld w 0 4 = 0 := fld_in k0 0 rfl (by decide) rfl
  have f3 : fld w 0 18 = 0 := fld_in k0 0 rfl (by decide) rfl
  have f4 : fld w 1 9 = 0 := fld_in k0 1 rfl (by decide) rfl
  have f5 : fld w 3 1 = 0 := fld_in k0 3 rfl (by decide) rfl
  have f6 : fld w 3 7 = 0 := fld_in k0 3 rfl (by decide) rfl
  have f7 : fld w 4 2 = 0 := fld_in k0 4 rfl (by decide) rfl
  have f8 : fld w 4 6 = 0 := fld_in k0 4 rfl (by decide) rfl
  have f9 : fld w 6 4 = 0 := fld_in k0 6 rfl (by decide) rfl
  have f10 : fld w 10 2 = 0 := fld_in k0 10 rfl (by decide) rfl
  have f11 : fld w 10 4 = 0 := fld_in k0 10 rfl (by decide) rfl
  have f12 : fld w 10 8 = 0 := fld_in k0 10 rfl (by decide) rfl
  have f13 : fld w 10 10 = 0 := fld_in k0 10 rfl (by decide) rfl
  have f14 : fld w 12 6 = 0 := fld_in k0 12 rfl (by decide) rfl
  have f15 : fld w 14 1 = 0 := fld_in k0 14 rfl (by decide) rfl
  have f16 : fld w 15 5 = 0 := fld_in k0 15 rfl (by decide) rfl
  have f17 : fld w 18 1 = 0 := fld_in k0 18 rfl (by decide) rfl
  have f18 : fld w 18 2 = 0 := fld_in k0 18 rfl (by decide) rfl
  have f19 : fld w 19 1 = 0 := fld_in k0 19 rfl (by decide) rfl
  exact decodeWord_of ((raw39 hq).trans (by simp [decOp39, f0, f1, f2, f3, k0, f4, f5, f6, f7, f8, f9, f10, f11, f12, f13, f14, f15, f16, f17, f18, f19, x0, k1])) g

theorem hintWide (w : Nat) : Statement (.hintWide w) := by
  intro x g h
  obtain ⟨hq, k0, x0⟩ := lay51 62 0 (below (k := 1048576) g (by decide)) rfl (by decide) (Option.some.inj h)
  have f0 : fld x 0 22 = w := fld_zext x0 (fld_in (lo := 20) (n := 2) k0 0 rfl (by decide) rfl)
  have f1 : fld x 0 26 = w := fld_zext x0 (fld_in (lo := 20) (n := 6) k0 0 rfl (by decide) rfl)
  have f2 : ¬ fld x 1 25 = 27262976 := fun e =>
    fld_ne (lo := 20) (n := 6) (fld_in e 19 rfl (by decide) rfl) (fld_in k0 0 rfl (by decide) rfl) (by decide)
  have f3 : ¬ fld x 3 23 = 1048576 := fun e =>
    fld_ne (lo := 20) (n := 6) (fld_in e 17 rfl (by decide) rfl) (fld_in k0 0 rfl (by decide) rfl) (by decide)
  have f4 : ¬ fld x 4 22 = 786432 := fun e =>
    fld_ne (lo := 20) (n := 6) (fld_in e 16 rfl (by decide) rfl) (fld_in k0 0 rfl (by decide) rfl) (by decide)
  have f5 : ¬ fld x 6 20 = 655360 := fun e =>
    fld_ne (lo := 20) (n := 6) (fld_in e 14 rfl (by decide) rfl) (fld_in k0 0 rfl (by decide) rfl) (by decide)
  have f6 : ¬ fld x 7 19 = 294912 := fun e =>
    fld_ne (lo := 20) (n := 6) (fld_in e 13 rfl (by decide) rfl) (fld_in k0 0 rfl (by decide) rfl) (by decide)
  have f7 : ¬ fld x 8 18 = 196608 := fun e =>
    fld_ne (lo := 20) (n := 6) (fld_in e 12 rfl (by decide) rfl) (fld_in k0 0 rfl (by decide) rfl) (by decide)
  have f8 : ¬ fld x 10 16 = 32768 := fun e =>
    fld_ne (lo := 20) (n := 6) (fld_in e 10 rfl (by decide) rfl) (fld_in k0 0 rfl (by decide) rfl) (by decide)
  have f9 : fld x 22 1 = 0 := fld_in k0 2 rfl (by decide) rfl
  have f10 : fld x 23 3 = 0 := fld_in k0 3 rfl (by decide) rfl
  exact decodeWord_of ((raw3E hq).trans (by simp [decOp3E, x0, f0, f1, f2, f3, f4, f5, f6, f7, f8, k0, f9, f10])) g

theorem hintMext : Statement .hintMext := by
  intro w g h
  obtain ⟨hq, k0⟩ := lay15 62 4194305 rfl (by decide) (Option.some.inj h)
  have f0 : fld w 0 1 = 1 := fld_in k0 0 rfl (by decide) rfl
  have f1 : fld w 0 3 = 1 := fld_in k0 0 rfl (by decide) rfl
  have f2 : fld w 0 4 = 1 := fld_in k0 0 rfl (by decide) rfl
  have f3 : fld w 0 6 = 1 := fld_in k0 0 rfl (by decide) rfl
  have f4 : fld w 0 8 = 1 := fld_in k0 0 rfl (by decide) rfl
  have f5 : fld w 0 10 = 1 := fld_in k0 0 rfl (by decide) rfl
  have f6 : fld w 0 20 = 1 := fld_in k0 0 rfl (by decide) rfl
  have f7 : fld w 0 22 = 1 := fld_in k0 0 rfl (by decide) rfl
  have f8 : fld w 1 25 = 2097152 := fld_in k0 1 rfl (by decide) rfl
  have f9 : fld w 3 23 = 524288 := fld_in k0 3 rfl (by decide) rfl
  have f10 : fld w 4 22 = 262144 := fld_in k0 4 rfl (by decide) rfl
  have f11 : fld w 6 1 = 0 := fld_in k0 6 rfl (by decide) rfl
  have f12 : fld w 6 20 = 65536 := fld_in k0 6 rfl (by decide) rfl
  have f13 : fld w 7 19 = 32768 := fld_in k0 7 rfl (by decide) rfl
  have f14 : fld w 8 18 = 16384 := fld_in k0 8 rfl (by decide) rfl
  have f15 : fld w 10 16 = 4096 := fld_in k0 10 rfl (by decide) rfl
  have f16 : fld w 20 6 = 4 := fld_in k0 20 rfl (by decide) rfl
  have f17 : fld w 22 1 = 1 := fld_in k0 22 rfl (by decide) rfl
  have f18 : fld w 23 3 = 0 := fld_in k0 23 rfl (by decide) rfl
  exact decodeWord_of ((raw3E hq).trans (by simp [decOp3E, f0, f1, f2, f3, f4, f5, f6, f7, k0, f8, f9, f10, f11, f12, f13, f14, f15, f16, f17, f18])) g

theorem hintRnd (r : Rnd) : Statement (.hintRnd r) := by
  intro w g h
  obtain ⟨hq, k0, x0⟩ := lay35 62 1048576 (Rnd.code_lt r) rfl (by decide) (Option.some.inj h)
  have f0 : fld w 0 4 = Rnd.code r := fld_zext x0 (fld_in (lo := 3) (n := 1) k0 0 rfl (by decide) rfl)
  have f1 : fld w 0 6 = Rnd.code r := fld_zext x0 (fld_in (lo := 3) (n := 3) k0 0 rfl (by decide) rfl)
  have f2 : fld w 0 8 = Rnd.code r := fld_zext x0 (fld_in (lo := 3) (n := 5) k0 0 rfl (by decide) rfl)
  have f3 : fld w 0 10 = Rnd.code r := fld_zext x0 (fld_in (lo := 3) (n := 7) k0 0 rfl (by decide) rfl)
  have f4 : fld w 0 20 = Rnd.code r := fld_zext x0 (fld_in (lo := 3) (n := 17) k0 0 rfl (by decide) rfl)
  have f5 : fld w 0 22 = Rnd.code r := fld_zext x0 (fld_in (lo := 3) (n := 19) k0 0 rfl (by decide) rfl)
  have f6 : ¬ fld w 0 26 = 4194305 := fun e =>
    fld_ne (lo := 3) (n := 23) (fld_in e 3 rfl (by decide) rfl) (fld_in k0 0 rfl (by decide) rfl) (by decide)
  have f7 : ¬ fld w 1 25 = 27262976 := fun e =>
    fld_ne (lo := 3) (n := 23) (fld_in e 2 rfl (by decide) rfl) (fld_in k0 0 rfl (by decide) rfl) (by decide)
  have f8 : fld w 4 22 = 524288 := fld_in k0 1 rfl (by decide) rfl
  have f9 : fld w 6 1 = 0 := fld_in k0 3 rfl (by decide) rfl
  have f10 : fld w 6 20 = 131072 := fld_in k0 3 rfl (by decide) rfl
  have f11 : fld w 7 19 = 65536 := fld_in k0 4 rfl (by decide) rfl
  have f12 : fld w 8 18 = 32768 := fld_in k0 5 rfl (by decide) rfl
  have f13 : fld w 10 16 = 8192 := fld_in k0 7 rfl (by decide) rfl
  have f14 : fld w 20 6 = 8 := fld_in k0 17 rfl (by decide) rfl
  have f15 : fld w 22 1 = 0 := fld_in k0 19 rfl (by decide) rfl
  have f16 : fld w 23 3 = 1 := fld_in k0 20 rfl (by decide) rfl
  exact decodeWord_of ((raw3E hq).trans (by simp [decOp3E, x0, f0, f1, f2, f3, f4, f5, f6, f7, k0, f8, f9, f10, f11, f12, f13, f14, f15, f16])) g

theorem hintBnd (i : Nat) : Statement (.hintBnd i) := by
  intro w g h
  obtain ⟨hq, k0, x0⟩ := lay52 62 786432 (below (k := 16) g (by decide)) rfl (by decide) (Option.some.inj h)
  have f0 : fld w 0 6 = i := fld_zext x0 (fld_in (lo := 4) (n := 2) k0 0 rfl (by decide) rfl)
  have f1 : fld w 0 8 = i := fld_zext x0 (fld_in (lo := 4) (n := 4) k0 0 rfl (by decide) rfl)
  have f2 : fld w 0 10 = i := fld_zext x0 (fld_in (lo := 4) (n := 6) k0 0 rfl (by decide) rfl)
  have f3 : fld w 0 20 = i := fld_zext x0 (fld_in (lo := 4) (n := 16) k0 0 rfl (by decide) rfl)
  have f4 : fld w 0 22 = i := fld_zext x0 (fld_in (lo := 4) (n := 18) k0 0 rfl (by decide) rfl)
  have f5 : ¬ fld w 0 26 = 4194305 := fun e =>
    fld_ne (lo := 4) (n := 22) (fld_in e 4 rfl (by decide) rfl) (fld_in k0 0 rfl (by decide) rfl) (by decide)
  have f6 : ¬ fld w 1 25 = 27262976 := fun e =>
    fld_ne (lo := 4) (n := 22) (fld_in e 3 rfl (by decide) rfl) (fld_in k0 0 rfl (by decide) rfl) (by decide)
  have f7 : ¬ fld w 3 23 = 1048576 := fun e =>
    fld_ne (lo := 4) (n := 22) (fld_in e 1 rfl (by decide) rfl) (fld_in k0 0 rfl (by decide) rfl) (by decide)
  have f8 : fld w 6 1 = 0 := fld_in k0 2 rfl (by decide) rfl
  have f9 : fld w 6 20 = 196608 := fld_in k0 2 rfl (by decide) rfl
  have f10 : fld w 7 19 = 98304 := fld_in k0 3 rfl (by decide) rfl
  have f11 : fld w 8 18 = 49152 := fld_in k0 4 rfl (by decide) rfl
  have f12 : fld w 10 16 = 12288 := fld_in k0 6 rfl (by decide) rfl
  have f13 : fld w 20 6 = 12 := fld_in k0 16 rfl (by decide) rfl
  have f14 : fld w 22 1 = 1 := fld_in k0 18 rfl (by decide) rfl
  have f15 : fld w 23 3 = 1 := fld_in k0 19 rfl (by decide) rfl
  exact decodeWord_of ((raw3E hq).trans (by simp [decOp3E, x0, f0, f1, f2, f3, f4, f5, f6, f7, k0, f8, f9, f10, f11, f12, f13, f14, f15])) g

theorem hintYield (n : Nat) : Statement (.hintYield n) := by
  intro w g h
  obtain ⟨hq, k0, x0⟩ := lay53 62 32768 (below (k := 1024) g (by decide)) rfl (by decide) (Option.some.inj h)
  have f0 : fld w 0 20 = n := fld_zext x0 (fld_in (lo := 10) (n := 10) k0 0 rfl (by decide) rfl)
  have f1 : fld w 0 22 = n := fld_zext x0 (fld_in (lo := 10) (n := 12) k0 0 rfl (by decide) rfl)
  have f2 : ¬ fld w 0 26 = 4194305 := fun e =>
    fld_ne (lo := 10) (n := 16) (fld_in e 10 rfl (by decide) rfl) (fld_in k0 0 rfl (by decide) rfl) (by decide)
  have f3 : ¬ fld w 1 25 = 27262976 := fun e =>
    fld_ne (lo := 10) (n := 16) (fld_in e 9 rfl (by decide) rfl) (fld_in k0 0 rfl (by decide) rfl) (by decide)
  have f4 : ¬ fld w 3 23 = 1048576 := fun e =>
    fld_ne (lo := 10) (n := 16) (fld_in e 7 rfl (by decide) rfl) (fld_in k0 0 rfl (by decide) rfl) (by decide)
  have f5 : ¬ fld w 4 22 = 786432 := fun e =>
    fld_ne (lo := 10) (n := 16) (fld_in e 6 rfl (by decide) rfl) (fld_in k0 0 rfl (by decide) rfl) (by decide)
  have f6 : ¬ fld w 6 20 = 655360 := fun e =>
    fld_ne (lo := 10) (n := 16) (fld_in e 4 rfl (by decide) rfl) (fld_in k0 0 rfl (by decide) rfl) (by decide)
  have f7 : ¬ fld w 7 19 = 294912 := fun e =>
    fld_ne (lo := 10) (n := 16) (fld_in e 3 rfl (by decide) rfl) (fld_in k0 0 rfl (by decide) rfl) (by decide)
  have f8 : ¬ fld w 8 18 = 196608 := fun e =>
    fld_ne (lo := 10) (n := 16) (fld_in e 2 rfl (by decide) rfl) (fld_in k0 0 rfl (by decide) rfl) (by decide)
  have f9 : fld w 20 6 = 32 := fld_in k0 10 rfl (by decide) rfl
  have f10 : fld w 22 1 = 0 := fld_in k0 12 rfl (by decide) rfl
  have f11 : fld w 23 3 = 4 := fld_in k0 13 rfl (by decide) rfl
  exact decodeWord_of ((raw3E hq).trans (by simp [decOp3E, x0, f0, f1, f2, f3, f4, f5, f6, f7, f8, k0, f9, f10, f11])) g

theorem hintKeep (k : Bool) (r : Nat) : Statement (.hintKeep k r) := by
  intro w g h
  obtain ⟨hq, k0, x0, x1⟩ := lay54 62 294912 (toNat_lt k) (isReg_lt g) rfl (by decide) (Option.some.inj h)
  have f0 : ¬ fld w 0 26 = 4194305 := fun e =>
    fld_ne (lo := 7) (n := 19) (fld_in e 7 rfl (by decide) rfl) (fld_in k0 0 rfl (by decide) rfl) (by decide)
  have f1 : ¬ fld w 1 25 = 27262976 := fun e =>
    fld_ne (lo := 7) (n := 19) (fld_in e 6 rfl (by decide) rfl) (fld_in k0 0 rfl (by decide) rfl) (by decide)
  have f2 : ¬ fld w 3 23 = 1048576 := fun e =>
    fld_ne (lo := 7) (n := 19) (fld_in e 4 rfl (by decide) rfl) (fld_in k0 0 rfl (by decide) rfl) (by decide)
  have f3 : ¬ fld w 4 22 = 786432 := fun e =>
    fld_ne (lo := 7) (n := 19) (fld_in e 3 rfl (by decide) rfl) (fld_in k0 0 rfl (by decide) rfl) (by decide)
  have f4 : ¬ fld w 6 20 = 655360 := fun e =>
    fld_ne (lo := 7) (n := 19) (fld_in e 1 rfl (by decide) rfl) (fld_in k0 0 rfl (by decide) rfl) (by decide)
  have f5 : fld w 8 18 = 147456 := fld_in k0 1 rfl (by decide) rfl
  have f6 : fld w 10 16 = 36864 := fld_in k0 3 rfl (by decide) rfl
  have f7 : fld w 20 6 = 36 := fld_in k0 13 rfl (by decide) rfl
  have f8 : fld w 22 1 = 1 := fld_in k0 15 rfl (by decide) rfl
  have f9 : fld w 23 3 = 4 := fld_in k0 16 rfl (by decide) rfl
  exact decodeWord_of ((raw3E hq).trans (by simp [decOp3E, x1, f0, f1, f2, f3, x0, f4, k0, f5, f6, f7, f8, f9])) g

theorem hintEvict (r : Nat) : Statement (.hintEvict r) := by
  intro w g h
  obtain ⟨hq, k0, x0⟩ := lay55 62 655360 (isReg_lt g) rfl (by decide) (Option.some.inj h)
  have f0 : fld w 0 8 = r := fld_zext x0 (fld_in (lo := 6) (n := 2) k0 0 rfl (by decide) rfl)
  have f1 : fld w 0 10 = r := fld_zext x0 (fld_in (lo := 6) (n := 4) k0 0 rfl (by decide) rfl)
  have f2 : fld w 0 20 = r := fld_zext x0 (fld_in (lo := 6) (n := 14) k0 0 rfl (by decide) rfl)
  have f3 : fld w 0 22 = r := fld_zext x0 (fld_in (lo := 6) (n := 16) k0 0 rfl (by decide) rfl)
  have f4 : ¬ fld w 0 26 = 4194305 := fun e =>
    fld_ne (lo := 6) (n := 20) (fld_in e 6 rfl (by decide) rfl) (fld_in k0 0 rfl (by decide) rfl) (by decide)
  have f5 : ¬ fld w 1 25 = 27262976 := fun e =>
    fld_ne (lo := 6) (n := 20) (fld_in e 5 rfl (by decide) rfl) (fld_in k0 0 rfl (by decide) rfl) (by decide)
  have f6 : ¬ fld w 3 23 = 1048576 := fun e =>
    fld_ne (lo := 6) (n := 20) (fld_in e 3 rfl (by decide) rfl) (fld_in k0 0 rfl (by decide) rfl) (by decide)
  have f7 : ¬ fld w 4 22 = 786432 := fun e =>
    fld_ne (lo := 6) (n := 20) (fld_in e 2 rfl (by decide) rfl) (fld_in k0 0 rfl (by decide) rfl) (by decide)
  have f8 : fld w 6 1 = 0 := fld_in k0 0 rfl (by decide) rfl
  have f9 : fld w 7 19 = 327680 := fld_in k0 1 rfl (by decide) rfl
  have f10 : fld w 8 18 = 163840 := fld_in k0 2 rfl (by decide) rfl
  have f11 : fld w 10 16 = 40960 := fld_in k0 4 rfl (by decide) rfl
  have f12 : fld w 20 6 = 40 := fld_in k0 14 rfl (by decide) rfl
  have f13 : fld w 22 1 = 0 := fld_in k0 16 rfl (by decide) rfl
  have f14 : fld w 23 3 = 5 := fld_in k0 17 rfl (by decide) rfl
  exact decodeWord_of ((raw3E hq).trans (by simp [decOp3E, x0, f0, f1, f2, f3, f4, f5, f6, f7, f8, k0, f9, f10, f11, f12, f13, f14])) g

theorem bbc (n : Nat) : Statement (.bbc n) := by
  intro w g h
  obtain ⟨hq, k0, x0⟩ := lay51 62 44 (below (k := 1048576) g (by decide)) rfl (by decide) (Option.some.inj h)
  have f0 : fld w 0 22 = n := fld_zext x0 (fld_in (lo := 20) (n := 2) k0 0 rfl (by decide) rfl)
  have f1 : ¬ fld w 0 26 = 4194305 := fun e =>
    fld_ne (lo := 20) (n := 6) (fld_in e 20 rfl (by decide) rfl) (fld_in k0 0 rfl (by decide) rfl) (by decide)
  have f2 : ¬ fld w 1 25 = 27262976 := fun e =>
    fld_ne (lo := 20) (n := 6) (fld_in e 19 rfl (by decide) rfl) (fld_in k0 0 rfl (by decide) rfl) (by decide)
  have f3 : ¬ fld w 3 23 = 1048576 := fun e =>
    fld_ne (lo := 20) (n := 6) (fld_in e 17 rfl (by decide) rfl) (fld_in k0 0 rfl (by decide) rfl) (by decide)
  have f4 : ¬ fld w 4 22 = 786432 := fun e =>
    fld_ne (lo := 20) (n := 6) (fld_in e 16 rfl (by decide) rfl) (fld_in k0 0 rfl (by decide) rfl) (by decide)
  have f5 : ¬ fld w 6 20 = 655360 := fun e =>
    fld_ne (lo := 20) (n := 6) (fld_in e 14 rfl (by decide) rfl) (fld_in k0 0 rfl (by decide) rfl) (by decide)
  have f6 : ¬ fld w 7 19 = 294912 := fun e =>
    fld_ne (lo := 20) (n := 6) (fld_in e 13 rfl (by decide) rfl) (fld_in k0 0 rfl (by decide) rfl) (by decide)
  have f7 : ¬ fld w 8 18 = 196608 := fun e =>
    fld_ne (lo := 20) (n := 6) (fld_in e 12 rfl (by decide) rfl) (fld_in k0 0 rfl (by decide) rfl) (by decide)
  have f8 : ¬ fld w 10 16 = 32768 := fun e =>
    fld_ne (lo := 20) (n := 6) (fld_in e 10 rfl (by decide) rfl) (fld_in k0 0 rfl (by decide) rfl) (by decide)
  have f9 : fld w 22 1 = 1 := fld_in k0 2 rfl (by decide) rfl
  have f10 : fld w 23 3 = 5 := fld_in k0 3 rfl (by decide) rfl
  exact decodeWord_of ((raw3E hq).trans (by simp [decOp3E, x0, f0, f1, f2, f3, f4, f5, f6, f7, f8, k0, f9, f10])) g

theorem hintFuse (w : Nat) : Statement (.hintFuse w) := by
  intro x g h
  obtain ⟨hq, k0, x0⟩ := lay18 62 196608 (below (k := 256) g (by decide)) rfl (by decide) (Option.some.inj h)
  have f0 : fld x 0 10 = w := fld_zext x0 (fld_in (lo := 8) (n := 2) k0 0 rfl (by decide) rfl)
  have f1 : fld x 0 20 = w := fld_zext x0 (fld_in (lo := 8) (n := 12) k0 0 rfl (by decide) rfl)
  have f2 : fld x 0 22 = w := fld_zext x0 (fld_in (lo := 8) (n := 14) k0 0 rfl (by decide) rfl)
  have f3 : ¬ fld x 0 26 = 4194305 := fun e =>
    fld_ne (lo := 8) (n := 18) (fld_in e 8 rfl (by decide) rfl) (fld_in k0 0 rfl (by decide) rfl) (by decide)
  have f4 : ¬ fld x 1 25 = 27262976 := fun e =>
    fld_ne (lo := 8) (n := 18) (fld_in e 7 rfl (by decide) rfl) (fld_in k0 0 rfl (by decide) rfl) (by decide)
  have f5 : ¬ fld x 3 23 = 1048576 := fun e =>
    fld_ne (lo := 8) (n := 18) (fld_in e 5 rfl (by decide) rfl) (fld_in k0 0 rfl (by decide) rfl) (by decide)
  have f6 : ¬ fld x 4 22 = 786432 := fun e =>
    fld_ne (lo := 8) (n := 18) (fld_in e 4 rfl (by decide) rfl) (fld_in k0 0 rfl (by decide) rfl) (by decide)
  have f7 : ¬ fld x 6 20 = 655360 := fun e =>
    fld_ne (lo := 8) (n := 18) (fld_in e 2 rfl (by decide) rfl) (fld_in k0 0 rfl (by decide) rfl) (by decide)
  have f8 : ¬ fld x 7 19 = 294912 := fun e =>
    fld_ne (lo := 8) (n := 18) (fld_in e 1 rfl (by decide) rfl) (fld_in k0 0 rfl (by decide) rfl) (by decide)
  have f9 : fld x 10 16 = 49152 := fld_in k0 2 rfl (by decide) rfl
  have f10 : fld x 20 6 = 48 := fld_in k0 12 rfl (by decide) rfl
  have f11 : fld x 22 1 = 0 := fld_in k0 14 rfl (by decide) rfl
  have f12 : fld x 23 3 = 6 := fld_in k0 15 rfl (by decide) rfl
  exact decodeWord_of ((raw3E hq).trans (by simp [decOp3E, x0, f0, f1, f2, f3, f4, f5, f6, f7, f8, k0, f9, f10, f11, f12])) g

theorem hintNoahead (f : Bool) : Statement (.hintNoahead f) := by
  intro w g h
  obtain ⟨hq, k0, x0⟩ := lay56 62 27262976 (toNat_lt f) rfl (by decide) (Option.some.inj h)
  have f0 : fld w 0 3 = Bool.toNat f := fld_zext x0 (fld_in (lo := 1) (n := 2) k0 0 rfl (by decide) rfl)
  have f1 : fld w 0 4 = Bool.toNat f := fld_zext x0 (fld_in (lo := 1) (n := 3) k0 0 rfl (by decide) rfl)
  have f2 : fld w 0 6 = Bool.toNat f := fld_zext x0 (fld_in (lo := 1) (n := 5) k0 0 rfl (by decide) rfl)
  have f3 : fld w 0 8 = Bool.toNat f := fld_zext x0 (fld_in (lo := 1) (n := 7) k0 0 rfl (by decide) rfl)
  have f4 : fld w 0 10 = Bool.toNat f := fld_zext x0 (fld_in (lo := 1) (n := 9) k0 0 rfl (by decide) rfl)
  have f5 : fld w 0 20 = Bool.toNat f := fld_zext x0 (fld_in (lo := 1) (n := 19) k0 0 rfl (by decide) rfl)
  have f6 : fld w 0 22 = Bool.toNat f := fld_zext x0 (fld_in (lo := 1) (n := 21) k0 0 rfl (by decide) rfl)
  have f7 : ¬ fld w 0 26 = 4194305 := fun e =>
    fld_ne (lo := 1) (n := 25) (fld_in e 1 rfl (by decide) rfl) (fld_in k0 0 rfl (by decide) rfl) (by decide)
  have f8 : fld w 3 23 = 6815744 := fld_in k0 2 rfl (by decide) rfl
  have f9 : fld w 4 22 = 3407872 := fld_in k0 3 rfl (by decide) rfl
  have f10 : fld w 6 1 = 0 := fld_in k0 5 rfl (by decide) rfl
  have f11 : fld w 6 20 = 851968 := fld_in k0 5 rfl (by decide) rfl
  have f12 : fld w 7 19 = 425984 := fld_in k0 6 rfl (by decide) rfl
  have f13 : fld w 8 18 = 212992 := fld_in k0 7 rfl (by decide) rfl
  have f14 : fld w 10 16 = 53248 := fld_in k0 9 rfl (by decide) rfl
  have f15 : fld w 20 6 = 52 := fld_in k0 19 rfl (by decide) rfl
  have f16 : fld w 22 1 = 1 := fld_in k0 21 rfl (by decide) rfl
  have f17 : fld w 23 3 = 6 := fld_in k0 22 rfl (by decide) rfl
  exact decodeWord_of ((raw3E hq).trans (by simp [decOp3E, x0, f0, f1, f2, f3, f4, f5, f6, f7, k0, f8, f9, f10, f11, f12, f13, f14, f15, f16, f17])) g

theorem hintAdv (k : Nat) (p : Nat) : Statement (.hintAdv k p) := by
  intro w g h
  obtain ⟨hq, k0, x0, x1⟩ := lay57 62 7 (below (k := 2) (and_left g) (by decide)) (below (k := 4194304) (and_right g) (by decide)) rfl (by decide) (Option.some.inj h)
  have f0 : ¬ fld w 0 26 = 4194305 := fun e =>
    fld_ne (lo := 23) (n := 3) (fld_in e 23 rfl (by decide) rfl) (fld_in k0 0 rfl (by decide) rfl) (by decide)
  have f1 : ¬ fld w 1 25 = 27262976 := fun e =>
    fld_ne (lo := 23) (n := 3) (fld_in e 22 rfl (by decide) rfl) (fld_in k0 0 rfl (by decide) rfl) (by decide)
  have f2 : ¬ fld w 3 23 = 1048576 := fun e =>
    fld_ne (lo := 23) (n := 3) (fld_in e 20 rfl (by decide) rfl) (fld_in k0 0 rfl (by decide) rfl) (by decide)
  have f3 : ¬ fld w 4 22 = 786432 := fun e =>
    fld_ne (lo := 23) (n := 3) (fld_in e 19 rfl (by decide) rfl) (fld_in k0 0 rfl (by decide) rfl) (by decide)
  have f4 : ¬ fld w 6 20 = 655360 := fun e =>
    fld_ne (lo := 23) (n := 3) (fld_in e 17 rfl (by decide) rfl) (fld_in k0 0 rfl (by decide) rfl) (by decide)
  have f5 : ¬ fld w 7 19 = 294912 := fun e =>
    fld_ne (lo := 23) (n := 3) (fld_in e 16 rfl (by decide) rfl) (fld_in k0 0 rfl (by decide) rfl) (by decide)
  have f6 : ¬ fld w 8 18 = 196608 := fun e =>
    fld_ne (lo := 23) (n := 3) (fld_in e 15 rfl (by decide) rfl) (fld_in k0 0 rfl (by decide) rfl) (by decide)
  have f7 : ¬ fld w 10 16 = 32768 := fun e =>
    fld_ne (lo := 23) (n := 3) (fld_in e 13 rfl (by decide) rfl) (fld_in k0 0 rfl (by decide) rfl) (by decide)
  have f8 : ¬ fld w 20 6 = 0 := fun e =>
    fld_ne (lo := 23) (n := 3) (fld_in e 3 rfl (by decide) rfl) (fld_in k0 0 rfl (by decide) rfl) (by decide)
  have f9 : ¬ fld w 20 6 = 44 := fun e =>
    fld_ne (lo := 23) (n := 3) (fld_in e 3 rfl (by decide) rfl) (fld_in k0 0 rfl (by decide) rfl) (by decide)
  exact decodeWord_of ((raw3E hq).trans (by simp [decOp3E, x1, f0, f1, f2, f3, f4, f5, f6, f7, f8, f9, x0, k0])) g

/-! ### Events and commands -/

theorem coldReset (b : Boot) : Statement (.coldReset b) := fun _ _ h => by cases h

theorem functionLevelReset : Statement .functionLevelReset := fun _ _ h => by cases h

theorem queueDoorbell (q : Nat) (tail : Nat) : Statement (.queueDoorbell q tail) := fun _ _ h => by cases h

theorem queueEnable (q : Nat) (lo : Nat) : Statement (.queueEnable q lo) := fun _ _ h => by cases h

theorem queueDisable (q : Nat) (lo : Nat) : Statement (.queueDisable q lo) := fun _ _ h => by cases h

theorem queueBaseWrite (q : Nat) (v : Nat) : Statement (.queueBaseWrite q v) := fun _ _ h => by cases h

theorem queueParkWrite (q : Nat) (v : Nat) : Statement (.queueParkWrite q v) := fun _ _ h => by cases h

theorem parkResume (q : Nat) (r : Nat) : Statement (.parkResume q r) := fun _ _ h => by cases h

theorem parkKillCrew (q : Nat) (r : Nat) : Statement (.parkKillCrew q r) := fun _ _ h => by cases h

theorem parkKillLaunch (q : Nat) (r : Nat) : Statement (.parkKillLaunch q r) := fun _ _ h => by cases h

theorem preemptCmd (core : Nat) : Statement (.preemptCmd core) := fun _ _ h => by cases h

theorem dbgStopSet (q : Nat) : Statement (.dbgStopSet q) := fun _ _ h => by cases h

theorem dbgStopClear (q : Nat) : Statement (.dbgStopClear q) := fun _ _ h => by cases h

theorem mboxOpen : Statement .mboxOpen := fun _ _ h => by cases h

theorem mboxAppend : Statement .mboxAppend := fun _ _ h => by cases h

theorem mboxVerifyStore : Statement .mboxVerifyStore := fun _ _ h => by cases h

theorem mboxDiscard : Statement .mboxDiscard := fun _ _ h => by cases h

theorem memwinRead (off : Nat) (len : Nat) : Statement (.memwinRead off len) := fun _ _ h => by cases h

theorem memwinWrite (off : Nat) (data : List Byte) : Statement (.memwinWrite off data) := fun _ _ h => by cases h

theorem registerWrite (off : Nat) (size : Nat) (val : Nat) : Statement (.registerWrite off size val) := fun _ _ h => by cases h

theorem hostCxlMemAccess (h : HostAccess) : Statement (.hostCxlMemAccess h) := fun _ _ h => by cases h

theorem doeAttestation (nonce : List Byte) : Statement (.doeAttestation nonce) := fun _ _ h => by cases h

theorem launch (q : Nat) : Statement (.launch q) := fun _ _ h => by cases h

theorem pin (q : Nat) : Statement (.pin q) := fun _ _ h => by cases h

theorem unpin (q : Nat) : Statement (.unpin q) := fun _ _ h => by cases h

theorem copyIn (q : Nat) : Statement (.copyIn q) := fun _ _ h => by cases h

theorem copyOut (q : Nat) : Statement (.copyOut q) := fun _ _ h => by cases h

theorem signal (q : Nat) : Statement (.signal q) := fun _ _ h => by cases h

theorem waitCommand (q : Nat) : Statement (.waitCommand q) := fun _ _ h => by cases h

theorem bindCollective (q : Nat) : Statement (.bindCollective q) := fun _ _ h => by cases h

theorem spanPrologue (q : Nat) : Statement (.spanPrologue q) := fun _ _ h => by cases h

theorem map (q : Nat) : Statement (.map q) := fun _ _ h => by cases h

theorem cohortAdmit (pick : Nat) : Statement (.cohortAdmit pick) := fun _ _ h => by cases h

theorem coreBucketRefill (core : Nat) : Statement (.coreBucketRefill core) := fun _ _ h => by cases h

theorem fairnessHold (core : Nat) : Statement (.fairnessHold core) := fun _ _ h => by cases h

theorem runAhead (core : Nat) (frame : Nat) : Statement (.runAhead core frame) := fun _ _ h => by cases h

theorem loadComplete (core : Nat) (frame : Nat) (op : Nat) : Statement (.loadComplete core frame op) := fun _ _ h => by cases h

theorem storeAccept (core : Nat) (frame : Nat) (op : Nat) : Statement (.storeAccept core frame op) := fun _ _ h => by cases h

theorem copyStart (cl : Nat) (op : Nat) : Statement (.copyStart cl op) := fun _ _ h => by cases h

theorem copyComplete (cl : Nat) (op : Nat) : Statement (.copyComplete cl op) := fun _ _ h => by cases h

theorem quantumFlush (core : Nat) (ix : Nat) : Statement (.quantumFlush core ix) := fun _ _ h => by cases h

theorem generationReject (core : Nat) (frame : Nat) (op : Nat) : Statement (.generationReject core frame op) := fun _ _ h => by cases h

theorem wake (core : Nat) (frame : Nat) : Statement (.wake core frame) := fun _ _ h => by cases h

theorem spuriousWake (core : Nat) (frame : Nat) : Statement (.spuriousWake core frame) := fun _ _ h => by cases h

theorem pagesReady (core : Nat) (frame : Nat) : Statement (.pagesReady core frame) := fun _ _ h => by cases h

theorem eviction (core : Nat) : Statement (.eviction core) := fun _ _ h => by cases h

theorem groupRestore (core : Nat) : Statement (.groupRestore core) := fun _ _ h => by cases h

theorem benchHandover (core : Nat) (bench : Nat) : Statement (.benchHandover core bench) := fun _ _ h => by cases h

theorem matrixGrant (cl : Nat) : Statement (.matrixGrant cl) := fun _ _ h => by cases h

theorem passRetire (cl : Nat) : Statement (.passRetire cl) := fun _ _ h => by cases h

theorem scanRetire (cl : Nat) : Statement (.scanRetire cl) := fun _ _ h => by cases h

theorem drainComplete (cl : Nat) (op : Nat) : Statement (.drainComplete cl op) := fun _ _ h => by cases h

theorem barrierRelease (crew : Nat) (coh : Bool) : Statement (.barrierRelease crew coh) := fun _ _ h => by cases h

theorem regangMerge (core : Nat) (frame : Nat) : Statement (.regangMerge core frame) := fun _ _ h => by cases h

theorem watchdogExpiry (core : Nat) (frame : Nat) : Statement (.watchdogExpiry core frame) := fun _ _ h => by cases h

theorem shadowBankSwap (core : Nat) : Statement (.shadowBankSwap core) := fun _ _ h => by cases h

theorem spill (core : Nat) : Statement (.spill core) := fun _ _ h => by cases h

theorem savedContextReport (core : Nat) : Statement (.savedContextReport core) := fun _ _ h => by cases h

theorem takeTrap (core : Nat) (frame : Nat) : Statement (.takeTrap core frame) := fun _ _ h => by cases h

theorem parkRecordWrite (core : Nat) (frame : Nat) : Statement (.parkRecordWrite core frame) := fun _ _ h => by cases h

theorem uncorrectableConsumed (core : Nat) (frame : Nat) : Statement (.uncorrectableConsumed core frame) := fun _ _ h => by cases h

theorem crewRelaunch (pick : Nat) : Statement (.crewRelaunch pick) := fun _ _ h => by cases h

theorem groupRetire (core : Nat) (frame : Nat) : Statement (.groupRetire core frame) := fun _ _ h => by cases h

theorem crewRetire (crew : Nat) : Statement (.crewRetire crew) := fun _ _ h => by cases h

theorem collectiveDataReceive (c : Contribution) : Statement (.collectiveDataReceive c) := fun _ _ h => by cases h

theorem collectiveRefusal (ident : Nat) (rank : Nat) (chunk : Nat) : Statement (.collectiveRefusal ident rank chunk) := fun _ _ h => by cases h

theorem alltoallRowReceive (r : Row) : Statement (.alltoallRowReceive r) := fun _ _ h => by cases h

theorem rowReturn (r : Row) : Statement (.rowReturn r) := fun _ _ h => by cases h

theorem collectiveComplete (ident : Nat) : Statement (.collectiveComplete ident) := fun _ _ h => by cases h

theorem winderBoundary (m : Measure) : Statement (.winderBoundary m) := fun _ _ h => by cases h

theorem backfillDraw (k : Scrub) : Statement (.backfillDraw k) := fun _ _ h => by cases h

theorem intentClaimReceive (sx : Nat) (sy : Nat) (s : Nat) (delta : Nat) (a : Nat) : Statement (.intentClaimReceive sx sy s delta a) := fun _ _ h => by cases h

theorem timeSyncSend (port : Nat) : Statement (.timeSyncSend port) := fun _ _ h => by cases h

theorem timeSyncReceive (port : Nat) (time : Nat) : Statement (.timeSyncReceive port time) := fun _ _ h => by cases h

theorem prologueExchangeReceive (sx : Nat) (sy : Nat) (span : Nat) : Statement (.prologueExchangeReceive sx sy span) := fun _ _ h => by cases h

theorem flitForward (port : Nat) (f : Flit) : Statement (.flitForward port f) := fun _ _ h => by cases h

theorem routeFailureReceive (span : Nat) : Statement (.routeFailureReceive span) := fun _ _ h => by cases h

theorem portWindow (port : Nat) (w : PortStats) : Statement (.portWindow port w) := fun _ _ h => by cases h

theorem portDown (port : Nat) : Statement (.portDown port) := fun _ _ h => by cases h

theorem surveyTick : Statement .surveyTick := fun _ _ h => by cases h

theorem sample (core : Nat) : Statement (.sample core) := fun _ _ h => by cases h

theorem dmaCopyComplete (op : Nat) (e : DmaEnd) : Statement (.dmaCopyComplete op e) := fun _ _ h => by cases h

theorem hostLinkDown (link : Nat) : Statement (.hostLinkDown link) := fun _ _ h => by cases h

theorem linkTrained (host : Bool) (n : Nat) : Statement (.linkTrained host n) := fun _ _ h => by cases h

theorem shadowBankFill (core : Nat) : Statement (.shadowBankFill core) := fun _ _ h => by cases h

theorem chunkMissingReceive (ident : Nat) (rank : Nat) (chunk : Nat) : Statement (.chunkMissingReceive ident rank chunk) := fun _ _ h => by cases h

end Sys2Proof.Laws.Encoding
end

