-- ==== Sys2Proof/Laws/Sound.lean ====
section
/-! SUPPORT. The invariant of every step (`Safety.Sound`) under the operations that change its parts: tables, groups, cores,
memory, local stores. An operation that changes none of them keeps it by `sound_same`; a list of operations by
`sound_foldl`. -/

namespace Sys2Proof.Machine

open Sys2Proof.Safety

/-! ### Tables -/

theorem keys_tset {α : Type} (t : Tbl α) (n : Nat) (v : α) :
    (tset t n v).map Prod.fst = if n ∈ t.map Prod.fst then t.map Prod.fst else t.map Prod.fst ++ [n] := by
  induction t with
  | nil => simp [tset]
  | cons p r ih =>
    obtain ⟨k, w⟩ := p
    simp only [tset]
    split
    · rename_i h; subst h; simp
    · rename_i h
      have h' : n ≠ k := fun e => h e.symm
      simp only [List.map_cons, ih, List.mem_cons, h', false_or]
      split <;> simp

theorem nodup_tset {α : Type} {t : Tbl α} (h : (t.map Prod.fst).Nodup) (n : Nat) (v : α) :
    ((tset t n v).map Prod.fst).Nodup := by
  rw [keys_tset]
  split
  · exact h
  · rename_i hn
    refine List.nodup_append.mpr ⟨h, by simp, ?_⟩
    intro a ha b hb
    rw [List.mem_singleton] at hb
    exact fun e => hn (by rw [← hb, ← e]; exact ha)

theorem mem_tset {α : Type} {t : Tbl α} {n : Nat} {v : α} {p : Nat × α} (h : p ∈ tset t n v) : p = (n, v) ∨ p ∈ t := by
  induction t with
  | nil => simpa [tset] using h
  | cons q r ih =>
    obtain ⟨k, w⟩ := q
    simp only [tset] at h
    split at h
    · rcases List.mem_cons.mp h with h | h
      · exact .inl h
      · exact .inr (List.mem_cons_of_mem _ h)
    · rcases List.mem_cons.mp h with h | h
      · exact .inr (h ▸ List.mem_cons_self ..)
      · rcases ih h with h | h
        · exact .inl h
        · exact .inr (List.mem_cons_of_mem _ h)

theorem nodup_tdel {α : Type} {t : Tbl α} (h : (t.map Prod.fst).Nodup) (n : Nat) : ((tdel t n).map Prod.fst).Nodup :=
  h.sublist (List.filter_sublist.map _)

theorem tfind_mem {α : Type} {t : Tbl α} {n : Nat} {v : α} (h : tfind t n = some v) : (n, v) ∈ t := by
  induction t with
  | nil => simp [tfind] at h
  | cons q r ih =>
    obtain ⟨k, w⟩ := q
    simp only [tfind] at h
    split at h
    · rename_i e
      cases h; subst e
      exact List.mem_cons_self ..
    · exact List.mem_cons_of_mem _ (ih h)

/-! ### States -/

/-- An operation that changes neither memory nor groups nor cores. -/
theorem sound_same {s t : State} (h : Sound s) (hm : t.mem = s.mem) (hg : t.groups = s.groups) (hc : t.cores = s.cores) :
    Sound t :=
  ⟨hm ▸ h.mem, hg ▸ h.groups, hc ▸ h.cores, hc ▸ h.store⟩

theorem sound_foldl {α : Type} {f : State → α → State} (hf : ∀ s a, Sound s → Sound (f s a)) (l : List α) {s : State}
    (h : Sound s) : Sound (l.foldl f s) := by
  induction l generalizing s with
  | nil => exact h
  | cons a r ih => exact ih (hf s a h)

theorem sound_setGroup {s : State} (h : Sound s) (c f : Nat) (g : Group) : Sound (s.setGroup c f g) :=
  ⟨h.mem, nodup_tset h.groups _ _, h.cores, h.store⟩

theorem sound_modGroup {s : State} (h : Sound s) (c f : Nat) (m : Group → Group) : Sound (s.modGroup c f m) := by
  unfold State.modGroup
  split
  · exact sound_setGroup h ..
  · exact h

theorem sound_delGroup {s : State} (h : Sound s) (c f : Nat) : Sound (s.delGroup c f) :=
  ⟨h.mem, nodup_tdel h.groups _, h.cores, h.store⟩

/-- Every group changed in its place. -/
theorem sound_mapGroups {s t : State} (h : Sound s) (m : Nat × Group → Group)
    (hg : t.groups = s.groups.map (fun p => (p.1, m p))) (hm : t.mem = s.mem) (hc : t.cores = s.cores) : Sound t := by
  refine ⟨hm ▸ h.mem, ?_, hc ▸ h.cores, hc ▸ h.store⟩
  rw [hg, List.map_map]
  exact h.groups

theorem sound_core {s : State} (h : Sound s) (c : Nat) : (s.core c).lmem.wf := by
  unfold State.core tget
  cases e : tfind s.cores c with
  | none => exact ⟨List.Pairwise.nil, fun _ hc => absurd hc (List.not_mem_nil)⟩
  | some k => exact h.store _ (tfind_mem e)

theorem sound_setCore {s : State} (h : Sound s) (c : Nat) (x : Core) (hx : x.lmem.wf) : Sound (s.setCore c x) := by
  refine ⟨h.mem, h.groups, nodup_tset h.cores _ _, ?_⟩
  intro p hp
  rcases mem_tset hp with rfl | hp
  · exact hx
  · exact h.store p hp

/-- A core changed in anything but its store. -/
theorem sound_modCore {s : State} (h : Sound s) (c : Nat) (m : Core → Core) (hm : (m (s.core c)).lmem = (s.core c).lmem) :
    Sound (s.modCore c m) :=
  sound_setCore h c _ (hm ▸ sound_core h c)

theorem sound_putMem {s : State} (h : Sound s) (pa : Nat) (bs : List Byte) : Sound (s.putMem pa bs) :=
  ⟨Memory.put_wf _ _ h.mem, h.groups, h.cores, h.store⟩

theorem sound_touchLines {s : State} (h : Sound s) (ls : List Nat) : Sound (s.touchLines ls) :=
  sound_mapGroups h _ rfl rfl rfl

theorem sound_perform {s : State} (h : Sound s) (pa : Nat) (bs : List Byte) : Sound (s.perform pa bs) :=
  sound_touchLines (sound_putMem h pa bs) _

theorem sound_performFrom {s : State} (h : Sound s) (c pa : Nat) (bs : List Byte) : Sound (s.performFrom c pa bs) :=
  sound_modCore (sound_perform h pa bs) c _ rfl

theorem sound_writeLocal {s : State} (h : Sound s) (c pos : Nat) (bs : List Byte) : Sound (s.writeLocal c pos bs) :=
  sound_setCore h c _ (Memory.write_wf _ _ _ (sound_core h c))

/-! ### What leaves every part alone -/

theorem sound_emit {s : State} (h : Sound s) (o : Out) : Sound (s.emit o) := sound_same h rfl rfl rfl

theorem sound_draw {s : State} (h : Sound s) : Sound s.draw.2 := sound_same h rfl rfl rfl

theorem sound_newId {s : State} (h : Sound s) : Sound s.newId.2 := sound_same h rfl rfl rfl

theorem sound_count {s : State} (h : Sound s) (u w n : Nat) : Sound (s.count u w n) := sound_same h rfl rfl rfl

theorem sound_setCluster {s : State} (h : Sound s) (c : Nat) (x : Cluster) : Sound (s.setCluster c x) :=
  sound_same h rfl rfl rfl

theorem sound_setQueue {s : State} (h : Sound s) (q : Nat) (x : Queue) : Sound (s.setQueue q x) := sound_same h rfl rfl rfl

theorem sound_modDie {s : State} (h : Sound s) (d : Nat) (m : Die → Die) : Sound (s.modDie d m) := sound_same h rfl rfl rfl

theorem sound_modPort {s : State} (h : Sound s) (p : Nat) (m : Port → Port) : Sound (s.modPort p m) := sound_same h rfl rfl rfl

theorem sound_setCrew {s : State} (h : Sound s) (c : Nat) (x : Crew) : Sound (s.setCrew c x) := sound_same h rfl rfl rfl

theorem sound_modCrew {s : State} (h : Sound s) (c : Nat) (m : Crew → Crew) : Sound (s.modCrew c m) := by
  unfold State.modCrew
  split
  · exact sound_setCrew h ..
  · exact h

theorem sound_modLaunch {s : State} (h : Sound s) (l : Nat) (m : Launch → Launch) : Sound (s.modLaunch l m) := by
  unfold State.modLaunch
  split
  · exact sound_same h rfl rfl rfl
  · exact h

theorem sound_modCohort {s : State} (h : Sound s) (c : Nat) (m : Cohort → Cohort) : Sound (s.modCohort c m) := by
  unfold State.modCohort
  split
  · exact sound_same h rfl rfl rfl
  · exact h

end Sys2Proof.Machine
end

