-- ==== Sys2Proof/Laws/Values.lean ====
section
/-! SUPPORT. Lane values as words: what a bound check sees of them, and that the affine results of R44 go in steps of one
stride. -/

namespace Sys2Proof.Machine

open Sys2Proof.Safety

theorem lo32_single (w : Word) : lo32 (w.zeroExtend 64) = w := by
  unfold lo32; exact BitVec.eq_of_toNat_eq (by simp)

theorem lo32_ofNat (n : Nat) : lo32 (BitVec.ofNat 64 n) = BitVec.ofNat 32 n := by
  unfold lo32
  apply BitVec.eq_of_toNat_eq
  simp only [BitVec.truncate_eq_setWidth, BitVec.toNat_setWidth, BitVec.toNat_ofNat]
  omega

theorem part_of_low {x y : Nat} (h : x % 2 ^ 32 = y % 2 ^ 32) {p w : Nat} (hp : p + w ≤ 32) :
    x / 2 ^ p % 2 ^ w = y / 2 ^ p % 2 ^ w := by
  have e : ∀ z : Nat, z / 2 ^ p % 2 ^ w = z % 2 ^ 32 / 2 ^ p % 2 ^ w := by
    intro z
    obtain ⟨k, hk⟩ : ∃ k, 32 = p + (w + k) := ⟨32 - p - w, by omega⟩
    rw [hk, Nat.pow_add, Nat.mod_mul_right_div_self, Nat.pow_add, Nat.mod_mul_right_mod]
  rw [e x, e y, h]

/-- A bound check of a single register sees the low 32 bits. -/
theorem outCount_low {b : Bound} {f : Fmt} (hf : f.isWide = false) {x y : Word64} (h : lo32 x = lo32 y) :
    outCount b f x.toNat = outCount b f y.toNat := by
  have hm : x.toNat % 2 ^ 32 = y.toNat % 2 ^ 32 := by
    have := congrArg BitVec.toNat h
    simpa [lo32] using this
  have hp : ∀ p ∈ (elemsIn false f).1, p + (elemsIn false f).2.1 ≤ 32 := by cases f <;> simp_all [elemsIn, elemsOf, Fmt.isWide]
  unfold outCount
  generalize elemsIn false f = e at hp ⊢
  obtain ⟨ps, w, k⟩ := e
  dsimp only at hp ⊢
  congr 1
  refine List.filter_congr (fun p hm' => ?_)
  rw [part_of_low hm (hp p hm')]

theorem inBounds_low {bounds : List (Nat × Bound)} {ix : Nat} {code : Fmt} {m : Mask} {v w : Nat → Word64}
    (hf : code.isWide = false) (h : ∀ l, lo32 (v l) = lo32 (w l)) (hv : InBounds bounds ix code m v) :
    InBounds bounds ix code m w :=
  ⟨hv.1, fun b hb l hl hm => by rw [← outCount_low hf (h l)]; exact hv.2 b hb l hl hm⟩

/-! ### Affine results (R44) -/

theorem isCompact_step {s : Shape} (h : s.isCompact = true) : ∃ b st, ∀ l, s.lane l = b + BitVec.ofNat 32 l * st := by
  cases s with
  | uniform u => exact ⟨u, 0, fun l => by simp [Shape.lane]⟩
  | affine b st => exact ⟨b, st, fun l => rfl⟩
  | general v => simp [Shape.isCompact] at h

/-- Values in steps of one stride. -/
def Steps (v : Nat → Word) : Prop := ∃ b st, ∀ l, v l = b + BitVec.ofNat 32 l * st

theorem Steps.fits {v : Nat → Word} (h : Steps v) (l : Nat) : v l = v 0 + BitVec.ofNat 32 l * (v 1 - v 0) := by
  obtain ⟨b, st, e⟩ := h
  have e0 : v 0 = b := by rw [e 0]; simp
  have e1 : v 1 = b + st := by rw [e 1]; simp
  have hs : b + st - b = st := by rw [BitVec.add_comm, BitVec.add_sub_cancel]
  rw [e0, e1, hs]; exact e l

theorem Steps.add {v w : Nat → Word} (hv : Steps v) (hw : Steps w) : Steps (fun l => v l + w l) := by
  obtain ⟨b, st, e⟩ := hv
  obtain ⟨b', st', e'⟩ := hw
  refine ⟨b + b', st + st', fun l => ?_⟩
  dsimp only
  rw [e, e', BitVec.mul_add]
  ac_rfl

theorem Steps.mul_const {v : Nat → Word} (hv : Steps v) (k : Word) : Steps (fun l => v l * k) := by
  obtain ⟨b, st, e⟩ := hv
  refine ⟨b * k, st * k, fun l => ?_⟩
  dsimp only
  rw [e, BitVec.mul_comm, BitVec.mul_add, ← BitVec.mul_assoc, BitVec.mul_comm k b, BitVec.mul_comm k, BitVec.mul_assoc,
    BitVec.mul_comm k st]

theorem Steps.congr {v w : Nat → Word} (h : ∀ l, v l = w l) (hv : Steps v) : Steps w := by
  obtain ⟨b, st, e⟩ := hv
  exact ⟨b, st, fun l => by rw [← h l]; exact e l⟩

theorem lane_steps {c : Ctx} {v : Nat} (h : (c.reg v).shape.isCompact = true) : Steps (fun l => c.lane v l) :=
  isCompact_step h

theorem resultKind_addSub {l : List Shape} (h : resultKind .addSub l = .aff) : ∀ s ∈ l, s.isCompact = true := by
  unfold resultKind at h
  split at h
  · cases h
  · split at h <;> simp_all

theorem resultKind_mul2 {a b : Shape} (h : resultKind .mul [a, b] = .aff) :
    a.isCompact = true ∧ b.isCompact = true ∧ (a.isUniform = true ∨ b.isUniform = true) := by
  unfold resultKind at h
  split at h
  · cases h
  · cases e : a.isUniform <;> simp_all

theorem resultKind_mul1 {a : Shape} (h : resultKind .mul [a] = .aff) : a.isCompact = true := by
  unfold resultKind at h
  split at h
  · cases h
  · simp_all

theorem resultKind_shl2 {a b : Shape} (h : resultKind .shl [a, b] = .aff) : a.isCompact = true ∧ b.isUniform = true := by
  unfold resultKind at h
  split at h
  · cases h
  · simp_all

theorem resultKind_shl1 {a : Shape} (h : resultKind .shl [a] = .aff) : a.isCompact = true := by
  unfold resultKind at h
  split at h
  · cases h
  · simp_all

end Sys2Proof.Machine
end

