-- ==== Sys2Proof/Tests/Slice0.lean ====
section
/-! SUPPORT. Tests: a witness for every obligation that has hypotheses (a state and operands that meet them), the words of
every instruction packed from the formats of the spec, words that are no instruction, an ill-formed term for each check of
`Instr.wf`, and the spec's worked examples. -/

namespace Sys2Proof.Tests

open Sys2Proof.Machine Sys2Proof.Safety

set_option Elab.async false

/-- The issue of a gang of all slices and lanes at the first instruction word of the loaded launch. -/
def cu : Cur := ⟨0, 0, [0, 1, 2, 3, 4, 5, 6, 7], 0xFFFFFFFF, 0x10200, 0, false⟩

/-- A group of 32 lanes at its launch. -/
def gr : Group := freshGroup (loadLaunch 0) 0 0 0 0 0

/-- A machine in which that group stands on core 0 with a full bucket, and issues. -/
def box (g : Group) : State := { (State.reset.loadWord 0).setGroup 0 0 g with agenda := [], cur := some cu }

/-- What `Issues` asks of a word, as one check. -/
def canIssue (s : State) (c : Cur) (g : Group) (i : Instr) (d : Desc) (price : Nat) : Bool :=
  let x := s.issOf c g
  i.wf && s.implements i && (x.hints.wide.isNone || d.wideOk) && (!x.hints.mext || d.ms.isSome) && (!c.xir || d.inXir) &&
  (g.tx.isNone || d.inTx) && (d.srcs ++ d.dsts).all (fun v => v < g.ctx.need) &&
  d.chuck.all (fun k => k < x.chuckCount) && (d.srcs ++ d.dsts).all (fun v => !(pendingRegs g).contains v) &&
  !boundPending g (s.boundsOf g) && d.srcs.all (fun v => (g.ctx.reg v).poison == 0) &&
  (!d.noHints || x.hints == .none) && (s.holder c.core).isNone &&
  decide (price ≤ s.power.cap) && decide (price ≤ (s.core c.core).level)

theorem issues_of {s : State} {c : Cur} {g : Group} {i : Instr} {d : Desc} {price : Nat} (hc : s.cur = some c)
    (hg : s.group c.core c.frame = some g) (h : canIssue s c g i d price = true) : Issues s c g i d price := by
  simp only [canIssue, Bool.and_eq_true, Bool.or_eq_true, Bool.not_eq_true', List.all_eq_true, decide_eq_true_eq,
    Option.all_eq_true, beq_iff_eq, Option.isNone_iff_eq_none] at h
  obtain ⟨⟨⟨⟨⟨⟨⟨⟨⟨⟨⟨⟨⟨⟨h1, h2⟩, h3⟩, h4⟩, h5⟩, h6⟩, h7⟩, h8⟩, h9⟩, h10⟩, h11⟩, h14⟩, h15⟩, h12⟩, h13⟩ := h
  exact
    { cur := hc, group := hg, form := h1, feature := h2, wide := fun e => h3.resolve_left e
      mext := fun e => by rcases h4 with k | k
                          · rw [e] at k; exact absurd k (by decide)
                          · exact fun n => by rw [n] at k; exact absurd k (by decide)
      lane := fun e => h5.resolve_left (by rw [e]; decide)
      attempt := fun e => h6.resolve_left e
      need := h7, chuck := fun k e => h8 k e
      ready := fun v hv e => by have := h9 v hv; simp [e] at this
      noHint := fun e => h14.resolve_left (by rw [e]; decide), hold := fun f e => by rw [h15] at e; cases e
      bound := h10, clean := h11, pay := fun q hq => by simp only [State.canPay, if_pos (Nat.le_trans hq h12), decide_eq_true_eq]; omega }

/-- A result without a bound is in bounds. -/
theorem inBounds_none {bs : List (Nat × Bound)} {ix : Nat} {code : Fmt} {m : Mask} {val : Nat → Word64} {p : Bool}
    (h : boundOk bs ix code = true) (hb : boundOf bs ix = none) : InBounds bs ix code m val p :=
  ⟨h, fun b e => by rw [hb] at e; cases e⟩


/-- Every register of a group set to one value and code. -/
def regs (f : Fmt) (w : Word) (g : Group) : Group :=
  { g with ctx := { g.ctx with regs := List.replicate 64 ⟨.uniform w, f, 0, 0⟩ } }

/-- A group whose registers hold 1.0 of code f32. -/
def grF : Group := regs .f32 0x3F800000 gr

/-! ### Integer, mask and float words -/

theorem witness_IntegerResults_binary (h : Obligations.IntegerResults) :
    ∃ t, exec (.iadd 63 63 62 3) (box gr) = .next t :=
  let ⟨t, _, e, _⟩ := h.1 (.iadd 63 63 62 3) _ rfl (box gr) cu gr (issues_of rfl rfl (by decide)) (by decide) (by decide)
    (inBounds_none (by decide) (by decide))
  ⟨t, e⟩

theorem witness_IntegerResults_unary (h : Obligations.IntegerResults) :
    ∃ t, exec (.bfeSImm 63 63 0 32 31) (box gr) = .next t :=
  let ⟨t, _, e, _⟩ := h.2.1 (.bfeSImm 63 63 0 32 31) _ rfl (box gr) cu gr (issues_of rfl rfl (by decide)) (by decide)
    (inBounds_none (by decide) (by decide))
  ⟨t, e⟩

theorem witness_IntegerResults_immediate (h : Obligations.IntegerResults) :
    ∃ t, exec (.mov 63 3 4095) (box gr) = .next t :=
  let ⟨t, _, e, _⟩ := h.2.2.1 (.mov 63 3 4095) _ rfl (box gr) cu gr (issues_of rfl rfl (by decide)) (fun _ e => by cases e)
    (inBounds_none (by decide) (by decide))
  ⟨t, e⟩

theorem witness_IntegerResults_imad (h : Obligations.IntegerResults) :
    ∃ t, exec (.imad 63 62 61 60 3) (box gr) = .next t :=
  let ⟨t, _, e, _⟩ := h.2.2.2.1 63 62 61 60 3 (box gr) cu gr (issues_of rfl rfl (by decide)) (by decide) (by decide) (by decide)
    (inBounds_none (by decide) (by decide))
  ⟨t, e⟩

theorem witness_IntegerResults_bfi (h : Obligations.IntegerResults) :
    ∃ t, exec (.bfi 63 62 3 32 31) (box gr) = .next t :=
  let ⟨t, _, e, _⟩ := h.2.2.2.2.1 63 62 3 32 31 (box gr) cu gr (issues_of rfl rfl (by decide)) (by decide) (by decide)
    (inBounds_none (by decide) (by decide))
  ⟨t, e⟩

/-- What a trap asks of its group, as one check. -/
theorem mayTrap_of {s : State} {core frame : Nat} {g : Group} {w : Launch} (hl : s.launchOf g = some w)
    (h : (!g.inHandler && g.tx.isNone && !s.passRuns core frame && (s.earlyOps core).isEmpty && decide (g.ctx.need ≤ 64)) = true) :
    Spec.MayTrap s core frame g w := by
  simp only [Bool.and_eq_true, Bool.not_eq_true', decide_eq_true_eq, Option.isNone_iff_eq_none, List.isEmpty_iff] at h
  exact ⟨h.1.1.1.1, h.1.1.1.2, h.1.1.2, h.1.2, hl, h.2⟩

/-- The loaded launch with bound 1 on n32 results, 0 to 5, of a mode; a group whose registers hold 3 under it. -/
def bounding (m : BoundMode) (s : State) : State :=
  { s with launches := tset s.launches 0 { loadLaunch 0 with bounds := [(1, ⟨.n32, m, 0, 5⟩)] } }
def grB : Group := { gr with ctx := { gr.ctx with regs := List.replicate 64 ⟨.uniform 3, .n32, 1, 0⟩ } }

theorem witness_IntegerResults_bounds (h : Obligations.IntegerResults) :
    (∃ t, exec (.iadd 63 62 61 0) (bounding .flag (box grB)) = .next t) ∧
    (∃ t, exec (.iadd 63 62 61 0) (bounding .clamp (box grB)) = .next t) ∧
    ∃ t, exec (.iadd 63 62 61 0) (bounding .trap (box grB)) = .next t :=
  let ⟨t, _, e, _⟩ := (h.2.2.2.2.2 (.iadd 63 62 61 0) _ rfl (bounding .flag (box grB)) cu grB ⟨.n32, .flag, 0, 5⟩
    (issues_of rfl rfl (by decide)) (by decide) (by decide) rfl rfl (.inr rfl)).1 (by decide)
  let ⟨u, _, f, _⟩ := (h.2.2.2.2.2 (.iadd 63 62 61 0) _ rfl (bounding .clamp (box grB)) cu grB ⟨.n32, .clamp, 0, 5⟩
    (issues_of rfl rfl (by decide)) (by decide) (by decide) rfl rfl (.inr rfl)).1 (by decide)
  let ⟨v, k, _⟩ := (h.2.2.2.2.2 (.iadd 63 62 61 0) _ rfl (bounding .trap (box grB)) cu grB ⟨.n32, .trap, 0, 5⟩
    (issues_of rfl rfl (by decide)) (by decide) (by decide) rfl rfl (.inr rfl)).2 rfl (by decide) _
    (mayTrap_of rfl (by decide))
  ⟨⟨t, e⟩, ⟨u, f⟩, v, k⟩

theorem witness_IntegerPairResults_wide (h : Obligations.IntegerPairResults) :
    ∃ t, exec (.iadd64 62 62 60 3) (box gr) = .next t :=
  let ⟨t, _, e, _⟩ := h.1 (.iadd64 62 62 60 3) _ rfl (box gr) cu gr (issues_of rfl rfl (by decide)) (by decide) (by decide)
    (inBounds_none (by decide) (by decide))
  ⟨t, e⟩

theorem witness_IntegerPairResults_counts (h : Obligations.IntegerPairResults) :
    (∃ t, exec (.popc64 63 62 3) (box gr) = .next t) ∧ ∃ t, exec (.clz64 63 62 3) (box gr) = .next t :=
  let k := h.2 63 62 3 (box gr) cu gr (by decide)
  let ⟨t, _, e, _⟩ := k.1 (issues_of rfl rfl (by decide)) (inBounds_none (by decide) (by decide))
  let ⟨u, _, f, _⟩ := k.2 (issues_of rfl rfl (by decide)) (inBounds_none (by decide) (by decide))
  ⟨⟨t, e⟩, u, f⟩

theorem witness_Comparisons (h : Obligations.Comparisons) :
    (∃ t, exec (.icmp 7 62 60 .s64 .ge) (box gr) = .next t) ∧ ∃ t, exec (.fcmp 7 63 62 .f32 .ord) (box grF) = .next t :=
  let ⟨t, _, e, _⟩ := h.1 7 62 60 .s64 .ge (box gr) cu gr (issues_of rfl rfl (by decide)) (by decide) (by decide)
  let ⟨u, _, f, _⟩ := h.2 7 63 62 .f32 .ord (box grF) cu grF (issues_of rfl rfl (by decide)) (by decide) (by decide)
  ⟨⟨t, e⟩, u, f⟩

theorem witness_MaskWords (h : Obligations.MaskWords) :
    (∃ t, exec (.mandn 7 7 0) (box gr) = .next t) ∧ (∃ t, exec (.vtom 7 63) (box gr) = .next t) ∧
    (∃ t, exec (.ballot 7 63) (box gr) = .next t) ∧ ∃ t, exec (.mfirst 63 7) (box gr) = .next t :=
  let ⟨t, _, e, _⟩ := h.1 (.mandn 7 7 0) 7 _ rfl (box gr) cu gr (issues_of rfl rfl (by decide))
  let ⟨u, _, f, _⟩ := h.2.1 7 63 (box gr) cu gr (issues_of rfl rfl (by decide)) (by decide)
  let ⟨v, _, k, _⟩ := h.2.2.1 7 63 (box gr) cu gr (issues_of rfl rfl (by decide)) (by decide)
  let ⟨w, _, n, _⟩ := h.2.2.2 (.mfirst 63 7) 63 _ rfl (box gr) cu gr (issues_of rfl rfl (by decide))
    (inBounds_none (by decide) (by decide))
  ⟨⟨t, e⟩, ⟨u, f⟩, ⟨v, k⟩, w, n⟩

theorem witness_Selection (h : Obligations.Selection) : ∃ t, exec (.sel 63 62 61 7 3) (box grF) = .next t :=
  let ⟨t, _, e, _⟩ := h 63 62 61 7 3 (box grF) cu grF (issues_of rfl rfl (by decide)) (by decide) (by decide)
    (fun l hl => by revert hl; exact id) (inBounds_none (by decide) (by decide))
  ⟨t, e⟩

theorem witness_FloatBinaryResults (h : Obligations.FloatBinaryResults) :
    ∃ t, exec (.fdiv 63 62 61 3 .f32) (box grF) = .next t :=
  let ⟨t, _, e, _⟩ := h (.fdiv 63 62 61 3 .f32) _ rfl (box grF) cu grF (issues_of rfl rfl (by decide)) (by decide) (by decide)
    (inBounds_none (by decide) (by decide))
  ⟨t, e⟩

theorem witness_FloatUnaryResults (h : Obligations.FloatUnaryResults) :
    ∃ t, exec (.fsqrt 63 62 3 .f32) (box grF) = .next t :=
  let ⟨t, _, e, _⟩ := h (.fsqrt 63 62 3 .f32) _ rfl (box grF) cu grF (issues_of rfl rfl (by decide)) (by decide)
    (inBounds_none (by decide) (by decide))
  ⟨t, e⟩

theorem witness_FusedMultiplyAdd (h : Obligations.FusedMultiplyAdd) :
    ∃ t, exec (.ffmaF32 63 62 61 60 3) (box grF) = .next t :=
  let ⟨t, _, e, _⟩ := h (.ffmaF32 63 62 61 60 3) 63 62 61 60 3 .f32 rfl (box grF) cu grF (issues_of rfl rfl (by decide))
    (by decide) (by decide) (by decide) (inBounds_none (by decide) (by decide))
  ⟨t, e⟩

theorem witness_Conversions (h : Obligations.Conversions) :
    (∃ t, exec (.cvt 63 62 .f32 3 true .ta6) (box grF) = .next t) ∧
    (∃ t, exec (.cvt 63 62 .f32 3 true .f16x2) (box grF) = .next t) ∧
    ∃ t, exec (.cvtBlk 62 61 .f32 3 true .ta8) (box grF) = .next t :=
  let ⟨t, _, e, _⟩ := h.1 63 62 .f32 3 true .ta6 (box grF) cu grF (issues_of rfl rfl (by decide)) (by decide)
    (inBounds_none (by decide) (by decide))
  let ⟨u, _, f, _⟩ := h.1 63 62 .f32 3 true .f16x2 (box grF) cu grF (issues_of rfl rfl (by decide)) (by decide)
    (inBounds_none (by decide) (by decide))
  let ⟨v, _, k, _⟩ := h.2 62 61 .f32 3 true .ta8 (box grF) cu grF (issues_of rfl rfl (by decide)) (by decide)
    (inBounds_none (by decide) (by decide))
  ⟨⟨t, e⟩, ⟨u, f⟩, v, k⟩

theorem witness_TagCopies (h : Obligations.TagCopies) : ∃ t, exec (.tag 62 60 3 0 .n64) (box gr) = .next t :=
  let ⟨t, _, e, _⟩ := h 62 60 3 0 .n64 (box gr) cu gr (issues_of rfl rfl (by decide)) (inBounds_none (by decide) (by decide))
  ⟨t, e⟩

theorem witness_LaneExchange (h : Obligations.LaneExchange) :
    (∃ t, exec (.bcast 63 62 61 3) (box gr) = .next t) ∧ (∃ t, exec (.xchg 63 62 61 3) (box gr) = .next t) ∧
    ∃ t, exec (.shfl 63 62 61 60 3) (box gr) = .next t :=
  let ⟨t, _, e, _⟩ := h.1 63 62 61 3 (box gr) cu gr 0 (issues_of rfl rfl (by decide)) (by decide) (by decide) (by decide)
    (fun l hl => absurd hl (Nat.not_lt_zero l)) (inBounds_none (by decide) (by decide))
  let ⟨u, _, f, _⟩ := h.2.1 63 62 61 3 (box gr) cu gr (issues_of rfl rfl (by decide)) (by decide) (by decide)
    (inBounds_none (by decide) (by decide))
  let ⟨v, _, k, _⟩ := h.2.2 63 62 61 60 3 (box gr) cu gr (issues_of rfl rfl (by decide)) (by decide) (by decide) (by decide)
    (inBounds_none (by decide) (by decide))
  ⟨⟨t, e⟩, ⟨u, f⟩, v, k⟩

theorem witness_Scans (h : Obligations.Scans) :
    (∃ t, exec (.scan 63 62 3 .addF32) (box grF) = .next t) ∧ ∃ t, exec (.scanx 63 62 3 .minS32) (box gr) = .next t :=
  let ⟨t, _, e, _⟩ := h false 63 62 3 .addF32 (box grF) cu grF (issues_of rfl rfl (by decide)) (by decide)
    (inBounds_none (by decide) (by decide))
  let ⟨u, _, f, _⟩ := h true 63 62 3 .minS32 (box gr) cu gr (issues_of rfl rfl (by decide)) (by decide)
    (inBounds_none (by decide) (by decide))
  ⟨⟨t, e⟩, u, f⟩

/-! ### Control flow -/

theorem fits_of {sl : List Slice} {ms : List Nat} {f : Nat → Slice → Slice}
    (h : ms.all (fun i => (sl[i]?).all (fun x => decide ((f i x).stack.length ≤ 16))) = true) : Spec.Fits sl ms f :=
  fun i hi x e => by simpa [e] using List.all_eq_true.1 h i hi

/-- A control transfer that overflows no stack, outside an attempt and in one. -/
theorem goes_of {c : Cur} {g : Group} {f k : Nat → Slice → Slice}
    (h : c.slices.all (fun i => (g.ctx.slices[i]?).all (fun x =>
      decide ((if g.tx.isNone then f i x else k i x).stack.length ≤ 16))) = true) : Spec.Goes c g f k := by
  refine ⟨fun e => fits_of ?_, fun e => fits_of ?_⟩
  · simpa [e] using h
  · simpa [Option.isNone_iff_eq_none, e] using h

/-- Mask register 1 set. -/
def masked (m : Mask) (g : Group) : Group := { g with ctx := { g.ctx with masks := lset g.ctx.masks 0 m } }

/-- An attempt of all lanes that began at the first word, with one alternative. -/
def tx0 : Tx :=
  { lanes := 0xFFFFFFFF, depths := List.replicate 8 0, lfail := 0x10200, pc := 0x10200, stamp := 5, restarts := 255,
    reads := [0xA400008], gen := some (0, 0x10300), layers := [⟨0x10204, 0xFFFFFFFF, List.replicate 8 0, [⟨0x290000300, 7⟩]⟩, ⟨0, 0xFFFFFFFF, List.replicate 8 0, []⟩] }
def inTx (x : Tx) (g : Group) : Group := { g with tx := some x }

theorem witness_BranchAndCall (h : Obligations.BranchAndCall) :
    (∃ t, exec (.br .t 1 0x7FFFF) (box (masked 0x3 gr)) = .next t) ∧
    (∃ t, exec (.br .any 1 0x3FF80) (box (masked 0 gr)) = .next t) ∧
    (∃ t, exec (.br .t 1 0x7FFFF) (box (masked 0x3 (inTx tx0 gr))) = .next t) ∧
    (∃ t, exec (.call .f 1 0x7FFFF) (box (masked 0xFFFF0000 gr)) = .next t) ∧
    ∃ t, exec (.call .none 1 0x40000) (box (masked 1 (inTx tx0 gr))) = .next t :=
  let ⟨t, _, e, _⟩ := h.1 .t 1 0x7FFFF (box (masked 0x3 gr)) cu (masked 0x3 gr) (issues_of rfl rfl (by decide))
    ⟨by decide, by decide⟩ (goes_of (by decide))
  let ⟨t2, _, e2, _⟩ := h.1 .any 1 0x3FF80 (box (masked 0 gr)) cu (masked 0 gr) (issues_of rfl rfl (by decide))
    ⟨by decide, by decide⟩ (goes_of (by decide))
  let ⟨t3, _, e3, _⟩ := h.1 .t 1 0x7FFFF (box (masked 0x3 (inTx tx0 gr))) cu (masked 0x3 (inTx tx0 gr))
    (issues_of rfl rfl (by decide)) ⟨by decide, by decide⟩ (goes_of (by decide))
  let ⟨t4, _, e4, _⟩ := h.2 .f 1 0x7FFFF (box (masked 0xFFFF0000 gr)) cu (masked 0xFFFF0000 gr) (issues_of rfl rfl (by decide))
    ⟨by decide, by decide⟩ (fun _ => inBounds_none (by decide) (by decide)) (goes_of (by decide))
  let ⟨t5, _, e5, _⟩ := h.2 .none 1 0x40000 (box (masked 1 (inTx tx0 gr))) cu (masked 1 (inTx tx0 gr))
    (issues_of rfl rfl (by decide)) ⟨by decide, by decide⟩ (fun _ => inBounds_none (by decide) (by decide)) (goes_of (by decide))
  ⟨⟨t, e⟩, ⟨t2, e2⟩, ⟨t3, e3⟩, ⟨t4, e4⟩, t5, e5⟩

/-- An entry of a divergence stack, on every slice of a group. -/
def deep (g : Group) : Group :=
  { g with ctx := { g.ctx with slices := g.ctx.slices.map (fun x => { x with stack := [.merge 15 none] }) } }

theorem witness_JoinWord (h : Obligations.JoinWord) :
    (∃ t, exec .join (box gr) = .next t) ∧ (∃ t, exec .join (box (inTx tx0 (deep gr))) = .next t) ∧
    ∃ t, exec .join (box (inTx { tx0 with depths := List.replicate 8 1 } (deep gr))) = .next t :=
  let ⟨t, _, e, _⟩ := (h (box gr) cu gr (issues_of rfl rfl (by decide))).1 rfl
  let ⟨u, _, f, _⟩ := ((h (box (inTx tx0 (deep gr))) cu (inTx tx0 (deep gr)) (issues_of rfl rfl (by decide))).2 _ rfl).1
    (by rintro ⟨i, hi, y, hy, _, hs⟩
        have k : ∀ i ∈ cu.slices, ((deep gr).ctx.slices[i]?).all (fun y =>
          decide (¬ y.stack.length ≤ tx0.depths.getD i 0)) = true := by decide
        have m := k i hi
        rw [show (deep gr).ctx.slices[i]? = some y from hy] at m
        exact absurd hs (by simpa using m))
  let ⟨v, k, _⟩ := ((h (box (inTx { tx0 with depths := List.replicate 8 1 } (deep gr))) cu
    (inTx { tx0 with depths := List.replicate 8 1 } (deep gr)) (issues_of rfl rfl (by decide))).2 _ rfl).2
    ⟨0, by decide, _, rfl, by decide, by decide⟩
  ⟨⟨t, e⟩, ⟨u, f⟩, v, k⟩

/-- Registers 4 and 5 name the first word in every lane. -/
def aimed (g : Group) : Group :=
  { g with ctx := (g.ctx.setReg 4 ⟨.uniform 0x10200, .n64, 0, 0⟩).setReg 5 ⟨.uniform 0, .n64, 0, 0⟩ }

theorem witness_IndirectTransfers (h : Obligations.IndirectTransfers) :
    (∃ t, exec (.jmp 4) (box (aimed gr)) = .next t) ∧ (∃ t, exec (.ret 4) (box (aimed gr)) = .next t) ∧
    ∃ t, exec (.calli 4 4) (box (aimed gr)) = .next t :=
  let ⟨t, _, e, _⟩ := h 4 none (.jmp 4) (box (aimed gr)) cu (aimed gr) (.inl ⟨rfl, .inl rfl⟩) (issues_of rfl rfl (by decide))
    (by decide) ⟨by decide, by decide⟩ (fun n => absurd rfl n) (goes_of (by decide))
  let ⟨u, _, f, _⟩ := h 4 none (.ret 4) (box (aimed gr)) cu (aimed gr) (.inl ⟨rfl, .inr rfl⟩) (issues_of rfl rfl (by decide))
    (by decide) ⟨by decide, by decide⟩ (fun n => absurd rfl n) (goes_of (by decide))
  let ⟨v, _, k, _⟩ := h 4 (some 4) (.calli 4 4) (box (aimed gr)) cu (aimed gr) (.inr ⟨4, rfl, rfl⟩) (issues_of rfl rfl (by decide))
    (by decide) ⟨by decide, by decide⟩ (fun _ => inBounds_none (by decide) (by decide)) (goes_of (by decide))
  ⟨⟨t, e⟩, ⟨u, f⟩, v, k⟩

theorem witness_GangWaits (h : Obligations.GangWaits) :
    (∃ t, exec (.regang 0) (box gr) = .next t) ∧ (∃ t, exec (.regang 255) (box gr) = .next t) ∧
    (∃ t, exec .barCrew (box gr) = .next t) ∧ ∃ t, exec .barCoh (box gr) = .next t :=
  let ⟨t, _, e, _⟩ := h.1 (box gr) cu gr (issues_of rfl rfl (by decide))
  let ⟨u, _, f, _⟩ := h.2.1 255 (box gr) cu gr (by decide) (issues_of rfl rfl (by decide)) rfl
  let ⟨v, _, k, _⟩ := h.2.2.1 (box gr) cu gr (issues_of rfl rfl (by decide)) rfl (by decide)
  let ⟨w, _, n, _⟩ := h.2.2.2 (box gr) cu gr (issues_of rfl rfl (by decide)) rfl (by decide) (by decide)
  ⟨⟨t, e⟩, ⟨u, f⟩, ⟨v, k⟩, w, n⟩

theorem witness_ExitWord (h : Obligations.ExitWord) : ∃ t, exec .exit (box gr) = .next t :=
  let ⟨t, _, e, _⟩ := h (box gr) cu gr (issues_of rfl rfl (by decide)) rfl
  ⟨t, e⟩

/-! ### Memory words -/

/-- A state with the loaded launch changed. -/
def withLaunch (f : Launch → Launch) (s : State) : State := { s with launches := tset s.launches 0 (f (loadLaunch 0)) }

/-- A state in which each crew has 2 KiB of local store. -/
def local2 (s : State) : State := withLaunch (fun l => { l with lbytes := 2048 }) s

/-- A translation cache that lacks nothing. -/
theorem cached_of {s : State} {core : Nat} {g : Group} {rs : List (Nat × Nat)} (h : (s.core core).missed = []) :
    Spec.Cached s core g rs := fun k hk => by rw [h] at hk; cases hk

/-- What a memory word asks of its addresses, as one check. -/
def canReach (s : State) (x : Iss) (f : MemForm) (caps : List (List Word)) (e : Mask) : Bool :=
  (s.core x.core).missed.isEmpty &&
  (List.range 32).all (fun l => !hasLane e l ||
    (!f.global || globalAddr f caps l % (f.size : Int) == 0 && decide (s.probeLane x f (globalAddr f caps l) = .ready)) &&
    (f.global || f.look || !decide (s.localAt x.g (localAddr f caps l) = .bad) && localAddr f caps l % f.size == 0 &&
      (!f.lock || localAddr f caps l / 2 ^ 21 % 2 == 0)))

theorem addressed_of {s : State} {x : Iss} {f : MemForm} {caps : List (List Word)} {e : Mask} (h : canReach s x f caps e = true) :
    Spec.Addressed s x f caps e := by
  simp only [canReach, Bool.and_eq_true, Bool.or_eq_true, Bool.not_eq_true', List.all_eq_true, decide_eq_true_eq,
    decide_eq_false_iff_not, beq_iff_eq, List.mem_range, List.isEmpty_iff] at h
  refine ⟨fun _ => cached_of h.1, fun l hl hm => ?_⟩
  have k := (h.2 l hl).resolve_left (by rw [hm]; decide)
  refine ⟨fun e => k.1.resolve_left (by rw [e]; decide), fun e e2 => ?_⟩
  have n := k.2.resolve_left (by rw [e, e2]; decide)
  exact ⟨n.1.1, n.1.2, fun e3 => n.2.resolve_left (by rw [e3]; decide)⟩

/-- What a memory word needs to enter its queue, as one check. -/
def canEnter (s : State) (c : Cur) (g : Group) (i : Instr) (f : MemForm) (ms : Option Nat) : Bool :=
  (!f.global || g.tx.isNone) && memCodesOk i f g.ctx && canReach s (s.issOf c g) f (capture g.ctx f) ((s.issOf c g).eff ms)

theorem enters {s : State} {c : Cur} {g : Group} {i : Instr} {f : MemForm} {ms : Option Nat}
    (h : canEnter s c g i f ms = true) : (f.global = true → g.tx = none) ∧ memCodesOk i f g.ctx = true ∧
      Spec.Addressed s (s.issOf c g) f (capture g.ctx f) ((s.issOf c g).eff ms) := by
  simp only [canEnter, Bool.and_eq_true, Bool.or_eq_true, Bool.not_eq_true', Option.isNone_iff_eq_none] at h
  exact ⟨fun e => h.1.1.resolve_left (by rw [e]; decide), h.1.2, addressed_of h.2⟩

theorem witness_MemoryWordsEnterTheQueue_load (h : Obligations.MemoryWordsEnterTheQueue) :
    ∃ t, exec (.ldG 62 4 0 .n64 (some .dev) 31) (box (aimed gr)) = .next t :=
  let ⟨a, b, d⟩ := enters (i := .ldG 62 4 0 .n64 (some .dev) 31) (s := box (aimed gr)) (c := cu) (ms := some 0) (by decide)
  let ⟨t, _, _, e, _⟩ := h (.ldG 62 4 0 .n64 (some .dev) 31) _ _ _ _ rfl rfl (box (aimed gr)) cu (aimed gr)
    (issues_of rfl rfl (by decide)) a b d (fun _ => by decide) (fun k => absurd k (by decide)) (fun k => absurd k (by decide))
    (by decide) (by decide) (fun _ k => absurd rfl k)
  ⟨t, e⟩

theorem witness_MemoryWordsEnterTheQueue_store (h : Obligations.MemoryWordsEnterTheQueue) :
    ∃ t, exec (.stG 63 4 0 .n8 none 32) (box (aimed gr)) = .next t :=
  let ⟨a, b, d⟩ := enters (i := .stG 63 4 0 .n8 none 32) (s := box (aimed gr)) (c := cu) (ms := some 0) (by decide)
  let ⟨t, _, _, e, _⟩ := h (.stG 63 4 0 .n8 none 32) _ _ _ _ rfl rfl (box (aimed gr)) cu (aimed gr)
    (issues_of rfl rfl (by decide)) a b d (fun k => absurd k (by decide)) (fun _ _ => inBounds_none (by decide) (by decide))
    (fun k => absurd k (by decide)) (by decide) (by decide) (fun k => absurd k (by decide))
  ⟨t, e⟩

theorem witness_MemoryWordsEnterTheQueue_lock (h : Obligations.MemoryWordsEnterTheQueue) :
    ∃ t, exec (.lkld 63 6 0 .f32 31) (local2 (box gr)) = .next t :=
  let ⟨a, b, d⟩ := enters (i := .lkld 63 6 0 .f32 31) (s := local2 (box gr)) (c := cu) (ms := some 0) (by decide)
  let ⟨t, _, _, e, _⟩ := h (.lkld 63 6 0 .f32 31) _ _ _ _ rfl rfl (local2 (box gr)) cu gr
    (issues_of rfl rfl (by decide)) a b d (fun _ => by decide) (fun k => absurd k (by decide))
    (fun _ _ => ⟨by decide, by decide⟩) (by decide) (by decide) (fun _ k => absurd rfl k)
  ⟨t, e⟩

theorem witness_MemoryWordsEnterTheQueue_atomic (h : Obligations.MemoryWordsEnterTheQueue) :
    (∃ t, exec (.atomCas 60 4 56 .sys .ar .n64) (box (aimed gr)) = .next t) ∧
    ∃ t, exec (.red .add 4 6 .dev .quan .s32) (box (aimed gr)) = .next t :=
  let ⟨a, b, d⟩ := enters (i := .atomCas 60 4 56 .sys .ar .n64) (s := box (aimed gr)) (c := cu) (ms := none) (by decide)
  let ⟨t, _, _, e, _⟩ := h (.atomCas 60 4 56 .sys .ar .n64) _ _ _ _ rfl rfl (box (aimed gr)) cu (aimed gr)
    (issues_of rfl rfl (by decide)) a b d (fun _ => by decide) (fun k => absurd k (by decide)) (fun k => absurd k (by decide))
    (by decide) (by decide) (fun _ _ => by unfold Spec.Direct; decide)
  let ⟨a, b, d⟩ := enters (i := .red .add 4 6 .dev .quan .s32) (s := box (aimed gr)) (c := cu) (ms := none) (by decide)
  let ⟨u, _, _, k, _⟩ := h (.red .add 4 6 .dev .quan .s32) _ _ _ _ rfl rfl (box (aimed gr)) cu (aimed gr)
    (issues_of rfl rfl (by decide)) a b d (fun k => absurd k (by decide)) (fun _ k => absurd k (by decide))
    (fun k => absurd k (by decide)) (by decide) (by decide) (fun k => absurd k (by decide))
  ⟨⟨t, e⟩, u, k⟩

/-- An operation in flight of lanes 0 and 31, numbered 0, with its operands as its group holds them. -/
def opOf (g : Group) (i : Instr) : MemOp :=
  { id := 0, ins := i, word := (encode i).getD 0, pc := 0x10200, lanes := 0x80000001, wmask := 0x80000001, hints := .none,
    caps := match memForm i with
      | some f => capture g.ctx f
      | none => [],
    outs := match memForm i with
      | some f => capture g.ctx f
      | none => [],
    gen := 0, early := false, spec := none, xir := none, again := false, quantum := 0, events := 0,
    snap := some g.ctx }

/-- A group whose only operation in flight is one word. -/
def flying (i : Instr) (g : Group) : Group := { g with ld := 1, st := 1, ops := [opOf g i] }

theorem witness_LoadsWriteBack (h : Obligations.LoadsWriteBack) :
    (∃ t, exec (.loadComplete 0 0 0) (box (flying (.ldG 62 4 0 .n64 (some .dev) 31) (aimed gr))) = .next t) ∧
    (∃ t, exec (.loadComplete 0 0 0) (local2 (box (flying (.lkld 63 6 0 .s32 31) gr))) = .next t) ∧
    (∃ t, exec (.loadComplete 0 0 0) (local2 (box (flying (.tlook 63 6 0) gr))) = .next t) ∧
    (box gr).viewBytes 0 gr 0x290000200 1 = [(box gr).mem.read 0x290000200] :=
  let ⟨t, _, e, _⟩ := h.1 (box (flying (.ldG 62 4 0 .n64 (some .dev) 31) (aimed gr))) 0 0 (flying (.ldG 62 4 0 .n64 (some .dev) 31) (aimed gr)) (opOf (aimed gr) (.ldG 62 4 0 .n64 (some .dev) 31)) _ rfl
    (by decide) rfl rfl (by decide)
    (by decide) (by decide) (inBounds_none (by decide) (by decide))
  let ⟨u, _, f, _⟩ := h.1 (local2 (box (flying (.lkld 63 6 0 .s32 31) gr))) 0 0 (flying (.lkld 63 6 0 .s32 31) gr) (opOf gr (.lkld 63 6 0 .s32 31)) _ rfl
    (by decide) rfl rfl (by decide)
    (by decide) (by decide) (inBounds_none (by decide) (by decide))
  let ⟨v, _, k, _⟩ := h.1 (local2 (box (flying (.tlook 63 6 0) gr))) 0 0 (flying (.tlook 63 6 0) gr) (opOf gr (.tlook 63 6 0)) _ rfl
    (by decide) rfl rfl (by decide)
    (by decide) (by decide) (inBounds_none (by decide) (by decide))
  ⟨⟨t, e⟩, ⟨u, f⟩, ⟨v, k⟩, h.2 (box gr) 0 gr 0x290000200 1 (fun _ e => by cases e; rfl) (by decide) (by decide)⟩

theorem witness_StoresPerformed (h : Obligations.StoresPerformed) :
    (∃ t, exec (.storeAccept 0 0 0) (box (flying (.stG 63 4 0 .n32 (some .sys) 63) (aimed gr))) = .next t) ∧
    ∃ t, exec (.storeAccept 0 0 0) (local2 (box (flying (.stul 63 6 0 .n32 31) gr))) = .next t :=
  let ⟨t, _, e, _⟩ := h.1 (box (flying (.stG 63 4 0 .n32 (some .sys) 63) (aimed gr))) 0 0 (flying (.stG 63 4 0 .n32 (some .sys) 63) (aimed gr)) (opOf (aimed gr) (.stG 63 4 0 .n32 (some .sys) 63)) _ rfl
    (by decide) rfl rfl (by decide)
    (by decide) (by unfold Spec.Direct; decide) (fun k => absurd k (by decide))
  let ⟨u, _, f, _⟩ := h.1 (local2 (box (flying (.stul 63 6 0 .n32 31) gr))) 0 0 (flying (.stul 63 6 0 .n32 31) gr) (opOf gr (.stul 63 6 0 .n32 31)) _ rfl
    (by decide) rfl rfl (by decide)
    (by decide) (by unfold Spec.Direct; decide) (fun _ => by decide)
  ⟨⟨t, e⟩, u, f⟩

/-- The crew relaunchable, with a store buffer. -/
def crewB (b : List BufEntry) : Crew := { loadCrew with relaunchable := true, buffer := b }
def buffering (b : List BufEntry) (s : State) : State := { s with crews := tset s.crews 0 (crewB b) }

/-- A buffer that holds one byte in each of 16,385 lines: it is full. -/
def fullBuffer : List BufEntry := [.bytes ((List.range 16385).map (fun n => (64 * n, 0)))]

theorem mem_dedup {x : Nat} {l : List Nat} (h : x ∈ l) : x ∈ dedup l := by
  have k : ∀ (l acc : List Nat), x ∈ l ∨ x ∈ acc →
      x ∈ l.foldl (fun acc x => if acc.contains x then acc else acc ++ [x]) acc := by
    intro l
    induction l with
    | nil => intro acc h; simpa using h
    | cons y r ih =>
      intro acc h
      refine ih _ ?_
      show x ∈ r ∨ x ∈ if acc.contains y = true then acc else acc ++ [y]
      by_cases e : acc.contains y = true
      · rw [if_pos e]
        rcases h with h | h
        · rcases List.mem_cons.1 h with rfl | h
          · exact .inr (by simpa using e)
          · exact .inl h
        · exact .inr h
      · rw [if_neg e]
        rcases h with h | h
        · rcases List.mem_cons.1 h with rfl | h
          · exact .inr (by simp)
          · exact .inl h
        · exact .inr (by simp [h])
  exact k l [] (.inl h)

theorem length_ge : ∀ (n : Nat) (l : List Nat), (∀ x, x < n → x ∈ l) → n ≤ l.length
  | 0, _, _ => Nat.zero_le _
  | n + 1, l, h => by
    have k := length_ge n (l.erase n) (fun x hx => (List.mem_erase_of_ne (by omega)).2 (h x (by omega)))
    rw [List.length_erase_of_mem (h n (by omega))] at k
    have := List.length_pos_of_mem (h n (by omega))
    omega

theorem full_no_room (s : State) (n : Nat) (k : Crew) (es : List BufEntry) (h : k.buffer = fullBuffer) :
    ¬ Spec.BufferRoom s n k es := by
  rintro ⟨hr, _⟩
  have sub : List.range 16385 ⊆ bufLines (k.buffer ++ es) := fun x hx => mem_dedup (by
    rw [h]
    simp only [fullBuffer, List.cons_append, List.nil_append, List.map_cons, List.flatten_cons, List.map_map, List.mem_append]
    exact .inl (List.mem_map.2 ⟨x, hx, by simp [lineOf]⟩))
  have le := length_ge 16385 _ (fun x hx => sub (List.mem_range.2 hx))
  omega

/-- A store of lane 0 alone in flight. -/
def oneLaneOp (i : Instr) (g : Group) : Group := { g with st := 1, ops := [{ opOf g i with lanes := 1, wmask := 1 }] }

theorem witness_StoresPerformed_buffered (h : Obligations.StoresPerformed) :
    let i : Instr := .stG 63 4 0 .n32 none 63
    (∃ t, exec (.storeAccept 0 0 0) (buffering [] (box (flying i (aimed gr)))) = .next t) ∧
    ∃ t, exec (.storeAccept 0 0 0) (buffering fullBuffer (box (oneLaneOp i (aimed gr)))) = .next t :=
  let i : Instr := .stG 63 4 0 .n32 none 63
  let ⟨t, _, _, e, _⟩ := (h.2 (buffering [] (box (flying i (aimed gr)))) 0 0 (flying i (aimed gr)) (opOf (aimed gr) i) _ (crewB [])
    rfl (by decide) rfl rfl rfl rfl (by decide) (by decide) rfl rfl rfl).1 (by unfold Spec.BufferRoom; decide)
  let g := oneLaneOp i (aimed gr)
  let ⟨u, _, f, _⟩ := (h.2 (buffering fullBuffer (box g)) 0 0 g { opOf (aimed gr) i with lanes := 1, wmask := 1 } _
    (crewB fullBuffer) rfl (by decide) rfl rfl rfl rfl (by decide) (by decide) rfl rfl rfl).2 0 (by decide)
    (full_no_room _ _ _ _ rfl) (by decide) ⟨fun _ k => (by cases k), rfl⟩
  ⟨⟨t, e⟩, u, f⟩

theorem witness_AtomicsPerformed (h : Obligations.AtomicsPerformed) :
    (∃ t, exec (.loadComplete 0 0 0) (box (flying (.atomMax 62 4 6 .dev .acq .s64) (aimed gr))) = .next t) ∧
    ∃ t, exec (.storeAccept 0 0 0) (box (flying (.red .fadd 4 6 .grp .comm .n32) (aimed grF))) = .next t :=
  let ⟨t, _, e, _⟩ := (h.1 (box (flying (.atomMax 62 4 6 .dev .acq .s64) (aimed gr))) 0 0 (flying (.atomMax 62 4 6 .dev .acq .s64) (aimed gr)) (opOf (aimed gr) (.atomMax 62 4 6 .dev .acq .s64)) _ _ rfl
    (by decide) rfl rfl (by decide)
    (by decide) (by decide) (by unfold Spec.Direct; decide) rfl).1 rfl (by decide) (inBounds_none (by decide) (by decide))
  let ⟨u, _, f, _⟩ := (h.1 (box (flying (.red .fadd 4 6 .grp .comm .n32) (aimed grF))) 0 0 (flying (.red .fadd 4 6 .grp .comm .n32) (aimed grF)) (opOf (aimed grF) (.red .fadd 4 6 .grp .comm .n32)) _ _ rfl
    (by decide) rfl rfl (by decide)
    (by decide) (by decide) (by unfold Spec.Direct; decide) rfl).2 rfl (by decide)
  ⟨⟨t, e⟩, u, f⟩

theorem witness_AtomicsPerformed_buffered (h : Obligations.AtomicsPerformed) :
    (∃ t, exec (.storeAccept 0 0 0) (buffering [] (box (flying (.red .add 4 6 .dev .comm .n32) (aimed gr)))) = .next t) ∧
    ∃ t, exec (.atomAdd 62 4 6 .dev .acq .s64) (buffering [] (box (aimed gr))) = .next t :=
  let i : Instr := .red .add 4 6 .dev .comm .n32
  let ⟨t, _, _, e, _⟩ := h.2.1 (buffering [] (box (flying i (aimed gr)))) 0 0 (flying i (aimed gr)) (opOf (aimed gr) i) _ .add 4 6
    .dev .comm .n32 (crewB []) rfl rfl (by decide) rfl (by decide) (by decide) (by decide) rfl rfl (by unfold Spec.BufferRoom; decide)
  let j : Instr := .atomAdd 62 4 6 .dev .acq .s64
  let ⟨_, b, d⟩ := enters (i := j) (s := buffering [] (box (aimed gr))) (c := cu) (ms := none) (by decide)
  let ⟨u, _, _, f, _⟩ := h.2.2 j _ (buffering [] (box (aimed gr))) cu (aimed gr) (crewB []) rfl (by decide) rfl
    (issues_of rfl rfl (by decide)) rfl rfl b d (by decide) (by decide) (by decide) (by decide) ⟨fun _ k => (by cases k), rfl⟩
  ⟨⟨t, e⟩, u, f⟩

/-- An entry of the quantum buffer on its way. -/
def qe : QEntry := ⟨0x290000200, 0, .s64, 0, 0x10200, -1, ⟨0, 0x10200, 0, 1⟩, true, false⟩

/-- A state with one such entry on core 0; with one of an older generation. -/
def quan (s : State) : State := s.modCore 0 (fun c => { c with qbuf := [qe] })
def quanOld (s : State) : State := s.modCore 0 (fun c => { c with qbuf := [{ qe with gen := 1 }] })

theorem witness_QuantumBuffer (h : Obligations.QuantumBuffer) :
    (∃ t, exec (.storeAccept 0 0 0) (quan (box (flying (.red .add 4 6 .dev .quan .s64) (aimed gr)))) = .next t) ∧
    (∃ t, exec (.quantumFlush 0 0) (quan (box gr)) = .next t) ∧
    (∃ t, exec (.quantumFlush 0 0) (quan { box gr with poison := [0x290000200 / 32] }) = .next t) ∧
    ∃ t, exec (.quantumFlush 0 0) (quanOld (box gr)) = .next t :=
  let ⟨t, _, e, _⟩ := h.1 (quan (box (flying (.red .add 4 6 .dev .quan .s64) (aimed gr)))) 0 0 (flying (.red .add 4 6 .dev .quan .s64) (aimed gr)) (opOf (aimed gr) (.red .add 4 6 .dev .quan .s64)) _ _ _ _ rfl rfl
    (by decide) (by decide)
    (by decide) _ rfl
  let ⟨u, f, _⟩ := h.2.1 (quan (box gr)) 0 0 qe loadCrew rfl rfl rfl rfl rfl (by decide)
  let ⟨w, _, n, _⟩ := h.2.2.1 (quan { box gr with poison := [0x290000200 / 32] }) 0 0 qe loadCrew gr rfl rfl rfl rfl rfl
    (by decide) rfl rfl (by decide) rfl
  let ⟨v, k, _⟩ := h.2.2.2 (quanOld (box gr)) 0 0 _ loadCrew (loadLaunch 0) rfl rfl rfl (by decide) (by decide) rfl rfl
  ⟨⟨t, e⟩, ⟨u, f⟩, ⟨w, n⟩, v, k⟩

/-! ### xir, tags, regions, copies, waits, fences, attempts, control registers -/

theorem witness_XirTakesItsWords (h : Obligations.XirTakesItsWords) :
    ∃ t, exec (.xir 63 3) (box (masked 1 gr)) = .next t :=
  ⟨_, h 63 3 (box (masked 1 gr)) cu (masked 1 gr) (issues_of rfl rfl (by decide)) (.inl rfl)⟩

/-- A state with bytes at the word that the gang stands at, va 0x10200. -/
def placed (bs : List Byte) (s : State) : State := { s with mem := s.mem.write 0x290000200 bs }

/-- A region of one slot at global 0x10400 with write-back of all of it; `fill` is 0 or 1. -/
def region (fill : Nat) : List Byte := leBytes (2 ^ 16 + fill * 2 ^ 32 + 2 * 2 ^ 33) 8 ++ leBytes 0x10400 8

theorem witness_TagAndRegionWords_tset (h : Obligations.TagAndRegionWords) :
    ∃ t, exec (.tset 6 4 0) (local2 (box (aimed gr))) = .next t :=
  let ⟨t, _, e, _⟩ := h.1 6 4 0 (local2 (box (aimed gr))) cu (aimed gr) loadCrew _ (issues_of rfl rfl (by decide)) (by decide)
    (by decide) rfl rfl (by decide)
  ⟨t, e⟩

/-- What a descriptor asks before it is read, as one check. -/
theorem descReady_of {s : State} {c : Cur} {g : Group} {a size align : Nat}
    (h : (let va := (g.ctx.lane64 a ((lowest c.active).getD 0)).toNat
      sourceOk g.ctx a .t64 && va % align == 0 && (s.core c.core).missed.isEmpty &&
      (List.range size).all (fun k => decide (size ≤ 64 * k) ||
        !descPending s (s.issOf c g) (s.transOf c.core c.frame g (va + 64 * k)) (min 64 (size - 64 * k))) &&
      decide (s.probeSpan (s.issOf c g) .read [((va : Int), size)] = .ready)) = true) : Spec.DescriptorReady s c g a size align := by
  simp only [Bool.and_eq_true, beq_iff_eq, List.isEmpty_iff, List.all_eq_true, Bool.or_eq_true, decide_eq_true_eq,
    Bool.not_eq_true', List.mem_range] at h
  exact ⟨h.1.1.1.1, h.1.1.1.2, cached_of h.1.1.2, fun k hk => (h.1.2 k (by omega)).resolve_left (by omega), h.2⟩

theorem witness_TagAndRegionWords_open (h : Obligations.TagAndRegionWords) :
    (∃ t, exec (.rgnOpen 4 7) (placed (region 0) (local2 (box (aimed gr)))) = .next t) ∧
    ∃ t, exec (.rgnOpen 4 7) (placed (region 1) (local2 (box (aimed gr)))) = .next t :=
  let ⟨t, _, e, _⟩ := (h.2.1 4 7 (placed (region 0) (local2 (box (aimed gr)))) cu (aimed gr) loadCrew
    { loadLaunch 0 with lbytes := 2048 } (issues_of rfl rfl (by decide)) (descReady_of (by decide)) rfl rfl rfl
    (by decide) (fun k => absurd k (by decide)) (fun _ => by decide) (fun _ => cached_of rfl)).1 (by decide)
  let ⟨u, _, f, _⟩ := (h.2.1 4 7 (placed (region 1) (local2 (box (aimed gr)))) cu (aimed gr) loadCrew
    { loadLaunch 0 with lbytes := 2048 } (issues_of rfl rfl (by decide)) (descReady_of (by decide)) rfl rfl rfl
    (by decide) (fun _ => ⟨by decide, by decide⟩) (fun _ => by decide) (fun _ => cached_of rfl)).2 (by decide)
  ⟨⟨t, e⟩, u, f⟩

/-- A crew with a region under descriptor 7. -/
def regioned (wb : Nat) (s : State) : State :=
  { s with crews := tset s.crews 0 { loadCrew with regions := [(7, ⟨0, 1, false, wb, 0x10400⟩)] } }

theorem witness_TagAndRegionWords_close (h : Obligations.TagAndRegionWords) :
    (∃ t, exec (.rgnClose 7) (regioned 1 (local2 (box gr))) = .next t) ∧
    ∃ t, exec (.rgnClose 7) (regioned 2 (local2 (box gr))) = .next t :=
  let ⟨t, _, e, _⟩ := (h.2.2 7 (regioned 1 (local2 (box gr))) cu gr _ _ (issues_of rfl rfl (by decide)) rfl rfl
    (fun _ => by decide)).1 (by decide)
  let ⟨u, _, f, _⟩ := (h.2.2 7 (regioned 2 (local2 (box gr))) cu gr _ _ (issues_of rfl rfl (by decide)) rfl rfl
    (fun _ => by decide)).2 (by decide) (by decide)
  ⟨⟨t, e⟩, u, f⟩

/-- A copy of `n` bytes from global 0x10200 to local 0. -/
def copyDesc (n : Nat) : List Byte := leBytes 0x400 8 ++ leBytes 0x10200 8 ++ zeros 8 ++ leBytes n 4 ++ leBytes 0 28 ++ leBytes 0 4 ++
  leBytes 0 64

theorem witness_CopyWord (h : Obligations.CopyWord) :
    (∃ t, exec (.cpy 4) (placed (copyDesc 0) (local2 (box (aimed gr)))) = .next t) ∧
    ∃ t, exec (.cpy 4) (placed (copyDesc 1) (local2 (box (aimed gr)))) = .next t :=
  let ⟨t, _, e, _⟩ := (h 4 (placed (copyDesc 0) (local2 (box (aimed gr)))) cu (aimed gr) (issues_of rfl rfl (by decide))
    (descReady_of (by decide))).1 (by decide) (by decide)
  let ⟨u, _, f, _⟩ := (h 4 (placed (copyDesc 1) (local2 (box (aimed gr)))) cu (aimed gr) (issues_of rfl rfl (by decide))
    (descReady_of (by decide))).2
    ⟨by decide, by decide, by decide, by decide, by decide, by decide, by decide, by decide,
      fun _ => ⟨by decide, cached_of rfl⟩, fun k => absurd k (by decide)⟩ (by decide)
  ⟨⟨t, e⟩, u, f⟩

theorem witness_BatchesAndWaits (h : Obligations.BatchesAndWaits) :
    (∃ t, exec .cbat (box gr) = .next t) ∧ (∃ t, exec (.wait 0 0 0 0) (box gr) = .next t) ∧
    (∃ t, exec (.wait 0 63 15 15) (box { gr with ld := 1 }) = .next t) ∧ (∃ t, exec (.waitb 0) (box gr) = .next t) ∧
    ∃ t, exec (.waitb 0) (box { gr with batches := [(0, [3])] }) = .next t :=
  let ⟨t, _, e, _⟩ := h.1 (box gr) cu gr (issues_of rfl rfl (by decide)) (by decide)
  let ⟨u, _, f, _⟩ := (h.2.1 0 0 0 0 (box gr) cu gr (issues_of rfl rfl (by decide)) (by unfold Spec.IsGang; decide)).1 (by decide)
  let ⟨v, _, k, _⟩ := (h.2.1 0 63 15 15 (box { gr with ld := 1 }) cu { gr with ld := 1 } (issues_of rfl rfl (by decide))
    (by unfold Spec.IsGang; decide)).2 (by decide)
  let ⟨w, _, n, _⟩ := (h.2.2 0 (box gr) cu gr (issues_of rfl rfl (by decide)) (by unfold Spec.IsGang; decide) (by decide)).1 (by decide)
  let ⟨x, _, p, _⟩ := (h.2.2 0 (box { gr with batches := [(0, [3])] }) cu { gr with batches := [(0, [3])] }
    (issues_of rfl rfl (by decide)) (by unfold Spec.IsGang; decide) (by decide)).2 (by decide)
  ⟨⟨t, e⟩, ⟨u, f⟩, ⟨v, k⟩, ⟨w, n⟩, x, p⟩

theorem witness_Fences (h : Obligations.Fences) :
    (∃ t, exec (.fenceAcq .sys) (quan (box gr)) = .next t) ∧ (∃ t, exec (.fenceRel .dev) (box gr) = .next t) ∧
    ∃ t, exec (.fenceAr .dev) (quan (box gr)) = .next t :=
  let ⟨t, _, e, _⟩ := (h (.fenceAcq .sys) .sys true false rfl (quan (box gr)) cu gr (issues_of rfl rfl (by decide))
    (fun _ => by decide) (fun k => absurd k (by decide))).1 (.inl (by decide))
  let ⟨u, _, f, _⟩ := (h (.fenceRel .dev) .dev false true rfl (box gr) cu gr (issues_of rfl rfl (by decide))
    (fun k => absurd k (by decide)) (fun _ => by decide)).1 (.inr (by decide))
  let ⟨v, _, k, _⟩ := (h (.fenceAr .dev) .dev true true rfl (quan (box gr)) cu gr (issues_of rfl rfl (by decide))
    (fun _ => by decide) (fun _ => by decide)).2 (by decide) (by decide)
  ⟨⟨t, e⟩, ⟨u, f⟩, v, k⟩

theorem witness_Transactions (h : Obligations.Transactions) :
    (∃ t, exec (.txb 0x7FFFF) (box gr) = .next t) ∧ (∃ t, exec (.txo 16) (box (inTx tx0 gr)) = .next t) ∧
    (∃ t, exec .txe (box (inTx tx0 gr)) = .next t) ∧ (∃ t, exec .txr (box (inTx tx0 gr)) = .next t) ∧
    (∃ t, exec .txr (box (inTx { tx0 with layers := tx0.layers.drop 1 } gr)) = .next t) ∧
    ∃ t, exec .txc (box (inTx tx0 gr)) = .next t :=
  let g := inTx tx0 gr
  let ⟨t, _, e, _⟩ := h.1 0x7FFFF (box gr) cu gr (issues_of rfl rfl (by decide)) (by decide) (by decide) rfl
  let ⟨u, _, f, _⟩ := h.2.1 16 (box g) cu g tx0 (issues_of rfl rfl (by decide)) rfl (by decide)
  let ⟨v, _, k, _⟩ := h.2.2.1 (box g) cu g tx0 _ _ _ (issues_of rfl rfl (by decide)) rfl rfl
  let ⟨w, _, n, _⟩ := h.2.2.2.1 (box g) cu g tx0 _ _ _ (issues_of rfl rfl (by decide)) rfl rfl
  let g1 := inTx { tx0 with layers := tx0.layers.drop 1 } gr
  let ⟨x, _, p, _⟩ := h.2.2.2.2.1 (box g1) cu g1 _ _ (issues_of rfl rfl (by decide)) rfl rfl (by decide)
  let ⟨y, _, q, _⟩ := h.2.2.2.2.2.1 (box g) cu g tx0 (issues_of rfl rfl (by decide)) rfl (by decide) (by decide) (by decide)
    (by decide) (by unfold Spec.Direct; decide)
    (fun p hp hn => by rw [show (box g).groups = [(0, g)] from rfl] at hp; cases List.mem_singleton.1 hp; exact absurd rfl hn)
    (fun _ he => by cases he; rfl)
  ⟨⟨t, e⟩, ⟨u, f⟩, ⟨v, k⟩, ⟨w, n⟩, ⟨x, p⟩, y, q⟩

/-- The group aimed at the first word, in an attempt. -/
def aimTx (x : Tx) : Group := inTx x (aimed gr)

/-- A second group of core 0, in an attempt with stamp 4 that has written the line of va 0x102F8. -/
def rivalTx : Tx := { tx0 with stamp := 4, reads := [], layers := [⟨0, 0xFFFFFFFF, List.replicate 8 0, [⟨0x2900002F8, 1⟩]⟩] }
def rival (s : State) : State := s.setGroup 0 1 (inTx rivalTx gr)

/-- The launch's page with a scope. -/
def paged (n : Nat) (s : State) : State := { s with aspaces := tset s.aspaces 0 ⟨0, [{ loadPage with scope := n }]⟩ }

theorem alone {s : State} {g : Group} {P : Tx → Prop} (h : s.groups = [(0, g)]) : Spec.Others s cu P := fun p hp hn => by
  rw [h] at hp; cases List.mem_singleton.1 hp; exact absurd rfl hn

theorem tracked_of {s : State} {g : Group} {i : Instr} {f : MemForm} {m : Nat} {a : Tx} {xir : Bool} (hf : memForm i = some f)
    (hw : Spec.memoryWord i = some (some m, true, xir)) (hi : Issues s cu g i (memDesc f (some m) true xir) 20)
    (ht : g.tx = some a) (h : (f.global && f.atom.isNone && memCodesOk i f g.ctx &&
      canReach s (s.issOf cu g) f (capture g.ctx f) ((s.issOf cu g).eff (some m)) &&
      (List.range 32).all (fun l => !hasLane ((s.issOf cu g).eff (some m)) l ||
        s.scopeAt (s.aspaceOf g) (globalAddr f (capture g.ctx f) l).toNat == 0)) = true) : Spec.Tracked s cu g i f m a := by
  simp only [Bool.and_eq_true, Option.isNone_iff_eq_none, List.all_eq_true, List.mem_range, Bool.or_eq_true, Bool.not_eq_true',
    beq_iff_eq] at h
  exact ⟨hf, ⟨xir, hw, hi⟩, h.1.1.1, ht, h.1.1.2, addressed_of h.1.2,
    fun l hl hm => (h.2 l hl).resolve_left (by rw [hm]; decide)⟩

/-- A load that an attempt tracks, and its form. -/
abbrev ldTx : Instr := .ldG 62 4 0 .n64 none 31
def ldForm : MemForm := match memForm ldTx with
  | some f => f
  | none => { load := true, global := true, addr := 0, size := 0 }

theorem witness_Transactions_load (h : Obligations.Transactions) :
    (∃ t, exec ldTx (rival (box (aimTx tx0))) = .next t) ∧ ∃ t, exec ldTx (box (aimTx tx0)) = .next t :=
  let k := h.2.2.2.2.2.2.1 ldTx ldForm 0
  let ⟨t, e, _⟩ := (k (rival (box (aimTx tx0))) cu (aimTx tx0) tx0 (tracked_of (xir := true) rfl rfl (issues_of rfl rfl (by decide))
    rfl (by decide)) rfl (by decide)).1 (fun o => absurd (o (1, inTx rivalTx gr) (List.Mem.tail _ (List.Mem.head _)) (by decide)
      rivalTx rfl ⟨0xA40000B, by decide, by decide⟩) (by decide))
  let ⟨v, _, n, _⟩ := (k (box (aimTx tx0)) cu (aimTx tx0) tx0 (tracked_of (xir := true) rfl rfl (issues_of rfl rfl (by decide)) rfl
    (by decide)) rfl (by decide)).2.2 (alone rfl) (by decide) (by decide) (fun _ e => by cases e; rfl) (by decide)
    (fun _ _ _ _ _ => rfl) (inBounds_none (by decide) (by decide))
  ⟨⟨t, e⟩, v, n⟩

/-- An attempt whose read set is full. -/
def fullReads : List Nat := List.replicate 513 0
theorem fullReads_length : fullReads.length = 513 := List.length_replicate ..
def fullTx : Tx := { tx0 with reads := fullReads }

theorem witness_Transactions_capacity (h : Obligations.Transactions) : ∃ t, exec ldTx (box (aimTx fullTx)) = .next t :=
  let ⟨u, f, _⟩ := (h.2.2.2.2.2.2.1 ldTx ldForm 0 (box (aimTx fullTx)) cu (aimTx fullTx) fullTx
    (tracked_of (xir := true) rfl rfl (issues_of rfl rfl (by decide)) rfl (by decide)) rfl (by decide)).2.1 (alone rfl)
    (Nat.lt_of_lt_of_le (Nat.lt_of_lt_of_eq (Nat.lt_succ_self 512) fullReads_length.symm)
      (Nat.le_trans (Nat.le_add_right _ _) (Nat.le_of_eq List.length_append.symm)))
  ⟨u, f⟩

/-- A store that an attempt tracks, and its form; an attempt that has written 64 lines. -/
abbrev stTx : Instr := .stG 63 4 0 .n8 none 32
def stForm : MemForm := match memForm stTx with
  | some f => f
  | none => { load := false, global := true, addr := 0, size := 0 }
def fullLayer : Layer := ⟨0, 0xFFFFFFFF, List.replicate 8 0, (List.range 64).map (fun n => (64 * n, 0))⟩
def wideTx : Tx := { tx0 with layers := [fullLayer] }

set_option maxRecDepth 4000 in
theorem witness_Transactions_store (h : Obligations.Transactions) :
    (∃ t, exec stTx (box (aimTx wideTx)) = .next t) ∧ (∃ t, exec stTx (box (aimTx tx0)) = .next t) ∧
    ∃ t, exec ldTx (paged 2 (box (aimTx tx0))) = .next t :=
  let k := h.2.2.2.2.2.2.2.1 stTx stForm 0
  let ⟨t, e, _⟩ := (k (box (aimTx wideTx)) cu (aimTx wideTx) wideTx fullLayer [] (tracked_of (xir := true) rfl rfl
    (issues_of rfl rfl (by decide)) rfl (by decide)) rfl rfl (by decide) (inBounds_none (by decide) (by decide))).1 (by decide)
  let ⟨u, _, _, _, f, _⟩ := (k (box (aimTx tx0)) cu (aimTx tx0) tx0 _ _ (tracked_of (xir := true) rfl rfl
    (issues_of rfl rfl (by decide)) rfl (by decide)) rfl rfl (by decide) (inBounds_none (by decide) (by decide))).2 (by decide)
  let ⟨v, n, _⟩ := h.2.2.2.2.2.2.2.2 ldTx ldForm 0 0 (paged 2 (box (aimTx tx0))) cu (aimTx tx0) tx0 rfl rfl
    ⟨true, rfl, issues_of rfl rfl (by decide)⟩ rfl (by decide) (addressed_of (by decide)) (fun _ => by decide)
    (fun k => absurd k (by decide)) (by decide) (by decide) (by decide)
  ⟨⟨t, e⟩, ⟨u, f⟩, v, n⟩

theorem witness_ControlReads (h : Obligations.ControlReads) :
    (∃ t, exec (.getc 62 .time) (box gr) = .next t) ∧ (∃ t, exec (.getc 63 .bflag) (box gr) = .next t) ∧
    ∃ t, exec (.ebud 63 10) (box gr) = .next t :=
  let ⟨t, _, e, _⟩ := h.1 62 .time (box gr) cu gr (issues_of rfl rfl (by decide)) (fun k => absurd k (by decide))
    (inBounds_none (by decide) (by decide))
  let ⟨u, _, f, _⟩ := h.1 63 .bflag (box gr) cu gr (issues_of rfl rfl (by decide)) (fun _ => by decide)
    (inBounds_none (by decide) (by decide))
  let ⟨v, _, k, _⟩ := h.2 63 10 (box gr) cu gr (issues_of rfl rfl (by decide)) (inBounds_none (by decide) (by decide))
  ⟨⟨t, e⟩, ⟨u, f⟩, v, k⟩

/-- Registers set to code n32 with one value. -/
def valued (w : Word) : Group := regs .n32 w gr

theorem witness_ControlWrites (h : Obligations.ControlWrites) :
    (∃ t, exec (.setc 63 .round) (box (valued 4)) = .next t) ∧ (∃ t, exec (.setc 63 .bflag) (box (valued 4)) = .next t) ∧
    (∃ t, exec (.pint 63) (box (valued 0xFFFFFF)) = .next t) ∧ ∃ t, exec (.pint 63) (box (valued 0x1000)) = .next t :=
  let ⟨t, _, e, _⟩ := h.1 63 0 .round (box (valued 4)) cu (valued 4) (issues_of rfl rfl (by decide)) (by decide) (by decide)
    (by decide) (fun _ => .inr (by decide)) (fun k => absurd k (by decide))
  let ⟨u, _, f, _⟩ := h.1 63 0 .bflag (box (valued 4)) cu (valued 4) (issues_of rfl rfl (by decide)) (by decide) (by decide)
    (by decide) (fun k => absurd k (by decide)) (fun _ => by decide)
  let ⟨v, _, k, _⟩ := h.2 63 0 (box (valued 0xFFFFFF)) cu (valued 0xFFFFFF) (issues_of rfl rfl (by decide)) (by decide)
    (by decide) (by decide) (by decide) (by decide)
  let ⟨w, _, n, _⟩ := h.2 63 0 (box (valued 0x1000)) cu (valued 0x1000) (issues_of rfl rfl (by decide)) (by decide)
    (by decide) (by decide) (by decide) (by decide)
  ⟨⟨t, e⟩, ⟨u, f⟩, ⟨v, k⟩, w, n⟩

/-! ### Matrix words, benches, hints, traps -/

/-- A state whose issuing group owns the four benches of core 0, in pairs or apart, with 64 KiB of local store and one chuck
slot that holds data. -/
def matrixed (aff : Bool) (s : State) : State :=
  let s := withLaunch (fun l => { l with lbytes := 65536, chuck := 1 }) s
  let s := s.modCore 0 (fun c => { c with benches := List.replicate 4 { Bench.init with owner := some 0, affine := aff } })
  { s.setCluster 0 { Cluster.init with chuck := [(0, { Chuck.init with valid := true })] } with
    cohorts := [(0, { launch := 0, f3 := 0, cluster := 0, crews := [(0, 0)], slots := [0], relaunch := none, done := false })] }

/-- The issue of a gang of the last two slices: quarter 3 alone. -/
def cu3 : Cur := { cu with slices := [6, 7], active := 0xFF000000 }

theorem witness_MatrixWordsEnter_mmq (h : Obligations.MatrixWordsEnter) :
    ∃ t, exec (.mmq 3 3 0 6 .ta6) { matrixed false (box gr) with cur := some cu3 } = .next t :=
  let ⟨t, _, e, _⟩ := h (.mmq 3 3 0 6 .ta6) _ _ _ rfl { matrixed false (box gr) with cur := some cu3 } cu3 gr
    (issues_of rfl rfl (by decide)) 3 (fun _ => by decide) (fun k => absurd k (by decide)) (some (0, 0))
    ⟨by decide, by decide, by decide, by decide, ⟨by decide, by decide⟩, by decide, by decide, by decide, fun _ k => by cases k⟩
  ⟨t, e⟩

theorem witness_MatrixWordsEnter_pair (h : Obligations.MatrixWordsEnter) :
    (∃ t, exec (.mgld 2 6) (matrixed true (box gr)) = .next t) ∧
    (∃ t, exec (.mscan 2 true true) (matrixed true (box gr)) = .next t) ∧
    ∃ t, exec (.mdrainState 2 6) (matrixed true (box gr)) = .next t :=
  let s := matrixed true (box gr)
  let ⟨t, _, e, _⟩ := h (.mgld 2 6) _ _ _ rfl s cu gr (issues_of rfl rfl (by decide)) 0 (fun _ => by decide) (fun _ => rfl)
    (some (0, 0)) ⟨by decide, by decide, by decide, by decide, ⟨by decide, by decide⟩, by decide, by decide, by decide, fun _ k => by cases k⟩
  let ⟨u, _, f, _⟩ := h (.mscan 2 true true) _ _ _ rfl s cu gr (issues_of rfl rfl (by decide)) 0 (fun k => absurd k (by decide))
    (fun _ => rfl) none ⟨by decide, by decide, by decide, by decide, ⟨by decide, by decide⟩, by decide, by decide, by decide, fun _ k => by cases k⟩
  let ⟨v, _, k, _⟩ := h (.mdrainState 2 6) _ _ _ rfl s cu gr (issues_of rfl rfl (by decide)) 0 (fun k => absurd k (by decide))
    (fun _ => rfl) (some (0, 0)) ⟨by decide, by decide, by decide, by decide, ⟨by decide, by decide⟩, by decide, by decide, by decide, fun _ k => by cases k⟩
  ⟨⟨t, e⟩, ⟨u, f⟩, v, k⟩

theorem witness_MatrixWordsEnter_drain (h : Obligations.MatrixWordsEnter) :
    (∃ t, exec (.mdrain 3 true 6 .ta6) (matrixed false (box gr)) = .next t) ∧
    ∃ t, exec (.mdrainByp 3 true 1 .ta6) (matrixed false (box gr)) = .next t :=
  let s := matrixed false (box gr)
  let ⟨t, _, e, _⟩ := h (.mdrain 3 true 6 .ta6) _ _ _ rfl s cu gr (issues_of rfl rfl (by decide)) 0 (fun _ => by decide) (fun _ => rfl)
    (some (0, 0)) ⟨by decide, by decide, by decide, by decide, ⟨by decide, by decide⟩, by decide, by decide, by decide, fun _ k => by cases k⟩
  let ⟨u, _, f, _⟩ := h (.mdrainByp 3 true 1 .ta6) _ _ _ rfl s cu gr (issues_of rfl rfl (by decide)) 0 (fun _ => by decide)
    (fun _ => rfl) none ⟨by decide, by decide, by decide, by decide, ⟨by decide, by decide⟩, by decide, by decide, by decide, fun _ k => by cases k⟩
  ⟨⟨t, e⟩, u, f⟩

/-- A state with one group of core 0 in a bench's owner queue. -/
def queued (b : Nat) (aff clr : Bool) (s : State) : State :=
  s.modBench 0 b (fun k => { k with queue := [(0, aff, clr, 0, 0, 0)] })

theorem witness_BenchOwnership (h : Obligations.BenchOwnership) :
    (∃ t, exec (.macq 2 true 0 true) (box gr) = .next t) ∧
    (∃ t, exec (.macq 3 false 0 false) ((box gr).modBench 0 3 (fun k => { k with owner := some 1 })) = .next t) ∧
    (∃ t, exec (.mrel 2) (matrixed true (box gr)) = .next t) ∧
    (∃ t, exec (.benchHandover 0 2) (queued 2 true true (box gr)) = .next t) ∧
    ∃ t, exec (.benchHandover 0 3) (box gr) = .next t :=
  let ⟨t, _, e, _⟩ := (h.1 2 0 true true (box gr) cu gr (issues_of rfl rfl (by decide)) rfl (by decide) (by decide)).1 (by decide)
  let s := (box gr).modBench 0 3 (fun k => { k with owner := some 1 })
  let ⟨u, _, f, _⟩ := (h.1 3 0 false false s cu gr (issues_of rfl rfl (by decide)) rfl (by decide) (by decide)).2
    ⟨3, by decide, by decide⟩
  let ⟨v, _, k, _⟩ := h.2.1 2 (matrixed true (box gr)) cu gr (issues_of rfl rfl (by decide)) (by decide) (by decide) (by decide)
    (by decide)
  let ⟨w, _, n, _⟩ := h.2.2.1 (queued 2 true true (box gr)) 0 2 0 0 0 0 true true [] gr rfl (by decide) (by decide) (.inl rfl) rfl
  let ⟨x, p, _⟩ := h.2.2.2 (box gr) 0 3 rfl (by decide) (by decide)
  ⟨⟨t, e⟩, ⟨u, f⟩, ⟨v, k⟩, ⟨w, n⟩, x, p⟩

/-- A state whose launch counts 1001 blocks. -/
def counting (s : State) : State := withLaunch (fun l => { l with flags := 4, nblocks := 1001, counters := 0x10000 }) s

/-- A state whose core 0 holds 128 counters of that launch. -/
def full (s : State) : State := s.modCore 0 (fun c => { c with bbc := (List.range 128).map (fun k => (0, k, 1)) })

theorem hints_of {s : State} {c : Cur} {g : Group} {i : Instr} (hc : s.cur = some c) (hg : s.group c.core c.frame = some g)
    (h : i.wf && s.implements i && !c.xir && !boundPending g (s.boundsOf g) && (s.holder c.core).isNone &&
      s.canPay c.core 1 = true) :
    Spec.HintIssues s c g i := by
  simp only [Bool.and_eq_true, Bool.not_eq_true', decide_eq_true_eq, Option.isNone_iff_eq_none] at h
  obtain ⟨⟨⟨⟨⟨h1, h2⟩, h3⟩, h4⟩, h6⟩, h5⟩ := h
  exact ⟨hc, hg, h1, h2, h3, h4, fun f e => (by rw [h6] at e; cases e), h5⟩

theorem witness_HintWords (h : Obligations.HintWords) :
    (∃ t, exec (.hintWide 0xFFFFF) (box gr) = .next t) ∧ (∃ t, exec (.hintMext) (box gr) = .next t) ∧
    (∃ t, exec (.hintKeep true 63) (box gr) = .next t) ∧
    (∃ t, exec (.bbc 1000) (box gr) = .next t) ∧ (∃ t, exec (.bbc 1000) (counting (box gr)) = .next t) ∧
    ∃ t, exec (.bbc 1000) (full (counting (box gr))) = .next t :=
  let ⟨t, _, e, _⟩ := h.1 (.hintWide 0xFFFFF) _ _ rfl (box gr) cu gr (hints_of rfl rfl (by decide)) (by decide)
  let ⟨u, _, f, _⟩ := h.1 .hintMext _ _ rfl (box gr) cu gr (hints_of rfl rfl (by decide)) (by decide)
  let ⟨v, _, k, _⟩ := h.2.1 (.hintKeep true 63) _ rfl (box gr) cu gr (hints_of rfl rfl (by decide))
  let ⟨w, _, n, _⟩ := (h.2.2 1000 (box gr) cu gr (hints_of rfl rfl (by decide))).1
    (fun k w q => by rcases q with ⟨-, hw, hf, -⟩
                     rw [show (box gr).launchOf gr = some (loadLaunch 0) from rfl] at hw
                     cases hw; exact absurd hf (by decide))
  let l : Launch := { loadLaunch 0 with flags := 4, nblocks := 1001, counters := 0x10000 }
  let ⟨x, _, p, _⟩ := ((h.2.2 1000 (counting (box gr)) cu gr (hints_of rfl rfl (by decide))).2 loadCrew l
    ⟨rfl, rfl, by decide, by decide⟩).1 (.inr (by decide))
  let ⟨y, q, _⟩ := ((h.2.2 1000 (full (counting (box gr))) cu gr (hints_of rfl rfl (by decide))).2 loadCrew l
    ⟨rfl, rfl, by decide, by decide⟩).2 (by decide +kernel) (by decide +kernel) (0, 127, 1) (by decide +kernel) l rfl
  ⟨⟨t, e⟩, ⟨u, f⟩, ⟨v, k⟩, ⟨w, n⟩, ⟨x, p⟩, y, q⟩

/-- A request of core 0 whose window is over at cycle 32. -/
def req0 (scan : Bool) (i : Instr) : Req :=
  { core := 0, frame := 0, cohort := 0, quarter := 3, scan := scan, gload := false, isNew := true, clrf := true, bench := 2,
    bypass := none, slot := 0, k := 3, fmt := .ta8, base := some (0, 0), prio := 255, age := 0, entry := 0, window := 32,
    op := opOf gr i, killed := none, tile := [] }
def engine (k : Cluster) (s : State) : State := { s.setCluster 0 k with cycle := 32 }

/-- A state in which a granted pass runs for the group of core 0. -/
def granted0 (s : State) : State := engine { Cluster.init with pass := some ⟨[req0 false (.mmq 2 3 0 6 .ta8)], false, 32⟩ } s

/-- A state whose launch has a trap handler. -/
def handling (s : State) : State := withLaunch (fun l => { l with trapOff := some 0 }) s

theorem witness_SoftwareTraps (h : Obligations.SoftwareTraps) :
    (∃ t, exec (.trap 4095) (handling (box gr)) = .next t) ∧ (∃ t, exec .brk (box gr) = .next t) ∧
    ∃ t, exec (.trap 4095) (granted0 (box gr)) = .next t :=
  let ⟨t, e, _⟩ := (h (.trap 4095) (handling (box gr)) cu gr 18 4095 { loadLaunch 0 with trapOff := some 0 } rfl
    (issues_of rfl rfl (by decide))).1 (mayTrap_of rfl (by decide))
  let ⟨u, f, _⟩ := (h .brk (box gr) cu gr 19 0 (loadLaunch 0) (by decide) (issues_of rfl rfl (by decide))).1
    (mayTrap_of rfl (by decide))
  let ⟨v, _, k, _⟩ := (h (.trap 4095) (granted0 (box gr)) cu gr 18 4095 (loadLaunch 0) rfl
    (issues_of rfl rfl (by decide))).2 rfl (by decide)
  ⟨⟨t, e⟩, ⟨u, f⟩, v, k⟩

/-- A group of 63 registers in handler mode, its frame without replay entries. -/
def gr63 : Group := freshGroup { loadLaunch 0 with regs := 63 } 0 0 0 0 0
def itsFrame : Trapped := ⟨gr63.ctx, [], [], false, ⟨18, 5, 0x10200, 0xFFFFFFFF, 0, 0, 0, false⟩, none, 1, 2, 3, 4, [], [], 0⟩
def handlerGroup : Group := { gr63 with inHandler := true, handler := some itsFrame }

/-- The descriptors of 63 uniform registers, their values apart, and that of no register. -/
def descriptors : List Byte := ((List.range 63).map (fun v => leBytes (2 ^ 14 * v) 4)).flatten ++ [3, 0, 0, 0]

/-- A memory in which they stand in the first frame. -/
def framed : Memory := Memory.write [] (State.reset.contextBase + 256 + 0x640) descriptors

/-- A state whose group is in the handler of that frame. -/
def trapped : State := { box handlerGroup with mem := framed }

theorem readFrame_some (rd : Nat → Nat → List Byte) (t : Trapped) (bb : List Byte) (st : Bool) (hr : t.replay = [])
    (same : ∀ k, k < 2304 → (256 ≤ k && editable (k - 256)) = false → (rd 0 2304).getD k 0 = t.image.getD k 0)
    (above : (List.range (64 - t.ctx.need)).all (fun k => fieldAt (rd 0 2304) (1856 + 4 * (t.ctx.need + k)) 4 == 3) = true)
    (regs : (List.range t.ctx.need).all (fun v => (readReg rd v).isSome) = true)
    (apart : disjoint ((((List.range t.ctx.need).map (readReg rd)).filterMap (fun r => r.map (fun x => x.2))) ++
      [(t.image.length, up64 bb.length), (fieldAt t.image 28 4, 64)]) = true)
    (pcs : ((List.range 8).map (fun i => fieldAt (rd 0 2304) (288 + 8 * i) 8)).all (fun p => p % 4 == 0 && p < 2 ^ 56) = true)
    (round : fieldAt (rd 0 2304) 464 4 ≤ 3)
    (pend : (BitVec.ofNat 32 (fieldAt (rd 0 2304) 504 4) &&& ~~~((t.ctx.progress t.shown).1.getD ⟨0, 0, 0, []⟩).pend == 0) = true)
    (head : (rd (fieldAt t.image 28 4) 64 == padTo (leBytes 0 4) 64) = true) (bench : bb = []) :
    (readFrame rd t bb st).isSome = true := by
  unfold readFrame
  simp only [hr, readReplays]
  split
  · rfl
  · rename_i hn
    refine absurd ?_ hn
    subst bench
    simp only [Bool.and_eq_true, List.length_nil]
    refine ⟨⟨⟨⟨⟨⟨⟨?_, above⟩, ?_⟩, pcs⟩, by simpa using .inl round⟩, pend⟩, head⟩, by simp⟩
    · exact List.all_eq_true.2 (fun k hk => by
        cases he : (decide (256 ≤ k) && editable (k - 256)) with
        | true => rfl
        | false => simpa using same k (by simpa using hk) he)
    · exact ⟨by simpa using regs, apart⟩

theorem frame_reads (s : State) (g : Group) (hm : s.mem = framed) (hb : s.frameAddr 0 0 = State.reset.contextBase) :
    (Spec.frameOf s 0 0 g itsFrame).isSome = true := by
  unfold Spec.frameOf
  rw [hm, hb, show (if itsFrame.benches = true then benchPart (allBenches (s.core 0) 0 g) else []) =
    ([] : List Byte) from by simp [itsFrame]]
  refine readFrame_some (fun off n => Spec.seen framed.read (State.reset.contextBase + off) n) itsFrame [] _ rfl (fun k hk he => ?_)
    (by decide +kernel) (by decide +kernel) (by decide +kernel) (by decide +kernel) (by decide +kernel) (by decide +kernel)
    (by decide +kernel) rfl
  have hlen : descriptors.length = 256 := by decide +kernel
  have hout : ¬ (State.reset.contextBase + 256 + 0x640 ≤ State.reset.contextBase + k ∧
      State.reset.contextBase + k < State.reset.contextBase + 256 + 0x640 + 256) := by
    rintro ⟨h1, h2⟩
    have : (256 ≤ k && editable (k - 256)) = true := by simp [editable]; omega
    rw [he] at this; cases this
  have : framed.read (State.reset.contextBase + k) = 0 := by
    unfold framed
    rw [Memory.read_write, hlen, if_neg hout]; rfl
  have there : populated (State.reset.contextBase + k) 1 = true := by
    simp only [populated, Bool.and_eq_true, decide_eq_true_eq]
    rw [show State.reset.contextBase = 0x10000000 from rfl]
    exact ⟨by omega, by simp only [Config.dieBytes]; omega⟩
  simp only [Spec.seen, Nat.add_zero]
  rw [List.getD_eq_getElem?_getD, List.getElem?_map, List.getElem?_range hk]
  rw [show itsFrame.image = [] from rfl]; simpa [Spec.seenByte, there] using this

theorem witness_TrapReturn (h : Obligations.TrapReturn) :
    (∃ t, exec .tret trapped = .next t) ∧ ∃ t, exec .tret (box gr) = .next t :=
  let ⟨p, hp⟩ := Option.isSome_iff_exists.1 (frame_reads trapped handlerGroup rfl rfl)
  let ⟨t, _, e, _⟩ := h.1 trapped cu handlerGroup itsFrame p.1 p.2 (issues_of rfl rfl (by decide))
    rfl rfl rfl (by decide) hp
  let ⟨u, _, f, _⟩ := h.2 (box gr) cu gr (issues_of rfl rfl (by decide)) rfl rfl rfl rfl
  ⟨⟨t, e⟩, u, f⟩

/-! ### Ends of operations and waits, observers, errors -/

/-- A copy of one byte from the first word to local byte 0, `started` or not. -/
def copyOp (started : Bool) (dst : EndPt) : CopyOp :=
  { id := 0, core := 0, frame := 0, crew := 0, src := .global 0x10200, dst := dst, esize := 1, extents := [1], sstride := [0],
    dstride := [0], after := [9], started := started, gen := 0, pc := 0x10200, word := 0, lanes := 1, guards := [], wbSlots := [] }
def copying (o : CopyOp) (s : State) : State := s.setCluster 0 { Cluster.init with copies := [o] }

theorem witness_CopiesMoveBytes (h : Obligations.CopiesMoveBytes) :
    (∃ t, exec (.copyStart 0 0) (copying (copyOp false (.loc (some (0, 0)))) (box gr)) = .next t) ∧
    (∃ t, exec (.copyComplete 0 0) (copying (copyOp true (.loc (some (0, 524287)))) (box gr)) = .next t) ∧
    (∃ t, exec (.copyComplete 0 0) (copying (copyOp true (.global 0x10FFF)) (box gr)) = .next t) ∧
    ∃ t, exec (.copyComplete 0 0) (copying (copyOp true (.chuck 0 255)) (box gr)) = .next t :=
  let ⟨u, f, _⟩ := h.2 (copying (copyOp true (.loc (some (0, 524287)))) (box gr)) 0 0 (copyOp true (.loc (some (0, 524287)))) rfl rfl
    (by decide) (by decide) (show ∀ m ∈ (copyOp true (.loc (some (0, 524287)))).moves,
      (copying (copyOp true (.loc (some (0, 524287)))) (box gr)).guarded 0 [] 0 ((524287 : Int) + m.2.2).toNat 1 = false from by decide)
  let ⟨v, k, _⟩ := h.2 (copying (copyOp true (.global 0x10FFF)) (box gr)) 0 0 (copyOp true (.global 0x10FFF)) rfl rfl
    (by decide) (by decide) trivial
  let ⟨w, n, _⟩ := h.2 (copying (copyOp true (.chuck 0 255)) (box gr)) 0 0 (copyOp true (.chuck 0 255)) rfl rfl
    (by decide) (by decide) (show (copying _ (box gr)).slotRead 0 255 = false from by decide)
  ⟨⟨_, h.1 (copying (copyOp false (.loc (some (0, 0)))) (box gr)) 0 0 (copyOp false (.loc (some (0, 0)))) gr rfl rfl rfl rfl
    (by decide) (by decide) (fun _ e => by cases e) rfl (fun k => absurd k (by decide))⟩, ⟨u, f⟩, ⟨v, k⟩, w, n⟩

/-- A group whose slices all stand as one says. -/
def standing (f : Slice → Slice) (g : Group) : Group := { g with ctx := { g.ctx with slices := g.ctx.slices.map f } }

theorem witness_WaitsEnd (h : Obligations.WaitsEnd) :
    (∃ t, exec (.pagesReady 0 0) (box { gr with status := .parkedPages, pages := [0x10000] }) = .next t) ∧
    (∃ t, exec (.wake 0 0) (box { gr with status := .sleeping, wake := ⟨[7], 0, [7], true⟩ }) = .next t) ∧
    (∃ t, exec (.spuriousWake 0 0) (box { gr with status := .sleeping }) = .next t) :=
  let s := box { gr with status := .sleeping, wake := ⟨[7], 0, [7], true⟩ }
  let ⟨u, _, f, _⟩ := h.2.1 (.wake 0 0) s 0 0 _ rfl rfl (.inl ⟨rfl, rfl⟩)
  let ⟨v, _, k, _⟩ := h.2.1 (.spuriousWake 0 0) (box { gr with status := .sleeping }) 0 0 _ rfl rfl (.inr rfl)
  ⟨⟨_, h.1 (box { gr with status := .parkedPages, pages := [0x10000] }) 0 0 { gr with status := .parkedPages, pages := [0x10000] }
    rfl rfl (fun va hv p hp => by
      rcases List.mem_singleton.1 hv with rfl
      have : p = loadPage := by
        rw [show (box { gr with status := .parkedPages, pages := [0x10000] }).space _ = ⟨0, [loadPage]⟩ from rfl] at hp
        exact (Option.some.inj hp).symm
      subst this; decide)⟩, ⟨u, f⟩, v, k⟩

/-- A group all of whose slices wait at the barrier. -/
def atBar : Group := { standing (fun y => { y with wait := .crewBar, arrCrew := true }) gr with status := .waiting, wait := .gangs }

/-- A group all of whose slices wait at a regang of slices 0 and 7. -/
def atRe : Group := { standing (fun y => { y with wait := .regang 0x81 }) gr with status := .waiting, wait := .gangs }

theorem atRe_slices : ∀ y ∈ atRe.ctx.slices, y.fin = false ∧ y.wait = .regang 0x81 ∧ y.pc = 0x10200 := by decide
theorem bar_crews : (box atBar).barrierCrews 0 false = [0] := by decide +kernel
theorem bar_groups : (box atBar).groups = [(0, atBar)] := rfl

theorem witness_WaitsEnd_gangs (h : Obligations.WaitsEnd) :
    (∃ t, exec (.barrierRelease 0 false) (box atBar) = .next t) ∧ ∃ t, exec (.regangMerge 0 0) (box atRe) = .next t :=
  let ⟨t, e, _⟩ := h.2.2.1 (box atBar) 0 false ⟨(0, atBar), by rw [bar_groups]; exact List.mem_singleton.2 rfl,
      by rw [bar_crews]; decide, by decide, ⟨(atBar.ctx.slices)[0], List.getElem_mem _, rfl, rfl⟩⟩
    (fun n hn => by
      rw [bar_crews] at hn
      rcases List.mem_singleton.1 hn with rfl
      refine ⟨loadCrew, rfl, .inr ⟨rfl, fun p hp _ _ => ?_⟩⟩
      rw [bar_groups] at hp
      rcases List.mem_singleton.1 hp with rfl
      exact ⟨rfl, by decide, by decide⟩)
  let ⟨u, _, f, _⟩ := h.2.2.2 (box atRe) 0 0 0x10200 0x81 atRe rfl ⟨0, _, by decide, rfl, ⟨rfl, rfl⟩, rfl⟩
    (fun i j y hi hj => by
      have k := atRe_slices y (List.mem_of_getElem? hi)
      have n := hj.2
      rw [k.2.1] at n; injection n with n; exact ⟨n.symm, k.2.2⟩)
    (fun i y _ _ hi => .inr (atRe_slices y (List.mem_of_getElem? hi)).2.1)
  ⟨⟨t, e⟩, u, f⟩

/-- A machine whose group stands at a word and has been offered issue in this cycle. -/
def boxW (w : Nat) (g : Group) : State :=
  ({ (State.reset.loadWord w).setGroup 0 0 g with agenda := [] } : State).modCore 0 (fun c => { c with tested := [0] })

theorem witness_ObserversLeaveTheMachine (h : Obligations.ObserversLeaveTheMachine) :
    (∃ t, exec (.runAhead 0 0) (box gr) = .next t) ∧
    (∃ t, exec (.runAhead 0 0) (boxW 0x20820001 (flying (.ldG 8 4 0 .n32 none 0) gr)) = .next t) ∧
    (∃ t, exec .surveyTick { box gr with cycle := 8, surveyK := 3, surveyOn := false, surveyLast := 0 } = .next t) ∧
    (∃ t, exec .surveyTick { box gr with cycle := 8, surveyK := 3, surveyOn := true, surveyLast := 0 } = .next t) ∧
    ∃ t, exec (.sample 0) { boxW 0 gr with sampleOn := true } = .next t :=
  let g := flying (.ldG 8 4 0 .n32 none 0) gr
  let ⟨w, _, _, n, _⟩ := h.2.1 (boxW 0x20820001 g) 0 0 0x10200 0xFFFFFFFF [8] g rfl (by decide) (by decide) (by decide)
  let ⟨t, e, _⟩ := h.2.2.1 { box gr with cycle := 8, surveyK := 3, surveyOn := false, surveyLast := 0 } (by decide) (by decide)
  let ⟨u, f, _⟩ := h.2.2.1 { box gr with cycle := 8, surveyK := 3, surveyOn := true, surveyLast := 0 } (by decide) (by decide)
  let ⟨v, k, _⟩ := h.2.2.2 { boxW 0 gr with sampleOn := true } 0 rfl (by decide) (by decide) (by decide)
  ⟨⟨_, h.1 (box gr) 0 0 gr rfl (by decide)⟩, ⟨w, n⟩, ⟨t, e⟩, ⟨u, f⟩, v, k⟩

/-- A group with a trap to take. -/
def trapDue : Group := { gr with due := some ⟨10, 3, 0x10200, 1, 1, 0, 0, false⟩ }

/-- A state of a queue with a watchdog of one unit, late. -/
def late (s : State) : State :=
  { s with cycle := 65537, queues := tset s.queues 0 { Queue.init with watchdog := 1 } }

theorem witness_TrapsTakenByEvents (h : Obligations.TrapsTakenByEvents) :
    (∃ t, exec (.takeTrap 0 0) (handling (box trapDue)) = .next t) ∧
    (∃ t, exec (.takeTrap 0 0) (granted0 (box trapDue)) = .next t) ∧ ∃ t, exec (.watchdogExpiry 0 0) (late (box { gr with status := .waiting, wait := .counters 0 0 0 0 })) = .next t :=
  let ⟨t, e, _⟩ := h.1 (handling (box trapDue)) 0 0 0 trapDue { loadLaunch 0 with trapOff := some 0 } _ rfl rfl rfl rfl
    (mayTrap_of rfl (by decide)) (by decide)
  let g := { gr with status := .waiting, wait := .counters 0 0 0 0 }
  let ⟨u, f, _⟩ := h.2.2 (late (box g)) 0 0 0 8 g (loadLaunch 0) rfl rfl (mayTrap_of rfl (by decide)) rfl
    (by decide) (by unfold Spec.WaitsTooLong; decide)
  ⟨⟨t, e⟩, ⟨_, h.2.1 (granted0 (box trapDue)) 0 0 trapDue _ rfl rfl (by decide)⟩, u, f⟩

/-- A group that has consumed an error in global memory. -/
def consumed : Group := { gr with poisoned := some (⟨20, 0, 0x10200, 1, 1, 0, 0, false⟩, 0, none) }

/-- A state whose crew is relaunchable, relaunched twice so far. -/
def again2 (s : State) : State := { s with crews := tset s.crews 0 { loadCrew with relaunchable := true, relaunches := 2 } }

/-- A load in flight that carries an old generation. -/
def stale : Group := { gr with ld := 1, ops := [{ opOf (aimed gr) (.ldG 8 4 0 .n32 none 0) with gen := 9 }] }

/-- A copy that carries an old generation. -/
def staleCopy : CopyOp := { copyOp true (.global 0x10300) with gen := 65535 }

theorem witness_ErrorsKill (h : Obligations.ErrorsKill) :
    (∃ t, exec (.uncorrectableConsumed 0 0) (again2 (box consumed)) = .next t) ∧
    (∃ t, exec (.uncorrectableConsumed 0 0) (box consumed) = .next t) ∧
    (∃ t, exec (.generationReject 0 0 0) (box stale) = .next t) ∧
    ∃ t, exec (.generationReject 0 0 0) (copying staleCopy (box gr)) = .next t :=
  let co : Cohort := { launch := 0, f3 := 0, cluster := 0, crews := [(0, 0)], slots := [], relaunch := none, done := false }
  let ⟨t, e, _⟩ := (h.1 (again2 (box consumed)) 0 0 0 0 none consumed _ co (loadLaunch 0) _ rfl rfl rfl (by decide) rfl rfl (by decide)
    rfl rfl rfl rfl rfl rfl rfl).1 (fun r hr y hy => by
      rcases List.mem_singleton.1 (show r ∈ [(0, 0)] from hr) with rfl
      cases hy; exact .inr ⟨rfl, by decide⟩)
  let ⟨u, f, _⟩ := (h.1 (box consumed) 0 0 0 0 none consumed loadCrew co (loadLaunch 0) _ rfl rfl rfl (by decide) rfl rfl (by decide)
    rfl rfl rfl rfl rfl rfl rfl).2 rfl rfl
  let ⟨v, k, _⟩ := h.2.1 (box stale) 0 0 0 stale _ loadCrew (loadLaunch 0) rfl rfl (by decide) rfl rfl rfl
  let ⟨w, n, _⟩ := h.2.2 (copying staleCopy (box gr)) 0 0 0 gr staleCopy loadCrew (loadLaunch 0) rfl rfl rfl rfl (by decide) rfl rfl
    rfl
  ⟨⟨t, e⟩, ⟨u, f⟩, ⟨v, k⟩, w, n⟩

/-! ### Parks, banks, evictions -/

/-- A state in which a record of a group that retired in its handler awaits its answer. -/
def askedGone (s : State) : State :=
  { s with queues := tset s.queues 0 { Queue.init with unanswered := [(0, 0, 0, zeros 16 ++ leBytes 6 4 ++ zeros 12)] } }

/-- A state in which a record of its group on queue 0 awaits its answer. -/
def asked (s : State) : State :=
  { s with queues := tset s.queues 0 { Queue.init with unanswered := [(0, 0, 0, zeros 32)] } }

theorem witness_ParkRecords (h : Obligations.ParkRecords) :
    (∃ t, exec (.parkRecordWrite 0 0) (box { gr with status := .parked, park := some 1 }) = .next t) ∧
    (∃ t, exec (.parkResume 0 0) (asked (box { gr with status := .parked, inHandler := true })) = .next t) ∧
    (∃ t, exec (.parkResume 0 0) (asked (box { gr with status := .parked })) = .next t) ∧
    (∃ t, exec (.parkResume 0 0) (asked { box { gr63 with status := .parked, handler := some itsFrame } with mem := framed }) = .next t) ∧
    (∃ t, exec (.parkKillCrew 0 0) (withLaunch (fun l => { l with flags := 1 }) (asked (box { gr with status := .parked }))) = .next t) ∧
    (∃ t, exec (.parkKillCrew 0 0) (asked (box { gr with status := .parked })) = .next t) ∧
    (∃ t, exec (.parkKillLaunch 0 0) (asked (box { gr with status := .parked })) = .next t) ∧
    (∃ t, exec (.parkResume 0 0) (askedGone (box gr)) = .next t) ∧
    ∃ t, exec (.queueParkWrite 0 0x10000) (asked (box gr)) = .next t :=
  let g := { gr with status := .parked, park := some 1 }
  let p : Group := { gr with status := .parked }
  let q : Group := { gr with status := .parked, inHandler := true }
  let co : Cohort := { launch := 0, f3 := 0, cluster := 0, crews := [(0, 0)], slots := [], relaunch := none, done := false }
  let ⟨t1, e1, _⟩ := h.1 (box g) 0 0 1 0 g (loadLaunch 0) rfl rfl rfl (by decide) (by decide) (fun _ k => by cases k)
    (fun _ k => absurd k (Nat.not_lt_zero _))
  let A := h.2.1 (asked (box q)) 0 0 0 0 (zeros 32) q (by decide) (by decide) rfl rfl
  let B := h.2.1 (asked (box p)) 0 0 0 0 (zeros 32) p (by decide) (by decide) rfl rfl
  let r : Group := { gr63 with status := .parked, handler := some itsFrame }
  let s3 : State := asked { box r with mem := framed }
  let C := h.2.1 s3 0 0 0 0 (zeros 32) r (by decide) (by decide) rfl rfl
  let ⟨kr, hk⟩ := Option.isSome_iff_exists.1 (frame_reads s3 r rfl rfl)
  let ⟨t4, _, e4, _⟩ := C.2.2.1 itsFrame kr.1 kr.2 rfl rfl hk
  let s5 := withLaunch (fun l => { l with flags := 1 }) (asked (box p))
  let D := h.2.1 s5 0 0 0 0 (zeros 32) p (by decide) (by decide) rfl rfl
  let ⟨t5, e5, _⟩ := (D.2.2.2.1 0 co loadCrew { loadLaunch 0 with flags := 1 } rfl rfl rfl rfl rfl rfl).1 rfl
  let ⟨t6, e6, _⟩ := (B.2.2.2.1 0 co loadCrew (loadLaunch 0) rfl rfl rfl rfl rfl rfl).2 rfl rfl
  let ⟨t7, e7, _⟩ := B.2.2.2.2 loadCrew (loadLaunch 0) (by decide) rfl rfl rfl rfl (by decide) rfl
    (fun x hx _ _ _ => by rcases List.mem_singleton.1 (show x ∈ [(0, loadLaunch 0)] from hx) with rfl; rfl)
  let ⟨t8, e8, _⟩ := h.2.2.2 (asked (box gr)) 0 0x10000 (by decide) (by decide)
  ⟨⟨t1, e1⟩, ⟨_, A.1 rfl⟩, ⟨_, B.2.1 rfl rfl⟩, ⟨t4, e4⟩, ⟨t5, e5⟩, ⟨t6, e6⟩, ⟨t7, e7⟩,
    ⟨_, h.2.2.1 (askedGone (box gr)) 0 0 0 0 _ rfl (by decide) _ (.inl rfl)⟩, t8, e8⟩

/-- Core 0 changed. -/
def core0 (f : Core → Core) (s : State) : State := s.modCore 0 f

/-- A swap of core 0 that still has groups to spill. -/
def swap0 (fs : List Nat) : Swap := ⟨0, 0, fs, [0], false⟩

/-- A bench that waits for its spill, of group 0. -/
def frozen0 (c : Core) : Core := { c with swap := some (swap0 []), benches := [{ Bench.init with owner := some 0, frozen := true }, .init, .init, .init] }

theorem witness_BankSwaps (h : Obligations.BankSwaps) :
    (∃ t, exec (.shadowBankSwap 0) (core0 (fun c => { c with preempt := true }) (box gr)) = .next t) ∧
    (∃ t, exec (.spill 0) (core0 (fun c => { c with swap := some (swap0 [0]) }) (box { gr with place := .shadow 0 })) = .next t) ∧
    (∃ t, exec (.spill 0) (core0 (fun c => { c with swap := some (swap0 [0]) })
      (box { gr with place := .shadow 0, handler := some itsFrame })) = .next t) ∧
    (∃ t, exec (.spill 0) (core0 frozen0 (box { gr with place := .frame })) = .next t) ∧
    (∃ t, exec (.savedContextReport 0) (core0 (fun c => { c with swap := some (swap0 []) }) (box gr)) = .next t) ∧
    (∃ t, exec (.shadowBankFill 0) (box { gr with place := .frame }) = .next t) ∧
    ∃ t, exec (.preemptCmd 511) (box gr) = .next t :=
  let s1 := core0 (fun c => { c with preempt := true }) (box gr)
  let ⟨t1, e1, _⟩ := h.1 s1 0 (show ([0] : List Nat).Nodup from by decide) rfl (by decide) rfl rfl rfl (by decide)
  let g2 : Group := { gr with place := .shadow 0 }
  let ⟨t2, _, e2, _⟩ := h.2.1 (core0 (fun c => { c with swap := some (swap0 [0]) }) (box g2)) 0 0 (swap0 [0]) [] g2 rfl rfl (by decide) rfl rfl rfl
  let g6 : Group := { gr with place := .shadow 0, handler := some itsFrame }
  let ⟨t6, _, e6, _⟩ := h.2.2.1 (core0 (fun c => { c with swap := some (swap0 [0]) }) (box g6)) 0 0 (swap0 [0]) [] g6 itsFrame rfl rfl
    (by decide) rfl rfl rfl
  let g3 : Group := { gr with place := .frame }
  let ⟨t3, _, e3, _⟩ := h.2.2.2.1 (core0 frozen0 (box g3)) 0 0 0 (swap0 []) g3 (show ([0] : List Nat).Nodup from by decide) rfl rfl
    (by decide) (by decide) rfl (fun _ k => absurd k (Nat.not_lt_zero _)) (by decide) rfl (by decide) rfl (fun ⟨_, _, k⟩ => by cases k)
  let ⟨t4, e4, _⟩ := h.2.2.2.2.1 (core0 (fun c => { c with swap := some (swap0 []) }) (box gr)) 0 (swap0 []) rfl (by decide) rfl
    (by decide) rfl rfl (by decide)
  let ⟨t5, e5, _⟩ := h.2.2.2.2.2.1 (box g3) 0 0 (0, g3) [] (show ([0] : List Nat).Nodup from by decide) rfl (by decide +kernel) (by decide +kernel)
    (by decide)
  ⟨⟨t1, e1⟩, ⟨t2, e2⟩, ⟨t6, e6⟩, ⟨t3, e3⟩, ⟨t4, e4⟩, ⟨t5, e5⟩, _, h.2.2.2.2.2.2 (box gr) 511 (by decide)⟩

/-! ### Evictions, the matrix engine, placement, retirement -/

/-- Sixteen groups in the active bank, the first asleep or ready, and a seventeenth that is evicted. -/
def seventeen (first : GState) (n : Nat) (s : State) : State :=
  { s with groups := (List.range n).map (fun k => (k, { gr with
      status := if k = 0 then first else if k = 16 then .evicted else .ready
      place := if k = 16 then .frame else .active k
      wake := ⟨[], 0, [], k == 16⟩ })) ++
    (if n = 17 then [] else [(16, { gr with status := .evicted, place := .frame, wake := ⟨[], 0, [], true⟩ })]) }

/-- The group that sleeps among them; the same with a trap frame. -/
def sleeper : Group := { gr with status := .sleeping, wake := ⟨[], 0, [], false⟩ }
def trappedSleeper : Group := { sleeper with handler := some itsFrame }

theorem one_sleeper : ∀ p ∈ (seventeen .sleeping 17 (box gr)).groups, p.2.status = .sleeping → p.1 = 0 := by decide +kernel
theorem one_trapped_sleeper : ∀ p ∈ ((seventeen .sleeping 17 (box gr)).setGroup 0 0 trappedSleeper).groups,
    p.2.status = .sleeping → p.1 = 0 := by decide +kernel

/-- The one sleeper has slept longest. -/
theorem longest {s : State} {g : Group} (one : ∀ p ∈ s.groups, p.2.status = .sleeping → p.1 = 0) (hp : g.place = .active 0)
    (hs : g.status = .sleeping) : Spec.LongestStopped s 0 0 g :=
  ⟨⟨0, by decide, hp⟩, fun f x _ hf hx _ k => absurd
    (show f = 0 by
      have := one _ (tfind_mem (show tfind s.groups (gkey 0 f) = some x from hx)) (by rw [k, hs])
      unfold gkey at this; simp only at this; omega) hf, .inl hs⟩

theorem witness_EvictionAndRestore (h : Obligations.EvictionAndRestore) :
    (∃ t, exec (.eviction 0) (seventeen .sleeping 17 (box gr)) = .next t) ∧
    Spec.OwnsPairs (seventeen .sleeping 17 (box gr)) 0 0 sleeper ∧
    (∃ t, exec (.eviction 0) ((seventeen .sleeping 17 (box gr)).setGroup 0 0 trappedSleeper) = .next t) ∧
    Spec.owned ((seventeen .sleeping 17 (box gr)).setGroup 0 0 trappedSleeper) 0 0 = [] ∧
    (∃ t, exec (.groupRestore 0) (seventeen .ready 1 (box gr)) = .next t) ∧
    ∃ t, exec (.groupRestore 0) (box { gr with place := .frame }) = .next t :=
  let s := seventeen .sleeping 17 (box gr)
  let ⟨t, _, e, _⟩ := h.1 s 0 0 sleeper (by unfold Spec.OneEach; decide +kernel) (by decide) rfl (longest one_sleeper rfl rfl)
    (fun _ _ _ => .inl (by decide +kernel)) (by decide +kernel) rfl rfl (by decide +kernel)
  let ⟨w, _, e', _⟩ := h.1 (s.setGroup 0 0 trappedSleeper) 0 0 trappedSleeper (by unfold Spec.OneEach; decide +kernel) (by decide) rfl
    (longest one_trapped_sleeper rfl rfl) (fun _ _ _ => .inl (by decide +kernel)) (by decide +kernel) rfl rfl (by decide +kernel)
  let ⟨u, _, f, _⟩ := h.2 (seventeen .ready 1 (box gr)) 0 16 1 { gr with status := .evicted, place := .frame, wake := ⟨[], 0, [], true⟩ }
    (by unfold Spec.OneEach; decide +kernel) (by decide) rfl (.inl ⟨rfl, by decide⟩) (by decide +kernel) (by decide +kernel)
    (by decide) (by decide +kernel)
  let ⟨v, _, k, _⟩ := h.2 (box { gr with place := .frame }) 0 0 0 { gr with place := .frame }
    (by unfold Spec.OneEach; decide +kernel) (by decide) rfl (.inr ⟨rfl, rfl, rfl⟩) (by decide +kernel) (by decide +kernel)
    (by decide) (by decide +kernel)
  ⟨⟨t, e⟩, ⟨fun n k e => absurd e ((by decide +kernel : ∀ n, n < 4 → (s.bench 0 n).owner ≠ some 0) n k), fun _ k => by cases k⟩, ⟨w, e'⟩, by decide +kernel, ⟨u, f⟩, v, k⟩

/-- A drain of a bench. -/
def drain0 (kind : Nat) (i : Instr) (target : Option (Nat × Nat)) : Drain :=
  { id := 0, core := 0, frame := 0, bench := 2, kind := kind, quarter := 3, fmt := .ta6, sat := true, seg := 1, target := target,
    rnd := .rn, op := opOf gr i, seed := 1, guards := [] }
def draining (d : Drain) : State := engine { Cluster.init with drains := [d] } (matrixed true (box { gr with tl := 1 }))

theorem witness_MatrixEngine (h : Obligations.MatrixEngine) :
    (∃ t, exec (.matrixGrant 0) (engine { Cluster.init with table := [req0 false (.mmq 2 3 0 6 .ta8)] } (box gr)) = .next t) ∧
    (∃ t, exec (.passRetire 0) (engine { Cluster.init with pass := some ⟨[req0 false (.mmq 2 3 0 6 .ta8)], false, 32⟩ } (box gr)) = .next t) ∧
    (∃ t, exec (.scanRetire 0) (engine { Cluster.init with pass := some ⟨[req0 true (.mscan 2 true true)], true, 32⟩ } (box gr)) = .next t) ∧
    (∃ t, exec (.drainComplete 0 0) (draining (drain0 1 (.mdrainState 2 6) (some (0, 16)))) = .next t) ∧
    (∃ t, exec (.drainComplete 0 0) (draining (drain0 0 (.mdrain 2 true 6 .ta6) (some (0, 16)))) = .next t) ∧
    ∃ t, exec (.drainComplete 0 0) (draining (drain0 2 (.mdrainByp 2 true 1 .ta6) none)) = .next t :=
  let r := req0 false (.mmq 2 3 0 6 .ta8)
  let ⟨t1, _, _, e1, _⟩ := h.1 (engine { Cluster.init with table := [r] } (box gr)) 0 rfl ⟨r, by decide, by decide⟩
  let ⟨t2, e2, _⟩ := h.2.1 (engine { Cluster.init with pass := some ⟨[r], false, 32⟩ } (box gr)) 0 ⟨[r], false, 32⟩ rfl rfl (by decide)
    (List.pairwise_singleton _ _)
  let q := req0 true (.mscan 2 true true)
  let ⟨t3, e3, _⟩ := h.2.2.1 (engine { Cluster.init with pass := some ⟨[q], true, 32⟩ } (box gr)) 0 q [] 32 rfl (by decide) rfl rfl rfl
    (fun _ => ⟨rfl, rfl⟩)
  let g : Group := { gr with tl := 1 }
  let ⟨t4, e4, _⟩ := (h.2.2.2 (draining (drain0 1 (.mdrainState 2 6) (some (0, 16)))) 0 0 _ g rfl (by decide) rfl).1 rfl rfl 0 16 rfl
  let ⟨t5, _, e5, _⟩ := (h.2.2.2 (draining (drain0 0 (.mdrain 2 true 6 .ta6) (some (0, 16)))) 0 0 _ g rfl (by decide) rfl).2 (by decide)
    (by decide) (fun _ k => by cases k) ⟨2, some 6, true, .inl ⟨.ta6, rfl, rfl⟩⟩
  let ⟨t6, _, e6, _⟩ := (h.2.2.2 (draining (drain0 2 (.mdrainByp 2 true 1 .ta6) none)) 0 0 _ g rfl (by decide) rfl).2 (by decide)
    (by decide) (fun _ k => by cases k) ⟨2, none, true, .inr ⟨.ta6, rfl, rfl, by decide, rfl⟩⟩
  ⟨⟨t1, e1⟩, ⟨t2, e2⟩, ⟨t3, e3⟩, ⟨t4, e4⟩, ⟨t5, e5⟩, t6, e6⟩

/-- A launch of one cohort, of which the first is still to be dispatched. -/
def waitingLaunch : Launch := { loadLaunch 0 with next := 0 }

/-- A cohort struck on cluster 0 whose crew is to run again. -/
def struck : Cohort :=
  { launch := 0, f3 := 0, cluster := 0, crews := [(0, 0)], slots := [], relaunch := some ([0], 0), done := false }

/-- A launch waits beside a crew on the die, whose refill cannot bear its forecast. -/
def dear : State := { State.reset with launches := [(0, { waitingLaunch with energy := 0xFFFFFFFF })], crews := [(0, loadCrew)] }

theorem witness_CohortsPlaced (h : Obligations.CohortsPlaced) :
    (∃ t, exec (.cohortAdmit 127) State.reset = .next t) ∧
    (∃ t, exec (.cohortAdmit 127) dear = .next t) ∧
    (∃ t, exec (.cohortAdmit 127) { State.reset with launches := [(0, waitingLaunch)] } = .next t) ∧
    ∃ t, exec (.crewRelaunch 127) { State.reset with launches := [(0, loadLaunch 0)], cohorts := [(0, struck)] } = .next t :=
  let ⟨v, k, _⟩ := h.1 State.reset 127 (by decide) rfl
  let ⟨x, l, _⟩ := h.2.1 dear 127 0 3 { waitingLaunch with energy := 0xFFFFFFFF } (by decide) (List.Mem.head _) rfl rfl (by decide +kernel)
    (by decide) (by decide) (by decide) (by decide +kernel) (by decide +kernel)
  let ⟨t, _, e, _⟩ := h.2.2.1 { State.reset with launches := [(0, waitingLaunch)] } 127 0 waitingLaunch (by decide) (by decide +kernel) rfl
  let ⟨u, _, f, _⟩ := h.2.2.2 { State.reset with launches := [(0, loadLaunch 0)], cohorts := [(0, struck)] } 127 0 0 0 (loadLaunch 0)
    struck [0] (by decide) (by decide +kernel) rfl rfl
  ⟨⟨v, k⟩, ⟨x, l⟩, ⟨t, e⟩, u, f⟩

/-- What the retirement of the crew 0 of the loaded launch asks, as one check. -/
theorem mayRetire_of {s : State} {k : Crew} {w : Launch} (hc : s.crew 0 = some k) (hl : s.launch k.launch = some w)
    (hr : k.regions = []) (hb : k.bufGen = none) (hp : Spec.partials s 0 k = []) (hm : s.metRed (k.buffer ++ Spec.lateEntries s 0 k) [] = none)
    (h : (!k.retired && !k.killed && (s.groupsOf 0).isEmpty && (s.earlyOps k.core).isEmpty && decide (s.cores.map Prod.fst).Nodup) = true)
    (room : Spec.BufferRoom s 0 k (Spec.lateEntries s 0 k)) : Spec.MayRetire s 0 k w := by
  simp only [Bool.and_eq_true, Bool.not_eq_true', decide_eq_true_eq, List.isEmpty_iff] at h
  obtain ⟨⟨⟨⟨h1, h2⟩, h3⟩, h4⟩, h5⟩ := h
  exact ⟨⟨hc, h1, h2, h3⟩, hl, h5, by rw [hr]; exact ⟨fun _ k => (by cases k), List.nodup_nil, .nil⟩,
    (by rw [hp]; exact fun _ k => by cases k), ⟨fun _ k => (by rw [hb] at k; cases k), hm⟩, room, h4⟩

/-- The crew of the loaded launch alone, its groups retired. -/
def emptied (s : State) : State := { s with groups := [] }

theorem witness_Retirement (h : Obligations.Retirement) :
    (∃ t, exec (.groupRetire 0 0) (box { gr with status := .retiring }) = .next t) ∧
    (∃ t, exec (.groupRetire 0 0) (box { gr with status := .retiring, inHandler := true }) = .next t) ∧
    ∃ t, exec (.crewRetire 0) (emptied (box gr)) = .next t :=
  let ⟨t, e, _⟩ := h.1 (box { gr with status := .retiring }) 0 0 { gr with status := .retiring } rfl rfl (by decide)
  let ⟨v, k, _⟩ := h.1 (box { gr with status := .retiring, inHandler := true }) 0 0 { gr with status := .retiring, inHandler := true }
    rfl rfl (by decide)
  let ⟨u, f, _⟩ := h.2.1 (emptied (box gr)) 0 loadCrew (loadLaunch 0)
    (mayRetire_of rfl rfl rfl rfl (by decide) (by decide) (by decide) ⟨by decide, by decide⟩) rfl
  ⟨⟨t, e⟩, ⟨v, k⟩, u, f⟩

/-! ### Commands -/

/-- The entry of a command with sequence number 7. -/
def entry (kind : Nat) (ops : List Byte) : List Byte := padTo (leBytes kind 8 ++ leBytes 7 8 ++ ops) 64

/-- A state whose queue 0 has that entry to fetch from 0x290001000, with more bytes behind it at va 0x10800. -/
def ordered (e more : List Byte) (s : State) : State :=
  { s with mem := (s.mem.write 0x290001000 e).write 0x290000800 more,
           queues := tset s.queues 0 { Queue.init with pins := [(0, 0x10000, 1)], enable := true, base := 0x290001000, tail := 1 } }

theorem next_of {s : State} {q kind : Nat} {e : List Byte}
    (h : decide (s.nextEntry q = some e) && fieldAt e 0 1 == kind && (s.queue q).expect.isNone && !entryBad e &&
      (s.queue q).busy.isEmpty = true) : Spec.NextCommand s q kind e := by
  simp only [Bool.and_eq_true, decide_eq_true_eq, beq_iff_eq, Bool.not_eq_true', Option.isNone_iff_eq_none,
    List.isEmpty_iff] at h
  obtain ⟨⟨⟨⟨h1, h2⟩, h3⟩, h4⟩, h5⟩ := h
  exact ⟨h1, h2, .inl h3, h4, fun _ => h5⟩

/-- A translation table with one page of 4 KiB at 0x20000. -/
def table1 : List Byte := leBytes 0x20000 8 ++ leBytes (0x290010000 + 2 ^ 41) 8

/-- A list of one range: a page of the loaded code. -/
def ranges1 : List Byte := leBytes 0x10000 8 ++ leBytes (1 + 7 * 2 ^ 32) 8
def range1 : Range := ⟨0x10000, 1, true, true, true⟩

def eMap : List Byte := entry 10 (leBytes 0x290000800 8 ++ leBytes 1 4)
def ePin : List Byte := entry 2 (leBytes 0x10800 8 ++ leBytes 1 4)
def eUnpin : List Byte := entry 3 (leBytes 0x10800 8 ++ leBytes 1 4)
def eSignal : List Byte := entry 6 (leBytes 0x10900 8 ++ leBytes (2 ^ 64 - 1) 8 ++ [1])
def eWait : List Byte := entry 7 (leBytes 0x10900 8 ++ leBytes 1 8)
def eBind : List Byte := entry 8 (leBytes 0x10800 8)

theorem witness_MemoryCommands_pages (h : Obligations.MemoryCommands) :
    (∃ t, exec (.map 0) (ordered eMap table1 (box gr)) = .next t) ∧
    (∃ t, exec (.pin 0) (ordered ePin ranges1 (box gr)) = .next t) ∧
    (∃ t, exec (.unpin 0) (ordered eUnpin ranges1 (box gr)) = .next t) :=
  let ⟨t, e, _⟩ := h.1 (ordered eMap table1 (box gr)) 0 eMap [⟨0x20000, 0, 0x290010000, true, false, false, 0⟩]
    (next_of (by decide +kernel)) (by decide +kernel) (by decide +kernel)
  let ⟨u, f, _⟩ := h.2.2.1 (ordered eUnpin ranges1 (box gr)) 0 eUnpin [range1] (next_of (by decide +kernel)) rfl (by decide +kernel)
    (by decide)
  ⟨⟨t, e⟩, ⟨_, h.2.1 (ordered ePin ranges1 (box gr)) 0 ePin [range1] (next_of (by decide +kernel)) (by decide +kernel)
    (by decide +kernel) (by decide)⟩, u, f⟩

theorem witness_MemoryCommands_objects (h : Obligations.MemoryCommands) :
    (∃ t, exec (.signal 0) (ordered eSignal [] (box gr)) = .next t) ∧
    (∃ t, exec (.waitCommand 0) (ordered eWait [] (box gr)) = .next t) ∧
    ∃ t, exec (.waitCommand 0) { box gr with queues := [(0, { Queue.init with waiting := some (7, 0x290000900, 1) })] } = .next t :=
  let ⟨t, e, _⟩ := h.2.2.2.1 (ordered eSignal [] (box gr)) 0 0x290000900 eSignal (next_of (by decide +kernel)) (by decide)
    (by decide +kernel)
  let ⟨u, f, _⟩ := h.2.2.2.2.1 (ordered eWait [] (box gr)) 0 0x290000900 eWait (next_of (by decide +kernel)) rfl (by decide +kernel)
  let ⟨v, k, _⟩ := h.2.2.2.2.2.1 { box gr with queues := [(0, { Queue.init with waiting := some (7, 0x290000900, 1) })] } 0 7
    0x290000900 1 rfl
  ⟨⟨t, e⟩, ⟨u, f⟩, v, k⟩

/-- Binding 9 of devices in a row (its end where there are none), and of this device alone with a staging allotment. -/
def bind9 (pw : Nat) : List Byte :=
  padTo (leBytes 9 4 ++ leBytes 0 2 ++ leBytes 0 2 ++ leBytes pw 2 ++ leBytes 1 2 ++ leBytes 65536 4 ++ leBytes 0 8 ++ leBytes 0 4) 64
def binding9 (pw : Nat) : Binding :=
  { ident := 9, queue := 0, px := 0, py := 0, pw := pw, ph := 1, staging := 65536, ovf := 0, ovfrows := 0, aspace := 0 }
def staged9 (n : Nat) : List Byte :=
  padTo (leBytes 9 4 ++ leBytes 0 2 ++ leBytes 0 2 ++ leBytes 1 2 ++ leBytes 1 2 ++ leBytes n 4 ++ leBytes 0 8 ++ leBytes 0 4) 64

/-- A span of two devices of which queue 0 has a complete table. -/
def spanned (s : State) : State :=
  { s with spans := [{ ident := 5, x := 0, y := 0, n4 := 2, n5 := 1, hops := [0, 2], queue := 0, seq := 3, heard := [], complete := true }] }

theorem witness_MemoryCommands_bind (h : Obligations.MemoryCommands) :
    (∃ t, exec (.bindCollective 0) (ordered eBind (bind9 0) (box gr)) = .next t) ∧
    (∃ t, exec (.bindCollective 0) (ordered eBind (bind9 1) (box gr)) = .next t) ∧
    (∃ t, exec (.bindCollective 0) (spanned (ordered eBind (bind9 2) (box gr))) = .next t) ∧
    (∃ t, exec (.bindCollective 0) (ordered eBind (bind9 2) (box gr)) = .next t) ∧
    (∃ t, exec (.bindCollective 0) (ordered eBind (staged9 4194304) { box gr with bindings := [{ binding9 1 with ident := 8 }] }) = .next t) ∧
    (∃ t, exec (.bindCollective 0) { box gr with binds := [(0, 7, binding9 1)] } = .next t) :=
  let H := h.2.2.2.2.2.2
  let A := fun s (b : Nat) n d e r => H.1 s 0 eBind (bind9 b) (binding9 b) n d e r
  let s1 := ordered eBind (bind9 0) (box gr)
  let s2 := ordered eBind (bind9 1) (box gr)
  let s3 := spanned (ordered eBind (bind9 2) (box gr))
  let s4 := ordered eBind (bind9 2) (box gr)
  let s5 := ordered eBind (staged9 4194304) { box gr with bindings := [{ binding9 1 with ident := 8 }] }
  let ⟨u, f, _⟩ := H.2.2.1 { box gr with binds := [(0, 7, binding9 1)] } 0 (0, 7, binding9 1) (by decide +kernel)
  let ⟨v, k, _⟩ := (A s4 2 (next_of (by decide +kernel)) rfl (by decide +kernel) (by decide +kernel)).2.1 (by decide)
    (fun w => by obtain ⟨x, hx, _⟩ := w.2 (by decide); exact absurd hx (by intro k; cases k))
  let ⟨x, l, _⟩ := (H.1 s5 0 eBind (staged9 4194304) { binding9 1 with staging := 4194304 } (next_of (by decide +kernel)) rfl
    (by decide +kernel) (by decide +kernel)).2.2 (by decide) ⟨by decide, fun w => absurd w (by decide)⟩ (by decide +kernel)
  ⟨⟨_, ((A s1 0 (next_of (by decide +kernel)) rfl (by decide +kernel) (by decide +kernel)).1 (.inl rfl)).1 (by decide +kernel)⟩,
    ⟨_, ((A s2 1 (next_of (by decide +kernel)) rfl (by decide +kernel) (by decide +kernel)).1
      (.inr ⟨⟨by decide, fun w => absurd w (by decide)⟩, by decide +kernel⟩)).1 (by decide +kernel)⟩,
    ⟨_, ((A s3 2 (next_of (by decide +kernel)) rfl (by decide +kernel) (by decide +kernel)).1
      (.inr ⟨⟨by decide, fun _ => ⟨_, .head _, by decide⟩⟩, by decide +kernel⟩)).1 (by decide +kernel)⟩, ⟨v, k⟩, ⟨x, l⟩, ⟨u, f⟩⟩

/-- A bind command whose object lies outside the address space. -/
def eBindOut : List Byte := entry 8 (leBytes 0x90800 8)

/-- A state whose queue expects another number than the entry carries; an entry that sets a reserved byte. -/
def expecting (s : State) : State := { s with queues := [(0, { s.queue 0 with expect := some 8 })] }
def eBad : List Byte := entry 2 (leBytes 0x10800 8 ++ leBytes 1 4 ++ zeros 4 ++ [1])

theorem witness_MemoryCommands_errors (h : Obligations.MemoryCommands) :
    (∃ t, exec (.bindCollective 0) (ordered eBindOut [] (box gr)) = .next t) ∧
    (∃ t, exec (.bindCollective 0) (ordered eBind (staged9 1) (box gr)) = .next t) ∧
    (∃ t, exec (.pin 0) (expecting (ordered ePin ranges1 (box gr))) = .next t) ∧
    ∃ t, exec (.pin 0) (ordered eBad ranges1 (box gr)) = .next t :=
  let H := h.2.2.2.2.2.2.2
  let ⟨t1, e1, _⟩ := (H.1 (ordered eBindOut [] (box gr)) 0 eBindOut (next_of (by decide +kernel)) rfl).1 (by decide +kernel)
  let ⟨t2, e2, _⟩ := (H.1 (ordered eBind (staged9 1) (box gr)) 0 eBind (next_of (by decide +kernel)) rfl).2 (staged9 1) (by decide +kernel)
    (by decide +kernel)
  let mem : (Instr.pin 0, 2) ∈ [(Instr.launch 0, 1), (.pin 0, 2), (.unpin 0, 3), (.copyIn 0, 4), (.copyOut 0, 5), (.signal 0, 6),
      (.waitCommand 0, 7), (.bindCollective 0, 8), (.spanPrologue 0, 9), (.map 0, 10)] := .tail _ (.head _)
  let ⟨t3, e3, _⟩ := (H.2.2 (.pin 0) (expecting (ordered ePin ranges1 (box gr))) 0 2 8 ePin mem (by decide +kernel) (by decide)
    (fun k => absurd k (by decide))).1 rfl (by decide)
  let ⟨t4, e4, _⟩ := (H.2.2 (.pin 0) (ordered eBad ranges1 (box gr)) 0 2 8 eBad mem (by decide +kernel) (by decide)
    (fun k => absurd k (by decide))).2 (fun _ k => by cases k) (by decide +kernel)
  ⟨⟨t1, e1⟩, ⟨t2, e2⟩, ⟨t3, e3⟩, t4, e4⟩

def eIn : List Byte := entry 4 (leBytes 0x5000 8 ++ leBytes 0x10A00 8 ++ leBytes 4 8)
def eOut : List Byte := entry 5 (leBytes 0x5000 8 ++ leBytes 0x10A00 8 ++ leBytes 0x600 8)

/-- A DMA copy of four bytes over link 1; one that a remap has overtaken. -/
def dma0 (out : Bool) : Dma :=
  { id := 3, queue := 0, seq := 7, out := out, sys := 0x5000, va := 0x10A00, aspace := 0, len := 4, link := 1, pieces := [(0x290000A00, 4)],
    moved := [], gen := 0 }
def dmaOld : Dma := { dma0 true with gen := 1 }

theorem witness_HostCopies (h : Obligations.HostCopies) :
    (∃ t, exec (.copyIn 0) { ordered eIn [] (box gr) with launches := [], hostLinks := [0] } = .next t) ∧
    (∃ t, exec (.copyOut 0) { ordered eOut [] (box gr) with hostLinks := [0] } = .next t) ∧
    (∃ t, exec (.dmaCopyComplete 3 (.piece 0 [1, 2, 3, 4])) { box gr with dmas := [dma0 false] } = .next t) ∧
    (∃ t, exec (.dmaCopyComplete 3 (.data [1, 2, 3, 4])) { box gr with dmas := [dma0 false] } = .next t) ∧
    (∃ t, exec (.dmaCopyComplete 3 .failed) { box gr with dmas := [dma0 true] } = .next t) ∧
    (∃ t, exec (.dmaCopyComplete 3 .failed) { box gr with dmas := [dmaOld] } = .next t) ∧
    ∃ t, exec (.hostLinkDown 1) { box gr with dmas := [dma0 true] } = .next t :=
  let ⟨w, n, _⟩ := h.2.1 { box gr with dmas := [dma0 false] } 3 0 (dma0 false) [1, 2, 3, 4] rfl (by decide) (by decide) (by decide)
  let ⟨t, e, _⟩ := h.2.2.1 { box gr with dmas := [dma0 false] } 3 (dma0 false) [1, 2, 3, 4] rfl (by decide)
  let ⟨u, f, _⟩ := (h.2.2.2.1 { box gr with dmas := [dma0 true] } 3 (dma0 true) rfl rfl).1 (by decide)
  let ⟨x, l, _⟩ := (h.2.2.2.1 { box gr with dmas := [dmaOld] } 3 dmaOld rfl rfl).2 (by decide) .failed
  let ⟨v, k, _⟩ := h.2.2.2.2 { box gr with dmas := [dma0 true] } 1
  ⟨⟨_, h.1 false { ordered eIn [] (box gr) with launches := [], hostLinks := [0] } 0 eIn (next_of (by decide +kernel))
      ⟨by decide, by decide +kernel, fun _ => by decide +kernel, by decide⟩⟩,
    ⟨_, h.1 true { ordered eOut [] (box gr) with hostLinks := [0] } 0 eOut (next_of (by decide +kernel))
      ⟨by decide, by decide +kernel, (fun k => by cases k), by decide⟩⟩, ⟨w, n⟩, ⟨t, e⟩, ⟨u, f⟩, ⟨x, l⟩, v, k⟩

/-- A launch command whose record stands at va 0x10800; a record of zeros is malformed (R368: error 2). -/
def eLaunch : List Byte := entry 1 (leBytes 0x10800 8)

/-- A launch record of one group of 32 lanes with one register and the code object at va 0x10000 (R367), and the one range of
its working set. -/
def record1 : List Byte :=
  padTo (leBytes 0x10000 8 ++ leBytes 0 4 ++ [32, 0, 0, 0] ++ [5, 0, 0, 0, 0, 0, 1, 1] ++ leBytes 1 4 ++ leBytes 1 2 ++ leBytes 1 2 ++
    leBytes 1 4 ++ leBytes 0 12 ++ leBytes 0x10900 8 ++ leBytes 1 4 ++ leBytes 0 28 ++ leBytes 1 16) 256 ++ ranges1

/-- The header of that code object: one word of code, feature bit 0 (R349). -/
def header1 : List Byte :=
  padTo (leBytes 0x4D524F50 4 ++ leBytes 1 4 ++ leBytes 512 4 ++ leBytes 0 4 ++ leBytes 1 16 ++ leBytes 0 4 ++ leBytes 4 4 ++ leBytes 0 16 ++
    [1, 1, 5, 0, 0, 0, 0, 0] ++ leBytes 1 4) 512

def launching : State :=
  let s := ordered eLaunch record1 (box gr)
  { s with mem := s.mem.write 0x290000000 header1 }

/-- The routing table of a span of this device alone. -/
def span1 : List Byte := leBytes 0 4 ++ leBytes 1 2 ++ leBytes 1 2 ++ leBytes 5 4 ++ leBytes 0 4 ++ leBytes 32 4
def eSpan : List Byte := entry 9 (leBytes 0x10800 8 ++ leBytes 20 4)

theorem ok_of {α : Type} {x : Except Nat α} (h : x.toBool = true) : ∃ a, x = .ok a := by
  cases x with
  | ok a => exact ⟨a, rfl⟩
  | error e => cases h

/-- A prologue of a span of two devices, this one the first, that waits for the other; port 2 leads there, or is not trained. -/
def span2 : SpanTable := { ident := 5, x := 0, y := 0, n4 := 2, n5 := 1, hops := [0, 2], queue := 0, seq := 7, heard := [], complete := false }
def prologued (up : Bool) : State :=
  { box gr with spans := [span2], ports := tset (box gr).ports 2 { (box gr).port 2 with trained := up, down := false } }

theorem witness_LaunchesAndPrologues (h : Obligations.LaunchesAndPrologues) :
    (∃ t, exec (.launch 0) (ordered eLaunch [] (box gr)) = .next t) ∧
    (∃ t, exec (.launch 0) launching = .next t) ∧
    (∃ t, exec (.spanPrologue 0) (ordered eSpan span1 (box gr)) = .next t) ∧
    (∃ t, exec (.spanPrologue 0) (ordered eSpan [] (box gr)) = .next t) ∧
    (∃ t, exec (.prologueExchangeReceive 0 1 5) (box gr) = .next t) ∧
    (∃ t, exec (.prologueExchangeReceive 1 0 5) (prologued true) = .next t) ∧
    ∃ t, exec (.prologueExchangeReceive 1 0 5) (prologued false) = .next t :=
  let ⟨t, e, _⟩ := (h.1 (ordered eLaunch [] (box gr)) 0 eLaunch (next_of (by decide +kernel)) (fun k => absurd k (by decide +kernel))).1 2
    (by rfl)
  let ⟨⟨r, ws, bs, hd, code⟩, hr⟩ := ok_of (x := (Spec.fetched launching 0 eLaunch).checkLaunch 0 (fieldAt eLaunch 16 8)) (by decide +kernel)
  let ⟨w, _, n, _⟩ := (h.1 launching 0 eLaunch (next_of (by decide +kernel)) (fun k => absurd k (by decide +kernel))).2 r ws bs hd code hr
  let ⟨u, f, _⟩ := h.2.1 (ordered eSpan span1 (box gr)) 0 eSpan
    { ident := 5, x := 0, y := 0, n4 := 1, n5 := 1, hops := [0], queue := 0, seq := 7, heard := [], complete := false }
    (next_of (by decide +kernel)) (by decide +kernel) (fun _ k => by cases k) (fun _ k => by cases k) (fun _ k => by cases k)
  let ⟨v, k, _⟩ := h.2.2.1 (ordered eSpan [] (box gr)) 0 eSpan (next_of (by decide +kernel)) (by decide +kernel)
  let heard : ∀ up, ¬ Spec.StillAwaited (prologued up) [(5, 1, 0)] span2 := fun up w => by
    rcases w with w | ⟨d, hd, w⟩
    · cases w
    · rcases List.mem_singleton.1 (show d ∈ [(1, 0)] from (by cases up <;> exact hd)) with rfl
      exact w (.head _)
  let alone : ∀ up, ∀ x ∈ (prologued up).spans, x ≠ span2 →
      Spec.StillAwaited (prologued up) [(5, 1, 0)] x ∧ (x.queue, x.seq) ≠ (span2.queue, span2.seq) :=
    fun _ x hx n => absurd (List.mem_singleton.1 hx) n
  let ⟨a, l, _⟩ := ((h.2.2.2 (prologued true) 1 0 5).2 span2 (.head _) (heard true) (alone true) (by decide)).1 (by decide)
  let ⟨b, m, _⟩ := ((h.2.2.2 (prologued false) 1 0 5).2 span2 (.head _) (heard false) (alone false) (by decide)).2 (by decide) (by decide)
  ⟨⟨t, e⟩, ⟨w, n⟩, ⟨u, f⟩, ⟨v, k⟩, ⟨_, (h.2.2.2 (box gr) 0 1 5).1 (fun _ k => by cases k)⟩, ⟨a, l⟩, b, m⟩

/-! ### Collectives, power, fabric, host -/

/-- A collective of two peers, this device rank 0, with one chunk of one n32 element. -/
def rec9 : CollRec :=
  { ident := 9, kind := 0, op := 0, fmt := Fmt.n32.code, cshift := 0, nchunk := 1, csize := 4, src := 0x10000, dst := 0x10A00,
    recAddr := 0x10B00, arg0 := 4, arg1 := 1 }
def coll9 : Coll :=
  { launch := 0, ident := 9, queue := 0, aspace := 0, rec_ := rec9, fired := [0], missing := [], got := [], peerFired := [], acc := [],
    sending := [], filled := [], settled := [], bytes := 0, saturated := 0, landed := 0, overflow := 0, dropped := 0, error := 0,
    failed := false }
def bound9 : Binding := { binding9 2 with ovf := 0x10C00, ovfrows := 1 }
def running (c : Coll) : State := { box gr with bindings := [bound9], colls := [c] }
def data9 (result : Bool) : Contribution :=
  { ident := 9, rank := 1, chunk := 0, offset := 0, result := result, sat := [], agree := true, poisoned := false, data := [5, 0, 0, 0] }
def row9 : Row := ⟨9, 1, 0, [0, 0, 0, 0]⟩
def row0 : Row := ⟨9, 0, 0, [0, 0, 0, 1]⟩
def first9 : RedElem := ⟨0, 1, 0, 3⟩
def chunks9 (kind : Nat) : Coll := { coll9 with rec_ := { rec9 with kind := kind } }

/-- What an earlier cycle brought, staged. -/
def brought (own : Option Nat) (a : Arrival) : Staged := ⟨0, own, a, []⟩
def arrived (c : Coll) (l : List Staged) : State := { running c with staged := l, cycle := 5 }

theorem due_of {c : Coll} {own : Option Nat} {a : Arrival} (hi : a.ident = 9) (hc : c.ident = 9) (ho : own = none ∨ own = some c.launch)
    (hu : (arrived c [brought own a]).usable a = true) : Spec.Due (arrived c [brought own a]) (brought own a) a c bound9 0 where
  alone := ⟨rfl, rfl, rfl, (by decide : 0 < 5)⟩
  own := ho
  runs := ⟨by simp [State.collNamed, arrived, running, hc, hi], by simp [State.collOf, arrived, running], by rw [hi]; rfl⟩
  usable := hu
  other := by simp [State.collNamed, arrived, running, hc]

theorem up_peers (s : State) (b : Binding) (p : Nat) (h : s.tableFor b p = none) : s.peerUp b p = true := by unfold State.peerUp; rw [h]

/-- A binding without staging, of which no collective runs. -/
def noQuota : State := { box gr with bindings := [{ bound9 with staging := 0 }] }

theorem witness_CollectiveEvents_arrivals (h : Obligations.CollectiveEvents) :
    (∃ t, exec (.collectiveDataReceive (data9 true)) (box gr) = .next t) ∧
    (∃ t, exec (.alltoallRowReceive row9) (running (chunks9 3)) = .next t) ∧
    (∃ t, exec (.collectiveRefusal 9 1 0) (running { coll9 with sending := [(1, .row row9, false)] }) = .next t) ∧
    (∃ t, exec (.rowReturn row9) (running { chunks9 3 with sending := [(1, .row row9, false)] }) = .next t) ∧
    (∃ t, exec (.chunkMissingReceive 9 1 0) (running coll9) = .next t) ∧
    (∃ t, exec (.chunkMissingReceive 9 1 0) (box gr) = .next t) ∧
    ∃ t, exec (.collectiveComplete 9) (running { chunks9 2 with settled := [0, 1] }) = .next t :=
  let ⟨t1, e1, _⟩ := (h.1 (.collectiveDataReceive (data9 true)) (.data (data9 true)) (box gr) (.inl ⟨_, rfl, rfl⟩)).1 (.inr (by decide))
  let ⟨t2, e2, _⟩ := (h.1 (.alltoallRowReceive row9) (.row row9) (running (chunks9 3)) (.inr ⟨_, rfl, rfl⟩)).1 (.inl (by decide))
  let H := h.2.2.2.2.2.2
  let ⟨t4, _, e4, _⟩ := H.1 (running { chunks9 3 with sending := [(1, .row row9, false)] }) row9
    { chunks9 3 with sending := [(1, .row row9, false)] } bound9 ⟨rfl, rfl, rfl⟩ ⟨_, .head _, rfl⟩
  let ⟨t3, _, e3, _⟩ := H.2.1 (running { coll9 with sending := [(1, .row row9, false)] }) 9 1 0
    { coll9 with sending := [(1, .row row9, false)] } (.row row9) rfl rfl (by decide +kernel) (fun b _ => up_peers _ b 1 rfl)
  let ⟨t5, _, e5, _⟩ := H.2.2.2.1 (running coll9) 9 1 0 coll9 bound9 ⟨rfl, rfl, rfl⟩
  let ⟨t7, e7, _⟩ := H.2.2.2.2 (running { chunks9 2 with settled := [0, 1] }) 9 { chunks9 2 with settled := [0, 1] } bound9
    [(0x290000B08, 56)] [(0x290000B00, 8)] (fun _ k => by cases k) ⟨rfl, rfl, rfl⟩ (by decide +kernel) (by decide +kernel) (by decide +kernel)
  ⟨⟨t1, e1⟩, ⟨t2, e2⟩, ⟨t3, e3⟩, ⟨t4, e4⟩, ⟨t5, e5⟩, ⟨_, H.2.2.1 (box gr) 9 1 0 (.inl rfl)⟩, t7, e7⟩

theorem witness_CollectiveEvents_refused (h : Obligations.CollectiveEvents) :
    ∃ t, exec (.collectiveDataReceive (data9 false)) noQuota = .next t :=
  let ⟨t, e, _⟩ := (h.1 (.collectiveDataReceive (data9 false)) (.data (data9 false)) noQuota (.inl ⟨_, rfl, rfl⟩)).2
    (by decide) (by decide +kernel) (fun b _ => up_peers _ b 1 rfl)
  ⟨t, e⟩

theorem witness_CollectiveEvents_data (h : Obligations.CollectiveEvents) :
    (∃ t, exec (.collectiveComplete 0) (arrived coll9 [brought none (.data (data9 true))]) = .next t) ∧
    (∃ t, exec (.collectiveComplete 0) (arrived coll9 [brought none (.data (data9 false))]) = .next t) ∧
    (∃ t, exec (.collectiveComplete 0) (arrived { coll9 with acc := [first9] } [brought none (.data (data9 false))]) = .next t) ∧
    ∃ t, exec (.collectiveComplete 0) (arrived (chunks9 2) [brought none (.data { data9 true with agree := false })]) = .next t :=
  let ⟨t1, _, e1, _⟩ := h.2.1 (arrived coll9 [brought none (.data (data9 true))]) _ (data9 true) coll9 bound9 0 [(0x290000A00, 4)]
    (due_of rfl rfl (.inl rfl) (by decide)) rfl rfl rfl (by decide) (by decide) (by decide +kernel)
  let ⟨t2, _, e2, _⟩ := (h.2.2.1 (arrived coll9 [brought none (.data (data9 false))]) _ (data9 false) coll9 bound9 0
    (due_of rfl rfl (.inl rfl) (by decide)) rfl rfl rfl (by decide) (by decide)).1 (by decide)
  let c := { coll9 with acc := [first9] }
  let ⟨t3, _, e3, _⟩ := (h.2.2.1 (arrived c [brought none (.data (data9 false))]) _ (data9 false) c bound9 0
    (due_of rfl rfl (.inl rfl) (by decide)) rfl rfl rfl (by decide) (by decide)).2 [(0x290000A00, 4)] (by decide) (by decide)
    (fun _ p _ => up_peers _ _ p rfl) (by decide +kernel)
  let ⟨t4, _, e4, _⟩ := h.2.2.2.1 (arrived (chunks9 2) [brought none (.data { data9 true with agree := false })]) _
    { data9 true with agree := false } (chunks9 2) bound9 0 (due_of rfl rfl (.inl rfl) (by decide)) (.inl rfl) (by decide)
  ⟨⟨t1, e1⟩, ⟨t2, e2⟩, ⟨t3, e3⟩, t4, e4⟩

theorem witness_CollectiveEvents_rows (h : Obligations.CollectiveEvents) :
    (∃ t, exec (.collectiveComplete 0) (arrived (chunks9 3) [brought none (.row row9)]) = .next t) ∧
    (∃ t, exec (.collectiveComplete 0) (arrived { chunks9 3 with landed := 1 } [brought none (.row row9)]) = .next t) ∧
    (∃ t, exec (.collectiveComplete 0) (arrived { chunks9 3 with landed := 1 } [brought (some 0) (.row row0)]) = .next t) ∧
    ∃ t, exec (.collectiveComplete 0) (arrived (chunks9 3) [brought none (.row row9), brought none (.row row0)]) = .next t :=
  let A := h.2.2.2.2.1
  let ⟨t1, _, e1, _⟩ := (A (arrived (chunks9 3) [brought none (.row row9)]) _ row9 (chunks9 3) bound9 0
    (due_of rfl rfl (.inl rfl) (by decide))).2.2 [(0x290000A00, 4)] (by decide) (by decide) (by decide +kernel)
  let c := { chunks9 3 with landed := 1 }
  let ⟨t2, _, e2, _⟩ := (A (arrived c [brought none (.row row9)]) _ row9 c bound9 0 (due_of rfl rfl (.inl rfl) (by decide))).1
    (by decide) rfl (up_peers _ _ 1 rfl)
  let ⟨t3, _, e3, _⟩ := (A (arrived c [brought (some 0) (.row row0)]) _ row0 c bound9 0 (due_of rfl rfl (.inr rfl) (by decide))).2.1
    (by decide) rfl
  let s := arrived (chunks9 3) [brought none (.row row9), brought none (.row row0)]
  let ⟨t4, _, e4, _⟩ := h.2.2.2.2.2.1 s (brought none (.row row0)) (brought none (.row row9)) row0 row9 (chunks9 3) bound9 0
    [(0x290000A00, 4)] (.inr rfl) rfl rfl (by decide) rfl rfl rfl rfl (by decide) (by decide) (.inr ⟨rfl, by decide⟩) rfl ⟨rfl, rfl, rfl⟩
    rfl (by decide) (by decide) rfl (by decide) (by decide +kernel) (up_peers _ _ 1 rfl)
  ⟨⟨t1, e1⟩, ⟨t2, e2⟩, ⟨t3, e3⟩, t4, e4⟩

/-- The loaded launch with a collective of two chunks, of which its crew fires the first. -/
def firing (kind : Nat) (fired : List Nat) : Coll := { chunks9 kind with fired := fired, rec_ := { rec9 with kind := kind, nchunk := 2 } }

theorem witness_Retirement_collective (h : Obligations.Retirement) :
    (∃ t, exec (.crewRetire 0) (emptied (running coll9)) = .next t) ∧
    ∃ t, exec (.crewRetire 0) (emptied (running (firing 0 [1]))) = .next t :=
  let A := fun (c : Coll) m => h.2.2 (emptied (running c)) 0 loadCrew (loadLaunch 0) c bound9 m
  let m1 := mayRetire_of (s := emptied (running coll9)) rfl rfl rfl rfl (by decide) (by decide) (by decide) ⟨by decide, by decide⟩
  let m2 := mayRetire_of (s := emptied (running (firing 0 [1]))) rfl rfl rfl rfl (by decide) (by decide) (by decide)
    ⟨by decide, by decide⟩
  let ⟨t, _, e, _⟩ := (A coll9 m1 rfl rfl rfl rfl rfl (fun p _ => up_peers _ _ p rfl)).1 (by decide)
  let ⟨u, _, f, _⟩ := (A (firing 0 [1]) m2 rfl rfl rfl rfl rfl (fun p _ => up_peers _ _ p rfl)).2 (by decide)
    (fun k => by cases k) [(0x290000000, 4)] (by decide +kernel) (fun _ k => by cases k) (fun _ k => by cases k) (fun _ k => by cases k)
  ⟨⟨t, e⟩, u, f⟩

/-- A bind whose ident a collective still uses. -/
theorem witness_MemoryCommands_rebind (h : Obligations.MemoryCommands) :
    ∃ t, exec (.bindCollective 0) { ordered eBind (bind9 0) (box gr) with colls := [coll9] } = .next t :=
  let ⟨t, e, _⟩ := ((h.2.2.2.2.2.2.1 { ordered eBind (bind9 0) (box gr) with colls := [coll9] } 0 eBind (bind9 0) (binding9 0)
    (next_of (by decide +kernel)) rfl (by decide +kernel) (by decide +kernel)).1 (.inl rfl)).2 (by decide)
  ⟨t, e⟩

/-- A box whose power system is on. -/
def powered (f : Power → Power) : State := { box gr with power := f { (box gr).power with on := true } }

/-- What the temperature and charge sensors say. -/
def calm : Measure := ⟨1000, [], [], []⟩

/-- A power system with tokens left over, whose scrub is on. -/
def surplus : Power → Power := fun p => { p with scrub := true, grant := 400, bucket := 100, stored := some p.capacity }

/-- A device whose peer at (1, 0) may announce steps. -/
def peered (f : Power → Power) : State := powered (fun p => f { p with enable := true, peers := [(0, 1 + 2 ^ 19)], steps := [(9, 100, 4)] })

theorem witness_PowerEvents (h : Obligations.PowerEvents) :
    (∃ t, exec (.coreBucketRefill 3) (box gr) = .next t) ∧
    (∃ t, exec (.fairnessHold 0) (core0 (fun c => { c with refilled := true }) (box { gr with tokenWait := 64 })) = .next t) ∧
    (∃ t, exec (.backfillDraw .none) (powered id) = .next t) ∧
    (∃ t, exec (.backfillDraw (.uncorrectable 0)) (powered surplus) = .next t ∧ 0 ∈ t.poison) ∧
    (∃ t, exec (.winderBoundary calm) { powered (fun p => { p with enable := false }) with cycle := 2048 } = .next t) ∧
    (∃ t, exec (.intentClaimReceive 2 0 9 100 4) (peered id) = .next t) ∧
    ∃ t, exec (.intentClaimReceive 1 0 9 100 3) (peered id) = .next t :=
  let s2 := core0 (fun c => { c with refilled := true }) (box { gr with tokenWait := 64 })
  let ⟨t1, e1, _⟩ := h.1 (box gr) 3 (by decide) rfl (by decide) (by decide)
  let ⟨t2, _, e2, _⟩ := h.2.1 s2 0 rfl (by decide) ⟨(0, 0, { gr with tokenWait := 64 }), by decide +kernel, rfl, by decide⟩
  let ⟨t3, e3, _⟩ := h.2.2.1 (powered id) .none rfl
  let ⟨t6, e6, _, _, _, p6⟩ := h.2.2.1 (powered surplus) (.uncorrectable 0) rfl
  let ⟨t4, e4, _⟩ := h.2.2.2.1 { powered (fun p => { p with enable := false }) with cycle := 2048 } calm (by decide) rfl rfl rfl rfl rfl rfl
  let ⟨t5, e5, _⟩ := h.2.2.2.2.2 (peered id) 1 0 9 100 3 (by decide)
  ⟨⟨t1, e1⟩, ⟨t2, e2⟩, ⟨t3, e3⟩, ⟨t6, e6, (p6 0 (by decide) (by decide) rfl (by decide)).2 (by decide)⟩, ⟨t4, e4⟩,
    ⟨_, h.2.2.2.2.1 (peered id) 2 0 9 100 4 (by decide)⟩, t5, e5⟩

/-- The two cases of the last clause: fewer claims than allowed, and as many. -/
theorem witness_PowerEvents_claims (h : Obligations.PowerEvents) :
    (∃ t, exec (.intentClaimReceive 1 0 9 100 3) (peered (fun p => { p with k := 2 })) = .next t ∧ t.power.steps = [(9, 100, 4)]) ∧
    ∃ t, exec (.intentClaimReceive 1 0 9 100 3) (peered (fun p => { p with k := 1 })) = .next t ∧
      ∃ next, t.power.steps = [(next, 100, 4)] ∧ 9 < next :=
  let ⟨t1, e1, _, _, _, p1⟩ := h.2.2.2.2.2 (peered (fun p => { p with k := 2 })) 1 0 9 100 3 (by decide)
  let ⟨t2, e2, _, _, _, p2⟩ := h.2.2.2.2.2 (peered (fun p => { p with k := 1 })) 1 0 9 100 3 (by decide)
  let ⟨n, k, l, _⟩ := (p2 9 100 4 rfl rfl).2 (by decide) (by decide)
  ⟨⟨t1, e1, (p1 9 100 4 rfl rfl).1 (by decide)⟩, t2, e2, n, k, l⟩

/-- A box with port 2 trained and a span of two devices over it, this one the second. -/
def fabric : State :=
  { box gr with
    ports := tset (box gr).ports 2 { (box gr).port 2 with trained := true, down := false }, time := 2 ^ 24, coordX := 1
    spans := [{ ident := 5, x := 0, y := 0, n4 := 2, n5 := 1, hops := [2, 0], queue := 0, seq := 0, heard := [], complete := true }] }

def flit0 : Flit := ⟨0, 0, 1, 0, 0, 1, 0, 5, 0, 8, []⟩

/-- A time base that is due to advance, with ticks to work off: none, one to add, one to leave out. -/
def timed (debt : Int) : State := { fabric with timeFrac := 20, time := 2 ^ 20 - 1, timeDebt := debt, steer := 0 }

theorem witness_FabricEvents (h : Obligations.FabricEvents) :
    (∃ t, exec (.timeSyncSend 2) fabric = .next t) ∧
    (∃ t, exec (.timeSyncReceive 2 16777217) fabric = .next t) ∧
    (∃ t, exec (.flitForward 2 { flit0 with kind := 7 }) fabric = .next t) ∧
    (∃ t, exec (.flitForward 2 { flit0 with dx := 1 }) fabric = .next t) ∧
    (∃ t, exec (.flitForward 3 flit0) fabric = .next t) ∧
    (∃ t, exec (.flitForward 3 { flit0 with dx := 2 }) fabric = .next t) ∧
    (∃ t, exec (.routeFailureReceive 5) fabric = .next t) ∧
    (∃ t, exec (.portWindow 2 ⟨0, 0, 0, 0, 0⟩) fabric = .next t) ∧
    (∃ t, exec (.portDown 2) fabric = .next t) ∧
    (∃ t, exec (.linkTrained false 4) fabric = .next t) ∧
    ∃ t, exec (.linkTrained true 1) fabric = .next t :=
  let ⟨t1, e1, _⟩ := h.1 fabric 2 (by decide) (by decide)
  let ⟨t2, e2, _⟩ := h.2.1 fabric 2 16777217
  let F := h.2.2.2.1
  let A := F fabric 2 { flit0 with kind := 7 } (by decide)
  let ⟨t4, e4, _⟩ := (F fabric 2 { flit0 with dx := 1 } (by decide)).2.1 (by decide) (.inl (by decide))
  let ⟨t5, e5, _⟩ := ((F fabric 3 flit0 (by decide)).2.2 (by decide) (by decide)).1 2 (by decide)
  let ⟨t6, e6, _⟩ := ((F fabric 3 { flit0 with dx := 2 } (by decide)).2.2 (by decide) (by decide)).2 (by decide)
  let ⟨t7, e7, _⟩ := h.2.2.2.2.1 fabric 5
  let ⟨t8, e8, _⟩ := h.2.2.2.2.2.1 fabric 2 ⟨0, 0, 0, 0, 0⟩ (by decide) (by decide)
  let ⟨t9, e9, _⟩ := h.2.2.2.2.2.2.1 fabric 2
  let B := h.2.2.2.2.2.2.2 fabric
  let ⟨t11, e11, _⟩ := (B 1).2 (by decide)
  ⟨⟨t1, e1⟩, ⟨t2, e2⟩, ⟨_, A.1 (by decide)⟩, ⟨t4, e4⟩, ⟨t5, e5⟩, ⟨t6, e6⟩, ⟨t7, e7⟩, ⟨t8, e8⟩, ⟨t9, e9⟩, ⟨_, (B 4).1⟩, t11, e11⟩

/-- The two cases of a port that goes down: no prologue waits behind it, or one does. -/
theorem witness_FabricEvents_port (h : Obligations.FabricEvents) :
    (∃ t, exec (.portDown 2) fabric = .next t ∧ Spec.Logged fabric t { kind := 11, unit := 12 }) ∧
    ∃ t, exec (.portDown 2) (prologued true) = .next t ∧ span2 ∉ t.spans :=
  let ⟨t, e, _, k, _⟩ := h.2.2.2.2.2.2.1 fabric 2
  let ⟨u, f, _, _, l⟩ := h.2.2.2.2.2.2.1 (prologued true) 2
  ⟨⟨t, e, k (fun x hx w => by rcases List.mem_singleton.1 hx with rfl; cases w.1)⟩,
    u, f, (l span2 (.head _) ⟨rfl, by decide⟩).2.2⟩

theorem witness_FabricEvents_time (h : Obligations.FabricEvents) :
    fabric.advanceTime.timeFrac = 10 ∧ (timed 0).advanceTime.time = 2 ^ 20 ∧ (timed 1).advanceTime.time = 2 ^ 20 + 1 ∧
    (timed (-1)).advanceTime.time = 2 ^ 20 - 1 :=
  let H := h.2.2.1
  ⟨by rw [(H fabric).1 (by decide)]; rfl, (((H (timed 0)).2 (by decide)).2.1 (.inl rfl)).1,
    (((H (timed 1)).2 (by decide)).2.2.1 (by decide) (by decide)).1,
    (((H (timed (-1))).2 (by decide)).2.2.2.1 (by decide) (by decide)).1⟩

/-- A box whose BAR0 is there. -/
def barred (s : State) : State := { s with bringUp := 7 }

/-- A box whose link is CXL and stands. -/
def cxld : State := { barred (box gr) with cxl := true, hostLinks := [0], contextBase := 2 ^ 37 }

/-- The mailbox with an image of four bytes open. -/
def opened (m : Mbox → Mbox) : State :=
  { barred (box gr) with mbox := m { (box gr).mbox with arg := 2, image := some (4, [1, 2]) } }

def boot0 : Boot :=
  { bankOut := [(511, 7)], present := List.replicate 12 true, ctxDie := 0, coordX := 0, coordY := 0, flux := 400,
    area := 400, capacity := 3000000, mgmt := [], links := [0], cxl := false, ports := [2], images := [], romOk := true, imagesOk := true,
    memOk := true }

theorem witness_HostEvents_registers (h : Obligations.HostEvents) :
    (∃ t, exec (.registerWrite 0x101 4 0) (barred (box gr)) = .next t) ∧
    (∃ t, exec (.registerWrite 0x40000 4 0) (barred (box gr)) = .next t) ∧
    (∃ t, exec (.registerWrite 0x10010 4 3) (barred (box gr)) = .next t) ∧
    (∃ t, exec (.registerWrite 0x100 8 0) (barred { box gr with queues := [(0, { Queue.init with enable := true })] }) = .next t) ∧
    ∃ t, exec (.registerWrite 0x100 8 0x20000) (barred { box gr with queues := [] }) = .next t :=
  let ⟨t1, e1, _⟩ := (h.1 (barred (box gr)) 0x101 4 0).1 (by decide)
  ⟨⟨t1, e1⟩, ⟨_, (h.1 (barred (box gr)) 0x40000 4 0).2.1 (by decide) (by decide) (by decide) (by decide)⟩,
    ⟨_, (h.1 (barred (box gr)) 0x10010 4 3).2.2.1 0 (by decide) (by decide) rfl rfl⟩,
    ⟨_, (h.1 (barred { box gr with queues := [(0, { Queue.init with enable := true })] }) 0x100 8 0).2.2.2.1 (by decide) rfl rfl (by decide)⟩,
    _, (h.1 (barred { box gr with queues := [] }) 0x100 8 0x20000).2.2.2.2 (by decide) rfl rfl (by decide)⟩

theorem witness_HostEvents_window (h : Obligations.HostEvents) :
    let s := { barred (box gr) with memwinBase := 0x290000000 }
    (∃ t, exec (.memwinRead 0 4) s = .next t) ∧ (∃ t, exec (.memwinRead 0 4) { s with memwinBase := 0x800000000000 } = .next t) ∧
    (∃ t, exec (.memwinWrite 0 [1]) s = .next t) ∧ ∃ t, exec (.memwinWrite 0 [1]) { s with memwinBase := 0x800000000000 } = .next t :=
  let s := { barred (box gr) with memwinBase := 0x290000000 }
  let u := { s with memwinBase := 0x800000000000 }
  let A := h.2.1 s 0 4 [1] (by decide)
  let B := h.2.1 u 0 4 [1] (by decide)
  let no : ∀ n, Spec.WindowReaches u 0x800000000000 n → False := fun n k => by
    have : populated 0x800000000000 n = false := by simp [populated]
    simp [Spec.WindowReaches, State.reachable, this] at k
  let ⟨t2, e2, _⟩ := B.2.1 (by decide) (no 4)
  let ⟨t3, e3, _⟩ := A.2.2.1 (by decide) (by unfold Spec.WindowReaches; decide +kernel)
  let ⟨t4, e4, _⟩ := B.2.2.2 (by decide) (no 1)
  ⟨⟨_, A.1 (by decide) (by unfold Spec.WindowReaches; decide +kernel) (fun x k => by cases k)⟩, ⟨t2, e2⟩, ⟨t3, e3⟩, t4, e4⟩

theorem witness_HostEvents_cxl (h : Obligations.HostEvents) :
    (∃ t, exec (.hostCxlMemAccess (.read 0x290000000 4)) cxld = .next t) ∧
    (∃ t, exec (.hostCxlMemAccess (.write 0x290000000 [7])) cxld = .next t) ∧
    ∃ t, exec (.hostCxlMemAccess (.write 0 [7])) cxld = .next t :=
  let ⟨t2, e2, _⟩ := (h.2.2.1 cxld 0x290000000 1 [7] rfl (by decide) (by decide)).2.1 (by decide) (by decide +kernel) (by decide +kernel)
  let ⟨t3, e3, _⟩ := (h.2.2.1 cxld 0 1 [7] rfl (by decide) (by decide)).2.2 (by decide) (by decide +kernel)
  ⟨⟨_, (h.2.2.1 cxld 0x290000000 4 [] rfl (by decide) (by decide)).1 (by decide) (by decide +kernel) (by decide +kernel) (fun x k => by cases k)⟩,
    ⟨t2, e2⟩, t3, e3⟩

theorem witness_HostEvents_mailbox (h : Obligations.HostEvents) :
    (∃ t, exec .mboxOpen (opened id) = .next t) ∧
    (∃ t, exec .mboxOpen (opened (fun m => { m with arg := 67108865 })) = .next t) ∧
    (∃ t, exec .mboxAppend (opened id) = .next t) ∧ (∃ t, exec .mboxDiscard (opened id) = .next t) ∧
    (∃ t, exec .mboxVerifyStore (opened (fun m => { m with image := none })) = .next t) ∧
    ∃ t, exec .mboxVerifyStore (opened id) = .next t :=
  let A := h.2.2.2.1 (opened id)
  let B := h.2.2.2.1 (opened (fun m => { m with arg := 67108865 }))
  let C := h.2.2.2.1 (opened (fun m => { m with image := none }))
  let ⟨t6, e6, _⟩ := A.2.2.2.2.2.1 4 [1, 2] rfl (by decide)
  ⟨⟨_, A.1 (by decide)⟩, ⟨_, B.2.1 (by decide)⟩, ⟨_, A.2.2.1 4 [1, 2] rfl (by decide) (by decide) (by decide)⟩, ⟨_, A.2.2.2.1 (by decide)⟩,
    ⟨_, (C.2.2.2.2.1 rfl).2.1⟩, t6, e6⟩

/-- The first 24 bytes of an image of kind 1 and version 2 with an empty body. -/
def imageHead : List Byte := leBytes 0x56474C55 4 ++ leBytes 1 4 ++ leBytes 2 8 ++ leBytes 0 8

theorem fieldAt_append (a r : List Byte) (off n : Nat) (h : off + n ≤ a.length) : fieldAt (a ++ r) off n = fieldAt a off n := by
  unfold fieldAt
  rw [List.drop_append_of_le_length (by omega), List.take_append_of_le_length (by rw [List.length_drop]; omega)]

/-- The last hypothesis on the mailbox: an image with that head, the root's key and a signature that holds for it verifies. What
the two functions of the firmware's signatures answer is a value of the part, so that they stand as premises here. -/
theorem image_verifies (key sig : List Byte) (hk : key.length = 57) (hs : sig.length = 114) (hd : Config.shake256 key = Config.rootDigest)
    (he : Config.ed448Ok key (imageHead ++ key ++ zeros 47) sig = true) :
    verifyCode [0, 0, 0, 0] 242 (imageHead ++ (key ++ (zeros 47 ++ sig))) = 0 := by
  have hp : imageHead.length = 24 := by decide
  have hz : (zeros 47).length = 47 := by decide
  have f1 : fieldAt imageHead 0 4 = 0x56474C55 ∧ fieldAt imageHead 4 4 = 1 ∧ fieldAt imageHead 8 8 = 2 ∧ fieldAt imageHead 16 8 = 0 := by
    decide
  have d1 : (imageHead ++ (key ++ (zeros 47 ++ sig))).drop 24 = key ++ (zeros 47 ++ sig) := List.drop_left' hp
  have t1 : (key ++ (zeros 47 ++ sig)).take 57 = key := List.take_left' hk
  have d2 : (imageHead ++ (key ++ (zeros 47 ++ sig))).drop 81 = zeros 47 ++ sig := by
    rw [← List.append_assoc]; exact List.drop_left' (by rw [List.length_append, hp, hk])
  have t2 : (zeros 47 ++ sig).take 47 = zeros 47 := List.take_left' hz
  have d3 : (imageHead ++ (key ++ (zeros 47 ++ sig))).drop 128 = sig := by
    rw [← List.append_assoc, ← List.append_assoc]
    exact List.drop_left' (by rw [List.length_append, List.length_append, hp, hk, hz])
  have t3 : (imageHead ++ (key ++ (zeros 47 ++ sig))).take 128 = imageHead ++ key ++ zeros 47 := by
    rw [← List.append_assoc, ← List.append_assoc]
    exact List.take_left' (by rw [List.length_append, List.length_append, hp, hk, hz])
  have hl : (imageHead ++ (key ++ (zeros 47 ++ sig))).length = 242 := by simp only [List.length_append, hp, hk, hz, hs]
  have hv : allZero (zeros 47) = true := by decide
  have e0 := (fieldAt_append imageHead (key ++ (zeros 47 ++ sig)) 0 4 (by omega)).trans f1.1
  have e4 := (fieldAt_append imageHead (key ++ (zeros 47 ++ sig)) 4 4 (by omega)).trans f1.2.1
  have e8 := (fieldAt_append imageHead (key ++ (zeros 47 ++ sig)) 8 8 (by omega)).trans f1.2.2.1
  have e16 := (fieldAt_append imageHead (key ++ (zeros 47 ++ sig)) 16 8 (by omega)).trans f1.2.2.2
  simp only [verifyCode, e0, e4, e8, e16, hl, d1, t1, d2, t2, d3, t3, hd, he, hv, Nat.add_zero]
  simp

/-- A store with a boot image whose version lies below the minimum: whatever the firmware's functions say, it does not verify. -/
def oldImage : State := { box gr with stored := [⟨0, 1, [], [], []⟩], minVersion := [2, 0, 0, 0] }

theorem old_image_fails : imageGood [2, 0, 0, 0] ⟨0, 1, [], [], []⟩ = false := by
  have h : fieldAt (imageBytes ⟨0, 1, [], [], []⟩) 8 8 < [2, 0, 0, 0].getD (fieldAt (imageBytes ⟨0, 1, [], [], []⟩) 4 4) 0 := by decide
  unfold imageGood verifyCode
  simp only [if_pos h]
  repeat' split
  all_goals rfl

theorem witness_HostEvents_resets (h : Obligations.HostEvents) :
    (∃ t, exec (.doeAttestation (zeros 32)) (barred (box gr)) = .next t) ∧ (∃ t, exec .functionLevelReset (box gr) = .next t) ∧
    (∃ t, exec (.coldReset { boot0 with romOk := false }) (box gr) = .next t ∧ t.recovery = true) ∧
    (∃ t, exec (.coldReset boot0) oldImage = .next t ∧ t.recovery = true) ∧
    ∃ t, exec (.coldReset boot0) (box gr) = .next t :=
  let ⟨_, e1⟩ := h.2.2.2.2.1 (barred (box gr)) (zeros 32) rfl (.inl (by decide))
  let ⟨t2, e2, _⟩ := h.2.2.2.2.2.1 (box gr)
  let ⟨t4, e4, r4, _⟩ := h.2.2.2.2.2.2.1 (box gr) { boot0 with romOk := false } (.inl rfl)
  let ⟨t5, e5, r5, _⟩ := h.2.2.2.2.2.2.1 oldImage boot0 (.inr ⟨_, .head _, rfl, old_image_fails⟩)
  let ⟨t3, e3, _⟩ := h.2.2.2.2.2.2.2 (box gr) boot0 rfl rfl rfl (fun _ k => by rcases k with k | k <;> cases k)
  ⟨⟨_, e1⟩, ⟨t2, e2⟩, ⟨t4, e4, r4⟩, ⟨t5, e5, r5⟩, t3, e3⟩

/-! ### The whole machine -/

theorem witness_EncodeAndDecodeAgree (h : Obligations.EncodeAndDecodeAgree) :
    decodeWord 0x20820001 = .ok (.iaddImm 8 8 0 1) ∧ encode (.iaddImm 8 8 0 1) = some 0x20820001 :=
  ⟨(h.1 (.iaddImm 8 8 0 1) 0x20820001 [] (by decide) (by decide)).2.1, (h.2 (.iaddImm 8 8 0 1) 0x20820001 (by decide) rfl).2⟩

/-- The state of a word to run next. -/
def about (w : Nat) : State := State.reset.withFetchWord 32 w

/-- The group that stands in `about w`, with a word of an xir captured in each lane. -/
def captured (s : State) : State :=
  let sl := setXir gr.ctx.slices 0 (some { pc := 0x10200, words := List.replicate 32 0x20820001, pend := 0xFFFFFFFF, done := 0 })
  { s with agenda := [.issue 0] }.setGroup 0 0 { gr with ctx := { gr.ctx with slices := sl } }

/-- The page of the word is one that core 0's translation cache has dropped. -/
def uncached (s : State) : State := s.modCore 0 (fun c => { c with missed := [(0, 0x10000)] })

theorem witness_StepRunsTheDecodedInstruction_word (h : Obligations.StepRunsTheDecodedInstruction) :
    ∃ x, step (about 0x20820001) = x :=
  ⟨_, h.1 (about 0x20820001) 0 0 0x290000200 [] gr { cu with word := 0 } (loadLaunch 0x20820001) (.iaddImm 8 8 0 1) (by decide +kernel)
    (by decide +kernel) (by decide +kernel) rfl (by decide +kernel) (by decide +kernel) (by decide) (by decide)
    (by decide +kernel) (by decide +kernel) (by decide +kernel) (by decide +kernel) rfl⟩

theorem witness_StepRunsTheDecodedInstruction_xir (h : Obligations.StepRunsTheDecodedInstruction) : ∃ x, step (captured (about 0)) = x :=
  ⟨_, h.2.1 (captured (about 0)) 0 0 [] _ { cu with word := 0x20820001, xir := true } (.iaddImm 8 8 0 1) (by decide +kernel)
    (by decide +kernel) rfl rfl (by decide +kernel) rfl⟩

theorem witness_StepRunsTheDecodedInstruction_fetch (h : Obligations.StepRunsTheDecodedInstruction) :
    (∃ t, step (about 0xCCC00001) = .next t) ∧ (∃ t, step (uncached (about 0x20820001)) = .next t) ∧
    ∃ x, step (about 0x20820001) = x :=
  let A := fun w s n f d g => h.2.2.1 s 0 0 [] gr { cu with word := 0 } w n f d rfl g
  ⟨⟨_, (A 0xCCC00001 (about 0xCCC00001) (by decide +kernel) (by decide +kernel) (by decide +kernel) (by decide +kernel)
      (by decide +kernel)).2.2 .unassigned (by decide +kernel) rfl⟩,
    ⟨_, (A 0x20820001 (uncached (about 0x20820001)) (by decide +kernel) (by decide +kernel) (by decide +kernel) (by decide +kernel)
      (by decide +kernel)).1 (by decide +kernel)⟩,
    _, (A 0x20820001 (about 0x20820001) (by decide +kernel) (by decide +kernel) (by decide +kernel) (by decide +kernel)
      (by decide +kernel)).2.1 (.iaddImm 8 8 0 1) (by decide +kernel) rfl⟩

theorem witness_StepRunsTheDecodedInstruction_event (h : Obligations.StepRunsTheDecodedInstruction) :
    ∃ x, step { box gr with agenda := [.event (.portDown 2)] } = x :=
  ⟨_, h.2.2.2.1 { box gr with agenda := [.event (.portDown 2)] } (.portDown 2) [] rfl rfl⟩

theorem witness_StepRunsTheDecodedInstruction_own (h : Obligations.StepRunsTheDecodedInstruction) :
    ∃ x, step { about 0x20820001 with agenda := [] } = x :=
  ⟨_, h.2.2.2.2.1 { about 0x20820001 with agenda := [] } 0 rfl (by decide +kernel) (by decide +kernel) (by decide +kernel)
    (by decide +kernel)⟩

/-- Ends of a cycle: with a power boundary due, with an offer due, with a sample due, with nothing due. -/
def ending (s : State) : State := { s with agenda := [.tick] }
def boundaryDue : State := ending { powered (fun p => { p with enable := false }) with cycle := 2048 }
def offerDue : State := ending (about 0x20820001)
def sampleDue : State := ending { State.reset with groups := [], sampleOn := true, sampleJ := 0, cores := [(0, Core.init)] }
def idle : State := ending { State.reset with groups := [] }

theorem witness_StepRunsTheDecodedInstruction_tick (h : Obligations.StepRunsTheDecodedInstruction) :
    (∃ x, step boundaryDue = x) ∧ (∃ x, step offerDue = x) ∧ (∃ t, step sampleDue = .next t) ∧ ∃ t, step idle = .next t ∧ t.cycle = 1 :=
  let T := h.2.2.2.2.2
  let ⟨t, ht⟩ := Option.isSome_iff_exists.1 (show ({ boundaryDue with agenda := [] }.firstTimed).isSome = true by decide +kernel)
  let ⟨u, hu⟩ := Option.isSome_iff_exists.1
    (show ({ sampleDue with agenda := [] }.firstChange { sampleDue with agenda := [] }.lateMoves).isSome = true by decide +kernel)
  let ⟨e, c⟩ := (T idle [] rfl).2.2.2 (by decide +kernel) (by decide +kernel) (by decide +kernel)
  ⟨⟨_, (T boundaryDue [] rfl).1 t ht⟩, ⟨_, (T offerDue [] rfl).2.1 0 (by decide +kernel) (by decide +kernel)⟩,
    ⟨_, (T sampleDue [] rfl).2.2.1 u (by decide +kernel) (by decide +kernel) hu⟩, _, e, c⟩

theorem witness_EveryStepAnswers (h : Obligations.EveryStepAnswers) :
    (∃ t, step (box gr) = .next t) ∧ (∃ t, step State.reset = .next t) ∧
    (∃ t, exec (.portDown 2) (box gr) = .next t) ∧ ∃ t, exec .exit (box gr) = .next t :=
  ⟨h.1 (box gr), h.1 State.reset, h.2.2.1 (.portDown 2) (box gr) rfl, h.2.2.2 .exit (box gr) cu gr rfl rfl⟩

/-- The premise holds at reset, and a step from it answers a next state. -/
theorem witness_StepsKeepTheMachineSound (h : Obligations.StepsKeepTheMachineSound) (r : Obligations.ResetState) :
    ∃ t, step { State.reset with agenda := [.event (.portDown 2)] } = .next t ∧ Sound t :=
  have s0 : Sound { State.reset with agenda := [.event (.portDown 2)] } := ⟨r.1.mem, r.1.groups, r.1.cores, r.1.store⟩
  match e : step { State.reset with agenda := [.event (.portDown 2)] } with
  | .next t => ⟨t, rfl, h _ t s0 e⟩
  | .fault f => by have : (step { State.reset with agenda := [.event (.portDown 2)] } matches .next _) = true := by decide +kernel
                   rw [e] at this; cases this
  | .refused f => by have : (step { State.reset with agenda := [.event (.portDown 2)] } matches .next _) = true := by decide +kernel
                     rw [e] at this; cases this

/-! ### Decoding: words packed by hand from the formats of R174 and the codes of R190 to R207 -/

/-- R193: integer words. -/
theorem test_decode_integer :
    decodeWord 0x043A5680 = .ok (.iadd 3 41 22 2) ∧ decodeWord 0x043A5681 = .ok (.isub 3 41 22 2) ∧
    decodeWord 0x043A5682 = .ok (.imulLo 3 41 22 2) ∧ decodeWord 0x043A5683 = .ok (.imulHiS32 3 41 22 2) ∧
    decodeWord 0x043A5684 = .ok (.imulHiN32 3 41 22 2) ∧ decodeWord 0x043A5685 = .ok (.iminS32 3 41 22 2) ∧
    decodeWord 0x043A5686 = .ok (.iminN32 3 41 22 2) ∧ decodeWord 0x043A5687 = .ok (.imaxS32 3 41 22 2) ∧
    decodeWord 0x043A5688 = .ok (.imaxN32 3 41 22 2) ∧ decodeWord 0x043A568B = .ok (.idivS32 3 41 22 2) ∧
    decodeWord 0x043A568C = .ok (.idivN32 3 41 22 2) ∧ decodeWord 0x043A568D = .ok (.iremS32 3 41 22 2) ∧
    decodeWord 0x043A568E = .ok (.iremN32 3 41 22 2) ∧ decodeWord 0x043A5690 = .ok (.iaddSatS32 3 41 22 2) ∧
    decodeWord 0x043A5691 = .ok (.iaddSatN32 3 41 22 2) ∧ decodeWord 0x043A5692 = .ok (.isubSatS32 3 41 22 2) ∧
    decodeWord 0x043A5693 = .ok (.isubSatN32 3 41 22 2) ∧ decodeWord 0x043A4089 = .ok (.iabsS32 3 41 2) ∧
    decodeWord 0x043A408A = .ok (.ineg 3 41 2) ∧ decodeWord 0x044A9660 = .ok (.iadd64 4 42 22 1) ∧
    decodeWord 0x044A9661 = .ok (.isub64 4 42 22 1) ∧ decodeWord 0x044A9662 = .ok (.imulLo64 4 42 22 1) ∧
    decodeWord 0x044A9665 = .ok (.iminS64 4 42 22 1) ∧ decodeWord 0x044A9666 = .ok (.iminN64 4 42 22 1) ∧
    decodeWord 0x044A9667 = .ok (.imaxS64 4 42 22 1) ∧ decodeWord 0x044A9668 = .ok (.imaxN64 4 42 22 1) ∧
    decodeWord 0x044A5763 = .ok (.imulWideS32 4 41 23 1) ∧ decodeWord 0x044A5764 = .ok (.imulWideN32 4 41 23 1) :=
  ⟨rfl, rfl, rfl, rfl, rfl, rfl, rfl, rfl, rfl, rfl, rfl, rfl, rfl, rfl, rfl, rfl, rfl, rfl, rfl, rfl, rfl, rfl, rfl, rfl, rfl,
  rfl, rfl, rfl⟩

/-- R200, R201: immediate and three-source integer words. -/
theorem test_decode_immediate :
    decodeWord 0x1C503ABC = .ok (.mov 5 3 0xABC) ∧ decodeWord 0x20585801 = .ok (.iaddImm 5 33 1 0x801) ∧
    decodeWord 0x24585801 = .ok (.imulLoImm 5 33 1 0x801) ∧ decodeWord 0x28585801 = .ok (.andImm 5 33 1 0x801) ∧
    decodeWord 0x2C585801 = .ok (.orImm 5 33 1 0x801) ∧ decodeWord 0x30585801 = .ok (.xorImm 5 33 1 0x801) ∧
    decodeWord 0x3458501F = .ok (.shlImm 5 33 1 31) ∧ decodeWord 0x3458541F = .ok (.shrNImm 5 33 1 31) ∧
    decodeWord 0x3458581F = .ok (.shrSImm 5 33 1 31) ∧ decodeWord 0x34585C1F = .ok (.rotlImm 5 33 1 31) ∧
    decodeWord 0x38585407 = .ok (.bfeNImm 5 33 1 32 7) ∧ decodeWord 0x3858593C = .ok (.bfeSImm 5 33 1 9 28) ∧
    decodeWord 0x3C58509E = .ok (.bfi 5 33 1 4 30) ∧ decodeWord 0x181083FE = .ok (.imad 1 2 3 63 2) ∧
    decodeWord 0x1410831E = .ok (.sel 1 2 3 7 2) :=
  ⟨rfl, rfl, rfl, rfl, rfl, rfl, rfl, rfl, rfl, rfl, rfl, rfl, rfl, rfl, rfl⟩

/-- R194: bit words. -/
theorem test_decode_bit :
    decodeWord 0x083A5680 = .ok (.and_ 3 41 22 2) ∧ decodeWord 0x083A5681 = .ok (.or_ 3 41 22 2) ∧
    decodeWord 0x083A5682 = .ok (.xor_ 3 41 22 2) ∧ decodeWord 0x083A5683 = .ok (.andn 3 41 22 2) ∧
    decodeWord 0x083A5684 = .ok (.orn 3 41 22 2) ∧ decodeWord 0x083A5688 = .ok (.shl 3 41 22 2) ∧
    decodeWord 0x083A5689 = .ok (.shrN 3 41 22 2) ∧ decodeWord 0x083A568A = .ok (.shrS 3 41 22 2) ∧
    decodeWord 0x083A568B = .ok (.rotl 3 41 22 2) ∧ decodeWord 0x083A5698 = .ok (.bfeN 3 41 22 2) ∧
    decodeWord 0x083A5699 = .ok (.bfeS 3 41 22 2) ∧ decodeWord 0x083A4085 = .ok (.not_ 3 41 2) ∧
    decodeWord 0x083A4090 = .ok (.popc 3 41 2) ∧ decodeWord 0x083A4091 = .ok (.clz 3 41 2) ∧
    decodeWord 0x083A4092 = .ok (.ctz 3 41 2) ∧ decodeWord 0x083A4093 = .ok (.brev 3 41 2) ∧
    decodeWord 0x084A9760 = .ok (.shl64 4 42 23 1) ∧ decodeWord 0x084A9761 = .ok (.shrN64 4 42 23 1) ∧
    decodeWord 0x084A9762 = .ok (.shrS64 4 42 23 1) ∧ decodeWord 0x083A8068 = .ok (.popc64 3 42 1) ∧
    decodeWord 0x083A8069 = .ok (.clz64 3 42 1) :=
  ⟨rfl, rfl, rfl, rfl, rfl, rfl, rfl, rfl, rfl, rfl, rfl, rfl, rfl, rfl, rfl, rfl, rfl, rfl, rfl, rfl, rfl⟩

/-- R195, R196: compare and mask words. -/
theorem test_decode_mask :
    decodeWord 0x0C724B0D = .ok (.icmp 7 9 11 .n32 .ge) ∧ decodeWord 0x0C120A12 = .ok (.icmp 1 8 10 .s64 .lt) ∧
    decodeWord 0x48210517 = .ok (.fcmp 2 4 5 .bf16 .ord) ∧ decodeWord 0x10518700 = .ok (.mand 5 6 7) ∧
    decodeWord 0x10518701 = .ok (.mor 5 6 7) ∧ decodeWord 0x10518702 = .ok (.mxor 5 6 7) ∧
    decodeWord 0x10518703 = .ok (.mandn 5 6 7) ∧ decodeWord 0x10518004 = .ok (.mnot 5 6) ∧ decodeWord 0x10518005 = .ok (.mmov 5 6) ∧
    decodeWord 0x13D18008 = .ok (.mpop 61 6) ∧ decodeWord 0x13D18009 = .ok (.mfirst 61 6) ∧
    decodeWord 0x13D1800A = .ok (.mtov 61 6) ∧ decodeWord 0x105F800B = .ok (.vtom 5 62) :=
  ⟨rfl, rfl, rfl, rfl, rfl, rfl, rfl, rfl, rfl, rfl, rfl, rfl, rfl⟩

/-- R199, R205, R227: control-flow words. -/
theorem test_decode_control :
    decodeWord 0xD0040001 = .ok (.br .always 0 0x40001) ∧ decodeWord 0xD07C0001 = .ok (.br .t 7 0x40001) ∧
    decodeWord 0xD0B40001 = .ok (.br .f 6 0x40001) ∧ decodeWord 0xD0EC0001 = .ok (.br .any 5 0x40001) ∧
    decodeWord 0xD1240001 = .ok (.br .all 4 0x40001) ∧ decodeWord 0xD15C0001 = .ok (.br .none 3 0x40001) ∧
    decodeWord 0xD5100009 = .ok (.call .all 2 9) ∧ decodeWord 0xD8000000 = .ok .join ∧ decodeWord 0xD8028001 = .ok (.jmp 10) ∧
    decodeWord 0xD8C28002 = .ok (.calli 12 10) ∧ decodeWord 0xD8028003 = .ok (.ret 10) ∧
    decodeWord 0xDC0000A5 = .ok (.regang 0xA5) :=
  ⟨rfl, rfl, rfl, rfl, rfl, rfl, rfl, rfl, rfl, rfl, rfl, rfl⟩

/-- R197, R200: float words. -/
theorem test_decode_float :
    decodeWord 0x403A5680 = .ok (.fadd 3 41 22 2 .f32) ∧ decodeWord 0x403A5689 = .ok (.fsub 3 41 22 2 .f16) ∧
    decodeWord 0x403A5692 = .ok (.fmul 3 41 22 2 .bf16) ∧ decodeWord 0x403A569B = .ok (.fdiv 3 41 22 2 .f16x2) ∧
    decodeWord 0x403A56A4 = .ok (.fmin 3 41 22 2 .bf16x2) ∧ decodeWord 0x403A56A8 = .ok (.fmax 3 41 22 2 .f32) ∧
    decodeWord 0x403A56B1 = .ok (.fcopysign 3 41 22 2 .f16) ∧ decodeWord 0x443A4080 = .ok (.fneg 3 41 2 .f32) ∧
    decodeWord 0x443A4085 = .ok (.fabs 3 41 2 .f16) ∧ decodeWord 0x443A408A = .ok (.fsqrt 3 41 2 .bf16) ∧
    decodeWord 0x443A408C = .ok (.frcp 3 41 2 .f32) ∧ decodeWord 0x443A4091 = .ok (.frsq 3 41 2 .f16) ∧
    decodeWord 0x443A4096 = .ok (.fexp2 3 41 2 .bf16) ∧ decodeWord 0x443A4098 = .ok (.flog2 3 41 2 .f32) ∧
    decodeWord 0x443A409D = .ok (.fsin 3 41 2 .f16) ∧ decodeWord 0x443A40A2 = .ok (.fcos 3 41 2 .bf16) ∧
    decodeWord 0x443A40A4 = .ok (.ftanh 3 41 2 .f32) ∧ decodeWord 0x443A40A9 = .ok (.fsigm 3 41 2 .f16) ∧
    decodeWord 0x443A40AE = .ok (.ffloor 3 41 2 .bf16) ∧ decodeWord 0x443A40B0 = .ok (.fceil 3 41 2 .f32) ∧
    decodeWord 0x443A40B5 = .ok (.ftrunc 3 41 2 .f16) ∧ decodeWord 0x443A40BA = .ok (.frint 3 41 2 .bf16) ∧
    decodeWord 0x4C1083FE = .ok (.ffmaF32 1 2 3 63 2) ∧ decodeWord 0x501083FE = .ok (.ffmaF16x2 1 2 3 63 2) ∧
    decodeWord 0x541083FE = .ok (.ffmaBf16x2 1 2 3 63 2) :=
  ⟨rfl, rfl, rfl, rfl, rfl, rfl, rfl, rfl, rfl, rfl, rfl, rfl, rfl, rfl, rfl, rfl, rfl, rfl, rfl, rfl, rfl, rfl, rfl, rfl, rfl⟩

/-- R198, R201, R242: conversion and tag words. -/
theorem test_decode_convert :
    decodeWord 0x5841E96D = .ok (.cvtBlk 4 7 .f32 1 true .ta8) ∧ decodeWord 0x5841C361 = .ok (.cvt 4 7 .s32 1 true .s8) ∧
    decodeWord 0x58419014 = .ok (.cvt 4 6 .f16x2 0 false .ta6x4) ∧ decodeWord 0x5D457177 = .ok (.tag 20 21 3 11 .n8x4) :=
  ⟨rfl, rfl, rfl, rfl⟩

/-- R199, R200: lane-exchange words. -/
theorem test_decode_lane :
    decodeWord 0x605F8000 = .ok (.ballot 5 62) ∧ decodeWord 0x603A5681 = .ok (.bcast 3 41 22 2) ∧
    decodeWord 0x603A5682 = .ok (.xchg 3 41 22 2) ∧ decodeWord 0x641083FE = .ok (.shfl 1 2 3 63 2) ∧
    decodeWord 0x603A4088 = .ok (.scan 3 41 2 .addN32) ∧ decodeWord 0x603A4091 = .ok (.scanx 3 41 2 .addF32) ∧
    decodeWord 0x603A408A = .ok (.scan 3 41 2 .minS32) ∧ decodeWord 0x603A4093 = .ok (.scanx 3 41 2 .minN32) ∧
    decodeWord 0x603A408C = .ok (.scan 3 41 2 .maxS32) ∧ decodeWord 0x603A4095 = .ok (.scanx 3 41 2 .maxN32) ∧
    decodeWord 0x603A408E = .ok (.scan 3 41 2 .minF32) ∧ decodeWord 0x603A4097 = .ok (.scanx 3 41 2 .maxF32) ∧
    decodeWord 0x680200C0 = .ok (.xir 8 3) :=
  ⟨rfl, rfl, rfl, rfl, rfl, rfl, rfl, rfl, rfl, rfl, rfl, rfl, rfl⟩

/-- R199, R202: load, store, tag and region words. -/
theorem test_decode_access :
    decodeWord 0x81411000 = .ok (.ldG 20 4 1 .n8 none 0) ∧ decodeWord 0x81411241 = .ok (.ldG 20 4 1 .s8 (some .grp) 1) ∧
    decodeWord 0x81411482 = .ok (.ldG 20 4 1 .n16 (some .crew) 2) ∧ decodeWord 0x814116C3 = .ok (.ldG 20 4 1 .s16 (some .coh) 3) ∧
    decodeWord 0x81411904 = .ok (.ldG 20 4 1 .n32 (some .dev) 4) ∧ decodeWord 0x81411B45 = .ok (.ldG 20 4 1 .s32 (some .span) 5) ∧
    decodeWord 0x81411D86 = .ok (.ldG 20 4 1 .f32 (some .sys) 6) ∧ decodeWord 0x81411E07 = .ok (.ldG 20 4 1 .n64 none 7) ∧
    decodeWord 0x854117BF = .ok (.stG 20 4 1 .s16 (some .sys) 63) ∧ decodeWord 0x89415420 = .ok (.ldL 20 5 1 .n16 32) ∧
    decodeWord 0x8D415E20 = .ok (.stL 20 5 1 .n64 32) ∧ decodeWord 0x91415A03 = .ok (.lkld 20 5 1 .s32 3) ∧
    decodeWord 0x95415C03 = .ok (.stul 20 5 1 .f32 3) ∧ decodeWord 0x99418040 = .ok (.tlook 20 6 1) ∧
    decodeWord 0x98054641 = .ok (.tset 21 6 1) ∧ decodeWord 0x9C018F00 = .ok (.rgnOpen 6 15) ∧
    decodeWord 0x9C000F01 = .ok (.rgnClose 15) :=
  ⟨rfl, rfl, rfl, rfl, rfl, rfl, rfl, rfl, rfl, rfl, rfl, rfl, rfl, rfl, rfl, rfl, rfl⟩

/-- R203, R271: atomic words. -/
theorem test_decode_atomic :
    decodeWord 0xA1410C00 = .ok (.atomAdd 20 4 12 .grp .unp .n32) ∧ decodeWord 0xA5410C4A = .ok (.atomMin 20 4 12 .coh .nord .n64) ∧
    decodeWord 0xA9410C7F = .ok (.atomMax 20 4 12 .dev .ar .s64) ∧ decodeWord 0xA1410C35 = .ok (.atomAdd 20 4 12 .crew .acq .s32) ∧
    decodeWord 0xAD410D98 = .ok (.atomAnd 20 4 13 .span .rel) ∧ decodeWord 0xAD410D99 = .ok (.atomOr 20 4 13 .span .rel) ∧
    decodeWord 0xAD410D9A = .ok (.atomXor 20 4 13 .span .rel) ∧ decodeWord 0xAD410D9B = .ok (.atomExch 20 4 13 .span .rel) ∧
    decodeWord 0xB1410EB0 = .ok (.atomCas 20 4 14 .sys .spec .n32) ∧
    decodeWord 0xB1410CB1 = .ok (.atomCas 20 4 12 .sys .spec .n64) ∧ decodeWord 0xB5410D28 = .ok (.atomFadd 20 4 13 .crew .nord) ∧
    decodeWord 0xB5410D29 = .ok (.atomFmin 20 4 13 .crew .nord) ∧ decodeWord 0xB5410D2A = .ok (.atomFmax 20 4 13 .crew .nord) ∧
    decodeWord 0xB8010C66 = .ok (.red .add 4 12 .dev .comm .n64) ∧ decodeWord 0xB8110C66 = .ok (.red .min 4 12 .dev .comm .n64) ∧
    decodeWord 0xB8210C66 = .ok (.red .max 4 12 .dev .comm .n64) ∧ decodeWord 0xB8310C64 = .ok (.red .and 4 12 .dev .comm .n32) ∧
    decodeWord 0xB8410C64 = .ok (.red .or 4 12 .dev .comm .n32) ∧ decodeWord 0xB8510C64 = .ok (.red .xor 4 12 .dev .comm .n32) ∧
    decodeWord 0xB8610C64 = .ok (.red .fadd 4 12 .dev .comm .n32) ∧ decodeWord 0xB8710C64 = .ok (.red .fmin 4 12 .dev .comm .n32) ∧
    decodeWord 0xB8810C64 = .ok (.red .fmax 4 12 .dev .comm .n32) ∧ decodeWord 0xB8008A6D = .ok (.red .add 2 10 .dev .quan .s32) ∧
    decodeWord 0xBD410077 = .ok (.atomLd 20 4 .dev .acq .s64) :=
  ⟨rfl, rfl, rfl, rfl, rfl, rfl, rfl, rfl, rfl, rfl, rfl, rfl, rfl, rfl, rfl, rfl, rfl, rfl, rfl, rfl, rfl, rfl, rfl, rfl⟩

/-- R201, R204, R205: copy, fence, wait and transaction words. -/
theorem test_decode_order :
    decodeWord 0xC0020000 = .ok (.cpy 8) ∧ decodeWord 0xC0000001 = .ok .cbat ∧ decodeWord 0xC000000B = .ok (.fenceAcq .dev) ∧
    decodeWord 0xC0000014 = .ok (.fenceRel .span) ∧ decodeWord 0xC000001D = .ok (.fenceAr .sys) ∧
    decodeWord 0xC4108034 = .ok (.wait 1 2 3 4) ∧ decodeWord 0xC8000FFE = .ok (.waitb 0xFFE) ∧
    decodeWord 0xCC07FFFF = .ok (.txb 0x7FFFF) ∧ decodeWord 0xCC400007 = .ok (.txo 7) ∧ decodeWord 0xCC800000 = .ok .txc ∧
    decodeWord 0xCCC00000 = .ok .txr ∧ decodeWord 0xCD000000 = .ok .txe :=
  ⟨rfl, rfl, rfl, rfl, rfl, rfl, rfl, rfl, rfl, rfl, rfl, rfl⟩

/-- R56, R206: system words. -/
theorem test_decode_system :
    decodeWord 0xE0600000 = .ok (.getc 6 .wid) ∧ decodeWord 0xE0600100 = .ok (.getc 6 .lane) ∧
    decodeWord 0xE0600200 = .ok (.getc 6 .slice) ∧ decodeWord 0xE0600300 = .ok (.getc 6 .gang) ∧
    decodeWord 0xE0600400 = .ok (.getc 6 .where_) ∧ decodeWord 0xE0600800 = .ok (.getc 6 .time) ∧
    decodeWord 0xE0601000 = .ok (.getc 6 .tokens) ∧ decodeWord 0xE0601100 = .ok (.getc 6 .charge) ∧
    decodeWord 0xE0601200 = .ok (.getc 6 .allow) ∧ decodeWord 0xE0601800 = .ok (.getc 6 .txstat) ∧
    decodeWord 0xE0601B00 = .ok (.getc 6 .batch) ∧ decodeWord 0xE0701901 = .ok (.setc 7 .bflag) ∧
    decodeWord 0xE0701A01 = .ok (.setc 7 .quantum) ∧ decodeWord 0xE0702001 = .ok (.setc 7 .round) ∧
    decodeWord 0xE0702101 = .ok (.setc 7 .seed) ∧ decodeWord 0xE0000008 = .ok .exit ∧ decodeWord 0xE0000009 = .ok .barCrew ∧
    decodeWord 0xE000000A = .ok .barCoh ∧ decodeWord 0xE0000011 = .ok .brk ∧ decodeWord 0xE0000012 = .ok .tret ∧
    decodeWord 0xE00ABC10 = .ok (.trap 0xABC) ∧ decodeWord 0xE0600A18 = .ok (.ebud 6 10) ∧ decodeWord 0xE0600019 = .ok (.pint 6) :=
  ⟨rfl, rfl, rfl, rfl, rfl, rfl, rfl, rfl, rfl, rfl, rfl, rfl, rfl, rfl, rfl, rfl, rfl, rfl, rfl, rfl, rfl, rfl, rfl⟩

/-- R207, R279, R283, R289 to R297: matrix words. -/
theorem test_decode_matrix :
    decodeWord 0xE4329610 = .ok (.mmq 3 0 0xA5 33 .ta8) ∧ decodeWord 0xE4329428 = .ok (.mmqByp 3 0 0xA5 2 .ta8) ∧
    decodeWord 0xE4369611 = .ok (.mmq 3 1 0xA5 33 .e4m3) ∧ decodeWord 0xE4369429 = .ok (.mmqByp 3 1 0xA5 2 .e4m3) ∧
    decodeWord 0xE43A9612 = .ok (.mmq 3 2 0xA5 33 .s8) ∧ decodeWord 0xE43A942A = .ok (.mmqByp 3 2 0xA5 2 .s8) ∧
    decodeWord 0xE43E9613 = .ok (.mmq 3 3 0xA5 33 .ta6) ∧ decodeWord 0xE43E942B = .ok (.mmqByp 3 3 0xA5 2 .ta6) ∧
    decodeWord 0xE4329614 = .ok (.mmq 3 0 0xA5 33 .bf16) ∧ decodeWord 0xE432942C = .ok (.mmqByp 3 0 0xA5 2 .bf16) ∧
    decodeWord 0xE4369615 = .ok (.mmq 3 1 0xA5 33 .f16) ∧ decodeWord 0xE436942D = .ok (.mmqByp 3 1 0xA5 2 .f16) ∧
    decodeWord 0xE4600216 = .ok (.mgld 2 33) ∧ decodeWord 0xE4A40000 = .ok (.mscan 2 false true) ∧
    decodeWord 0xE4A80000 = .ok (.mscan 2 true false) ∧ decodeWord 0xE4D00210 = .ok (.mdrain 1 false 33 .ta8) ∧
    decodeWord 0xE4D00211 = .ok (.mdrain 1 false 33 .e4m3) ∧ decodeWord 0xE4D00212 = .ok (.mdrain 1 false 33 .s8) ∧
    decodeWord 0xE4D00213 = .ok (.mdrain 1 false 33 .ta6) ∧ decodeWord 0xE4D00214 = .ok (.mdrain 1 false 33 .bf16) ∧
    decodeWord 0xE4D00215 = .ok (.mdrain 1 false 33 .f16) ∧ decodeWord 0xE4D00216 = .ok (.mdrain 1 false 33 .f32) ∧
    decodeWord 0xE4D40215 = .ok (.mdrain 1 true 33 .f16) ∧ decodeWord 0xE4E00217 = .ok (.mdrainState 2 33) ∧
    decodeWord 0xE5140C05 = .ok (.mdrainByp 1 true 3 .f16) ∧ decodeWord 0xE5606C01 = .ok (.macq 2 true 11 true) ∧
    decodeWord 0xE5702C00 = .ok (.macq 3 false 11 false) ∧ decodeWord 0xE5B00000 = .ok (.mrel 3) :=
  ⟨rfl, rfl, rfl, rfl, rfl, rfl, rfl, rfl, rfl, rfl, rfl, rfl, rfl, rfl, rfl, rfl, rfl, rfl, rfl, rfl, rfl, rfl, rfl, rfl, rfl,
  rfl, rfl, rfl⟩

/-- R180: hint words. -/
theorem test_decode_hint :
    decodeWord 0xF80ABCDE = .ok (.hintWide 0xABCDE) ∧ decodeWord 0xF8400001 = .ok .hintMext ∧
    decodeWord 0xF8800000 = .ok (.hintRnd .rn) ∧ decodeWord 0xF8800001 = .ok (.hintRnd .rz) ∧
    decodeWord 0xF8800002 = .ok (.hintRnd .ru) ∧ decodeWord 0xF8800003 = .ok (.hintRnd .rd) ∧
    decodeWord 0xF8800004 = .ok (.hintRnd .rs) ∧ decodeWord 0xF8C0000D = .ok (.hintBnd 13) ∧
    decodeWord 0xFA0003FF = .ok (.hintYield 1023) ∧ decodeWord 0xFA40007D = .ok (.hintKeep true 61) ∧
    decodeWord 0xFA80003D = .ok (.hintEvict 61) ∧ decodeWord 0xFACABCDE = .ok (.bbc 0xABCDE) ∧
    decodeWord 0xFB0000C8 = .ok (.hintFuse 200) ∧ decodeWord 0xFB400001 = .ok (.hintNoahead true) ∧
    decodeWord 0xFB800005 = .ok (.hintAdv 0 5) ∧ decodeWord 0xFBFFFFFF = .ok (.hintAdv 1 0x3FFFFF) :=
  ⟨rfl, rfl, rfl, rfl, rfl, rfl, rfl, rfl, rfl, rfl, rfl, rfl, rfl, rfl, rfl, rfl⟩

/-- Whether a word is no instruction. -/
def illegal (w : Nat) : Bool := match decodeWord w with
  | .ok _ => false
  | .error _ => true

/-- R191: integer words with an absent code, a reserved field that is not 0, or an illegal code. -/
theorem test_illegal_integer :
    [0x043A568F, 0x043A4189, 0x044A5660, 0x043A9663].all illegal = true := by decide

/-- R191: immediate and three-source integer words with an absent code, a reserved field that is not 0, or an illegal code. -/
theorem test_illegal_immediate :
    [0x1C504000, 0x34585020, 0x38585007, 0x38585420, 0x3C585880, 0x14108322].all illegal = true := by decide

/-- R191: bit words with an absent code, a reserved field that is not 0, or an illegal code. -/
theorem test_illegal_bit :
    [0x083A5686, 0x083A4185, 0x084AD760].all illegal = true := by decide

/-- R191: compare and mask words with an absent code, a reserved field that is not 0, or an illegal code. -/
theorem test_illegal_mask :
    [0x0C024B08, 0x0C824B08, 0x0C124B0E, 0x0C124B20, 0x0C124B48, 0x48110518, 0x10018700, 0x10520700, 0x10518104].all illegal = true := by decide

/-- R191: control-flow words with an absent code, a reserved field that is not 0, or an illegal code. -/
theorem test_illegal_control :
    [0xD1880000, 0xD0080000, 0xD7C00000, 0xD802C001, 0xD8028004, 0xD8028041, 0xDC000100].all illegal = true := by decide

/-- R191: float words with an absent code, a reserved field that is not 0, or an illegal code. -/
theorem test_illegal_float :
    [0x403A5685, 0x403A56B8, 0x443A4083, 0x443A40BC, 0x443A4180].all illegal = true := by decide

/-- R191: conversion and tag words with an absent code, a reserved field that is not 0, or an illegal code. -/
theorem test_illegal_convert :
    [0x5841C949, 0x5841CF4D, 0x5851E94D, 0x5841C961, 0x5841895F, 0x5D45700F, 0x5D457209, 0x5D553008].all illegal = true := by decide

/-- R191: lane-exchange words with an absent code, a reserved field that is not 0, or an illegal code. -/
theorem test_illegal_lane :
    [0x600F8000, 0x605F8040, 0x603A5683, 0x603A4188, 0x681200C0].all illegal = true := by decide

/-- R191: load, store, tag and region words with an absent code, a reserved field that is not 0, or an illegal code. -/
theorem test_illegal_access :
    [0x814119C0, 0x81415800, 0x81511E00, 0x89415440, 0x91415600, 0x95415E00, 0x9941C040, 0x9C019000, 0x9C018F40].all illegal = true := by decide

/-- R191: atomic words with an absent code, a reserved field that is not 0, or an illegal code. -/
theorem test_illegal_atomic :
    [0xA1410CC0, 0xA1410C64, 0xA1410C70, 0xA1410D62, 0xB1410E61, 0xB1410D60, 0xB1410C62, 0xB5410D2B, 0xB8910C60, 0xB8310C62,
     0xB8610C61, 0xB8010C74, 0xB8010C4C, 0xB8110C6C, 0xBD41007C, 0xBD410160].all illegal = true := by decide

/-- R191: copy, fence, wait and transaction words with an absent code, a reserved field that is not 0, or an illegal code. -/
theorem test_illegal_order :
    [0xC0024000, 0xC0020001, 0xC0000002, 0xC000000E, 0xC0000020, 0xC4108100, 0xC8100003, 0xCC080004, 0xCC800001, 0xCD400000].all illegal = true := by decide

/-- R191: system words with an absent code, a reserved field that is not 0, or an illegal code. -/
theorem test_illegal_system :
    [0xE0700000, 0xE0600500, 0xE0700001, 0xE0701801, 0xE0100008, 0xE0600B18, 0xE0600119, 0xE0000002].all illegal = true := by decide

/-- R191: matrix words with an absent code, a reserved field that is not 0, or an illegal code. -/
theorem test_illegal_matrix :
    [0xE4300216, 0xE4300048, 0xE4640216, 0xE4600215, 0xE4A00400, 0xE4D40216, 0xE4D40212, 0xE5100800, 0xE5101005, 0xE5700001,
     0xE5B04000, 0xE5C00000].all illegal = true := by decide

/-- R191: hint words with an absent code, a reserved field that is not 0, or an illegal code. -/
theorem test_illegal_hint :
    [0xF8100000, 0xF8400000, 0xF8400003, 0xF8800005, 0xF8C00010, 0xF9000000, 0xFA000400, 0xFA400080, 0xFA800040, 0xFB000100,
     0xFB400002].all illegal = true := by decide

/-- R191: the unassigned opcodes. -/
theorem test_illegal_map :
    [0x00000000, 0xFFFFFFFF, 0x6C000000, 0x70000000, 0x74000000, 0x78000000, 0x7C000000, 0xE8000000, 0xEC000000, 0xF0000000,
     0xF4000000].all illegal = true := by decide

/-! ### Well-formedness: an ill-formed term for each check of `Instr.wf` -/

/-- Register numbers, pairs and the mask operand (R41, R175). -/
theorem test_wf_registers :
    ([.iadd 64 0 0 0, .iadd 0 64 0 0, .iadd 0 0 64 0, .iadd 0 0 0 4, .iabsS32 64 0 0, .iadd64 1 2 4 0, .iadd64 2 1 4 0, .iadd64 2 4 1 0,
      .iadd64 64 2 4 0, .imulWideS32 1 2 3 0, .shl64 2 3 4 0, .popc64 2 3 0, .imad 0 0 0 64 0, .ffmaF32 0 0 0 64 0, .shfl 0 0 64 0 0,
      .jmp 1, .calli 2 3, .calli 3 2, .ret 5, .ldG 1 3 0 .n32 none 0, .ldG 1 2 0 .n64 none 0, .stL 1 2 0 .n64 0, .tlook 0 3 0, .tset 0 3 0,
      .rgnOpen 3 0, .cpy 9, .getc 1 .wid, .getc 64 .lane, .xir 64 0, .hintKeep true 64, .hintEvict 64, .pint 64] : List Instr).all
      (fun i => !i.wf) = true := by decide

/-- Masks and mask destinations (R52, R195, R196). -/
theorem test_wf_masks :
    ([.icmp 0 1 2 .s32 .eq, .icmp 8 1 2 .s32 .eq, .icmp 1 3 2 .s64 .eq, .icmp 1 2 3 .n64 .eq, .fcmp 0 1 2 .f32 .eq, .mand 0 1 2,
      .mand 1 8 2, .mand 1 2 8, .mnot 0 1, .mpop 64 1, .mpop 1 8, .vtom 0 1, .ballot 0 1, .sel 0 1 2 8 0, .br .t 8 0, .br .always 1 0,
      .call .always 1 0] : List Instr).all (fun i => !i.wf) = true := by decide

/-- Immediates, counts, fields and offsets (R176, R201, R205, R222). -/
theorem test_wf_fields :
    ([.mov 0 0 4096, .iaddImm 0 0 0 4096, .shlImm 0 0 0 32, .bfeNImm 0 0 0 0 0, .bfeSImm 0 0 0 33 0, .bfi 0 0 0 1 32, .br .t 1 (2 ^ 19),
      .call .t 1 (2 ^ 19), .regang 256, .ldG 0 2 0 .n32 none 64, .lkld 0 0 0 .n32 64, .rgnOpen 2 16, .rgnClose 16, .tag 0 0 0 16 .f32,
      .tag 1 0 0 0 .n64, .wait 64 0 0 0, .wait 0 64 0 0, .wait 0 0 16 0, .wait 0 0 0 16, .waitb 4096, .txb (2 ^ 19), .txo (2 ^ 19)] :
      List Instr).all (fun i => !i.wf) = true := by decide

/-- Conversions (R242): no triple of the table, .sat where it says nothing, a register that is no pair. -/
theorem test_wf_conversions :
    ([.cvt 0 0 .f32 0 false .f32, .cvt 0 0 .f32 0 false .e8x4, .cvt 0 0 .ta8x4 0 false .f32, .cvt 0 1 .f32 0 false .f16x2,
      .cvt 1 0 .f16x2 0 false .f32, .cvt 0 0 .ta8 0 true .f32, .cvt 0 0 .f32 0 true .s8, .cvt 1 0 .s8 0 false .s64,
      .cvt 0 0 .f32 4 false .f16, .cvtBlk 0 0 .f32 0 false .f16, .cvtBlk 1 0 .f32 0 false .ta8, .cvtBlk 0 0 .f32 0 true .s8] :
      List Instr).all (fun i => !i.wf) = true := by decide

/-- Atomics (R203, R271): a use that the form does not take, a type that the operation does not have, the registers of cas. -/
theorem test_wf_atomics :
    ([.atomAdd 0 2 4 .dev .comm .n32, .atomAdd 1 2 4 .dev .unp .n64, .atomAdd 0 3 4 .dev .unp .n32, .atomAdd 0 2 5 .dev .unp .s64,
      .atomMin 0 2 4 .dev .spec .n32, .atomMax 0 2 4 .dev .quan .n32, .atomAnd 0 2 4 .dev .comm, .atomOr 0 3 4 .dev .unp,
      .atomXor 0 2 64 .dev .unp, .atomExch 0 2 4 .dev .spec, .atomFadd 0 2 4 .dev .quan, .atomFmin 0 2 4 .dev .comm,
      .atomFmax 0 2 4 .dev .spec, .atomCas 0 2 5 .dev .unp .n32, .atomCas 0 2 6 .dev .unp .n64, .atomCas 1 2 4 .dev .unp .n64,
      .atomCas 0 2 4 .dev .comm .n32, .red .and 2 4 .dev .comm .n64, .red .fadd 2 4 .dev .comm .s32, .red .add 2 4 .dev .acq .n32,
      .red .add 2 4 .dev .nord .n32, .red .add 2 4 .crew .quan .n32, .red .min 2 4 .dev .quan .n32, .atomLd 0 2 .dev .rel .n32,
      .atomLd 0 2 .dev .comm .n32] : List Instr).all (fun i => !i.wf) = true := by decide

/-- System, matrix and hint words (R56, R180, R206, R279, R283, R289, R292, R294). -/
theorem test_wf_system :
    ([.setc 0 .wid, .setc 0 .txstat, .setc 64 .seed, .trap 4096, .ebud 0 11, .mmq 4 0 0 0 .ta8, .mmq 0 4 0 0 .ta8, .mmq 0 0 256 0 .ta8,
      .mmqByp 0 0 0 4 .ta8, .mgld 4 0, .mscan 4 true true, .mdrain 0 true 0 .s8, .mdrain 0 true 0 .f32, .mdrainState 4 0,
      .mdrainByp 0 false 2 .ta8, .mdrainByp 0 false 4 .f16, .mdrainByp 0 true 0 .s8, .macq 0 false 16 false, .macq 1 false 0 true, .mrel 4,
      .hintWide (2 ^ 20), .hintBnd 16, .hintYield 1024, .bbc (2 ^ 20), .hintFuse 256, .hintAdv 2 0, .hintAdv 0 (2 ^ 22)] :
      List Instr).all (fun i => !i.wf) = true := by decide

/-- Commands and events: a queue, core, frame, bench, cluster, port or link that the device has not. -/
theorem test_wf_events :
    ([.queueDoorbell 128 0, .launch 128, .pin 128, .dbgStopSet 128, .parkResume 128 0, .preemptCmd 512, .coreBucketRefill 512,
      .runAhead 0 32, .loadComplete 512 0 0, .copyStart 128 0, .benchHandover 0 4, .matrixGrant 128, .takeTrap 0 32, .eviction 512,
      .timeSyncSend 32, .flitForward 32 ⟨0, 0, 0, 0, 0, 1, 0, 0, 0, 0, []⟩, .portDown 32, .hostLinkDown 2, .sample 512] :
      List Instr).all (fun i => !i.wf) = true := by decide

/-! ### Values: the worked examples of the spec, and corners worked out from its rules -/

/-- A state whose group has some registers as given, the others at their launch values. -/
def withRegs (rs : List (Nat × VReg)) (g : Group) : Group :=
  { g with ctx := { g.ctx with
      regs := (List.range 64).map (fun v => ((rs.find? (fun p => p.1 == v)).map Prod.snd).getD ⟨.uniform 0, .b32, 0, 0⟩) } }

def uni (f : Fmt) (w : Word) : VReg := ⟨.uniform w, f, 0, 0⟩
def lanes (f : Fmt) (ws : List Word) : VReg := ⟨.general (ws ++ List.replicate (32 - ws.length) 0), f, 0, 0⟩

/-- Lane `l` of register `v` after a word; none where it does not complete or raises a trap. -/
def after (i : Instr) (s : State) (v l : Nat) : Option Nat :=
  match exec i s with
  | .next t => (t.group 0 0).bind (fun g => if g.inHandler || g.status == .parked then none else some (g.ctx.lane v l).toNat)
  | _ => none

/-- What the group's context says after a word. -/
def seen {α : Type} (f : Group → α) (i : Instr) (s : State) : Option α :=
  match exec i s with
  | .next t => (t.group 0 0).map f
  | _ => none

/-- The example under R222: bfe and bfi with a field that runs past bit 31. -/
theorem test_bit_fields :
    after (.bfeSImm 3 1 0 8 28) (box (withRegs [(1, uni .b32 0xA1234567)] gr)) 3 9 = some 0xFFFFFFFA ∧
    after (.bfi 4 5 0 4 30) (box (withRegs [(5, uni .b32 15)] gr)) 4 9 = some 0xC0000000 := by decide

/-- R215, R217: an immediate is sign-extended and the sum wraps; R45: a masked write keeps the other lanes and makes the
register general. -/
theorem test_iadd :
    after (.iaddImm 8 8 0 0xFFF) (box gr) 8 31 = some 0xFFFFFFFF ∧
    seen (fun g => (g.ctx.reg 4).shape) (.iadd 4 2 3 2)
      (box { withRegs [(2, ⟨.affine 0 4, .n32, 0, 0⟩), (3, uni .n32 0x1000), (4, uni .b32 7)] gr with
        ctx := { (withRegs [(2, ⟨.affine 0 4, .n32, 0, 0⟩), (3, uni .n32 0x1000), (4, uni .b32 7)] gr).ctx with
          masks := List.replicate 8 0x7FFFFFFF } }) =
      some (.general ((List.range 31).map (fun l => BitVec.ofNat 32 (0x1000 + 4 * l)) ++ [7])) := by decide

/-- The example under R44: an affine register plus a uniform one is affine; a register less itself is uniform. -/
theorem test_shapes :
    seen (fun g => (g.ctx.reg 4).shape) (.iadd 4 2 3 0) (box (withRegs [(2, ⟨.affine 0 4, .n32, 0, 0⟩), (3, uni .n32 0x1000)] gr)) =
      some (.affine 0x1000 4) ∧
    seen (fun g => (g.ctx.reg 6).shape) (.isub 6 4 4 0) (box (withRegs [(4, ⟨.affine 0x1000 4, .n32, 0, 0⟩)] gr)) = some (.uniform 0) := by
  decide

/-- R216: a quotient truncates toward zero, a divisor of 0, and the one quotient that does not fit. -/
theorem test_division :
    after (.idivS32 3 1 2 0) (box (withRegs [(1, uni .s32 0xFFFFFFF9), (2, uni .s32 2)] gr)) 3 0 = some 0xFFFFFFFD ∧
    after (.iremS32 3 1 2 0) (box (withRegs [(1, uni .s32 0xFFFFFFF9), (2, uni .s32 2)] gr)) 3 0 = some 0xFFFFFFFF := by decide

/-- The example under R243: cvt.s8.s32 of 0x180 wraps, and saturates with .sat. -/
theorem test_cvt_s8 :
    after (.cvt 3 2 .s32 0 false .s8) (box (withRegs [(2, uni .s32 0x180)] gr)) 3 0 = some 0xFFFFFF80 ∧
    after (.cvt 3 2 .s32 0 true .s8) (box (withRegs [(2, uni .s32 0x180)] gr)) 3 0 = some 0x7F := by decide

/-- A group of eight live lanes. -/
def eight (g : Group) : Group :=
  { g with ctx := { g.ctx with live := 0xFF, slices := g.ctx.slices.mapIdx (fun i x => if i < 2 then x else { x with cur := 0, fin := true }) } }

/-- The issue of the lanes of the first two slices. -/
def cu8 : Cur := { cu with slices := [0, 1], active := 0xFF }

/-- The example under R245: eight values quantised with one scale. -/
theorem test_cvt_blk :
    let s := { box (eight (withRegs [(2, lanes .f32 [0x40C00000, 0x3FC00000, 0xC0400000, 0x3F400000, 0, 0, 0, 0x3F000000])] gr)) with
      cur := some cu8 }
    seen (fun g => (List.range 8).map (fun l => (g.ctx.lane 4 l).toNat)) (.cvtBlk 4 2 .f32 0 false .ta8) s =
      some [0x48, 0x28, 0xB8, 0x1C, 0, 0, 0, 0x18] ∧
    seen (fun g => (List.range 8).map (fun l => (g.ctx.lane 5 l).toNat)) (.cvtBlk 4 2 .f32 0 false .ta8) s =
      some (List.replicate 8 0x7F7F7F81) := by decide +kernel

/-- The example under R71: two lanes converted under stochastic rounding step c.seed twice. -/
theorem test_cvt_stochastic :
    let g := withRegs [(2, lanes .f32 [0x3F840000, 0x3F840000])] gr
    let g := { g with ctx := { g.ctx with masks := [3, 3, 3, 3, 3, 3, 3, 3], round := 4, seed := 1 } }
    seen (fun g => ((g.ctx.lane 4 0).toNat, (g.ctx.lane 4 1).toNat, g.ctx.seed.toNat)) (.cvt 4 2 .f32 1 false .ta8) (box g) =
      some (0x41, 0x41, 0xC0300002) := by decide +kernel

/-- R61: ta8 codes of the example. -/
theorem test_ta8_values :
    [0x40, 0x48, 0x50, 0x60, 0xC0, 0x7E, 0x3F].map (fun x => roundTo .f32 .rn 0 false (decodeElem .ta8 x)) =
      [0x3F800000, 0x3FC00000, 0x40000000, 0x40800000, 0xBF800000, 0x44800000, 0x3F780000] := by decide +kernel

/-- The example under R83: results outside a clamp-mode bound. -/
theorem test_clamp :
    let s := withLaunch (fun l => { l with bounds := [(3, ⟨.f32, .clamp, 0xBF800000, 0x3F800000⟩)] })
      (box (withRegs [(6, ⟨.uniform 0, .f32, 3, 0⟩), (7, lanes .f32 [0x3F000000, 0x3FA00000, 0x7FC00000, 0xC0400000])] gr))
    seen (fun g => ((List.range 4).map (fun l => (g.ctx.lane 8 l).toNat), g.ctx.bflag.toNat)) (.fadd 8 6 7 0 .f32) s =
      some ([0x3F000000, 0x3F800000, 0xBF800000, 0xBF800000], 3) := by decide +kernel

/-- The example under R251: indices of a live, an exited and no lane. -/
theorem test_shfl :
    let g := withRegs [(1, ⟨.affine 100 1, .n32, 0, 0⟩), (3, lanes .b32 [5, 7, 40, 2]), (4, uni .n32 0xFFFF)] gr
    let g := { g with ctx := { g.ctx with live := 0x3F } }
    let s := { box g with cur := some { cu with slices := [0], active := 0xF } }
    seen (fun g => ((List.range 6).map (fun l => (g.ctx.lane 2 l).toNat))) (.shfl 2 1 3 4 0) s = some [105, 0, 0xFFFF, 102, 0, 0] := by
  decide

/-- The example under R254: the lanes of the lowest captured word run first, and the word of lane 4 is still to come. -/
theorem test_xir_word :
    let ws := (List.range 32).map (fun l => if l = 4 then 0x70000000#32 else if l = 1 ∨ l = 3 then 0x3430C002 else 0x2030C001)
    let g := withRegs [(3, ⟨.affine 0 1, .n32, 0, 0⟩)] gr
    let sl := setXir g.ctx.slices 0 (some { pc := 0x10200, words := ws, pend := 0xFF, done := 0 })
    let g := { g with ctx := { g.ctx with live := 0xFF, slices := sl } }
    (nextIssue 0 0 g).map (fun c => (c.1.active, c.1.word)) = some (0xE5, 0x2030C001) := by decide

/-- The example under R12 to R17: a branch of two lanes of slice 1 pushes a merge and a path entry. -/
theorem test_divergence :
    let x : Slice := { pc := 0x100, cur := 0xF, stack := [], hints := .none, gang := 0, fin := false, arrCrew := false, arrCoh := false, wait := .run,
                       since := 0, xir := none, quarters := 0, window := 0 }
    let y := branchSlice x 0b0101 0x200 0x104
    (y.cur, y.pc, y.stack) = (0b0101, 0x200, [.path 0x104 0b1010, .merge 0xF none]) := by decide

/-- The example under R26: the WID of lane 0 of group 3 of the rank-1 crew of cohort 517. -/
theorem test_wid :
    ({ loadLaunch 0 with n0 := 32, n1 := 4, n2 := 2, n3 := 1000, widths := [5, 2, 1, 10, 0, 0] } : Launch).wid 3 1 517 = 0x205E0 := by
  decide

/-- The example under R79: a chunk of ta8 blocks cut at the window adds 24 to the bench. -/
theorem test_chunk :
    let row := fun (x : Byte) (y : Byte) (c0 : Byte) (c1 : Byte) => [x, 0, 0, 0, 0, 0, 0, 0, y] ++ zeros 119 ++ [c0, c1] ++ List.replicate 14 127
    accumulate 0x42C80000 (chunkValue .ta8 3 (row 0x48 0x48 130 127) (row 0x50 0x40 127 107)) = 0x42F80000 := by decide +kernel

/-- The example under R298: a column of rows (0.5, 1.0) with the carry (1.0, +0): row 23 is exact, row 24 a tie, the last gains
flush to +0 and set the flag. -/
theorem test_scan_column :
    (fun (r : List (Nat × Nat) × (Nat × Nat) × Bool) => (r.1[23]?.map Prod.snd, r.1[24]?.map Prod.snd, r.1[125]?.map Prod.fst,
      r.1[127]?.map Prod.fst, r.2)) (scanColumn (List.replicate 128 (0x3F000000, 0x3F800000)) (0x3F800000, 0)) =
      (some 0x3FFFFFFF, some 0x40000000, some 0x00800000, some 0, (0, 0x40000000), true) := by decide +kernel

/-- The examples under R104: the lock bits of two positions. -/
theorem test_lock_bits : lockBit 0x2A4C = 19 * 64 + 21 ∧ lockBit (0x10000 + 0x2A4C) = 19 * 64 + 29 := by decide

/-- As in the example under R270, with two lanes: the lower lane's compare-and-swap of one word is performed first. -/
theorem test_cas :
    let g := withRegs [(2, uni .b32 0x10900), (12, uni .n32 5), (13, ⟨.affine 9 1, .n32, 0, 0⟩)] gr
    let s := (box (flying (.atomCas 20 2 12 .dev .unp .n32) g))
    (match exec (.loadComplete 0 0 0) { s with mem := s.mem.write 0x290000900 [5] } with
      | .next t => (t.mem.bytes 0x290000900 4, (t.group 0 0).map (fun g => (g.ctx.lane 20 0, g.ctx.lane 20 31)))
      | _ => ([], none)) = ([9, 0, 0, 0], some (5, 9)) := by decide +kernel

/-- The example under R100: a tlook hits slot 10 of a filled granule. -/
theorem test_tlook :
    let s := withLaunch (fun l => { l with lbytes := 16384 }) (box gr)
    let s := s.modCore 0 (fun c => { c with tags := [(10, 0x7F1234567C01)] })
    s.lookup gr 0x7F1234567E48 = 10 ∧ s.lookup gr 0x7F1234568000 = 2 ^ 32 - 1 := by decide

/-- The example under R425: c.allow of a cluster at 100 °C. -/
theorem test_allow :
    let p := { (box gr).power with flux := 144, area := 800, soft := 95, hard := 105 }
    allowance p 100 = 8 ∧ p.dcap = 112347 ∧ ({ box gr with power := p }.setCluster 0 { Cluster.init with m := 8 }).allow 0 = 3510 := by
  decide

/-- The example under R420: a row that finds the two result rows taken goes back. -/
theorem test_row_back :
    (match exec (.collectiveComplete 0) (arrived { chunks9 3 with landed := 1 } [brought none (.row row9)]) with
      | .next t => t.out.head? == some (.rowBack row9)
      | _ => false) = true := by decide +kernel

/-- R230: a join with an empty stack goes on behind it; R309: exit ends the lanes of the gang. -/
theorem test_join_exit :
    seen (fun g => (g.ctx.slices.map Slice.pc).head?) .join (box gr) = some (some 0x10204) ∧
    seen (fun g => g.ctx.live) .exit (box gr) = some 0 := by decide

/-- R304, R305: c.seed takes 1 for 0, and c.round refuses 5. -/
theorem test_setc :
    seen (fun g => g.ctx.seed) (.setc 7 .seed) (box gr) = some 1 ∧
    seen (fun g => (g.ctx.round, g.status == .ready)) (.setc 7 .round) (box (withRegs [(7, uni .n32 5)] gr)) = some (0, false) := by decide

/-- R207, R228: a taken branch lands at PC + 4 × off, and the group of a branch back goes there. -/
theorem test_branch :
    seen (fun g => (g.ctx.slices.map Slice.pc).head?) (.br .always 0 0x7FFFD) (box gr) = some (some 0x101F4) := by decide

/-- R66, R238: 65,504 + 32 is a tie that goes to infinity in f16; 1/3 in f32. -/
theorem test_float_rounding :
    after (.fadd 3 1 2 0 .f16) (box (withRegs [(1, uni .f16 0x7BFF), (2, uni .f16 0x5000)] gr)) 3 0 = some 0x7C00 ∧
    after (.fdiv 3 1 2 0 .f32) (box (withRegs [(1, uni .f32 0x3F800000), (2, uni .f32 0x40400000)] gr)) 3 0 = some 0x3EAAAAAB := by
  decide +kernel

/-- R191, R382: an illegal word raises cause 1 and issues nothing: a step on it leaves the group in its park or handler. -/
theorem test_illegal_traps :
    (match step (about 0) with
      | .next t => (t.group 0 0).any (fun g => g.status == .parked || g.inHandler)
      | _ => false) = true := by decide +kernel

/-- R37, R338: the first step after reset with a word placed runs it. -/
theorem test_first_step :
    (match step (about 0x1C800005) with
      | .next t => (t.group 0 0).map (fun g => (g.ctx.lane 8 0, (g.ctx.slices.map Slice.pc).head?))
      | _ => none) = some (5, some 0x10204) := by decide +kernel

end Sys2Proof.Tests
end

section
/-! SUPPORT. Control transfers of the execution model (R13 to R18, R139, R227 to R230): `br`, `call` and `join`. The machine's
divergence functions are those of the spec's tables; a word that turns a gang leaves its context and the speculation entries. -/

namespace Sys2Proof.Machine

open Sys2Proof.Safety

/-! ### Lists of slices -/

theorem getElem?_onSlices (sl : List Slice) (ms : List Nat) (f : Nat → Slice → Slice) (i : Nat) :
    (onSlices sl ms f)[i]? = sl[i]?.map (fun x => if i ∈ ms then f i x else x) := by
  simp [onSlices]

theorem onSlices_onSlices (sl : List Slice) (ms : List Nat) (f k : Nat → Slice → Slice) :
    onSlices (onSlices sl ms f) ms k = onSlices sl ms (fun i x => k i (f i x)) := by
  apply List.ext_getElem?
  intro i
  simp only [getElem?_onSlices, Option.map_map]
  congr 1
  funext x
  by_cases h : i ∈ ms <;> simp [h]

/-- Slices that hold at most 16 entries each pass the check of R15. -/
theorem checkDepth_onSlices {sl : List Slice} {ms : List Nat} {f : Nat → Slice → Slice} (h : Spec.Fits sl ms f) :
    checkDepth (onSlices sl ms f) ms = .ok (onSlices sl ms f) := by
  unfold checkDepth
  dsimp only
  rw [if_pos]
  rw [List.isEmpty_iff, List.filter_eq_nil_iff]
  intro i hi
  rw [getElem?_onSlices]
  cases hx : sl[i]? with
  | none => simp
  | some x =>
    have hlen := h i hi x hx
    simpa [hi] using hlen

/-- The gang's slices after a turn: the pending hints are consumed, and the gang parts outside an attempt only. -/
theorem afterTurn_onSlices (sl : List Slice) (ms : List Nat) (f : Nat → Slice → Slice) :
    afterTurn false (onSlices sl ms f) ms = Spec.follow sl ms f ∧
      afterTurn true (onSlices sl ms f) ms = Spec.followInStep sl ms f := by
  simp only [afterTurn, onSlices_onSlices]
  exact ⟨rfl, rfl⟩

/-! ### The divergence functions of the spec -/

theorem branchSlice_eq_branched : branchSlice = Spec.branched := by
  funext x tk target fall
  unfold branchSlice Spec.branched
  dsimp only
  split
  · rfl
  split
  · rfl
  cases x.stack with
  | nil => rfl
  | cons e r => cases e <;> rfl

theorem joinSlice_eq_joined : joinSlice = Spec.joined := by
  funext live x
  unfold joinSlice Spec.joined
  cases x.stack with
  | nil => rfl
  | cons e r => cases e <;> rfl

theorem joinSliceTx_eq_joinedInStep : joinSliceTx = Spec.joinedInStep := by
  funext live x
  unfold joinSliceTx Spec.joinedInStep
  cases x.stack with
  | nil => rfl
  | cons e r => cases e <;> rfl

/-- The lanes of a slice that a branch leaves behind, whichever way the taken ones are written. -/
theorem staying_lanes (a b : BitVec 4) : a &&& ~~~(b &&& a) = a &&& ~~~b := by
  apply BitVec.eq_of_getLsbD_eq
  intro i hi
  simp only [BitVec.getLsbD_and, BitVec.getLsbD_not, hi, decide_true, Bool.true_and]
  cases a.getLsbD i <;> cases b.getLsbD i <;> rfl

theorem branchGang_eq_branchedInStep (sl : List Slice) (ms : List Nat) (act taken : Mask) (target fall : Nat) :
    branchGang sl ms act taken target fall = onSlices sl ms (Spec.branchedInStep sl ms act taken target fall) := by
  unfold branchGang Spec.branchedInStep
  by_cases hnone : taken = 0
  · simp only [if_pos hnone]
  by_cases hall : act &&& ~~~taken = 0
  · simp only [if_neg hnone, if_pos hall]
  simp only [if_neg hnone, if_neg hall, staying_lanes]
  congr 1
  funext i x
  rw [BitVec.and_comm (sliceBits taken i) x.cur]
  split
  · rename_i hfold hstack
    rw [if_pos (show Spec.topPaths sl ms fall = true from hfold), hstack]
  · rename_i hpush
    split
    · rename_i hfold
      split
      · rename_i p m r hstack
        exact (hpush p m r hfold hstack).elim
      · rfl
    · rfl

/-- A conditional branch of a gang whose stacks do not overflow, outside an attempt and in one. -/
theorem turnBranch_goes {c : Cur} {g : Group} {taken : Mask} {target fall : Nat}
    (h : Spec.Goes c g (fun i x => Spec.branched x (sliceBits taken i &&& x.cur) target fall)
      (Spec.branchedInStep g.ctx.slices c.slices c.active taken target fall)) :
    turnBranch g.tx.isSome g.ctx.slices c.slices c.active taken target fall =
      .ok (Spec.goes c g (fun i x => Spec.branched x (sliceBits taken i &&& x.cur) target fall)
        (Spec.branchedInStep g.ctx.slices c.slices c.active taken target fall)) := by
  obtain ⟨happart, hstep⟩ := h
  unfold turnBranch Spec.goes
  cases htx : g.tx with
  | none =>
    simp [branchSlice_eq_branched, checkDepth_onSlices (happart htx), afterTurn_onSlices]
  | some a =>
    have hne : g.tx ≠ none := by simp [htx]
    simp [branchGang_eq_branchedInStep, checkDepth_onSlices (hstep hne), afterTurn_onSlices]

/-! ### Lanes and targets of a branch -/

theorem mask_ext {a b : Mask} (h : ∀ l, l < 32 → hasLane a l = hasLane b l) : a = b :=
  BitVec.eq_of_getLsbD_eq h

theorem hasLane_ite (b : Bool) (m : Mask) (l : Nat) : hasLane (if b = true then m else 0) l = (hasLane m l && b) := by
  cases b <;> simp [hasLane]

theorem takenLanes_eq (k : BrCond) (act m : Mask) :
    takenLanes k act m = maskOf (fun l => hasLane act l && Spec.takes k act m l) := by
  apply mask_ext
  intro l hl
  rw [hasLane_maskOf _ _ hl]
  cases k with
  | always => simp [takenLanes, Spec.takes]
  | t => simp [takenLanes, Spec.takes, hasLane]
  | f => simp [takenLanes, Spec.takes, hasLane, hl]
  | any => exact hasLane_ite ..
  | all => exact hasLane_ite ..
  | none => exact hasLane_ite ..

/-- The target of a branch word in 64 bits is the sum of R228. -/
theorem branchTarget_eq_target (pc o : Nat) : branchTarget pc o = Spec.target pc o := by
  unfold branchTarget Spec.target wrapInt
  have hs : (BitVec.ofNat 19 o).toInt = signExt o 19 := by
    rw [BitVec.toInt_eq_toNat_cond]
    unfold signExt
    simp only [BitVec.toNat_ofNat]
    split <;> split <;> omega
  have hsum : BitVec.ofNat 64 pc + (BitVec.ofNat 19 o).signExtend 64 * 4 = BitVec.ofInt 64 (pc + 4 * signExt o 19) := by
    rw [← hs, BitVec.ofInt_add, BitVec.ofInt_mul, BitVec.mul_comm, BitVec.signExtend]
    rfl
  rw [hsum, BitVec.toNat_ofInt]

theorem dedup_map_const {α : Type} (ls : List α) (u : Nat) :
    dedup (ls.map (fun _ => u)) = if ls.isEmpty then [] else [u] := by
  have hrest : ∀ r : List α,
      (r.map (fun _ => u)).foldl (fun acc x => if acc.contains x then acc else acc ++ [x]) [u] = [u] := by
    intro r
    induction r with
    | nil => rfl
    | cons a r ih => simpa using ih
  cases ls with
  | nil => rfl
  | cons a r => exact hrest r

theorem lanesOf_isEmpty (m : Mask) : (lanesOf m).isEmpty = decide (m = 0) := by
  rw [Bool.eq_iff_iff, List.isEmpty_iff, decide_eq_true_eq]
  constructor
  · intro h
    apply mask_ext
    intro l hl
    have hout : l ∉ lanesOf m := by simp [h]
    rw [mem_lanesOf] at hout
    have : hasLane m l = false := by simpa [hl] using hout
    rw [this]
    simp [hasLane]
  · rintro rfl
    rfl

/-- The targets of lanes that all name one. -/
theorem targetsOf_const (m : Mask) (u : Nat) : targetsOf (fun _ => u) (lanesOf m) = if m = 0 then [] else [u] := by
  unfold targetsOf
  rw [dedup_map_const, lanesOf_isEmpty]
  simp

/-- A target that may be gone to passes the checks of R232. -/
theorem targetCheck_reachable {s : State} {x : Iss} {lanes : Mask} {u : Nat}
    (h : Spec.Reachable s x.g (if lanes = 0 then [] else [u])) : targetCheck s x lanes (fun _ => u) = none := by
  obtain ⟨haligned, hready⟩ := h
  have hbad : maskOf (fun l => hasLane lanes l && (u % 4 != 0 || decide (2 ^ 56 ≤ u))) = 0 := by
    refine maskOf_false _ (fun l _ => ?_)
    by_cases hz : lanes = 0
    · rw [hz]
      simp [hasLane]
    · obtain ⟨hmod, hlt⟩ := haligned u (by rw [if_neg hz]; exact List.mem_singleton_self u)
      rw [hmod, decide_eq_false (Nat.not_le.mpr hlt)]
      simp
  have hlow : lowest 0 = none := rfl
  unfold targetCheck
  simp only [hbad, hlow, targetsOf_const, hready]

/-! ### The issue of a word that turns its gang -/

@[simp] theorem State.issOf_core (s : State) (c : Cur) (g : Group) : (s.issOf c g).core = c.core := rfl
@[simp] theorem State.issOf_frame (s : State) (c : Cur) (g : Group) : (s.issOf c g).frame = c.frame := rfl
@[simp] theorem State.issOf_g (s : State) (c : Cur) (g : Group) : (s.issOf c g).g = g := rfl
@[simp] theorem State.issOf_act (s : State) (c : Cur) (g : Group) : (s.issOf c g).act = c.active := rfl
@[simp] theorem State.issOf_slices (s : State) (c : Cur) (g : Group) : (s.issOf c g).slices = c.slices := rfl
@[simp] theorem State.issOf_pc (s : State) (c : Cur) (g : Group) : (s.issOf c g).pc = c.pc := rfl
@[simp] theorem State.issOf_bounds (s : State) (c : Cur) (g : Group) : (s.issOf c g).bounds = s.boundsOf g := rfl

theorem State.setGroup_setGroup (s : State) (c f : Nat) (g h : Group) :
    (s.setGroup c f g).setGroup c f h = s.setGroup c f h := by
  unfold State.setGroup
  rw [tset_tset_same]

/-- A word that no xir may hold issues outside one. -/
theorem xir_false_of_issues {s : State} {c : Cur} {g : Group} {i : Instr} {d : Desc} {p : Nat} (h : Issues s c g i d p)
    (hd : d.inXir = false) : c.xir = false := by
  cases hc : c.xir with
  | false => rfl
  | true => exact absurd (h.lane hc) (by simp [hd])

/-- The group of an issue with the marks of issue, as the word's effect finds it. -/
def Group.marked (g : Group) (c : Cur) : Group :=
  { g with tokenWait := 0, lastGang := c.slices.headD 0, ahead := none,
           relock := if g.relock = some c.pc && !g.inHandler then none else g.relock }

/-- A group whose register cache a word with the registers `rs` has touched. -/
def Group.touched (g : Group) (rs : List Nat) : Group :=
  { g with cache := touchCache g.ctx (rs.filter (fun v => !(pendingRegs g).contains v)) g.cache }

/-- A word that no xir may hold and whose effect makes the marked group `y`: the next state is the marked state
with that group. -/
theorem issueWord_setGroup {s : State} {c : Cur} {g y : Group} {i : Instr} {d : Desc} {p q : Nat} (h : Issues s c g i d p)
    (hd : d.inXir = false) {own : Iss → Verdict} {e : State → State} (hv : own (s.issOf c g) = .go q e) (hq : q ≤ p)
    (he : ∀ u : State, u.group c.core c.frame = some (g.marked c) → e u = u.setGroup c.core c.frame y) :
    issueWord i d own s = .next (((s.paid c.core q).markIssued (s.issOf c g)).setGroup c.core c.frame
      (y.touched (d.srcs ++ d.dsts))) := by
  have hpaid : (s.paid c.core q).group c.core c.frame = some g := by rw [State.paid_group]; exact h.group
  have hmarked : ((s.paid c.core q).markIssued (s.issOf c g)).group c.core c.frame = some (g.marked c) :=
    State.markIssued_group (x := s.issOf c g) hpaid
  have htouch : ∀ u : State, u.group c.core c.frame = some y →
      u.touchRegs (s.issOf c g) (d.srcs ++ d.dsts) = u.setGroup c.core c.frame (y.touched (d.srcs ++ d.dsts)) :=
    fun u hu => State.modGroup_some (c := c.core) (f := c.frame) _ hu
  have hlane : ∀ u : State, u.laneDone (s.issOf c g) = u :=
    fun u => if_neg (show ¬ c.xir = true by simp [xir_false_of_issues h hd])
  rw [issueWord_go h hv hq, he _ hmarked, htouch _ (State.group_setGroup_same _ _ _ _), State.setGroup_setGroup, hlane]

/-- A word that no xir may hold and whose effect leaves the context `k` without speculation entries: it completes. -/
theorem issueWord_turns {s : State} {c : Cur} {g : Group} {i : Instr} {d : Desc} {p q : Nat} (h : Issues s c g i d p)
    (hd : d.inXir = false) {own : Iss → Verdict} {e : State → State} (hv : own (s.issOf c g) = .go q e) (hq : q ≤ p)
    {k : Ctx}
    (he : ∀ u : State, u.group c.core c.frame = some (g.marked c) →
      e u = u.setGroup c.core c.frame { g.marked c with ctx := k, specs := [] }) :
    ∃ t h', issueWord i d own s = .next t ∧ Kept s t c q { g with specs := [] } h' ∧ h'.ctx = k :=
  ⟨_, _, issueWord_setGroup h hd hv hq he, kept_of_mod (g := { g with specs := [] }) rfl (fun _ _ => rfl) rfl rfl, rfl⟩

/-! ### br and call -/

/-- The effect of a control transfer on its group. -/
theorem State.turn_group {u : State} {x : Iss} {y : Group} (hu : u.group x.core x.frame = some y) (sl : List Slice) :
    u.turn x sl = u.setGroup x.core x.frame { y with ctx := { y.ctx with slices := sl }, specs := [] } :=
  State.modGroup_some _ hu

theorem State.turn_setGroup (u : State) (x : Iss) (y : Group) (sl : List Slice) :
    (u.setGroup x.core x.frame y).turn x sl =
      u.setGroup x.core x.frame { y with ctx := { y.ctx with slices := sl }, specs := [] } := by
  rw [State.turn_group (State.group_setGroup_same ..), State.setGroup_setGroup]

/-- The write of a result with its elements in bounds changes registers alone. -/
theorem Ctx.write_eq_putWide {k : Ctx} {bounds : List (Nat × Bound)} {wide : Bool} {v : Nat} {r : ResK} {fmt : Fmt} {ix : Nat}
    {m : Mask} {val : Nat → Word64} (h : InBounds bounds ix fmt m val wide) :
    k.write bounds wide v r fmt ix m val = .ok (k.putWide wide v r fmt ix m val) := by
  rw [Ctx.write_inBounds h, Ctx.putWide_rest]

/-- The lanes of a gang that take a branch word, in the terms of the spec. -/
abbrev branchLanes (c : Cur) (g : Group) (k : BrCond) (m : Nat) : Mask :=
  maskOf (fun l => hasLane c.active l && Spec.takes k c.active (if m = 0 then c.active else g.ctx.maskAt m) l)

/-- A slice of a gang at a branch word that the lanes `taken` take. -/
abbrev branchTurn (c : Cur) (taken : Mask) (o i : Nat) (x : Slice) : Slice :=
  Spec.branched x (sliceBits taken i &&& x.cur) (Spec.target c.pc o) (c.pc + 4)

/-- The same inside a live attempt. -/
abbrev branchStep (c : Cur) (g : Group) (taken : Mask) (o : Nat) : Nat → Slice → Slice :=
  Spec.branchedInStep g.ctx.slices c.slices c.active taken (Spec.target c.pc o) (c.pc + 4)

/-- The link of a call, PC + 4 (R229). -/
abbrev linkWord (c : Cur) : Word64 := BitVec.ofNat 64 (c.pc + 4)

/-- The context of a branch word before its gang turns: a call whose branch some lane takes has written its link. -/
def linkedCtx (c : Cur) (g : Group) (link : Bool) (ix : Nat) (taken : Mask) : Ctx :=
  if link = true ∧ taken ≠ 0 then g.ctx.putWide true 2 .uni .n64 ix taken (fun _ => linkWord c) else g.ctx

/-- The verdict on a branch word whose target may be gone to, whose stacks do not overflow and whose link, if any, is in bounds:
it goes, writes the link and turns the gang. -/
theorem branchVerdict_go {s : State} {c : Cur} {g : Group} {k : BrCond} {m o : Nat} {link : Bool}
    (hr : Spec.Reachable s g (if branchLanes c g k m = 0 then [] else [Spec.target c.pc o]))
    (hgo : Spec.Goes c g (branchTurn c (branchLanes c g k m) o) (branchStep c g (branchLanes c g k m) o))
    (hb : link = true → branchLanes c g k m ≠ 0 →
      InBounds (s.boundsOf g) ((s.issOf c g).hints.bnd.getD 0) .n64 (branchLanes c g k m) (fun _ => linkWord c) true) :
    ∃ e, branchVerdict s (s.issOf c g) k m o link = .go 2 e ∧
      ∀ u : State, u.group c.core c.frame = some (g.marked c) → e u = u.setGroup c.core c.frame
        { g.marked c with
          ctx := { linkedCtx c g link ((s.issOf c g).hints.bnd.getD 0) (branchLanes c g k m) with
            slices := Spec.goes c g (branchTurn c (branchLanes c g k m) o) (branchStep c g (branchLanes c g k m) o) }
          specs := [] } := by
  have htaken : takenLanes k c.active ((s.issOf c g).maskReg m) = branchLanes c g k m := takenLanes_eq ..
  have hcheck := targetCheck_reachable (x := s.issOf c g) hr
  have hturn := turnBranch_goes hgo
  generalize branchLanes c g k m = taken at *
  generalize hix : (s.issOf c g).hints.bnd.getD 0 = ix at *
  have hbound : (link && taken != 0 && !boundOk (s.boundsOf g) ix .n64) = false := by
    cases hl : link && taken != 0 with
    | false => rfl
    | true =>
      rw [Bool.and_eq_true, bne_iff_ne] at hl
      rw [(hb hl.1 hl.2).1]
      rfl
  unfold branchVerdict
  simp only [State.issOf_act, State.issOf_pc, State.issOf_bounds, State.issOf_g, State.issOf_slices, htaken, hix, hbound,
    branchTarget_eq_target, hcheck, hturn, Bool.false_eq_true, if_false]
  refine ⟨_, rfl, fun u hu => ?_⟩
  unfold linkedCtx
  by_cases hl : link = true ∧ taken ≠ 0
  · have hl' : (link && taken != 0) = true := by simpa using hl
    have hctx : (g.marked c).ctx = g.ctx := rfl
    simp only [hl', if_true, State.issOf_core, State.issOf_frame, hu, hctx, Ctx.write_eq_putWide (hb hl.1 hl.2), if_pos hl]
    exact State.turn_setGroup u (s.issOf c g) _ _
  · have hl' : ¬ (link && taken != 0) = true := by simpa using hl
    rw [if_neg hl', if_neg hl]
    exact State.turn_group (x := s.issOf c g) hu _

/-- A register that a word has written into a context `k` with the lanes of its group's. -/
theorem wrote_of_put {g h : Group} {k : Ctx} {v : Nat} {r : ResK} {code : Fmt} {ix : Nat} {m : Mask} {val : Nat → Word}
    (hr : KindFits r val) (hlive : k.live = g.ctx.live) (hold : k.reg v = g.ctx.reg v)
    (hnew : h.ctx.reg v = (k.put v r code ix m val).reg v) : Wrote g h v code ix r m val := by
  obtain ⟨hfmt, hbound, hlanes⟩ := Ctx.put_same (c := k) (v := v) (fmt := code) (ix := ix) (m := m) hr
  have hshape := Ctx.put_shape k v r code ix m val
  rw [hlive] at hshape
  refine ⟨(congrArg VReg.fmt hnew).trans hfmt, (congrArg VReg.bound hnew).trans hbound,
    (congrArg (fun y : VReg => shapeCode y.shape) hnew).trans hshape, fun l hl hl' => ?_⟩
  rw [Ctx.lane_other hnew, hlanes l hl (by rw [hlive]; exact hl'), Ctx.lane_other hold]

theorem kindFits_uni (w : Word) : KindFits .uni (fun _ => w) := ⟨fun _ _ => rfl, fun h => nomatch h⟩

/-- A register pair that a word has written with one value for all its lanes. -/
theorem wrote_pair_uni {g h : Group} {v : Nat} {code : Fmt} {ix : Nat} {m : Mask} {w : Word64}
    (hregs : h.ctx.regs = (g.ctx.putWide true v .uni code ix m (fun _ => w)).regs) :
    Wrote g h v code ix .uni m (fun _ => lo32 w) ∧ Wrote g h (v + 1) code ix .uni m (fun _ => hi32 w) := by
  have hreg : ∀ n, h.ctx.reg n =
      ((g.ctx.put v .uni code ix m (fun _ => lo32 w)).put (v + 1) .uni code ix m (fun _ => hi32 w)).reg n := by
    intro n
    unfold Ctx.reg
    rw [hregs]
    rfl
  constructor
  · refine wrote_of_put (kindFits_uni _) rfl rfl ?_
    rw [hreg, Ctx.put_other _ _ _ _ _ _ _ _ (by omega : v ≠ v + 1)]
  · have hother := Ctx.put_other g.ctx v (v + 1) .uni code ix m (fun _ => lo32 w) (by omega)
    exact wrote_of_put (k := g.ctx.put v .uni code ix m (fun _ => lo32 w)) (kindFits_uni _) rfl hother (hreg _)

theorem Ctx.putWide_pair_other (k : Ctx) (v : Nat) (r : ResK) (code : Fmt) (ix : Nat) (m : Mask) (val : Nat → Word64) {n : Nat}
    (hlo : n ≠ v) (hhi : n ≠ v + 1) : (k.putWide true v r code ix m val).reg n = k.reg n :=
  (Ctx.put_other _ _ _ _ _ _ _ _ hhi).trans (Ctx.put_other _ _ _ _ _ _ _ _ hlo)

theorem linkedCtx_rest (c : Cur) (g : Group) (link : Bool) (ix : Nat) (taken : Mask) :
    linkedCtx c g link ix taken = { g.ctx with regs := (linkedCtx c g link ix taken).regs } := by
  unfold linkedCtx
  split
  · exact Ctx.putWide_rest ..
  · rfl

theorem linkedCtx_untaken (c : Cur) (g : Group) (link : Bool) (ix : Nat) : linkedCtx c g link ix 0 = g.ctx :=
  if_neg (fun h => h.2 rfl)

theorem linkedCtx_reg_other (c : Cur) (g : Group) (link : Bool) (ix : Nat) (taken : Mask) {v : Nat} (hlo : v ≠ 2)
    (hhi : v ≠ 3) :
    (linkedCtx c g link ix taken).reg v = g.ctx.reg v := by
  unfold linkedCtx
  split
  · exact Ctx.putWide_pair_other _ _ _ _ _ _ _ hlo hhi
  · rfl

/-! ### join -/

/-- Whether a join would pop an entry pushed before txb (R139). -/
theorem popsOlder_iff (a : Tx) (sl : List Slice) (ms : List Nat) :
    popsOlder a sl ms = true ↔
      ∃ i ∈ ms, ∃ y, sl[i]? = some y ∧ y.stack ≠ [] ∧ y.stack.length ≤ a.depths.getD i 0 := by
  unfold popsOlder
  rw [List.any_eq_true]
  refine exists_congr (fun i => and_congr_right (fun _ => ?_))
  cases sl[i]? with
  | none => simp
  | some y => simp

theorem getElem?_endSlices (sl : List Slice) (depths : List Nat) (lanes : Mask) (pc i : Nat) :
    (endSlices sl depths lanes pc true)[i]? = sl[i]?.map (fun x => if x.fin = true then x else
      { x with stack := x.stack.drop (x.stack.length - depths.getD i 0), cur := sliceBits lanes i, pc := pc,
               hints := .none, wait := .run, xir := none, quarters := 0 }) := by
  simp [endSlices, cutStack]

/-- A persistent abort of a live attempt: its stamp is released, and control stands at Lfail with the cause in c.txstat (R143). -/
theorem Group.abort_persistent {g : Group} {a : Tx} (h : g.tx = some a) (cause : Nat) :
    (g.abort cause true).tx = none ∧ (g.abort cause true).lastStamp = none ∧
      (g.abort cause true).ctx = { g.ctx with
        txstat := txstatWord cause true (a.layers.length - 1) a.restarts (g.ctx.txstat.getLsbD 17)
          (bitsOf g.ctx.txstat.toNat 18 7)
        slices := endSlices g.ctx.slices a.depths (a.lanes &&& g.ctx.live) a.lfail true } := by
  unfold Group.abort
  rw [h]
  exact ⟨rfl, rfl, rfl⟩

/-- The cause, the persist bit and the live bit of c.txstat after a persistent abort (R145). -/
theorem txstatWord_persist {cause depth restarts lines : Nat} (sig : Bool) (hc : cause < 16) (hd : depth < 8)
    (hr : restarts < 256) (hl : lines < 128) :
    (txstatWord cause true depth restarts sig lines).toNat % 32 = cause + 16 ∧
      (txstatWord cause true depth restarts sig lines).getLsbD 16 = false := by
  have hval : (txstatWord cause true depth restarts sig lines).toNat =
      cause + 16 + 32 * depth + 256 * restarts + (if sig then 2 ^ 17 else 0) + 2 ^ 18 * lines := by
    unfold txstatWord
    rw [BitVec.toNat_ofNat]
    cases sig <;> simp <;> omega
  have hbit : (txstatWord cause true depth restarts sig lines).toNat / 2 ^ 16 % 2 = 0 := by
    rw [hval]
    cases sig <;> simp <;> omega
  constructor
  · rw [hval]
    cases sig <;> simp <;> omega
  · rw [BitVec.getLsbD, Nat.testBit_eq_decide_div_mod_eq, hbit]
    rfl

/-- A word that ends its group's live attempt by a persistent abort. -/
theorem failed_of_abort {s : State} {c : Cur} {g : Group} {a : Tx} {q cause : Nat} (rs : List Nat) (htx : g.tx = some a)
    (hc : cause < 16) :
    Spec.Failed s (((s.paid c.core q).markIssued (s.issOf c g)).setGroup c.core c.frame
      (((g.marked c).abort cause true).touched rs)) c g a cause := by
  obtain ⟨hend, hstamp, hctx⟩ := Group.abort_persistent (g := g.marked c) htx cause
  refine ⟨_, ⟨State.group_setGroup_same .., hend, ?_, fun i => ?_, fun n => ?_⟩, hstamp, fun hlayers hrestarts => ?_⟩
  · exact ⟨(congrArg Ctx.regs hctx :), (congrArg Ctx.masks hctx :)⟩
  · exact (congrArg (fun k : Ctx => k.slices[i]?) hctx).trans (getElem?_endSlices ..)
  · exact (congrArg (fun u : State => u.mem.read n) (marked_rest s c.core q (s.issOf c g)) :)
  · have hstat := congrArg Ctx.txstat hctx
    have hexact : bitsOf g.ctx.txstat.toNat 18 7 < 128 := Nat.mod_lt _ (by decide)
    have hdepth : a.layers.length - 1 < 8 := by omega
    obtain ⟨hcause, hlive⟩ := txstatWord_persist (g.ctx.txstat.getLsbD 17) hc hdepth hrestarts hexact
    exact ⟨(congrArg (fun w : Word => w.toNat % 32) hstat).trans hcause,
      (congrArg (fun w : Word => w.getLsbD 16) hstat).trans hlive⟩

/-! ### The statements -/

/-- Settles O13: a branch word turns its gang by the tables of the spec, and the gang of a call has its link first. -/
theorem branchAndCall : Obligations.BranchAndCall := by
  unfold Obligations.BranchAndCall
  constructor
  case left =>
    intro k m o s c g h taken dest turn inStep hr hgo
    obtain ⟨e, hv, he⟩ := branchVerdict_go (link := false) hr hgo (fun hl => nomatch hl)
    exact issueWord_turns (own := fun x => branchVerdict s x k m o false) h rfl hv (Nat.le_add_left 2 14) he
  case right =>
    intro k m o s c g h taken dest turn inStep ix link hr hb hgo
    obtain ⟨e, hv, he⟩ := branchVerdict_go (link := true) hr hgo (fun _ => hb)
    obtain ⟨t, h', hnext, hkept, hctx⟩ :=
      issueWord_turns (own := fun x => branchVerdict s x k m o true) h rfl hv (Nat.le_add_left 2 14) he
    have hregs : h'.ctx.regs = (linkedCtx c g true ix taken).regs := by rw [hctx]
    have hreg : ∀ v, h'.ctx.reg v = (linkedCtx c g true ix taken).reg v := fun v => by unfold Ctx.reg; rw [hregs]
    refine ⟨t, h', hnext, hkept, ?_, fun v hlo hhi => ?_, fun hz v => ?_, fun hne => ?_⟩
    · rw [hregs, hctx, linkedCtx_rest]
    · rw [hreg, linkedCtx_reg_other c g true ix taken hlo hhi]
    · rw [hreg, hz, linkedCtx_untaken]
    · refine wrote_pair_uni ?_
      rw [hregs, linkedCtx, if_pos ⟨rfl, hne⟩]

/-- Settles O14: join pops by the tables of the spec, in step inside an attempt, and ends an attempt whose older entries it would
pop. -/
theorem joinWord : Obligations.JoinWord := by
  unfold Obligations.JoinWord
  intro s c g h
  constructor
  case left =>
    intro htx
    refine issueWord_turns h rfl rfl (Nat.le_add_left 1 15) (fun u hu => ?_)
    simp only [State.issOf_g, State.issOf_slices, htx, joinSlice_eq_joined, afterTurn_onSlices]
    exact State.turn_group (x := s.issOf c g) hu _
  case right =>
    intro a htx older
    constructor
    case left =>
      intro hyoung
      have hpop : ¬ popsOlder a g.ctx.slices c.slices = true := fun hp => hyoung ((popsOlder_iff ..).mp hp)
      refine issueWord_turns h rfl rfl (Nat.le_add_left 1 15) (fun u hu => ?_)
      simp only [State.issOf_g, State.issOf_slices, htx, if_neg hpop, joinSliceTx_eq_joinedInStep, afterTurn_onSlices]
      exact State.turn_group (x := s.issOf c g) hu _
    case right =>
      intro hold
      have hpop := (popsOlder_iff a g.ctx.slices c.slices).mpr hold
      refine ⟨_, issueWord_setGroup h rfl rfl (Nat.le_add_left 1 15) (fun u hu => ?_), failed_of_abort _ htx (by decide)⟩
      simp only [State.issOf_g, State.issOf_slices, htx, hpop, if_true]
      exact State.modGroup_some _ hu

end Sys2Proof.Machine
end

section
/-! SUPPORT. Values of the integer words (R215 to R223): the meanings of the machine compute on numbers, the tables of the spec on
words; one lemma for each operation says that they give the same word. -/

namespace Sys2Proof.Machine

open Sys2Proof.Safety

/-! ### Numbers of words -/

theorem signExt_toNat {n : Nat} (x : BitVec n) : signExt x.toNat n = x.toInt := by
  unfold signExt
  rw [BitVec.toInt_eq_toNat_cond, Nat.mod_eq_of_lt x.isLt]
  cases n with
  | zero => rw [BitVec.eq_nil x]; rfl
  | succ n => rw [Nat.pow_succ, Nat.add_sub_cancel]; congr 1; exact propext ⟨fun h => by omega, fun h => by omega⟩

theorem sx_toNat {n : Nat} (x : BitVec n) : sx n x.toNat = x.toInt := signExt_toNat x

theorem ofNat_wrapInt (n : Nat) (z : Int) : BitVec.ofNat n (wrapInt z n) = BitVec.ofInt n z := by
  apply BitVec.eq_of_toNat_eq
  rw [BitVec.toNat_ofNat, BitVec.toNat_ofInt]
  unfold wrapInt
  refine Nat.mod_eq_of_lt ((Int.toNat_lt' (Nat.two_pow_pos n)).mpr ?_)
  exact Int.emod_lt_of_pos _ (Int.natCast_pos.mpr (Nat.two_pow_pos n))

/-- A value on numbers that is the number of a word. -/
theorem ofNat_of_toNat {n v : Nat} {w : BitVec n} (h : v = w.toNat) : BitVec.ofNat n v = w := by
  rw [h, BitVec.ofNat_toNat, BitVec.setWidth_eq]

/-! ### Sums, products, minima, quotients (R215, R216) -/

theorem add_value (x y : Word) : BitVec.ofNat 32 (x.toNat + y.toNat) = x + y :=
  BitVec.eq_of_toNat_eq (by simp)

theorem sub_value (x y : Word) : BitVec.ofNat 32 (x.toNat + (2 ^ 32 - y.toNat)) = x - y :=
  BitVec.eq_of_toNat_eq (by simp [BitVec.toNat_sub, Nat.add_comm])

theorem mul_value (x y : Word) : BitVec.ofNat 32 (x.toNat * y.toNat) = x * y :=
  BitVec.eq_of_toNat_eq (by simp [BitVec.toNat_mul])

theorem mulHiS_value (x y : Word) :
    BitVec.ofNat 32 (wrapInt (sx 32 x.toNat * sx 32 y.toNat) 64 / 2 ^ 32) = BitVec.ofInt 32 (x.toInt * y.toInt / 2 ^ 32) := by
  rw [sx_toNat, sx_toNat]
  generalize x.toInt * y.toInt = z
  apply BitVec.eq_of_toNat_eq
  rw [BitVec.toNat_ofNat, BitVec.toNat_ofInt]
  unfold wrapInt
  omega

theorem sx_le_iff (x y : Word) : sx 32 x.toNat ≤ sx 32 y.toNat ↔ x.slt y = true ∨ x = y := by
  rw [sx_toNat, sx_toNat, BitVec.slt_iff_toInt_lt, ← BitVec.toInt_inj]
  exact Int.le_iff_lt_or_eq

theorem toNat_le_iff (x y : Word) : x.toNat ≤ y.toNat ↔ x.ult y = true ∨ x = y := by
  rw [BitVec.ult_iff_lt, BitVec.lt_def, ← BitVec.toNat_inj]
  exact Nat.le_iff_lt_or_eq

/-- A choice by ≤ is the choice by < where the two results agree on equal words. -/
theorem choice_value {le : Prop} [Decidable le] {lt : Bool} {x y p q : Word} (hle : le ↔ lt = true ∨ x = y) (h : x = y → p = q) :
    BitVec.ofNat 32 (if le then p.toNat else q.toNat) = if lt then p else q := by
  refine ofNat_of_toNat ?_
  by_cases hlt : lt = true
  · rw [if_pos hlt, if_pos (hle.mpr (.inl hlt))]
  · rw [if_neg hlt]
    split
    · next hp => rw [h ((hle.mp hp).resolve_left hlt)]
    · rfl

theorem minS_value (x y : Word) :
    BitVec.ofNat 32 (if sx 32 x.toNat ≤ sx 32 y.toNat then x.toNat else y.toNat) = if x.slt y then x else y :=
  choice_value (sx_le_iff x y) id

theorem maxS_value (x y : Word) :
    BitVec.ofNat 32 (if sx 32 x.toNat ≤ sx 32 y.toNat then y.toNat else x.toNat) = if x.slt y then y else x :=
  choice_value (sx_le_iff x y) Eq.symm

theorem minN_value (x y : Word) :
    BitVec.ofNat 32 (if x.toNat ≤ y.toNat then x.toNat else y.toNat) = if x.ult y then x else y :=
  choice_value (toNat_le_iff x y) id

theorem maxN_value (x y : Word) :
    BitVec.ofNat 32 (if x.toNat ≤ y.toNat then y.toNat else x.toNat) = if x.ult y then y else x :=
  choice_value (toNat_le_iff x y) Eq.symm

theorem abs_value (x : Word) : BitVec.ofNat 32 (sx 32 x.toNat).natAbs = if x.slt 0 then -x else x := by
  have hzero : BitVec.toInt (0 : Word) = 0 := rfl
  simp only [sx_toNat, BitVec.slt_eq_decide, decide_eq_true_eq, hzero]
  by_cases hneg : x.toInt < 0
  · rw [if_pos hneg]
    apply BitVec.eq_of_toNat_eq
    rw [BitVec.toNat_ofNat, BitVec.toNat_neg]
    have := BitVec.toInt_eq_toNat_cond x
    have := x.isLt
    split at * <;> omega
  · rw [if_neg hneg]
    refine ofNat_of_toNat ?_
    have := BitVec.toInt_eq_toNat_cond x
    have := x.isLt
    split at * <;> omega

theorem neg_value (x : Word) : BitVec.ofNat 32 (2 ^ 32 - x.toNat) = -x :=
  BitVec.eq_of_toNat_eq (by simp)

theorem toInt_ne_zero {x : Word} (h : x ≠ 0) : x.toInt ≠ 0 := fun e => h (BitVec.eq_of_toInt_eq e)

theorem toInt_eq_min_iff (x : Word) : x.toInt = -(2 ^ 31) ↔ x = 0x80000000 :=
  ⟨fun e => BitVec.eq_of_toInt_eq e, fun e => by rw [e]; rfl⟩

theorem toInt_eq_neg_one_iff (x : Word) : x.toInt = -1 ↔ x = -1 :=
  ⟨fun e => BitVec.eq_of_toInt_eq e, fun e => by rw [e]; rfl⟩

/-- Quotient and remainder as the machine computes them, over the signed values of two words. -/
theorem divS_toNat (x y : Word) : divS x.toNat y.toNat =
    if y = 0 then (-1, x.toInt) else if x = 0x80000000 ∧ y = -1 then (-(2 ^ 31), 0)
    else (x.toInt.tdiv y.toInt, x.toInt - y.toInt * x.toInt.tdiv y.toInt) := by
  unfold divS
  simp only [sx_toNat, Bool.and_eq_true, decide_eq_true_eq, toInt_eq_min_iff, toInt_eq_neg_one_iff]
  by_cases hy : y = 0
  · simp [hy]
  · rw [if_neg (toInt_ne_zero hy), if_neg hy]

theorem quotS_value (x y : Word) : BitVec.ofNat 32 (wrapInt (divS x.toNat y.toNat).1 32) = Spec.quotS x y := by
  rw [ofNat_wrapInt, divS_toNat]
  unfold Spec.quotS
  split
  · rfl
  · split <;> rfl

theorem remS_value (x y : Word) : BitVec.ofNat 32 (wrapInt (divS x.toNat y.toNat).2 32) = Spec.remS x y := by
  rw [ofNat_wrapInt, divS_toNat]
  unfold Spec.remS
  split
  · exact BitVec.ofInt_toInt
  · split <;> rfl

theorem quotN_value (x y : Word) : BitVec.ofNat 32 (divN x.toNat y.toNat).1 = if y = 0 then -1 else x / y := by
  unfold divN
  by_cases hy : y = 0
  · rw [if_pos hy, hy]; rfl
  · rw [if_neg hy, if_neg (fun e => hy (BitVec.eq_of_toNat_eq (e.trans rfl)) : ¬ y.toNat = 0)]
    exact ofNat_of_toNat (BitVec.toNat_udiv ..).symm

theorem remN_value (x y : Word) : BitVec.ofNat 32 (divN x.toNat y.toNat).2 = if y = 0 then x else x % y := by
  unfold divN
  by_cases hy : y = 0
  · rw [if_pos hy, hy]; exact ofNat_of_toNat rfl
  · rw [if_neg hy, if_neg (fun e => hy (BitVec.eq_of_toNat_eq (e.trans rfl)) : ¬ y.toNat = 0)]
    refine ofNat_of_toNat ?_
    rw [BitVec.toNat_umod]
    have := Nat.div_add_mod x.toNat y.toNat
    dsimp only
    omega

/-- A saturating sum or difference is the clamp of the spec. -/
theorem sat_value (f : Fmt) (z : Int) : BitVec.ofNat 32 (satBits f 32 z) = Spec.clampWord z (intRange f).1 (intRange f).2 :=
  ofNat_wrapInt ..

theorem addSatS_value (x y : Word) : BitVec.ofNat 32 (satBits .s32 32 (sx 32 x.toNat + sx 32 y.toNat)) =
    Spec.clampWord (x.toInt + y.toInt) (-(2 ^ 31)) (2 ^ 31 - 1) := by
  rw [sx_toNat, sx_toNat]; exact sat_value ..

theorem subSatS_value (x y : Word) : BitVec.ofNat 32 (satBits .s32 32 (sx 32 x.toNat - sx 32 y.toNat)) =
    Spec.clampWord (x.toInt - y.toInt) (-(2 ^ 31)) (2 ^ 31 - 1) := by
  rw [sx_toNat, sx_toNat]; exact sat_value ..

/-! ### Bits and shifts (R219, R220) -/

theorem and_value (x y : Word) : BitVec.ofNat 32 (Nat.land x.toNat y.toNat) = x &&& y := ofNat_of_toNat (BitVec.toNat_and ..).symm

theorem or_value (x y : Word) : BitVec.ofNat 32 (Nat.lor x.toNat y.toNat) = x ||| y := ofNat_of_toNat (BitVec.toNat_or ..).symm

theorem xor_value (x y : Word) : BitVec.ofNat 32 (Nat.xor x.toNat y.toNat) = x ^^^ y := ofNat_of_toNat (BitVec.toNat_xor ..).symm

theorem not32_toNat (x : Word) : not32 x.toNat = (~~~x).toNat := by
  unfold not32
  rw [Nat.mod_eq_of_lt x.isLt, BitVec.toNat_not]

theorem not_value (x : Word) : BitVec.ofNat 32 (not32 x.toNat) = ~~~x := ofNat_of_toNat (not32_toNat x)

theorem andn_value (x y : Word) : BitVec.ofNat 32 (Nat.land x.toNat (not32 y.toNat)) = x &&& ~~~y := by
  rw [not32_toNat]; exact and_value ..

theorem orn_value (x y : Word) : BitVec.ofNat 32 (Nat.lor x.toNat (not32 y.toNat)) = x ||| ~~~y := by
  rw [not32_toNat]; exact or_value ..

theorem shl_value (x : Word) (k : Nat) : BitVec.ofNat 32 (x.toNat * 2 ^ k) = x <<< k :=
  BitVec.eq_of_toNat_eq (by rw [BitVec.toNat_ofNat, BitVec.toNat_shiftLeft, Nat.shiftLeft_eq])

theorem shr_value (x : Word) (k : Nat) : BitVec.ofNat 32 (x.toNat / 2 ^ k) = x >>> k :=
  ofNat_of_toNat (by rw [BitVec.toNat_ushiftRight, Nat.shiftRight_eq_div_pow])

theorem sar_value (x : Word) (k : Nat) : BitVec.ofNat 32 (sar 32 x.toNat k) = x.sshiftRight k := by
  unfold sar BitVec.sshiftRight
  rw [ofNat_wrapInt, sx_toNat, Int.shiftRight_eq_div_pow]
  rfl

theorem rotl_value (x : Word) {k : Nat} (hk : k < 32) : BitVec.ofNat 32 (rotl32 x.toNat k) = x.rotateLeft k := by
  refine ofNat_of_toNat ?_
  have hpow : (2 : Nat) ^ 32 = 2 ^ k * 2 ^ (32 - k) := by rw [← Nat.pow_add]; congr 1; omega
  have hhigh : x.toNat * 2 ^ k % 2 ^ 32 = 2 ^ k * (x.toNat % 2 ^ (32 - k)) := by
    rw [hpow, Nat.mul_comm, Nat.mul_mod_mul_left]
  have hlow : x.toNat / 2 ^ (32 - k) < 2 ^ k := by
    rw [Nat.div_lt_iff_lt_mul (Nat.two_pow_pos _), ← hpow]
    exact x.isLt
  unfold rotl32
  rw [BitVec.toNat_rotateLeft, Nat.mod_eq_of_lt hk, Nat.shiftLeft_eq, Nat.shiftRight_eq_div_pow, hhigh,
    Nat.two_pow_add_eq_or_of_lt hlow]

/-! ### Counts (R221) -/

theorem popBits_eq_ones (n x : Nat) : popBits n x = Spec.ones n x.testBit := by
  induction n generalizing x with
  | zero => rfl
  | succ n ih =>
    unfold popBits
    rw [ih]
    unfold Spec.ones
    rw [List.range_succ_eq_map, List.filter_cons, List.filter_map]
    have hrest : (List.range n).filter (x.testBit ∘ Nat.succ) = (List.range n).filter (x / 2).testBit :=
      List.filter_congr (fun k _ => Nat.testBit_succ ..)
    rw [hrest, Nat.testBit_zero]
    rcases Nat.mod_two_eq_zero_or_one x with h | h <;> simp [h, Nat.add_comm]

theorem popc_value (x : Word) : BitVec.ofNat 32 (popBits 32 x.toNat) = BitVec.ofNat 32 (Spec.ones 32 x.getLsbD) :=
  congrArg _ (popBits_eq_ones ..)

theorem ctzBits_eq_trailing (n x : Nat) : ctzBits n x = Spec.trailing n x.testBit := by
  induction n generalizing x with
  | zero => rfl
  | succ n ih =>
    unfold ctzBits
    rw [ih]
    unfold Spec.trailing
    rw [List.range_succ_eq_map, List.find?_cons, Nat.testBit_zero, List.find?_map]
    have hrest : (x.testBit ∘ Nat.succ) = (x / 2).testBit := funext (fun k => Nat.testBit_succ ..)
    rw [hrest]
    rcases Nat.mod_two_eq_zero_or_one x with h | h
    · cases hf : (List.range n).find? (x / 2).testBit <;> simp [h]
    · simp [h]

theorem ctz_value (x : Word) : BitVec.ofNat 32 (ctzBits 32 x.toNat) = BitVec.ofNat 32 (Spec.trailing 32 x.getLsbD) :=
  congrArg _ (ctzBits_eq_trailing ..)

theorem clzBits_eq_leading {n x : Nat} (hx : x < 2 ^ n) : clzBits n x = Spec.leading n x.testBit := by
  unfold clzBits Spec.leading
  by_cases hz : x = 0
  · have hnone : (List.range n).find? (fun k => x.testBit (n - 1 - k)) = none := by simp [hz]
    rw [if_pos hz, hnone]
    rfl
  · have hlog : x.log2 < n := (Nat.log2_lt hz).mpr hx
    have hfirst : (List.range n).find? (fun k => x.testBit (n - 1 - k)) = some (n - 1 - x.log2) := by
      rw [List.find?_range_eq_some]
      refine ⟨?_, List.mem_range.mpr (by omega), fun j hj => ?_⟩
      · rw [show n - 1 - (n - 1 - x.log2) = x.log2 by omega]
        exact Nat.testBit_log2 hz
      · have habove : x < 2 ^ (n - 1 - j) := (Nat.log2_lt hz).mp (by omega)
        simp [Nat.testBit_lt_two_pow habove]
    rw [if_neg hz, hfirst]
    rfl

theorem clz_value (x : Word) : BitVec.ofNat 32 (clzBits 32 x.toNat) = BitVec.ofNat 32 (Spec.leading 32 x.getLsbD) :=
  congrArg _ (clzBits_eq_leading x.isLt)

theorem revBits_lt (n x : Nat) : revBits n x < 2 ^ n := by
  induction n generalizing x with
  | zero => simp [revBits]
  | succ n ih =>
    have hlow := ih (x / 2)
    have hbit := Nat.mod_lt x (by decide : 2 > 0)
    unfold revBits
    have : x % 2 * 2 ^ n ≤ 1 * 2 ^ n := Nat.mul_le_mul_right _ (by omega)
    rw [Nat.pow_succ]
    omega

theorem testBit_revBits (n x i : Nat) : (revBits n x).testBit i = (decide (i < n) && x.testBit (n - 1 - i)) := by
  induction n generalizing x with
  | zero => simp [revBits]
  | succ n ih =>
    unfold revBits
    rw [Nat.mul_comm, Nat.testBit_two_pow_mul_add _ (revBits_lt ..), ih]
    by_cases hi : i < n
    · rw [if_pos hi, show n + 1 - 1 - i = n - 1 - i + 1 by omega, Nat.testBit_succ]
      simp [hi, Nat.lt_succ_of_lt hi]
    · rw [if_neg hi]
      rcases Nat.eq_or_lt_of_not_lt hi with h | h
      · subst h
        simp [Nat.testBit_zero]
      · have hbit : x % 2 < 2 ^ (i - n) :=
          Nat.lt_of_lt_of_le (Nat.mod_lt _ (by decide)) (Nat.le_self_pow (by omega) 2)
        rw [Nat.testBit_lt_two_pow hbit, decide_eq_false (by omega)]
        rfl

theorem brev_value (x : Word) : BitVec.ofNat 32 (revBits 32 x.toNat) = x.reverse := by
  apply BitVec.eq_of_getLsbD_eq
  intro i hi
  rw [BitVec.getLsbD_ofNat, testBit_revBits, BitVec.getLsbD_reverse, BitVec.getMsbD]
  simp [hi, BitVec.getLsbD]

/-! ### Bit fields (R222, R223) -/

theorem field_toNat (x : Word) (pos width : Nat) : field x.toNat pos width =
    ((x.extractLsb' pos (min (min width 32) (32 - pos))).toNat, min (min width 32) (32 - pos)) := by
  unfold field
  rw [BitVec.extractLsb'_toNat, Nat.shiftRight_eq_div_pow]

theorem bfeN_value (x : Word) (pos width : Nat) : BitVec.ofNat 32 (bfe false x.toNat pos width) = Spec.fieldN x pos width := by
  unfold bfe Spec.fieldN
  rw [field_toNat]
  generalize hn : min (min width 32) (32 - pos) = n
  by_cases hz : n = 0
  · subst hz
    simp [BitVec.of_length_zero]
  · simp only [if_neg hz, Bool.false_eq_true, if_false, BitVec.ofNat_toNat]

theorem bfeS_value (x : Word) (pos width : Nat) : BitVec.ofNat 32 (bfe true x.toNat pos width) = Spec.fieldS x pos width := by
  unfold bfe Spec.fieldS
  rw [field_toNat]
  generalize hn : min (min width 32) (32 - pos) = n
  by_cases hz : n = 0
  · subst hz
    simp [BitVec.of_length_zero]
  · simp only [if_neg hz, if_true, signExt_toNat, ofNat_wrapInt]
    rfl

/-- The mask of a field lies in the word. -/
theorem fieldMask_lt (pos width : Nat) : (2 ^ min width (32 - pos) - 1) * 2 ^ pos < 2 ^ 32 := by
  rcases Nat.lt_or_ge pos 32 with hp | hp
  · have hle : 2 ^ min width (32 - pos) * 2 ^ pos ≤ 2 ^ 32 := by
      rw [← Nat.pow_add]
      exact Nat.pow_le_pow_right (by decide) (by omega)
    have hpos : 0 < 2 ^ pos := Nat.two_pow_pos pos
    rw [Nat.sub_mul]
    omega
  · rw [show min width (32 - pos) = 0 by omega]
    simp

theorem bfi_value (old x : Word) (pos width : Nat) :
    BitVec.ofNat 32 (bfiVal old.toNat x.toNat pos width) = Spec.insertField old x pos width := by
  have hlt := fieldMask_lt pos width
  unfold bfiVal Spec.insertField
  dsimp only
  generalize (2 ^ min width (32 - pos) - 1) * 2 ^ pos = m at hlt
  have hm : (BitVec.ofNat 32 m).toNat = m := by rw [BitVec.toNat_ofNat, Nat.mod_eq_of_lt hlt]
  have hkept : Nat.land old.toNat (2 ^ 32 - 1 - m) = (old &&& ~~~BitVec.ofNat 32 m).toNat := by
    rw [BitVec.toNat_and, BitVec.toNat_not, hm]; rfl
  have hput : BitVec.ofNat 32 (Nat.land (x.toNat * 2 ^ pos) m) = (x <<< pos) &&& BitVec.ofNat 32 m := by
    rw [← shl_value]; exact BitVec.ofNat_and ..
  calc BitVec.ofNat 32 (Nat.lor _ _) = BitVec.ofNat 32 (Nat.land old.toNat (2 ^ 32 - 1 - m)) |||
        BitVec.ofNat 32 (Nat.land (x.toNat * 2 ^ pos) m) := BitVec.ofNat_or ..
    _ = _ := by rw [hkept, hput, BitVec.ofNat_toNat, BitVec.setWidth_eq]

/-! ### Immediates (R176, R182) -/

theorem imm_value (x : Iss) (i : Nat) : BitVec.ofNat 32 (x.imm i true) = Spec.immediate x.hints i := by
  unfold Iss.imm Spec.immediate
  cases x.hints.wide with
  | some e => exact BitVec.eq_of_toNat_eq (by simp)
  | none =>
    have hmod : signExt i 12 = signExt (BitVec.ofNat 12 i).toNat 12 := by
      unfold signExt
      rw [BitVec.toNat_ofNat, Nat.mod_mod]
    dsimp only
    rw [if_pos rfl, ofNat_wrapInt, hmod, signExt_toNat]
    rfl

end Sys2Proof.Machine
end

section
/-! SUPPORT. The lane-independent words with one single-register result (R44, R45, R158, R211 to R223): what a machine word must
give an instruction, what the instruction then leaves, and the rows of the spec's tables as such words. -/

namespace Sys2Proof.Machine

open Sys2Proof.Safety

/-! ### Shapes and prices -/

/-- The rule of the machine for a row of R44. -/
def affRule : Spec.Row → AffRule
  | .plain => .none
  | .sum => .addSub
  | .product => .mul
  | .shift => .shl

/-- What a row of R44 asks of an operation: on the compact sources that the row names, its results go in steps of one stride. -/
def Linear (row : Spec.Row) (f : Word → Word → Word) : Prop :=
  match row with
  | .plain => True
  | .sum => ∀ v w : Nat → Word, Steps v → Steps w → Steps (fun l => f (v l) (w l))
  | .product => ∀ (v : Nat → Word) (k : Word), Steps v → Steps (fun l => f (v l) k) ∧ Steps (fun l => f k (v l))
  | .shift => ∀ (v : Nat → Word) (k : Word), Steps v → Steps (fun l => f (v l) k)

theorem steps_const (k : Word) : Steps (fun _ => k) := ⟨k, 0, fun l => by simp⟩

theorem linear_add : Linear .sum (fun x y => x + y) := fun _ _ hv hw => hv.add hw

theorem linear_sub : Linear .sum (fun x y => x - y) := fun v w hv hw =>
  (hv.add (hw.mul_const (-1))).congr (fun l => by
    show v l + w l * -1#32 = v l - w l
    rw [BitVec.mul_neg, BitVec.mul_one, BitVec.sub_eq_add_neg])

theorem linear_mul : Linear .product (fun x y => x * y) := fun _ k hv =>
  ⟨hv.mul_const k, (hv.mul_const k).congr (fun _ => BitVec.mul_comm ..)⟩

theorem Steps.shiftLeft {v : Nat → Word} (hv : Steps v) (n : Nat) : Steps (fun l => v l <<< n) :=
  (hv.mul_const (BitVec.twoPow 32 n)).congr (fun _ => (BitVec.shiftLeft_eq_mul_twoPow ..).symm)

theorem linear_shl : Linear .shift (fun x y => x <<< (y.toNat % 32)) := fun _ _ hv => hv.shiftLeft _

theorem linear_shlImm (n : Nat) : Linear .shift (fun x _ => x <<< n) := fun _ _ hv => hv.shiftLeft n

theorem resultKind_plain (l : List Shape) : resultKind .none l = Spec.shapeOf false .plain l := by
  unfold resultKind Spec.shapeOf
  simp

theorem resultKind_affRule1 (row : Spec.Row) (a : Shape) : resultKind (affRule row) [a] = Spec.shapeOf false row [a] := by
  cases row <;> cases a <;> rfl

theorem resultKind_affRule2 (row : Spec.Row) (a b : Shape) :
    resultKind (affRule row) [a, b] = Spec.shapeOf false row [a, b] := by
  cases row <;> cases a <;> cases b <;> rfl

/-- The values of a word with two sources under an affine shape. -/
theorem Linear.steps2 {row : Spec.Row} {f : Word → Word → Word} (hf : Linear row f) {c : Ctx} {a b : Nat}
    (h : resultKind (affRule row) [(c.reg a).shape, (c.reg b).shape] = .aff) :
    Steps (fun l => f (c.lane a l) (c.lane b l)) := by
  have huni : ∀ v : Nat, (c.reg v).shape.isUniform = true → ∀ l, c.lane v l = c.lane v 0 :=
    fun v hv l => Shape.lane_uniform hv l
  cases row with
  | plain => exact absurd h resultKind_none
  | sum =>
    have hc := resultKind_addSub h
    exact hf _ _ (lane_steps (hc _ (by simp))) (lane_steps (hc _ (by simp)))
  | product =>
    obtain ⟨ha, hb, hu | hu⟩ := resultKind_mul2 h
    · exact (hf _ (c.lane a 0) (lane_steps hb)).2.congr (fun l => by rw [huni a hu l])
    · exact (hf _ (c.lane b 0) (lane_steps ha)).1.congr (fun l => by rw [huni b hu l])
  | shift =>
    obtain ⟨ha, hu⟩ := resultKind_shl2 h
    exact (hf _ (c.lane b 0) (lane_steps ha)).congr (fun l => by rw [huni b hu l])

/-- The values of a word with one source and a constant under an affine shape. -/
theorem Linear.steps1 {row : Spec.Row} {f : Word → Word → Word} (hf : Linear row f) {c : Ctx} {a : Nat} (k : Word)
    (h : resultKind (affRule row) [(c.reg a).shape] = .aff) : Steps (fun l => f (c.lane a l) k) := by
  cases row with
  | plain => exact absurd h resultKind_none
  | sum => exact hf _ _ (lane_steps (resultKind_addSub h _ (by simp))) (steps_const k)
  | product => exact (hf _ k (lane_steps (resultKind_mul1 h))).1
  | shift => exact hf _ k (lane_steps (resultKind_shl1 h))

theorem kind_resultOf (s : State) (c : Cur) (g : Group) (i : Instr) (srcs : List Nat) :
    (s.issOf c g).kind (Spec.shapeOf false (Spec.rowOf i) (srcs.map (fun v => (g.ctx.reg v).shape))) =
      Spec.resultOf i c g srcs := by
  unfold Iss.kind Spec.resultOf
  rw [show (s.issOf c g).xir = c.xir from rfl]
  cases c.xir <;> rfl

theorem shapedPrice_cost (i : Instr) (g : Group) (srcs : List Nat) (m : Mask) (k : ResK) :
    shapedPrice (Spec.price i) (srcs.map (fun v => (g.ctx.reg v).shape)) g.ctx.live m k = Spec.cost i g srcs m k := by
  unfold shapedPrice Spec.cost covers
  simp only [List.all_map, Bool.and_eq_true, beq_iff_eq, bne_iff_ne]
  rfl

/-! ### Words that give an instruction its meaning -/

/-- The machine word `a` gives the instruction `i` its meaning: for the issue `x` of a group with the context `k`, a single register
of the code and with the lanes `val`, at the price and with the shape of the spec's tables. -/
structure Alu.Gives (a : Alu) (i : Instr) (w : Bool) (x : Iss) (k : Ctx) (code : Fmt) (val : Nat → Word) : Prop where
  means : ∀ s, exec i s = issueAlu i w a s
  oneReg : a.wide = false
  sources : a.srcs.all (fun r => sourceOk k r.1 r.2) = true
  formats : a.ok (a.srcs.map (fun r => (k.reg r.1).fmt)) = true
  codeIs : a.code (a.srcs.map (fun r => (k.reg r.1).fmt)) = code
  narrow : code.isWide = false
  price : a.price = Spec.price i
  cheap : a.price.1 ≤ 16 ∧ a.price.2 ≤ 16
  kind : resultKind a.aff (a.shapes k) = Spec.shapeOf false (Spec.rowOf i) (a.shapes k)
  value : ∀ l, lo32 (a.lane x k l) = val l
  steps : resultKind a.aff (a.shapes k) = .aff → Steps val

/-- The operands of a machine word: destination, source registers, the register that may give the bound index, mask operand. -/
structure Alu.Operands (a : Alu) (d : Nat) (srcs : List Nat) (va : Option Nat) (m : Nat) : Prop where
  dst : a.d = d
  regs : a.regs = srcs
  first : a.srcs.head?.map Prod.fst = va
  mask : a.ms = some m

section
variable {s : State} {c : Cur} {g : Group} {i : Instr} {w : Bool} {a : Alu} {code : Fmt} {val : Nat → Word} {d : Nat}
  {srcs : List Nat} {va : Option Nat} {m : Nat}

theorem Alu.Gives.affFits {x : Iss} {k : Ctx} (h : a.Gives i w x k code val) : a.AffFits x k := fun haff l => by
  rw [h.value, h.value, h.value]
  exact (h.steps haff).fits l

theorem Alu.Gives.dsts {x : Iss} {k : Ctx} (h : a.Gives i w x k code val) (ho : a.Operands d srcs va m) : a.dsts = [d] := by
  unfold Alu.dsts
  rw [h.oneReg, ho.dst]
  rfl

theorem Alu.Operands.shapes (ho : a.Operands d srcs va m) (k : Ctx) :
    a.shapes k = srcs.map (fun v => (k.reg v).shape) := by
  unfold Alu.shapes
  rw [ho.regs]

/-- An issue of the instruction is one of the word as the machine describes it. -/
theorem Alu.Gives.issues (h : a.Gives i w (s.issOf c g) g.ctx code val) (ho : a.Operands d srcs va m)
    (hi : Issues s c g i { srcs := srcs, dsts := [d], ms := some m, wideOk := w, inXir := true } 16) :
    Issues s c g i { srcs := a.regs, dsts := a.dsts, ms := a.ms, wideOk := w, inXir := true } 16 := by
  rw [ho.regs, ho.mask, h.dsts ho]
  exact hi

/-- A word whose results lie in bounds completes with them (R44, R45, R158). -/
theorem Alu.Gives.result (h : a.Gives i w (s.issOf c g) g.ctx code val) (ho : a.Operands d srcs va m)
    (hi : Issues s c g i { srcs := srcs, dsts := [d], ms := some m, wideOk := w, inXir := true } 16)
    (hb : InBounds (s.boundsOf g) ((s.issOf c g).resultIndex va code) code ((s.issOf c g).eff (some m)) (single val)) :
    Spec.Result s c g i srcs d code ((s.issOf c g).resultIndex va code) ((s.issOf c g).eff (some m)) val := by
  have hlow : ∀ l, lo32 (single val l) = lo32 (a.lane (s.issOf c g) g.ctx l) := fun l => by
    rw [h.value]; exact lo32_single _
  have hw := issueAlu_wrote (h.issues ho hi) h.sources h.formats h.cheap h.affFits
    (fun e => by rw [h.oneReg] at e; cases e)
    (by rw [h.codeIs, h.oneReg, ho.mask, ho.first]; exact inBounds_low h.narrow hlow hb)
  rw [h.codeIs, h.oneReg, ho.mask, ho.first, h.dsts ho, h.kind, h.price, ho.shapes, ho.dst, kind_resultOf,
    shapedPrice_cost] at hw
  obtain ⟨t, y, hnext, hkept, hctx, hwrote, -⟩ := hw
  exact ⟨t, y, (h.means s).trans hnext, hkept, hctx, by simpa only [h.value] using hwrote⟩

end

/-! ### Sources and codes -/

/-- A class of single registers whose words have results of a code that is no pair's. -/
def Narrow (k : Cls) (code : Fmt → Fmt) : Prop := k.wide = false ∧ ∀ f, k.accepts f = true → (code f).isWide = false

theorem narrow_widen : Narrow .t32 widen := ⟨rfl, fun f => by cases f <;> decide⟩

theorem narrow_fixed {k : Cls} {f : Fmt} (hk : k.wide = false) (hf : f.isWide = false) : Narrow k (fun _ => f) :=
  ⟨hk, fun _ _ => hf⟩

theorem Narrow.code {k : Cls} {code : Fmt → Fmt} (h : Narrow k code) {c : Ctx} {v : Nat} (hs : sourceOk c v k = true) :
    (code (c.reg v).fmt).isWide = false :=
  h.2 _ (by unfold sourceOk at hs; exact (Bool.and_eq_true .. ▸ hs).1)

theorem sourceRegs_narrow {k : Cls} (h : k.wide = false) (v : Nat) : sourceRegs v k = [v] := by simp [sourceRegs, h]

theorem sourceVal_narrow {k : Cls} (h : k.wide = false) (c : Ctx) (v l : Nat) : sourceVal c v k l = (c.lane v l).toNat := by
  simp [sourceVal, h]

/-! ### The binary words -/

/-- The machine's meaning of a binary integer word of the table: `alu32` over the row's registers. -/
structure BinGives (i : Instr) (r : Spec.Bin) (code : List Fmt → Fmt) (n : Nat) (f : Nat → Nat → Nat) : Prop where
  means : ∀ s, exec i s = issueAlu i false (alu32 r.d r.a r.b r.m r.cls code (affRule (Spec.rowOf i)) (2 * n, n) f) s
  price : Spec.price i = (2 * n, n)
  cheap : n ≤ 8
  code : ∀ x y, code [x, y] = r.code x
  narrow : Narrow r.cls r.code
  value : ∀ x y : Word, BitVec.ofNat 32 (f x.toNat y.toNat) = r.f x y
  linear : Linear (Spec.rowOf i) r.f

theorem alu32_operands {d a b m : Nat} {k : Cls} (h : k.wide = false) (code : List Fmt → Fmt) (aff : AffRule) (p : Nat × Nat)
    (f : Nat → Nat → Nat) : (alu32 d a b m k code aff p f).Operands d [a, b] (some a) m :=
  ⟨rfl, by simp [Alu.regs, alu32, sourceRegs_narrow h], rfl, rfl⟩

theorem BinGives.gives {i : Instr} {r : Spec.Bin} {code : List Fmt → Fmt} {n : Nat} {f : Nat → Nat → Nat}
    (h : BinGives i r code n f) (x : Iss) {k : Ctx} (ha : sourceOk k r.a r.cls = true) (hb : sourceOk k r.b r.cls = true) :
    (alu32 r.d r.a r.b r.m r.cls code (affRule (Spec.rowOf i)) (2 * n, n) f).Gives i false x k (r.code (k.reg r.a).fmt)
      (fun l => r.f (k.lane r.a l) (k.lane r.b l)) := by
  have hshapes := (alu32_operands (d := r.d) (a := r.a) (b := r.b) (m := r.m) h.narrow.1 code (affRule (Spec.rowOf i)) (2 * n, n)
    f).shapes k
  have hcheap := h.cheap
  refine ⟨h.means, rfl, ?_, rfl, h.code .., h.narrow.code ha, h.price.symm, ⟨?_, ?_⟩, ?_, fun l => ?_, fun haff => ?_⟩
  · simp [alu32, ha, hb]
  · show 2 * n ≤ 16
    omega
  · show n ≤ 16
    omega
  · rw [hshapes]; exact resultKind_affRule2 ..
  · rw [← h.value, ← sourceVal_narrow h.narrow.1, ← sourceVal_narrow h.narrow.1]
    exact lo32_ofNat _
  · rw [hshapes] at haff
    exact h.linear.steps2 haff

/-- Every binary word of the spec's table has its meaning in the machine. -/
theorem intBinary_gives {i : Instr} {r : Spec.Bin} (h : Spec.intBinary i = some r) : ∃ code n f, BinGives i r code n f := by
  cases i
  case iadd =>
    cases h
    exact ⟨_, 1, _, fun _ => rfl, rfl, by decide, fun _ _ => rfl, narrow_widen, add_value, linear_add⟩
  case isub =>
    cases h
    exact ⟨_, 1, _, fun _ => rfl, rfl, by decide, fun _ _ => rfl, narrow_widen, sub_value, linear_sub⟩
  case imulLo =>
    cases h
    exact ⟨_, 2, _, fun _ => rfl, rfl, by decide, fun _ _ => rfl, narrow_widen, mul_value, linear_mul⟩
  case imulHiS32 =>
    cases h
    exact ⟨_, 2, _, fun _ => rfl, rfl, by decide, fun _ _ => rfl, narrow_fixed rfl rfl, mulHiS_value, trivial⟩
  case imulHiN32 =>
    cases h
    exact ⟨_, 2, _, fun _ => rfl, rfl, by decide, fun _ _ => rfl, narrow_fixed rfl rfl, fun _ _ => rfl, trivial⟩
  case iminS32 =>
    cases h
    exact ⟨_, 1, _, fun _ => rfl, rfl, by decide, fun _ _ => rfl, narrow_fixed rfl rfl, minS_value, trivial⟩
  case iminN32 =>
    cases h
    exact ⟨_, 1, _, fun _ => rfl, rfl, by decide, fun _ _ => rfl, narrow_fixed rfl rfl, minN_value, trivial⟩
  case imaxS32 =>
    cases h
    exact ⟨_, 1, _, fun _ => rfl, rfl, by decide, fun _ _ => rfl, narrow_fixed rfl rfl, maxS_value, trivial⟩
  case imaxN32 =>
    cases h
    exact ⟨_, 1, _, fun _ => rfl, rfl, by decide, fun _ _ => rfl, narrow_fixed rfl rfl, maxN_value, trivial⟩
  case idivS32 =>
    cases h
    exact ⟨_, 8, _, fun _ => rfl, rfl, by decide, fun _ _ => rfl, narrow_fixed rfl rfl, quotS_value, trivial⟩
  case idivN32 =>
    cases h
    exact ⟨_, 8, _, fun _ => rfl, rfl, by decide, fun _ _ => rfl, narrow_fixed rfl rfl, quotN_value, trivial⟩
  case iremS32 =>
    cases h
    exact ⟨_, 8, _, fun _ => rfl, rfl, by decide, fun _ _ => rfl, narrow_fixed rfl rfl, remS_value, trivial⟩
  case iremN32 =>
    cases h
    exact ⟨_, 8, _, fun _ => rfl, rfl, by decide, fun _ _ => rfl, narrow_fixed rfl rfl, remN_value, trivial⟩
  case iaddSatS32 =>
    cases h
    exact ⟨_, 1, _, fun _ => rfl, rfl, by decide, fun _ _ => rfl, narrow_fixed rfl rfl, addSatS_value, trivial⟩
  case iaddSatN32 =>
    cases h
    exact ⟨_, 1, _, fun _ => rfl, rfl, by decide, fun _ _ => rfl, narrow_fixed rfl rfl, fun _ _ => sat_value .n32 _, trivial⟩
  case isubSatS32 =>
    cases h
    exact ⟨_, 1, _, fun _ => rfl, rfl, by decide, fun _ _ => rfl, narrow_fixed rfl rfl, subSatS_value, trivial⟩
  case isubSatN32 =>
    cases h
    exact ⟨_, 1, _, fun _ => rfl, rfl, by decide, fun _ _ => rfl, narrow_fixed rfl rfl, fun _ _ => sat_value .n32 _, trivial⟩
  case and_ =>
    cases h
    exact ⟨_, 1, _, fun _ => rfl, rfl, by decide, fun _ _ => rfl, narrow_widen, and_value, trivial⟩
  case or_ =>
    cases h
    exact ⟨_, 1, _, fun _ => rfl, rfl, by decide, fun _ _ => rfl, narrow_widen, or_value, trivial⟩
  case xor_ =>
    cases h
    exact ⟨_, 1, _, fun _ => rfl, rfl, by decide, fun _ _ => rfl, narrow_widen, xor_value, trivial⟩
  case andn =>
    cases h
    exact ⟨_, 1, _, fun _ => rfl, rfl, by decide, fun _ _ => rfl, narrow_widen, andn_value, trivial⟩
  case orn =>
    cases h
    exact ⟨_, 1, _, fun _ => rfl, rfl, by decide, fun _ _ => rfl, narrow_widen, orn_value, trivial⟩
  case shl =>
    cases h
    exact ⟨_, 1, _, fun _ => rfl, rfl, by decide, fun _ _ => rfl, narrow_widen, fun _ _ => shl_value .., linear_shl⟩
  case shrN =>
    cases h
    exact ⟨_, 1, _, fun _ => rfl, rfl, by decide, fun _ _ => rfl, narrow_widen, fun _ _ => shr_value .., trivial⟩
  case shrS =>
    cases h
    exact ⟨_, 1, _, fun _ => rfl, rfl, by decide, fun _ _ => rfl, narrow_widen, fun _ _ => sar_value .., trivial⟩
  case rotl =>
    cases h
    exact ⟨_, 1, _, fun _ => rfl, rfl, by decide, fun _ _ => rfl, narrow_widen, fun _ _ => rotl_value _ (Nat.mod_lt _ (by decide)), trivial⟩
  case bfeN =>
    cases h
    exact ⟨_, 1, _, fun _ => rfl, rfl, by decide, fun _ _ => rfl, narrow_fixed rfl rfl, fun _ _ => bfeN_value .., trivial⟩
  case bfeS =>
    cases h
    exact ⟨_, 1, _, fun _ => rfl, rfl, by decide, fun _ _ => rfl, narrow_fixed rfl rfl, fun _ _ => bfeS_value .., trivial⟩
  all_goals cases h

/-! ### The unary words -/

/-- A unary word on a single register: `alu1` without an affine rule, `aluShift` on a source of class t32. -/
def unaryAlu (d a m : Nat) (k : Cls) (code : List Fmt → Fmt) (aff : AffRule) (f : Nat → Nat) : Alu :=
  { d := d, srcs := [(a, k)], ms := some m, code := code, aff := aff, price := (2, 1), val := una f }

/-- The machine's meaning of a unary integer word of the table: `unaryAlu` over the row's register, with the rule of its row. -/
structure UnGives (i : Instr) (r : Spec.Un) (code : List Fmt → Fmt) (f : Nat → Nat) : Prop where
  means : ∀ s, exec i s = issueAlu i false (unaryAlu r.d r.a r.m r.cls code (affRule (Spec.rowOf i)) f) s
  price : Spec.price i = (2, 1)
  code : ∀ x, code [x] = r.code x
  narrow : Narrow r.cls r.code
  value : ∀ x : Word, BitVec.ofNat 32 (f x.toNat) = r.f x
  linear : Linear (Spec.rowOf i) (fun x _ => r.f x)

theorem unaryAlu_operands {d a m : Nat} {k : Cls} (h : k.wide = false) (code : List Fmt → Fmt) (aff : AffRule) (f : Nat → Nat) :
    (unaryAlu d a m k code aff f).Operands d [a] (some a) m :=
  ⟨rfl, by simp [Alu.regs, unaryAlu, sourceRegs_narrow h], rfl, rfl⟩

theorem UnGives.gives {i : Instr} {r : Spec.Un} {code : List Fmt → Fmt} {f : Nat → Nat} (h : UnGives i r code f) (x : Iss)
    {k : Ctx} (ha : sourceOk k r.a r.cls = true) :
    (unaryAlu r.d r.a r.m r.cls code (affRule (Spec.rowOf i)) f).Gives i false x k
      (r.code (k.reg r.a).fmt) (fun l => r.f (k.lane r.a l)) := by
  have hshapes := (unaryAlu_operands (d := r.d) (a := r.a) (m := r.m) h.narrow.1 code (affRule (Spec.rowOf i)) f).shapes k
  refine ⟨h.means, rfl, ?_, rfl, h.code _, h.narrow.code ha, h.price.symm,
    ⟨show 2 ≤ 16 by decide, show 1 ≤ 16 by decide⟩, ?_, fun l => ?_, fun haff => ?_⟩
  · simp [unaryAlu, ha]
  · rw [hshapes]; exact resultKind_affRule1 ..
  · rw [← h.value, ← sourceVal_narrow h.narrow.1]
    exact lo32_ofNat _
  · rw [hshapes] at haff
    exact h.linear.steps1 0 haff

/-- Every unary word of the spec's table that is well formed has its meaning in the machine. -/
theorem intUnary_gives {i : Instr} {r : Spec.Un} (hi : i.wf = true) (h : Spec.intUnary i = some r) :
    ∃ code f, UnGives i r code f := by
  cases i
  case iabsS32 =>
    cases h
    exact ⟨_, _, fun _ => rfl, rfl, fun _ => rfl, narrow_fixed rfl rfl, abs_value, trivial⟩
  case ineg =>
    cases h
    exact ⟨_, _, fun _ => rfl, rfl, fun _ => rfl, narrow_widen, neg_value, trivial⟩
  case not_ =>
    cases h
    exact ⟨_, _, fun _ => rfl, rfl, fun _ => rfl, narrow_widen, not_value, trivial⟩
  case popc =>
    cases h
    exact ⟨_, _, fun _ => rfl, rfl, fun _ => rfl, narrow_fixed rfl rfl, popc_value, trivial⟩
  case clz =>
    cases h
    exact ⟨_, _, fun _ => rfl, rfl, fun _ => rfl, narrow_fixed rfl rfl, clz_value, trivial⟩
  case ctz =>
    cases h
    exact ⟨_, _, fun _ => rfl, rfl, fun _ => rfl, narrow_fixed rfl rfl, ctz_value, trivial⟩
  case brev =>
    cases h
    exact ⟨_, _, fun _ => rfl, rfl, fun _ => rfl, narrow_widen, brev_value, trivial⟩
  case shlImm =>
    cases h
    exact ⟨_, _, fun _ => rfl, rfl, fun _ => rfl, narrow_widen, fun _ => shl_value .., linear_shlImm _⟩
  case shrNImm =>
    cases h
    exact ⟨_, _, fun _ => rfl, rfl, fun _ => rfl, narrow_widen, fun _ => shr_value .., trivial⟩
  case shrSImm =>
    cases h
    exact ⟨_, _, fun _ => rfl, rfl, fun _ => rfl, narrow_widen, fun _ => sar_value .., trivial⟩
  case rotlImm d a m k =>
    have hk : k < 32 := of_decide_eq_true (Bool.and_eq_true_iff.mp hi).2
    cases h
    exact ⟨_, _, fun _ => rfl, rfl, fun _ => rfl, narrow_widen, fun _ => rotl_value _ hk, trivial⟩
  case bfeNImm =>
    cases h
    exact ⟨_, _, fun _ => rfl, rfl, fun _ => rfl, narrow_fixed rfl rfl, fun _ => bfeN_value .., trivial⟩
  case bfeSImm =>
    cases h
    exact ⟨_, _, fun _ => rfl, rfl, fun _ => rfl, narrow_fixed rfl rfl, fun _ => bfeS_value .., trivial⟩
  all_goals cases h

/-! ### The immediate forms, imad and bfi -/

/-- The machine's meaning of an immediate form of the table with a source register: `aluImm` over that register. -/
structure ImmGives (i : Instr) (r : Spec.Imm) (a n : Nat) (f : Nat → Nat → Nat) : Prop where
  source : r.a = some a
  means : ∀ s, exec i s = issueAlu i true (aluImm r.d a r.m r.i (affRule (Spec.rowOf i)) (2 * n, n) f) s
  price : Spec.price i = (2 * n, n)
  cheap : n ≤ 8
  value : ∀ x y : Word, BitVec.ofNat 32 (f x.toNat y.toNat) = r.f x y
  linear : Linear (Spec.rowOf i) r.f

theorem aluImm_operands (d a m i : Nat) (aff : AffRule) (p : Nat × Nat) (f : Nat → Nat → Nat) :
    (aluImm d a m i aff p f).Operands d [a] (some a) m :=
  ⟨rfl, rfl, rfl, rfl⟩

theorem imm_toNat (x : Iss) (i : Nat) : x.imm i true = (Spec.immediate x.hints i).toNat := by
  have hlt : x.imm i true < 2 ^ 32 := by
    unfold Iss.imm
    cases x.hints.wide with
    | some e => exact Nat.mod_lt _ (by decide)
    | none =>
      show wrapInt (signExt i 12) 32 < 2 ^ 32
      unfold wrapInt
      omega
  rw [← imm_value, BitVec.toNat_ofNat, Nat.mod_eq_of_lt hlt]

theorem ImmGives.gives {i : Instr} {r : Spec.Imm} {a n : Nat} {f : Nat → Nat → Nat} (h : ImmGives i r a n f) (x : Iss) {k : Ctx}
    (ha : sourceOk k a .t32 = true) :
    (aluImm r.d a r.m r.i (affRule (Spec.rowOf i)) (2 * n, n) f).Gives i true x k (widen (k.reg a).fmt)
      (fun l => r.f (k.lane a l) (Spec.immediate x.hints r.i)) := by
  have hcheap := h.cheap
  refine ⟨h.means, rfl, ?_, rfl, rfl, narrow_widen.code ha, h.price.symm, ⟨?_, ?_⟩, ?_, fun l => ?_, fun haff => ?_⟩
  · simp [aluImm, ha]
  · show 2 * n ≤ 16
    omega
  · show n ≤ 16
    omega
  · exact resultKind_affRule1 ..
  · rw [← h.value, ← imm_toNat]
    exact lo32_ofNat _
  · exact h.linear.steps1 _ haff

/-- Every immediate form of the spec's table with a source has its meaning in the machine. -/
theorem intImmediate_gives {i : Instr} {r : Spec.Imm} (h : Spec.intImmediate i = some r) :
    (∃ d m j, i = .mov d m j) ∨ ∃ a n f, ImmGives i r a n f := by
  cases i
  case mov d m j => exact .inl ⟨d, m, j, rfl⟩
  case iaddImm => cases h; exact .inr ⟨_, 1, _, rfl, fun _ => rfl, rfl, by decide, add_value, linear_add⟩
  case imulLoImm => cases h; exact .inr ⟨_, 2, _, rfl, fun _ => rfl, rfl, by decide, mul_value, linear_mul⟩
  case andImm => cases h; exact .inr ⟨_, 1, _, rfl, fun _ => rfl, rfl, by decide, and_value, trivial⟩
  case orImm => cases h; exact .inr ⟨_, 1, _, rfl, fun _ => rfl, rfl, by decide, or_value, trivial⟩
  case xorImm => cases h; exact .inr ⟨_, 1, _, rfl, fun _ => rfl, rfl, by decide, xor_value, trivial⟩
  all_goals cases h

/-- mov as a machine word (R217). -/
def movAlu (d m i : Nat) : Alu :=
  { d := d, srcs := [], ms := some m, code := always .b32, price := (2, 1), val := fun x _ => x.imm i true }

theorem mov_gives (d m i : Nat) (x : Iss) (k : Ctx) :
    (movAlu d m i).Gives (.mov d m i) true x k .b32 (fun _ => Spec.immediate x.hints i) where
  means _ := rfl
  oneReg := rfl
  sources := rfl
  formats := rfl
  codeIs := rfl
  narrow := rfl
  price := rfl
  cheap := ⟨show 2 ≤ 16 by decide, show 1 ≤ 16 by decide⟩
  kind := rfl
  value _ := (lo32_ofNat _).trans (imm_value ..)
  steps h := absurd h resultKind_none

/-- imad as a machine word (R218). -/
def imadAlu (d a b e m : Nat) : Alu :=
  { d := d, srcs := [(a, .t32), (b, .t32), (e, .t32)], ms := some m, code := widenFirst, price := (4, 2),
    val := fun _ v => v.getD 0 0 * v.getD 1 0 + v.getD 2 0 }

theorem imad_value (x y z : Word) : BitVec.ofNat 32 (x.toNat * y.toNat + z.toNat) = x * y + z :=
  BitVec.eq_of_toNat_eq (by simp [BitVec.toNat_add, BitVec.toNat_mul])

theorem imad_gives {d a b e m : Nat} (x : Iss) {k : Ctx} (ha : sourceOk k a .t32 = true) (hb : sourceOk k b .t32 = true)
    (he : sourceOk k e .t32 = true) :
    (imadAlu d a b e m).Gives (.imad d a b e m) false x k (widen (k.reg a).fmt)
      (fun l => k.lane a l * k.lane b l + k.lane e l) where
  means _ := rfl
  oneReg := rfl
  sources := by simp [imadAlu, ha, hb, he]
  formats := rfl
  codeIs := rfl
  narrow := narrow_widen.code ha
  price := rfl
  cheap := ⟨show 4 ≤ 16 by decide, show 2 ≤ 16 by decide⟩
  kind := resultKind_plain _
  value l := (lo32_ofNat _).trans (imad_value ..)
  steps h := absurd h resultKind_none

/-- bfi as a machine word (R223). -/
def bfiAlu (d a m w p : Nat) : Alu :=
  { d := d, srcs := [(a, .t32), (d, .t32)], ms := some m, code := fun l => widen (l.getD 1 .b32), price := (2, 1),
    val := fun _ v => bfiVal (v.getD 1 0) (v.getD 0 0) p w }

theorem bfi_gives {d a m w p : Nat} (x : Iss) {k : Ctx} (ha : sourceOk k a .t32 = true) (hd : sourceOk k d .t32 = true) :
    (bfiAlu d a m w p).Gives (.bfi d a m w p) false x k (widen (k.reg d).fmt)
      (fun l => Spec.insertField (k.lane d l) (k.lane a l) p w) where
  means _ := rfl
  oneReg := rfl
  sources := by simp [bfiAlu, ha, hd]
  formats := rfl
  codeIs := rfl
  narrow := narrow_widen.code hd
  price := rfl
  cheap := ⟨show 2 ≤ 16 by decide, show 1 ≤ 16 by decide⟩
  kind := resultKind_plain _
  value l := (lo32_ofNat _).trans (bfi_value ..)
  steps h := absurd h resultKind_none

end Sys2Proof.Machine
end

section
/-! SUPPORT. Bounds on 32-bit integer results (R51, R57, R80 to R83): the checks of the machine on elements are those of the spec on
words, and what a word with results outside a bound that flags or clamps leaves. -/

namespace Sys2Proof.Machine

open Sys2Proof.Safety

/-! ### Elements as integers -/

/-- The codes of 32-bit integers. -/
def Int32 (f : Fmt) : Prop := f = .s32 ∨ f = .n32

theorem sign_natAbs (x : Int) : (if decide (x < 0) = true then -(x.natAbs : Int) else x.natAbs) = x := by
  by_cases h : x < 0
  · rw [if_pos (decide_eq_true h)]; omega
  · rw [if_neg (by simpa using h)]; omega

theorem units_ofInt (x : Int) : Val.units (decide (x < 0)) x.natAbs 0 (min 0 0) = x := by
  have hscale : scaleTo x.natAbs 0 (min 0 0) = x.natAbs := Nat.mul_one _
  unfold Val.units
  rw [hscale]
  exact sign_natAbs x

theorem cmp_ofInt (x y : Int) : (Val.ofInt x).cmp (Val.ofInt y) = compare x y := by
  show compare (Val.units (decide (x < 0)) x.natAbs 0 (min 0 0)) (Val.units (decide (y < 0)) y.natAbs 0 (min 0 0)) = _
  rw [units_ofInt, units_ofInt]

theorem isNan_ofInt (x : Int) : (Val.ofInt x).isNan = false := rfl

theorem elemVal_word {f : Fmt} (hf : Int32 f) (x : Word) : elemVal f 32 x.toNat = Val.ofInt (Spec.intOf f x) := by
  obtain rfl | rfl := hf
  · exact congrArg Val.ofInt (signExt_toNat x)
  · exact congrArg (fun n : Nat => Val.ofInt n) (Nat.mod_eq_of_lt x.isLt)

theorem lo32_toNat (x : Word64) : (lo32 x).toNat = x.toNat % 2 ^ 32 := BitVec.toNat_setWidth ..

theorem boundVal_word {f : Fmt} (hf : Int32 f) (x : Word64) : boundVal f x = Val.ofInt (Spec.intOf f (lo32 x)) := by
  obtain rfl | rfl := hf
  · refine congrArg Val.ofInt ?_
    rw [Spec.intOf, if_pos rfl, ← signExt_toNat, lo32_toNat]
    unfold signExt
    rw [Nat.mod_mod]
  · exact congrArg (fun n : Nat => Val.ofInt n) (lo32_toNat x).symm

theorem elemsIn_word {f : Fmt} (hf : Int32 f) : elemsIn false f = ([0], 32, f) := by
  obtain rfl | rfl := hf <;> rfl

/-- The element of a single register is its low word. -/
theorem element_lo32 (x : Word64) : x.toNat / 2 ^ 0 % 2 ^ 32 = (lo32 x).toNat := by
  rw [lo32_toNat, Nat.pow_zero, Nat.div_one]

/-- The number whose pattern is a word: the clamp to the format's range leaves it. -/
theorem wrapInt_intOf {f : Fmt} (hf : Int32 f) (x : Word) :
    wrapInt (clampInt (Spec.intOf f x) (intRange f).1 (intRange f).2) 32 = x.toNat := by
  unfold clampInt wrapInt
  have hlt := x.isLt
  obtain rfl | rfl := hf
  · have h := BitVec.toInt_eq_toNat_cond x
    simp only [Spec.intOf, if_true, intRange]
    split at h <;> split <;> (try split) <;> omega
  · have hne : Fmt.n32 ≠ .s32 := by decide
    simp only [Spec.intOf, if_neg hne, intRange]
    split <;> (try split) <;> omega

section
variable {b : Bound}

theorem compare_ne_gt (x y : Int) : (compare x y != .gt) = !decide (y < x) := by
  rw [Bool.eq_iff_iff, bne_iff_ne, ne_eq, Int.compare_eq_gt]
  simp

theorem inBounds_word (hf : Int32 b.fmt) (x : Word) : inBounds b (Val.ofInt (Spec.intOf b.fmt x)) = !Spec.outside b x := by
  unfold inBounds Spec.outside
  rw [boundVal_word hf, boundVal_word hf, cmp_ofInt, cmp_ofInt, isNan_ofInt, if_neg (by decide)]
  rw [compare_ne_gt, compare_ne_gt]
  simp

theorem outCount_word (hf : Int32 b.fmt) (x : Word64) :
    outCount b b.fmt x.toNat = if Spec.outside b (lo32 x) = true then 1 else 0 := by
  unfold outCount
  rw [elemsIn_word hf]
  dsimp only
  rw [List.filter_cons, element_lo32, elemVal_word hf, inBounds_word hf, Bool.not_not]
  split <;> rfl

theorem boundEdge_word (hf : Int32 b.fmt) (up : Bool) (x : Word) :
    boundEdge b.fmt 32 up (Val.ofInt (Spec.intOf b.fmt x)) = x.toNat := by
  rw [← wrapInt_intOf hf x]
  generalize Spec.intOf b.fmt x = z
  obtain h | h := hf <;> rw [h] <;> exact congrArg (fun y => wrapInt (clampInt y _ _) 32) (sign_natAbs z)

theorem clampTo_word (hf : Int32 b.fmt) (up : Bool) :
    clampTo b b.fmt 32 up = (lo32 (if up = true then b.low else b.high)).toNat := by
  unfold clampTo
  simp only [boundVal_word hf, boundEdge_word hf, elemVal_word hf, cmp_ofInt, isNan_ofInt]
  rw [if_pos]
  cases up <;> simp

theorem clampElem_word (hf : Int32 b.fmt) (x : Word) : clampElem b b.fmt 32 x.toNat = (Spec.clamped b x).toNat := by
  unfold clampElem Spec.clamped
  dsimp only
  rw [elemVal_word hf, inBounds_word hf, boundVal_word hf, cmp_ofInt, isNan_ofInt, clampTo_word hf, clampTo_word hf]
  unfold Spec.outside
  by_cases hhigh : Spec.intOf b.fmt (lo32 b.high) < Spec.intOf b.fmt x
  · simp [hhigh, Int.compare_eq_gt.mpr hhigh]
  · by_cases hlow : Spec.intOf b.fmt x < Spec.intOf b.fmt (lo32 b.low)
    · simp [hhigh, hlow, Int.compare_eq_gt]
    · simp [hhigh, hlow]

theorem clampLane_word (hf : Int32 b.fmt) (x : Word64) : lo32 (clampLane b b.fmt x) = Spec.clamped b (lo32 x) := by
  unfold clampLane
  rw [elemsIn_word hf]
  simp only [List.foldl_cons, List.foldl_nil, element_lo32, clampElem_word hf]
  apply BitVec.eq_of_toNat_eq
  have hx := lo32_toNat x
  have hc := (Spec.clamped b (lo32 x)).isLt
  rw [lo32_toNat, BitVec.toNat_ofNat]
  omega

/-- A clamp changes what is outside. -/
theorem clamped_ne {x : Word} (h : Spec.outside b x = true) : Spec.clamped b x ≠ x := by
  unfold Spec.outside at h
  unfold Spec.clamped
  rw [decide_eq_true_eq] at h
  intro e
  by_cases hhigh : Spec.intOf b.fmt (lo32 b.high) < Spec.intOf b.fmt x
  · rw [if_pos hhigh] at e
    rw [e] at hhigh
    exact Int.lt_irrefl _ hhigh
  · have hlow := h.resolve_right hhigh
    rw [if_neg hhigh, if_pos hlow] at e
    rw [e] at hlow
    exact Int.lt_irrefl _ hlow

theorem clampLane_ne_iff (hf : Int32 b.fmt) (x : Word64) : (clampLane b b.fmt x != x) = Spec.outside b (lo32 x) := by
  cases hout : Spec.outside b (lo32 x) with
  | true =>
    rw [bne_iff_ne]
    intro e
    exact clamped_ne hout ((clampLane_word hf x).symm.trans (congrArg lo32 e))
  | false =>
    rw [clampLane_same b b.fmt x false (by rw [outCount_word hf, hout]; rfl)]
    exact bne_self_eq_false x

end

/-- A context with the counter of bound events (c.bflag) set. -/
def Ctx.flagged (k : Ctx) (w : Word) : Ctx := { k with bflag := w }

/-! ### The check of a result's lanes -/

/-- The lanes of a mask whose values lie outside a bound. -/
def outLanes (b : Bound) (m : Mask) (val : Nat → Word) : List Nat :=
  (List.range 32).filter (fun l => hasLane m l && Spec.outside b (val l))

theorem lanesOf_filter (m : Mask) (p : Nat → Bool) : (lanesOf m).filter p = (List.range 32).filter (fun l => hasLane m l && p l) := by
  unfold lanesOf
  rw [List.filter_filter]
  exact List.filter_congr (fun l _ => Bool.and_comm ..)

theorem sum_indicator (l : List Nat) (p : Nat → Bool) : (l.map (fun n => if p n = true then 1 else 0)).sum = (l.filter p).length := by
  induction l with
  | nil => rfl
  | cons n l ih =>
    rw [List.map_cons, List.sum_cons, ih, List.filter_cons]
    cases p n <;> simp [Nat.add_comm]

theorem any_iff_filter_ne_nil (l : List Nat) (p : Nat → Bool) : l.any p = true ↔ l.filter p ≠ [] := by
  simp [List.filter_eq_nil_iff]

section
variable {b : Bound} {bounds : List (Nat × Bound)} {ix : Nat} {m : Mask} {val : Nat → Word} {lanes : Nat → Word64}

/-- A check under a trap-mode bound stops the lanes outside it (R83). -/
theorem checkLanes_trap (hb : boundOf bounds ix = some b) (hf : Int32 b.fmt) (hm : b.mode = .trap)
    (hv : ∀ l, lo32 (lanes l) = val l) :
    (checkLanes bounds ix b.fmt m lanes).bad = maskOf (fun l => hasLane m l && Spec.outside b (val l)) := by
  have hout : ∀ l, (outCount b b.fmt (lanes l).toNat != 0) = Spec.outside b (val l) := fun l => by
    rw [outCount_word hf, hv]
    cases Spec.outside b (val l) <;> rfl
  unfold checkLanes
  simp only [hb, hm, hout]

/-- A check under a bound of another mode stops no lane, and counts the lanes outside. -/
theorem checkLanes_count (hb : boundOf bounds ix = some b) (hf : Int32 b.fmt) (hm : b.mode ≠ .trap)
    (hv : ∀ l, lo32 (lanes l) = val l) :
    (checkLanes bounds ix b.fmt m lanes).bad = 0 ∧
      (checkLanes bounds ix b.fmt m lanes).events = (outLanes b m val).length := by
  have hsum : ((lanesOf m).map (fun l => outCount b b.fmt (lanes l).toNat)).sum = (outLanes b m val).length := by
    simp only [outCount_word hf, hv, sum_indicator, lanesOf_filter, outLanes]
  unfold checkLanes
  rw [hb]
  dsimp only
  cases hmode : b.mode with
  | trap => exact absurd hmode hm
  | flag => exact ⟨rfl, hsum⟩
  | clamp => exact ⟨rfl, hsum⟩

/-- Whether a bound changes a result: it clamps, and some lane lies outside. -/
abbrev Clamps (b : Bound) (m : Mask) (val : Nat → Word) : Prop := b.mode = .clamp ∧ outLanes b m val ≠ []

theorem checkLanes_changed (hb : boundOf bounds ix = some b) (hf : Int32 b.fmt) (hv : ∀ l, lo32 (lanes l) = val l) :
    (checkLanes bounds ix b.fmt m lanes).changed = true ↔ Clamps b m val := by
  have hany : (lanesOf m).any (fun l => clampLane b b.fmt (lanes l) != lanes l) = true ↔ outLanes b m val ≠ [] := by
    simp only [clampLane_ne_iff hf, hv, any_iff_filter_ne_nil, lanesOf_filter, outLanes]
  unfold checkLanes Clamps
  rw [hb]
  dsimp only
  cases b.mode with
  | trap => simp
  | flag => simp
  | clamp => simp [hany]

theorem checkLanes_clamped (hb : boundOf bounds ix = some b) (hf : Int32 b.fmt) (hm : b.mode = .clamp)
    (hv : ∀ l, lo32 (lanes l) = val l) (l : Nat) :
    lo32 ((checkLanes bounds ix b.fmt m lanes).val l) = Spec.clamped b (val l) := by
  unfold checkLanes
  simp only [hb, hm, clampLane_word hf, hv]

/-- The shape of a result under a bound: a clamp that changes lanes keeps a uniform one alone (R44, R83). -/
def boundedKind (b : Bound) (m : Mask) (val : Nat → Word) (k : ResK) : ResK :=
  if Clamps b m val then (if k = .uni then .uni else .gen) else k

/-- The lanes of a result under a bound. -/
def boundedVal (b : Bound) (m : Mask) (val : Nat → Word) : Nat → Word :=
  if Clamps b m val then fun l => Spec.clamped b (val l) else val

/-- A context with a result written as a bound leaves it. -/
def Ctx.putBounded (k : Ctx) (b : Bound) (v : Nat) (r : ResK) (ix : Nat) (m : Mask) (val : Nat → Word) : Ctx :=
  k.put v (boundedKind b m val r) b.fmt ix m (boundedVal b m val)

theorem boundedKind_fits {k : ResK} (h : KindFits k val) : KindFits (boundedKind b m val k) (boundedVal b m val) := by
  unfold boundedKind boundedVal
  split
  · split
    · next hk => exact ⟨fun _ l => congrArg (Spec.clamped b) (h.1 hk l), fun e => by cases e⟩
    · exact ⟨fun e => (nomatch e), fun e => (nomatch e)⟩
  · exact h

/-- The write of a result under a bound that does not trap: the lanes as the bound leaves them, the events counted. -/
theorem Ctx.write_bounded (hb : boundOf bounds ix = some b) (hf : Int32 b.fmt) (hm : b.mode ≠ .trap)
    (hv : ∀ l, lo32 (lanes l) = val l) (k : Ctx) (v : Nat) (r : ResK) :
    k.write bounds false v r b.fmt ix m lanes =
      .ok ((k.putBounded b v r ix m val).flagged (addEvents k.bflag (outLanes b m val).length)) := by
  obtain ⟨hbad, hevents⟩ := checkLanes_count (m := m) hb hf hm hv
  have hchanged := checkLanes_changed (m := m) hb hf hv
  have hfalse : Ctx.putWide k false = fun v r fmt ix m new => k.put v r fmt ix m (fun l => lo32 (new l)) := rfl
  unfold Ctx.write Ctx.putBounded boundedKind boundedVal
  simp only [hbad, hevents, hfalse]
  by_cases hc : Clamps b m val
  · simp only [hchanged.mpr hc, if_pos hc, if_true, checkLanes_clamped hb hf hc.1 hv]
    cases r <;> rfl
  · have hsame : (fun l => lo32 (lanes l)) = val := funext hv
    simp only [Bool.eq_false_iff.mpr (mt hchanged.mp hc), if_neg hc, Bool.false_eq_true, if_false, hsame]
    rfl

end

/-! ### What the word leaves -/

theorem advance_flagged (x : Iss) (k : Ctx) (w : Word) : x.advance (k.flagged w) = (x.advance k).flagged w := by
  unfold Iss.advance
  split <;> rfl

theorem xirDone_flagged (k : Ctx) (sl : List Nat) (m : Mask) (w : Word) :
    xirDone (k.flagged w) sl m = (xirDone k sl m).flagged w := by
  have hxir : (k.flagged w).xirOf (sl.headD 0) = k.xirOf (sl.headD 0) := rfl
  unfold xirDone
  dsimp only
  rw [hxir]
  cases k.xirOf (sl.headD 0) with
  | none => rfl
  | some q => dsimp only; split <;> rfl

/-- The event counter after some more events (R56, R57). -/
theorem addEvents_toNat (w : Word) (n : Nat) : (addEvents w n).toNat = min (w.toNat + n) 0xFFFFFFFF := by
  unfold addEvents
  rw [BitVec.toNat_ofNat]
  omega

/-- The verdict on a word whose sources, codes and bound index may stand. -/
theorem Alu.Gives.verdict {a : Alu} {i : Instr} {w : Bool} {s : State} {c : Cur} {g : Group} {code : Fmt} {val : Nat → Word}
    {d : Nat} {srcs : List Nat} {va : Option Nat} {m : Nat} (h : a.Gives i w (s.issOf c g) g.ctx code val)
    (ho : a.Operands d srcs va m) (hix : boundOk (s.boundsOf g) ((s.issOf c g).resultIndex va code) code = true) :
    a.verdict (s.issOf c g) =
      .go (Spec.cost i g srcs ((s.issOf c g).eff (some m)) (Spec.resultOf i c g srcs))
        (fun u => u.writeResult (s.issOf c g) (some m) false d (Spec.resultOf i c g srcs) code
          ((s.issOf c g).resultIndex va code) ((s.issOf c g).eff (some m)) (a.lane (s.issOf c g) g.ctx)) := by
  have hkind := h.kind
  rw [ho.shapes] at hkind
  unfold Alu.verdict
  simp only [State.issOf_g, State.issOf_bounds, h.sources, h.formats, h.codeIs, ho.first, ho.mask, ho.dst, h.oneReg, hix,
    ho.shapes, hkind, kind_resultOf, h.price, shapedPrice_cost, Bool.and_self, if_true]

theorem boundOk_of_boundOf {bounds : List (Nat × Bound)} {ix : Nat} {b : Bound} {code : Fmt} (hb : boundOf bounds ix = some b)
    (hf : b.fmt = code) : boundOk bounds ix code = true := by
  unfold boundOf at hb
  split at hb
  · cases hb
  · simp [boundOk, hb, hf]

theorem cost_le {i : Instr} {n : Nat} (h : (Spec.price i).1 ≤ n ∧ (Spec.price i).2 ≤ n) (g : Group) (srcs : List Nat) (m : Mask)
    (k : ResK) : Spec.cost i g srcs m k ≤ n := by
  unfold Spec.cost
  split
  · exact h.2
  · exact h.1

/-- The context that a word leaves which sets the event counter: but for the counter, that of the same word without it. -/
theorem effect_flagged {c : Cur} {g h : Group} {x : Iss} {k : Ctx} {n : Word} {p : Prop} (hk : k.bflag = g.ctx.bflag)
    (hh : (h.ctx = x.advance (k.flagged n) ∧ p) ∨ (c.xir = true ∧ h.ctx = xirDone (x.advance (k.flagged n)) c.slices c.active)) :
    h.ctx.bflag = n ∧ ((h.ctx.flagged g.ctx.bflag = x.advance k ∧ p) ∨
      (c.xir = true ∧ h.ctx.flagged g.ctx.bflag = xirDone (x.advance k) c.slices c.active)) := by
  have hown : ∀ y : Ctx, y.bflag = k.bflag → (y.flagged n).flagged g.ctx.bflag = y := fun y hy => by rw [← hk, ← hy]; rfl
  have hadv : (x.advance k).bflag = k.bflag := by unfold Iss.advance; split <;> rfl
  have hdone : (xirDone (x.advance k) c.slices c.active).bflag = k.bflag := by rw [xirDone_rest]; exact hadv
  simp only [advance_flagged, xirDone_flagged] at hh
  obtain ⟨e, hp⟩ | ⟨hc, e⟩ := hh
  · rw [e]; exact ⟨rfl, .inl ⟨hown _ hadv, hp⟩⟩
  · rw [e]; exact ⟨rfl, .inr ⟨hc, hown _ hdone⟩⟩

section
variable {a : Alu} {i : Instr} {w : Bool} {s : State} {c : Cur} {g : Group} {val : Nat → Word} {d : Nat} {srcs : List Nat}
  {va : Option Nat} {m : Nat} {b : Bound} {code : Fmt}

theorem Alu.Gives.fits (h : a.Gives i w (s.issOf c g) g.ctx code val) (ho : a.Operands d srcs va m) :
    KindFits (Spec.resultOf i c g srcs) val := by
  have hkind : KindFits (resultKind a.aff (a.shapes g.ctx)) val :=
    ⟨fun huni l => by rw [← h.value, ← h.value, Alu.lane_uniform (resultKind_uni huni) l], fun haff l => (h.steps haff).fits l⟩
  rw [h.kind, ho.shapes] at hkind
  rw [← kind_resultOf s]
  exact Iss.kind_fits hkind

/-- A word with results outside a bound that flags or clamps: it completes, and the events are counted (R51, R57, R82, R83). -/
theorem Alu.Gives.bounded (h : a.Gives i w (s.issOf c g) g.ctx code val) (ho : a.Operands d srcs va m)
    (hi : Issues s c g i { srcs := srcs, dsts := [d], ms := some m, wideOk := w, inXir := true } 16)
    (hb : boundOf (s.boundsOf g) ((s.issOf c g).resultIndex va code) = some b) (hfmt : b.fmt = code) (hf : Int32 code)
    (hm : b.mode ≠ .trap) :
    let e := (s.issOf c g).eff (some m)
    let k := Spec.resultOf i c g srcs
    ∃ t y, exec i s = .next t ∧ Kept s t c (Spec.cost i g srcs e k) g y ∧
      CtxKept c g { y with ctx := { y.ctx with bflag := g.ctx.bflag } } [d] ∧
      y.ctx.bflag.toNat = min (g.ctx.bflag.toNat + (outLanes b e val).length) 0xFFFFFFFF ∧
      Wrote g y d code ((s.issOf c g).resultIndex va code) (boundedKind b e val k) e (boundedVal b e val) := by
  subst hfmt
  intro e k
  have hgo := issueWord_go (h.issues ho hi) (h.verdict ho (boundOk_of_boundOf hb rfl)) (cost_le (h.price ▸ h.cheap) ..)
  obtain ⟨y, hkept, hctx⟩ := effect_frame (s := s) (c := c) (g := g) (q := Spec.cost i g srcs e k) (rs := a.regs ++ a.dsts) hi.group
    ((s.issOf c g).advance ((g.ctx.putBounded b d k ((s.issOf c g).resultIndex va b.fmt) e val).flagged
      (addEvents g.ctx.bflag (outLanes b e val).length)))
    (fun u => u.writeResult (s.issOf c g) (some m) false d k b.fmt ((s.issOf c g).resultIndex va b.fmt) e
      (a.lane (s.issOf c g) g.ctx))
    (fun u y hu hy => by
      unfold State.writeResult
      simp only [State.issOf_core, State.issOf_frame, State.issOf_bounds, hu, hy, Ctx.write_bounded hb hf hm h.value])
  obtain ⟨hflag, hctx⟩ := effect_flagged (k := g.ctx.putBounded ..) rfl hctx
  refine ⟨_, y, (h.means s).trans hgo, hkept, ?_, ?_, ?_⟩
  · exact ctxKept_of (h := { y with ctx := y.ctx.flagged g.ctx.bflag }) (x := s.issOf c g) rfl rfl (Ctx.put_rest ..)
      (fun v hv => Ctx.put_other _ _ _ _ _ _ _ _ (by simpa using hv)) hctx
  · rw [hflag, addEvents_toNat]
  · have hwrote : Wrote g { y with ctx := y.ctx.flagged g.ctx.bflag } d b.fmt ((s.issOf c g).resultIndex va b.fmt)
        (boundedKind b e val k) e (boundedVal b e val) :=
      wrote_of (x := s.issOf c g) (k := g.ctx.putBounded ..) (Ctx.put_shape ..) (Ctx.put_same (boundedKind_fits (h.fits ho))) hctx
    obtain ⟨hfmt, hbound, hshape, hlanes⟩ := hwrote
    exact ⟨hfmt, hbound, hshape, hlanes⟩

end

theorem wrote_bounded {g y : Group} {d : Nat} {code : Fmt} {ix : Nat} {b : Bound} {e : Mask} {val : Nat → Word} {k : ResK}
    (h : Wrote g y d code ix (boundedKind b e val k) e (boundedVal b e val)) :
    if Clamps b e val then Wrote g y d code ix (if k = .uni then .uni else .gen) e (fun l => Spec.clamped b (val l))
    else Wrote g y d code ix k e val := by
  unfold boundedKind boundedVal at h
  split
  · next hc => rwa [if_pos hc, if_pos hc] at h
  · next hc => rwa [if_neg hc, if_neg hc] at h

end Sys2Proof.Machine
end

section
/-! SUPPORT. A trap taken by a word (R377, R381 to R385): the frame in memory, the handler's start or the park, and that the marks
of issue and the bookkeeping behind the word's effect leave all of it. -/

namespace Sys2Proof.Machine

open Sys2Proof.Safety

/-! ### The frame's bytes -/

theorem fieldAt_replayOff (t : TrapInfo) (inHandler out : Bool) {off : Nat} (seq : Nat) (wid : Word64) (time : Nat)
    (rest : List Byte) (h : off < 2 ^ 32) : fieldAt (recordBytes t inHandler out off seq wid time ++ rest) 0x1C 4 = off := by
  unfold fieldAt recordBytes
  simp only [leBytes, List.cons_append, List.nil_append, List.drop_succ_cons, List.drop_zero,
    List.take_succ_cons, List.take_zero, ofLe, BitVec.toNat_ofNat]
  omega

theorem shapeBytes_length_le (a : Shape) : (shapeBytes a).length ≤ 128 := by
  have hle : ∀ x n, (leBytes x n).length = n := by
    intro x n
    induction n generalizing x with
    | zero => rfl
    | succ n ih => simp [leBytes, ih]
  cases a with
  | uniform u => simp [shapeBytes, hle]
  | affine b st => simp [shapeBytes, hle]
  | general vs =>
    simp only [shapeBytes, List.length_flatten, List.map_map, Function.comp_def, hle, lanes32]
    decide

theorem sum_map_le {α : Type} (l : List α) (f : α → Nat) {n : Nat} (h : ∀ x ∈ l, f x ≤ n) : (l.map f).sum ≤ l.length * n := by
  induction l with
  | nil => exact Nat.zero_le _
  | cons x l ih =>
    have hx := h x (List.mem_cons_self ..)
    have hl := ih (fun y hy => h y (List.mem_cons_of_mem _ hy))
    rw [List.map_cons, List.sum_cons, List.length_cons, Nat.succ_mul]
    omega

theorem regData_length_le {c : Ctx} (h : c.need ≤ 64) : (regData c).length ≤ 8192 := by
  have hsum := sum_map_le (List.range c.need) (fun v => (shapeBytes (c.reg v).shape).length) (fun v _ => shapeBytes_length_le _)
  rw [List.length_range] at hsum
  unfold regData
  rw [List.length_flatten, List.map_map]
  exact Nat.le_trans hsum (Nat.mul_le_mul_right 128 h)

theorem benchSize_le (e : Nat × Bench × PairState) : benchSize e ≤ 151680 := by
  unfold benchSize
  split <;> omega

theorem benchSizes_le (c : Core) (frame : Nat) (g : Group) : ((allBenches c frame g).map benchSize).sum ≤ 4 * 151680 :=
  Nat.le_trans (sum_map_le _ _ (fun e _ => benchSize_le e))
    (Nat.mul_le_mul_right _ (Nat.le_trans (List.length_filterMap_le ..) (Nat.le_of_eq List.length_range)))

/-- The replay part of a frame stands where its record can say (R382). -/
theorem replayOff_lt (s : State) (core frame : Nat) (g : Group) {c : Ctx} (h : c.need ≤ 64) :
    s.replayOff core frame g c < 2 ^ 32 := by
  have hregs := regData_length_le h
  have hbench := benchSizes_le (s.core core) frame g
  have htotal : (s.saveInfo core frame g c (2 ^ 56, 0) false true).total =
      2048 + up64 (regData c).length + up64 ((allBenches (s.core core) frame g).map benchSize).sum := rfl
  unfold State.replayOff
  rw [htotal]
  unfold up64
  omega

/-! ### Writes of a frame -/

theorem putByte_nil (at_ a : Nat) (old : Byte) : Spec.putByte at_ [] a old = old :=
  if_neg (fun h => by obtain ⟨h1, h2, -⟩ := h; simp at h2; omega)

theorem State.perform_read (s : State) (pa : Nat) (bs : List Byte) (a : Nat) :
    (s.perform pa bs).mem.read a = Spec.putByte pa bs a (s.mem.read a) := Memory.read_put ..

theorem State.writeFrame_read (s : State) (core frame : Nat) (head benches : List Byte) (rs : List Replay) (a : Nat) :
    (s.writeFrame core frame head benches rs).mem.read a =
      Spec.putByte (s.frameAddr core frame + fieldAt head 0x1C 4) (replayPart rs) a
        (Spec.putByte (s.frameAddr core frame + head.length) benches a
          (Spec.putByte (s.frameAddr core frame) head a (s.mem.read a))) := by
  unfold State.writeFrame
  dsimp only
  rw [State.perform_read]
  split
  · next h => rw [List.isEmpty_iff.mp h, putByte_nil, State.perform_read]
  · rw [State.perform_read, State.perform_read]

/-! ### Bystanders -/

theorem bystanders_of_groups {s t : State} {core frame : Nat}
    (h : ∀ k, k ≠ gkey core frame → tfind t.groups k = tfind s.groups k) : Spec.Bystanders s t core frame :=
  fun k x hk hx => ⟨x, (h k hk).trans hx, rfl, rfl⟩

theorem Bystanders.trans {s t u : State} {core frame : Nat} (h : Spec.Bystanders s t core frame)
    (h' : Spec.Bystanders t u core frame) : Spec.Bystanders s u core frame := fun k x hk hx => by
  obtain ⟨y, hy, hregs, hmasks⟩ := h k x hk hx
  obtain ⟨z, hz, hregs', hmasks'⟩ := h' k y hk hy
  exact ⟨z, hz, hregs'.trans hregs, hmasks'.trans hmasks⟩

theorem bystanders_setGroup (s : State) (core frame : Nat) (g : Group) : Spec.Bystanders s (s.setGroup core frame g) core frame :=
  bystanders_of_groups (fun _ hk => tfind_tset_ne _ _ (Ne.symm hk))

theorem tfind_map {α β : Type} (t : Tbl α) (f : α → β) (k : Nat) :
    tfind (t.map (fun p => (p.1, f p.2))) k = (tfind t k).map f := by
  induction t with
  | nil => rfl
  | cons p t ih =>
    rw [List.map_cons]
    unfold tfind
    split
    · rfl
    · exact ih

theorem Group.abort_regs (g : Group) (cause : Nat) (persist : Bool) :
    (g.abort cause persist).ctx.regs = g.ctx.regs ∧ (g.abort cause persist).ctx.masks = g.ctx.masks := by
  unfold Group.abort
  cases g.tx <;> exact ⟨rfl, rfl⟩

/-- A group as a performed write of some lines leaves it (R134, R151). -/
def Group.touchedBy (lines : List Nat) (g : Group) : Group :=
  let g := match g.tx with
    | some t => if lines.any t.touches then g.abort 2 false else g
    | none => g
  if (g.status = .sleeping || g.status = .evicted) && lines.any g.wake.hits
  then { g with wake := { g.wake with marked := true } } else g

theorem Group.touchedBy_regs (lines : List Nat) (g : Group) :
    (g.touchedBy lines).ctx.regs = g.ctx.regs ∧ (g.touchedBy lines).ctx.masks = g.ctx.masks := by
  have hwake : ∀ h : Group, (if ((h.status = .sleeping || h.status = .evicted) && lines.any h.wake.hits) = true
      then { h with wake := { h.wake with marked := true } } else h).ctx = h.ctx := fun h => by split <;> rfl
  unfold Group.touchedBy
  dsimp only
  rw [hwake]
  split
  · split
    · exact Group.abort_regs ..
    · exact ⟨rfl, rfl⟩
  · exact ⟨rfl, rfl⟩

theorem bystanders_perform (s : State) (core frame pa : Nat) (bs : List Byte) :
    Spec.Bystanders s (s.perform pa bs) core frame := fun k x _ hx => by
  refine ⟨x.touchedBy (linesOf pa bs.length), ?_, Group.touchedBy_regs ..⟩
  have hgroups : (s.perform pa bs).groups = s.groups.map (fun p => (p.1, p.2.touchedBy (linesOf pa bs.length))) := rfl
  rw [hgroups, tfind_map, hx]
  rfl

theorem bystanders_writeFrame (s : State) (core frame : Nat) (head benches : List Byte) (rs : List Replay) :
    Spec.Bystanders s (s.writeFrame core frame head benches rs) core frame := by
  unfold State.writeFrame
  dsimp only
  refine Bystanders.trans ?_ (bystanders_perform _ _ _ _ _)
  split
  · exact bystanders_perform _ _ _ _ _
  · exact Bystanders.trans (bystanders_perform _ _ _ _ _) (bystanders_perform _ _ _ _ _)

/-! ### The trap -/

theorem tset_tfind {α : Type} {t : Tbl α} {n : Nat} {v : α} (h : tfind t n = some v) : tset t n v = t := by
  induction t with
  | nil => cases h
  | cons p t ih =>
    obtain ⟨k, w⟩ := p
    unfold tfind at h
    unfold tset
    split
    · next hk => rw [if_pos hk] at h; cases h; rw [hk]
    · next hk => rw [if_neg hk] at h; rw [ih h]

theorem State.setGroup_self {s : State} {core frame : Nat} {g : Group} (h : s.group core frame = some g) :
    s.setGroup core frame g = s := by
  unfold State.setGroup
  rw [tset_tfind h]

theorem State.dropHeld_group {s : State} {core frame : Nat} {g : Group} (h : s.group core frame = some g) :
    ∃ k, s.dropHeld core frame = (s.setCluster (clusterOf core) k).setGroup core frame { g with ops := [] } :=
  ⟨_, State.modGroup_some _ (show (State.modCluster ..).group core frame = some g from h)⟩

/-- The group that a trap is taken of, with the entries it holds (R383). -/
abbrev State.replays (s : State) (core frame : Nat) (g : Group) : List Replay := s.heldEntries core frame g false ++ g.replay

/-- The frame and the group of a trap that is taken at once (R384 steps 2 to 4). -/
theorem State.takeTrap_now {s : State} {core frame : Nat} {g : Group} {w : Launch} (hm : Spec.MayTrap s core frame g w)
    (hg : s.group core frame = some g) {t : TrapInfo} (hc : t.cause ≠ 7) :
    let entry := handlerFor (some w) t.cause g.ctx.need
    let head := s.frameHead core frame g t entry.isSome
    ∃ u id, Spec.Bystanders s u core frame ∧ u.frameAddr core frame = s.frameAddr core frame ∧ u.mem = s.mem ∧
      s.takeTrap core frame t = ((u.writeFrame core frame head
        (if entry.isSome then [] else benchPart (allBenches (s.core core) frame g)) (s.replays core frame g)).newId.2).setGroup
          core frame (trapGroup g t entry head (s.replays core frame g) id) := by
  intro entry head
  obtain ⟨hmode, htx, hpass, hearly, hlaunch, -⟩ := hm
  have habort : g.abort 8 true = g := by unfold Group.abort; rw [htx]
  have hown : s.modGroup core frame (fun g => g.abort 8 true) = s := by
    rw [State.modGroup_some _ hg, habort, State.setGroup_self hg]
  have hnone : s.performEarly core = s := by unfold State.performEarly; rw [hearly]; rfl
  obtain ⟨k, hdrop⟩ := State.dropHeld_group hg
  refine ⟨s.dropHeld core frame, (State.writeFrame (s.dropHeld core frame) core frame head
    (if entry.isSome then [] else benchPart (allBenches (s.core core) frame g)) (s.replays core frame g)).nextId, ?_, ?_, ?_, ?_⟩
  · rw [hdrop]
    exact bystanders_of_groups (fun n hn => tfind_tset_ne _ _ (Ne.symm hn))
  · rw [hdrop]; rfl
  · rw [hdrop]; rfl
  · unfold State.takeTrap
    simp only [hown, hg, hmode, hpass, Bool.false_and, Bool.false_eq_true, if_false]
    unfold State.trapNow
    simp only [hnone, hg, if_neg hc]
    have hl : (s.dropHeld core frame).launchOf g = some w := by rw [hdrop]; exact hlaunch
    have hh : (s.dropHeld core frame).frameHead core frame g t entry.isSome = head := by rw [hdrop]; rfl
    have hcore : (s.dropHeld core frame).core core = s.core core := by rw [hdrop]; rfl
    rw [hl, hh, hcore]
    rfl

/-! ### The group of a trap -/

/-- Whether the handler of a launch takes a trap of a group (R384, R385). -/
abbrev Handles (w : Launch) (t : TrapInfo) (g : Group) : Prop :=
  w.trapOff ≠ none ∧ t.cause ≠ 7 ∧ t.cause ≠ 20 ∧ t.cause < 32 ∧ 6 ≤ g.ctx.need

theorem handlerFor_of_handles {w : Launch} {t : TrapInfo} {g : Group} {e : Nat} (h : Handles w t g) (he : w.trapOff = some e) :
    handlerFor (some w) t.cause g.ctx.need = some (w.code + 512 + e) := by
  obtain ⟨-, h7, h20, h32, hneed⟩ := h
  simp [handlerFor, he, h7, h20, h32, hneed]

theorem handlerFor_of_not_handles {w : Launch} {t : TrapInfo} {g : Group} (h : ¬ Handles w t g) :
    handlerFor (some w) t.cause g.ctx.need = none := by
  unfold handlerFor
  dsimp only
  cases he : w.trapOff with
  | none => rfl
  | some e =>
    dsimp only
    refine if_pos (Decidable.byContradiction fun hno => ?_)
    simp only [Bool.or_eq_true, decide_eq_true_eq, not_or, Nat.not_le, Nat.not_lt] at hno
    obtain ⟨⟨⟨h7, h20⟩, h32⟩, hneed⟩ := hno
    exact h ⟨by rw [he]; exact Option.some_ne_none e, h7, h20, h32, hneed⟩

theorem handlerFor_isSome (w : Launch) (t : TrapInfo) (g : Group) :
    (handlerFor (some w) t.cause g.ctx.need).isSome = decide (Handles w t g) := by
  by_cases h : Handles w t g
  · obtain ⟨e, he⟩ := Option.ne_none_iff_exists'.mp h.1
    rw [handlerFor_of_handles h he, decide_eq_true h]
    rfl
  · rw [handlerFor_of_not_handles h, decide_eq_false h]
    rfl

theorem mem_insertReplay (r x : Replay) (l : List Replay) : x ∈ insertReplay r l ↔ x = r ∨ x ∈ l := by
  induction l with
  | nil => simp [insertReplay]
  | cons y l ih =>
    unfold insertReplay
    split
    · simp
    · rw [List.mem_cons, ih, List.mem_cons]
      exact or_left_comm

theorem mem_sortReplay (x : Replay) (l : List Replay) : x ∈ sortReplay l ↔ x ∈ l := by
  induction l with
  | nil => rfl
  | cons y l ih => rw [sortReplay, mem_insertReplay, ih, List.mem_cons]

/-- Every operation in flight has a valid entry of the replay part (R383). -/
theorem held_replays (s : State) (core frame : Nat) {g : Group} {o : MemOp} (h : o ∈ g.ops) :
    ∃ r ∈ s.replays core frame g, r.op = o ∧ r.valid = true := by
  refine ⟨⟨o, true, false, none, false⟩, List.mem_append_left _ ((mem_sortReplay ..).mpr ?_), rfl, rfl⟩
  exact List.mem_append_left _ (List.mem_append_left _ (List.mem_map.mpr ⟨o, h, rfl⟩))

theorem handlerCtx_slices (k : Ctx) (pc cause sub : Nat) :
    (handlerCtx k pc cause sub).slices.length = k.slices.length ∧
      ∀ i y, (handlerCtx k pc cause sub).slices[i]? = some y → y.pc = pc ∧ y.cur = sliceBits k.live i ∧ y.stack = [] ∧
        y.hints = .none ∧ y.wait = .run ∧ y.fin = decide (sliceBits k.live i = 0) ∧ y.xir = none ∧ y.quarters = 0 := by
  have hslices : (handlerCtx k pc cause sub).slices = k.slices.mapIdx (fun i x =>
      { x with pc := pc, cur := sliceBits k.live i, stack := [], hints := .none, gang := (k.liveSlices.head?).getD 0,
               fin := sliceBits k.live i == 0, arrCrew := false, arrCoh := false, wait := .run, since := 0,
               xir := none, quarters := 0 }) := rfl
  rw [hslices]
  refine ⟨List.length_mapIdx, fun i y hy => ?_⟩
  rw [List.getElem?_mapIdx, Option.map_eq_some_iff] at hy
  obtain ⟨x, -, rfl⟩ := hy
  exact ⟨rfl, rfl, rfl, rfl, rfl, rfl, rfl, rfl⟩

theorem handlerCtx_reg (k : Ctx) (pc cause sub v : Nat) :
    (handlerCtx k pc cause sub).reg v =
      if v = 4 then ⟨.uniform (BitVec.ofNat 32 (cause + sub * 2 ^ 16)), .n32, 0, 0⟩
      else if v = 3 then ⟨.uniform (BitVec.ofNat 32 (Config.frameVa / 2 ^ 32)), .n64, 0, 0⟩
      else if v = 2 then ⟨.uniform (BitVec.ofNat 32 Config.frameVa), .n64, 0, 0⟩
      else k.reg v := by
  unfold handlerCtx
  simp only [Ctx.reg_setReg, eq_comm (b := v)]
  rfl

theorem handlerCtx_lane {k : Ctx} {pc cause sub v l : Nat} {u : Word} {f : Fmt}
    (h : (handlerCtx k pc cause sub).reg v = ⟨.uniform u, f, 0, 0⟩) : (handlerCtx k pc cause sub).lane v l = u := by
  unfold Ctx.lane
  rw [h]
  rfl

/-- The arguments that a handler starts with in v2, v3 and v4 (R385). -/
theorem handlerCtx_args (k : Ctx) (pc cause sub l : Nat) :
    (handlerCtx k pc cause sub).lane 2 l = BitVec.ofNat 32 Config.frameVa ∧
      (handlerCtx k pc cause sub).lane 3 l = BitVec.ofNat 32 (Config.frameVa / 2 ^ 32) ∧
      (handlerCtx k pc cause sub).lane 4 l = BitVec.ofNat 32 (cause + sub * 2 ^ 16) := by
  have h4 := handlerCtx_reg k pc cause sub 4
  have h3 := handlerCtx_reg k pc cause sub 3
  have h2 := handlerCtx_reg k pc cause sub 2
  rw [if_pos rfl] at h4
  rw [if_neg (by decide), if_pos rfl] at h3
  rw [if_neg (by decide), if_neg (by decide), if_pos rfl] at h2
  exact ⟨handlerCtx_lane h2, handlerCtx_lane h3, handlerCtx_lane h4⟩

theorem handlerCtx_rest (k : Ctx) (pc cause sub : Nat) :
    handlerCtx k pc cause sub =
      { k with slices := (handlerCtx k pc cause sub).slices, regs := (handlerCtx k pc cause sub).regs } := by
  unfold handlerCtx Ctx.setReg
  dsimp only

/-- The frame that a trap leaves with its group (R384, R387). -/
def trappedFrame (g : Group) (t : TrapInfo) (entry : Option Nat) (head : List Byte) (rs : List Replay) (id : Nat) : Trapped :=
  ((trapGroup g t entry head rs id).handler).getD ⟨g.ctx, rs, head, entry.isNone, t, none, 0, 0, 0, 0, [], [], id⟩

theorem trappedFrame_spec (g : Group) (t : TrapInfo) (entry : Option Nat) (head : List Byte) (rs : List Replay) (id : Nat) :
    (trapGroup g t entry head rs id).handler = some (trappedFrame g t entry head rs id) ∧
      (trappedFrame g t entry head rs id).info = t ∧ (trappedFrame g t entry head rs id).image = head ∧
      (trappedFrame g t entry head rs id).replay = rs ∧ (trappedFrame g t entry head rs id).ctx = g.ctx := by
  cases entry <;> exact ⟨rfl, rfl, rfl, rfl, rfl⟩

/-- The group that a handler starts with (R384, R385). -/
theorem trapGroup_handled {g : Group} {t : TrapInfo} {entry : Nat} {head : List Byte} {rs : List Replay} {id : Nat}
    (hrs : ∀ o ∈ g.ops, o.early = false → ∃ r ∈ rs, r.op = o ∧ r.valid = true) :
    Spec.Handled g (trapGroup g t (some entry) head rs id) g.ctx entry (trappedFrame g t (some entry) head rs id) where
  mode := ⟨rfl, rfl, rfl, rfl, rfl, rfl⟩
  saved := ⟨rfl, rfl, rfl, rfl, rfl, rfl, rfl⟩
  counters := ⟨rfl, rfl, rfl, rfl, rfl, rfl⟩
  held := hrs
  slices := handlerCtx_slices ..
  regs v h2 h3 h4 := (handlerCtx_reg ..).trans (by rw [if_neg h4, if_neg h3, if_neg h2])
  args l := handlerCtx_args g.ctx entry t.cause t.sub l
  rest := handlerCtx_rest ..

theorem parkCode_eq (cause : Nat) : parkCode cause = if 32 ≤ cause ∧ cause ≤ 36 then cause - 30 else 1 := by
  simp [parkCode]

/-! ### The trap taken -/

/-- A trap that may be taken at once is taken as the spec says. -/
theorem takeTrap_trapTaken {s : State} {core frame : Nat} {g : Group} {w : Launch} (hm : Spec.MayTrap s core frame g w)
    (hg : s.group core frame = some g) {t : TrapInfo} (hc : t.cause ≠ 7) :
    Spec.TrapTaken s (s.takeTrap core frame t) core frame g g.ctx t w := by
  obtain ⟨u, id, hby, haddr, hmem, htake⟩ := State.takeTrap_now hm hg hc
  rw [handlerFor_isSome] at htake
  have hhead : s.frameHead core frame g t (decide (Handles w t g)) =
      recordBytes t false (decide (Handles w t g)) (s.replayOff core frame g g.ctx) w.seq g.wid s.time ++
        s.saveHead core frame g g.ctx (t.pc, t.lanes) false (decide (¬ Handles w t g)) := by
    unfold State.frameHead
    rw [hm.launch, hm.mode, decide_not]
  have hoff : fieldAt (s.frameHead core frame g t (decide (Handles w t g))) 0x1C 4 = s.replayOff core frame g g.ctx := by
    rw [hhead]
    exact fieldAt_replayOff _ _ _ _ _ _ _ (replayOff_lt _ _ _ _ hm.need)
  rw [htake]
  obtain ⟨hhandler, hinfo, himage, hreplay, hctx⟩ := trappedFrame_spec g t (handlerFor (some w) t.cause g.ctx.need)
    (s.frameHead core frame g t (decide (Handles w t g))) (s.replays core frame g) id
  refine ⟨fun a => ?_, _, _, State.group_setGroup_same .., hinfo, himage.trans hhead, hreplay, fun e he h => ?_, fun h => ?_,
    Bystanders.trans hby (Bystanders.trans (bystanders_writeFrame _ _ _ _ _ _) (bystanders_setGroup _ _ _ _))⟩
  · refine (State.writeFrame_read ..).trans ?_
    rw [haddr, hmem, hoff, hhead]
    simp only [decide_eq_true_eq]
  · rw [handlerFor_of_handles h he]
    exact trapGroup_handled (fun o ho _ => held_replays s core frame ho)
  · rw [handlerFor_of_not_handles h] at hctx hhandler ⊢
    exact ⟨rfl, hm.mode, hhandler, hctx, rfl, rfl, congrArg some (parkCode_eq _)⟩

/-! ### A trap behind the marks of issue -/

/-- What the frame of a group reads of its core: benches, pair states and locks. -/
structure SameFrameCore (x y : Core) : Prop where
  benches : y.benches = x.benches
  pairs : y.pairs = x.pairs
  locks : y.locks = x.locks

theorem SameFrameCore.allBenches {x y : Core} (h : SameFrameCore x y) (frame : Nat) (g : Group) :
    Machine.allBenches y frame g = Machine.allBenches x frame g := by
  unfold Machine.allBenches ownedBenches Core.benchOf
  rw [h.benches, h.pairs]

theorem saveInfo_eq {s u : State} {core frame : Nat} (hcore : SameFrameCore (s.core core) (u.core core)) (hcrews : u.crews = s.crews)
    (g : Group) (k : Ctx) (place : Nat × Mask) (hc wb : Bool) :
    u.saveInfo core frame g k place hc wb = s.saveInfo core frame g k place hc wb := by
  unfold State.saveInfo State.crewOf State.crew
  simp only [hcore.allBenches, hcore.locks, hcrews]

/-- A trap seen from the state before an issue that keeps the group's context: the frame and the handler are those of the group
as it stood. -/
theorem TrapTaken.of_kept {s u t : State} {c : Cur} {q : Nat} {g h : Group} {k : Ctx} {info : TrapInfo} {w : Launch}
    (hk : Kept s u c q g h) (hctx : h.ctx = g.ctx) (ht : Spec.TrapTaken u t c.core c.frame h k info w) :
    Spec.TrapTaken s t c.core c.frame g k info w := by
  have hcore : SameFrameCore (s.core c.core) (u.core c.core) :=
    ⟨(congrArg Core.benches hk.core :), (congrArg Core.pairs hk.core :), (congrArg Core.locks hk.core :)⟩
  have hrest := hk.rest
  have hown := hk.own
  rw [hctx] at hown
  have hcrews : u.crews = s.crews := (congrArg State.crews hrest :)
  have hsame : ∀ (place : Nat × Mask) (a b : Bool),
      u.saveInfo c.core c.frame { h with ctx := k } k place a b = s.saveInfo c.core c.frame { g with ctx := k } k place a b := by
    intro place a b
    rw [saveInfo_eq hcore hcrews, hown]
    rfl
  have hoff : u.replayOff c.core c.frame { h with ctx := k } k = s.replayOff c.core c.frame { g with ctx := k } k := by
    unfold State.replayOff
    rw [hsame]
  have hhead : ∀ (place : Nat × Mask) (a b : Bool),
      u.saveHead c.core c.frame { h with ctx := k } k place a b = s.saveHead c.core c.frame { g with ctx := k } k place a b := by
    intro place a b
    unfold State.saveHead
    rw [hsame]
  have hbenches : allBenches (u.core c.core) c.frame h = allBenches (s.core c.core) c.frame g := by
    rw [hcore.allBenches, hown]
    rfl
  have hheld : u.heldEntries c.core c.frame h false ++ h.replay = s.heldEntries c.core c.frame g false ++ g.replay := by
    rw [hrest, hown]
    rfl
  have htime : u.time = s.time := (congrArg State.time hrest :)
  have haddr : u.frameAddr c.core c.frame = s.frameAddr c.core c.frame := by rw [hrest]; rfl
  have hwid : h.wid = g.wid := by rw [hown]
  obtain ⟨hframe, y, tr, hg, hinfo, himage, hreplay, hhandled, hparked, hby⟩ := ht
  rw [hoff, hhead, htime, hwid, hctx] at himage hframe
  rw [hctx] at hhandled hparked
  refine ⟨fun a => (hframe a).trans ?_, y, tr, hg, hinfo, himage, hreplay.trans hheld, fun e he hh => ?_, hparked,
    fun n x hn hx => hby n x hn ((hk.groups n hn).trans hx)⟩
  · rw [haddr, hk.mem, hbenches, hheld]
  · obtain ⟨hmode, hsaved, hcounters, hops, hslices, hregs, hargs, hlast⟩ := hhandled e he hh
    rw [hown] at hsaved hops
    exact ⟨hmode, hsaved, hcounters, hops, hslices, hregs, hargs, hlast⟩

/-- The bookkeeping behind a word's effect leaves a trap as it was taken. -/
theorem TrapTaken.behind {s t : State} {x : Iss} {rs : List Nat} {g : Group} {k : Ctx} {info : TrapInfo} {w : Launch}
    (hmode : x.g.inHandler = false) (ht : Spec.TrapTaken s t x.core x.frame g k info w) :
    Spec.TrapTaken s ((t.touchRegs x rs).laneDone x) x.core x.frame g k info w := by
  obtain ⟨hframe, h, tr, hg, hinfo, himage, hreplay, hhandled, hparked, hby⟩ := ht
  have htouch : t.touchRegs x rs = t.setGroup x.core x.frame (h.touched rs) := State.modGroup_some _ hg
  have hidle : (h.status == .ready && h.inHandler == x.g.inHandler) = false := by
    by_cases hh : Handles w info g
    · obtain ⟨e, he⟩ := Option.ne_none_iff_exists'.mp hh.1
      obtain ⟨hin, -⟩ := (hhandled e he hh).mode
      rw [hin, hmode, Bool.and_eq_false_iff]
      exact .inr rfl
    · obtain ⟨hstatus, -⟩ := hparked hh
      rw [hstatus]
      rfl
  have hlane : (t.setGroup x.core x.frame (h.touched rs)).laneDone x = t.setGroup x.core x.frame (h.touched rs) := by
    unfold State.laneDone
    split
    · rw [State.modGroup_some _ (State.group_setGroup_same ..), State.setGroup_setGroup]
      refine congrArg _ (if_neg ?_)
      rw [Bool.not_eq_true]
      exact hidle
    · rfl
  rw [htouch, hlane]
  refine ⟨hframe, h.touched rs, tr, State.group_setGroup_same .., hinfo, himage, hreplay, fun e he hh => ?_, hparked,
    Bystanders.trans hby (bystanders_setGroup _ _ _ _)⟩
  obtain ⟨hm, hs, hc, hh, hsl, hr, ha, hrest⟩ := hhandled e he hh
  exact ⟨hm, hs, hc, hh, hsl, hr, ha, hrest⟩

/-! ### The state of a word's effect -/

/-- The state in which the effect of a word stands: its price paid, the marks of issue made. -/
abbrev State.issued (s : State) (c : Cur) (g : Group) (q : Nat) : State := (s.paid c.core q).markIssued (s.issOf c g)

section
variable {s : State} {c : Cur} {g : Group}

theorem issued_group (h : s.group c.core c.frame = some g) (q : Nat) :
    (s.issued c g q).group c.core c.frame = some (g.marked c) :=
  State.markIssued_group (x := s.issOf c g) ((State.paid_group ..).trans h)

theorem issued_kept (h : s.group c.core c.frame = some g) (q : Nat) : Kept s (s.issued c g q) c q g (g.marked c) :=
  kept_of (issued_group h q) (fun _ _ => rfl) rfl rfl

theorem issued_groups (h : s.group c.core c.frame = some g) (q : Nat) :
    (s.issued c g q).groups = tset s.groups (gkey c.core c.frame) (g.marked c) := by
  have hpaid : (s.paid c.core q).groups = s.groups := State.charge_groups ..
  have hgroup : ∀ f, ((s.paid c.core q).modCore c.core f).group c.core c.frame = some g :=
    fun _ => (State.paid_group ..).trans h
  unfold State.issued State.markIssued
  dsimp only
  rw [State.issOf_core, State.issOf_frame, State.modGroup_some _ (hgroup _)]
  exact congrArg (fun t => tset t _ _) hpaid

theorem earlyOps_eq_nil_iff (s : State) (core : Nat) :
    s.earlyOps core = [] ↔ ∀ p ∈ s.groups, p.1 / 32 = core → p.2.ops.filter MemOp.early = [] := by
  unfold State.earlyOps State.groupsOn
  simp only [List.flatten_eq_nil_iff, List.forall_mem_map, List.map_eq_nil_iff, List.mem_filter, beq_iff_eq, and_imp]

theorem issued_earlyOps (h : s.group c.core c.frame = some g) (q : Nat) (he : s.earlyOps c.core = []) :
    (s.issued c g q).earlyOps c.core = [] := by
  rw [earlyOps_eq_nil_iff] at he ⊢
  rw [issued_groups h]
  intro p hp hcore
  rcases mem_tset hp with rfl | hp
  · exact he (_, g) (tfind_mem h) hcore
  · exact he p hp hcore

/-- A group that may take a trap may take it when its word has issued. -/
theorem issued_mayTrap {w : Launch} (h : s.group c.core c.frame = some g) (q : Nat) (ht : Spec.MayTrap s c.core c.frame g w) :
    Spec.MayTrap (s.issued c g q) c.core c.frame (g.marked c) w := by
  obtain ⟨hmode, htx, hpass, hearly, hlaunch, hneed⟩ := ht
  have hrest := (issued_kept h q).rest
  refine ⟨hmode, htx, ?_, issued_earlyOps h q hearly, ?_, hneed⟩
  · rw [hrest]; exact hpass
  · rw [hrest]; exact hlaunch

theorem record_eq_recordOf (s : State) (c : Cur) (g : Group) (ms : Option Nat) (cause sub : Nat) (fault : Mask) :
    (s.issOf c g).record ms cause sub fault 0 = Spec.recordOf c g ((s.issOf c g).eff ms) cause sub fault := by
  have hxir : (s.issOf c g).xir = c.xir := rfl
  unfold Iss.record Spec.recordOf
  rw [State.issOf_g, State.issOf_slices, hxir]
  cases g.ctx.xirOf (c.slices.headD 0) with
  | none => cases c.xir <;> rfl
  | some q => cases c.xir <;> rfl

theorem recordOf_cause (c : Cur) (g : Group) (e : Mask) (cause sub : Nat) (fault : Mask) :
    (Spec.recordOf c g e cause sub fault).cause = cause := by
  unfold Spec.recordOf
  split <;> rfl

end

end Sys2Proof.Machine
end

section
/-! SUPPORT. The integer words under a bound that traps (R83, R378, R382), and what all of them leave. -/

namespace Sys2Proof.Machine

open Sys2Proof.Safety

section
variable {a : Alu} {i : Instr} {w : Bool} {s : State} {c : Cur} {g : Group} {val : Nat → Word} {d : Nat} {srcs : List Nat}
  {va : Option Nat} {m : Nat} {b : Bound} {code : Fmt}

theorem maskOf_ne_zero {e : Mask} {p : Nat → Bool} (h : (List.range 32).filter (fun l => hasLane e l && p l) ≠ []) :
    maskOf (fun l => hasLane e l && p l) ≠ 0 := by
  obtain ⟨l, hl⟩ := List.exists_mem_of_ne_nil _ h
  rw [List.mem_filter, List.mem_range] at hl
  intro hz
  have hlane := hasLane_maskOf (fun l => hasLane e l && p l) l hl.1
  rw [hz, hl.2] at hlane
  simp [hasLane] at hlane

/-- A word with results outside a bound that traps: nothing is written, the trap names the lanes outside (R83, R378, R382). -/
theorem Alu.Gives.trapped (h : a.Gives i w (s.issOf c g) g.ctx code val) (ho : a.Operands d srcs va m)
    (hi : Issues s c g i { srcs := srcs, dsts := [d], ms := some m, wideOk := w, inXir := true } 16)
    (hb : boundOf (s.boundsOf g) ((s.issOf c g).resultIndex va code) = some b) (hfmt : b.fmt = code) (hf : Int32 code)
    (hm : b.mode = .trap)
    (houts : outLanes b ((s.issOf c g).eff (some m)) val ≠ []) {l : Launch} (ht : Spec.MayTrap s c.core c.frame g l) :
    ∃ t, exec i s = .next t ∧ Spec.TrapTaken s t c.core c.frame g g.ctx
      (Spec.recordOf c g ((s.issOf c g).eff (some m)) 10 ((s.issOf c g).resultIndex va code)
        (maskOf (fun n => hasLane ((s.issOf c g).eff (some m)) n && Spec.outside b (val n)))) l := by
  subst hfmt
  have hgo := issueWord_go (h.issues ho hi) (h.verdict ho (boundOk_of_boundOf hb rfl)) (cost_le (h.price ▸ h.cheap) ..)
  refine ⟨_, (h.means s).trans hgo, ?_⟩
  generalize Spec.cost i g srcs ((s.issOf c g).eff (some m)) (Spec.resultOf i c g srcs) = q
  have hbad := checkLanes_trap (m := (s.issOf c g).eff (some m)) hb hf hm h.value
  have hwrite : (s.issued c g q).writeResult (s.issOf c g) (some m) false d (Spec.resultOf i c g srcs) b.fmt
      ((s.issOf c g).resultIndex va b.fmt) ((s.issOf c g).eff (some m)) (a.lane (s.issOf c g) g.ctx) =
      (s.issued c g q).takeTrap c.core c.frame
        (Spec.recordOf c g ((s.issOf c g).eff (some m)) 10 ((s.issOf c g).resultIndex va b.fmt)
          (maskOf (fun n => hasLane ((s.issOf c g).eff (some m)) n && Spec.outside b (val n)))) := by
    unfold State.writeResult Ctx.write
    simp only [State.issOf_core, State.issOf_frame, State.issOf_bounds, issued_group hi.group, hbad, bne_iff_ne,
      if_pos (maskOf_ne_zero houts), record_eq_recordOf]
  rw [hwrite]
  exact TrapTaken.behind (x := s.issOf c g) ht.mode (TrapTaken.of_kept (issued_kept hi.group q) rfl
    (takeTrap_trapTaken (issued_mayTrap hi.group q ht) (issued_group hi.group q) (by rw [recordOf_cause]; decide)))

end

/-! ### The statement -/

/-- Settles O1: every word of the tables has its machine word (`Alu.Gives`), which writes its result in bounds, as a flag-mode or
clamp-mode bound leaves it, or traps. -/
theorem integerResults : Obligations.IntegerResults := by
  unfold Obligations.IntegerResults
  refine ⟨?binary, ?unary, ?immediate, ?imad, ?bfi, ?bounds⟩
  case binary =>
    intro i r hr s c g hi ha hb x code val hin
    obtain ⟨cd, n, f, h⟩ := intBinary_gives hr
    exact (h.gives (s.issOf c g) ha hb).result (alu32_operands h.narrow.1 ..) hi hin
  case unary =>
    intro i r hr s c g hi ha x code val hin
    obtain ⟨cd, f, h⟩ := intUnary_gives hi.form hr
    exact (h.gives (s.issOf c g) ha).result (unaryAlu_operands h.narrow.1 ..) hi hin
  case immediate =>
    intro i r hr s c g hi ha x code val hin
    rcases intImmediate_gives hr with ⟨d, m, j, rfl⟩ | ⟨a, n, f, h⟩
    · cases hr
      exact (mov_gives d m j (s.issOf c g) g.ctx).result ⟨rfl, rfl, rfl, rfl⟩ hi hin
    · obtain ⟨d, src, m, j, op⟩ := r
      obtain rfl : src = some a := h.source
      exact (h.gives (s.issOf c g) (ha a rfl)).result (aluImm_operands ..) hi hin
  case imad =>
    intro d a b e m s c g hi ha hb he x code val hin
    exact (imad_gives (s.issOf c g) ha hb he).result ⟨rfl, rfl, rfl, rfl⟩ hi hin
  case bfi =>
    intro d a m w p s c g hi ha hd x code val hin
    exact (bfi_gives (s.issOf c g) ha hd).result ⟨rfl, rfl, rfl, rfl⟩ hi hin
  case bounds =>
    intro i r hr s c g b hi ha hb x code val ix e hbound hfmt hcode k out outs
    obtain ⟨cd, n, f, h⟩ := intBinary_gives hr
    have hgives := h.gives (s.issOf c g) ha hb
    have hops := alu32_operands (d := r.d) (a := r.a) (b := r.b) (m := r.m) h.narrow.1 cd (affRule (Spec.rowOf i)) (2 * n, n) f
    constructor
    · intro hm
      obtain ⟨t, y, hnext, hkept, hctx, hflag, hwrote⟩ := hgives.bounded hops hi hbound hfmt hcode hm
      exact ⟨t, y, hnext, hkept, hctx, hflag, wrote_bounded hwrote⟩
    · intro hm houts w hw
      exact hgives.trapped hops hi hbound hfmt hcode hm houts hw

end Sys2Proof.Machine
end

section
/-! SUPPORT. The comparisons icmp and fcmp (R52, R213, R224, R241): a word that writes a mask, and the conditions of the machine on
orders as those of the spec on values. -/

namespace Sys2Proof.Machine

open Sys2Proof.Safety

/-! ### Words that write a mask -/

/-- A word that writes a mask register and that no xir may hold: it completes with the mask (R52). -/
theorem issueMask_writes {s : State} {c : Cur} {g : Group} {i : Instr} {srcs : List Nat} {regs : List (Nat × Cls)} {own : Iss → Verdict}
    {p : Nat × Nat} {d : Nat} {m : Mask} (hi : Issues s c g i { srcs := srcs } 16) (hd : 1 ≤ d)
    (he : exec i s = issueWord i { srcs := srcs } own s)
    (hv : own (s.issOf c g) = maskVerdict (s.issOf c g) d regs p m)
    (hs : regs.all (fun r => sourceOk g.ctx r.1 r.2) = true) (hr : (regs.map (fun r => sourceRegs r.1 r.2)).flatten = srcs)
    (hp : p.1 ≤ 16 ∧ p.2 ≤ 16) :
    WritesMask s c g i (maskPrice p (srcs.map (fun v => (g.ctx.reg v).shape))) d m := by
  have hgo : own (s.issOf c g) = .go (maskPrice p (srcs.map (fun v => (g.ctx.reg v).shape)))
      (fun u => u.onCtx (s.issOf c g) (fun k => k.setMask d m)) := by
    rw [hv]
    unfold maskVerdict
    simp only [State.issOf_g, hs, hr, if_true]
  have hq : maskPrice p (srcs.map (fun v => (g.ctx.reg v).shape)) ≤ 16 := by
    unfold maskPrice
    split
    · exact hp.2
    · exact hp.1
  have hxir := xir_false_of_issues hi rfl
  obtain ⟨y, hkept, hctx⟩ := effect_frame (rs := srcs ++ []) hi.group ((s.issOf c g).advance (g.ctx.setMask d m))
    (fun u => u.onCtx (s.issOf c g) (fun k => k.setMask d m))
    (fun u y hu hy => by
      unfold State.onCtx
      rw [State.issOf_core, State.issOf_frame, State.modGroup_some _ hu, hy])
  have hlast : y.ctx = (s.issOf c g).advance (g.ctx.setMask d m) := by
    rcases hctx with ⟨e, -⟩ | ⟨hc, -⟩
    · exact e
    · rw [hxir] at hc; cases hc
  have hadv : (s.issOf c g).advance (g.ctx.setMask d m) =
      { g.ctx.setMask d m with slices := stepSlices g.ctx.slices c.slices false } := by
    unfold Iss.advance
    rw [show (s.issOf c g).xir = false from hxir]
    rfl
  rw [hadv] at hlast
  refine ⟨_, y, he.trans (issueWord_go hi hgo hq), hkept, ?_, fun k hk => ?_⟩
  · rw [hlast]; rfl
  · rw [hlast]
    refine (Ctx.maskAt_setMask g.ctx d k m).trans ?_
    by_cases hkd : k = d
    · rw [if_pos hkd, if_pos (by omega)]
    · rw [if_neg hkd, if_neg (by omega)]

/-! ### Conditions -/

/-- A 64-bit value that a source of a type of icmp has: a single register's lies below 2 ^ 32. -/
def TypeValue (t : IntTy) (x : Word64) : Prop := (Spec.typeClass t).wide = false → x.toNat < 2 ^ 32

theorem typeValue_value (t : IntTy) (c : Ctx) (v l : Nat) : TypeValue t (Spec.value c (Spec.typeClass t) v l) := fun h => by
  unfold Spec.value
  rw [h, if_neg Bool.false_ne_true, BitVec.zeroExtend_eq_setWidth, BitVec.toNat_setWidth_of_le (by decide)]
  exact (c.lane v l).isLt

theorem sourceVal_value (c : Ctx) (v : Nat) (k : Cls) (l : Nat) : sourceVal c v k l = (Spec.value c k v l).toNat := by
  unfold sourceVal Spec.value
  split
  · rfl
  · rw [BitVec.zeroExtend_eq_setWidth, BitVec.toNat_setWidth_of_le (by decide)]

theorem signExt_low (x : Word64) : signExt x.toNat 32 = (x.truncate 32).toInt := by
  rw [← signExt_toNat, BitVec.truncate_eq_setWidth, BitVec.toNat_setWidth]
  unfold signExt
  rw [Nat.mod_mod]

/-- A test of an order is the test of what the order means. -/
theorem order_beq {o p : Ordering} {q : Prop} [Decidable q] (h : o = p ↔ q) : (o == p) = decide q := by
  rw [Bool.eq_iff_iff, beq_iff_eq, h, decide_eq_true_eq]

theorem intOrder_gt (t : IntTy) (x y : Nat) : (intOrder t x y == .gt) = (intOrder t y x == .lt) := by
  cases t with
  | s32 | s64 => exact (order_beq Int.compare_eq_gt).trans (order_beq Int.compare_eq_lt).symm
  | n32 | n64 => exact (order_beq Nat.compare_eq_gt).trans (order_beq Nat.compare_eq_lt).symm

theorem intOrder_lt {t : IntTy} {x y : Word64} (hx : TypeValue t x) (hy : TypeValue t y) :
    (intOrder t x.toNat y.toNat == .lt) = Spec.less t x y := by
  cases t with
  | s32 =>
    show (compare (signExt x.toNat 32) (signExt y.toNat 32) == .lt) = (x.truncate 32).slt (y.truncate 32)
    rw [order_beq Int.compare_eq_lt, signExt_low, signExt_low, BitVec.slt_eq_decide]
  | n32 =>
    show (compare x.toNat y.toNat == .lt) = (x.truncate 32).ult (y.truncate 32)
    rw [order_beq Nat.compare_eq_lt, BitVec.ult_eq_decide, BitVec.truncate_eq_setWidth, BitVec.truncate_eq_setWidth, BitVec.toNat_setWidth,
      BitVec.toNat_setWidth, Nat.mod_eq_of_lt (hx rfl), Nat.mod_eq_of_lt (hy rfl)]
  | s64 =>
    show (compare (signExt x.toNat 64) (signExt y.toNat 64) == .lt) = x.slt y
    rw [order_beq Int.compare_eq_lt, signExt_toNat, signExt_toNat, BitVec.slt_eq_decide]
  | n64 =>
    show (compare x.toNat y.toNat == .lt) = x.ult y
    rw [order_beq Nat.compare_eq_lt, BitVec.ult_eq_decide]

theorem intOrder_eq {t : IntTy} {x y : Word64} (hx : TypeValue t x) (hy : TypeValue t y) :
    (intOrder t x.toNat y.toNat == .eq) = (x == y) := by
  have hnat : (compare x.toNat y.toNat == .eq) = (x == y) := by
    rw [order_beq Nat.compare_eq_eq, Bool.eq_iff_iff, decide_eq_true_eq, beq_iff_eq, BitVec.toNat_inj]
  cases t with
  | n32 => exact hnat
  | n64 => exact hnat
  | s32 =>
    show (compare (signExt x.toNat 32) (signExt y.toNat 32) == .eq) = (x == y)
    rw [order_beq Int.compare_eq_eq, signExt_low, signExt_low, Bool.eq_iff_iff, decide_eq_true_eq, beq_iff_eq, BitVec.toInt_inj]
    refine ⟨fun h => BitVec.eq_of_toNat_eq ?_, fun h => by rw [h]⟩
    have hlow := congrArg BitVec.toNat h
    rw [BitVec.truncate_eq_setWidth, BitVec.truncate_eq_setWidth, BitVec.toNat_setWidth, BitVec.toNat_setWidth,
      Nat.mod_eq_of_lt (hx rfl), Nat.mod_eq_of_lt (hy rfl)] at hlow
    exact hlow
  | s64 =>
    show (compare (signExt x.toNat 64) (signExt y.toNat 64) == .eq) = (x == y)
    rw [order_beq Int.compare_eq_eq, signExt_toNat, signExt_toNat, Bool.eq_iff_iff, decide_eq_true_eq, beq_iff_eq, BitVec.toInt_inj]

/-- A condition of icmp on the order of two values is the condition of the spec (R224). -/
theorem cmpHolds_intOrder {t : IntTy} {x y : Word64} (hx : TypeValue t x) (hy : TypeValue t y) (k : CmpCond) :
    cmpHolds k (intOrder t x.toNat y.toNat) = Spec.intCond t x y k := by
  have hlt := intOrder_lt hx hy
  have hgt := (intOrder_gt t x.toNat y.toNat).trans (intOrder_lt hy hx)
  have heq := intOrder_eq hx hy
  cases k with
  | eq => exact heq
  | ne => exact congrArg Bool.not heq
  | lt => exact hlt
  | gt => exact hgt
  | le => exact congrArg Bool.not hgt
  | ge => exact congrArg Bool.not hlt

theorem fcmpHolds_eq (k : FCond) (x y : Val) : fcmpHolds k x y = Spec.floatCond x y k := by
  cases k with
  | un | ord | ne | eq | lt | gt => rfl
  | le =>
    unfold fcmpHolds Spec.floatCond
    cases x.cmp y <;> rfl
  | ge =>
    unfold fcmpHolds Spec.floatCond
    cases x.cmp y <;> rfl

/-! ### icmp and fcmp in the terms of the spec -/

theorem cmpCls_eq_typeClass : cmpCls = Spec.typeClass := by
  funext t
  cases t <;> rfl

theorem ffCode_eq_floatFmt : ffCode = Spec.floatFmt := by
  funext t
  cases t <;> rfl

theorem exec_icmp (d a b : Nat) (t : IntTy) (k : CmpCond) (s : State) :
    exec (.icmp d a b t k) s = issueWord (.icmp d a b t k)
      { srcs := sourceRegs a (Spec.typeClass t) ++ sourceRegs b (Spec.typeClass t) }
      (fun x => maskVerdict x d [(a, Spec.typeClass t), (b, Spec.typeClass t)] (Spec.price (.icmp d a b t k))
        (maskOf (fun l => hasLane x.act l && Spec.intCond t (Spec.value x.g.ctx (Spec.typeClass t) a l)
          (Spec.value x.g.ctx (Spec.typeClass t) b l) k))) s := by
  have hprice : (if IntTy_size t = 8 then ((4, 2) : Nat × Nat) else (2, 1)) = Spec.price (.icmp d a b t k) := by cases t <;> rfl
  have hcond : ∀ (y : Ctx) (l : Nat),
      cmpHolds k (intOrder t (sourceVal y a (Spec.typeClass t) l) (sourceVal y b (Spec.typeClass t) l)) =
        Spec.intCond t (Spec.value y (Spec.typeClass t) a l) (Spec.value y (Spec.typeClass t) b l) k := fun y l => by
    rw [sourceVal_value, sourceVal_value]
    exact cmpHolds_intOrder (typeValue_value _ _ _ _) (typeValue_value _ _ _ _) k
  show execIcmp d a b t k s = _
  unfold execIcmp
  simp only [cmpCls_eq_typeClass, hprice, hcond]

theorem exec_fcmp (d a b : Nat) (t : FFmt) (k : FCond) (s : State) :
    exec (.fcmp d a b t k) s = issueWord (.fcmp d a b t k) { srcs := [a, b] }
      (fun x => maskVerdict x d [(a, .is (Spec.floatFmt t)), (b, .is (Spec.floatFmt t))] (2, 2)
        (maskOf (fun l => hasLane x.act l && Spec.floatCond (decodeElem (Spec.floatFmt t) (x.g.ctx.lane a l).toNat)
          (decodeElem (Spec.floatFmt t) (x.g.ctx.lane b l).toNat) k))) s := by
  show execFcmp d a b t k s = _
  unfold execFcmp
  simp only [ffCode_eq_floatFmt, fcmpHolds_eq]

theorem isMaskDst_pos {d : Nat} (h : isMaskDst d = true) : 1 ≤ d := by
  unfold isMaskDst at h
  simp only [Bool.and_eq_true, decide_eq_true_eq] at h
  exact h.1

theorem icmp_dst {d a b : Nat} {t : IntTy} {k : CmpCond} (h : (Instr.icmp d a b t k).wf = true) : 1 ≤ d := by
  simp only [Instr.wf, Bool.and_eq_true] at h
  exact isMaskDst_pos h.1.1

theorem fcmp_dst {d a b : Nat} {t : FFmt} {k : FCond} (h : (Instr.fcmp d a b t k).wf = true) : 1 ≤ d := by
  simp only [Instr.wf, Bool.and_eq_true] at h
  exact isMaskDst_pos h.1.1

theorem floatFmt_narrow (t : FFmt) : (Cls.is (Spec.floatFmt t)).wide = false := by cases t <;> rfl

theorem sourceOk_floatFmt {c : Ctx} {v : Nat} {t : FFmt} (h : (c.reg v).fmt = Spec.floatFmt t) :
    sourceOk c v (.is (Spec.floatFmt t)) = true := by
  simp [sourceOk, Cls.accepts, h, floatFmt_narrow]

/-- The price of a word that writes a mask (R158, R213). -/
theorem maskPrice_maskCost (i : Instr) (g : Group) (srcs : List Nat) :
    maskPrice (Spec.price i) (srcs.map (fun v => (g.ctx.reg v).shape)) = Spec.maskCost i g srcs := by
  unfold maskPrice Spec.maskCost
  rw [List.all_map]
  rfl

theorem maskPrice_same (n : Nat) (l : List Shape) : maskPrice (n, n) l = n := ite_self _

theorem icmp_price_le (d a b : Nat) (t : IntTy) (k : CmpCond) :
    (Spec.price (.icmp d a b t k)).1 ≤ 16 ∧ (Spec.price (.icmp d a b t k)).2 ≤ 16 := by
  unfold Spec.price
  dsimp only
  split <;> decide

/-! ### The statement -/

/-- Settles O3: icmp and fcmp give their masks by `maskVerdict`, under conditions that are the spec's. -/
theorem comparisons : Obligations.Comparisons := by
  unfold Obligations.Comparisons
  constructor
  case left =>
    intro d a b t k s c g hi ha hb
    rw [← maskPrice_maskCost]
    exact issueMask_writes hi (icmp_dst hi.form) (exec_icmp ..) rfl (by simp [ha, hb]) (by simp) (icmp_price_le ..)
  case right =>
    intro d a b t k s c g hi ha hb
    have hmask := issueMask_writes hi (fcmp_dst hi.form) (exec_fcmp ..) rfl (by simp [sourceOk_floatFmt ha, sourceOk_floatFmt hb])
      (by simp [sourceRegs_narrow (floatFmt_narrow t)]) (by decide)
    rwa [maskPrice_same] at hmask

end Sys2Proof.Machine
end

section
/-! SUPPORT. The mask words (R226, R248): a word whose effect is a whole mask, and one that reads a mask into a register of code
n32 under Active(). -/

namespace Sys2Proof.Machine

open Sys2Proof.Safety

/-! ### Words that write a whole mask -/

/-- The advance of a gang past a word outside an xir. -/
theorem advance_issOf {c : Cur} (h : c.xir = false) (s : State) (g : Group) (k : Ctx) :
    (s.issOf c g).advance k = { k with slices := stepSlices k.slices c.slices false } :=
  if_neg (show ¬ c.xir = true by simp [h])

/-- A word that no xir may hold and whose effect changes the context of its group: it completes with the change and the advance. -/
theorem issueWord_onCtx {s : State} {c : Cur} {g : Group} {i : Instr} {d : Desc} {p q : Nat} {own : Iss → Verdict}
    {f : Ctx → Ctx} (hi : Issues s c g i d p) (hx : d.inXir = false)
    (hv : own (s.issOf c g) = .go q (fun u => u.onCtx (s.issOf c g) f)) (hq : q ≤ p) :
    ∃ t h, issueWord i d own s = .next t ∧ Kept s t c q g h ∧
      h.ctx = { f g.ctx with slices := stepSlices (f g.ctx).slices c.slices false } :=
  ⟨_, _, issueWord_setGroup hi hx hv hq (fun _ hu => State.modGroup_some _ hu), kept_of_mod rfl (fun _ _ => rfl) rfl rfl,
    advance_issOf (xir_false_of_issues hi hx) ..⟩

/-- A word that no xir may hold and whose effect sets mask register `d` completes with it (R52). -/
theorem issueWord_setsMask {s : State} {c : Cur} {g : Group} {i : Instr} {k : Desc} {p q d : Nat} {m : Mask}
    {own : Iss → Verdict} (hi : Issues s c g i k p) (hx : k.inXir = false) (hd : 1 ≤ d)
    (he : exec i s = issueWord i k own s)
    (hv : own (s.issOf c g) = .go q (fun u => u.onCtx (s.issOf c g) (fun y => y.setMask d m))) (hq : q ≤ p) :
    WritesMask s c g i q d m := by
  obtain ⟨t, h, hnext, hkept, hctx⟩ := issueWord_onCtx hi hx hv hq
  have hmasks : h.ctx.masks = (g.ctx.setMask d m).masks := by rw [hctx]
  refine ⟨t, h, he.trans hnext, hkept, ?_, fun n hn => ?_⟩
  · rw [hmasks, hctx]
    rfl
  · calc h.ctx.maskAt n
        = (g.ctx.setMask d m).maskAt n := by unfold Ctx.maskAt; rw [hmasks]
      _ = if d - 1 = n - 1 then m else g.ctx.maskAt n := Ctx.maskAt_setMask ..
      _ = if n = d then m else g.ctx.maskAt n := ite_congr (propext (by omega)) (fun _ => rfl) (fun _ => rfl)

/-- The mask registers that an issue reads, m0 as Active() (R226). -/
theorem maskReg_issOf (s : State) (c : Cur) (g : Group) :
    (s.issOf c g).maskReg = fun k => if k = 0 then c.active else g.ctx.maskAt k := rfl

/-- Every mask operation of the spec's table has its meaning in the machine. -/
theorem exec_maskWord {i : Instr} {d : Nat} {f : (Nat → Mask) → Mask} (h : Spec.maskWord i = some (d, f)) (s : State) :
    exec i s = issueMaskOp i d (fun x => f x.maskReg) s := by
  cases i
  case mand | mor | mxor | mandn | mnot | mmov => cases h; rfl
  all_goals cases h

theorem maskWord_dst {i : Instr} {d : Nat} {f : (Nat → Mask) → Mask} (h : Spec.maskWord i = some (d, f)) (hw : i.wf = true) :
    1 ≤ d := by
  cases i
  case mand | mor | mxor | mandn =>
    cases h
    simp only [Instr.wf, Bool.and_eq_true] at hw
    exact isMaskDst_pos hw.1.1
  case mnot | mmov =>
    cases h
    simp only [Instr.wf, Bool.and_eq_true] at hw
    exact isMaskDst_pos hw.1
  all_goals cases h

theorem vtom_dst {d a : Nat} (h : (Instr.vtom d a).wf = true) : 1 ≤ d := by
  simp only [Instr.wf, Bool.and_eq_true] at h
  exact isMaskDst_pos h.1

theorem ballot_dst {d a : Nat} (h : (Instr.ballot d a).wf = true) : 1 ≤ d := by
  simp only [Instr.wf, Bool.and_eq_true] at h
  exact isMaskDst_pos h.1

/-- What a lane exchange reads in a lane is Src of R247. -/
theorem srcLane_eq_source (y : Ctx) (a l : Nat) : srcLane y a l = Spec.source y a l := by
  simp only [srcLane, Spec.source, Bool.and_eq_true, decide_eq_true_eq]

/-! ### Words that read a mask into a register -/

/-- The number of lanes of a mask is the number of its 1 bits (R226). -/
theorem lanesOf_length (m : Mask) : (lanesOf m).length = Spec.ones 32 m.getLsbD := rfl

/-- The lowest lane of a mask is the number of 0 bits below its lowest 1 bit, 32 for the empty one (R226). -/
theorem lowest_getD (m : Mask) : (lowest m).getD 32 = Spec.trailing 32 m.getLsbD :=
  congrArg (Option.getD · 32) (List.head?_filter ..)

/-- A word that reads a mask into a register of code n32: its values are in bounds, and it completes with them under Active()
(R45, R226). -/
theorem maskToReg_writes {s : State} {c : Cur} {g : Group} {i : Instr} {d q : Nat} {k : ResK} {n : Iss → Nat → Nat}
    {val : Nat → Word} (hi : Issues s c g i { dsts := [d] } 16)
    (he : exec i s = issueWord i { dsts := [d] } (fun x => maskToReg x d q k (n x)) s) (hq : q ≤ 16)
    (hval : ∀ l, BitVec.ofNat 32 (n (s.issOf c g) l) = val l) (hk : KindFits k val)
    (hb : InBounds (s.boundsOf g) ((s.issOf c g).resultIndex none .n32) .n32 c.active (single val)) :
    WritesReg s c g i q d .n32 ((s.issOf c g).resultIndex none .n32) k c.active val := by
  have hlow : (fun l => lo32 (BitVec.ofNat 64 (n (s.issOf c g) l))) = val :=
    funext (fun l => (lo32_ofNat _).trans (hval l))
  have hgo : maskToReg (s.issOf c g) d q k (n (s.issOf c g)) = .go q (fun u => u.writeResult (s.issOf c g) none false d k .n32
      ((s.issOf c g).resultIndex none .n32) c.active (fun l => BitVec.ofNat 64 (n (s.issOf c g) l))) :=
    if_pos hb.1
  obtain ⟨t, y, hnext, hkept, hctx, hwrote, -⟩ := issueWord_wrote (own := fun x => maskToReg x d q k (n x)) hi hgo hq
    (inBounds_low rfl (fun l => (lo32_single _).trans (congrFun hlow l).symm) hb) (hlow ▸ hk) (fun e => nomatch e)
  exact ⟨t, y, he.trans hnext, hkept, hctx, hlow ▸ hwrote⟩

/-! ### The statement -/

/-- Settles O4: a mask operation, vtom and ballot set a whole mask, the others write what they read of a mask to a register. -/
theorem maskWords : Obligations.MaskWords := by
  unfold Obligations.MaskWords
  refine ⟨?operations, ?vtom, ?ballot, ?readers⟩
  case operations =>
    intro i d f hf s c g hi
    rw [← maskReg_issOf s c g]
    exact issueWord_setsMask hi rfl (maskWord_dst hf hi.form) (exec_maskWord hf s) rfl (by decide)
  case vtom =>
    intro d a s c g hi ha
    rw [← maskPrice_maskCost]
    exact issueMask_writes (p := (2, 1)) hi (vtom_dst hi.form) rfl rfl (by simp [ha]) rfl (by decide)
  case ballot =>
    intro d a s c g hi ha
    simp only [← srcLane_eq_source]
    exact issueWord_setsMask hi rfl (ballot_dst hi.form) rfl (if_pos ha) (by decide)
  case readers =>
    intro i d f hf s c g hi ix val hb kind
    cases i
    case mpop =>
      cases hf
      exact maskToReg_writes (q := 1) hi rfl (by decide) (fun _ => congrArg _ (lanesOf_length _)) (kindFits_uni _) hb
    case mfirst =>
      cases hf
      exact maskToReg_writes (q := 1) hi rfl (by decide) (fun _ => congrArg _ (lowest_getD _)) (kindFits_uni _) hb
    case mtov =>
      cases hf
      exact maskToReg_writes (q := 2) hi rfl (by decide) (fun _ => apply_ite ..) ⟨(nomatch ·), (nomatch ·)⟩ hb
    all_goals cases hf

end Sys2Proof.Machine
end
